-- ==== Sys2Proof/Word.lean ====
section
/-! DEFINITION. The word types of the DNB-192 (R34, R137). -/

namespace Sys2Proof

abbrev Byte := BitVec 8
abbrev Half16 := BitVec 16
/-- One lane of a vector register (R137). -/
abbrev Word := BitVec 32
/-- A scalar register, an instruction word, a device address (R34, R137, R172). -/
abbrev DWord := BitVec 64
/-- A lane mask: lane 0 in bit 0, bits at lane W and above zero (R36, R364). -/
abbrev Mask := BitVec 64

end Sys2Proof
end

