-- ==== Sys2Proof/Config.lean ====
section
/-! DEFINITION. The free values: constants without a body, of which nothing can be proved. Each is named in an
assumption log entry. -/

namespace Sys2Proof.Config

/-- Core cycles that core `core` counts between step `n` and step `n + 1` of the model (R8: no timing is fixed). Free value (log 4). -/
opaque cycleGap : Nat → Nat → Nat

/-- In every `cyclePeriod core + 1` steps at least one core cycle passes: a clock does not stand still for ever. DEDUCED (log 4). -/
opaque cyclePeriod : Nat → Nat

/-- Which point of H, among those R200 allows, a first stable read returns. Free value (log 6). -/
opaque homePoint : Nat → Nat

/-- Which of the two bracketing F32 values a special function returns at an argument (R73): function code, FTZ, DAZ,
argument. True means the value of larger magnitude. Free value (log 3). -/
opaque specialOuter : Nat → Bool → Bool → BitVec 32 → Bool

/-- The signature of an attestation record (R389), from the signed bytes: 29,792 bytes, which is the signature of FIPS 205
under SLH-DSA-SHAKE-256s (PRESUMED); key material is not in the spec. Free value (log 7). -/
opaque attestSign : List (BitVec 8) → BitVec (8 * 29792)

/-- Part number and generation of the device, 8 bytes (R389). Free value (log 7). -/
opaque partNumber : BitVec 64

/-- SHAKE256 digest of the device's identity public key, 32 bytes (R389). Free value (log 7). -/
opaque keyDigest : BitVec 256

/-- SHAKE256 digests of the device's firmware images, 32 bytes each (R389). Free value (log 7). -/
opaque firmwareDigests : List (BitVec 256)

/-- The device's own number in the fabric: the spec names no register that sets it (R382). Free value (log 8). -/
opaque deviceNumber : BitVec 21

/-- Whether an issued but unperformed lane request of a discarded launch takes its point in H (R366). Free value (log 10). -/
opaque discardPerforms : Nat → Bool

/-- High half of the fill element of an 8-byte tile type, from the 32-bit FILL field of the layout record, which states
no more than its low half (Table 14-1). Free value (log 11). -/
opaque fillHigh : BitVec 32 → BitVec 32

/-- How far a cluster's highest floor falls at a supply depth in millivolts, with its clock throttled by so many steps and
its shunt drawing or not (R290). Free value (log 12). -/
opaque floorDrop : Nat → Nat → Bool → Nat

/-- The parity that a point shows once its ERR is set, when every phase completes as it opens (R216). Free value (log 75). -/
opaque erredParity : Nat → Bool

/-- VALUE of the record of an uncorrectable error in a claim entry, of a step and an entry (R362, Table 23-1).
Free value (log 81). -/
opaque claimErrorValue : Nat → Nat → BitVec 64

/-- Nanojoules that a shunt draws from the house reserve over a window (R282). Free value (log 13). -/
opaque shuntDraw : Nat → Nat

/-- Which of several candidates the device takes where the spec leaves the choice to it (cores to reserve, a free
copy-engine context): a key for a step and a candidate; the candidate of the least key is taken. Free value (log 14). -/
opaque choiceKey : Nat → Nat → Nat

end Sys2Proof.Config
end

