-- ==== Sys2Proof/Syntax.lean ====
section
/-! DEFINITION. The instructions: one constructor of `Instr` per row of the operation table. An instruction row carries
the fields of its 64-bit word (03_encoding.md), an event row carries what the agent that takes the step supplies
(95_what_each_step_holds.md). -/

namespace Sys2Proof

/-- Type codes of Table 3-3. -/
inductive Ty where
  | n32 | i32 | n64 | i64 | n16 | i16 | n8 | i8 | f32 | f16 | bf16 | e4m3 | e5m2 | q4
deriving DecidableEq, Repr

/-- Rounding modes of R39 and R66. -/
inductive Rnd where
  | rne | rtz | rup | rdn
deriving DecidableEq, Repr

/-- MODS[7:6] of R38: every register vector; SB a broadcast scalar; every register scalar. -/
inductive Form where
  | vec | bcast | scal
deriving DecidableEq, Repr

/-- Comparison conditions of Table 3-4; `un` is `FCMP`'s alone. -/
inductive Cond where
  | eq | ne | lt | le | gt | ge | un
deriving DecidableEq, Repr

/-- Atomic operations of Table 3-4. -/
inductive AtomOp where
  | add | min | max | and | or | xor | exch
deriving DecidableEq, Repr

/-- Scope codes of Table 10-1. -/
inductive Scope where
  | block | cohort | device | system
deriving DecidableEq, Repr

/-- Special registers of Table 5-5. -/
inductive SReg where
  | lane | width | wave | block | nblock | core | cluster | cycles | retired | charge | features | sca
deriving DecidableEq, Repr

/-- Members of `LRCHK` (R260). -/
inductive LrSel where
  | tile | span | bytes
deriving DecidableEq, Repr

/-- Predicate and lookahead of a full word (R35, R36, R52). -/
structure Hdr where
  pn : Bool
  pm : BitVec 3
  la : BitVec 4
deriving DecidableEq, Repr

/-- The register-format fields of a lane word (R37, R38). -/
structure Lane where
  h : Hdr
  form : Form
  ty : Ty
  dst : BitVec 8
  sa : BitVec 8
  sb : BitVec 8
  sc : BitVec 8
  keep : BitVec 3
deriving DecidableEq, Repr

/-- Rounding and flushing of a floating-point word (Table 3-4). -/
structure FMode where
  rnd : Rnd
  ftz : Bool
  daz : Bool
deriving DecidableEq, Repr

/-- A memory-format word (R42, Table 3-5). `ak`, `dk`: scalar kind of SA and DST. -/
structure Mem where
  h : Hdr
  dst : BitVec 8
  sa : BitVec 8
  ak : Bool
  dk : Bool
  ty : Ty
  off : BitVec 24
deriving DecidableEq, Repr

/-- A limit field (R44): an immediate, or an index of the limit table. `n` is 15 (LIM16) or 31 (LIM32). -/
inductive Lim (n : Nat) where
  | imm (v : BitVec n)
  | tbl (i : BitVec 15)
deriving DecidableEq, Repr

/-- One half of a paired word (Table 3-7, R49). -/
structure PHalf where
  op : BitVec 6
  pred : BitVec 3
  dst : BitVec 8
  src : BitVec 8
  sub : BitVec 6
deriving DecidableEq, Repr

/-- The copy words' operands (Table 14-3): result pair, first record register, tile register, point, byte limit. -/
structure CpyArgs where
  h : Hdr
  d : BitVec 6
  b : BitVec 6
  t : BitVec 6
  pt : BitVec 8
  lim : Lim 15
deriving DecidableEq, Repr

/-- A wave of the device: launch serial, block index, wave index; a sweep wave of context c has index 64 + c. -/
structure WaveId where
  serial : Nat
  block : Nat
  wave : Nat
deriving DecidableEq, Repr

/-- Where a wave holds a wait: a PC slot, or the head of its scratchpad queue. -/
inductive HoldSite where
  | slotA | slotB | spad
deriving DecidableEq, Repr

/-- A fabric flit (R381, Tables 25-6 and 25-7). -/
structure Flit where
  dest : BitVec 21
  kind : BitVec 3
  seq : BitVec 12
  ackSeq : BitVec 12
  cred0 : BitVec 4
  cred1 : BitVec 4
  vc : BitVec 2
  hops : BitVec 6
  payload : List Byte
deriving DecidableEq, Repr

/-- A step of an arrival (R213): the wave's arrival `k`; at scope `.SYSTEM`, whether the flushing read has returned (`ok`) or
failed. -/
structure ArrivalStep where
  k : Nat
  ok : Bool
deriving DecidableEq, Repr

/-- What the memory finds: a 32-byte unit with an uncorrectable error (R176), or a stack or channel that has corrected one
(R174). -/
inductive MemError where
  | uncorrected (unit : Nat)
  | corrected (place : Nat)
deriving DecidableEq, Repr

/-- A host read of registers (R376, R380): of the physical function, or of the virtual function of a partition. -/
structure RegRead where
  pf : Bool
  part : Nat
  off : Nat
  len : Nat
deriving DecidableEq, Repr

/-- Who asks for a frequency (R288). -/
inductive FreqSource where
  | host | board | blender
deriving DecidableEq, Repr

/-- Who writes an ENERGY.GRANT (R285). -/
inductive GrantVia where
  | physicalFunction | board | virtualFunction
deriving DecidableEq, Repr

inductive Instr where
  -- integer, bitwise, move, hash (Table 6-2)
  | iadd (r : Lane) | isub (r : Lane) | iaddc (r : Lane) | isadd (r : Lane) | imul (r : Lane) | imulh (r : Lane)
  | imad (r : Lane) | imin (r : Lane) | imax (r : Lane) | iabs (r : Lane) | ineg (r : Lane) | and (r : Lane)
  | or (r : Lane) | xor (r : Lane) | not (r : Lane) | shl (r : Lane) | shr (r : Lane) | shra (r : Lane)
  | rot (r : Lane) | popc (r : Lane) | clz (r : Lane) | brev (r : Lane) | bfx (r : Lane) | bfi (r : Lane)
  | icmp (c : Cond) (r : Lane) | sel (r : Lane) | mov (r : Lane)
  | movi (h : Hdr) (dst : BitVec 8) (signed : Bool) (scalar : Bool) (imm : BitVec 32)
  | nhash (r : Lane)
  -- floating point (Table 6-4)
  | fadd (m : FMode) (r : Lane) | fsub (m : FMode) (r : Lane) | fmul (m : FMode) (r : Lane) | ffma (m : FMode) (r : Lane)
  | fmin (m : FMode) (r : Lane) | fmax (m : FMode) (r : Lane) | fcmp (c : Cond) (m : FMode) (r : Lane)
  | fclass (cls : BitVec 10) (m : FMode) (r : Lane) | frint (m : FMode) (r : Lane) | fdiv (m : FMode) (r : Lane)
  | fsqrt (m : FMode) (r : Lane) | fdot2 (m : FMode) (r : Lane)
  -- special functions (Table 6-5)
  | exp2 (m : FMode) (r : Lane) | log2 (m : FMode) (r : Lane) | rcp (m : FMode) (r : Lane) | rsq (m : FMode) (r : Lane)
  | sin (m : FMode) (r : Lane) | cos (m : FMode) (r : Lane) | tanh (m : FMode) (r : Lane) | sigm (m : FMode) (r : Lane)
  | erf (m : FMode) (r : Lane)
  -- conversion (Table 4-8); `st` the source type, `r.ty` the destination type
  | cvt (st : Ty) (rnd : Rnd) (r : Lane) | pack (st : Ty) (rnd : Rnd) (r : Lane) | unpk (st : Ty) (rnd : Rnd) (r : Lane)
  | qnt (st : Ty) (rnd : Rnd) (r : Lane) | dqnt (st : Ty) (rnd : Rnd) (r : Lane)
  -- cross-lane (Table 6-6)
  | shfl (r : Lane) | shflx (r : Lane) | bcast (r : Lane) | redv (op : AtomOp) (r : Lane) | scanv (op : AtomOp) (r : Lane)
  | vtos (r : Lane) | stov (r : Lane)
  -- masks (Table 5-4)
  | mand (r : Lane) | mor (r : Lane) | mxor (r : Lane) | mnot (r : Lane) | mpop (r : Lane) | many (r : Lane) | mall (r : Lane)
  -- special registers (R112 to R114)
  | srd (h : Hdr) (keep : BitVec 3) (scalar : Bool) (code : SReg) (dst : BitVec 8)
  | swr (h : Hdr) (keep : BitVec 3) (scalar : Bool) (code : SReg) (src : BitVec 8)
  -- scratchpad atomics and full/empty bits (Tables 8-3, 8-4)
  | ats (op : AtomOp) (r : Lane) | cass (r : Lane)
  | feset (h : Hdr) (keep : BitVec 3) (scalar : Bool) (sa : BitVec 8)
  | feclr (h : Hdr) (keep : BitVec 3) (scalar : Bool) (sa : BitVec 8)
  | feqry (h : Hdr) (keep : BitVec 3) (scalar : Bool) (dst : BitVec 8) (sa : BitVec 8)
  -- global atomics (Table 9-5)
  | atg (op : AtomOp) (r : Lane) | casg (r : Lane) | redg (op : AtomOp) (r : Lane)
  -- ordering (Table 10-3)
  | phase (h : Hdr) | publ (h : Hdr) | rfsh (h : Hdr) | fence (system : Bool) (h : Hdr) | sysrel (h : Hdr)
  -- matrix words (Tables 15-5 to 15-7)
  | mqma (h : Hdr) (keepA : Bool) (b : BitVec 3) (g : BitVec 2) (sa : BitVec 8) (sb : BitVec 8) (q : BitVec 3) (bits : BitVec 2)
  | mcrd (h : Hdr) (ty : Ty) (dst : BitVec 8) (b : BitVec 3) (r : BitVec 5) (c : BitVec 8)
  | mcwr (h : Hdr) (ty : Ty) (keepA : Bool) (src : BitVec 8) (b : BitVec 3) (r : BitVec 5) (c : BitVec 8)
  | mcz (h : Hdr) (ty : Ty) (b : BitVec 3) (r : BitVec 5) (n : BitVec 8)
  | lrchk (h : Hdr) (sel : LrSel) (dst : BitVec 8) (b : BitVec 8)
  | claim (h : Hdr) (d : BitVec 6) (n : BitVec 6)
  -- register blocks (Table 7-2)
  | rcede (h : Hdr) (n : BitVec 8) | rtake (h : Hdr) (n : BitVec 8) (lim : Lim 31)
  -- queues (Table 8-5)
  | qinit (h : Hdr) (q : BitVec 4) (sa : BitVec 8) (logc : BitVec 8) (allow : BitVec 8)
  | qpush (h : Hdr) (q : BitVec 4) (sa : BitVec 8) (lim : Lim 31)
  | qpop (h : Hdr) (dst : BitVec 8) (q : BitVec 4) (lim : Lim 31)
  -- rendezvous and timelines (Table 11-3)
  | rvinit (h : Hdr) (pt : BitVec 8) (exp : BitVec 16)
  | rvarr (h : Hdr) (pt : BitVec 8) (dst : BitVec 6) (rlx : Bool) (sc : Scope) (n : BitVec 8)
  | rvexp (h : Hdr) (pt : BitVec 8) (src : BitVec 6)
  | rvwait (h : Hdr) (pt : BitVec 8) (rlx : Bool) (par : BitVec 6) (lim : Lim 31)
  | rvtest (h : Hdr) (pt : BitVec 8) (dst : BitVec 6)
  | tlwait (h : Hdr) (num : BitVec 6) (rlx : Bool) (hdl : BitVec 6) (lim : Lim 31)
  | tlread (h : Hdr) (dst : BitVec 6) (hdl : BitVec 6)
  -- claims (Table 22-3)
  | clwait (h : Hdr) (d : BitVec 6) (t : BitVec 6) (lim : Lim 31)
  | fulfil (h : Hdr) (hdl : BitVec 6) (t : BitVec 6)
  | abandon (h : Hdr) (t : BitVec 6) | clrel (h : Hdr) (t : BitVec 6) | clinv (h : Hdr) (d : BitVec 6) (a : BitVec 6)
  -- sweeps (Table 20-4)
  | swgo (h : Hdr) (c : BitVec 2) (d : BitVec 6) (arg : BitVec 6) (lim : Lim 31)
  | swait (h : Hdr) (sa : BitVec 8) | swend (h : Hdr)
  | swake (h : Hdr) (sa : BitVec 8) (scalar : Bool) (c : BitVec 2)
  | sctxr (h : Hdr) (dst : BitVec 8) (sa : BitVec 8) (scalar : Bool) (c : BitVec 2)
  | sctxw (h : Hdr) (src : BitVec 8) (sa : BitVec 8) (scalar : Bool) (c : BitVec 2)
  | snbr (h : Hdr) (dst : BitVec 8) (k : BitVec 4) (mc : BitVec 3)
  | swqry (h : Hdr) (dst : BitVec 6) (f : BitVec 2) (c : BitVec 2)
  -- memory (Tables 8-1, 9-3, 7-3)
  | lds (m : Mem) | sts (m : Mem) | dlds (m : Mem) | dsts (m : Mem)
  | ldg (home : Bool) (m : Mem) | stg (m : Mem) | ldh (m : Mem) | sth (m : Mem) | pfg (m : Mem)
  | spill (h : Hdr) (wide : Bool) (src : BitVec 8) (k : BitVec 12)
  | fill (h : Hdr) (wide : Bool) (dst : BitVec 8) (k : BitVec 12)
  | mbld (h : Hdr) (p : BitVec 3) (b : BitVec 3) (sa : BitVec 6) (sb : BitVec 6) (off : BitVec 24)
  | mbcast (h : Hdr) (p : BitVec 3) (b : BitVec 3) (sa : BitVec 6) (sb : BitVec 6) (pt : BitVec 8) (off : BitVec 16)
  | cpy (a : CpyArgs) | cpyx (a : CpyArgs) | cpyrIn (a : CpyArgs) | cpyrOut (a : CpyArgs)
  -- control (Table 3-6)
  | bra (tgt : BitVec 24) | brc (neg : Bool) (m : BitVec 3) (tgt : BitVec 24)
  | brd (neg : Bool) (m : BitVec 3) (tgt : BitVec 24) (dist : BitVec 16) | join
  | loopb (l : BitVec 3) (tgt : BitVec 24) (lim : Lim 15) | loopn (l : BitVec 3) (tgt : BitVec 24) (lim : Lim 15)
  | loopx (l : BitVec 3) (tgt : BitVec 24) | call (tgt : BitVec 24) | callt (tbl : BitVec 8) (idx : BitVec 6)
  | ret | exit | yield | nop | trap (code : BitVec 16) | brk (code : BitVec 16)
  | yieldc (pt : BitVec 8) (tgt : BitVec 24) (lim : Lim 15)
  | pairedWord (x : PHalf) (y : PHalf)
  -- events of the pipeline and of memory
  | resultWriteback (w : WaveId) (tag : Nat)
  | scratchpadAccessPerform (w : WaveId)
  | storeSetEntry (w : WaveId)
  | publicationPerform (id : Nat)
  | atomicAtHome (w : WaveId) (k : Nat)
  | homeReadArrival (w : WaveId) (k : Nat)
  | framePop (w : WaveId)
  | frameReadDone (w : WaveId) (slotB : Bool)
  | rvwaitComplete (w : WaveId) (slotB : Bool)
  | tlwaitComplete (w : WaveId) (slotB : Bool)
  | clwaitComplete (w : WaveId) (slotB : Bool)
  | qpushComplete (w : WaveId)
  | qpopComplete (w : WaveId)
  | rtakeComplete (w : WaveId) (slotB : Bool)
  | rcedeComplete (w : WaveId) (slotB : Bool)
  | ldsFillComplete (w : WaveId)
  | yieldcResume (w : WaveId) (slotB : Bool)
  | fenceComplete (w : WaveId) (slotB : Bool)
  | sysrelComplete (w : WaveId) (slotB : Bool) (ok : Bool)
  | waitLimitExpiry (w : WaveId) (site : HoldSite)
  | fillLimitExpiry (w : WaveId)
  | arrivalAtPoint (w : WaveId) (k : ArrivalStep)
  | ldhCompletion (w : WaveId) (k : Nat) (data : Option (List (Option Byte)))
  | copyCommandArrival (w : WaveId)
  | engineTurn (ctx : Nat)
  | copyOperationStart (ctx : Nat)
  | copyPieceCountdown (ctx : Nat)
  | copyFinish (ctx : Nat)
  | mbldComplete (core : Nat) (b : Nat)
  | matrixPass (core : Nat) (b : Nat)
  | matrixPassComplete (core : Nat) (b : Nat)
  | broadcastPerform (serial : Nat) (cohort : Nat)
  | sweepRunStart (ctx : Nat)
  | chunkEvaluation (ctx : Nat)
  | sweepWaveForm (ctx : Nat)
  | sweepStart (ctx : Nat)
  | sweepRunEnd (ctx : Nat)
  -- host
  | quote (part : Nat) (win : Nat)
  | accept (part : Nat) (win : Nat)
  | decline (part : Nat) (win : Nat)
  | malformed (part : Nat) (win : Nat)
  | ringRecordWrite (part : Nat)
  | tailWrite (part : Nat) (v : BitVec 32)
  | ringSet (part : Nat) (isBase : Bool) (v : BitVec 64)
  | partitionConfigWrite (part : Nat) (reg : Nat) (v : BitVec 64)
  | commit (part : Nat)
  | force (part : Nat)
  | breakingChangeApply (part : Nat)
  | reset (part : Nat)
  | functionLevelReset (part : Nat)
  | resetDone (part : Nat)
  | energyGrant (via : GrantVia) (cmd : List Byte)
  | transportFlagWrite (v : BitVec 64)
  | routingEntryWrite (v : BitVec 32)
  | registerWrite (pf : Bool) (part : Nat) (off : Nat) (data : List Byte)
  | hostWrite (part : Nat) (addr : Nat) (data : List Byte)
  | hostRead (part : Nat) (addr : Nat) (len : Nat)
  -- distributors and launches
  | blockPlace (serial : Nat) (die : Nat) (cores : List Nat)
  | stealMessage (serial : Nat) (die : Nat)
  | stealAnswer (serial : Nat) (die : Nat)
  | quantumEnd (core : Nat)
  | preempt (serial : Nat) (block : Nat)
  | resume (serial : Nat) (block : Nat) (cores : List Nat)
  | swap (serial : Nat) (waiter : Nat) (lower : Nat)
  | suspend (serial : Nat)
  | suspensionEnd (serial : Nat)
  | blockRetire (serial : Nat) (block : Nat)
  | launchCompletion (serial : Nat)
  | launchFault (serial : Nat)
  | fulfilReady (entry : Nat)
  | claimEntryError (entry : Nat)
  | quadrantShutdown (q : Nat)
  | relaunch (serial : Nat) (block : Nat) (core : Nat)
  -- power and clocks
  | blenderWindow (pair : Nat)
  | frequencyRequest (src : FreqSource) (cluster : Nat) (f : Nat)
  | rampStep (cluster : Nat)
  | supplyExcursion (mv : Nat)
  | clockBelowFloor (cluster : Nat) (f100 : Nat)
  | referenceClockLoss
  -- memory movers
  | hotPageScan (part : Nat) (order : List Nat)
  | migrationStart (page : Nat) (target : Nat)
  | migrationLineCopy (page : Nat)
  | migrationSwitch (page : Nat)
  | scrubError (e : MemError) (part : Nat) (addr : Nat)
  -- fetch
  | fetchCheckError (w : WaveId) (slotB : Bool) (second : Bool)
  | illop (w : WaveId) (slotB : Bool) (word : BitVec 64)
  -- fabric
  | link (port : Nat) (f : Flit)
  | areq (port : Nat) (f : Flit)
  | arsp (port : Nat) (f : Flit)
  | rreq (port : Nat) (f : Flit)
  | rdata (port : Nat) (f : Flit)
  | wdata (port : Nat) (f : Flit)
  | wack (port : Nat) (f : Flit)
  | reservedFlit (port : Nat) (f : Flit)
  | flitReplay (port : Nat)
  | retrainStart (port : Nat)
  | retrainEnd (port : Nat) (ok : Bool)
  | retrainAllowanceExpiry (port : Nat)
  -- board and device life
  | powerUp (transportLow : Bool)
  | selfTestEnd (masks : List (Nat × BitVec 64)) (rails : BitVec 8) (hbm : BitVec 8) (ports : BitVec 16) (lpddr : BitVec 32) (corrected : BitVec 64)
  | attestationRequest (nonce : List Byte)
  | droop (percent : Nat)
  | supplyReturn
  | referenceClockReturn
  | crcFailure (port : Nat)
  | statusRead (r : RegRead)
deriving DecidableEq, Repr

end Sys2Proof
end

