-- ==== Sys2Proof/WellFormed.lean ====
section
/-! DEFINITION. Which instruction words are well formed: the rules of R37 to R52 and of the encoding tables that need
no kernel. Rules that depend on the kernel (register count, width, code length, limit table) are checked by the Nose
(Machine/Quote.lean). An event row has no word. -/

namespace Sys2Proof

/-- Bits of a type (Tables 4-1, 4-2); 4 for `.Q4`. -/
def Ty.bits : Ty → Nat
  | .n64 => 64 | .i64 => 64
  | .n32 => 32 | .i32 => 32 | .f32 => 32
  | .n16 => 16 | .i16 => 16 | .f16 => 16 | .bf16 => 16
  | .n8 => 8 | .i8 => 8 | .e4m3 => 8 | .e5m2 => 8
  | .q4 => 4

/-- Bytes of a type. -/
def Ty.size (t : Ty) : Nat := t.bits / 8

/-- A type of 64 bits sits in an even and odd pair of vector registers (R65). -/
def Ty.wide (t : Ty) : Bool := t.bits == 64

/-- A signed integer type (R62). -/
def Ty.signed : Ty → Bool
  | .i8 => true | .i16 => true | .i32 => true | .i64 => true
  | _ => false

/-- A floating-point type (R63). -/
def Ty.isFloat : Ty → Bool
  | .f32 => true | .f16 => true | .bf16 => true | .e4m3 => true | .e5m2 => true
  | _ => false

namespace WellFormed

/-- Set W4 of R119. -/
def tyW4 : List Ty := [.i32, .n32, .i64, .n64]
/-- Set S2 of R119. -/
def tyS2 : List Ty := [.i32, .i64]
/-- Set F3 of R126. -/
def tyF3 : List Ty := [.f32, .f16, .bf16]
/-- Set R4 of R133. -/
def tyR4 : List Ty := [.n32, .i32, .n64, .i64, .f32]
def tyMove : List Ty := [.n32, .n64]
/-- Types of memory words (Tables 8-1, 9-3). -/
def tyMem : List Ty := [.n8, .i8, .n16, .i16, .n32, .i32, .n64, .i64]
/-- Types of the accumulator views (Table 15-7). -/
def tyAcc : List Ty := [.f32, .i32, .bf16, .f16]

def formsAll : List Form := [.vec, .bcast, .scal]
def formsVB : List Form := [.vec, .bcast]
def formsV : List Form := [.vec]

/-- R46: a scalar field is below 64; a vector field of a 64-bit operand is even. -/
def regOk (scalar wide : Bool) (r : BitVec 8) : Bool :=
  if scalar then r.ult 64 else !wide || !r.getLsbD 0

/-- R38: a mask register uses bits [2:0]. -/
def maskOk (r : BitVec 8) : Bool := r.ult 8

/-- R38, R46: a mask destination is not `m0`. -/
def maskDst (r : BitVec 8) : Bool := maskOk r && r != 0

def scalA (r : Lane) : Bool := r.form == .scal
def scalB (r : Lane) : Bool := r.form != .vec

def tyForm (ts : List Ty) (fs : List Form) (r : Lane) : Bool := ts.contains r.ty && fs.contains r.form

/-- R52: no lookahead on a word of class A, or one that writes no register. -/
def noLa (h : Hdr) : Bool := h.la == 0

/-- Table 5-2, R142: a word that carries neither predicate nor lookahead. -/
def plain (h : Hdr) : Bool := !h.pn && h.pm == 0 && h.la == 0

def dstOk (r : Lane) (wide : Bool) : Bool := regOk (scalA r) wide r.dst

/-- Two sources, third field unused. -/
def two (ts : List Ty) (fs : List Form) (r : Lane) : Bool :=
  tyForm ts fs r && regOk (scalA r) r.ty.wide r.sa && regOk (scalB r) r.ty.wide r.sb && r.sc == 0

/-- R116: a unary word takes SA, or SB under broadcast; the other fields are zero. -/
def one (ts : List Ty) (fs : List Form) (r : Lane) : Bool :=
  tyForm ts fs r && r.sc == 0 &&
    (if r.form == .bcast then r.sa == 0 && regOk true false r.sb
     else r.sb == 0 && regOk (scalA r) r.ty.wide r.sa)

/-- Three sources, the third of the kind of DST. -/
def three (ts : List Ty) (fs : List Form) (r : Lane) : Bool :=
  tyForm ts fs r && regOk (scalA r) r.ty.wide r.sa && regOk (scalB r) r.ty.wide r.sb && regOk (scalA r) r.ty.wide r.sc

/-- R133: `SHFL` and `SHFLX`; the index is a 32-bit operand whatever the type. DEDUCED (log 70). -/
def shuffle (r : Lane) : Bool :=
  tyForm tyMove formsVB r && regOk (scalA r) r.ty.wide r.sa && regOk (scalB r) false r.sb && r.sc == 0 && dstOk r r.ty.wide

def bin (r : Lane) : Bool := two tyW4 formsAll r && dstOk r r.ty.wide && noLa r.h
def una (ts : List Ty) (r : Lane) : Bool := one ts formsAll r && dstOk r r.ty.wide && noLa r.h
def fbin (r : Lane) : Bool := two tyF3 formsAll r && dstOk r false && noLa r.h
def func (m : FMode) (r : Lane) : Bool := one tyF3 formsAll r && dstOk r false && m.rnd == .rne

/-- R79: the pairs that `CVT` admits. -/
def cvtPair (s d : Ty) : Bool := s != .q4 && d != .q4 && s != d

/-- Table 5-4: mask words have neither type nor form. -/
def maskWord (r : Lane) : Bool := r.form == .vec && r.ty == .n32 && noLa r.h && r.sc == 0 && maskOk r.sa

/-- Tables 8-3 and 9-5: address, operand and result fields of an atomic. `dev`: the address is a 64-bit pair; under a
64-bit type every vector field, the address among them, is an even register (R161). -/
def atomBase (ts : List Ty) (dev : Bool) (r : Lane) : Bool :=
  tyForm ts formsAll r && regOk (scalA r) (dev || r.ty.wide) r.sa && regOk (scalB r) r.ty.wide r.sb

def bitOpOk (op : AtomOp) (t : Ty) : Bool :=
  t != .f32 || !([AtomOp.and, .or, .xor].contains op)

/-- Table 8-1, 9-3: the register fields of a memory word; `dev`: a vector address is an even pair (R172). -/
def memOk (dev : Bool) (m : Mem) : Bool :=
  tyMem.contains m.ty && (!m.dk || m.ak) && regOk m.ak dev m.sa && regOk m.dk m.ty.wide m.dst

/-- R45: team 0 to 4, point 0 to 23. -/
def pointOk (p : BitVec 8) : Bool := (p >>> 5).ult 5 && (p &&& 31#8).ult 24

def accRows (t : Ty) : Nat := if t.bits == 32 then 16 else 32

def copyOk (a : CpyArgs) : Bool :=
  noLa a.h && !a.d.getLsbD 0 && a.b.toNat % 4 == 0 && a.b.ule 52 && (a.pt == 255 || pointOk a.pt) &&
    (match a.lim with | .imm v => v != 0 | .tbl _ => true)

/-- R48, R49: one half of a paired word. -/
def half (x : PHalf) : Bool :=
  let o := x.op.toNat
  let imm := 0x35 ≤ o
  let rndOk := (0x1A ≤ o && o ≤ 0x30)
  let flOk := (0x1A ≤ o && o ≤ 0x28) || (0x31 ≤ o && o ≤ 0x34)
  let sc := x.sub.getLsbD 5
  let bc := x.sub.getLsbD 4
  if o == 0 then x.pred == 0 && x.dst == 0 && x.src == 0 && x.sub == 0
  else
    !(sc && bc) && (!bc || !imm) && (rndOk || x.sub.extractLsb' 2 2 == 0) && (flOk || x.sub.extractLsb' 0 2 == 0) &&
    (!sc || x.dst.ult 64) &&
    (if imm then !(0x35 ≤ o && o ≤ 0x38) || x.src.ult 32
     else !(sc || bc) || x.src.ult 64)

/-- Vector registers that a half reads (R51). -/
def halfReads (x : PHalf) : List (BitVec 8) :=
  let o := x.op.toNat
  let sc := x.sub.getLsbD 5
  let bc := x.sub.getLsbD 4
  let unary := o == 0x01 || o == 0x0D || o == 0x0E || o == 0x12 || (0x17 ≤ o && o ≤ 0x19) || (0x29 ≤ o && o ≤ 0x34)
  if o == 0 || o == 0x3A then []
  else if 0x35 ≤ o then (if sc then [] else [x.dst])
  else (if unary || sc then [] else [x.dst]) ++ (if sc || bc then [] else [x.src])

/-- R51: no bank supplies more than two reads; vector destinations in different banks; scalar destinations differ. -/
def pairOk (x y : PHalf) : Bool :=
  let rs := halfReads x ++ halfReads y
  let bank (n : Nat) := (rs.filter (fun r => r.toNat % 4 == n)).length ≤ 2
  let xs := x.sub.getLsbD 5
  let ys := y.sub.getLsbD 5
  bank 0 && bank 1 && bank 2 && bank 3 &&
    (x.op == 0 || y.op == 0 || xs != ys || (if xs then x.dst != y.dst else x.dst.toNat % 4 != y.dst.toNat % 4))

end WellFormed

open WellFormed in
/-- The rules of an instruction's entry that refuse a word ILLEGAL and need no kernel (R60). -/
def Instr.wellFormed : Instr → Bool
  | .iadd r => bin r | .isub r => bin r | .isadd r => bin r | .imul r => bin r | .imulh r => bin r
  | .iaddc r => two tyW4 formsVB { r with sc := 0 } && dstOk r r.ty.wide && noLa r.h && maskDst r.sc
  | .imad r => three tyW4 formsAll r && dstOk r r.ty.wide && noLa r.h
  | .imin r => bin r | .imax r => bin r | .and r => bin r | .or r => bin r | .xor r => bin r
  | .iabs r => una tyS2 r | .ineg r => una tyS2 r | .not r => una tyW4 r
  | .shl r => bin r | .shr r => bin r | .shra r => bin r | .rot r => bin r
  | .popc r => una tyW4 r | .clz r => una tyW4 r | .brev r => una tyW4 r
  | .bfx r => bin r | .bfi r => three tyW4 formsAll r && dstOk r r.ty.wide && noLa r.h
  | .icmp c r => two tyW4 formsAll r && maskDst r.dst && noLa r.h && c != .un
  | .sel r => two tyW4 formsVB { r with sc := 0 } && dstOk r r.ty.wide && noLa r.h && maskOk r.sc
  | .mov r => una tyW4 r
  | .movi h d _ sc _ => noLa h && regOk sc false d
  | .nhash r => two [.n64] formsAll r && dstOk r true
  | .fadd _ r => fbin r | .fsub _ r => fbin r | .fmul _ r => fbin r
  | .ffma _ r => three tyF3 formsAll r && dstOk r false && noLa r.h
  | .fmin m r => fbin r && m.rnd == .rne | .fmax m r => fbin r && m.rnd == .rne
  | .fcmp _ m r => two [.f32] formsAll r && maskDst r.dst && noLa r.h && m.rnd == .rne && !m.ftz
  | .fclass _ m r => one [.f32] formsAll r && maskDst r.dst && noLa r.h && m.rnd == .rne && !m.ftz
  | .frint _ r => one tyF3 formsAll r && dstOk r false && noLa r.h
  | .fdiv _ r => two tyF3 formsAll r && dstOk r false
  | .fsqrt _ r => one tyF3 formsAll r && dstOk r false
  | .fdot2 _ r => three [.bf16, .f16] formsAll r && dstOk r false && noLa r.h
  | .exp2 m r => func m r | .log2 m r => func m r | .rcp m r => func m r | .rsq m r => func m r | .sin m r => func m r
  | .cos m r => func m r | .tanh m r => func m r | .sigm m r => func m r | .erf m r => func m r
  | .cvt st _ r => cvtPair st r.ty && [Form.vec, .scal].contains r.form && r.sb == 0 && r.sc == 0 && noLa r.h &&
      regOk (scalA r) st.wide r.sa && dstOk r r.ty.wide
  | .pack st _ r => cvtPair st r.ty && (r.ty.bits == 8 || r.ty.bits == 16) && formsVB.contains r.form && noLa r.h &&
      regOk false st.wide r.sa && regOk (scalB r) st.wide r.sb && r.sc.ult (if r.ty.bits == 16 then 1 else 2)
  | .unpk st _ r => cvtPair st r.ty && (st.bits == 8 || st.bits == 16) && r.ty.bits ≤ 32 && r.form == .vec && noLa r.h &&
      r.sb == 0 && r.sc.ult (if st.bits == 16 then 2 else 4)
  | .qnt st _ r => r.ty == .q4 && tyF3.contains st && r.form == .vec && r.sb == 0 && r.sc &&& 31#8 == 0 && !r.dst.getLsbD 0
  | .dqnt st _ r => st == .q4 && tyF3.contains r.ty && formsVB.contains r.form && r.sc == 0 && noLa r.h &&
      regOk (scalB r) false r.sb
  | .shfl r => shuffle r
  | .shflx r => shuffle r
  | .bcast r => tyForm tyMove formsV r && regOk false r.ty.wide r.sa && r.sb == 0 && r.sc.ult 64 && dstOk r r.ty.wide
  | .redv op r => one tyR4 formsV r && dstOk r r.ty.wide && op != .exch && bitOpOk op r.ty
  | .scanv op r => one tyR4 formsV r && dstOk r r.ty.wide && op != .exch && bitOpOk op r.ty
  | .vtos r => tyForm tyMove formsV r && regOk false r.ty.wide r.sa && r.sb == 0 && r.sc.ult 64 && r.dst.ult 64
  | .stov r => tyForm tyMove [.bcast] r && r.sa == 0 && r.sb.ult 64 && r.sc.ult 64 && dstOk r r.ty.wide
  | .mand r => maskWord r && maskDst r.dst && maskOk r.sb
  | .mor r => maskWord r && maskDst r.dst && maskOk r.sb
  | .mxor r => maskWord r && maskDst r.dst && maskOk r.sb
  | .mnot r => maskWord r && maskDst r.dst && r.sb == 0
  | .mpop r => maskWord r && r.dst.ult 64 && r.sb == 0
  | .many r => maskWord r && r.dst.ult 64 && r.sb == 0
  | .mall r => maskWord r && r.dst.ult 64 && r.sb == 0
  | .srd h _ sc code d => noLa h && (if sc then code != .lane && d.ult 64
      else !([SReg.cycles, .retired, .charge, .features].contains code) || !d.getLsbD 0)
  | .swr h _ sc code x => noLa h && code == .cycles && regOk sc true x
  | .ats op r => atomBase tyR4 false r && dstOk r r.ty.wide && r.sc == 0 && bitOpOk op r.ty
  | .cass r => atomBase [.n32, .i32, .n64, .i64] false r && dstOk r r.ty.wide && regOk (scalA r) r.ty.wide r.sc
  | .feset h _ sc sa => noLa h && regOk sc false sa
  | .feclr h _ sc sa => noLa h && regOk sc false sa
  | .feqry _ _ sc d sa => regOk sc false sa && (if sc then d.ult 64 else maskDst d)
  | .atg op r => atomBase tyR4 true r && dstOk r r.ty.wide && r.sc == 0 && bitOpOk op r.ty
  | .casg r => atomBase [.n32, .i32, .n64, .i64] true r && dstOk r r.ty.wide && regOk (scalA r) r.ty.wide r.sc
  | .redg op r => atomBase tyR4 true r && r.dst == 0 && r.sc == 0 && bitOpOk op r.ty && op != .exch && noLa r.h
  | .phase h => noLa h | .publ h => noLa h | .rfsh h => noLa h | .fence _ h => noLa h | .sysrel h => noLa h
  | .mqma h _ _ _ _ sb _ bits => noLa h && sb.ult 64 && bits != 3
  | .mcrd _ ty _ _ r _ => tyAcc.contains ty && r.toNat < accRows ty
  | .mcwr h ty _ _ _ r _ => noLa h && tyAcc.contains ty && r.toNat < accRows ty
  | .mcz h ty _ r n => noLa h && tyAcc.contains ty && n != 0 && n.ule 32 && r.toNat + n.toNat ≤ accRows ty
  | .lrchk h _ d b => noLa h && d.ult 64 && b.toNat % 4 == 0 && b.ule 52
  | .claim _ d n => !d.getLsbD 0 && !n.getLsbD 0
  | .rcede h n => plain h && n != 0 && n.ult 16
  | .rtake h n _ => plain h && n != 0 && n.ult 16
  | .qinit h _ sa logc allow => noLa h && sa.ult 64 && logc != 0 && logc.ule 8 && allow != 0 && allow.toNat ≤ 2 ^ logc.toNat
  | .qpush h _ sa _ => noLa h && sa.ult 64
  | .qpop _ d _ _ => d.ult 64
  | .rvinit h p e => noLa h && pointOk p && e != 0
  | .rvarr h p _ _ sc n => noLa h && pointOk p && n != 0 && ((p >>> 5) == 0 || sc != .block)
  | .rvexp h p _ => noLa h && pointOk p
  | .rvwait h p _ _ _ => noLa h && pointOk p
  | .rvtest h p _ => noLa h && pointOk p
  | .tlwait h _ _ _ _ => noLa h | .tlread h _ _ => noLa h
  | .clwait h d _ _ => noLa h && !d.getLsbD 0
  | .fulfil h _ _ => noLa h | .abandon h _ => noLa h | .clrel h _ => noLa h | .clinv _ _ _ => true
  | .swgo h _ d _ lim => noLa h && !d.getLsbD 0 && (match lim with | .imm v => v != 0 | .tbl _ => true)
  | .swait h sa => noLa h && !sa.getLsbD 0
  | .swend h => noLa h
  | .swake h sa sc _ => noLa h && regOk sc false sa
  | .sctxr _ d sa sc _ => regOk sc false sa && regOk sc true d
  | .sctxw h d sa sc _ => noLa h && regOk sc false sa && regOk sc true d
  | .snbr _ _ k _ => k != 15
  | .swqry h _ _ _ => noLa h
  | .lds m => memOk false m | .dlds m => memOk false m
  | .sts m => memOk false m && noLa m.h | .dsts m => memOk false m && noLa m.h
  | .ldg _ m => memOk true m | .ldh m => memOk true m
  | .stg m => memOk true m && noLa m.h | .sth m => memOk true m && noLa m.h
  | .pfg m => noLa m.h && m.dst == 0 && !m.dk && m.ty == .n32 && regOk m.ak true m.sa
  | .spill h wide d k => noLa h && (!wide || (!d.getLsbD 0 && k.ule 4094))
  | .fill _ wide d k => !wide || (!d.getLsbD 0 && k.ule 4094)
  | .mbld h _ _ _ _ _ => noLa h
  | .mbcast h _ _ _ _ p _ => noLa h && pointOk p && (p >>> 5) != 0
  | .cpy a => copyOk a | .cpyx a => copyOk a | .cpyrIn a => copyOk a | .cpyrOut a => copyOk a
  | .brd _ _ _ dist => dist != 0
  | .yieldc p _ _ => pointOk p
  | .pairedWord x y => half x && half y && pairOk x y
  | _ => true

/-- The rows of the opcode table that are instruction words; the others are steps of the device, the host or the board. -/
def Instr.isWord : Instr → Bool
  | .resultWriteback _ _ | .scratchpadAccessPerform _ | .storeSetEntry _ | .publicationPerform _ | .atomicAtHome _ _ |
    .homeReadArrival _ _ | .framePop _ | .frameReadDone _ _ | .rvwaitComplete _ _ | .tlwaitComplete _ _ |
    .clwaitComplete _ _ | .qpushComplete _ | .qpopComplete _ | .rtakeComplete _ _ | .rcedeComplete _ _ |
    .ldsFillComplete _ | .yieldcResume _ _ | .fenceComplete _ _ | .sysrelComplete _ _ _ | .waitLimitExpiry _ _ |
    .fillLimitExpiry _ | .arrivalAtPoint _ _ | .ldhCompletion _ _ _ | .copyCommandArrival _ | .engineTurn _ |
    .copyOperationStart _ | .copyPieceCountdown _ | .copyFinish _ | .mbldComplete _ _ | .matrixPass _ _ |
    .matrixPassComplete _ _ | .broadcastPerform _ _ | .sweepRunStart _ | .chunkEvaluation _ | .sweepWaveForm _ |
    .sweepStart _ | .sweepRunEnd _ | .quote _ _ | .accept _ _ | .decline _ _ | .malformed _ _ | .ringRecordWrite _ |
    .tailWrite _ _ | .ringSet _ _ _ | .partitionConfigWrite _ _ _ | .commit _ | .force _ | .breakingChangeApply _ |
    .reset _ | .functionLevelReset _ | .resetDone _ | .energyGrant _ _ | .transportFlagWrite _ | .routingEntryWrite _ |
    .registerWrite _ _ _ _ | .hostWrite _ _ _ | .hostRead _ _ _ | .blockPlace _ _ _ | .stealMessage _ _ |
    .stealAnswer _ _ | .quantumEnd _ | .preempt _ _ | .resume _ _ _ | .swap _ _ _ | .suspend _ | .suspensionEnd _ |
    .blockRetire _ _ | .launchCompletion _ | .launchFault _ | .fulfilReady _ | .claimEntryError _ | .quadrantShutdown _ |
    .relaunch _ _ _ | .blenderWindow _ | .frequencyRequest _ _ _ | .rampStep _ | .supplyExcursion _ |
    .clockBelowFloor _ _ | .referenceClockLoss | .hotPageScan _ _ | .migrationStart _ _ | .migrationLineCopy _ |
    .migrationSwitch _ | .scrubError _ _ _ | .fetchCheckError _ _ _ | .illop _ _ _ | .link _ _ | .areq _ _ | .arsp _ _ |
    .rreq _ _ | .rdata _ _ | .wdata _ _ | .wack _ _ | .reservedFlit _ _ | .flitReplay _ | .retrainStart _ |
    .retrainEnd _ _ | .retrainAllowanceExpiry _ | .powerUp _ | .selfTestEnd _ _ _ _ _ _ | .attestationRequest _ |
    .droop _ | .supplyReturn | .referenceClockReturn | .crcFailure _ | .statusRead _ => false
  | _ => true

end Sys2Proof
end

