-- ==== Sys2Proof/Decode.lean ====
section
/-! DEFINITION. The decoder of the 64-bit instruction word (03_encoding.md) and its encoder, both from the encoding
tables of the spec. `parse` reads the fields; `decode` accepts a word only when the instruction read is well formed and
its encoding is that very word, so that every reserved field is zero (R37, R60). -/

namespace Sys2Proof

/-- The fields of a full word (Table 3-1). -/
structure Raw where
  op : BitVec 7
  pn : BitVec 1
  pm : BitVec 3
  la : BitVec 4
  dst : BitVec 8
  body : BitVec 40
deriving DecidableEq, Repr

def Raw.pack (r : Raw) : BitVec 64 := 0#1 ++ r.op ++ r.pn ++ r.pm ++ r.la ++ r.dst ++ r.body

def unpackRaw (w : BitVec 64) : Raw :=
  { op := w.extractLsb' 56 7, pn := w.extractLsb' 55 1, pm := w.extractLsb' 52 3, la := w.extractLsb' 48 4,
    dst := w.extractLsb' 40 8, body := w.extractLsb' 0 40 }

/-- Register format, bits [39:0] (Table 3-2). -/
structure RBody where
  sa : BitVec 8
  sb : BitVec 8
  sc : BitVec 8
  keep : BitVec 3
  sub : BitVec 5
  mods : BitVec 8
deriving DecidableEq, Repr

def RBody.pack (b : RBody) : BitVec 40 := b.sa ++ b.sb ++ b.sc ++ b.keep ++ b.sub ++ b.mods

def unpackR (w : BitVec 40) : RBody :=
  { sa := w.extractLsb' 32 8, sb := w.extractLsb' 24 8, sc := w.extractLsb' 16 8, keep := w.extractLsb' 13 3,
    sub := w.extractLsb' 8 5, mods := w.extractLsb' 0 8 }

/-- Immediate format. -/
structure IBody where
  sa : BitVec 8
  imm : BitVec 32
deriving DecidableEq, Repr

def IBody.pack (b : IBody) : BitVec 40 := b.sa ++ b.imm
def unpackI (w : BitVec 40) : IBody := { sa := w.extractLsb' 32 8, imm := w.extractLsb' 0 32 }

/-- Memory and engine format. -/
structure MBody where
  sa : BitVec 8
  sb : BitVec 8
  off : BitVec 24
deriving DecidableEq, Repr

def MBody.pack (b : MBody) : BitVec 40 := b.sa ++ b.sb ++ b.off
def unpackM (w : BitVec 40) : MBody := { sa := w.extractLsb' 32 8, sb := w.extractLsb' 24 8, off := w.extractLsb' 0 24 }

/-- Control format. -/
structure CBody where
  tgt : BitVec 24
  aux : BitVec 16
deriving DecidableEq, Repr

def CBody.pack (b : CBody) : BitVec 40 := b.tgt ++ b.aux
def unpackC (w : BitVec 40) : CBody := { tgt := w.extractLsb' 16 24, aux := w.extractLsb' 0 16 }

/-- Table 3-3. -/
def Ty.code : Ty → BitVec 4
  | .n32 => 0x0 | .i32 => 0x1 | .n64 => 0x2 | .i64 => 0x3 | .n16 => 0x4 | .i16 => 0x5 | .n8 => 0x6 | .i8 => 0x7
  | .f32 => 0x8 | .f16 => 0x9 | .bf16 => 0xA | .e4m3 => 0xB | .e5m2 => 0xC | .q4 => 0xD

def tyOfCode (c : BitVec 4) : Option Ty :=
  match c.toNat with
  | 0 => some .n32 | 1 => some .i32 | 2 => some .n64 | 3 => some .i64 | 4 => some .n16 | 5 => some .i16
  | 6 => some .n8 | 7 => some .i8 | 8 => some .f32 | 9 => some .f16 | 10 => some .bf16 | 11 => some .e4m3
  | 12 => some .e5m2 | 13 => some .q4 | _ => none

/-- R39. -/
def Rnd.code : Rnd → BitVec 2
  | .rne => 0 | .rtz => 1 | .rup => 2 | .rdn => 3

def rndOfCode (c : BitVec 2) : Rnd :=
  match c.toNat with
  | 0 => .rne | 1 => .rtz | 2 => .rup | _ => .rdn

/-- R38. -/
def Form.code : Form → BitVec 2
  | .vec => 0 | .bcast => 1 | .scal => 2

def formOfCode (c : BitVec 2) : Option Form :=
  match c.toNat with
  | 0 => some .vec | 1 => some .bcast | 2 => some .scal | _ => none

/-- Table 3-4. -/
def Cond.code : Cond → BitVec 3
  | .eq => 0 | .ne => 1 | .lt => 2 | .le => 3 | .gt => 4 | .ge => 5 | .un => 6

def condOfCode (c : BitVec 3) : Option Cond :=
  match c.toNat with
  | 0 => some .eq | 1 => some .ne | 2 => some .lt | 3 => some .le | 4 => some .gt | 5 => some .ge | 6 => some .un
  | _ => none

/-- Table 3-4. -/
def AtomOp.code : AtomOp → BitVec 4
  | .add => 0 | .min => 1 | .max => 2 | .and => 3 | .or => 4 | .xor => 5 | .exch => 6

def atomOfCode (c : BitVec 4) : Option AtomOp :=
  match c.toNat with
  | 0 => some .add | 1 => some .min | 2 => some .max | 3 => some .and | 4 => some .or | 5 => some .xor | 6 => some .exch
  | _ => none

/-- Table 10-1. -/
def Scope.code : Scope → BitVec 2
  | .block => 0 | .cohort => 1 | .device => 2 | .system => 3

def scopeOfCode (c : BitVec 2) : Scope :=
  match c.toNat with
  | 0 => .block | 1 => .cohort | 2 => .device | _ => .system

/-- Table 5-5. -/
def SReg.code : SReg → BitVec 4
  | .lane => 0 | .width => 1 | .wave => 2 | .block => 3 | .nblock => 4 | .core => 5 | .cluster => 6 | .cycles => 7
  | .retired => 8 | .charge => 9 | .features => 10 | .sca => 11

def sregOfCode (c : BitVec 4) : Option SReg :=
  match c.toNat with
  | 0 => some .lane | 1 => some .width | 2 => some .wave | 3 => some .block | 4 => some .nblock | 5 => some .core
  | 6 => some .cluster | 7 => some .cycles | 8 => some .retired | 9 => some .charge | 10 => some .features
  | 11 => some .sca | _ => none

/-- R260. -/
def LrSel.code : LrSel → BitVec 5
  | .tile => 0 | .span => 1 | .bytes => 2

def lrselOfCode (c : BitVec 5) : Option LrSel :=
  match c.toNat with
  | 0 => some .tile | 1 => some .span | 2 => some .bytes | _ => none

/-- R44. -/
def lim32 : Lim 31 → BitVec 32
  | .imm v => 0#1 ++ v
  | .tbl i => 1#1 ++ 0#16 ++ i

def limOf32 (w : BitVec 32) : Lim 31 :=
  if w.getLsbD 31 then .tbl (w.extractLsb' 0 15) else .imm (w.extractLsb' 0 31)

def lim16 : Lim 15 → BitVec 16
  | .imm v => 0#1 ++ v
  | .tbl i => 1#1 ++ i

def limOf16 (w : BitVec 16) : Lim 15 :=
  if w.getLsbD 15 then .tbl (w.extractLsb' 0 15) else .imm (w.extractLsb' 0 15)

def b1 (b : Bool) : BitVec 1 := if b then 1 else 0

def hdrRaw (op : BitVec 7) (h : Hdr) (dst : BitVec 8) (body : BitVec 40) : Raw :=
  { op := op, pn := b1 h.pn, pm := h.pm, la := h.la, dst := dst, body := body }

def Raw.hdr (r : Raw) : Hdr := { pn := r.pn.getLsbD 0, pm := r.pm, la := r.la }

/-- A word with neither predicate nor lookahead (R43). -/
def ctlRaw (op : BitVec 7) (dst : BitVec 8) (tgt : BitVec 24) (aux : BitVec 16) : Raw :=
  { op := op, pn := 0, pm := 0, la := 0, dst := dst, body := CBody.pack { tgt := tgt, aux := aux } }

/-- A lane word: `sub` and MODS[5:4] of its family, MODS[7:6] the form, MODS[3:0] the type (R37, R38, R40). -/
def laneRaw (op : BitVec 7) (sub : BitVec 5) (hi : BitVec 2) (r : Lane) : Raw :=
  hdrRaw op r.h r.dst (RBody.pack
    { sa := r.sa, sb := r.sb, sc := r.sc, keep := r.keep, sub := sub, mods := r.form.code ++ hi ++ r.ty.code })

/-- A word of the register format whose entry fixes SUB and MODS. -/
def regRaw (op : BitVec 7) (h : Hdr) (dst sa sb sc : BitVec 8) (keep : BitVec 3) (sub : BitVec 5) (mods : BitVec 8) :
    Raw := hdrRaw op h dst (RBody.pack { sa := sa, sb := sb, sc := sc, keep := keep, sub := sub, mods := mods })

def immRaw (op : BitVec 7) (h : Hdr) (dst sa : BitVec 8) (imm : BitVec 32) : Raw :=
  hdrRaw op h dst (IBody.pack { sa := sa, imm := imm })

def engRaw (op : BitVec 7) (h : Hdr) (dst sa sb : BitVec 8) (off : BitVec 24) : Raw :=
  hdrRaw op h dst (MBody.pack { sa := sa, sb := sb, off := off })

/-- A load or store word with the modifier byte of Table 3-5. -/
def memRaw (op : BitVec 7) (var : BitVec 2) (m : Mem) : Raw :=
  engRaw op m.h m.dst m.sa (b1 m.ak ++ b1 m.dk ++ var ++ m.ty.code) m.off

/-- A copy word (Table 14-3). -/
def copyRaw (op : BitVec 7) (out : BitVec 1) (a : CpyArgs) : Raw :=
  engRaw op a.h (out ++ 0#1 ++ a.d) (0#2 ++ a.b) (0#2 ++ a.t) (a.pt ++ lim16 a.lim)

/-- MODS[5:4] of a floating-point word. -/
def FMode.code (m : FMode) : BitVec 2 := b1 m.ftz ++ b1 m.daz

/-- The fields of a full word, from the encoding table of each entry; none for the paired word and for event rows. -/
def rawOf : Instr → Option Raw
  | .iadd r => some (laneRaw 0x01 0 0 r) | .isub r => some (laneRaw 0x02 0 0 r) | .iaddc r => some (laneRaw 0x03 0 0 r)
  | .isadd r => some (laneRaw 0x04 0 0 r) | .imul r => some (laneRaw 0x05 0 0 r) | .imulh r => some (laneRaw 0x06 0 0 r)
  | .imad r => some (laneRaw 0x07 0 0 r) | .imin r => some (laneRaw 0x08 0 0 r) | .imax r => some (laneRaw 0x09 0 0 r)
  | .iabs r => some (laneRaw 0x0A 0 0 r) | .ineg r => some (laneRaw 0x0B 0 0 r) | .and r => some (laneRaw 0x0C 0 0 r)
  | .or r => some (laneRaw 0x0D 0 0 r) | .xor r => some (laneRaw 0x0E 0 0 r) | .not r => some (laneRaw 0x0F 0 0 r)
  | .shl r => some (laneRaw 0x10 0 0 r) | .shr r => some (laneRaw 0x11 0 0 r) | .shra r => some (laneRaw 0x12 0 0 r)
  | .rot r => some (laneRaw 0x13 0 0 r) | .popc r => some (laneRaw 0x14 0 0 r) | .clz r => some (laneRaw 0x15 0 0 r)
  | .brev r => some (laneRaw 0x16 0 0 r) | .bfx r => some (laneRaw 0x17 0 0 r) | .bfi r => some (laneRaw 0x18 0 0 r)
  | .icmp c r => some (laneRaw 0x19 (c.code ++ 0#2) 0 r) | .sel r => some (laneRaw 0x1A 0 0 r)
  | .mov r => some (laneRaw 0x1B 0 0 r)
  | .movi h d sg sc imm => some (immRaw 0x40 h d (0#3 ++ b1 sg ++ 0#3 ++ b1 sc) imm)
  | .nhash r => some (laneRaw 0x1C 0 0 r)
  | .fadd m r => some (laneRaw 0x1D (m.rnd.code ++ 0#3) m.code r)
  | .fsub m r => some (laneRaw 0x1E (m.rnd.code ++ 0#3) m.code r)
  | .fmul m r => some (laneRaw 0x1F (m.rnd.code ++ 0#3) m.code r)
  | .ffma m r => some (laneRaw 0x20 (m.rnd.code ++ 0#3) m.code r)
  | .fmin m r => some (laneRaw 0x21 (m.rnd.code ++ 0#3) m.code r)
  | .fmax m r => some (laneRaw 0x22 (m.rnd.code ++ 0#3) m.code r)
  | .fcmp c m r => some (laneRaw 0x23 (m.rnd.code ++ c.code) m.code r)
  | .fclass k m r => some (laneRaw 0x24 (m.rnd.code ++ 0#1 ++ k.extractLsb' 8 2) m.code { r with sc := k.extractLsb' 0 8 })
  | .frint m r => some (laneRaw 0x25 (m.rnd.code ++ 0#3) m.code r)
  | .fdiv m r => some (laneRaw 0x26 (m.rnd.code ++ 0#3) m.code r)
  | .fsqrt m r => some (laneRaw 0x27 (m.rnd.code ++ 0#3) m.code r)
  | .fdot2 m r => some (laneRaw 0x28 (m.rnd.code ++ 0#3) m.code r)
  | .exp2 m r => some (laneRaw 0x29 0 m.code r) | .log2 m r => some (laneRaw 0x29 1 m.code r)
  | .rcp m r => some (laneRaw 0x29 2 m.code r) | .rsq m r => some (laneRaw 0x29 3 m.code r)
  | .sin m r => some (laneRaw 0x29 4 m.code r) | .cos m r => some (laneRaw 0x29 5 m.code r)
  | .tanh m r => some (laneRaw 0x29 6 m.code r) | .sigm m r => some (laneRaw 0x29 7 m.code r)
  | .erf m r => some (laneRaw 0x29 8 m.code r)
  | .cvt st rm r => some (laneRaw 0x2A (st.code ++ 0#1) rm.code r)
  | .pack st rm r => some (laneRaw 0x2B (st.code ++ 0#1) rm.code r)
  | .unpk st rm r => some (laneRaw 0x2C (st.code ++ 0#1) rm.code r)
  | .qnt st rm r => some (laneRaw 0x2D (st.code ++ 0#1) rm.code r)
  | .dqnt st rm r => some (laneRaw 0x2E (st.code ++ 0#1) rm.code r)
  | .shfl r => some (laneRaw 0x2F 0 0 r) | .shflx r => some (laneRaw 0x2F 4 0 r) | .bcast r => some (laneRaw 0x2F 8 0 r)
  | .redv op r => some (laneRaw 0x2F 12 0 { r with sc := 0#4 ++ op.code })
  | .scanv op r => some (laneRaw 0x2F 16 0 { r with sc := 0#4 ++ op.code })
  | .vtos r => some (laneRaw 0x2F 20 0 r) | .stov r => some (laneRaw 0x2F 24 0 r)
  | .mand r => some (laneRaw 0x30 0 0 r) | .mor r => some (laneRaw 0x30 4 0 r) | .mxor r => some (laneRaw 0x30 8 0 r)
  | .mnot r => some (laneRaw 0x30 12 0 r) | .mpop r => some (laneRaw 0x30 16 0 r) | .many r => some (laneRaw 0x30 20 0 r)
  | .mall r => some (laneRaw 0x30 24 0 r)
  | .srd h k sc c d => some (regRaw 0x31 h d 0 0 (0#3 ++ b1 sc ++ c.code) k 0 0)
  | .swr h k sc c x => some (regRaw 0x31 h 0 x 0 (0#3 ++ b1 sc ++ c.code) k 1 0)
  | .ats op r => some (laneRaw 0x32 (0#1 ++ op.code) 0 r) | .cass r => some (laneRaw 0x33 0 0 r)
  | .feset h k sc sa => some (regRaw 0x34 h 0 sa 0 (0#3 ++ b1 sc ++ 0#4) k 0 0)
  | .feclr h k sc sa => some (regRaw 0x34 h 0 sa 0 (0#3 ++ b1 sc ++ 0#4) k 4 0)
  | .feqry h k sc d sa => some (regRaw 0x34 h d sa 0 (0#3 ++ b1 sc ++ 0#4) k 8 0)
  | .atg op r => some (laneRaw 0x35 (0#1 ++ op.code) 0 r) | .casg r => some (laneRaw 0x36 0 0 r)
  | .redg op r => some (laneRaw 0x37 (0#1 ++ op.code) 0 r)
  | .phase h => some (regRaw 0x38 h 0 0 0 0 0 0 0) | .publ h => some (regRaw 0x38 h 0 0 0 0 0 4 0)
  | .rfsh h => some (regRaw 0x38 h 0 0 0 0 0 8 0)
  | .fence sys h => some (regRaw 0x38 h 0 0 0 0 0 (0#3 ++ 1#1 ++ b1 sys ||| 12) 0)
  | .sysrel h => some (regRaw 0x38 h 0 0 0 0 0 16 0)
  | .mqma h ka b g sa sb q n => some (regRaw 0x39 h (0#3 ++ g ++ b) sa sb (0#5 ++ q) (b1 ka ++ 0#2) (0#3 ++ n) 0x40)
  | .mcrd h ty d b r c => some (regRaw 0x3A h d (0#5 ++ b) c (0#3 ++ r) 0 0 (0#4 ++ ty.code))
  | .mcwr h ty ka src b r c => some (regRaw 0x3B h (0#5 ++ b) src c (0#3 ++ r) (b1 ka ++ 0#2) 0 (0#4 ++ ty.code))
  | .mcz h ty b r n => some (regRaw 0x3C h (0#5 ++ b) 0 n (0#3 ++ r) 0 0 (0#4 ++ ty.code))
  | .lrchk h sel d b => some (regRaw 0x3D h d b 0 0 0 sel.code 0x80)
  | .claim h d n => some (regRaw 0x3E h (0#2 ++ d) (0#2 ++ n) 0 0 0 0 0x80)
  | .rcede h n => some (immRaw 0x41 h 0 n 0) | .rtake h n l => some (immRaw 0x42 h 0 n (lim32 l))
  | .qinit h q sa c a => some (immRaw 0x43 h (0#4 ++ q) sa (a ++ c ++ 0#16))
  | .qpush h q sa l => some (immRaw 0x44 h (0#4 ++ q) sa (lim32 l))
  | .qpop h d q l => some (immRaw 0x45 h d (0#4 ++ q) (lim32 l))
  | .rvinit h p e => some (immRaw 0x46 h p 0 (0#16 ++ e))
  | .rvarr h p d rlx sc n => some (immRaw 0x47 h p (0#2 ++ d) (b1 rlx ++ 0#21 ++ sc.code ++ n))
  | .rvexp h p x => some (immRaw 0x48 h p (0#2 ++ x) 0)
  | .rvwait h p rlx par l => some (immRaw 0x49 h p (0#1 ++ b1 rlx ++ par) (lim32 l))
  | .rvtest h p d => some (immRaw 0x4A h p (0#2 ++ d) 0)
  | .tlwait h n rlx hd l => some (immRaw 0x4B h (0#2 ++ n) (0#1 ++ b1 rlx ++ hd) (lim32 l))
  | .tlread h d hd => some (immRaw 0x4C h (0#2 ++ d) (0#2 ++ hd) 0)
  | .clwait h d t l => some (immRaw 0x4D h (0#2 ++ d) (0#2 ++ t) (lim32 l))
  | .fulfil h hd t => some (immRaw 0x4E h (0#2 ++ hd) (0#2 ++ t) 0)
  | .abandon h t => some (immRaw 0x4F h 0 (0#2 ++ t) 0) | .clrel h t => some (immRaw 0x50 h 0 (0#2 ++ t) 0)
  | .clinv h d a => some (immRaw 0x51 h (0#2 ++ d) (0#2 ++ a) 0)
  | .swgo h c d a l => some (immRaw 0x52 h (c ++ d) (0#2 ++ a) (lim32 l))
  | .swait h sa => some (immRaw 0x53 h 0 sa 0) | .swend h => some (immRaw 0x54 h 0 0 0)
  | .swake h sa sc c => some (immRaw 0x55 h 0 sa (0#23 ++ b1 sc ++ 0#6 ++ c))
  | .sctxr h d sa sc c => some (immRaw 0x56 h d sa (0#23 ++ b1 sc ++ 0#6 ++ c))
  | .sctxw h x sa sc c => some (immRaw 0x57 h x sa (0#23 ++ b1 sc ++ 0#6 ++ c))
  | .snbr h d k mc => some (immRaw 0x58 h d (0#4 ++ k) (0#29 ++ mc))
  | .swqry h d f c => some (immRaw 0x59 h (0#2 ++ d) 0 (0#28 ++ f ++ c))
  | .lds m => some (memRaw 0x60 0 m) | .sts m => some (memRaw 0x61 0 m)
  | .dlds m => some (memRaw 0x62 0 m) | .dsts m => some (memRaw 0x63 0 m)
  | .ldg home m => some (memRaw 0x64 (0#1 ++ b1 home) m) | .stg m => some (memRaw 0x65 0 m)
  | .ldh m => some (memRaw 0x66 0 m) | .sth m => some (memRaw 0x67 0 m) | .pfg m => some (memRaw 0x68 0 m)
  | .spill h wide x k => some (engRaw 0x69 h x 0 (0#6 ++ b1 wide ++ 0#1) (0#12 ++ k))
  | .fill h wide d k => some (engRaw 0x6A h d 0 (0#6 ++ b1 wide ++ 0#1) (0#12 ++ k))
  | .mbld h p b sa sb off => some (engRaw 0x6B h (0#2 ++ p ++ b) (0#2 ++ sa) (0#2 ++ sb) off)
  | .mbcast h p b sa sb pt off => some (engRaw 0x6C h (0#2 ++ p ++ b) (0#2 ++ sa) (0#2 ++ sb) (pt ++ off))
  | .cpy a => some (copyRaw 0x6D 0 a) | .cpyx a => some (copyRaw 0x6E 0 a)
  | .cpyrIn a => some (copyRaw 0x6F 0 a) | .cpyrOut a => some (copyRaw 0x6F 1 a)
  | .bra t => some (ctlRaw 0x70 0 t 0) | .brc ng m t => some (ctlRaw 0x71 (0#4 ++ b1 ng ++ m) t 0)
  | .brd ng m t d => some (ctlRaw 0x72 (0#4 ++ b1 ng ++ m) t d) | .join => some (ctlRaw 0x73 0 0 0)
  | .loopb l t lm => some (ctlRaw 0x74 (0#5 ++ l) t (lim16 lm))
  | .loopn l t lm => some (ctlRaw 0x75 (0#5 ++ l) t (lim16 lm))
  | .loopx l t => some (ctlRaw 0x76 (0#5 ++ l) t 0) | .call t => some (ctlRaw 0x77 0 t 0)
  | .callt tb ix => some (ctlRaw 0x78 0 0 (tb ++ 0#2 ++ ix)) | .ret => some (ctlRaw 0x79 0 0 0)
  | .exit => some (ctlRaw 0x7A 0 0 0) | .yield => some (ctlRaw 0x7B 0 0 0) | .nop => some (ctlRaw 0x7C 0 0 0)
  | .trap c => some (ctlRaw 0x7D 0 0 c) | .brk c => some (ctlRaw 0x7E 0 0 c)
  | .yieldc p t lm => some (ctlRaw 0x7F p t (lim16 lm))
  | _ => none

/-- A half of a paired word (Table 3-7). -/
def halfBits (x : PHalf) : BitVec 31 := x.op ++ x.pred ++ x.dst ++ x.src ++ x.sub

def halfOf (w : BitVec 31) : PHalf :=
  { op := w.extractLsb' 25 6, pred := w.extractLsb' 22 3, dst := w.extractLsb' 14 8, src := w.extractLsb' 6 8,
    sub := w.extractLsb' 0 6 }

/-- The word of an instruction; none for an event row. -/
def encode (i : Instr) : Option (BitVec 64) :=
  match i with
  | .pairedWord x y => some (1#1 ++ halfBits x ++ halfBits y ++ 0#1)
  | i => (rawOf i).map Raw.pack

/-- The fields of a lane word. -/
def laneOf (r : Raw) : Option Lane :=
  let b := unpackR r.body
  match formOfCode (b.mods.extractLsb' 6 2), tyOfCode (b.mods.extractLsb' 0 4) with
  | some f, some t => some { h := r.hdr, form := f, ty := t, dst := r.dst, sa := b.sa, sb := b.sb, sc := b.sc, keep := b.keep }
  | _, _ => none

def subOf (r : Raw) : BitVec 5 := (unpackR r.body).sub

/-- Rounding of SUB[12:11], flushing of MODS[5:4]. -/
def fmodeOf (r : Raw) : FMode :=
  let b := unpackR r.body
  { rnd := rndOfCode (b.sub.extractLsb' 3 2), ftz := b.mods.getLsbD 5, daz := b.mods.getLsbD 4 }

/-- Flushing alone: OP 0x29 has no rounding field (R132). -/
def fmodeFn (r : Raw) : FMode := { fmodeOf r with rnd := .rne }

/-- A conversion word: source type, rounding, lane fields. -/
def cvtOf (r : Raw) (k : Ty → Rnd → Lane → Instr) : Option Instr :=
  let b := unpackR r.body
  match tyOfCode (b.sub.extractLsb' 1 4), laneOf r with
  | some st, some l => some (k st (rndOfCode (b.mods.extractLsb' 4 2)) l)
  | _, _ => none

/-- A word whose SUB[11:8] is an atomic operation. -/
def atomWordOf (r : Raw) (k : AtomOp → Lane → Instr) : Option Instr :=
  match atomOfCode ((subOf r).extractLsb' 0 4), laneOf r with
  | some o, some l => some (k o l)
  | _, _ => none

def memOf (r : Raw) : Option Mem :=
  let b := unpackM r.body
  match tyOfCode (b.sb.extractLsb' 0 4) with
  | some t => some { h := r.hdr, dst := r.dst, sa := b.sa, ak := b.sb.getLsbD 7, dk := b.sb.getLsbD 6, ty := t, off := b.off }
  | none => none

def copyOf (r : Raw) : CpyArgs :=
  let b := unpackM r.body
  { h := r.hdr, d := r.dst.extractLsb' 0 6, b := b.sa.extractLsb' 0 6, t := b.sb.extractLsb' 0 6,
    pt := b.off.extractLsb' 16 8, lim := limOf16 (b.off.extractLsb' 0 16) }

/-- The cross-lane group (Table 3-11). -/
def parseCross (r : Raw) (l : Lane) : Option Instr :=
  match (subOf r).toNat with
  | 0 => some (.shfl l) | 4 => some (.shflx l) | 8 => some (.bcast l)
  | 12 => (atomOfCode (l.sc.extractLsb' 0 4)).map (fun o => .redv o { l with sc := 0 })
  | 16 => (atomOfCode (l.sc.extractLsb' 0 4)).map (fun o => .scanv o { l with sc := 0 })
  | 20 => some (.vtos l) | 24 => some (.stov l)
  | _ => none

/-- The mask group. -/
def parseMask (r : Raw) (l : Lane) : Option Instr :=
  match (subOf r).toNat with
  | 0 => some (.mand l) | 4 => some (.mor l) | 8 => some (.mxor l) | 12 => some (.mnot l) | 16 => some (.mpop l)
  | 20 => some (.many l) | 24 => some (.mall l) | _ => none

/-- The special functions (Table 6-5). -/
def parseFn (r : Raw) (l : Lane) : Option Instr :=
  let m := fmodeFn r
  match (subOf r).toNat with
  | 0 => some (.exp2 m l) | 1 => some (.log2 m l) | 2 => some (.rcp m l) | 3 => some (.rsq m l) | 4 => some (.sin m l)
  | 5 => some (.cos m l) | 6 => some (.tanh m l) | 7 => some (.sigm m l) | 8 => some (.erf m l) | _ => none

/-- Special registers: SC[3:0] the code, SC[4] the kind (Table 5-5). -/
def parseSreg (r : Raw) (b : RBody) : Option Instr :=
  match sregOfCode (b.sc.extractLsb' 0 4), b.sub.toNat with
  | some c, 0 => some (.srd r.hdr b.keep (b.sc.getLsbD 4) c r.dst)
  | some c, 1 => some (.swr r.hdr b.keep (b.sc.getLsbD 4) c b.sa)
  | _, _ => none

/-- The full/empty group (Table 8-4). -/
def parseFe (r : Raw) (b : RBody) : Option Instr :=
  match b.sub.toNat with
  | 0 => some (.feset r.hdr b.keep (b.sc.getLsbD 4) b.sa)
  | 4 => some (.feclr r.hdr b.keep (b.sc.getLsbD 4) b.sa)
  | 8 => some (.feqry r.hdr b.keep (b.sc.getLsbD 4) r.dst b.sa)
  | _ => none

/-- The ordering group (Table 10-3). -/
def parseOrder (r : Raw) (b : RBody) : Option Instr :=
  match b.sub.toNat with
  | 0 => some (.phase r.hdr) | 4 => some (.publ r.hdr) | 8 => some (.rfsh r.hdr)
  | 14 => some (.fence false r.hdr) | 15 => some (.fence true r.hdr) | 16 => some (.sysrel r.hdr)
  | _ => none

/-- Opcodes 0x39 to 0x3E. -/
def parseEngine (r : Raw) (b : RBody) : Option Instr :=
  match r.op.toNat with
  | 0x39 => some (.mqma r.hdr (b.keep.getLsbD 2) (r.dst.extractLsb' 0 3) (r.dst.extractLsb' 3 2) b.sa b.sb
      (b.sc.extractLsb' 0 3) (b.sub.extractLsb' 0 2))
  | 0x3A => (tyOfCode (b.mods.extractLsb' 0 4)).map (fun t =>
      .mcrd r.hdr t r.dst (b.sa.extractLsb' 0 3) (b.sc.extractLsb' 0 5) b.sb)
  | 0x3B => (tyOfCode (b.mods.extractLsb' 0 4)).map (fun t =>
      .mcwr r.hdr t (b.keep.getLsbD 2) b.sa (r.dst.extractLsb' 0 3) (b.sc.extractLsb' 0 5) b.sb)
  | 0x3C => (tyOfCode (b.mods.extractLsb' 0 4)).map (fun t =>
      .mcz r.hdr t (r.dst.extractLsb' 0 3) (b.sc.extractLsb' 0 5) b.sb)
  | 0x3D => (lrselOfCode b.sub).map (fun s => .lrchk r.hdr s r.dst b.sa)
  | 0x3E => some (.claim r.hdr (r.dst.extractLsb' 0 6) (b.sa.extractLsb' 0 6))
  | _ => none

/-- The immediate format, opcodes 0x40 to 0x59. -/
def parseImm (r : Raw) (b : IBody) : Option Instr :=
  let d6 := r.dst.extractLsb' 0 6
  let s6 := b.sa.extractLsb' 0 6
  match r.op.toNat with
  | 0x40 => some (.movi r.hdr r.dst (b.sa.getLsbD 4) (b.sa.getLsbD 0) b.imm)
  | 0x41 => some (.rcede r.hdr b.sa)
  | 0x42 => some (.rtake r.hdr b.sa (limOf32 b.imm))
  | 0x43 => some (.qinit r.hdr (r.dst.extractLsb' 0 4) b.sa (b.imm.extractLsb' 16 8) (b.imm.extractLsb' 24 8))
  | 0x44 => some (.qpush r.hdr (r.dst.extractLsb' 0 4) b.sa (limOf32 b.imm))
  | 0x45 => some (.qpop r.hdr r.dst (b.sa.extractLsb' 0 4) (limOf32 b.imm))
  | 0x46 => some (.rvinit r.hdr r.dst (b.imm.extractLsb' 0 16))
  | 0x47 => some (.rvarr r.hdr r.dst s6 (b.imm.getLsbD 31) (scopeOfCode (b.imm.extractLsb' 8 2)) (b.imm.extractLsb' 0 8))
  | 0x48 => some (.rvexp r.hdr r.dst s6)
  | 0x49 => some (.rvwait r.hdr r.dst (b.sa.getLsbD 6) s6 (limOf32 b.imm))
  | 0x4A => some (.rvtest r.hdr r.dst s6)
  | 0x4B => some (.tlwait r.hdr d6 (b.sa.getLsbD 6) s6 (limOf32 b.imm))
  | 0x4C => some (.tlread r.hdr d6 s6)
  | 0x4D => some (.clwait r.hdr d6 s6 (limOf32 b.imm))
  | 0x4E => some (.fulfil r.hdr d6 s6)
  | 0x4F => some (.abandon r.hdr s6)
  | 0x50 => some (.clrel r.hdr s6)
  | 0x51 => some (.clinv r.hdr d6 s6)
  | 0x52 => some (.swgo r.hdr (r.dst.extractLsb' 6 2) d6 s6 (limOf32 b.imm))
  | 0x53 => some (.swait r.hdr b.sa)
  | 0x54 => some (.swend r.hdr)
  | 0x55 => some (.swake r.hdr b.sa (b.imm.getLsbD 8) (b.imm.extractLsb' 0 2))
  | 0x56 => some (.sctxr r.hdr r.dst b.sa (b.imm.getLsbD 8) (b.imm.extractLsb' 0 2))
  | 0x57 => some (.sctxw r.hdr r.dst b.sa (b.imm.getLsbD 8) (b.imm.extractLsb' 0 2))
  | 0x58 => some (.snbr r.hdr r.dst (b.sa.extractLsb' 0 4) (b.imm.extractLsb' 0 3))
  | 0x59 => some (.swqry r.hdr d6 (b.imm.extractLsb' 2 2) (b.imm.extractLsb' 0 2))
  | _ => none

/-- The memory and engine format, opcodes 0x60 to 0x6F. -/
def parseMem (r : Raw) (b : MBody) : Option Instr :=
  match r.op.toNat with
  | 0x60 => (memOf r).map .lds | 0x61 => (memOf r).map .sts | 0x62 => (memOf r).map .dlds | 0x63 => (memOf r).map .dsts
  | 0x64 => (memOf r).map (.ldg (b.sb.getLsbD 4)) | 0x65 => (memOf r).map .stg | 0x66 => (memOf r).map .ldh
  | 0x67 => (memOf r).map .sth | 0x68 => (memOf r).map .pfg
  | 0x69 => some (.spill r.hdr (b.sb.getLsbD 1) r.dst (b.off.extractLsb' 0 12))
  | 0x6A => some (.fill r.hdr (b.sb.getLsbD 1) r.dst (b.off.extractLsb' 0 12))
  | 0x6B => some (.mbld r.hdr (r.dst.extractLsb' 3 3) (r.dst.extractLsb' 0 3) (b.sa.extractLsb' 0 6)
      (b.sb.extractLsb' 0 6) b.off)
  | 0x6C => some (.mbcast r.hdr (r.dst.extractLsb' 3 3) (r.dst.extractLsb' 0 3) (b.sa.extractLsb' 0 6)
      (b.sb.extractLsb' 0 6) (b.off.extractLsb' 16 8) (b.off.extractLsb' 0 16))
  | 0x6D => some (.cpy (copyOf r)) | 0x6E => some (.cpyx (copyOf r))
  | 0x6F => some (if r.dst.getLsbD 7 then .cpyrOut (copyOf r) else .cpyrIn (copyOf r))
  | _ => none

/-- The control format, opcodes 0x70 to 0x7F. -/
def parseCtl (r : Raw) (b : CBody) : Option Instr :=
  let ng := r.dst.getLsbD 3
  let m := r.dst.extractLsb' 0 3
  match r.op.toNat with
  | 0x70 => some (.bra b.tgt) | 0x71 => some (.brc ng m b.tgt) | 0x72 => some (.brd ng m b.tgt b.aux) | 0x73 => some .join
  | 0x74 => some (.loopb m b.tgt (limOf16 b.aux)) | 0x75 => some (.loopn m b.tgt (limOf16 b.aux))
  | 0x76 => some (.loopx m b.tgt) | 0x77 => some (.call b.tgt)
  | 0x78 => some (.callt (b.aux.extractLsb' 8 8) (b.aux.extractLsb' 0 6)) | 0x79 => some .ret
  | 0x7A => some .exit | 0x7B => some .yield | 0x7C => some .nop | 0x7D => some (.trap b.aux)
  | 0x7E => some (.brk b.aux) | 0x7F => some (.yieldc r.dst b.tgt (limOf16 b.aux))
  | _ => none

/-- The register format, opcodes 0x01 to 0x38. -/
def parseReg (r : Raw) (b : RBody) : Option Instr :=
  match r.op.toNat with
  | 0x01 => (laneOf r).map .iadd | 0x02 => (laneOf r).map .isub | 0x03 => (laneOf r).map .iaddc
  | 0x04 => (laneOf r).map .isadd | 0x05 => (laneOf r).map .imul | 0x06 => (laneOf r).map .imulh
  | 0x07 => (laneOf r).map .imad | 0x08 => (laneOf r).map .imin | 0x09 => (laneOf r).map .imax
  | 0x0A => (laneOf r).map .iabs | 0x0B => (laneOf r).map .ineg | 0x0C => (laneOf r).map .and
  | 0x0D => (laneOf r).map .or | 0x0E => (laneOf r).map .xor | 0x0F => (laneOf r).map .not
  | 0x10 => (laneOf r).map .shl | 0x11 => (laneOf r).map .shr | 0x12 => (laneOf r).map .shra
  | 0x13 => (laneOf r).map .rot | 0x14 => (laneOf r).map .popc | 0x15 => (laneOf r).map .clz
  | 0x16 => (laneOf r).map .brev | 0x17 => (laneOf r).map .bfx | 0x18 => (laneOf r).map .bfi
  | 0x19 => match condOfCode (b.sub.extractLsb' 2 3) with
    | some c => (laneOf r).map (.icmp c)
    | none => none
  | 0x1A => (laneOf r).map .sel | 0x1B => (laneOf r).map .mov | 0x1C => (laneOf r).map .nhash
  | 0x1D => (laneOf r).map (.fadd (fmodeOf r)) | 0x1E => (laneOf r).map (.fsub (fmodeOf r))
  | 0x1F => (laneOf r).map (.fmul (fmodeOf r)) | 0x20 => (laneOf r).map (.ffma (fmodeOf r))
  | 0x21 => (laneOf r).map (.fmin (fmodeOf r)) | 0x22 => (laneOf r).map (.fmax (fmodeOf r))
  | 0x23 => match condOfCode (b.sub.extractLsb' 0 3) with
    | some c => (laneOf r).map (.fcmp c (fmodeOf r))
    | none => none
  | 0x24 => (laneOf r).map (fun l => .fclass (b.sub.extractLsb' 0 2 ++ l.sc) (fmodeOf r) { l with sc := 0 })
  | 0x25 => (laneOf r).map (.frint (fmodeOf r)) | 0x26 => (laneOf r).map (.fdiv (fmodeOf r))
  | 0x27 => (laneOf r).map (.fsqrt (fmodeOf r)) | 0x28 => (laneOf r).map (.fdot2 (fmodeOf r))
  | 0x29 => (laneOf r).bind (parseFn r)
  | 0x2A => cvtOf r .cvt | 0x2B => cvtOf r .pack | 0x2C => cvtOf r .unpk | 0x2D => cvtOf r .qnt | 0x2E => cvtOf r .dqnt
  | 0x2F => (laneOf r).bind (parseCross r) | 0x30 => (laneOf r).bind (parseMask r)
  | 0x31 => parseSreg r b
  | 0x32 => atomWordOf r .ats | 0x33 => (laneOf r).map .cass | 0x34 => parseFe r b
  | 0x35 => atomWordOf r .atg | 0x36 => (laneOf r).map .casg | 0x37 => atomWordOf r .redg
  | 0x38 => parseOrder r b
  | _ => parseEngine r b

/-- The fields of a full word read as an instruction, by OP range (Table 3-2). -/
def parseFull (r : Raw) : Option Instr :=
  if r.op.toNat < 0x40 then parseReg r (unpackR r.body)
  else if r.op.toNat < 0x60 then parseImm r (unpackI r.body)
  else if r.op.toNat < 0x70 then parseMem r (unpackM r.body)
  else parseCtl r (unpackC r.body)

/-- Bit 63 selects the form (R34). -/
def parse (w : BitVec 64) : Option Instr :=
  if w.getLsbD 63 then some (.pairedWord (halfOf (w.extractLsb' 32 31)) (halfOf (w.extractLsb' 1 31)))
  else parseFull (unpackRaw w)

/-- The instruction of a word; none for a word that is not an instruction (R60). -/
def decode (w : BitVec 64) : Option Instr :=
  match parse w with
  | some i => if i.wellFormed && encode i == some w then some i else none
  | none => none

/-- The word that eight bytes hold, lowest address first (R34). -/
def wordOfBytes : List Byte → Option (BitVec 64)
  | [b0, b1, b2, b3, b4, b5, b6, b7] => some (b7 ++ b6 ++ b5 ++ b4 ++ b3 ++ b2 ++ b1 ++ b0)
  | _ => none

/-- Decoding of the bytes at a program counter: total, none where they are not an instruction. -/
def decodeBytes (bs : List Byte) : Option Instr := (wordOfBytes bs).bind decode

/-- The bytes of a word, lowest address first. -/
def bytesOfWord (w : BitVec 64) : List Byte := (List.range 8).map (fun k => w.extractLsb' (8 * k) 8)

/-- The host's entry to the decoder: an instruction whose bits are `w`. Every instruction is one 64-bit word (R34). -/
def decodeTableWord (nbits w : Nat) : Option Instr := if nbits ≤ 64 then decodeBytes (bytesOfWord (BitVec.ofNat 64 w)) else none

end Sys2Proof
end

