-- ==== Sys2Proof/Machine/Maps.lean ====
section
/-! DEFINITION. Finite maps as plain data: lists of key and value pairs with strictly rising keys. Every table of the
state (memory, registers, launches, waves, points) is one, so equal tables are equal data. -/

namespace Sys2Proof.Machine

/-- A table keyed by natural numbers, keys strictly rising. -/
abbrev Tab (α : Type) := List (Nat × α)

/-- The entry of key `k`. -/
def tfind {α : Type} : Tab α → Nat → Option α
  | [], _ => none
  | (j, v) :: t, k => if j = k then some v else tfind t k

/-- The table with `v` at key `k`. -/
def tput {α : Type} : Tab α → Nat → α → Tab α
  | [], k, v => [(k, v)]
  | (j, u) :: t, k, v =>
    if k < j then (k, v) :: (j, u) :: t
    else if k = j then (k, v) :: t
    else (j, u) :: tput t k v

/-- The table without key `k`. -/
def tdel {α : Type} (t : Tab α) (k : Nat) : Tab α := t.filter (fun p => p.1 != k)

/-- The value at `k`, `d` where the table lists none. -/
def tget {α : Type} (d : α) (t : Tab α) (k : Nat) : α := (tfind t k).getD d

/-- The table that reads `v` at `k`; the default is never listed. -/
def tset {α : Type} [DecidableEq α] (d : α) (t : Tab α) (k : Nat) (v : α) : Tab α :=
  if v = d then tdel t k else tput t k v

/-- The table changed at `k` where it lists `k`. -/
def tmod {α : Type} (t : Tab α) (k : Nat) (f : α → α) : Tab α :=
  match tfind t k with
  | some v => tput t k (f v)
  | none => t

/-- Keys above `k` all the way down the list. -/
def keysAbove {α : Type} (k : Nat) (t : Tab α) : Bool := t.all (fun p => k < p.1)

/-- Keys strictly rise. -/
def tsorted {α : Type} : Tab α → Bool
  | [] => true
  | (k, _) :: t => keysAbove k t && tsorted t

/-- The canonical form of a table with default `d`: keys strictly rise and no entry is the default. -/
def tcanon {α : Type} [DecidableEq α] (d : α) (t : Tab α) : Bool := tsorted t && t.all (fun p => p.2 ≠ d)

/-- Writes a run of values at rising keys from `k`. -/
def tputs {α : Type} [DecidableEq α] (d : α) (t : Tab α) (k : Nat) : List α → Tab α
  | [] => t
  | v :: vs => tputs d (tset d t k v) (k + 1) vs

/-- The `n` values from key `k`. -/
def tgets {α : Type} (d : α) (t : Tab α) (k n : Nat) : List α := (List.range n).map (fun i => tget d t (k + i))

/-- The bytes of a number, lowest first. DEDUCED (log 65). -/
def leBytes (n : Nat) : Nat → List Byte
  | 0 => []
  | k + 1 => BitVec.ofNat 8 n :: leBytes (n / 256) k

/-- The number that bytes hold, lowest first. -/
def ofLeBytes : List Byte → Nat
  | [] => 0
  | b :: bs => b.toNat + 256 * ofLeBytes bs

/-- Bits `[hi:lo]` of a number. -/
def bits (n hi lo : Nat) : Nat := n / 2 ^ lo % 2 ^ (hi + 1 - lo)

/-- The signed value of the low `w` bits of a number. -/
def signedOf (w n : Nat) : Int :=
  let m := n % 2 ^ w
  if 2 * m < 2 ^ w then (m : Int) else (m : Int) - (2 : Int) ^ w

/-- Ceiling of a quotient. -/
def ceilDiv (a b : Nat) : Nat := (a + b - 1) / b

/-- The least natural number of a list. -/
def minOf (d : Nat) (l : List Nat) : Nat := l.foldl Nat.min d

/-- The largest natural number of a list. -/
def maxOf (l : List Nat) : Nat := l.foldl Nat.max 0

/-- Insertion into a rising list, duplicates dropped. -/
def insertNat (k : Nat) : List Nat → List Nat
  | [] => [k]
  | j :: t => if k < j then k :: j :: t else if k = j then j :: t else j :: insertNat k t

/-- The lanes 0 to `w - 1` whose bit is set. -/
def lanesOf (w : Nat) (m : Mask) : List Nat := (List.range w).filter (fun l => m.getLsbD l)

/-- The mask with exactly the given lanes. -/
def maskOf (ls : List Nat) : Mask := ls.foldl (fun m l => m ||| (1#64 <<< l)) 0#64

/-- Two tables of counts joined by the larger count. -/
def joinClock (a b : Tab Nat) : Tab Nat := b.foldl (fun t p => tput t p.1 (max p.2 (tget 0 t p.1))) a

/-- Number of set bits. -/
def popcount (w : Nat) (n : Nat) : Nat := ((List.range w).filter (fun i => n.testBit i)).length

end Sys2Proof.Machine
end

