-- ==== Sys2Proof/Machine/State.lean ====
section
/-! DEFINITION. The state of the whole DNB-192 as plain data: waves, blocks, launches, memory and its home order,
engines, the claim table, partitions, ports, clusters. -/

namespace Sys2Proof.Machine

/-- Why the machine stops. -/
inductive Fault where
  /-- Raised by a device-memory access whose translation gives a tier-physical address beyond the tier's capacity
  (R172, Table 0-1): no such byte exists. Safe: the model stops where the manual gives no outcome. -/
  | absentMemory
deriving DecidableEq, Repr

/-- Why a word is given no meaning. -/
inductive Refusal where
  /-- Raised by an arm of `exec` that has no meaning yet. Safe. -/
  | notModelled (mnemonic : String)
  /-- Raised by a word executed in a state whose issue cursor names no path of a wave: no word issues without one
  (R88). Safe. -/
  | noIssuer
deriving DecidableEq, Repr

/-- A loop register (R92). -/
structure LoopReg where
  trips : BitVec 32 := 0
  limit : BitVec 32 := 0
deriving DecidableEq, Repr

/-- A path (R92): program counter as a byte offset in the code, lane mask, join address, parked flag. -/
structure Path where
  pc : BitVec 32
  mask : Mask
  join : Option (BitVec 32)
  parked : Bool
deriving DecidableEq, Repr

/-- A spill-stack frame (R93). -/
inductive Frame where
  | path (p : Path)
  | rejoin (join : Option (BitVec 32)) (mask : Mask)
  | call (ret : BitVec 32) (join : Option (BitVec 32)) (loops : List LoopReg) (target : Nat)
deriving DecidableEq, Repr

/-- A rendezvous point of a launch: of a block (`cohort = none`) or of a cohort entry (R16, R209). -/
structure PointRef where
  serial : Nat
  block : Nat
  cohort : Option Nat
  n : Nat
deriving DecidableEq, Repr

/-- The state of a point (Table 11-1); `src` is what set ERR (ENGINE word, PC, value); `rel` and
`relDone` are the points of H that the open and the last completed phase release (R215), `clk` and `clkDone` the det
phases that their releases hand over, by block key (R313). -/
structure Point where
  exp : BitVec 16
  arr : BitVec 16
  pend : Int
  ph : Bool
  err : Nat
  raised : Bool
  src : Option (Nat × Nat × Nat)
  rel : Nat
  relDone : Nat
  clk : Tab Nat := []
  clkDone : Tab Nat := []
deriving DecidableEq, Repr

/-- What holds a path (R88): nothing, a frame read (R95), or a waiting word. -/
inductive Hold where
  | free
  | frame
  | rvwait (p : PointRef) (par : Bool) (rlx : Bool)
  | tlwait (sweep : Bool) (ctx : Nat) (num : Nat) (rlx : Bool)
  | clwait (d : Nat) (ticket : BitVec 32)
  | rtake (n : Nat)
  | rcede (n : Nat)
  | yieldc (p : PointRef) (cont : BitVec 32)
  | fence (system : Bool) (seq : Nat)
  /-- A `PHASE` or `RFSH` whose `NewView` waits for the wave's earlier loads and atomics (R208). -/
  | view
  /-- A `CLAIM` whose answer is READY and whose `NewView` waits for the same (R208, R352): the point of H of the
  publication and the det phases that it acquires. -/
  | ready (acq : Nat) (clk : Tab Nat)
  | sysrel (pub : Option Nat)
  /-- A word of the path has trapped: the path issues no more (R363). -/
  | trapped
deriving DecidableEq, Repr

/-- What a `CLWAIT` answers once its entry has answered it within its limit (R303, R355): the word, the handle, whether the
answer is READY, and the point of H and the det phases that READY acquires. -/
structure ClAns where
  word : BitVec 64
  handle : BitVec 64
  ready : Bool
  relPt : Nat
  clk : Tab Nat
deriving DecidableEq, Repr

/-- A PC slot that holds a path; `start` is the wave's resident cycle count when the waiting word issued. -/
structure Slot where
  path : Path
  hold : Hold := .free
  start : Nat := 0
  limit : Nat := 0
  since : Nat := 0
  /-- The word at the program counter has failed its check bits once (R61). -/
  retry : Bool := false
  /-- What a waiting word waits for has come about: within its limit, or only after it (R211, R303); the point as it
  then stood (R216). -/
  met : Option Bool := none
  seen : Option Point := none
  /-- Of a `CLWAIT`: its answer, come in time (R355). -/
  ans : Option ClAns := none
deriving DecidableEq, Repr

/-- A register of a wave. -/
inductive Reg where
  | v (n : Nat) | s (n : Nat) | m (n : Nat)
deriving DecidableEq, Repr

/-- One register write: a lane of a vector register, a scalar register, bits of a mask register. -/
inductive RegWrite where
  | v (r : Nat) (lane : Nat) (x : Word)
  | s (r : Nat) (x : DWord)
  | m (r : Nat) (on : Mask) (x : Mask)
deriving DecidableEq, Repr

/-- Which words a pending result belongs to, for `FENCE` and `NewView` (R208). -/
inductive PendKind where
  | dev | host | die | other
deriving DecidableEq, Repr

/-- A result still to be written (R118): the registers it holds in the scoreboard, the writes known so far, and whether
all are known. -/
structure Pend where
  tag : Nat
  kind : PendKind
  dst : List Reg
  writes : List RegWrite
  ready : Bool
  /-- Lanes of an `LDH` that the host has answered with an error, with their addresses (R185). -/
  bad : List (Nat × BitVec 64) := []
deriving DecidableEq, Repr

/-- Kinds of operation on the scratchpad port of a wave, in issue order (R154). Addresses are checked at issue. -/
inductive SpKind where
  | load (die : Bool) (ty : Ty) (dk : Bool) (dst : Nat) (at_ : List (Nat × Nat))
  | lds (ty : Ty) (dk : Bool) (dst : Nat) (at_ : List (Nat × Nat)) (lines : List Nat)
  | store (die : Bool) (at_ : List (Nat × Nat × List Byte))
  | ats (op : AtomOp) (ty : Ty) (scal : Bool) (dst : Nat) (at_ : List (Nat × Nat × Nat))
  | cass (ty : Ty) (scal : Bool) (dst : Nat) (at_ : List (Nat × Nat × Nat × Nat))
  | feset (at_ : List (Nat × Nat))
  | feclr (at_ : List (Nat × Nat))
  | feqry (scal : Bool) (dst : Nat) (at_ : List (Nat × Nat))
  | qinit (q base cap allow : Nat)
  | qpush (q : Nat) (h : BitVec 32)
  | qpop (q : Nat) (dst : Nat)
  | mbld (b p a sc : Nat) (ty : Ty) (bl : Nat) (id : Nat)
  | mqma (b : Nat) (id : Nat) (rows : List (Nat × Nat)) (rowBytes : Nat) (asc abl : Nat)
  | mbcast (entry b p : Nat) (a : Int) (desc : BitVec 64) (pt : Nat)
  | sctxr (scal : Bool) (dst : Nat) (c : Nat) (at_ : List (Nat × Nat))
  | sctxw (c : Nat) (at_ : List (Nat × Nat × BitVec 64))
  | swctx (at_ : List (Nat × Nat × Option (BitVec 64)))
  | swake (c : Nat) (at_ : List (Nat × Nat))
  | snbr (dst : Nat) (pair : Bool) (mc : Nat) (at_ : List (Nat × Option Nat))
deriving DecidableEq, Repr

/-- A scratchpad operation awaiting its banks; `seq` is its place in the device's issue order. `left` holds its parts not
yet performed, once the banks have begun it, and `got` what the others have read (R151, R153, R155); `met` tells of a queue word whether
what it waits for has come about within its limit, or only after it (R168), and of an `LDS` at the head of its queue that it
waits, or that its wait has completed (R165). -/
structure SpOp where
  seq : Nat
  tag : Nat
  pc : BitVec 32
  start : Nat
  since : Nat
  limit : Nat
  eff : Mask
  kind : SpKind
  left : Option (List Nat) := none
  got : Tab Byte := []
  met : Option Bool := none
deriving DecidableEq, Repr

/-- Kinds of request a wave has under way to memory. -/
inductive ReqKind where
  /-- An `STG` awaiting its entry in the store set (R195): translated location, byte, device address. -/
  | stg (bytes : List (Nat × Byte × BitVec 64))
  /-- A lane of an `LDG.STABLE` (R200): locations of its bytes. -/
  | stable (locs : List Nat) (ty : Ty) (dk : Bool) (dst : Nat)
  /-- A lane of an `LDG.H` (R201): locations of its bytes, and the bytes of the units already read. -/
  | home (locs : List Nat) (got : List Byte) (ty : Ty) (dk : Bool) (dst : Nat)
  /-- A lane of a global atomic (R191); operation 7 is compare and swap. -/
  | atom (op : Nat) (locs : List Nat) (ty : Ty) (scal : Bool) (dst : Option Nat) (b c : Nat)
  /-- A lane of an atomic to a remote range (R193), sent with this fabric tag. -/
  | remote (dev : Nat) (flitTag : Nat) (slot : Nat) (ty : Ty) (scal : Bool) (dst : Option Nat)
  /-- A lane of an atomic to a remote range that has not been sent: an earlier request of the wave must act first (R202). -/
  | far (dev addr op : Nat) (ty : Ty) (scal : Bool) (dst : Option Nat) (b c : Nat)
  /-- A lane of an `LDH` (R185): bus address of each byte. -/
  | ldh (addrs : List Nat) (ty : Ty) (dk : Bool) (dst : Nat)
deriving DecidableEq, Repr

/-- A request under way: sequence of its word, tag of its result, lane, PC, device address; `after` is the sequence of
the last word before it that orders the wave's requests (R202). -/
structure Req where
  seq : Nat
  tag : Nat
  lane : Nat
  pc : BitVec 32
  addr : BitVec 64
  kind : ReqKind
  after : Nat := 0
deriving DecidableEq, Repr

/-- An arrival on its way to a point (R213). `pub`: the publication it waits for. -/
structure Arr where
  seq : Nat
  tag : Nat
  pc : BitVec 32
  p : PointRef
  n : Nat
  dst : Nat
  rlx : Bool
  scope : Scope
  /-- The publication step of the release has been taken (R213). -/
  published : Bool
  pub : Option Nat
  watchIx : Nat
  clock : Tab Nat
deriving DecidableEq, Repr

/-- A copy command on its way to its context (R248). -/
structure Cmd where
  seq : Nat
  tag : Nat
  pc : BitVec 32
  ctx : Nat
  kind : Nat
  d : Nat
  rcd : List DWord
  tile : DWord
  limit : Nat
  pt : Option PointRef
  pubs : List Nat
deriving DecidableEq, Repr

/-- What a sweep wave is running (R328): context number, number of its run, `WAVE` of the wave that issued the `SWGO`,
position of each lane. -/
structure SweepInfo where
  ctx : Nat
  run : Nat
  wave : Nat
  lanes : List (Nat × Nat)
deriving DecidableEq, Repr

/-- A wave (R92, R137). `v` is keyed by 64 · register + lane, `s` and `l` by number, `m` by number 1 to 7. -/
structure Wave where
  width : Nat
  v : Tab Word := []
  s : Tab DWord := []
  m : Tab Mask := []
  l : Tab LoopReg := []
  a : Option Slot := none
  b : Option Slot := none
  stack : List Frame := []
  act : Tab Nat := []
  allot : Nat := 1
  spill : Tab Word := []
  watch : Tab Bool := []
  pend : List Pend := []
  spq : List SpOp := []
  /-- An operation of `spq` has trapped as it was performed (R363): neither it nor what stands behind it ever is. -/
  spDead : Bool := false
  reqs : List Req := []
  arrs : List Arr := []
  cmds : List Cmd := []
  sths : Nat := 0
  retired : Nat := 0
  charge : Nat := 0
  /-- Core cycles already counted, and the step since which the wave is resident (R113). -/
  cycAcc : Nat := 0
  resident : Option Nat := none
  /-- What `SWR CYCLES` adds to the count (R114). -/
  cycOff : BitVec 64 := 0
  /-- Latest point of H at which the wave read home (R199). -/
  homePt : Nat := 0
  /-- Sequence of the wave's last `PHASE`, `RFSH` or acquiring wait (R202). -/
  barrier : Nat := 0
  retiredWave : Bool := false
  yielded : Bool := false
  /-- Issues of the slot in a row that have passed the wave over while it had an eligible path (R89). -/
  passed : Nat := 0
  sweep : Option SweepInfo := none
deriving DecidableEq, Repr

/-- A queue of a block (R166). -/
structure Queue where
  base : Nat
  cap : Nat
  allow : Nat
  head : Nat := 0
  tail : Nat := 0
  count : Nat := 0
  tags : List Nat := []
  out : Tab Nat := []
deriving DecidableEq, Repr

/-- Where a block stands. -/
inductive BlockPlace where
  | resident | saved | lost | retired
deriving DecidableEq, Repr

/-- A det-mode touch (R313): location key, kind (0 read, 1 write, 2 + code a `REDG`), PC, phase of the block. -/
structure Touch where
  loc : Nat
  kind : Nat
  block : Nat
  phase : Nat
  pc : Nat
deriving DecidableEq, Repr

/-- A block. `fe` lists the empty lines; `clock` is the phase of each other block, by its key, that this one has
synchronised with. -/
structure Block where
  core : Nat
  place : BlockPlace
  startDie : Nat
  nwaves : Nat
  scratch : Tab Byte := []
  fe : List Nat := []
  /-- R160: `LDS` words, by their `seq`, whose lines were filled only after their limit. -/
  late : List Nat := []
  queues : Tab Queue := []
  points : Tab Point := []
  pools : Tab Nat := []
  takers : Tab (List (Nat × Bool)) := []
  relaunchable : Bool := true
  matrixActed : Bool := false
  preempts : Nat := 0
  rot : Nat := 0
  bcasts : Tab Nat := []
  phase : Nat := 0
  clock : Tab Nat := []
  /-- R302: the block is being drained for a save, by the launch's own swap or for another launch. -/
  draining : Bool := false
  /-- The step of the loss after which the block waits for its relaunch (R375), the quadrant, and the attribution of the
  loss (R295). -/
  lostAt : Nat := 0
  lostQ : Nat := 0
  lostAttr : Nat := 0
deriving DecidableEq, Repr

/-- A broadcast word that a member's core has handed to the cluster bus (R274): the cohort entry and the number of the
word among those that the member has sent it; its wave and sequence; `data` is the source's panel and scales, `err` the fault of its checks. -/
structure Bcast where
  entry : Nat
  num : Nat
  block : Nat
  wave : Nat
  seq : Nat
  core : Nat
  b : Nat
  p : Nat
  desc : BitVec 64
  pt : Nat
  pc : Nat
  data : List Byte × List Byte
  err : Nat
  value : Nat
deriving DecidableEq, Repr

/-- A cohort of the kernel record (R392): entry, affinity, ranges of block indices. -/
structure Cohort where
  entry : Nat
  aff : Bool
  ranges : List (Nat × Nat)
deriving DecidableEq, Repr

/-- An accorded tensor (Table 12-10). -/
structure Accord where
  c : Nat
  ty : Ty
  order : Nat
  rows : Nat
  cols : Nat
  skew : Nat
  base : Nat
  fill : BitVec 64
  nbr : List (Int × Int)
  resume : List Nat
deriving DecidableEq, Repr

/-- The kernel record as the Nose reads it, its limits evaluated (R390). -/
structure Kernel where
  codeLen : Nat
  width : Nat
  regs : Nat
  det : Bool
  scratch : Nat
  diescratch : Nat
  fillLimit : Nat
  recurse : List (Nat × Nat)
  limits : List Nat
  cohorts : List Cohort
  tables : List (List Nat)
  accords : List Accord
  hasCopy : Bool
  hasMatrix : Bool
  hasSpecial : Bool
  claimsOnPath : Nat
  pairNbr : List Nat
deriving DecidableEq, Repr

/-- An offer: the quotation record with the request and the kernel behind it (R234, R223). -/
structure Offer where
  serial : Nat
  part : Nat
  tag : BitVec 64
  gen : Nat
  klass : Nat
  g2400 : Bool
  hAtomics : Bool
  q : Nat
  ebound : Nat
  feats : BitVec 64
  floor : Nat
  d : Nat
  rounds : Nat
  r : Nat
  k : Nat
  quantum : Nat
  cores : List Nat
  scratch : Nat
  regblk : Nat
  bslots : BitVec 8
  swctx : BitVec 8
  die0 : Nat
  die1 : Nat
  claims : Nat
  cectx : Nat
  stack : Nat
  /-- Bytes of the spill stack of each sweep context, by its number (R326). -/
  swstack : Tab Nat := []
  cohortClusters : List (Nat × Nat)
  nblock : Nat
  waves : Nat
  allot : Nat
  image : BitVec 64
  imglen : Nat
  params : List DWord
  kernel : Kernel
  /-- Point of H that every event of the launch follows (R317). -/
  hpt : Nat := 0
deriving DecidableEq, Repr

/-- A trap (R363, R364). -/
structure Trap where
  code : Nat
  attr : Nat
  construct : Nat
  pc : Nat
  pc2 : Nat
  block : Nat
  block2 : Nat
  wave : Nat
  core : Nat
  engine : Nat
  lanes : Mask
  value : BitVec 64
deriving DecidableEq, Repr

/-- An event of a completion record (Table 12-8). -/
structure Event where
  kind : Nat
  attr : Nat
  core : Nat
  pc : Nat
  value : BitVec 64
deriving DecidableEq, Repr

/-- An unstarted item of a distributor (R298, R299): a run of blocks, or a cohort group by its lowest member. -/
inductive Item where
  | range (lo hi : Nat)
  | group (members : List Nat)
deriving DecidableEq, Repr

/-- Core cycles that one core spends on a launch (R239). -/
structure CoreUse where
  acc : Nat
  open_ : Option Nat
  first : Nat
deriving DecidableEq, Repr

/-- The life of an accepted launch (R17, R305). -/
inductive LaunchState where
  | accepted | running | suspended
deriving DecidableEq, Repr

/-- An accepted launch. -/
structure Launch where
  offer : Offer
  st : LaunchState := .accepted
  own0 : List Item := []
  own1 : List Item := []
  stealAsk : Option Nat := none
  stealWait : List Nat := []
  done : Nat := 0
  traps : List Trap := []
  events : List Event := []
  nevents : Nat := 0
  cpoints : Tab Point := []
  creations : Nat := 0
  ctxOf : Tab Nat := []
  locked : List Nat := []
  /-- Energy used: quanta, and bytes moved in each tier: scratchpad, HBM, second tier, host, fabric (R239). -/
  quanta : Nat := 0
  ebytes : Tab Nat := []
  brks : Nat := 0
  use : Tab CoreUse := []
  /-- Locations of the bytes of the image, from its translation at accept (R243). -/
  touches : List Touch := []
  dieScr0 : Tab Byte := []
  dieScr1 : Tab Byte := []
  bcastSent : List Bcast := []
  bcastDone : Tab Nat := []
  placedOn : Tab Nat := []
  preemptedDie : List Nat := []
  /-- Spans of the events of kinds 4, 5, 6 and 8 (R241): kind + 16 · cluster or port, first step, last step where it has
  ended. -/
  spans : List (Nat × Nat × Option Nat) := []
  /-- The number, among the launch's events, of its latest event of kind 5 (R292). -/
  excursionAt : Option Nat := none
  /-- Energy above the floor's basis (R232), in units of 1/22,500,000 nJ. -/
  above : Nat := 0
deriving DecidableEq, Repr

/-- A copy that wrote a staged byte (R258): its context, number, program counter and point. -/
structure CopySrc where
  ctx : Nat
  num : Nat
  pc : Nat
  pt : Option PointRef
deriving DecidableEq, Repr

/-- A byte of a store set: its value, the device address that stored it, the copy that wrote it where one did. -/
structure SByte where
  val : Byte
  dva : BitVec 64
  copy : Option CopySrc := none
deriving DecidableEq, Repr

/-- A staged `REDG` lane of det mode (R312): the wave and the sequence of its word; `far` is the device and address of a
remote range. -/
structure Redg where
  id : WaveId
  seq : Nat
  op : Nat
  locs : List Nat
  far : Option (Nat × Nat)
  ty : Ty
  b : Nat
  addr : BitVec 64
  pc : Nat
  wave : Nat
  engine : Nat := 0
deriving DecidableEq, Repr

/-- A store set (R195), keyed by launch and core, or by block under the determinism flag (R197). -/
structure StoreSet where
  bytes : Tab SByte := []
  blocks : List Nat := []
  redgs : List Redg := []
deriving DecidableEq, Repr

/-- A publication made and not yet performed (R196). `claim`: the entry, generation and handle of a `FULFIL` (R357). -/
structure Pub where
  id : Nat
  serial : Nat
  key : Nat
  core : Nat
  block : Nat
  wave : Nat
  engine : Nat := 0
  pc : Nat
  set : StoreSet
  claim : Option (Nat × Nat × BitVec 64)
  /-- Point of H of a `FULFIL`'s publication that has been performed (R357). -/
  at_ : Option Nat := none
deriving DecidableEq, Repr

/-- A view (R199): its start in H, the values already read, the publications its start waits for. Under the determinism
flag, of the bytes that the block has published in this view and the view did not hold: location, and the point of H from
which the block reads it (R311). -/
structure View where
  start : Nat := 0
  seen : Tab Byte := []
  from_ : List (Nat × Nat) := []
  needs : List Nat := []
deriving DecidableEq, Repr

/-- A run of a remote copy's bytes on its way over the fabric (R382): tag, device, address, length, and the answer's
status and data. -/
structure RemRun where
  tag : Nat
  dev : Nat
  addr : Nat
  len : Nat
  got : Option (Nat × List Byte)
deriving DecidableEq, Repr

/-- What one event of an engine gathers: device bytes to write with their positions, tile bytes to write, remote
bytes, bytes moved per tier, device bytes accessed, and a failure that ends it. Device bytes still to be written are not
among those moved. -/
structure Turn where
  dev : List (Nat × Nat × Byte × BitVec 64) := []
  tile : List (Nat × List Byte) := []
  far : List (Nat × Nat × Byte) := []
  moved : List (Nat × Nat) := []
  hot : List (List Nat) := []
  fail : Option (Nat × Nat) := none
  upto : Nat
deriving DecidableEq, Repr

/-- An operation of a copy-engine context (R256); `kind` 0 `CPY`, 1 `CPYX`, 2 `CPYR.IN`, 3 `CPYR.OUT`. -/
structure CopyOp where
  num : Nat
  serial : Nat
  block : Nat
  core : Nat
  wave : Nat
  pc : Nat
  kind : Nat
  rcd : List DWord
  tile : Int
  limit : Nat
  pt : Option PointRef
  started : Bool := false
  /-- Tile bytes served, bytes counted down. -/
  next : Nat := 0
  counted : Nat := 0
  failed : Bool := false
  rem : List RemRun := []
  /-- Of a copy out, what the engine has gathered of the unit of the tile whose remote bytes are under way (R258). -/
  turn : Option Turn := none
  /-- Tile bytes served when the context's turn began (R247). -/
  turnAt : Nat := 0
  /-- Device bytes served and not yet written: position, location, byte and device address (R258). -/
  buf : List (Nat × Nat × Byte × BitVec 64) := []
  /-- Device bytes that the copy has written: location, and the home value before its write (R258). -/
  old : Tab Byte := []
deriving DecidableEq, Repr

/-- A failed operation of a timeline (R221, R256): number, ERR code of Table 11-2, launch, PC and address, and whether a
wait has observed it. -/
structure FailRec where
  num : Nat
  code : Nat
  serial : Nat
  pc : Nat
  value : Nat
  observed : Bool := false
deriving DecidableEq, Repr

/-- A copy-engine context with its timeline (R7, R220). -/
structure CopyCtx where
  timeline : Nat := 0
  nextNum : Nat := 1
  ops : List CopyOp := []
  failed : List FailRec := []
  relPt : Nat := 0
deriving DecidableEq, Repr

/-- A waiting matrix word of a B slot, in issue order (R270). -/
inductive MxKind where
  | mbld (p : Nat) (ty : Ty) (bl : Nat) (panel : Option (List Byte × List Byte))
  | mqma (g : Nat) (fmt : BitVec 64) (rows : Option (List (Nat × List Byte × List Byte))) (streaming : Bool)
  | mcrd (ty : Ty) (r c : Nat) (dst : Nat) (eff : Mask)
  | mcwr (ty : Ty) (r c : Nat) (vals : List (Nat × Word))
  | mcz (ty : Ty) (r n : Nat)
deriving DecidableEq, Repr

structure MxOp where
  id : Nat
  w : WaveId
  tag : Nat
  kind : MxKind
deriving DecidableEq, Repr

/-- A B slot with its accumulator bank (R264). -/
structure BSlot where
  tag : Option (Ty × Nat) := none
  cells : Tab Byte := []
  scales : Tab Byte := []
  acc : Tab Byte := []
  q : List MxOp := []
deriving DecidableEq, Repr

/-- A run sent to a sweep context (R338); `seq` is the step at which its `SWGO` issued, `behind` whether the context then
had another run of the block in progress or waiting. -/
structure Run where
  num : Nat
  seq : Nat
  w : WaveId
  pc : Nat
  arg : DWord
  limit : Nat
  behind : Bool := false
deriving DecidableEq, Repr

/-- The run in progress (R329, R330): the sweep, the chunk and whether it has been evaluated, the positions whose skip
bit is clear, the groups still to form (STATE, lane and position of each element), the step at which the sweep started,
whether a sweep wave is resident, the point of H that the evaluation's waits synchronise with (R328), the latest point of H
that an atomic of a sweep wave that has retired acted at (R221). -/
structure CurRun where
  run : Run
  sweep : Nat
  chunk : Nat
  clear : List Nat
  groups : List (Nat × List (Nat × Nat))
  evaluated : Bool
  sweepTick : Nat
  waveOn : Bool
  relPt : Nat
  wrote : Nat := 0
deriving DecidableEq, Repr

/-- A sweep context (R324, R342). -/
structure SweepCtx where
  timeline : Nat := 0
  nextNum : Nat := 1
  runs : List Run := []
  cur : Option CurRun := none
  lastSweeps : Nat := 0
  lastNum : Nat := 0
  lastClear : Nat := 0
  failed : List FailRec := []
  relPt : Nat := 0
deriving DecidableEq, Repr

/-- States of a claim entry (R346). -/
inductive ClSt where
  | free | making | ready | stale
deriving DecidableEq, Repr

/-- A claim entry (Table 22-1); pins are the launches that hold them. -/
structure Claim where
  fid : BitVec 32 := 0
  ver : BitVec 32 := 0
  dig : BitVec 64 := 0
  st : ClSt := .free
  part : Nat := 0
  gen : BitVec 14 := 0
  clk : Bool := false
  handle : BitVec 64 := 0
  maker : WaveId := ⟨0, 0, 0⟩
  /-- The maker has issued `FULFIL` (R357): duty discharged. -/
  fulfilling : Bool := false
  queue : List WaveId := []
  pins : List Nat := []
  /-- The maker took the duty over from the queue (R356); waves whose places `FULFIL` turned into pins (R357). -/
  handed : Bool := false
  served : List WaveId := []
  /-- The det phases that the `FULFIL` hands over, by block key (R313). -/
  clock : Tab Nat := []
  /-- Point of H of the `FULFIL`'s publication (R204). -/
  relPt : Nat := 0
  creator : Nat := 0
deriving DecidableEq, Repr

/-- A range entry (Table 9-1), as four words. -/
structure RangeEnt where
  w0 : BitVec 64 := 0
  w1 : BitVec 64 := 0
  w2 : BitVec 64 := 0
  w3 : BitVec 64 := 0
deriving DecidableEq, Repr

/-- A host window (Table 25-5). -/
structure HWin where
  base : BitVec 64 := 0
  target : BitVec 64 := 0
  len : BitVec 32 := 0
  perm : BitVec 32 := 0
  rsv : BitVec 64 := 0
deriving DecidableEq, Repr

/-- A partition's mappings (R177, R185). -/
structure Mapping where
  ranges : Tab RangeEnt := []
  hwins : Tab HWin := []
  ptroot : BitVec 64 := 0
  /-- R181: page-table bytes in force whose change by the host is held. -/
  held : Tab Byte := []
  /-- R182: pages of 4 KiB whose translation a migration has switched: device address, tier-physical place that the
  mapping gives, place now; all in 4 KiB. -/
  switched : List (Nat × Nat × Nat) := []
  /-- R182: page-table pages that a migration has switched: the tier-physical page that entries and the root name, and its
  place now; both in 4 KiB. -/
  tables : List (Nat × Nat) := []
deriving DecidableEq, Repr

/-- A record held for the ring (R378): kind, bytes, TAG, interrupt vector it raises. -/
structure RingRec where
  kind : Nat
  bytes : List Byte
  tag : BitVec 64
  vec : Nat
deriving DecidableEq, Repr

/-- A doorbell: its window, the window's 64 bytes when it arrived, whether it was written during a reset (R377, R372). -/
structure Bell where
  win : Nat
  bytes : List Byte
  inReset : Bool
  /-- Point of H at which it arrived: the host's earlier writes lie before it (R317). -/
  hpt : Nat := 0
deriving DecidableEq, Repr

/-- A page migration under way (R182): old and new 64 KiB page, line bitmap, whether the hot-page tracker made it. -/
structure Migration where
  old : Nat
  new_ : Nat
  done : List Nat
  part : Nat
  hot : Bool
deriving DecidableEq, Repr

/-- A partition (Tables 23-3, 25-1, 25-4). -/
structure Part where
  ctrl : BitVec 64 := 0
  clusters : BitVec 32 := 0
  quota : BitVec 32 := 0
  hotbase : BitVec 64 := 0
  hotcount : BitVec 32 := 0
  staged : Mapping := {}
  map : Mapping := {}
  heldMap : Option Mapping := none
  balance : Int := 0
  lowmark : BitVec 64 := 0
  status : Nat := 0
  resetting : Bool := false
  discarded : Bool := false
  /-- Window bytes 0 to 1023 (R377), doorbells in arrival order. -/
  win : Tab Byte := []
  bells : List Bell := []
  ringbase : BitVec 64 := 0
  ringslots : BitVec 32 := 0
  head : BitVec 32 := 0
  tail : BitVec 32 := 0
  held : List RingRec := []
  /-- Interrupts raised: vectors, latest first (R370). -/
  irqs : List Nat := []
  offers : List Offer := []
  /-- Requests answered REFUSED, accepted, closed: serials whose ACCEPT answers CLOSED are those not in `offers`. -/
  hotCount : Tab Nat := []
  accesses : Nat := 0
  flr : Bool := false
deriving DecidableEq, Repr

/-- A cluster's clock, voltage and charge (R280, R288, R289, R292). Frequencies in units of 0.1 GHz. -/
structure Cluster where
  request : Nat := 12
  freq : Nat := 12
  mv : Nat := 670
  target : Option Nat := none
  pending : Option Nat := none
  throttle : Nat := 0
  charge : BitVec 64 := 0
  windowFrom : BitVec 64 := 0
  shunt : Bool := false
  /-- The Blender's bias while the margin is held: the heavier layer of its pair, or the lighter (R282). -/
  bias : Option Bool := none
  /-- A clock stretched to the highest floor, in 0.01 GHz, by a droop or for want of the reference; it follows the floor
  (R291, R385). -/
  stretched : Option Nat := none
  /-- A clock that stands below the highest floor, in 0.01 GHz (R292, R385). -/
  fell : Option Nat := none
  episodes : List (Nat × Nat) := []
deriving DecidableEq, Repr

/-- A `REDG` request to a remote range, or a run of a copy's bytes for another device, placed by the ticket unit (R312,
R382): fabric tag, device, and where it came from: the wave and sequence of a `REDG`'s word, or the copy. -/
structure FarRed where
  id : WaveId
  seq : Nat
  copy : Option CopySrc := none
  tag : Nat
  dev : Nat
  serial : Nat
  block : Nat
  wave : Nat
  engine : Nat := 0
  core : Nat
  pc : Nat
  addr : BitVec 64
deriving DecidableEq, Repr

/-- A fabric port (R381 to R384). -/
structure Port where
  up : Bool := true
  retraining : Bool := false
  since : Nat := 0
  overdue : Bool := false
  fails : Nat := 0
  txSeq : BitVec 12 := 0
  rxSeq : BitVec 12 := 0
  replay : List Flit := []
  waiting : List Flit := []
  sent : List Flit := []
  cred0 : Nat := 256
  cred1 : Nat := 256
  freed0 : Nat := 0
  freed1 : Nat := 0
  crc : Nat := 0
  /-- Flits counted since the last retraining, and the places among them of the failed ones of the last 2^24 (R383). -/
  window : Nat := 0
  crcAt : List Nat := []
  /-- The step at which the retraining ran past its allowance, or the port went down, and the kind 8 events recorded for it: launch, index of the
  event, core of the stalled word (R384). -/
  lateAt : Nat := 0
  late : List (Nat × Nat × Nat) := []
deriving DecidableEq, Repr

/-- A reuse-latch position (R55): wave, register, scalar kind, the values of the lanes or of the scalar register. -/
structure Latch where
  wave : Nat
  pos : Nat
  reg : Nat
  scal : Bool
  vals : List DWord
deriving DecidableEq, Repr

/-- One message of the management path (R386): kind 1 the status `a` of a board's grant, 2 a discarded host write, 3 an
uncorrectable error met by no launch, 4 a flit dropped at HOPS 0, 5 a self-test result, 6 an attestation record sent,
7 a count of corrected errors, 8 a core's feature mask, 9 the memory stacks and channels that failed a self-test; the value
is a device address, or what the kind names. For kind 3, `a` is 1 where the value is a tier-physical address. -/
structure Mgmt where
  kind : Nat
  a : Nat
  value : BitVec 64
deriving DecidableEq, Repr

/-- One move of the schedule: a path issues, or an event row happens. -/
inductive Move where
  | issue (w : WaveId) (slotB : Bool)
  | event (i : Instr)
deriving DecidableEq, Repr

/-- The machine. -/
structure State where
  /-- Steps taken; the argument of the free values of `Config`. -/
  tick : Nat
  /-- The model's schedule: what the free choices of the agents come to, in order. -/
  agenda : List Move
  /-- The path whose word executes. -/
  cur : WaveId × Bool
  /-- Counters for sequence numbers, tags, publications and free values. -/
  seq : Nat
  free : Nat
  /-- Device memory: 2^41 · tier + tier-physical address; an unlisted byte reads zero. -/
  mem : List Host.Cell
  /-- Home order H, newest first: each event as the locations it wrote with the bytes they held before (R194). -/
  hist : List (List (Nat × Byte))
  /-- Units of 32 bytes that hold an uncorrectable error (R176). -/
  bad : List Nat
  hostMem : List Host.Cell
  /-- R182: the 64 KiB place where the bytes stand that were at a place first, where it is another; one to one. -/
  moved : Tab Nat
  /-- The status that a virtual function received for the last `ENERGY.GRANT` one wrote (R285); 0 before the first. -/
  vfGrant : Nat
  /-- The device-physical indirection table (R184): second-tier page and the HBM frame that holds its data. -/
  hot : Tab Nat
  /-- Corrected errors (R174): of HBM4E stack i under key i, of LPDDR6 channel c under key 8 + c. -/
  corrected : Tab Nat
  migrations : List Migration
  sets : Tab StoreSet
  pubs : List Pub
  /-- Latest point of H of a performed publication, per store-set key. -/
  pubPt : Tab Nat
  views : Tab View
  launches : Tab Launch
  blocks : Tab Block
  waves : Tab Wave
  copy : Tab CopyCtx
  engineLast : Tab Nat
  bslots : Tab BSlot
  sweeps : Tab SweepCtx
  claims : Tab Claim
  hands : Tab Nat
  parts : Tab Part
  clusters : Tab Cluster
  feats : Tab (BitVec 64)
  lostQuads : List Nat
  ports : Tab Port
  routes : Tab (BitVec 32)
  rtindex : BitVec 32
  flitTags : Nat
  farReds : List FarRed
  latches : Tab (List Latch)
  /-- Block that a slot has served last, under the determinism flag (R310): key 4 · core + slot. -/
  served : Tab Nat
  /-- Reservation generation (R237), house reserve, serial of the last request (R234). -/
  gen : Nat
  house : Nat
  lastSerial : Nat
  grantStat : Nat
  grants : BitVec 56
  grantRegs : Tab Byte
  transport : Bool
  selfTest : Bool
  powerUps : Nat
  /-- Supply: depth in mV of a droop within Table 16-2, of an excursion beyond it (R291, R292). -/
  droop : Nat
  beyond : Option Nat
  refClock : Bool
  mgmt : List Mgmt
  attest : List (List Byte)
  /-- Completions of host reads, latest first: address or register offset, status (0 data, 1 Unsupported Request,
  2 Completer Abort), data. -/
  hostReads : List (Nat × Nat × List Byte)
  /-- Turn of each core among the launches that share it (R301): serial, since when. -/
  turns : Tab (Nat × Nat)
  /-- Launch whose block a core must serve next, quadrant events. -/
  lastServed : Tab Nat
  selfRecord : List Byte
deriving DecidableEq, Repr

/-- The feature mask of a core with every unit working (R235): bits 17 to 0. -/
def fullFeatures : BitVec 64 := 0x3FFFF

/-- The machine right after reset: powered up, no self-test asked for, nothing configured, no launch, memory with
nothing listed. DESIGN CHOICE (log 15). -/
def State.reset : State :=
  { tick := 0, agenda := [], cur := (⟨0, 0, 0⟩, false), seq := 0, free := 0,
    mem := [], hist := [], bad := [], hostMem := [], moved := [], vfGrant := 0, hot := [], corrected := [], migrations := [],
    sets := [], pubs := [], pubPt := [], views := [], launches := [], blocks := [], waves := [],
    copy := [], engineLast := [], bslots := [], sweeps := [], claims := [], hands := [],
    parts := [], clusters := [], feats := [], lostQuads := [], ports := [], routes := [], rtindex := 0, flitTags := 0, farReds := [],
    latches := [], served := [], gen := 0, house := 0, lastSerial := 0, grantStat := 0, grants := 0, grantRegs := [],
    transport := false, selfTest := false, powerUps := 1, droop := 0, beyond := none, refClock := true,
    mgmt := [], attest := [], hostReads := [], turns := [], lastServed := [], selfRecord := [] }

end Sys2Proof.Machine
end

