-- ==== Sys2Proof/Machine/Ops.lean ====
section
/-! DEFINITION. The shared operations over the state: registers, program counters, traps, points, translation, home
memory, store sets, publications, views. -/

namespace Sys2Proof.Machine

abbrev Out := Host.Outcome State Fault Refusal

/-- The canonical form of a memory: addresses strictly rise, and no entry is zero, which an unlisted address reads as.
DESIGN CHOICE (log 1). -/
def Memory.wf (m : List Host.Cell) : Bool := tcanon 0 m

/-! ### Keys and lookups -/

def bkey (serial block : Nat) : Nat := serial * 2 ^ 32 + block
def wkey (w : WaveId) : Nat := bkey w.serial w.block * 128 + w.wave

def State.wave (s : State) (w : WaveId) : Option Wave := tfind s.waves (wkey w)
def State.block (s : State) (serial block : Nat) : Option Block := tfind s.blocks (bkey serial block)
def State.launch (s : State) (serial : Nat) : Option Launch := tfind s.launches serial
def State.setWave (s : State) (w : WaveId) (x : Wave) : State := { s with waves := tput s.waves (wkey w) x }
def State.modWave (s : State) (w : WaveId) (f : Wave → Wave) : State := { s with waves := tmod s.waves (wkey w) f }
def State.modBlock (s : State) (serial block : Nat) (f : Block → Block) : State :=
  { s with blocks := tmod s.blocks (bkey serial block) f }
def State.modLaunch (s : State) (serial : Nat) (f : Launch → Launch) : State :=
  { s with launches := tmod s.launches serial f }
def State.part (s : State) (p : Nat) : Part := tget {} s.parts p
def State.modPart (s : State) (p : Nat) (f : Part → Part) : State := { s with parts := tput s.parts p (f (s.part p)) }
def State.cluster (s : State) (c : Nat) : Cluster := tget {} s.clusters c
def State.modCluster (s : State) (c : Nat) (f : Cluster → Cluster) : State :=
  { s with clusters := tput s.clusters c (f (s.cluster c)) }
def State.copyCtx (s : State) (c : Nat) : CopyCtx := tget {} s.copy c
def State.modCopy (s : State) (c : Nat) (f : CopyCtx → CopyCtx) : State := { s with copy := tput s.copy c (f (s.copyCtx c)) }
def State.sweepCtx (s : State) (c : Nat) : SweepCtx := tget {} s.sweeps c
def State.modSweep (s : State) (c : Nat) (f : SweepCtx → SweepCtx) : State :=
  { s with sweeps := tput s.sweeps c (f (s.sweepCtx c)) }
def State.bslot (s : State) (core b : Nat) : BSlot := tget {} s.bslots (core * 8 + b)
def State.modBSlot (s : State) (core b : Nat) (f : BSlot → BSlot) : State :=
  { s with bslots := tput s.bslots (core * 8 + b) (f (s.bslot core b)) }
def State.port (s : State) (p : Nat) : Port := tget {} s.ports p
def State.modPort (s : State) (p : Nat) (f : Port → Port) : State := { s with ports := tput s.ports p (f (s.port p)) }
def State.feat (s : State) (core : Nat) : BitVec 64 := tget fullFeatures s.feats core
def State.claim (s : State) (e : Nat) : Claim := tget {} s.claims e
def State.setClaim (s : State) (e : Nat) (c : Claim) : State := { s with claims := tset {} s.claims e c }

/-- R5: cluster, die, quadrant and pair of a core. -/
def clusterOf (core : Nat) : Nat := core / 6
def dieOf (core : Nat) : Nat := core / 96
def quadOf (core : Nat) : Nat := core / 24

/-- A path that issues a word, with everything around it. -/
structure Ctx where
  id : WaveId
  slotB : Bool
  w : Wave
  sl : Slot
  b : Block
  l : Launch

/-- The PC slot of a wave. -/
def Wave.slot (w : Wave) (slotB : Bool) : Option Slot := if slotB then w.b else w.a
def Wave.setSlot (w : Wave) (slotB : Bool) (x : Option Slot) : Wave := if slotB then { w with b := x } else { w with a := x }

/-- The path of a wave in a PC slot. -/
def State.ctxAt (s : State) (id : WaveId) (slotB : Bool) : Option Ctx :=
  match s.wave id, s.block id.serial id.block, s.launch id.serial with
  | some w, some b, some l => (w.slot slotB).map (fun sl => { id := id, slotB := slotB, w := w, sl := sl, b := b, l := l })
  | _, _, _ => none

/-- The path at the issue cursor. -/
def State.issuer (s : State) : Option Ctx := s.ctxAt s.cur.1 s.cur.2

/-- A step of the wait logic on a path of a resident block; without such a path nothing happens. -/
def onPath (s : State) (id : WaveId) (slotB : Bool) (f : Ctx → State) : Out :=
  match s.ctxAt id slotB with
  | some c => .next (if c.b.place == .resident then f c else s)
  | none => .next s

/-- A word executes for the path at the cursor; without one it is refused. DESIGN CHOICE (log 16). -/
def issue (s : State) (f : Ctx → State) : Out :=
  match s.issuer with
  | some c => .next (f c)
  | none => .refused .noIssuer

/-! ### Registers (R65, R137) -/

def Wave.readV (w : Wave) (r lane : Nat) : Word := tget 0 w.v (64 * r + lane)
def Wave.writeV (w : Wave) (r lane : Nat) (x : Word) : Wave := { w with v := tset 0 w.v (64 * r + lane) x }
/-- R65: the even and odd pair. -/
def Wave.readV64 (w : Wave) (r lane : Nat) : DWord := w.readV (r + 1) lane ++ w.readV r lane
def Wave.readS (w : Wave) (r : Nat) : DWord := tget 0 w.s r
def Wave.writeS (w : Wave) (r : Nat) (x : DWord) : Wave := { w with s := tset 0 w.s r x }
/-- All lanes of a wave of width `n`. -/
def allLanes (n : Nat) : Mask := BitVec.ofNat 64 (2 ^ n - 1)
/-- R36, R137: `m0` reads all ones over the lanes of the wave. -/
def Wave.readM (w : Wave) (r : Nat) : Mask := if r = 0 then allLanes w.width else tget 0 w.m r
/-- Writes the bits of `on` of a mask register; `m0` and lanes at W and above are never written. -/
def Wave.writeM (w : Wave) (r : Nat) (on x : Mask) : Wave :=
  if r = 0 then w
  else { w with m := tset 0 w.m r (((w.readM r &&& ~~~on) ||| (x &&& on)) &&& allLanes w.width) }
def Wave.readL (w : Wave) (r : Nat) : LoopReg := tget {} w.l r
def Wave.writeL (w : Wave) (r : Nat) (x : LoopReg) : Wave := { w with l := tset {} w.l r x }

def Wave.applyWrite (w : Wave) : RegWrite → Wave
  | .v r lane x => w.writeV r lane x
  | .s r x => w.writeS r x
  | .m r on x => w.writeM r on x

def Wave.applyWrites (w : Wave) (ws : List RegWrite) : Wave := ws.foldl Wave.applyWrite w

/-- R36: the effective mask of a predicated word. -/
def effOf (w : Wave) (active : Mask) (h : Hdr) : Mask :=
  active &&& (if h.pn then ~~~ (w.readM h.pm.toNat) else w.readM h.pm.toNat)

def Ctx.eff (c : Ctx) (h : Hdr) : Mask := effOf c.w c.sl.path.mask h
/-- The lanes of EFF in ascending order. -/
def Ctx.lanes (c : Ctx) (h : Hdr) : List Nat := lanesOf c.w.width (c.eff h)
def Ctx.any (c : Ctx) (h : Hdr) : Bool := c.eff h != 0

/-! ### Program counter -/

def Slot.to (sl : Slot) (pc : BitVec 32) : Slot :=
  { sl with path := { sl.path with pc := pc }, hold := .free, retry := false, met := none, seen := none, ans := none }
/-- The wave after its path at `slotB` moves past its word. -/
def Wave.advance (w : Wave) (slotB : Bool) : Wave :=
  w.setSlot slotB ((w.slot slotB).map (fun sl => sl.to (sl.path.pc + 8)))
/-- R100: target of a control word. -/
def target (pc : BitVec 32) (tgt : BitVec 24) : BitVec 32 := pc + (tgt.signExtend 32 <<< 3)

/-- The cursor's wave rewritten and its path moved past the word. -/
def Ctx.done (c : Ctx) (s : State) (f : Wave → Wave) : State := s.modWave c.id (fun w => (f w).advance c.slotB)

/-! ### Core cycles (R3, R113) -/

/-- Core cycles of a core up to a step. DEDUCED (log 4). -/
def cum (core : Nat) : Nat → Nat
  | 0 => 0
  | n + 1 => cum core n + Config.cycleGap core n + (if (n + 1) % (Config.cyclePeriod core + 1) = 0 then 1 else 0)

/-- Resident core cycles of a wave (R113, R218). -/
def Wave.cyc (w : Wave) (core tick : Nat) : Nat :=
  match w.resident with
  | some t => w.cycAcc + (cum core tick - cum core t)
  | none => w.cycAcc

/-! ### Kernel facts -/

def limVal (l : Launch) {n : Nat} : Lim n → Nat
  | .imm v => v.toNat
  | .tbl i => l.offer.kernel.limits.getD i.toNat 0

def Launch.det (l : Launch) : Bool := l.offer.kernel.det
def Ctx.det (c : Ctx) : Bool := c.l.det

def inRanges (rs : List (Nat × Nat)) (b : Nat) : Bool := rs.any (fun r => r.1 ≤ b && b ≤ r.2)
def Cohort.has (c : Cohort) (b : Nat) : Bool := inRanges c.ranges b

def insertRange (r : Nat × Nat) : List (Nat × Nat) → List (Nat × Nat)
  | [] => [r]
  | x :: t => if r.1 ≤ x.1 then r :: x :: t else x :: insertRange r t

/-- Number of distinct indices in ranges sorted by first index, counting from `from_`. -/
def countFrom (from_ : Nat) : List (Nat × Nat) → Nat
  | [] => 0
  | (lo, hi) :: t => let lo' := max lo from_; (hi + 1 - lo') + countFrom (max from_ (hi + 1)) t

def Cohort.size (c : Cohort) : Nat := countFrom 0 (c.ranges.foldr insertRange [])
/-- Members of a cohort in ascending order. -/
def Cohort.members (c : Cohort) (nblock : Nat) : List Nat := (List.range nblock).filter c.has

/-- R45: the k-th cohort of a block, counted from 1 in ascending entry order. -/
def cohortOf (k : Kernel) (block n : Nat) : Option Cohort :=
  if n = 0 then none else (k.cohorts.filter (fun c => c.has block))[n - 1]?

/-- R45, R212: the point a designator names for a block; none when the block lacks the team. -/
def pointOf (l : Launch) (id : WaveId) (p : BitVec 8) : Option PointRef :=
  let team := (p >>> 5).toNat
  let n := (p &&& 31#8).toNat
  if team = 0 then some { serial := id.serial, block := id.block, cohort := none, n := n }
  else (cohortOf l.offer.kernel id.block team).map
    (fun c => { serial := id.serial, block := id.block, cohort := some c.entry, n := n })

/-! ### Traps (R363) -/

/-- Trap codes of Table 23-1. -/
def cLIMIT : Nat := 1
def cSPBOUND : Nat := 2
def cMISALIGN : Nat := 3
def cXLATE : Nat := 4
def cPROT : Nat := 5
def cDETCONFLICT : Nat := 6
def cCLSTATE : Nat := 7
def cRESERVED : Nat := 8
def cUNCORR : Nat := 9
def cQUADLOSS : Nat := 10
def cFEATURE : Nat := 11
def cILLOP : Nat := 12
def cSOFT : Nat := 13

/-- Attributions of Table 12-7. -/
def aCALLER : Nat := 1
def aHOST : Nat := 2
def aMACHINE : Nat := 3
def aSUPPLY : Nat := 4

/-- LIMIT constructs of Table 23-2. -/
def kLOOP : Nat := 1
def kRECURSE : Nat := 2
def kCALLT : Nat := 3
def kTRAP : Nat := 4
def kWAIT : Nat := 5
def kFILL : Nat := 6
def kARRIVE : Nat := 7
def kBYTES : Nat := 8
def kSWEEP : Nat := 9

def noPc : Nat := 0xFFFFFFFF

/-- R241: the attribution of a LIMIT on a wait that ran from step `since` to now. -/
def waitAttr (l : Launch) (since : Nat) : Nat :=
  let hit (k : Nat) := l.spans.any (fun sp => sp.1 % 16 == k && (match sp.2.2 with | some e => since ≤ e | none => true))
  if hit 5 then aSUPPLY else if hit 4 || hit 6 || hit 8 then aMACHINE else aCALLER

/-- R56: every position of the reuse latch of a slot is emptied. -/
def dropLatch (s : State) (slot : Nat) : State := { s with latches := tdel s.latches slot }

/-- The issue slot of a wave: a sweep wave of context c is numbered 64 + c + 4 j (R12, R328). -/
def slotOf (id : WaveId) : Nat := id.wave % 4

/-- A trap reaches the fault logic of its launch (R365). -/
def recordTrap (s : State) (serial : Nat) (t : Trap) : State := s.modLaunch serial (fun l => { l with traps := l.traps ++ [t] })

/-- The same of a trap that no path takes as it issues: it empties the latch of the slot of its word, a sweep wave's slot
being its context's (R56). DEDUCED (log 17). -/
def addTrap (s : State) (serial : Nat) (t : Trap) : State :=
  let n := if 0x4000 ≤ t.engine && t.engine < 0x8000 then t.engine else t.wave
  recordTrap (if t.core < 192 then dropLatch s (4 * t.core + n % 4) else s) serial t

/-- What `WAVE` reads: a sweep wave reads it as the wave that issued the `SWGO` does (R328). -/
def waveNo (id : WaveId) (w : Wave) : Nat :=
  match w.sweep with
  | some i => i.wave
  | none => id.wave

/-- The sweep engine of a sweep wave, for the ENGINE field (Table 23-2). -/
def Wave.engine (w : Wave) : Nat :=
  match w.sweep with
  | some i => 0x4000 + i.ctx
  | none => 0

def mkTrap (c : Ctx) (code attr construct : Nat) (lanes : Mask) (value : BitVec 64) : Trap :=
  { code := code, attr := attr, construct := construct, pc := c.sl.path.pc.toNat, pc2 := noPc, block := c.id.block,
    block2 := noPc, wave := waveNo c.id c.w, core := c.b.core, engine := c.w.engine, lanes := lanes, value := value }

/-- TAKING A TRAP: the word at the cursor has no effect, its path issues no more, the latch of its slot is emptied, and
the trap reaches the fault logic of its launch; there is no handler (R56, R363, R365). -/
def takeTrap (c : Ctx) (s : State) (t : Trap) : State :=
  recordTrap (dropLatch (s.modWave c.id (fun w => w.setSlot c.slotB ((w.slot c.slotB).map (fun sl => { sl with hold := .trapped }))))
    (4 * c.b.core + slotOf c.id)) c.id.serial t

def raise (c : Ctx) (s : State) (code attr construct : Nat) (lanes : Mask) (value : BitVec 64) : State :=
  takeTrap c s (mkTrap c code attr construct lanes value)

/-- A precise trap of a lane word, attributed to CALLER. -/
def raiseLanes (c : Ctx) (s : State) (code : Nat) (lanes : List Nat) (value : BitVec 64) : State :=
  raise c s code aCALLER 0 (maskOf lanes) value

/-- A wave-level trap, attributed to CALLER. -/
def raiseWave (c : Ctx) (s : State) (code : Nat) (value : BitVec 64) : State := raise c s code aCALLER 0 0 value

/-- A LIMIT of a control word (R100): LANES is ACTIVE. -/
def raiseLimit (c : Ctx) (s : State) (construct limit : Nat) : State :=
  raise c s cLIMIT aCALLER construct c.sl.path.mask (BitVec.ofNat 64 limit)

/-! ### Waiting (R88, R303) -/

/-- The path is held by a wait of a limit, counted in resident core cycles from now. DEDUCED (log 18). -/
def Ctx.hold (c : Ctx) (s : State) (h : Hold) (limit : Nat) : State :=
  s.modWave c.id (fun w => w.setSlot c.slotB (some
    { c.sl with hold := h, start := c.w.cyc c.b.core s.tick, limit := limit, since := s.tick, met := none, seen := none, ans := none }))

/-- A path held by a wait whose condition holds already, at a point as `p`. -/
def Ctx.holdMet (c : Ctx) (s : State) (h : Hold) (limit : Nat) (p : Option Point) : State :=
  s.modWave c.id (fun w => w.setSlot c.slotB (some
    { c.sl with hold := h, start := c.w.cyc c.b.core s.tick, limit := limit, since := s.tick, met := some true, seen := p, ans := none }))

/-! ### Results and the scoreboard (R52, R118) -/

/-- A result that lands later. DESIGN CHOICE (log 19). -/
def addPend (w : Wave) (p : Pend) : Wave := { w with pend := w.pend ++ [p] }

/-- More writes of a pending result; `last` marks it complete. -/
def Wave.pendWrite (w : Wave) (tag : Nat) (ws : List RegWrite) (last : Bool) : Wave :=
  { w with pend := w.pend.map (fun p => if p.tag = tag then { p with writes := p.writes ++ ws, ready := p.ready || last } else p) }

/-! ### Rendezvous points (R209 to R211) -/

def freshPoint (n : Nat) : Point :=
  { exp := BitVec.ofNat 16 n, arr := BitVec.ofNat 16 n, pend := 0, ph := false, err := 0, raised := false, src := none,
    rel := 0, relDone := 0 }

/-- Wave count of a team (R210). -/
def teamWaves (l : Launch) (entry : Nat) : Nat :=
  match l.offer.kernel.cohorts.find? (fun c => c.entry == entry) with
  | some c => c.size * l.offer.waves
  | none => 0

def pointKey (entry n : Nat) : Nat := entry * 32 + n

def getPoint (s : State) (r : PointRef) : Point :=
  match r.cohort with
  | none => match s.block r.serial r.block with
    | some b => tget (freshPoint b.nwaves) b.points r.n
    | none => freshPoint 0
  | some e => match s.launch r.serial with
    | some l => tget (freshPoint (teamWaves l e)) l.cpoints (pointKey e r.n)
    | none => freshPoint 0

def setPoint (s : State) (r : PointRef) (p : Point) : State :=
  match r.cohort with
  | none => s.modBlock r.serial r.block (fun b => { b with points := tput b.points r.n p })
  | some e => s.modLaunch r.serial (fun l => { l with cpoints := tput l.cpoints (pointKey e r.n) p })

/-- The open phase completes: what it releases is what an acquire of it synchronises with. -/
def Point.close_ (p : Point) : Point :=
  { p with ph := !p.ph, relDone := p.rel, rel := 0, clkDone := p.clk, clk := [] }

/-- R211: the phase completes. -/
def Point.complete (p : Point) : Point := { p.close_ with arr := p.exp, pend := 0 }

/-- R211: the test after an update; with ERR set every phase completes as soon as it opens (R216), and the parity stays
what `Point.fail` left. DESIGN CHOICE (log 75). -/
def Point.test (p : Point) : Point :=
  if p.err != 0 then { p with arr := p.exp, pend := 0 }
  else if p.arr == 0 && p.pend == 0 then p.complete else p

/-- R216: an error code completes the open phase and every later one; it stays set. The parity that the point shows from
then on is a free value, of `seed`. DESIGN CHOICE (log 75). -/
def Point.fail (p : Point) (code : Nat) (src : Nat × Nat × Nat) (seed : Nat) : Point :=
  if p.err = 0 then { p.complete with ph := Config.erredParity seed, err := code, src := some src } else p

/-- R216, Table 11-2: trap code, construct and attribution of an ERR. -/
def errTrap (e : Nat) : Nat × Nat × Nat :=
  match e with
  | 1 => (cXLATE, 0, aCALLER) | 2 => (cPROT, 0, aCALLER) | 3 => (cMISALIGN, 0, aCALLER) | 4 => (cSPBOUND, 0, aCALLER)
  | 5 => (cRESERVED, 0, aCALLER) | 6 => (cUNCORR, 0, aMACHINE) | 7 => (cLIMIT, kBYTES, aCALLER) | _ => (cXLATE, 0, aHOST)

def bytesMax : Nat := 2 ^ 39 - 1

/-- ENGINE of a copy-engine context (Table 23-2). -/
def copyEngine (ctx : Nat) : Nat := 0x8000 + ctx

/-- R215, R257: a copy counts bytes down on a point; code 7 where PEND would leave its range. The record's limit is then the
greatest count of bytes. DESIGN CHOICE (log 97). -/
def countDown (s : State) (r : PointRef) (n hpt : Nat) (src : Nat × Nat × Nat) : State :=
  let p := getPoint s r
  if p.pend - (n : Int) < -(2 : Int) ^ 39 then setPoint s r (p.fail 7 (src.1, src.2.1, bytesMax) s.tick)
  else setPoint s r ({ p with pend := p.pend - (n : Int), rel := max p.rel hpt } : Point).test

def failPoint (s : State) (r : Option PointRef) (code : Nat) (src : Nat × Nat × Nat) : State :=
  match r with
  | some r => setPoint s r ((getPoint s r).fail code src s.tick)
  | none => s

/-- Index of a wave's watch bit (R209). -/
def watchIx (r : PointRef) : Nat := match r.cohort with | none => r.n | some e => pointKey (e + 1) r.n

/-! ### Translation (R172, R177 to R180, R184) -/

/-- Kinds of access. -/
inductive Acc where
  | load | store | atomic
deriving DecidableEq, Repr

/-- What a byte of a device address translates to. -/
inductive Xl where
  | at_ (loc : Nat)
  | remote (dev addr : Nat)
  | bad (code attr : Nat)
deriving DecidableEq, Repr

def RangeEnt.valid (e : RangeEnt) : Bool := e.w0.getLsbD 63
def RangeEnt.base (e : RangeEnt) : Nat := (e.w0.extractLsb' 0 57).toNat
def RangeEnt.limit (e : RangeEnt) : Nat := (e.w1.extractLsb' 0 57).toNat
def RangeEnt.tier (e : RangeEnt) : Nat := (e.w0.extractLsb' 61 2).toNat
/-- PBASE + (a − BASE). -/
def RangeEnt.far (e : RangeEnt) (va : Nat) : Nat := (e.w2.extractLsb' 0 57).toNat + (va - e.base)
/-- The tier-physical place of an address in the tier that the entry names (R178); past the tier's last address it is one
that no tier has. -/
def RangeEnt.raw (e : RangeEnt) (va : Nat) : Nat := e.tier * 2 ^ 41 + min (e.far va) (2 ^ 41 - 1)

/-- R180: the permissions an access needs. -/
def permits (rd wr at_ : Bool) : Acc → Bool
  | .load => rd
  | .store => wr
  | .atomic => rd && wr && at_

/-- Where the bytes of a location stand now. A location names bytes: those that stood first at that tier-physical
address, wherever a migration has put them (R182). -/
def redir (s : State) (loc : Nat) : Nat :=
  match tfind s.moved (loc / 65536) with
  | some p => p * 65536 + loc % 65536
  | none => loc

/-- The page whose bytes stand at a place. -/
def pageAt (s : State) (place : Nat) : Nat :=
  match s.moved.find? (fun m => m.2 == place) with
  | some m => m.1
  | none => place

/-- DESIGN CHOICE (log 1). -/
def memByte (s : State) (loc : Nat) : Byte := tget 0 s.mem (redir s loc)

/-- The location of a byte of a page table, from the tier-physical address that the root or an entry names: where a
migration has put the page, in walks of this mapping (R182). -/
def Mapping.tableLoc (m : Mapping) (s : State) (a : Nat) : Nat :=
  let p := ((tfind m.tables (a / 4096)).getD (a / 4096)) * 4096 + a % 4096
  pageAt s (p / 65536) * 65536 + p % 65536

/-- R181: a page-table entry in force: the bytes of a held change are still the old ones. -/
def tableEntry (s : State) (m : Mapping) (a : Nat) : Nat :=
  let loc := m.tableLoc s a
  ofLeBytes ((List.range 8).map (fun i => (tfind m.held (loc + i)).getD (memByte s (loc + i))))

/-- What an entry of a page table says: the tier-physical address of its page and the permissions, or the next table. -/
inductive Node where
  | none
  | malformed
  | leaf (base : Nat) (rd wr at_ : Bool)
  | table (a : Nat)
deriving DecidableEq, Repr

/-- R179: the sixteen entries of a 64 KiB page. -/
def c64Ok (s : State) (m : Mapping) (tbl ix : Nat) (e : Nat) : Bool :=
  let g := ix / 16 * 16
  let pa0 := (bits (tableEntry s m (tbl + 8 * g)) 40 12)
  pa0 % 16 == 0 &&
  (List.range 16).all (fun k =>
    let x := tableEntry s m (tbl + 8 * (g + k))
    bits x 40 12 == pa0 + k && bits x 63 56 == bits e 63 56 && bits x 55 41 == 0 && bits x 11 0 == 0)

/-- R179: entry `ix` of a table `lvl` levels above level 0. DEDUCED (log 36). -/
def nodeAt (s : State) (m : Mapping) (lvl tbl ix : Nat) : Node :=
  let e := tableEntry s m (tbl + 8 * ix)
  if !e.testBit 63 then .none
  else if bits e 55 41 != 0 || bits e 11 0 != 0 then .malformed
  else if e.testBit 57 then
    let pa := bits e 40 12 * 4096
    if lvl > 2 || bits e 62 61 > 1 || (e.testBit 56 && lvl != 0) || pa % 2 ^ (12 + 9 * lvl) != 0 then .malformed
    else if e.testBit 56 && !c64Ok s m tbl ix e then .malformed
    else .leaf (bits e 62 61 * 2 ^ 41 + pa) (e.testBit 60) (e.testBit 59) (e.testBit 58)
  else if bits e 62 58 != 0 || e.testBit 56 || lvl = 0 then .malformed
  else .table (bits e 40 12 * 4096)

/-- R179: the walk from a table at `tbl`, `lvl` levels above level 0, to a tier-physical address and its permissions, or
none of them. A table beyond the HBM's capacity reads as zeros, so nothing is mapped there. DESIGN CHOICE (log 1). -/
def walk (s : State) (m : Mapping) (va : Nat) : Nat → Nat → Node
  | lvl, tbl =>
    match nodeAt s m lvl tbl (va / 2 ^ (12 + 9 * lvl) % 512) with
    | .leaf base rd wr at_ => .leaf (base + va % 2 ^ (12 + 9 * lvl)) rd wr at_
    | .table a => (match lvl with
      | 0 => .malformed
      | l + 1 => walk s m va l a)
    | x => x

/-- The tier-physical place of a device address whose mapping gives `raw`, once migrations and the indirection table have
been applied (R182, R184). -/
def Mapping.place (m : Mapping) (s : State) (va raw : Nat) : Nat :=
  let r := match m.switched.find? (fun o => o.1 == va / 4096 && o.2.1 == raw / 4096) with
    | some o => o.2.2 * 4096 + raw % 4096
    | none => raw
  match tfind s.hot (r / 65536) with
  | some f => f * 65536 + r % 65536
  | none => r

/-- The location that it names. -/
def Mapping.locOf (m : Mapping) (s : State) (va raw : Nat) : Nat :=
  let r := m.place s va raw
  pageAt s (r / 65536) * 65536 + r % 65536

/-- R177 to R180: one byte of a device address, for a partition's mappings. -/
def translate (s : State) (m : Mapping) (a : BitVec 64) (k : Acc) : Xl :=
  let va := a.toNat
  if 2 ^ 57 ≤ va then .bad cXLATE aCALLER
  else match m.ranges.find? (fun e => e.2.valid && e.2.base ≤ va && va < e.2.limit) with
    | some (_, e) =>
      let rd := e.w0.getLsbD 60
      let wr := e.w0.getLsbD 59
      if !permits rd wr (e.w0.getLsbD 58) k then .bad cPROT aCALLER
      else if e.tier = 2 then (match k with
        | .atomic => .remote (e.w3.extractLsb' 0 21).toNat (e.far va)
        | _ => .bad cPROT aCALLER)
      else .at_ (m.locOf s va (e.raw va))
    | none => match walk s m va 4 m.ptroot.toNat with
      | .leaf raw rd wr at_ => if permits rd wr at_ k then .at_ (m.locOf s va raw) else .bad cPROT aCALLER
      | .none => .bad cXLATE aCALLER
      | _ => .bad cXLATE aHOST

/-- The same for an engine, which reaches remote tensors with loads and stores (R258). -/
def translateEngine (s : State) (m : Mapping) (a : BitVec 64) (k : Acc) : Xl :=
  let va := a.toNat
  if 2 ^ 57 ≤ va then .bad cXLATE aCALLER
  else match m.ranges.find? (fun e => e.2.valid && e.2.base ≤ va && va < e.2.limit) with
    | some (_, e) =>
      if e.tier = 2 && permits (e.w0.getLsbD 60) (e.w0.getLsbD 59) (e.w0.getLsbD 58) k then
        .remote (e.w3.extractLsb' 0 21).toNat (e.far va)
      else translate s m a k
    | none => translate s m a k

/-- The key of a byte that another device holds, among the locations (R258, R313). -/
def farKey (dev addr : Nat) : Nat := 2 ^ 64 * (dev + 1) + addr

/-- The bytes that an access reaches, remote ones by their keys. -/
def touched (xs : List Xl) : List Nat :=
  xs.filterMap (fun x => match x with | .at_ loc => some loc | .remote d a => some (farKey d a) | .bad _ _ => none)

/-- Capacity of the tiers in bytes (R172, Table 0-1): 360 GiB of HBM, 1,024 GiB of the second tier.
DESIGN CHOICE (log 1). -/
def absent (loc : Nat) : Bool :=
  if loc < 2 ^ 41 then 360 * 2 ^ 30 ≤ loc else 2 ^ 40 ≤ loc - 2 ^ 41

/-- R243: an accepted launch locks a 4 KiB frame. -/
def lockedFrame (s : State) (f : Nat) : Bool := s.launches.any (fun l => l.2.locked.contains f)

/-- Such a frame lies in the 64 KiB page. -/
def lockedPage (s : State) (p : Nat) : Bool := s.launches.any (fun l => l.2.locked.any (fun f => f / 16 == p))

/-- R244: the bytes of a location are locked, or stand where a locked page is on its way to (R182). -/
def lockedAt (s : State) (loc : Nat) : Bool :=
  lockedFrame s (loc / 4096) || s.migrations.any (fun g =>
    g.new_ == redir s loc / 65536 && lockedFrame s (16 * pageAt s g.old + redir s loc % 65536 / 4096))

/-- Translation of the bytes of an access, the lock of R243 included; the first byte that fails decides. -/
def access (s : State) (m : Mapping) (a : BitVec 64) (n : Nat) (k : Acc) : List Xl :=
  (List.range n).map (fun i =>
    match translate s m (a + BitVec.ofNat 64 i) k with
    | .at_ loc => if k != .load && lockedAt s loc then .bad cPROT aCALLER else .at_ loc
    | x => x)

def firstBad (xs : List Xl) : Option (Nat × Nat) :=
  xs.findSome? (fun x => match x with | .bad c a => some (c, a) | _ => none)

def locsOf (xs : List Xl) : List Nat := xs.filterMap (fun x => match x with | .at_ l => some l | _ => none)

/-! ### Home memory and its order (R194) -/

/-- DESIGN CHOICE (log 58). -/
def report (s : State) (kind a value : Nat) : State := { s with mgmt := { kind := kind, a := a, value := BitVec.ofNat 64 value } :: s.mgmt }

/-- The range entry of a mapping that translates an address (R177). -/
def Mapping.rangeAt (m : Mapping) (va : Nat) : Option RangeEnt :=
  (m.ranges.find? (fun e => e.2.valid && e.2.base ≤ va && va < e.2.limit)).map (fun e => e.2)

/-- The tier-physical address that a mapping gives by itself, before migrations. -/
def Mapping.rawOf (s : State) (m : Mapping) (va : Nat) : Option Nat :=
  match m.rangeAt va with
  | some e => if e.tier = 2 then none else some (e.raw va)
  | none => match walk s m va 4 m.ptroot.toNat with
    | .leaf raw _ _ _ => some raw
    | _ => none

/-- Device pages of 4 KiB to which the ranges of a mapping give a page of a place: the page, and the 4 KiB page given. -/
def rangePages (m : Mapping) (s : State) (place : Nat) : List (Nat × Nat) :=
  let cand := m.ranges.flatMap (fun e =>
    if !e.2.valid || e.2.tier = 2 then []
    else
      let pa := e.2.raw e.2.base / 4096
      (List.range 16).filterMap (fun k =>
        let x := 16 * place + k
        if pa ≤ x && x < pa + (e.2.limit - e.2.base) / 4096 then some (e.2.base / 4096 + (x - pa), x) else none))
  cand.filter (fun c => (m.rawOf s (4096 * c.1)).any (fun r => r / 4096 == c.2))

/-- The same of one table at level `lvl`, for the span from `va`; its tables are left to `below`. -/
def tablePages (m : Mapping) (s : State) (place : Nat) (below : Nat → Nat → List (Nat × Nat)) (lvl va tbl : Nat) : List (Nat × Nat) :=
  (List.range 512).flatMap (fun i =>
    let span := 2 ^ (12 + 9 * lvl)
    let va := va + i * span
    match nodeAt s m lvl tbl i with
    | .leaf base _ _ _ => (List.range 16).filterMap (fun k =>
        let x := 16 * place + k
        if base / 4096 ≤ x && x < (base + span) / 4096 then some ((va + (4096 * x - base)) / 4096, x) else none)
    | .table a => below va a
    | _ => [])

/-- The same of its page tables, down to level 0. -/
def treePages (m : Mapping) (s : State) (place : Nat) : Nat → Nat → Nat → List (Nat × Nat)
  | 0 => tablePages m s place (fun _ _ => []) 0
  | l + 1 => tablePages m s place (treePages m s place l) (l + 1)

/-- Device pages to which a mapping gives a page of a place. -/
def Mapping.pagesAt (m : Mapping) (s : State) (place : Nat) : List (Nat × Nat) :=
  rangePages m s place ++ treePages m s place 4 0 m.ptroot.toNat

/-- A device address of a mapping by which a byte of a place is reached: through a page that a migration has switched, by
what the mapping gives, or for a pool frame by its second-tier page (R182, R184). -/
def Mapping.nameOf (m : Mapping) (s : State) (p : Nat) : Option Nat :=
  let at_ (q : Nat) : Option Nat :=
    (((m.switched.filter (fun o => o.2.2 == q / 4096)).map (fun o => o.1) ++ (m.pagesAt s (q / 65536)).filterMap (fun o =>
      if o.2 == q / 4096 && !m.switched.any (fun x => x.1 == o.1 && x.2.1 == o.2) then some o.1 else none)).head?).map (fun v => 4096 * v + q % 4096)
  at_ (match s.hot.find? (fun h => h.2 == p / 65536) with | some h => h.1 * 65536 + p % 65536 | none => p)

/-- R176: the host is told of a unit that a migration, or a move of the tracker, finds in error: by a device address that
names it, of the lowest partition that has one, or by its place where none does. DEDUCED (log 61). -/
def tellUnit (s : State) (u : Nat) : State :=
  match s.parts.findSome? (fun q => q.2.map.nameOf s (32 * u)) with
  | some va => report s 3 0 va
  | none => report s 3 1 (32 * u)

/-- A 128-byte line of a migrating page as its old place holds it, written to its new place; its bit is set. The host is
told of its units in error once, as the bit is set (R176, R182). -/
def copyLine (s : State) (g : Migration) (line : Nat) : State :=
  let bad := if g.done.contains line then [] else ((List.range 4).map (fun i => 2048 * g.old + 4 * line + i)).filter (fun u => s.bad.contains u)
  bad.foldl tellUnit { s with
    mem := tputs 0 s.mem (g.new_ * 65536 + 128 * line) (tgets 0 s.mem (g.old * 65536 + 128 * line) 128),
    migrations := s.migrations.map (fun h => if h.old = g.old then { h with done := insertNat line h.done } else h) }

/-- A write to one place, and through both places in a page that is being migrated (R182). -/
def writeByte (s : State) (loc : Nat) (b : Byte) : State :=
  let p := redir s loc
  let s := { s with mem := tset 0 s.mem p b }
  match s.migrations.find? (fun g => g.old == p / 65536) with
  | some g => copyLine s g (p % 65536 / 128)
  | none => s

def writeBytes (s : State) (bs : List (Nat × Byte)) : State := bs.foldl (fun s b => writeByte s b.1 b.2) s

/-- One event of H: the bytes become home values together. -/
def homeWrite (s : State) (bs : List (Nat × Byte)) : State :=
  { writeBytes s bs with hist := (bs.map (fun b => (b.1, memByte s b.1))) :: s.hist }

/-- The number of events of H so far: the point of H now. -/
def State.hpt (s : State) : Nat := s.hist.length

/-- The value of a byte with the newest `n` events of H undone. -/
def undo (loc : Nat) (v : Byte) : Nat → List (List (Nat × Byte)) → Byte
  | 0, _ => v
  | _, [] => v
  | n + 1, e :: h => undo loc ((tfind e loc).getD v) n h

/-- The home value at a point of H. -/
def homeAt (s : State) (p loc : Nat) : Byte := undo loc (memByte s loc) (s.hpt - p) s.hist

def badUnit (s : State) (loc : Nat) : Bool := s.bad.contains (redir s loc / 32)

/-- Bytes counted for energy, in a tier: 0 scratchpad, 1 HBM, 2 second tier, 3 host, 4 fabric (R239). -/
def addBytes (s : State) (serial tier n : Nat) : State :=
  s.modLaunch serial (fun l => { l with ebytes := tset 0 l.ebytes tier (tget 0 l.ebytes tier + n) })

/-- Table 12-4: bytes a device-memory word counts per lane. -/
def devBytesOf (n : Nat) : Nat := if n ≥ 2 then 64 else 32
def devBytes (t : Ty) : Nat := devBytesOf t.size

/-- The tier where the bytes stand. -/
def tierOf (s : State) (loc : Nat) : Nat := if redir s loc < 2 ^ 41 then 1 else 2

/-- The page that the tracker counts an access under: a page that the pool holds counts as its second-tier page. -/
def trackedPage (s : State) (loc : Nat) : Nat :=
  let p := redir s loc / 65536
  match s.hot.find? (fun h => h.2 == p) with
  | some h => h.1
  | none => p

/-- R183: an access that the hot-page tracker of a partition counts: once for each second-tier page that it touches. -/
def countAccess (s : State) (p : Nat) (locs : List Nat) : State :=
  if (s.part p).ctrl.getLsbD 2 then
    (((locs.map (trackedPage s)).filter (fun pg => 2 ^ 25 ≤ pg)).foldl (fun ps pg => insertNat pg ps) []).foldl (fun s pg =>
      s.modPart p (fun q => { q with accesses := q.accesses + 1, hotCount := tput q.hotCount pg (tget 0 q.hotCount pg + 1) })) s
  else s

/-! ### Store sets, publications, views (R195 to R200) -/

/-- R195, R197: the store set and view of a block's waves. -/
def setKey (l : Launch) (core serial block : Nat) : Nat :=
  if l.det then bkey serial block * 2 + 1 else (serial * 256 + core) * 2

def Ctx.key (c : Ctx) : Nat := setKey c.l c.b.core c.id.serial c.id.block

/-- Stores of a block's wave enter a store set (R195). -/
def StoreSet.enter (x : StoreSet) (block : Nat) (bs : List (Nat × Byte × BitVec 64)) : StoreSet :=
  { x with bytes := bs.foldl (fun t b => tput t b.1 { val := b.2.1, dva := b.2.2 }) x.bytes, blocks := insertNat block x.blocks }

/-- The stores of a wave still on their way enter its set, in issue order. -/
def enterStgs (s : State) (id : WaveId) (key : Nat) : State :=
  match s.wave id with
  | none => s
  | some w =>
    let x := w.reqs.foldl (fun x r => match r.kind with | .stg bs => StoreSet.enter x id.block bs | _ => x) (tget {} s.sets key)
    let keep := w.reqs.filter (fun r => match r.kind with | .stg _ => false | _ => true)
    if keep.length = w.reqs.length then s
    else { s with sets := tput s.sets key x }.setWave id { w with reqs := keep }

def addPhase (s : State) (serial block : Nat) : State := s.modBlock serial block (fun b => { b with phase := b.phase + 1 })

/-- The publications of a store set made and not yet performed. -/
def pubsOf (s : State) (key : Nat) : List Pub := s.pubs.filter (fun p => p.key == key)

/-! Relaunchability (R294). -/

def endRelaunch (s : State) (serial block : Nat) : State := s.modBlock serial block (fun b => { b with relaunchable := false })

/-- R196: a publication closes the store set as it stands; the blocks whose stores it carries are relaunchable no longer
(R198, R294). An empty set is performed at once; where an earlier
publication of the set is still to take its point, what waits for the empty one waits for that. Answers the publication
to wait for. -/
def publishSet (s : State) (id : WaveId) (key core pc : Nat) (claim : Option (Nat × Nat × BitVec 64)) : State × Option Nat :=
  let s := addPhase s id.serial id.block
  let x := tget {} s.sets key
  if x.bytes.isEmpty && x.redgs.isEmpty && claim.isNone then (s, (pubsOf s key).getLast?.map (fun p => p.id))
  else
    ({ x.blocks.foldl (fun s b => endRelaunch s id.serial b) s with
        seq := s.seq + 1, sets := tdel s.sets key,
        pubs := s.pubs ++ [{ id := s.seq, serial := id.serial, key := key, core := core, block := id.block,
                             wave := if pc = noPc then 255 else ((s.wave id).map (waveNo id)).getD id.wave,
                             engine := ((s.wave id).map Wave.engine).getD 0,
                             pc := pc, set := x, claim := claim }] },
     some s.seq)

/-- A publishing word: the wave's earlier stores have entered the set (R188). -/
def publish (s : State) (id : WaveId) (key core pc : Nat) (claim : Option (Nat × Nat × BitVec 64)) : State × Option Nat :=
  publishSet (enterStgs s id key) id key core pc claim

def Ctx.publish (c : Ctx) (s : State) (claim : Option (Nat × Nat × BitVec 64)) : State × Option Nat :=
  Sys2Proof.Machine.publish s c.id c.key c.b.core c.sl.path.pc.toNat claim

/-- R199: a new view starts no earlier than the previous one, the wave's own home reads, the core's publications and
the points that an acquire names. -/
def startView (s : State) (key homePt acq : Nat) : State :=
  let v := tget {} s.views key
  let v' : View := { start := max (max v.start homePt) (max (tget 0 s.pubPt key) acq), seen := [], from_ := [],
                     needs := (pubsOf s key).map (fun p => p.id) }
  { s with views := tput s.views key v' }

/-- A byte of a store set of the key, the newest first (R195). -/
def setByte? (s : State) (key loc : Nat) : Option Byte :=
  match tfind (tget {} s.sets key).bytes loc with
  | some b => some b.val
  | none => (pubsOf s key).reverse.findSome? (fun p => (tfind p.set.bytes loc).map (fun b => b.val))

/-- The point of H of a first stable read (R200): free at or after the view's start. DESIGN CHOICE (log 6). -/
def readPoint (s : State) (start : Nat) : Nat :=
  if s.hpt ≤ start then s.hpt else start + Config.homePoint s.free % (s.hpt - start + 1)

/-- The first point of H at which these bytes, whose values the view does not hold yet, may be read: its start (R200), or
under the determinism flag a publication of the block itself of one of them (R311). -/
def View.reads (v : View) (locs : List Nat) : Nat :=
  (v.from_.filter (fun f => locs.contains f.1)).foldl (fun n f => max n f.2) v.start

/-- The bytes that a stable read takes from H: neither a store set of the key nor its view holds them. -/
def freshLocs (s : State) (key : Nat) (locs : List Nat) : List Nat :=
  locs.filter (fun x => (setByte? s key x).isNone && (tfind (tget {} s.views key).seen x).isNone)

/-- R200: the bytes of one lane's access, those within one 32-byte unit at one point; answers the state with the view
that has seen them. -/
def stableRead (s : State) (key : Nat) (locs : List Nat) : State × List Byte :=
  let p := readPoint s ((tget {} s.views key).reads (freshLocs s key locs))
  locs.foldl
    (fun (acc : State × List Byte) loc =>
      let s := acc.1
      let v := tget {} s.views key
      match setByte? s key loc with
      | some b => (s, acc.2 ++ [b])
      | none =>
        match tfind v.seen loc with
        | some b => (s, acc.2 ++ [b])
        | none =>
          let b := homeAt s p loc
          ({ s with views := tput s.views key { v with seen := tput v.seen loc b } }, acc.2 ++ [b]))
    (s, [])

/-- The bytes of a lane split where they leave a 32-byte unit (R186). -/
def unitsOf (locs : List Nat) : List (List Nat) :=
  locs.foldl (fun acc loc => match acc with
    | [] => [[loc]]
    | g :: t => (match g with
      | x :: _ => if x / 32 = loc / 32 then (loc :: g) :: t else [loc] :: g :: t
      | [] => [loc] :: t)) [] |>.reverse |>.map List.reverse

/-- A whole lane's stable read, unit by unit, a fresh free point for each. -/
def stableLane (s : State) (key : Nat) (locs : List Nat) : State × List Byte :=
  (unitsOf locs).foldl (fun acc u => let r := stableRead acc.1 key u; ({ r.1 with free := r.1.free + 1 }, acc.2 ++ r.2)) (s, [])

/-! ### Choices of the device -/

/-- Candidates in the order in which the device takes them. -/
def insertRanked (seed x : Nat) : List Nat → List Nat
  | [] => [x]
  | y :: t => if Config.choiceKey seed x ≤ Config.choiceKey seed y then x :: y :: t else y :: insertRanked seed x t
/-- DESIGN CHOICE (log 14). -/
def ranked (seed : Nat) (l : List Nat) : List Nat := l.foldr (insertRanked seed) []

/-! ### Values of types -/

/-- R65: the 64 bits of a loaded or converted value: signed types by sign, others by zeros. -/
def extend (t : Ty) (n : Nat) : BitVec 64 :=
  if t.signed then BitVec.ofInt 64 (signedOf t.bits n) else BitVec.ofNat 64 (n % 2 ^ t.bits)

/-- WriteType: the register writes of a value of type `t` (R65). -/
def typeWrites (t : Ty) (scal : Bool) (dst lane : Nat) (n : Nat) : List RegWrite :=
  let x := extend t n
  if scal then [.s dst x]
  else if t.wide then [.v dst lane (x.extractLsb' 0 32), .v (dst + 1) lane (x.extractLsb' 32 32)]
  else [.v dst lane (x.extractLsb' 0 32)]

/-- The registers that a destination occupies. -/
def dstRegs (t : Ty) (scal : Bool) (dst : Nat) : List Reg :=
  if scal then [.s dst] else if t.wide then [.v dst, .v (dst + 1)] else [.v dst]

/-- ReadType: the bits of a source of type `t` in a lane (R65). -/
def readType (w : Wave) (t : Ty) (scal : Bool) (r lane : Nat) : Nat :=
  (if scal then (w.readS r).toNat else if t.wide then (w.readV64 r lane).toNat else (w.readV r lane).toNat) % 2 ^ t.bits

/-! ### Det phases (R313, R314) -/

/-- Whether an earlier touch by another block of the launch is ordered before the block's current phase. -/
def ordered (serial : Nat) (b : Block) (t : Touch) : Bool := t.phase < tget 0 b.clock (bkey serial t.block)

def conflicts (serial blk kind : Nat) (b : Block) (loc : Nat) (t : Touch) : Bool :=
  t.loc == loc && t.block != blk && (t.kind != 0 || kind != 0) && !(t.kind ≥ 2 && t.kind == kind) && !ordered serial b t

/-- The earlier touch that a new one conflicts with. -/
def findConflict (l : Launch) (b : Block) (blk kind : Nat) (locs : List Nat) : Option (Nat × Touch) :=
  locs.findSome? (fun loc => (l.touches.find? (conflicts l.offer.serial blk kind b loc)).map (fun t => (loc, t)))

def addTouches (s : State) (serial block kind pc : Nat) (locs : List Nat) : State :=
  match s.block serial block with
  | some b => s.modLaunch serial (fun l => { l with touches :=
      (locs.map (fun loc => { loc := loc, kind := kind, block := block, phase := b.phase, pc := pc })) ++ l.touches })
  | none => s

/-- The clock that a release of the block hands over (R313). -/
def releaseClock (s : State) (serial block : Nat) : Tab Nat :=
  match s.block serial block with
  | some b => tput b.clock (bkey serial block) b.phase
  | none => []

/-- An acquire ends a det phase and takes over what it synchronises with. -/
def acquire (s : State) (serial block : Nat) (c : Tab Nat) : State :=
  s.modBlock serial block (fun b => { b with phase := b.phase + 1, clock := joinClock b.clock c })

end Sys2Proof.Machine
end

