-- ==== Sys2Proof/Machine/Operands.lean ====
section
/-! DEFINITION. The operand forms of register-format words (R38, R116) and the drivers that apply a computation to each
lane of EFF, or once in scalar form; which registers every word reads and writes (R52). -/

namespace Sys2Proof.Machine

def Lane.scalA (r : Lane) : Bool := r.form == .scal
def Lane.scalB (r : Lane) : Bool := r.form != .vec

/-- The lanes a word acts on: those of EFF, or one turn in scalar form when EFF is not empty (R36). -/
def Ctx.turns (c : Ctx) (r : Lane) : List Nat := if r.form == .scal then (if c.any r.h then [0] else []) else c.lanes r.h

def srcA (w : Wave) (r : Lane) (t : Ty) (l : Nat) : Nat := readType w t (r.form == .scal) r.sa.toNat l
def srcB (w : Wave) (r : Lane) (t : Ty) (l : Nat) : Nat := readType w t (r.form != .vec) r.sb.toNat l
def srcC (w : Wave) (r : Lane) (t : Ty) (l : Nat) : Nat := readType w t (r.form == .scal) r.sc.toNat l
/-- R116: the source of a unary word. -/
def srcU (w : Wave) (r : Lane) (t : Ty) (l : Nat) : Nat := if r.form == .bcast then srcB w r t l else srcA w r t l

/-- The writes of a word that gives `f a b c` of type `t` in every lane; sources of type `st`. -/
def laneWrites (c : Ctx) (r : Lane) (st t : Ty) (f : Nat → Nat → Nat → Nat) : List RegWrite :=
  (c.turns r).flatMap (fun l => typeWrites t (r.form == .scal) r.dst.toNat l (f (srcA c.w r st l) (srcB c.w r st l) (srcC c.w r st l)))

/-- The same for a unary word. -/
def unaryWrites (c : Ctx) (r : Lane) (st t : Ty) (f : Nat → Nat) : List RegWrite :=
  (c.turns r).flatMap (fun l => typeWrites t (r.form == .scal) r.dst.toNat l (f (srcU c.w r st l)))

/-- A class A word: its writes are made when it issues (R118). -/
def Ctx.write (c : Ctx) (s : State) (ws : List RegWrite) : State := c.done s (fun w => w.applyWrites ws)

/-- A word whose result lands later (R118): the scoreboard holds `dst` until `RESULT_WRITEBACK`. -/
def Ctx.later (c : Ctx) (s : State) (dst : List Reg) (ws : List RegWrite) : State :=
  c.done s (fun w => if ws.isEmpty then w else addPend w { tag := s.tick, kind := .other, dst := dst, writes := ws, ready := true })

/-- A mask result: bit `l` of `m[d]` for each lane of EFF (R123, R129). -/
def condWrite (c : Ctx) (r : Lane) (p : Nat → Bool) : RegWrite :=
  .m r.dst.toNat (c.eff r.h) (maskOf ((c.lanes r.h).filter p))

/-- An address register of a scratchpad word (R152): 32 bits unsigned, or all 64 bits of a scalar, signed. -/
def spAddr (w : Wave) (scal : Bool) (r lane : Nat) : Int :=
  if scal then (w.readS r).toInt else ((w.readV r lane).toNat : Int)

/-- A device address register (R172). -/
def devAddr (w : Wave) (scal : Bool) (r lane : Nat) : BitVec 64 := if scal then w.readS r else w.readV64 r lane

def Ctx.s (c : Ctx) (r : BitVec 6) : DWord := c.w.readS r.toNat

/-! ### Registers read and written (R52) -/

def vregs (wide : Bool) (r : BitVec 8) : List Reg := if wide then [.v r.toNat, .v (r.toNat + 1)] else [.v r.toNat]
def regOf (scal wide : Bool) (r : BitVec 8) : List Reg := if scal then [.s r.toNat] else vregs wide r
def s6 (r : BitVec 6) : Reg := .s r.toNat
/-- The even and odd pair of scalar registers of a result. -/
def sPair (r : BitVec 6) : List Reg := [.s r.toNat, .s (r.toNat + 1)]
def mreg (r : BitVec 3) : List Reg := if r = 0 then [] else [.m r.toNat]
def mfield (r : BitVec 8) : List Reg := if r = 0 then [] else [.m r.toNat]

def opD (r : Lane) (t : Ty) : List Reg := regOf (r.form == .scal) t.wide r.dst
def opA (r : Lane) (t : Ty) : List Reg := regOf (r.form == .scal) t.wide r.sa
def opB (r : Lane) (t : Ty) : List Reg := regOf (r.form != .vec) t.wide r.sb
def opC (r : Lane) (t : Ty) : List Reg := regOf (r.form == .scal) t.wide r.sc
/-- R116: the source of a unary word. -/
def opU (r : Lane) (t : Ty) : List Reg := if r.form == .bcast then opB r t else opA r t

def in2 (r : Lane) (t : Ty) : List Reg := mreg r.h.pm ++ opA r t ++ opB r t
def in3 (r : Lane) (t : Ty) : List Reg := mreg r.h.pm ++ opA r t ++ opB r t ++ opC r t
def in1 (r : Lane) (t : Ty) : List Reg := mreg r.h.pm ++ opU r t
def inMasks (r : Lane) (two : Bool) : List Reg := mreg r.h.pm ++ mfield r.sa ++ (if two then mfield r.sb else [])

/-- Address register of a memory word. -/
def memAddr (dev : Bool) (m : Mem) : List Reg := mreg m.h.pm ++ regOf m.ak dev m.sa
def memData (m : Mem) : List Reg := regOf m.dk m.ty.wide m.dst

def record (b : BitVec 6) : List Reg := (List.range 12).map (fun i => Reg.s (b.toNat + i))
def copyReads (a : CpyArgs) : List Reg := mreg a.h.pm ++ s6 a.t :: record a.b

/-- R48: operations of one source, and the immediate operations. -/
def halfUnary (o : Nat) : Bool :=
  o == 0x01 || o == 0x0D || o == 0x0E || o == 0x12 || (0x17 ≤ o && o ≤ 0x19) || (0x29 ≤ o && o ≤ 0x34)

def halfReg (scal : Bool) (r : BitVec 8) : Reg := if scal then .s r.toNat else .v r.toNat
def halfDst (x : PHalf) : List Reg := if x.op = 0 then [] else [halfReg (x.sub.getLsbD 5) x.dst]
def halfSrc (x : PHalf) : List Reg :=
  let o := x.op.toNat
  let d := halfReg (x.sub.getLsbD 5) x.dst
  let b := halfReg (x.sub.getLsbD 5 || x.sub.getLsbD 4) x.src
  mreg x.pred ++ (if o = 0 || o = 0x3A then [] else if 0x35 ≤ o then [d] else if halfUnary o then [b] else [d, b])

/-- Registers of SRD and SWR: 64-bit values take a pair of vector registers (R112, R114). -/
def sregWide (c : SReg) : Bool := [SReg.cycles, .retired, .charge, .features].contains c

/-- Registers that a word reads, its predicate mask among them. -/
def readsOf : Instr → List Reg
  | .iadd r => in2 r r.ty | .isub r => in2 r r.ty | .isadd r => in2 r r.ty | .imul r => in2 r r.ty | .imulh r => in2 r r.ty
  | .iaddc r => mfield r.sc ++ in2 r r.ty | .imad r => in3 r r.ty | .bfi r => in3 r r.ty
  | .imin r => in2 r r.ty | .imax r => in2 r r.ty | .and r => in2 r r.ty | .or r => in2 r r.ty | .xor r => in2 r r.ty
  | .shl r => in2 r r.ty | .shr r => in2 r r.ty | .shra r => in2 r r.ty | .rot r => in2 r r.ty | .bfx r => in2 r r.ty
  | .iabs r => in1 r r.ty | .ineg r => in1 r r.ty | .not r => in1 r r.ty | .popc r => in1 r r.ty | .clz r => in1 r r.ty
  | .brev r => in1 r r.ty | .mov r => in1 r r.ty
  | .icmp _ r => in2 r r.ty | .sel r => mfield r.sc ++ in2 r r.ty
  | .movi h _ _ _ _ => mreg h.pm | .nhash r => in2 r r.ty
  | .fadd _ r => in2 r r.ty | .fsub _ r => in2 r r.ty | .fmul _ r => in2 r r.ty | .ffma _ r => in3 r r.ty
  | .fmin _ r => in2 r r.ty | .fmax _ r => in2 r r.ty | .fcmp _ _ r => in2 r r.ty | .fclass _ _ r => in1 r r.ty
  | .frint _ r => in1 r r.ty | .fdiv _ r => in2 r r.ty | .fsqrt _ r => in1 r r.ty | .fdot2 _ r => in3 r .n32
  | .exp2 _ r => in1 r r.ty | .log2 _ r => in1 r r.ty | .rcp _ r => in1 r r.ty | .rsq _ r => in1 r r.ty
  | .sin _ r => in1 r r.ty | .cos _ r => in1 r r.ty | .tanh _ r => in1 r r.ty | .sigm _ r => in1 r r.ty
  | .erf _ r => in1 r r.ty
  | .cvt st _ r => mreg r.h.pm ++ opA r st | .pack st _ r => in2 r st | .unpk _ _ r => mreg r.h.pm ++ opA r .n32
  | .qnt st _ r => mreg r.h.pm ++ opA r st | .dqnt _ _ r => in2 r .n32
  | .shfl r => mreg r.h.pm ++ opA r r.ty ++ opB r .n32 | .shflx r => mreg r.h.pm ++ opA r r.ty ++ opB r .n32
  | .bcast r => mreg r.h.pm ++ opA r r.ty | .redv _ r => mreg r.h.pm ++ opA r r.ty | .scanv _ r => mreg r.h.pm ++ opA r r.ty
  | .vtos r => mreg r.h.pm ++ opA r r.ty | .stov r => mreg r.h.pm ++ [.s r.sb.toNat]
  | .mand r => inMasks r true | .mor r => inMasks r true | .mxor r => inMasks r true | .mnot r => inMasks r false
  | .mpop r => inMasks r false | .many r => inMasks r false | .mall r => inMasks r false
  | .srd h _ _ _ _ => mreg h.pm | .swr h _ sc _ x => mreg h.pm ++ regOf sc true x
  | .ats _ r => mreg r.h.pm ++ opA r .n32 ++ opB r r.ty | .cass r => mreg r.h.pm ++ opA r .n32 ++ opB r r.ty ++ opC r r.ty
  | .feset h _ sc a => mreg h.pm ++ regOf sc false a | .feclr h _ sc a => mreg h.pm ++ regOf sc false a
  | .feqry h _ sc _ a => mreg h.pm ++ regOf sc false a
  | .atg _ r => mreg r.h.pm ++ opA r .n64 ++ opB r r.ty | .casg r => mreg r.h.pm ++ opA r .n64 ++ opB r r.ty ++ opC r r.ty
  | .redg _ r => mreg r.h.pm ++ opA r .n64 ++ opB r r.ty
  | .phase h => mreg h.pm | .publ h => mreg h.pm | .rfsh h => mreg h.pm | .fence _ h => mreg h.pm | .sysrel h => mreg h.pm
  | .mqma h _ _ _ sa sb _ _ => mreg h.pm ++ [.v sa.toNat, .s sb.toNat]
  | .mcrd h _ _ _ _ _ => mreg h.pm | .mcwr h _ _ x _ _ _ => mreg h.pm ++ [.v x.toNat] | .mcz h _ _ _ _ => mreg h.pm
  | .lrchk h _ _ b => mreg h.pm ++ (List.range 12).map (fun i => Reg.s (b.toNat + i))
  | .claim h _ n => mreg h.pm ++ sPair n
  | .qinit h _ a _ _ => mreg h.pm ++ [.s a.toNat] | .qpush h _ a _ => mreg h.pm ++ [.s a.toNat] | .qpop h _ _ _ => mreg h.pm
  | .rvinit h _ _ => mreg h.pm | .rvarr h _ _ _ _ _ => mreg h.pm | .rvexp h _ x => mreg h.pm ++ [s6 x]
  | .rvwait h _ _ p _ => mreg h.pm ++ [s6 p] | .rvtest h _ _ => mreg h.pm
  | .tlwait h n _ x _ => mreg h.pm ++ [s6 n, s6 x] | .tlread h _ x => mreg h.pm ++ [s6 x]
  | .clwait h _ t _ => mreg h.pm ++ [s6 t] | .fulfil h x t => mreg h.pm ++ [s6 x, s6 t]
  | .abandon h t => mreg h.pm ++ [s6 t] | .clrel h t => mreg h.pm ++ [s6 t] | .clinv h _ a => mreg h.pm ++ [s6 a]
  | .swgo h _ _ a _ => mreg h.pm ++ [s6 a] | .swait h a => mreg h.pm ++ vregs true a | .swend h => mreg h.pm
  | .swake h a sc _ => mreg h.pm ++ regOf sc false a | .sctxr h _ a sc _ => mreg h.pm ++ regOf sc false a
  | .sctxw h x a sc _ => mreg h.pm ++ regOf sc true x ++ regOf sc false a
  | .snbr h _ _ _ => mreg h.pm | .swqry h _ _ _ => mreg h.pm
  | .lds m => memAddr false m | .sts m => memAddr false m ++ memData m
  | .dlds m => memAddr false m | .dsts m => memAddr false m ++ memData m
  | .ldg _ m => memAddr true m | .stg m => memAddr true m ++ memData m
  | .ldh m => memAddr true m | .sth m => memAddr true m ++ memData m | .pfg m => memAddr true m
  | .spill h wide x _ => mreg h.pm ++ vregs wide x | .fill h _ _ _ => mreg h.pm
  | .mbld h _ _ a d _ => mreg h.pm ++ [s6 a, s6 d] | .mbcast h _ _ a d _ _ => mreg h.pm ++ [s6 a, s6 d]
  | .cpy a => copyReads a | .cpyx a => copyReads a | .cpyrIn a => copyReads a | .cpyrOut a => copyReads a
  | .brc _ m _ => mreg m | .brd _ m _ _ => mreg m | .callt _ ix => [s6 ix]
  | .pairedWord x y => halfSrc x ++ halfSrc y
  | _ => []

/-- Registers that a word writes; `pair`: an `SNBR` whose static width is a pair (R341). What `RCEDE` and `RTAKE` write
depends on the allotment (R140). -/
def writesOf (pair : Bool) : Instr → List Reg
  | .iadd r => opD r r.ty | .isub r => opD r r.ty | .isadd r => opD r r.ty | .imul r => opD r r.ty | .imulh r => opD r r.ty
  | .iaddc r => mfield r.sc ++ opD r r.ty | .imad r => opD r r.ty | .bfi r => opD r r.ty
  | .imin r => opD r r.ty | .imax r => opD r r.ty | .and r => opD r r.ty | .or r => opD r r.ty | .xor r => opD r r.ty
  | .shl r => opD r r.ty | .shr r => opD r r.ty | .shra r => opD r r.ty | .rot r => opD r r.ty | .bfx r => opD r r.ty
  | .iabs r => opD r r.ty | .ineg r => opD r r.ty | .not r => opD r r.ty | .popc r => opD r r.ty | .clz r => opD r r.ty
  | .brev r => opD r r.ty | .mov r => opD r r.ty
  | .icmp _ r => mfield r.dst | .sel r => opD r r.ty | .movi _ d _ sc _ => regOf sc false d | .nhash r => opD r r.ty
  | .fadd _ r => opD r r.ty | .fsub _ r => opD r r.ty | .fmul _ r => opD r r.ty | .ffma _ r => opD r r.ty
  | .fmin _ r => opD r r.ty | .fmax _ r => opD r r.ty | .fcmp _ _ r => mfield r.dst | .fclass _ _ r => mfield r.dst
  | .frint _ r => opD r r.ty | .fdiv _ r => opD r r.ty | .fsqrt _ r => opD r r.ty | .fdot2 _ r => opD r .n32
  | .exp2 _ r => opD r r.ty | .log2 _ r => opD r r.ty | .rcp _ r => opD r r.ty | .rsq _ r => opD r r.ty
  | .sin _ r => opD r r.ty | .cos _ r => opD r r.ty | .tanh _ r => opD r r.ty | .sigm _ r => opD r r.ty
  | .erf _ r => opD r r.ty
  | .cvt _ _ r => opD r r.ty | .pack _ _ r => opD r .n32 | .unpk _ _ r => opD r r.ty
  | .qnt _ _ r => opD r .n64 | .dqnt _ _ r => opD r r.ty
  | .shfl r => opD r r.ty | .shflx r => opD r r.ty | .bcast r => opD r r.ty | .redv _ r => opD r r.ty | .scanv _ r => opD r r.ty
  | .vtos r => [.s r.dst.toNat] | .stov r => vregs r.ty.wide r.dst
  | .mand r => mfield r.dst | .mor r => mfield r.dst | .mxor r => mfield r.dst | .mnot r => mfield r.dst
  | .mpop r => [.s r.dst.toNat] | .many r => [.s r.dst.toNat] | .mall r => [.s r.dst.toNat]
  | .srd _ _ sc code d => regOf sc (sregWide code) d
  | .ats _ r => opD r r.ty | .cass r => opD r r.ty | .feqry _ _ sc d _ => if sc then [.s d.toNat] else mfield d
  | .atg _ r => opD r r.ty | .casg r => opD r r.ty
  | .mcrd _ _ d _ _ _ => [.v d.toNat] | .lrchk _ _ d _ => [.s d.toNat] | .claim _ d _ => sPair d
  | .qpop _ d _ _ => [.s d.toNat] | .rvarr _ _ d _ _ _ => [s6 d] | .rvtest _ _ d => [s6 d] | .tlread _ d _ => [s6 d]
  | .clwait _ d _ _ => sPair d | .clinv _ d _ => [s6 d] | .swgo _ _ d _ _ => sPair d
  | .sctxr _ d _ sc _ => regOf sc true d | .snbr _ d _ mc => vregs pair d ++ mreg mc | .swqry _ d _ _ => [s6 d]
  | .lds m => memData m | .dlds m => memData m | .ldg _ m => memData m | .ldh m => memData m
  | .fill _ wide d _ => vregs wide d
  | .cpy a => sPair a.d | .cpyx a => sPair a.d | .cpyrIn a => sPair a.d | .cpyrOut a => sPair a.d
  | .pairedWord x y => halfDst x ++ halfDst y
  | _ => []

/-! ### The reuse latch (R55) -/

/-- A register that a word reads in one of the positions SA, SB and SC: position, register, scalar kind. -/
abbrev Pos := Nat × Nat × Bool

def posA (r : Lane) : List Pos := [(0, r.sa.toNat, r.form == .scal)]
def posB (r : Lane) : List Pos := [(1, r.sb.toNat, r.form != .vec)]
def posC (r : Lane) : List Pos := [(2, r.sc.toNat, r.form == .scal)]
def pos2 (r : Lane) : List Pos := posA r ++ posB r
def pos3 (r : Lane) : List Pos := pos2 r ++ posC r
/-- R116: the source of a unary word. -/
def posU (r : Lane) : List Pos := if r.form == .bcast then posB r else posA r

/-- The vector and scalar registers that the fields SA, SB and SC of a register-format word name as sources. A field that
holds an immediate, a mask or nothing names none (R111, R115). -/
def posOf : Instr → List Pos
  | .iadd r => pos2 r | .isub r => pos2 r | .isadd r => pos2 r | .imul r => pos2 r | .imulh r => pos2 r
  | .iaddc r => pos2 r | .imad r => pos3 r | .bfi r => pos3 r
  | .imin r => pos2 r | .imax r => pos2 r | .and r => pos2 r | .or r => pos2 r | .xor r => pos2 r
  | .shl r => pos2 r | .shr r => pos2 r | .shra r => pos2 r | .rot r => pos2 r | .bfx r => pos2 r
  | .iabs r => posU r | .ineg r => posU r | .not r => posU r | .popc r => posU r | .clz r => posU r
  | .brev r => posU r | .mov r => posU r
  | .icmp _ r => pos2 r | .sel r => pos2 r | .nhash r => pos2 r
  | .fadd _ r => pos2 r | .fsub _ r => pos2 r | .fmul _ r => pos2 r | .ffma _ r => pos3 r
  | .fmin _ r => pos2 r | .fmax _ r => pos2 r | .fcmp _ _ r => pos2 r | .fclass _ _ r => posU r
  | .frint _ r => posU r | .fdiv _ r => pos2 r | .fsqrt _ r => posU r | .fdot2 _ r => pos3 r
  | .exp2 _ r => posU r | .log2 _ r => posU r | .rcp _ r => posU r | .rsq _ r => posU r
  | .sin _ r => posU r | .cos _ r => posU r | .tanh _ r => posU r | .sigm _ r => posU r | .erf _ r => posU r
  | .cvt _ _ r => posA r | .pack _ _ r => pos2 r | .unpk _ _ r => posA r | .qnt _ _ r => posA r | .dqnt _ _ r => pos2 r
  | .shfl r => pos2 r | .shflx r => pos2 r | .bcast r => posA r | .redv _ r => posA r | .scanv _ r => posA r
  | .vtos r => posA r | .stov r => [(1, r.sb.toNat, true)]
  | .swr _ _ sc _ x => [(0, x.toNat, sc)]
  | .ats _ r => pos2 r | .cass r => pos3 r | .atg _ r => pos2 r | .casg r => pos3 r | .redg _ r => pos2 r
  | .feset _ _ sc a => [(0, a.toNat, sc)] | .feclr _ _ sc a => [(0, a.toNat, sc)] | .feqry _ _ sc _ a => [(0, a.toNat, sc)]
  | .mqma _ _ _ _ sa sb _ _ => [(0, sa.toNat, false), (1, sb.toNat, true)] | .mcwr _ _ _ x _ _ _ => [(0, x.toNat, false)]
  | .lrchk _ _ _ b => [(0, b.toNat, true)] | .claim _ _ n => [(0, n.toNat, true)]
  | _ => []

/-- The registers whose pending results hold a word (R52). -/
def regsOf (i : Instr) : List Reg := readsOf i ++ writesOf true i

end Sys2Proof.Machine
end

