-- ==== Sys2Proof/Machine/Code.lean ====
section
/-! DEFINITION. What the Nose knows of a word without running it: weight and cost class (Table 3-9, R58), the limit it
carries (R44), the bytes it counts (Table 12-4). -/

namespace Sys2Proof.Machine

/-! ### Weights and cost classes (Tables 3-9 and 3-10) -/

def weights : List Nat :=
  [0, 2, 2, 2, 2, 4, 4, 5] ++ [2, 2, 1, 1, 1, 1, 1, 1] ++ [1, 1, 1, 1, 2, 2, 1, 2] ++ [2, 2, 1, 1, 6, 4, 4, 4] ++
  [6, 3, 3, 2, 1, 2, 12, 12] ++ [6, 10, 3, 2, 2, 5, 4, 3] ++ [1, 1, 6, 6, 2, 8, 8, 8] ++ [3, 15, 3, 3, 2, 1, 4, 0] ++
  [1, 1, 1, 2, 3, 3, 2, 2] ++ [2, 1, 1, 1, 1, 1, 4, 2] ++ [2, 2, 4, 2, 2, 2, 2, 2] ++ [2, 1, 0, 0, 0, 0, 0, 0] ++
  [3, 3, 4, 4, 4, 4, 4, 4] ++ [1, 3, 3, 6, 6, 2, 2, 2] ++ [1, 1, 1, 1, 1, 1, 1, 2] ++ [2, 2, 1, 0, 0, 1, 1, 1]

def weightOf (op : BitVec 7) : Nat := weights.getD op.toNat 0

/-- R50: the weight of a half. -/
def halfWeight (op : Nat) : Nat :=
  if op = 0 then 0 else if op ≤ 0x19 then 1 else if op ≤ 0x28 then 3 else if op ≤ 0x34 then 2 else 1

/-- The weight that an issue charges for each lane when every lane is charged. -/
def fullWeight (i : Instr) : Nat :=
  match i with
  | .pairedWord x y => halfWeight x.op.toNat + halfWeight y.op.toNat
  | i => match rawOf i with | some r => weightOf r.op | none => 0

/-- Cost classes of Table 3-10; a wait joined to another class is told by `waitOf`. -/
inductive CostClass where
  | a | s | p | g | h | m | e | c | w
deriving DecidableEq, Repr

def classOf : Instr → CostClass
  | .nhash _ => .s | .fdiv _ _ => .s | .fsqrt _ _ => .s
  | .exp2 _ _ => .s | .log2 _ _ => .s | .rcp _ _ => .s | .rsq _ _ => .s | .sin _ _ => .s | .cos _ _ => .s | .tanh _ _ => .s
  | .sigm _ _ => .s | .erf _ _ => .s | .qnt _ _ _ => .s
  | .shfl _ => .s | .shflx _ => .s | .bcast _ => .s | .redv _ _ => .s | .scanv _ _ => .s | .vtos _ => .s | .stov _ => .s
  | .mcrd _ _ _ _ _ _ => .s | .mcwr _ _ _ _ _ _ _ => .s
  | .ats _ _ => .p | .cass _ => .p | .feset _ _ _ _ => .p | .feclr _ _ _ _ => .p | .feqry _ _ _ _ _ => .p
  | .qinit _ _ _ _ _ => .p | .qpush _ _ _ _ => .p | .qpop _ _ _ _ => .p | .sctxr _ _ _ _ _ => .p | .sctxw _ _ _ _ _ => .p
  | .snbr _ _ _ _ => .p | .lds _ => .p | .sts _ => .p | .mbld _ _ _ _ _ _ => .p
  | .atg _ _ => .g | .casg _ => .g | .redg _ _ => .g | .dlds _ => .g | .dsts _ => .g | .ldg _ _ => .g | .stg _ => .g
  | .spill _ _ _ _ => .g | .fill _ _ _ _ => .g
  | .ldh _ => .h | .sth _ => .h | .sysrel _ => .h
  | .mqma _ _ _ _ _ _ _ _ => .m
  | .phase _ => .e | .publ _ => .e | .rfsh _ => .e | .fence _ _ => .e
  | .rvinit _ _ _ => .e | .rvarr _ _ _ _ _ _ => .e | .rvexp _ _ _ => .e | .rvtest _ _ _ => .e | .tlread _ _ _ => .e
  | .swgo _ _ _ _ _ => .e | .swake _ _ _ _ => .e | .swqry _ _ _ _ => .e | .mbcast _ _ _ _ _ _ _ => .e
  | .cpy _ => .e | .cpyx _ => .e | .cpyrIn _ => .e | .cpyrOut _ => .e
  | .claim _ _ _ => .c | .fulfil _ _ _ => .c | .abandon _ _ => .c | .clrel _ _ => .c | .clinv _ _ _ => .c
  | .rtake _ _ _ => .w | .rvwait _ _ _ _ _ => .w | .tlwait _ _ _ _ _ => .w | .clwait _ _ _ _ => .w | .yieldc _ _ _ => .w
  | _ => .a

/-! ### Limits (R44) -/

/-- A limit as a number or an index of the limit table. -/
inductive LimRef where
  | num (n : Nat)
  | tbl (i : Nat)
deriving DecidableEq, Repr

def limRef {n : Nat} : Lim n → LimRef
  | .imm v => .num v.toNat
  | .tbl i => .tbl i.toNat

/-- The limit field of a word. -/
def limOf : Instr → Option LimRef
  | .rtake _ _ l => some (limRef l) | .qpush _ _ _ l => some (limRef l) | .qpop _ _ _ l => some (limRef l)
  | .rvwait _ _ _ _ l => some (limRef l) | .tlwait _ _ _ _ l => some (limRef l) | .clwait _ _ _ l => some (limRef l)
  | .swgo _ _ _ _ l => some (limRef l) | .cpy a => some (limRef a.lim) | .cpyx a => some (limRef a.lim)
  | .cpyrIn a => some (limRef a.lim) | .cpyrOut a => some (limRef a.lim)
  | .loopb _ _ l => some (limRef l) | .loopn _ _ l => some (limRef l) | .yieldc _ _ l => some (limRef l)
  | _ => none

/-- A copy word. -/
def isCopy : Instr → Bool
  | .cpy _ => true | .cpyx _ => true | .cpyrIn _ => true | .cpyrOut _ => true
  | _ => false

/-- A word whose class is joined with W, `LDS` and `SWGO` apart. -/
def isWait : Instr → Bool
  | .rtake _ _ _ => true | .qpush _ _ _ _ => true | .qpop _ _ _ _ => true | .rvwait _ _ _ _ _ => true
  | .tlwait _ _ _ _ _ => true | .clwait _ _ _ _ => true | .yieldc _ _ _ => true
  | _ => false

/-- The B slot that a matrix word names (R261). -/
def bslotOf : Instr → Option Nat
  | .mqma _ _ b _ _ _ _ _ => some b.toNat | .mcrd _ _ _ b _ _ => some b.toNat | .mcwr _ _ _ _ b _ _ => some b.toNat
  | .mcz _ _ b _ _ => some b.toNat | .mbld _ _ b _ _ _ => some b.toNat | .mbcast _ _ b _ _ _ _ => some b.toNat
  | _ => none

/-- A special function (OP 0x29, R235). -/
def isSpecial (i : Instr) : Bool := (rawOf i).any (fun r => r.op == 0x29)

/-- The point designator of a word (R45). -/
def designatorOf : Instr → Option (BitVec 8)
  | .rvinit _ p _ => some p | .rvarr _ p _ _ _ _ => some p | .rvexp _ p _ => some p | .rvwait _ p _ _ _ => some p
  | .rvtest _ p _ => some p | .yieldc p _ _ => some p | .mbcast _ _ _ _ _ p _ => some p
  | .cpy a => if a.pt = 255 then none else some a.pt | .cpyx a => if a.pt = 255 then none else some a.pt
  | .cpyrIn a => if a.pt = 255 then none else some a.pt | .cpyrOut a => if a.pt = 255 then none else some a.pt
  | _ => none

/-- The sweep context that a word names. -/
def sweepOf : Instr → Option Nat
  | .swgo _ c _ _ _ => some c.toNat | .swake _ _ _ c => some c.toNat | .sctxr _ _ _ _ c => some c.toNat
  | .sctxw _ _ _ _ c => some c.toNat | .swqry _ _ _ c => some c.toNat
  | _ => none

/-- Branch target in words of a control word, and the join distance of `BRD`. -/
def branchOf : Instr → Option (BitVec 24)
  | .bra t => some t | .brc _ _ t => some t | .brd _ _ t _ => some t | .loopb _ t _ => some t | .loopn _ t _ => some t
  | .loopx _ t => some t | .call t => some t | .yieldc _ t _ => some t
  | _ => none

/-- The loop register that a word closes. -/
def closesOf : Instr → Option Nat
  | .loopb l _ _ => some l.toNat | .loopn l _ _ => some l.toNat
  | _ => none

/-- The spill slots that a word names reach this many slots (R145). -/
def spillTop : Instr → Nat
  | .spill _ wide _ k => k.toNat + (if wide then 2 else 1)
  | .fill _ wide _ k => k.toNat + (if wide then 2 else 1)
  | _ => 0

/-! ### Prices (R227, R233, R259, R279) -/

/-- What the pricing of a launch depends on: class G latency, latency of a global atomic, width, `.filllimit`, the values
of the limit table. -/
structure Price where
  g : Nat
  hAtomics : Bool
  width : Nat
  fill : Nat
  limits : List Nat

def Price.limit (x : Price) : Option LimRef → Nat
  | some (.num n) => n
  | some (.tbl i) => x.limits.getD i 0
  | none => 0

def isAtomic : Instr → Bool
  | .atg _ _ => true | .casg _ => true | .redg _ _ => true
  | _ => false

/-- R173: words of class G that are always priced at 1,200. -/
def isNear : Instr → Bool
  | .dlds _ => true | .dsts _ => true | .spill _ _ _ _ => true | .fill _ _ _ _ => true
  | _ => false

/-- R227: the cost of a word, its share divisor and the runs of an `SWGO` apart. `PFG` costs the issue of a word of class A
(R189, Table 9-4). DEDUCED (log 96). -/
def Price.cost (x : Price) (i : Instr) : Nat :=
  let base := match classOf i with
    | .a => 1 | .s => 4 | .p => (if x.width = 64 then 48 else 24)
    | .g => (if isAtomic i && x.hAtomics then 4000 else if isNear i then 1200 else x.g)
    | .h => 4000
    | .m => (match i with | .mqma _ _ _ _ _ _ _ n => 8 * (4 * 2 ^ n.toNat) + 16 | _ => 0)
    | .e => 8 | .c => 600 | .w => 0
  let wait := (match i with
    | .lds _ => x.fill
    | i => if isWait i then x.limit (limOf i) else 0)
  if x.width = 64 then max 4 (base + wait) else base + wait

/-- Rate of the tier that R173 prices, in units of 1/22,500,000 nJ a byte. -/
def Price.memRate (x : Price) : Nat := if x.g = 2400 then 1350000 else 450000

/-- Rate of a global atomic and of a copy's tensor side. -/
def Price.farRate (x : Price) : Nat := if x.hAtomics then 1800000 else x.memRate

/-- R233: energy of the bytes that a word counts, the runs of an `SWGO` apart. -/
def Price.bytes (x : Price) (i : Instr) : Nat :=
  let lanes (once : Bool) : Nat := if once then 1 else x.width
  match i with
  | .lds m => m.ty.size * lanes m.dk * 13500 | .sts m => m.ty.size * lanes m.dk * 13500
  | .ats _ r => r.ty.size * lanes (r.form == .scal) * 13500 | .cass r => r.ty.size * lanes (r.form == .scal) * 13500
  | .qpush _ _ _ _ => 4 * 13500 | .qpop _ _ _ _ => 4 * 13500
  | .mbld _ _ _ _ _ _ => 4608 * 13500 | .mbcast _ _ _ _ _ _ _ => 4608 * 13500
  | .ldg _ m => devBytes m.ty * lanes m.dk * x.memRate | .stg m => devBytes m.ty * lanes m.dk * x.memRate
  | .atg _ r => devBytes r.ty * lanes (r.form == .scal) * x.farRate
  | .casg r => devBytes r.ty * lanes (r.form == .scal) * x.farRate
  | .redg _ r => devBytes r.ty * lanes (r.form == .scal) * x.farRate
  | .dlds m => devBytes m.ty * lanes m.dk * 450000 | .dsts m => devBytes m.ty * lanes m.dk * 450000
  | .spill _ _ _ _ => 64 * x.width * 450000 | .fill _ _ _ _ => 64 * x.width * 450000
  | .ldh m => (if 2 ≤ m.ty.size then 16 else 8) * lanes m.dk * 4500000
  | .sth m => (if 2 ≤ m.ty.size then 16 else 8) * lanes m.dk * 4500000
  | .cpy a => 128 * x.limit (some (limRef a.lim)) * (13500 + x.farRate)
  | .cpyx a => 128 * x.limit (some (limRef a.lim)) * (13500 + x.farRate)
  | .cpyrIn a => 128 * x.limit (some (limRef a.lim)) * (x.memRate + x.farRate)
  | .cpyrOut a => 128 * x.limit (some (limRef a.lim)) * (x.memRate + x.farRate)
  | _ => 0

end Sys2Proof.Machine
end

