-- ==== Sys2Proof/Machine/Flits.lean ====
section
/-! DEFINITION. Sending over the fabric: routing, credits, sequence numbers, the replay buffer (R381, R382). -/

namespace Sys2Proof.Machine

/-- Payload bytes of a flit. -/
def payloadLen : Nat := 240

def padTo (n : Nat) (bs : List Byte) : List Byte := (bs ++ List.replicate (n - bs.length) 0).take n

/-- R382: ports that lead toward a device, from its routing entry. -/
def routeOf (s : State) (dev : Nat) : BitVec 32 := tget 0 s.routes dev

/-- The lowest-numbered port toward a device that is up; 16 where there is none. -/
def portFor (s : State) (dev : Nat) : Nat :=
  ((List.range 16).find? (fun p => (routeOf s dev).getLsbD p && (s.port p).up)).getD 16

/-- A flit leaves a port: sequence, acknowledgement and credits are filled in, and the replay buffer holds it. -/
def Port.transmit (p : Port) (f : Flit) : Port :=
  let c0 := min 15 (p.freed0 / 8)
  let c1 := min 15 (p.freed1 / 8)
  let f := { f with seq := p.txSeq, ackSeq := p.rxSeq - 1, cred0 := BitVec.ofNat 4 c0, cred1 := BitVec.ofNat 4 c1 }
  { p with
    txSeq := p.txSeq + 1, replay := p.replay ++ [f], sent := p.sent ++ [f],
    freed0 := p.freed0 - 8 * c0, freed1 := p.freed1 - 8 * c1,
    cred0 := if f.vc = 0 then p.cred0 - 1 else p.cred0, cred1 := if f.vc = 1 then p.cred1 - 1 else p.cred1 }

/-- R382: a flit of a channel leaves only with a credit of it, and only with room in the replay buffer. -/
def Port.canSend (p : Port) (f : Flit) : Bool :=
  p.up && !p.retraining && p.replay.length < 512 && (if f.vc = 0 then 0 < p.cred0 else if f.vc = 1 then 0 < p.cred1 else true)

/-- Waiting flits leave in order, channel by channel. -/
def Port.pump (p : Port) : Port :=
  p.waiting.foldl
    (fun p f =>
      if p.canSend f && !p.waiting.any (fun g => g.vc == f.vc) then p.transmit f
      else { p with waiting := p.waiting ++ [f] })
    { p with waiting := [] }

/-- Place 16 holds the flits that have no route. -/
def enqueue (s : State) (port : Nat) (f : Flit) : State :=
  s.modPort port (fun p => let p := { p with waiting := p.waiting ++ [f] }; if port = 16 then p else p.pump)

/-- A flit on its way to its destination. -/
def routeFlit (s : State) (f : Flit) : State := enqueue s (portFor s f.dest.toNat) f

/-- A new flit of the device (R382). -/
def sendFlit (s : State) (dev kind vc : Nat) (payload : List Byte) : State :=
  routeFlit s { dest := BitVec.ofNat 21 dev, kind := BitVec.ofNat 3 kind, seq := 0, ackSeq := 0, cred0 := 0, cred1 := 0,
                vc := BitVec.ofNat 2 vc, hops := 63, payload := padTo payloadLen payload }

/-- Header of every request and response payload: SRC and TAG. DESIGN CHOICE (log 8). -/
def srcTag (tag : Nat) : List Byte := leBytes Config.deviceNumber.toNat 4 ++ leBytes tag 4

/-- AREQ payload (Table 25-7): records of address, operand and compare value. -/
def areqPayload (tag op tyCode : Nat) (ret : Bool) (recs : List (Nat × Nat × Nat)) : List Byte :=
  srcTag tag ++ leBytes (op + 16 * tyCode) 1 ++ leBytes recs.length 1 ++ leBytes ret.toNat 1 ++ List.replicate 5 0 ++
    recs.flatMap (fun r => leBytes r.1 8 ++ leBytes r.2.1 8 ++ leBytes r.2.2 8)

def rreqPayload (tag addr len : Nat) : List Byte := srcTag tag ++ leBytes addr 8 ++ leBytes len 2
def wdataPayload (tag addr : Nat) (data : List Byte) : List Byte :=
  srcTag tag ++ leBytes addr 8 ++ leBytes data.length 2 ++ List.replicate 14 0 ++ data

end Sys2Proof.Machine
end

