-- ==== Sys2Proof/Machine/Flags.lean ====
section
/-! DEFINITION. Integer computations, the carry of `IADDC` and the conditions of `ICMP`. The machine keeps no flag
register: a carry or a condition is a bit of a mask register (R121, R123). -/

namespace Sys2Proof.Machine

/-- Val of R120: an n-bit pattern read as signed under an `.I` type. -/
def val (t : Ty) (n : Nat) : Int := if t.signed then signedOf t.bits n else (n % 2 ^ t.bits : Nat)

/-- Patterns wrap modulo 2^n. -/
def wrap (t : Ty) (x : Int) : Nat := (x % (2 : Int) ^ t.bits).toNat

def tyMin (t : Ty) : Int := if t.signed then -(2 : Int) ^ (t.bits - 1) else 0
def tyMax (t : Ty) : Int := if t.signed then (2 : Int) ^ (t.bits - 1) - 1 else (2 : Int) ^ t.bits - 1

/-- Sat of R120 (Table 4-1). -/
def sat (t : Ty) (x : Int) : Int := if x < tyMin t then tyMin t else if tyMax t < x then tyMax t else x

def iAdd (t : Ty) (a b : Nat) : Nat := (a + b) % 2 ^ t.bits
def iSub (t : Ty) (a b : Nat) : Nat := wrap t ((a : Int) - b)
def iMul (t : Ty) (a b : Nat) : Nat := a * b % 2 ^ t.bits
def iMad (t : Ty) (a b c : Nat) : Nat := (a * b + c) % 2 ^ t.bits
def iMulh (t : Ty) (a b : Nat) : Nat := wrap t (val t a * val t b / (2 : Int) ^ t.bits)
def iSadd (t : Ty) (a b : Nat) : Nat := wrap t (sat t (val t a + val t b))
def iMin (t : Ty) (a b : Nat) : Nat := if val t a ≤ val t b then a else b
def iMax (t : Ty) (a b : Nat) : Nat := if val t a ≥ val t b then a else b
def iAbs (t : Ty) (a : Nat) : Nat := wrap t (val t a).natAbs
def iNeg (t : Ty) (a : Nat) : Nat := wrap t (0 - (a : Int))
def iNot (t : Ty) (a : Nat) : Nat := 2 ^ t.bits - 1 - a % 2 ^ t.bits

def iShl (t : Ty) (a b : Nat) : Nat := let k := b % 2 ^ 32; if k ≥ t.bits then 0 else a * 2 ^ k % 2 ^ t.bits
def iShr (t : Ty) (a b : Nat) : Nat := let k := b % 2 ^ 32; if k ≥ t.bits then 0 else a / 2 ^ k
def iShra (t : Ty) (a b : Nat) : Nat :=
  let k := b % 2 ^ 32
  if k ≥ t.bits then (if a.testBit (t.bits - 1) then 2 ^ t.bits - 1 else 0)
  else wrap t (signedOf t.bits a / (2 : Int) ^ k)
def iRot (t : Ty) (a b : Nat) : Nat :=
  let k := b % 2 ^ 32 % t.bits
  a * 2 ^ k % 2 ^ t.bits ||| a / 2 ^ (t.bits - k)
def iPopc (t : Ty) (a : Nat) : Nat := popcount t.bits a
def iClz (t : Ty) (a : Nat) : Nat := let a := a % 2 ^ t.bits; if a = 0 then t.bits else t.bits - 1 - a.log2
def iBrev (t : Ty) (a : Nat) : Nat :=
  (List.range t.bits).foldl (fun r i => if a.testBit i then r + 2 ^ (t.bits - 1 - i) else r) 0

/-- R122. -/
def iBfx (t : Ty) (a b : Nat) : Nat :=
  let p := bits b 7 0
  let w := bits b 15 8
  if p ≥ t.bits || w = 0 then 0
  else
    let w := min w (t.bits - p)
    let f := a / 2 ^ p % 2 ^ w
    if t.signed && f.testBit (w - 1) then f + (2 ^ t.bits - 2 ^ w) else f

def iBfi (t : Ty) (a b c : Nat) : Nat :=
  let p := bits b 7 0
  let w := bits b 15 8
  if p ≥ t.bits || w = 0 then c
  else
    let w := min w (t.bits - p)
    let m := (2 ^ w - 1) * 2 ^ p
    (c &&& (2 ^ t.bits - 1 - m)) ||| (a * 2 ^ p &&& m)

/-- R121: the unsigned carry out of bit n - 1. -/
def carryOut (t : Ty) (a b : Nat) (cin : Bool) : Bool := 2 ^ t.bits ≤ a + b + cin.toNat
def addCarry (t : Ty) (a b : Nat) (cin : Bool) : Nat := (a + b + cin.toNat) % 2 ^ t.bits

/-- R123: the condition of `ICMP`. -/
def iCond (c : Cond) (t : Ty) (a b : Nat) : Bool :=
  match c with
  | .eq => val t a = val t b
  | .ne => val t a ≠ val t b
  | .lt => val t a < val t b
  | .le => val t a ≤ val t b
  | .gt => val t a > val t b
  | .ge => val t a ≥ val t b
  | .un => false

/-- R125. -/
def mix64 (z : Nat) : Nat :=
  let z := (z ^^^ z / 2 ^ 30) * 0xBF58476D1CE4E5B9 % 2 ^ 64
  let z := (z ^^^ z / 2 ^ 27) * 0x94D049BB133111EB % 2 ^ 64
  z ^^^ z / 2 ^ 31

def nhash (a b : Nat) : Nat := mix64 (((a ^^^ b) + 0x9E3779B97F4A7C15) % 2 ^ 64)

end Sys2Proof.Machine
end

