-- ==== Sys2Proof/Machine/Num.lean ====
section
/-! DEFINITION. Floating-point formats, exact values, rounding and flushing (R63 to R69), and the exact sums and
products that every rounded word is built from. -/

namespace Sys2Proof.Machine

/-- A binary format: exponent bits, fraction bits, whether it has infinities (Table 4-2). -/
structure Fmt where
  eb : Nat
  mb : Nat
  inf : Bool
deriving DecidableEq, Repr

def fmtF32 : Fmt := ⟨8, 23, true⟩
def fmtF16 : Fmt := ⟨5, 10, true⟩
def fmtBF16 : Fmt := ⟨8, 7, true⟩
def fmtE5M2 : Fmt := ⟨5, 2, true⟩
def fmtE4M3 : Fmt := ⟨4, 3, false⟩

/-- The format of a floating-point type; any other type stands for F32. -/
def fmtOf : Ty → Fmt
  | .f16 => fmtF16 | .bf16 => fmtBF16 | .e5m2 => fmtE5M2 | .e4m3 => fmtE4M3
  | _ => fmtF32

def Fmt.width (f : Fmt) : Nat := 1 + f.eb + f.mb
def Fmt.bias (f : Fmt) : Nat := 2 ^ (f.eb - 1) - 1
/-- Exponent of the smallest normal number. -/
def Fmt.emin (f : Fmt) : Int := 1 - (f.bias : Int)
/-- Encoding of the largest finite magnitude. -/
def Fmt.maxEnc (f : Fmt) : Nat := if f.inf then (2 ^ f.eb - 1) * 2 ^ f.mb - 1 else 2 ^ (f.eb + f.mb) - 2
def Fmt.infEnc (f : Fmt) : Nat := if f.inf then (2 ^ f.eb - 1) * 2 ^ f.mb else f.maxEnc
/-- The canonical NaN (R64, Table 4-2). -/
def Fmt.nan (f : Fmt) : Nat := if f.inf then (2 ^ f.eb - 1) * 2 ^ f.mb + 2 ^ (f.mb - 1) else 2 ^ (f.eb + f.mb) - 1
def Fmt.withSign (f : Fmt) (neg : Bool) (mag : Nat) : Nat := (if neg then 2 ^ (f.eb + f.mb) else 0) + mag

/-- A number: NaN, an infinity, or the exact value ± m · 2 ^ e. -/
inductive Fp where
  | nan
  | inf (neg : Bool)
  | fin (neg : Bool) (m : Nat) (e : Int)
deriving DecidableEq, Repr

/-- Fields of an encoding: sign, exponent, fraction. -/
def Fmt.sign (f : Fmt) (n : Nat) : Bool := n.testBit (f.eb + f.mb)
def Fmt.exp (f : Fmt) (n : Nat) : Nat := n / 2 ^ f.mb % 2 ^ f.eb
def Fmt.frac (f : Fmt) (n : Nat) : Nat := n % 2 ^ f.mb
def Fmt.mag (f : Fmt) (n : Nat) : Nat := n % 2 ^ (f.eb + f.mb)

def Fmt.isNan (f : Fmt) (n : Nat) : Bool := if f.inf then f.infEnc < f.mag n else f.mag n == f.nan
def Fmt.isInf (f : Fmt) (n : Nat) : Bool := f.inf && f.mag n == f.infEnc
def Fmt.isSub (f : Fmt) (n : Nat) : Bool := f.exp n == 0 && f.frac n != 0
def Fmt.isZero (f : Fmt) (n : Nat) : Bool := f.mag n == 0

/-- The value of an encoding (R63). -/
def Fmt.decode (f : Fmt) (n : Nat) : Fp :=
  if f.isNan n then .nan
  else if f.isInf n then .inf (f.sign n)
  else if f.exp n = 0 then .fin (f.sign n) (f.frac n) (f.emin - f.mb)
  else .fin (f.sign n) (2 ^ f.mb + f.frac n) ((f.exp n : Int) - f.bias - f.mb)

/-- R68: a subnormal source read as a zero of its sign. -/
def Fmt.daz (f : Fmt) (on : Bool) (n : Nat) : Nat := if on && f.isSub n then f.withSign (f.sign n) 0 else n

/-! ### Rounding (R66, R67) -/

/-- Rounding of n + (a part below one): `half` says where the part stands (0 exact, 1 below a half, 2 a half, 3 above). -/
def roundUp (rm : Rnd) (neg : Bool) (n half : Nat) : Bool :=
  match rm with
  | .rne => half == 3 || (half == 2 && n % 2 == 1)
  | .rtz => false
  | .rup => !neg && half != 0
  | .rdn => neg && half != 0

/-- The integer part of m · 2 ^ (-k), and where the rest stands; `sticky` says that the exact value lies a little above. -/
def splitAt (m : Nat) (k : Int) (sticky : Bool) : Nat × Nat :=
  if k ≤ 0 then (m * 2 ^ (-k).toNat, if sticky then 1 else 0)
  else
    let d := 2 ^ k.toNat
    let r := m % d
    (m / d, if 2 * r < d then (if r = 0 && !sticky then 0 else 1) else if 2 * r = d && !sticky then 2 else 3)

/-- m · 2 ^ (-k) rounded to an integer. -/
def roundInt (rm : Rnd) (neg : Bool) (m : Nat) (k : Int) (sticky : Bool) : Nat :=
  let p := splitAt m k sticky
  if roundUp rm neg p.1 p.2 then p.1 + 1 else p.1

/-- R67: whether the value rounded with an unbounded exponent lies below the smallest normal. -/
def tiny (f : Fmt) (rm : Rnd) (neg : Bool) (m : Nat) (e : Int) (sticky : Bool) : Bool :=
  let top : Int := e + m.log2
  if f.emin ≤ top then false
  else if top < f.emin - 1 then true
  else roundInt rm neg m ((m.log2 : Int) - f.mb) sticky < 2 ^ (f.mb + 1)

/-- The rounded magnitude as an encoding that may lie beyond the largest finite one. -/
def roundEnc (f : Fmt) (rm : Rnd) (neg : Bool) (m : Nat) (e : Int) (sticky : Bool) : Nat :=
  let qmin := f.emin - f.mb
  let q := max qmin (e + m.log2 - f.mb)
  let n := roundInt rm neg m (q - e) sticky
  n + (q - qmin).toNat * 2 ^ f.mb

/-- Table 4-3, and ±448 for E4M3. -/
def overflowEnc (f : Fmt) (rm : Rnd) (neg : Bool) : Nat :=
  match rm with
  | .rne => f.infEnc
  | .rtz => f.maxEnc
  | .rup => if neg then f.maxEnc else f.infEnc
  | .rdn => if neg then f.infEnc else f.maxEnc

/-- A finite value of magnitude m · 2 ^ e (a little above it where `sticky`) rounded to a format. -/
def roundFin (f : Fmt) (rm : Rnd) (ftz neg : Bool) (m : Nat) (e : Int) (sticky : Bool) : Nat :=
  if m = 0 && !sticky then f.withSign neg 0
  else if ftz && tiny f rm neg m e sticky then f.withSign neg 0
  else
    let n := roundEnc f rm neg m e sticky
    f.withSign neg (if f.maxEnc < n then overflowEnc f rm neg else n)

def roundFp (f : Fmt) (rm : Rnd) (ftz : Bool) : Fp → Nat
  | .nan => f.nan
  | .inf neg => f.withSign neg f.infEnc
  | .fin neg m e => roundFin f rm ftz neg m e false

/-! ### Exact arithmetic (R127) -/

def Fp.neg : Fp → Fp
  | .nan => .nan
  | .inf n => .inf !n
  | .fin n m e => .fin (!n) m e

def Fp.isNan : Fp → Bool
  | .nan => true
  | _ => false

def Fp.isInf (s : Bool) : Fp → Bool
  | .inf n => n == s
  | _ => false

/-- The exact product. -/
def Fp.mul : Fp → Fp → Fp
  | .nan, _ => .nan
  | _, .nan => .nan
  | .inf a, .inf b => .inf (a != b)
  | .inf a, .fin b m _ => if m = 0 then .nan else .inf (a != b)
  | .fin a m _, .inf b => if m = 0 then .nan else .inf (a != b)
  | .fin a m e, .fin b n g => .fin (a != b) (m * n) (e + g)

/-- Least exponent of the terms. -/
def minExp (ts : List Fp) : Int :=
  ts.foldl (fun k t => match t with | .fin _ _ e => min k e | _ => k) 0

/-- A finite term at the exponent `k`, signed. -/
def Fp.at_ (k : Int) : Fp → Int
  | .fin neg m e => let v : Int := m * 2 ^ (e - k).toNat; if neg then -v else v
  | _ => 0

/-- R127, R76: the exact sum of terms; an exact zero is a zero of the terms' one sign, else −0 under `rdn` and +0. -/
def sumFp (rdn : Bool) (ts : List Fp) : Fp :=
  if ts.any Fp.isNan || (ts.any (Fp.isInf true) && ts.any (Fp.isInf false)) then .nan
  else if ts.any (Fp.isInf true) then .inf true
  else if ts.any (Fp.isInf false) then .inf false
  else
    let k := minExp ts
    let v := ts.foldl (fun a t => a + t.at_ k) 0
    if v = 0 then
      let zeroOf (s : Bool) := ts.all (fun t => match t with | .fin n m _ => m == 0 && n == s | _ => false)
      .fin (if zeroOf true then true else if zeroOf false then false else rdn) 0 0
    else .fin (v < 0) v.natAbs k

/-- Integer square root: bits tried from `i` down. -/
def isqrtFrom (n : Nat) : Nat → Nat → Nat
  | 0, r => r
  | i + 1, r => let t := r + 2 ^ i; isqrtFrom n i (if t * t ≤ n then t else r)

def isqrt (n : Nat) : Nat := isqrtFrom n (n.log2 / 2 + 1) 0

/-- The quotient of two numbers, rounded. -/
def divFp (f : Fmt) (rm : Rnd) (ftz : Bool) : Fp → Fp → Nat
  | .nan, _ => f.nan
  | _, .nan => f.nan
  | .inf _, .inf _ => f.nan
  | .inf a, .fin b _ _ => f.withSign (a != b) f.infEnc
  | .fin a _ _, .inf b => f.withSign (a != b) 0
  | .fin a m e, .fin b n g =>
    if n = 0 then (if m = 0 then f.nan else f.withSign (a != b) f.infEnc)
    else
      let t := m * 2 ^ 64
      roundFin f rm ftz (a != b) (t / n) (e - g - 64) (t % n != 0)

/-- The square root, rounded. -/
def sqrtFp (f : Fmt) (rm : Rnd) (ftz : Bool) : Fp → Nat
  | .nan => f.nan
  | .inf neg => if neg then f.nan else f.infEnc
  | .fin neg m e =>
    if m = 0 then f.withSign neg 0
    else if neg then f.nan
    else
      let t := m * 2 ^ (if e % 2 = 0 then 64 else 65)
      let r := isqrt t
      roundFin f rm ftz false r ((e - (if e % 2 = 0 then 64 else 65)) / 2) (r * r != t)

/-- R127: the integral value that the mode selects. -/
def rintFp (f : Fmt) (rm : Rnd) : Fp → Nat
  | .nan => f.nan
  | .inf neg => f.withSign neg f.infEnc
  | .fin neg m e => roundFin f rm false neg (roundInt rm neg m (-e) false) 0 false

/-! ### Elements (R65) and comparison (R128, R129) -/

/-- Order of two encodings that are no NaNs, −0 below +0. -/
def Fmt.key (f : Fmt) (n : Nat) : Int := if f.sign n then -(f.mag n : Int) - 1 else f.mag n
/-- Order with −0 equal to +0. -/
def Fmt.keyEq (f : Fmt) (n : Nat) : Int := if f.sign n then -(f.mag n : Int) else f.mag n

/-- R128. -/
def minMax (f : Fmt) (isMin : Bool) (a b : Nat) : Nat :=
  if f.isNan a then (if f.isNan b then f.nan else b)
  else if f.isNan b then a
  else if isMin then (if f.key a ≤ f.key b then a else b)
  else if f.key b ≤ f.key a then a else b

/-- R129. -/
def fCond (c : Cond) (f : Fmt) (a b : Nat) : Bool :=
  let un := f.isNan a || f.isNan b
  match c with
  | .eq => !un && f.keyEq a == f.keyEq b
  | .ne => un || f.keyEq a != f.keyEq b
  | .lt => !un && f.keyEq a < f.keyEq b
  | .le => !un && f.keyEq a ≤ f.keyEq b
  | .gt => !un && f.keyEq b < f.keyEq a
  | .ge => !un && f.keyEq b ≤ f.keyEq a
  | .un => un

/-- R40: the class of an F32 operand, as a bit of the class set. -/
def classBit (n : Nat) : Nat :=
  let f := fmtF32
  let s := f.sign n
  if f.isNan n then (if n.testBit 22 then 8 else 9)
  else if f.isInf n then (if s then 7 else 0)
  else if f.isZero n then (if s then 4 else 3)
  else if f.isSub n then (if s then 5 else 2)
  else if s then 6 else 1

/-- A word computed element by element: one of 32 bits, or two of 16 bits. -/
def perElem (t : Ty) (g : Nat → Nat → Nat → Nat) (a b c : Nat) : Nat :=
  if t = .f32 then g a b c
  else g (a % 65536) (b % 65536) (c % 65536) + 65536 * g (a / 65536) (b / 65536) (c / 65536)

/-! ### Convert (R80) -/

/-- The value of a source pattern, integer or floating-point. -/
def toFp (t : Ty) (n : Nat) : Fp :=
  if t.isFloat then (fmtOf t).decode (n % 2 ^ t.bits)
  else let v := val t n; .fin (v < 0) v.natAbs 0

/-- Saturation of a signed magnitude to an integer type. -/
def satMag (t : Ty) (neg : Bool) (m : Nat) : Nat := wrap t (sat t (if neg then -(m : Int) else m))

/-- Table 4-9: the pattern of the destination type. -/
def fromFp (t : Ty) (rm : Rnd) (x : Fp) : Nat :=
  if t.isFloat then roundFp (fmtOf t) rm false x
  else match x with
    | .nan => 0
    | .inf neg => wrap t (if neg then tyMin t else tyMax t)
    | .fin neg m e => satMag t neg (roundInt rm neg m (-e) false)

def convert (st dt : Ty) (rm : Rnd) (n : Nat) : Nat := fromFp dt rm (toFp st n)

/-! ### The 4-bit family (R70, R71, R84, R85) -/

/-- Twice the magnitude of a code of types 1 and 3, and the power of two of type 2 in sixteenths. -/
def magE2M1 : List Nat := [0, 1, 2, 3, 4, 6, 8, 12]
def magHybrid : List Nat := [0, 1, 2, 3, 4, 6, 8, 12]

/-- Table 4-5: the value of a code of block type `t`. -/
def code4 (t c : Nat) : Fp :=
  let c := c % 16
  let neg := c.testBit 3
  let m := c % 8
  match t with
  | 0 => let v := signedOf 4 c; .fin (v < 0) v.natAbs 0
  | 1 => .fin neg (magE2M1.getD m 0) (-1)
  | 2 => if m = 0 then .fin neg 0 0 else .fin neg 1 ((m : Int) - 4)
  | _ => .fin neg (magHybrid.getD m 0) 0

/-- R70, R86: a code under a scale byte. -/
def value4 (c scale : Nat) : Fp :=
  let e := scale % 64
  if e = 63 then .nan
  else match code4 (scale / 64 % 4) c with
    | .fin neg m k => .fin neg m (k + (e : Int) - 32)
    | x => x

/-- Magnitudes of the codes 0 to 7 of a block type, in sixteenths (type 2 reaches down to an eighth). -/
def mags4 (t : Nat) : List Nat :=
  match t with
  | 0 => [0, 16, 32, 48, 64, 80, 96, 112]
  | 1 => magE2M1.map (fun x => 8 * x)
  | 2 => [0, 2, 4, 8, 16, 32, 64, 128]
  | _ => magHybrid.map (fun x => 16 * x)

/-- The code of sign `neg` and magnitude code `m`. -/
def signCode (t : Nat) (neg : Bool) (m : Nat) : Nat :=
  if m = 0 then 0 else if neg then (if t = 0 then 16 - m else 8 + m) else m

/-- R85 on the magnitude y = m · 2 ^ e: the magnitude code that the mode selects. -/
def encodeMag (t : Nat) (rm : Rnd) (neg : Bool) (m : Nat) (e : Int) : Nat :=
  let k := min e (-4)
  let y := m * 2 ^ (e - k).toNat
  let g (i : Nat) := (mags4 t).getD i 0 * 2 ^ (-4 - k).toNat
  let lo := maxOf ((List.range 8).filter (fun i => g i ≤ y))
  if g lo = y || lo = 7 then lo
  else
    let away := match rm with
      | .rne => let d := 2 * y; let s := g lo + g (lo + 1)
                d > s || (d = s && signCode t neg lo % 2 = 1)
      | .rtz => false
      | .rup => !neg
      | .rdn => neg
    if away then lo + 1 else lo

def encode4 (t : Nat) (rm : Rnd) : Fp → Nat
  | .fin neg m e => signCode t neg (encodeMag t rm neg m e)
  | _ => 0

/-- The largest magnitude of a block type. -/
def cmax4 (t : Nat) : Nat := [7, 6, 8, 12].getD t 12

/-- Whether m · 2 ^ e ≤ c · 2 ^ k. -/
def leScaled (m : Nat) (e : Int) (c : Nat) (k : Int) : Bool :=
  let b := min e k
  m * 2 ^ (e - b).toNat ≤ c * 2 ^ (k - b).toNat

/-- R84: the exponent field of a block: the least scale under which no magnitude passes the largest code, clamped. -/
def scaleOf (t : Nat) (xs : List Fp) : Nat :=
  if xs.any (fun x => match x with | .fin _ _ _ => false | _ => true) then 63
  else if xs.all (fun x => match x with | .fin _ m _ => m == 0 | _ => true) then 0
  else
    ((List.range 62).find? (fun (n : Nat) => xs.all (fun x => match x with
      | .fin _ m e => leScaled m e (cmax4 t) ((n : Int) - 32)
      | _ => true))).getD 62

end Sys2Proof.Machine
end

