-- ==== Sys2Proof/Machine/CrossLane.lean ====
section
/-! DEFINITION. The cross-lane words (Table 6-6, R133 to R136): class S, results land later (R118). -/

namespace Sys2Proof.Machine

/-- Lane `i` of SA when the word issues. -/
def laneVal (c : Ctx) (r : Lane) (i : Nat) : Nat := readType c.w r.ty false r.sa.toNat i

/-- R134: the index operand, bits [31:0]. -/
def laneIndex (c : Ctx) (r : Lane) (l : Nat) : Nat := srcB c.w r .n32 l

/-- Every lane of EFF receives one value. -/
def crossWord (r : Lane) (s : State) (f : Ctx → Nat → Nat) : Out :=
  issue s (fun c => c.later s (dstRegs r.ty false r.dst.toNat)
    ((c.lanes r.h).flatMap (fun l => typeWrites r.ty false r.dst.toNat l (f c l))))

def execShfl (r : Lane) (s : State) : Out :=
  crossWord r s (fun c l => let i := laneIndex c r l; laneVal c r (if i < c.w.width then i else l))

def execShflx (r : Lane) (s : State) : Out :=
  crossWord r s (fun c l => let i := l ^^^ laneIndex c r l; laneVal c r (if i < c.w.width then i else l))

def execBcast (r : Lane) (s : State) : Out := crossWord r s (fun c _ => laneVal c r (r.sc.toNat % 64))

/-- R135: the operation of `REDV` and `SCANV`. -/
def redOp (op : AtomOp) (t : Ty) (a b : Nat) : Nat :=
  if t.isFloat then
    match op with
    | .min => minMax fmtF32 true a b
    | .max => minMax fmtF32 false a b
    | _ => roundFp fmtF32 .rne false (sumFp false [fmtF32.decode a, fmtF32.decode b])
  else match op with
    | .min => iMin t a b
    | .max => iMax t a b
    | .and => a &&& b
    | .or => a ||| b
    | .xor => a ^^^ b
    | _ => iAdd t a b

/-- R135: identities of inactive lanes. -/
def redId (op : AtomOp) (t : Ty) : Nat :=
  if t.isFloat then
    match op with
    | .min => fmtF32.infEnc
    | .max => fmtF32.withSign true fmtF32.infEnc
    | _ => fmtF32.withSign true 0
  else match op with
    | .min => wrap t (tyMax t)
    | .max => wrap t (tyMin t)
    | .and => 2 ^ t.bits - 1
    | _ => 0

/-- The values of the lanes, inactive ones replaced by the identity. -/
def redInput (c : Ctx) (op : AtomOp) (r : Lane) : List Nat :=
  (List.range c.w.width).map (fun i => if (c.eff r.h).getLsbD i then laneVal c r i else redId op r.ty)

/-- One level of the tree: neighbours combined. -/
def pairUp (f : Nat → Nat → Nat) : List Nat → List Nat
  | a :: b :: t => f a b :: pairUp f t
  | l => l

def treeRed (f : Nat → Nat → Nat) : Nat → List Nat → Nat
  | 0, l => l.headD 0
  | n + 1, l => if l.length ≤ 1 then l.headD 0 else treeRed f n (pairUp f l)

def execRedv (op : AtomOp) (r : Lane) (s : State) : Out :=
  crossWord r s (fun c _ => treeRed (redOp op r.ty) 6 (redInput c op r))

/-- R136: one step of the scan at distance `k`. -/
def scanStep (f : Nat → Nat → Nat) (k : Nat) (x : List Nat) : List Nat :=
  (List.range x.length).map (fun i => if i ≥ k then f (x.getD (i - k) 0) (x.getD i 0) else x.getD i 0)

/-- R64: a result that is a NaN is the canonical one. -/
def canonNan (t : Ty) (n : Nat) : Nat := if t.isFloat && fmtF32.isNan n then fmtF32.nan else n

def scanAll (f : Nat → Nat → Nat) : Nat → Nat → List Nat → List Nat
  | 0, _, x => x
  | n + 1, k, x => if k < x.length then scanAll f n (2 * k) (scanStep f k x) else x

def execScanv (op : AtomOp) (r : Lane) (s : State) : Out :=
  issue s (fun c =>
    let y := scanAll (redOp op r.ty) 6 1 (redInput c op r)
    c.later s (dstRegs r.ty false r.dst.toNat)
      ((c.lanes r.h).flatMap (fun l => typeWrites r.ty false r.dst.toNat l (canonNan r.ty (y.getD l 0)))))

def execVtos (r : Lane) (s : State) : Out :=
  issue s (fun c => c.later s [.s r.dst.toNat]
    (if c.any r.h then typeWrites r.ty true r.dst.toNat 0 (laneVal c r (r.sc.toNat % 64)) else []))

def execStov (r : Lane) (s : State) : Out :=
  issue s (fun c =>
    let k := r.sc.toNat % 64
    c.later s (dstRegs r.ty false r.dst.toNat)
      (if (c.eff r.h).getLsbD k then typeWrites r.ty false r.dst.toNat k (c.w.readS r.sb.toNat).toNat else []))

end Sys2Proof.Machine
end

