-- ==== Sys2Proof/Machine/Scratch.lean ====
section
/-! DEFINITION. The scratchpad and die-scratchpad words (08_scratchpad.md): their checks at issue, the queue of a wave's
words in issue order (R154), and what the banks do when they perform one. -/

namespace Sys2Proof.Machine

/-! ### Bytes -/

/-- The die scratchpad of a launch on a die (R170). -/
def Launch.dieScr (l : Launch) (die : Nat) : Tab Byte := if die = 0 then l.dieScr0 else l.dieScr1

/-- Bytes of a block's allocation, or of the die scratchpad of its launch. -/
def scrBytes (s : State) (serial block : Nat) (die : Bool) (a n : Nat) : List Byte :=
  match s.block serial block with
  | some b =>
    if die then (match s.launch serial with
      | some l => tgets 0 (l.dieScr (dieOf b.core)) a n
      | none => List.replicate n 0)
    else tgets 0 b.scratch a n
  | none => List.replicate n 0

def scrWrite (s : State) (serial block : Nat) (die : Bool) (a : Nat) (bs : List Byte) : State :=
  match s.block serial block with
  | some b =>
    if die then s.modLaunch serial (fun l =>
      if dieOf b.core = 0 then { l with dieScr0 := tputs 0 l.dieScr0 a bs } else { l with dieScr1 := tputs 0 l.dieScr1 a bs })
    else s.modBlock serial block (fun b => { b with scratch := tputs 0 b.scratch a bs })
  | none => s

def scrNat (s : State) (id : WaveId) (die : Bool) (a n : Nat) : Nat := ofLeBytes (scrBytes s id.serial id.block die a n)

/-- The allocation of a launch's blocks, in bytes. -/
def scratchOf (s : State) (serial : Nat) : Nat := ((s.launch serial).map (fun l => l.offer.kernel.scratch)).getD 0

/-! ### Checks at issue (R152, R153) -/

/-- The lanes that act: those of EFF, or one turn when the word acts once per wave. -/
def turnsOf (c : Ctx) (h : Hdr) (once : Bool) : List Nat := if once then (if c.any h then [0] else []) else c.lanes h

/-- A precise lane trap; a word that acts once per wave names no lanes. -/
def raiseAt (c : Ctx) (s : State) (code : Nat) (once : Bool) (bad : List (Nat × Int)) : State :=
  raiseLanes c s code (if once then [] else bad.map (fun p => p.1)) (BitVec.ofInt 64 ((bad.map (fun p => p.2)).headD 0))

/-- R152, R153: bounds, then alignment; answers the checked addresses or the trap's state. DEDUCED (log 21). -/
def checkSp (c : Ctx) (s : State) (once : Bool) (size n align : Nat) (at_ : List (Nat × Int))
    (ok : List (Nat × Nat) → State) : State :=
  let out := at_.filter (fun p => p.2 < 0 || (size : Int) < p.2 + n)
  let mis := at_.filter (fun p => p.2 % (align : Int) != 0)
  if !out.isEmpty then raiseAt c s cSPBOUND once out
  else if !mis.isEmpty then raiseAt c s cMISALIGN once mis
  else ok (at_.map (fun p => (p.1, p.2.toNat)))

/-- A scratchpad word enters the queue of its wave (R154); `dst` are the registers its result will write.
DESIGN CHOICE (log 20). -/
def spIssue (c : Ctx) (s : State) (kind : SpKind) (dst : List Reg) (pk : PendKind) (limit : Nat) (eff : Mask) : State :=
  c.done s (fun w =>
    let op : SpOp := { seq := s.tick, tag := s.tick, pc := c.sl.path.pc, start := c.w.cyc c.b.core s.tick, since := s.tick,
                       limit := limit, eff := eff, kind := kind }
    let w := { w with spq := w.spq ++ [op] }
    if dst.isEmpty then w else addPend w { tag := s.tick, kind := pk, dst := dst, writes := [], ready := false })

/-- Addresses of a memory-format word. -/
def memAddrs (c : Ctx) (m : Mem) (ls : List Nat) : List (Nat × Int) :=
  ls.map (fun l => (l, spAddr c.w m.ak m.sa.toNat l + m.off.toInt))

/-- Bytes that a register gives a store, by lane. -/
def storeBytes (c : Ctx) (t : Ty) (scal : Bool) (r l : Nat) : List Byte := leBytes (readType c.w t scal r l) t.size

/-- Lines of 128 bytes that accesses of `n` bytes touch. -/
def linesOf (at_ : List (Nat × Nat)) (n : Nat) : List Nat :=
  at_.foldl (fun ls p => (List.range ((p.2 + n - 1) / 128 + 1 - p.2 / 128)).foldl (fun ls i => insertNat (p.2 / 128 + i) ls) ls) []

/-! ### The words -/

/-- R159, R160. -/
def execLds (m : Mem) (s : State) : Out :=
  issue s (fun c =>
    let ls := turnsOf c m.h m.dk
    if ls.isEmpty then c.done s id
    else checkSp c s m.dk c.l.offer.kernel.scratch m.ty.size 1 (memAddrs c m ls) (fun at_ =>
      spIssue c s
        (.lds m.ty m.dk m.dst.toNat at_ (linesOf at_ m.ty.size)) (dstRegs m.ty m.dk m.dst.toNat) .other
        c.l.offer.kernel.fillLimit (c.eff m.h)))

def execSts (m : Mem) (s : State) : Out :=
  issue s (fun c =>
    let ls := turnsOf c m.h m.dk
    if ls.isEmpty then c.done s id
    else checkSp c s m.dk c.l.offer.kernel.scratch m.ty.size 1 (memAddrs c m ls) (fun at_ =>
      spIssue c s
        (.store false (at_.map (fun p => (p.1, p.2, storeBytes c m.ty m.dk m.dst.toNat p.1)))) [] .other 0 (c.eff m.h)))

/-- R314: the byte of the die scratchpad at which a word conflicts under the determinism flag; bytes of die `d` are
locations `2^43 + d·2^42 + offset`. DESIGN CHOICE (log 25). -/
def dieLoc (c : Ctx) (a : Nat) : Nat := 2 ^ 43 + dieOf c.b.core * 2 ^ 42 + a

/-- R314: DETCONFLICT of the word at the cursor; `name` gives what the word calls a location. DEDUCED (log 71): LANES. -/
def raiseConflict (c : Ctx) (s : State) (lanes : List Nat) (name : BitVec 64) (t : Touch) : State :=
  takeTrap c s { mkTrap c cDETCONFLICT aCALLER 0 (maskOf lanes) name with pc2 := t.pc, block2 := t.block }

/-- R313, R314: a word's touches under the determinism flag: the first lane whose bytes conflict traps; otherwise
all are recorded. `at_` lists lane, locations and the name of each location. -/
def detTouch (c : Ctx) (s : State) (once : Bool) (kind : Nat) (at_ : List (Nat × List (Nat × BitVec 64))) (ok : State → State) : State :=
  if !c.det then ok s
  else match at_.findSome? (fun p =>
      (findConflict c.l c.b c.id.block kind (p.2.map (fun x => x.1))).map (fun f => (p.1, ((tfind p.2 f.1).getD 0), f.2))) with
    | some (lane, name, t) => raiseConflict c s (if once then [] else [lane]) name t
    | none => ok (addTouches s c.id.serial c.id.block kind c.sl.path.pc.toNat (at_.flatMap (fun p => p.2.map (fun x => x.1))))

def dieTouches (c : Ctx) (n : Nat) (at_ : List (Nat × Nat)) : List (Nat × List (Nat × BitVec 64)) :=
  at_.map (fun p => (p.1, (List.range n).map (fun i => (dieLoc c (p.2 + i), BitVec.ofNat 64 (p.2 + i)))))

def execDlds (m : Mem) (s : State) : Out :=
  issue s (fun c =>
    let ls := turnsOf c m.h m.dk
    if ls.isEmpty then c.done s id
    else checkSp c s m.dk c.l.offer.kernel.diescratch m.ty.size 1 (memAddrs c m ls) (fun at_ =>
      detTouch c s m.dk 0 (dieTouches c m.ty.size at_) (fun s =>
        spIssue c s
          (.load true m.ty m.dk m.dst.toNat at_) (dstRegs m.ty m.dk m.dst.toNat) .die 0 (c.eff m.h))))

def execDsts (m : Mem) (s : State) : Out :=
  issue s (fun c =>
    let ls := turnsOf c m.h m.dk
    if ls.isEmpty then c.done s id
    else checkSp c s m.dk c.l.offer.kernel.diescratch m.ty.size 1 (memAddrs c m ls) (fun at_ =>
      detTouch c s m.dk 1 (dieTouches c m.ty.size at_) (fun s =>
        spIssue c s
          (.store true (at_.map (fun p => (p.1, p.2, storeBytes c m.ty m.dk m.dst.toNat p.1)))) [] .die 0 (c.eff m.h))))

/-- Addresses of a register-format scratchpad word. -/
def laneAddrs (c : Ctx) (r : Lane) : List (Nat × Int) :=
  (c.turns r).map (fun l => (l, spAddr c.w (r.form == .scal) r.sa.toNat l))

/-- R162. -/
def execAts (op : AtomOp) (r : Lane) (s : State) : Out :=
  issue s (fun c =>
    let once := r.form == .scal
    if (c.turns r).isEmpty then c.done s id
    else checkSp c s once c.l.offer.kernel.scratch r.ty.size r.ty.size (laneAddrs c r) (fun at_ =>
      spIssue c s
        (.ats op r.ty once r.dst.toNat (at_.map (fun p => (p.1, p.2, srcB c.w r r.ty p.1))))
        (dstRegs r.ty once r.dst.toNat) .other 0 (c.eff r.h)))

def execCass (r : Lane) (s : State) : Out :=
  issue s (fun c =>
    let once := r.form == .scal
    if (c.turns r).isEmpty then c.done s id
    else checkSp c s once c.l.offer.kernel.scratch r.ty.size r.ty.size (laneAddrs c r) (fun at_ =>
      spIssue c s
        (.cass r.ty once r.dst.toNat (at_.map (fun p => (p.1, p.2, srcB c.w r r.ty p.1, srcC c.w r r.ty p.1))))
        (dstRegs r.ty once r.dst.toNat) .other 0 (c.eff r.h)))

/-- R164, R165: a full/empty word over the lines its addresses name. -/
def feWord (h : Hdr) (scalar : Bool) (sa : BitVec 8) (s : State) (k : List (Nat × Nat) → SpKind) (dst : List Reg) : Out :=
  issue s (fun c =>
    let ls := turnsOf c h scalar
    if ls.isEmpty then c.done s id
    else checkSp c s scalar c.l.offer.kernel.scratch 1 4 (ls.map (fun l => (l, spAddr c.w scalar sa.toNat l))) (fun at_ =>
      spIssue c s (k (at_.map (fun p => (p.1, p.2 / 128)))) dst .other 0 (c.eff h)))

def execFeset (h : Hdr) (_keep : BitVec 3) (scalar : Bool) (sa : BitVec 8) (s : State) : Out :=
  feWord h scalar sa s (fun at_ => .feset at_) []

def execFeclr (h : Hdr) (_keep : BitVec 3) (scalar : Bool) (sa : BitVec 8) (s : State) : Out :=
  feWord h scalar sa s (fun at_ => .feclr at_) []

def execFeqry (h : Hdr) (_keep : BitVec 3) (scalar : Bool) (dst sa : BitVec 8) (s : State) : Out :=
  feWord h scalar sa s (fun at_ => .feqry scalar dst.toNat at_) [if scalar then .s dst.toNat else .m dst.toNat]

/-- R168: `QINIT` acts once per wave; its ring must lie in the allocation. -/
def execQinit (h : Hdr) (q : BitVec 4) (sa logc allow : BitVec 8) (s : State) : Out :=
  issue s (fun c =>
    if !c.any h then c.done s id
    else
      let cap := 2 ^ logc.toNat
      checkSp c s true c.l.offer.kernel.scratch (4 * cap) 4 [(0, (c.w.readS sa.toNat).toInt)] (fun at_ =>
        spIssue c s (.qinit q.toNat ((at_.map (fun p => p.2)).headD 0) cap allow.toNat) [] .other 0 (c.eff h)))

def execQpush (h : Hdr) (q : BitVec 4) (sa : BitVec 8) (lim : Lim 31) (s : State) : Out :=
  issue s (fun c =>
    if !c.any h then c.done s id
    else spIssue c s (.qpush q.toNat ((c.w.readS sa.toNat).extractLsb' 0 32)) [] .other (limVal c.l lim) (c.eff h))

def execQpop (h : Hdr) (dst : BitVec 8) (q : BitVec 4) (lim : Lim 31) (s : State) : Out :=
  issue s (fun c =>
    if !c.any h then c.done s id
    else spIssue c s (.qpop q.toNat dst.toNat) [.s dst.toNat] .other (limVal c.l lim) (c.eff h))

/-! ### Performing (R154, R157, R165, R168) -/

/-- The head of a wave's queue leaves it, its result complete. -/
def spDone (s : State) (id : WaveId) (tag : Nat) (ws : List RegWrite) : State :=
  s.modWave id (fun w => { w with spq := w.spq.tail }.pendWrite tag ws true)

/-- One lane of `ATS`. -/
def atsLane (op : AtomOp) (ty : Ty) (old b : Nat) : Nat :=
  match op with
  | .exch => b
  | _ => redOp op ty old b

/-- Lanes served in ascending order, each reading what the one before left. -/
def serveLanes (s : State) (id : WaveId) (ty : Ty) (f : Nat → Nat → Nat → Option Nat) :
    List (Nat × Nat × Nat × Nat) → State × List (Nat × Nat)
  | [] => (s, [])
  | (lane, a, b, d) :: t =>
    let old := scrNat s id false a ty.size
    let s := match f old b d with
      | some x => scrWrite s id.serial id.block false a (leBytes x ty.size)
      | none => s
    let r := serveLanes s id ty f t
    (r.1, (lane, old) :: r.2)

/-- Whether a waiting push or pop of a queue can complete (R168). -/
def canPush (b : Block) (w q : Nat) : Bool :=
  match tfind b.queues q with
  | some x => x.count < x.cap && tget 0 x.out w < x.allow
  | none => false
def canPop (b : Block) (q : Nat) : Bool :=
  match tfind b.queues q with
  | some x => 0 < x.count
  | none => false

/-- The waves of a block, with their numbers. -/
def wavesOf (s : State) (serial block : Nat) : List (WaveId × Wave) :=
  s.waves.filterMap (fun p =>
    if p.1 / 128 = bkey serial block then some ({ serial := serial, block := block, wave := p.1 % 128 }, p.2) else none)

/-- R168: no push (or pop) of the queue issued earlier could complete now. -/
def firstWaiter (s : State) (id : WaveId) (b : Block) (seq q : Nat) (push : Bool) : Bool :=
  (wavesOf s id.serial id.block).all (fun p =>
    p.2.spDead || match p.2.spq with
    | op :: _ =>
      (match op.kind with
        | .qpush q' _ => !(push && q' == q && op.seq < seq && canPush b (waveNo p.1 p.2) q)
        | .qpop q' _ => !(!push && q' == q && op.seq < seq && canPop b q)
        | _ => true)
    | [] => true)

/-- R157: under the determinism flag the words of a block are performed in the order of their turns. -/
def detFirst (s : State) (id : WaveId) (seq : Nat) : Bool :=
  match s.launch id.serial with
  | some l => !l.det || (wavesOf s id.serial id.block).all (fun p => p.2.spDead || p.2.spq.all (fun op => seq ≤ op.seq))
  | none => false

/-- The word at the head of a wave's queue, where the banks may perform it: one that has trapped stays there, and what
stands behind it is never performed (R344, R363). DESIGN CHOICE (log 20). -/
def spHead (s : State) (id : WaveId) : Option (Wave × Block × SpOp) :=
  match s.wave id, s.block id.serial id.block with
  | some w, some b =>
    (match w.spq with
      | op :: _ => if b.place == .resident && !w.spDead && detFirst s id op.seq then some (w, b, op) else none
      | [] => none)
  | _, _ => none

/-- A wait has not outlasted its limit. DEDUCED (log 18). -/
def inTime (w : Wave) (core tick start limit : Nat) : Bool := w.cyc core tick - start ≤ limit

/-- What a waiting word waits for has come about within its limit: as `met` tells, or as it stands now. -/
def metInTime (met : Option Bool) (holds now : Bool) : Bool := holds && met.getD now

/-! ### Parts of a word (R151, R153, R155)

The banks perform the access of lanes 0 to 31 and then that of lanes 32 to 63, each one aligned 64-byte unit at a time; a
full/empty word goes line by line. -/

/-- A part: the access, and the unit or line. -/
def spPart (half unit : Nat) : Nat := half * 2 ^ 40 + unit
def partHalf (p : Nat) : Nat := p / 2 ^ 40
def partUnit (p : Nat) : Nat := p % 2 ^ 40

/-- Lane, address and length of an access. -/
abbrev Span := Nat × Nat × Nat

/-- The units that `n` bytes from `a` touch. -/
def unitsOver (a n : Nat) : List Nat :=
  if n = 0 then [] else (List.range ((a + n - 1) / 64 + 1 - a / 64)).map (fun i => a / 64 + i)

def spanParts (xs : List Span) : List Nat :=
  xs.foldl (fun ps x => (unitsOver x.2.1 x.2.2).foldl (fun ps u => insertNat (spPart (x.1 / 32) u) ps) ps) []

/-- The last lane of an atomic that names the unit of an address. -/
def lastNaming (at_ : List (Nat × Nat)) (a : Nat) : Nat :=
  at_.foldl (fun n x => if x.2 / 64 = a / 64 then max n x.1 else n) 0

/-- R155, R162: the parts of an atomic, each by its first lane: the shortest runs of consecutive lanes such that the lanes that
name one unit stand in one run. Served run by run, all lanes act in ascending order and those of one unit together. -/
def groupParts (at_ : List (Nat × Nat)) : List Nat :=
  (at_.foldl (fun (r : List Nat × Nat) x =>
    if r.1.isEmpty || r.2 < x.1 then (r.1 ++ [x.1], lastNaming at_ x.2) else (r.1, max r.2 (lastNaming at_ x.2))) ([], 0)).1

/-- The lanes of the run that starts at lane `p`. -/
def runLanes {α : Type} (p : Nat) (starts : List Nat) (at_ : List (Nat × α)) : List (Nat × α) :=
  at_.filter (fun x => (starts.filter (fun l => l ≤ x.1)).getLast? == some p)

def lineParts (at_ : List (Nat × Nat)) : List Nat := at_.foldl (fun ps p => insertNat (spPart (p.1 / 32) p.2) ps) []

/-- Lane and address of each byte of some accesses that lies in a part. -/
def spanBytes (p : Nat) (xs : List Span) : List (Nat × Nat) :=
  xs.flatMap (fun x =>
    if x.1 / 32 = partHalf p then
      (List.range 64).filterMap (fun i =>
        let a := 64 * partUnit p + i
        if x.2.1 ≤ a && a < x.2.1 + x.2.2 then some (x.1, a) else none)
    else [])

/-- The bytes of a part read, under twice their address and the access. -/
def readPart (s : State) (id : WaveId) (die : Bool) (p : Nat) (xs : List Span) (got : Tab Byte) : Tab Byte :=
  (spanBytes p xs).foldl (fun t b => tput t (2 * b.2 + partHalf p) ((scrBytes s id.serial id.block die b.2 1).headD 0)) got

/-- What a lane of a word has read at an address. -/
def SpOp.bytes (op : SpOp) (lane a n : Nat) : List Byte := (List.range n).map (fun i => tget 0 op.got (2 * (a + i) + lane / 32))

/-- The head of a wave's queue replaced. -/
def setSpHead (s : State) (id : WaveId) (op : SpOp) : State := s.modWave id (fun w => { w with spq := op :: w.spq.tail })

/-- Of the parts of the earlier access, the one that the banks choose. DESIGN CHOICE (log 76). -/
def anyPart (s : State) (ps : List Nat) : Option Nat :=
  (ranked s.tick (ps.filter (fun p => partHalf p == partHalf (ps.headD 0)))).head?

/-- The next part of the word at the head of a wave's queue, which `pick` chooses among those left. `act` answers what the
word has read after a part, none where the part has trapped; `fin` ends the word. The state counts the bytes moved (R239). -/
def stepParts (s : State) (id : WaveId) (op : SpOp) (parts : List Nat) (pick : List Nat → Option Nat)
    (act : Nat → State × Option (Tab Byte)) (fin : State → SpOp → State) : State :=
  let ps := op.left.getD parts
  match pick ps with
  | none => fin s op
  | some p =>
    match act p with
    | (s, none) => s
    | (s, some got) =>
      let op := { op with left := some (ps.erase p), got := got }
      if (ps.erase p).isEmpty then fin s op else setSpHead s id op

/-! ### Errors of the die scratchpad (R170, R363) -/

/-- The 32-byte units of the carve-outs among the units that may hold an uncorrectable error. DEDUCED (log 77). -/
def dieUnit (serial die a : Nat) : Nat := 2 ^ 40 + (2 * serial + die) * 2 ^ 21 + a / 32

/-- A trap that a scratchpad word of a wave raises after it has issued: neither it nor the words behind it are performed.
DEDUCED (log 17). -/
def trapSp (s : State) (id : WaveId) (w : Wave) (b : Block) (op : SpOp) (t : Trap) : State :=
  addTrap (s.modWave id (fun w => { w with spDead := true })) id.serial
    { t with pc := op.pc.toNat, block := id.block, wave := waveNo id w, core := b.core, engine := w.engine }

/-- UNCORR of `DLDS` and `DSTS`: imprecise, with the allocation offset of the byte met. -/
def trapDie (s : State) (id : WaveId) (w : Wave) (b : Block) (op : SpOp) (a : Nat) : State :=
  trapSp s id w b op
    { code := cUNCORR, attr := aMACHINE, construct := 0, pc := 0, pc2 := noPc, block := 0, block2 := noPc, wave := 0, core := 0,
      engine := 0, lanes := 0, value := BitVec.ofNat 64 a }

/-! ### The plain words -/

/-- The accesses of a plain load or store. -/
def SpKind.spans : SpKind → List Span
  | .load _ ty _ _ at_ => at_.map (fun p => (p.1, p.2, ty.size))
  | .lds ty _ _ at_ _ => at_.map (fun p => (p.1, p.2, ty.size))
  | .store _ at_ => at_.map (fun p => (p.1, p.2.1, p.2.2.length))
  | _ => []

/-- R162: the runs of lanes of an atomic are served in their order; the parts of other words as the banks choose. -/
def plainPick (s : State) (k : SpKind) : List Nat → Option Nat :=
  match k with
  | .ats _ _ _ _ _ => List.head?
  | .cass _ _ _ _ => List.head?
  | _ => anyPart s

def plainParts (k : SpKind) : List Nat :=
  match k with
  | .ats _ _ _ _ at_ => groupParts (at_.map (fun p => (p.1, p.2.1)))
  | .cass _ _ _ at_ => groupParts (at_.map (fun p => (p.1, p.2.1)))
  | .feset at_ => lineParts at_
  | .feclr at_ => lineParts at_
  | .feqry _ _ at_ => lineParts at_
  | k => spanParts k.spans

/-- Table 12-4: the bytes that a part of a plain load or store counts. -/
def countPart (s : State) (serial : Nat) (die : Bool) (p : Nat) (xs : List Span) : State :=
  if die then
    addBytes s serial 1 ((xs.filter (fun x => x.1 / 32 == partHalf p && x.2.1 / 64 == partUnit p)).foldl (fun n x => n + devBytesOf x.2.2) 0)
  else addBytes s serial 0 (spanBytes p xs).length

/-- R156: of the bytes of a part of a store, those that no higher lane of the word writes, with their values. -/
def storePart (p : Nat) (at_ : List (Nat × Nat × List Byte)) : List (Nat × Byte) :=
  at_.flatMap (fun x => ((spanBytes p [(x.1, x.2.1, x.2.2.length)]).filter (fun b =>
    !at_.any (fun y => x.1 < y.1 && y.2.1 ≤ b.2 && b.2 < y.2.1 + y.2.2.length))).map (fun b => (b.2, x.2.2.getD (b.2 - x.2.1) 0)))

/-- R160: every line that an `LDS` touches is full. -/
def fullLines (b : Block) (lines : List Nat) : Bool := lines.all (fun k => !b.fe.contains k)

/-- R160: the `LDS` words of a block, by their `seq`, that find `full` filled when their limit has passed. -/
def lateFills (s : State) (serial block : Nat) (b : Block) (full : List Nat) : List Nat :=
  (wavesOf s serial block).flatMap (fun p => p.2.spq.filterMap (fun op =>
    match op.kind with
    | .lds _ _ _ _ lines =>
      if lines.any (fun k => full.contains k && b.fe.contains k) && !inTime p.2 b.core s.tick op.start op.limit then some op.seq
      else none
    | _ => none))

/-- The lines `full` become full (R163, R257). -/
def fillLines (s : State) (serial block : Nat) (full : List Nat) : State :=
  s.modBlock serial block (fun b =>
    { b with fe := b.fe.filter (fun k => !full.contains k), late := lateFills s serial block b full ++ b.late })

/-- R160: every line that the load touches is full and none was filled past its limit. A load whose lines nothing emptied
never waits, whatever its limit. -/
def filled (b : Block) (op : SpOp) (lines : List Nat) : Bool := fullLines b lines && !b.late.contains op.seq

/-- R160, R165: the banks have begun the load, its wait has completed, or it need not wait. -/
def fillDone (b : Block) (op : SpOp) (lines : List Nat) : Bool := op.left.isSome || op.met == some true || filled b op lines

/-- R165: a load of the block whose wait has completed, or that the banks have begun, has yet to read one of these lines. -/
def readsNow (s : State) (serial block : Nat) (at_ : List (Nat × Nat)) : Bool :=
  (wavesOf s serial block).any (fun p => match spHead s p.1 with
    | some (_, _, op) => (match op.kind with
      | .lds _ _ _ _ lines => (op.met == some true || op.left.isSome) && at_.any (fun x => lines.contains x.2)
      | _ => false)
    | none => false)

/-- The old values of the lanes of an atomic, under eight times the lane. -/
def keepOld (n : Nat) (olds : List (Nat × Nat)) (got : Tab Byte) : Tab Byte :=
  olds.foldl (fun t p => tputs 0 t (8 * p.1) (leBytes p.2 n)) got

/-- One part of a plain word. -/
def plainPart (s : State) (id : WaveId) (w : Wave) (b : Block) (op : SpOp) (p : Nat) : State × Option (Tab Byte) :=
  let xs := op.kind.spans
  let here {α : Type} (at_ : List (Nat × Nat × α)) := runLanes p (plainParts op.kind) at_
  let lines (at_ : List (Nat × Nat)) := at_.filter (fun x => x.1 / 32 == partHalf p && x.2 == partUnit p)
  let met (die : Bool) := if die then (spanBytes p xs).find? (fun x => s.bad.contains (dieUnit id.serial (dieOf b.core) x.2)) else none
  match op.kind with
  | .load die _ _ _ _ => (match met die with
    | some x => (trapDie s id w b op x.2, none)
    | none => (countPart s id.serial die p xs, some (readPart s id die p xs op.got)))
  | .lds _ _ _ _ _ => (countPart s id.serial false p xs, some (readPart s id false p xs op.got))
  | .store die at_ => (match met die with
    | some x => (trapDie s id w b op x.2, none)
    | none =>
      let s := (storePart p at_).foldl (fun s x => scrWrite s id.serial id.block die x.1 [x.2]) (countPart s id.serial die p xs)
      (if die then endRelaunch s id.serial id.block else s, some op.got))
  | .ats o ty _ _ at_ =>
    let r := serveLanes s id ty (fun old b _ => some (atsLane o ty old b)) ((here at_).map (fun x => (x.1, x.2.1, x.2.2, 0)))
    (addBytes r.1 id.serial 0 (ty.size * r.2.length), some (keepOld ty.size r.2 op.got))
  | .cass ty _ _ at_ =>
    let r := serveLanes s id ty (fun old b d => if old = b then some d else none) (here at_)
    (addBytes r.1 id.serial 0 (ty.size * r.2.length), some (keepOld ty.size r.2 op.got))
  | .feset _ => (fillLines s id.serial id.block [partUnit p], some op.got)
  | .feclr _ => (s.modBlock id.serial id.block (fun b => { b with fe := insertNat (partUnit p) b.fe }), some op.got)
  | .feqry _ _ at_ =>
    (s, some ((lines at_).foldl (fun t x => tput t x.1 (if b.fe.contains x.2 then 0 else 1)) op.got))
  | _ => (s, some op.got)

/-- The result of a plain word whose parts are all performed. -/
def plainWrites (op : SpOp) : List RegWrite :=
  match op.kind with
  | .load _ ty dk dst at_ => at_.flatMap (fun p => typeWrites ty dk dst p.1 (ofLeBytes (op.bytes p.1 p.2 ty.size)))
  | .lds ty dk dst at_ _ => at_.flatMap (fun p => typeWrites ty dk dst p.1 (ofLeBytes (op.bytes p.1 p.2 ty.size)))
  | .ats _ ty scal dst at_ => at_.flatMap (fun p => typeWrites ty scal dst p.1 (ofLeBytes (tgets 0 op.got (8 * p.1) ty.size)))
  | .cass ty scal dst at_ => at_.flatMap (fun p => typeWrites ty scal dst p.1 (ofLeBytes (tgets 0 op.got (8 * p.1) ty.size)))
  | .feqry scal dst at_ =>
    let full (l : Nat) : Bool := tget 0 op.got l == 1
    if scal then at_.map (fun p => .s dst (if full p.1 then 1 else 0))
    else [.m dst (maskOf (at_.map (fun p => p.1))) (maskOf ((at_.filter (fun p => full p.1)).map (fun p => p.1)))]
  | _ => []

def plainEnd (s : State) (id : WaveId) (op : SpOp) : State :=
  match op.kind with
  | .qinit q base cap allow =>
    spDone (s.modBlock id.serial id.block (fun b => { b with queues := tput b.queues q { base := base, cap := cap, allow := allow } })) id op.tag []
  | _ => spDone s id op.tag (plainWrites op)

/-- The plain scratchpad words as the banks perform them; those of the matrix unit and of sweeps are performed by
the operations of their own files. An `LDS` waits for its lines, and a `FECLR` for the loads that read its lines now (R165).
DEDUCED (log 18). -/
def performPlain (s : State) (id : WaveId) : State :=
  match spHead s id with
  | some (w, b, op) =>
    let waits : Bool := match op.kind with | .lds _ _ _ _ lines => !fillDone b op lines | .feclr at_ => readsNow s id.serial id.block at_ | _ => false
    if waits then s else stepParts s id op (plainParts op.kind) (plainPick s op.kind) (plainPart s id w b op) (fun s op => plainEnd s id op)
  | none => s

/-! ### Queues (R166, R168) -/

/-- What a push or pop at the head of its wave's queue waits for stands now. -/
def queueReady (s : State) (id : WaveId) (w : Wave) (b : Block) (op : SpOp) : Bool :=
  match op.kind with
  | .qpush q _ => canPush b (waveNo id w) q && firstWaiter s id b op.seq q true
  | .qpop q _ => canPop b q && firstWaiter s id b op.seq q false
  | _ => false

/-- R168: and has come about within its limit. -/
def queueMet (s : State) (id : WaveId) (w : Wave) (b : Block) (op : SpOp) : Bool :=
  metInTime op.met (queueReady s id w b op) (inTime w b.core s.tick op.start op.limit)

/-- R168: the push is performed. -/
def performPush (s : State) (id : WaveId) : State :=
  match spHead s id with
  | some (w, b, op) =>
    (match op.kind with
      | .qpush q h =>
        (match tfind b.queues q with
          | some x =>
            let me := waveNo id w
            if queueMet s id w b op then
              let s := scrWrite (addBytes s id.serial 0 4) id.serial id.block false (x.base + 4 * (x.tail % x.cap)) (leBytes h.toNat 4)
              let x := { x with tail := x.tail + 1, count := x.count + 1, tags := x.tags ++ [me], out := tset 0 x.out me (tget 0 x.out me + 1) }
              spDone (s.modBlock id.serial id.block (fun b => { b with queues := tput b.queues q x })) id op.tag []
            else s
          | none => s)
      | _ => s)
  | none => s

def performPop (s : State) (id : WaveId) : State :=
  match spHead s id with
  | some (w, b, op) =>
    (match op.kind with
      | .qpop q dst =>
        (match tfind b.queues q with
          | some x =>
            if queueMet s id w b op then
              let v := scrNat s id false (x.base + 4 * (x.head % x.cap)) 4
              let from_ := x.tags.headD 0
              let x := { x with head := x.head + 1, count := x.count - 1, tags := x.tags.tail, out := tset 0 x.out from_ (tget 0 x.out from_ - 1) }
              spDone ((addBytes s id.serial 0 4).modBlock id.serial id.block (fun b => { b with queues := tput b.queues q x })) id op.tag
                [.s dst (BitVec.ofNat 64 v)]
            else s
          | none => s)
      | _ => s)
  | none => s

/-- LDS_FILL_COMPLETE (R160). -/
def execLdsFillComplete (w : WaveId) (s : State) : Out :=
  .next (match spHead s w with
    | some (_, _, op) => (match op.kind with | .lds _ _ _ _ _ => performPlain s w | _ => s)
    | none => s)

def execQpushComplete (w : WaveId) (s : State) : Out := .next (performPush s w)
def execQpopComplete (w : WaveId) (s : State) : Out := .next (performPop s w)

/-! ### Limits -/

/-- LIMIT of a waiting scratchpad word, with its attribution (R241). R160 names the limit and the program counter of an
`LDS`; its record names no lanes. DESIGN CHOICE (log 100). -/
def trapSpLimit (s : State) (id : WaveId) (w : Wave) (b : Block) (op : SpOp) (construct : Nat) : State :=
  match s.launch id.serial with
  | some l =>
    let t : Trap :=
      { code := cLIMIT, attr := waitAttr l op.since, construct := construct, pc := 0, pc2 := noPc, block := 0, block2 := noPc,
        wave := 0, core := 0, engine := 0, lanes := 0, value := BitVec.ofNat 64 op.limit }
    trapSp s id w b op t
  | none => s

/-- FILL_LIMIT_EXPIRY (R160): the wait has run past the limit. -/
def execFillLimitExpiry (w : WaveId) (s : State) : Out :=
  match spHead s w with
  | some (x, b, op) =>
    (match op.kind with
      | .lds _ _ _ _ lines =>
        if !inTime x b.core s.tick op.start op.limit && !fillDone b op lines then .next (trapSpLimit s w x b op kFILL) else .next s
      | _ => .next s)
  | none => .next s

end Sys2Proof.Machine
end

