-- ==== Sys2Proof/Machine/DeviceMem.lean ====
section
/-! DEFINITION. The device and host memory words (09_device_memory.md): translation before any lane acts, requests under
way, and what happens when a request is performed. -/

namespace Sys2Proof.Machine

/-- A word whose outcome may be a fault of the model. -/
def issueOut (s : State) (f : Ctx → Out) : Out :=
  match s.issuer with
  | some c => f c
  | none => .refused .noIssuer

/-- One lane's access: lane, device address, translation of each byte. -/
abbrev LaneAcc := Nat × BitVec 64 × List Xl

def Ctx.mapping (c : Ctx) (s : State) : Mapping := (s.part c.l.offer.part).map

def devAccess (c : Ctx) (s : State) (n : Nat) (k : Acc) (at_ : List (Nat × BitVec 64)) : List LaneAcc :=
  at_.map (fun p => (p.1, p.2, access s (c.mapping s) p.2 n k))

/-- R180, R188: every lane is translated before any acts; a fault carries the mask of the lanes that failed and the
code, attribution and address of the lowest, and no lane where the word acts once. A translation beyond a tier's capacity
stops the model. DEDUCED (log 21). -/
def checkDev (c : Ctx) (s : State) (once : Bool) (accs : List LaneAcc) (ok : State → Out) : Out :=
  let bad := accs.filterMap (fun a => (firstBad a.2.2).map (fun e => (a.1, a.2.1, e)))
  match bad with
  | (_, addr, code, attr) :: _ => .next (raise c s code attr 0 (if once then 0 else maskOf (bad.map (fun b => b.1))) addr)
  | [] => if accs.any (fun a => (locsOf a.2.2).any absent) then .fault .absentMemory else ok s

/-- Locations of a lane with the device address of each. -/
def accTouches (a : LaneAcc) : Nat × List (Nat × BitVec 64) :=
  (a.1, (touched a.2.2).zipIdx.map (fun p => (p.1, a.2.1 + BitVec.ofNat 64 p.2)))

/-- Table 12-4: bytes of each lane counted to the tier that it reaches. -/
def countDev (s : State) (serial : Nat) (t : Ty) (accs : List LaneAcc) : State :=
  accs.foldl (fun s a => addBytes s serial (match a.2.2 with | .at_ loc :: _ => tierOf s loc | _ => 4) (devBytes t)) s

/-- R183: the tracker counts the accesses of a partition. -/
def countHot (s : State) (part : Nat) (accs : List LaneAcc) : State :=
  accs.foldl (fun s a => countAccess s part (locsOf a.2.2)) s

def memDevAddrs (c : Ctx) (m : Mem) (ls : List Nat) : List (Nat × BitVec 64) :=
  ls.map (fun l => (l, devAddr c.w m.ak m.sa.toNat l + m.off.signExtend 64))

def mkReq (c : Ctx) (s : State) (a : LaneAcc) (k : ReqKind) : Req :=
  { seq := s.tick, tag := s.tick, lane := a.1, pc := c.sl.path.pc, addr := a.2.1, kind := k, after := c.w.barrier }

/-- Requests of a word join the wave's list; the scoreboard holds `dst`. -/
def Ctx.request (c : Ctx) (s : State) (pk : PendKind) (dst : List Reg) (rs : List Req) : State :=
  c.done s (fun w =>
    let w := { w with reqs := w.reqs ++ rs }
    if dst.isEmpty then w else addPend w { tag := s.tick, kind := pk, dst := dst, writes := [], ready := false })

/-- UNCORR of a word of a wave: imprecise, attributed to MACHINE, naming the device address and the word's PC (R176). -/
def uncorr (s : State) (id : WaveId) (w : Wave) (core pc : Nat) (addr : BitVec 64) : State :=
  addTrap s id.serial
    { code := cUNCORR, attr := aMACHINE, construct := 0, pc := pc, pc2 := noPc, block := id.block, block2 := noPc,
      wave := waveNo id w, core := core, engine := w.engine, lanes := 0, value := addr }

/-- PROT of a word of a wave whose request reaches, as it acts, a frame that an accepted launch has locked since (R61,
R244). DEDUCED (log 80). -/
def lockedOut (s : State) (id : WaveId) (w : Wave) (core pc : Nat) (addr : BitVec 64) : State :=
  addTrap s id.serial
    { code := cPROT, attr := aCALLER, construct := 0, pc := pc, pc2 := noPc, block := id.block, block2 := noPc,
      wave := waveNo id w, core := core, engine := w.engine, lanes := 0, value := addr }

/-- The home bytes of a stable read that are not served by a store set or by the view, in a unit with an error. -/
def stableBad (s : State) (key : Nat) (locs : List Nat) : Option Nat :=
  (List.range locs.length).find? (fun i =>
    let loc := locs.getD i 0
    badUnit s loc && !(freshLocs s key [loc]).isEmpty)

/-- A lane's stable read (R195, R200, R176): register writes, or the index of the byte in error. -/
def readStable (s : State) (key : Nat) (locs : List Nat) (ty : Ty) (dk : Bool) (dst lane : Nat) : State × (Nat ⊕ List RegWrite) :=
  match stableBad s key locs with
  | some i => (s, .inl i)
  | none => let r := stableLane s key locs; (r.1, .inr (typeWrites ty dk dst lane (ofLeBytes r.2)))

/-- R188: loads. Under the determinism flag a stable load reads as its turn comes; otherwise the read is performed
when the result is written. -/
def execLdg (home : Bool) (m : Mem) (s : State) : Out :=
  issueOut s (fun c =>
    let ls := turnsOf c m.h m.dk
    if ls.isEmpty then .next (c.done s id)
    else
      let accs := devAccess c s m.ty.size .load (memDevAddrs c m ls)
      checkDev c s m.dk accs (fun s => .next (
        detTouch c s m.dk 0 (accs.map accTouches) (fun s =>
          let s := countHot (countDev s c.id.serial m.ty accs) c.l.offer.part accs
          let dst := dstRegs m.ty m.dk m.dst.toNat
          if c.det && !home then
            let r := accs.foldl (fun (acc : State × List RegWrite) a =>
                match readStable acc.1 c.key (locsOf a.2.2) m.ty m.dk m.dst.toNat a.1 with
                | (s, .inl i) => (uncorr s c.id c.w c.b.core c.sl.path.pc.toNat (a.2.1 + BitVec.ofNat 64 i), acc.2)
                | (s, .inr ws) => (s, acc.2 ++ ws)) (s, [])
            c.done r.1 (fun w => addPend w { tag := s.tick, kind := .dev, dst := dst, writes := r.2, ready := true })
          else
            c.request s .dev dst (accs.map (fun a => mkReq c s a
              (if home then .home (locsOf a.2.2) [] m.ty m.dk m.dst.toNat else .stable (locsOf a.2.2) m.ty m.dk m.dst.toNat)))))))

/-- R188, R195: a store is on its way to the store set; under the determinism flag it is staged at its turn (R312). -/
def execStg (m : Mem) (s : State) : Out :=
  issueOut s (fun c =>
    let ls := turnsOf c m.h m.dk
    if ls.isEmpty then .next (c.done s id)
    else
      let accs := devAccess c s m.ty.size .store (memDevAddrs c m ls)
      checkDev c s m.dk accs (fun s => .next (
        detTouch c s m.dk 1 (accs.map accTouches) (fun s =>
          let s := countHot (countDev s c.id.serial m.ty accs) c.l.offer.part accs
          let bytes := accs.flatMap (fun a =>
            (accTouches a).2.zipIdx.map (fun p => (p.1.1, (storeBytes c m.ty m.dk m.dst.toNat a.1).getD p.2 0, p.1.2)))
          if c.det then
            c.done { s with sets := tput s.sets c.key (StoreSet.enter (tget {} s.sets c.key) c.id.block bytes) } id
          else
            c.request s .dev [] [{ seq := s.tick, tag := s.tick, lane := 0, pc := c.sl.path.pc, addr := 0, after := c.w.barrier, kind := .stg bytes }]))))

/-! ### Host memory (R185) -/

/-- One byte of a host bus address through the partition's windows. -/
def hostByte (m : Mapping) (wr : Bool) (a : Nat) : Option Nat ⊕ Nat :=
  match m.hwins.find? (fun p => p.2.perm.getLsbD 0 && p.2.base.toNat ≤ a && a < p.2.base.toNat + 4096 * p.2.len.toNat) with
  | some (_, h) => if h.perm.getLsbD (if wr then 2 else 1) then .inr (h.target.toNat + (a - h.base.toNat)) else .inl (some cPROT)
  | none => .inl (some cXLATE)

/-- DESIGN CHOICE (log 22). -/
def hostAccess (m : Mapping) (wr : Bool) (a : BitVec 64) (n : Nat) : List (Option Nat ⊕ Nat) :=
  (List.range n).map (fun i => hostByte m wr (a + BitVec.ofNat 64 i).toNat)

def hostBad (xs : List (Option Nat ⊕ Nat)) : Option Nat := xs.findSome? (fun x => match x with | .inl c => c | .inr _ => none)
def hostAddrs (xs : List (Option Nat ⊕ Nat)) : List Nat := xs.filterMap (fun x => match x with | .inr a => some a | .inl _ => none)

/-- The lanes of a host word checked together. -/
def checkHost (c : Ctx) (s : State) (once : Bool) (accs : List (Nat × BitVec 64 × List (Option Nat ⊕ Nat))) (ok : State) : State :=
  let bad := accs.filterMap (fun a => (hostBad a.2.2).map (fun e => (a.1, a.2.1, e)))
  match bad with
  | (_, addr, code) :: _ => raise c s code aCALLER 0 (if once then 0 else maskOf (bad.map (fun b => b.1))) addr
  | [] => ok

def hostBytes (t : Ty) : Nat := if t.size ≥ 2 then 16 else 8

def execLdh (m : Mem) (s : State) : Out :=
  issue s (fun c =>
    let ls := turnsOf c m.h m.dk
    if ls.isEmpty then c.done s id
    else
      let accs := (memDevAddrs c m ls).map (fun p => (p.1, p.2, hostAccess (c.mapping s) false p.2 m.ty.size))
      checkHost c s m.dk accs
        (c.request (addBytes s c.id.serial 3 (hostBytes m.ty * accs.length)) .host (dstRegs m.ty m.dk m.dst.toNat)
          (accs.map (fun a => { seq := s.tick, tag := s.tick, lane := a.1, pc := c.sl.path.pc, addr := a.2.1,
                                kind := .ldh (hostAddrs a.2.2) m.ty m.dk m.dst.toNat }))))

/-- Posted writes: handed to the host link as the word issues, in lane order. DESIGN CHOICE (log 22). -/
def execSth (m : Mem) (s : State) : Out :=
  issue s (fun c =>
    let ls := turnsOf c m.h m.dk
    if ls.isEmpty then c.done s id
    else
      let accs := (memDevAddrs c m ls).map (fun p => (p.1, p.2, hostAccess (c.mapping s) true p.2 m.ty.size))
      let mem := accs.foldl (fun t a =>
        ((hostAddrs a.2.2).zip (storeBytes c m.ty m.dk m.dst.toNat a.1)).foldl (fun t p => tset 0 t p.1 p.2) t) s.hostMem
      checkHost c s m.dk accs
        (c.done (addBytes { s with hostMem := mem } c.id.serial 3 (hostBytes m.ty * accs.length)) (fun w =>
          { w with sths := w.sths + 1 })))

/-- R189: no program-visible state and no trap. -/
def execPfg (_m : Mem) (s : State) : Out := issue s (fun c => c.done s id)

/-- A lane of a pending result that the host has answered with an error. -/
def Wave.pendBad (w : Wave) (tag lane : Nat) (addr : BitVec 64) : Wave :=
  { w with pend := w.pend.map (fun p => if p.tag = tag then { p with bad := p.bad ++ [(lane, addr)] } else p) }

/-- The lanes of a pending result so answered, lowest first. -/
def Wave.badLanes (w : Wave) (tag : Nat) : Tab (BitVec 64) :=
  (w.pend.filter (fun p => p.tag == tag)).foldl (fun t p => p.bad.foldl (fun t b => tput t b.1 b.2) t) []

/-- XLATE of an `LDH` whose host read ended in an error (R185): precise, of the lanes so answered and the address of the
lowest (R364); one that acts once names no lane. DEDUCED (log 21). -/
def hostTrap (id : WaveId) (w : Wave) (core : Nat) (pc : BitVec 32) (once : Bool) (bad : Tab (BitVec 64)) : Trap :=
  { code := cXLATE, attr := aHOST, construct := 0, pc := pc.toNat, pc2 := noPc, block := id.block, block2 := noPc,
    wave := waveNo id w, core := core, engine := w.engine, lanes := if once then 0 else maskOf (bad.map (fun b => b.1)),
    value := (bad.map (fun b => b.2)).headD 0 }

/-- LDH_COMPLETION (R185): the host answers the wave's request `k`, with an error, or byte by byte: a byte that the host has
written, or its memory's byte as the device's posted writes left it. With the word's last lane its result is complete;
where a lane met an error the word traps and writes nothing. DESIGN CHOICE (log 22). -/
def execLdhCompletion (w : WaveId) (k : Nat) (data : Option (List (Option Byte))) (s : State) : Out :=
  match s.wave w, s.block w.serial w.block with
  | some x, some b =>
    (match x.reqs[k]? with
      | some r =>
        (match r.kind with
          | .ldh addrs ty dk dst =>
            let x := { x with reqs := x.reqs.eraseIdx k }
            let new : List (Option Byte) := (List.range ty.size).map (fun i => (data.getD []).getD i none)
            let mem := (addrs.zip new).foldl (fun t p => match p.2 with | some b => tset 0 t p.1 b | none => t) s.hostMem
            let x := match data with
              | some _ => x.pendWrite r.tag (typeWrites ty dk dst r.lane (ofLeBytes (addrs.map (tget 0 mem)))) false
              | none => x.pendBad r.tag r.lane r.addr
            let s := { s with hostMem := mem }
            if x.reqs.any (fun q => q.tag == r.tag) then .next (s.setWave w x)
            else if (x.badLanes r.tag).isEmpty then .next (s.setWave w (x.pendWrite r.tag [] true))
            else .next (addTrap (s.setWave w x) w.serial (hostTrap w x b.core r.pc dk (x.badLanes r.tag)))
          | _ => .next s)
      | none => .next s)
  | _, _ => .next s

/-! ### Global atomics (R190 to R193) -/

/-- Touch kind of a `REDG` (R313): its operation and type. -/
def redKind (op : AtomOp) (t : Ty) : Nat := 2 + 16 * op.code.toNat + t.code.toNat

/-- R193: the remote lanes of a word, device by device, in requests of at most eight records. -/
def chunks8 {α : Type} : Nat → List α → List (List α)
  | 0, _ => []
  | n + 1, l => if l.isEmpty then [] else l.take 8 :: chunks8 n (l.drop 8)

/-- The remote lanes of an atomic: lane, device address, device, its address there, the two operands. -/
abbrev FarLane := Nat × BitVec 64 × Nat × Nat × Nat × Nat

/-- Sends the AREQ flits of a word; answers the requests that wait for their responses. -/
def sendAtomics (s : State) (pc : BitVec 32) (opc : Nat) (ty : Ty) (scal : Bool) (dst : Option Nat) (rs : List FarLane) : State × List Req :=
  let devs := rs.foldl (fun ds r => insertNat r.2.2.1 ds) []
  devs.foldl (fun acc d =>
    (chunks8 64 (rs.filter (fun r => r.2.2.1 == d))).foldl (fun (acc : State × List Req) g =>
      let tag := acc.1.flitTags
      let s := { acc.1 with flitTags := tag + 1 }
      let s := sendFlit s d 1 0 (areqPayload tag opc ty.code.toNat dst.isSome (g.map (fun r => (r.2.2.2.1, r.2.2.2.2.1, r.2.2.2.2.2))))
      (s, acc.2 ++ g.zipIdx.map (fun p =>
        { seq := 0, tag := 0, lane := p.1.1, pc := pc, addr := p.1.2.1,
          kind := .remote d tag p.2 ty scal dst }))) acc) (s, [])

/-- `LDG.H` and atomic requests, which take points in H (R202). -/
def atHome (r : Req) : Bool :=
  match r.kind with
  | .home _ _ _ _ _ => true | .atom _ _ _ _ _ _ _ => true | .remote _ _ _ _ _ _ => true | .far _ _ _ _ _ _ _ _ => true
  | _ => false

/-- R202: a remote atomic of the wave that issues now must wait: an earlier request to home is still under way, from before
the wave's last `PHASE`, `RFSH` or acquiring wait, or an earlier remote atomic waits itself. -/
def Wave.farWaits (w : Wave) : Bool :=
  w.reqs.any (fun q => (atHome q && q.seq < w.barrier) || (match q.kind with | .far _ _ _ _ _ _ _ _ => true | _ => false))

/-- A global atomic: operation code 7 is compare and swap. `b` and `cc` give a lane's operands. -/
def atomWord (r : Lane) (s : State) (opc : Nat) (ret : Bool) (b cc : Ctx → Nat → Nat) : Out :=
  issueOut s (fun c =>
    let once := r.form == .scal
    let ls := c.turns r
    if ls.isEmpty then .next (c.done s id)
    else
      let at_ := ls.map (fun l => (l, devAddr c.w once r.sa.toNat l))
      let accs := devAccess c s r.ty.size .atomic at_
      checkDev c s once accs (fun s =>
        let mis := at_.filter (fun p => p.2.toNat % r.ty.size != 0)
        if !mis.isEmpty then
          .next (raiseLanes c s cMISALIGN (if once then [] else mis.map (fun p => p.1)) ((mis.map (fun p => p.2)).headD 0))
        else
          let s := endRelaunch (countHot (countDev s c.id.serial r.ty accs) c.l.offer.part accs) c.id.serial c.id.block
          let dst := if ret then some r.dst.toNat else none
          let local_ := accs.filter (fun a => (locsOf a.2.2).length == r.ty.size)
          let far := accs.filterMap (fun a => match a.2.2 with
            | .remote d x :: _ => some (a.1, a.2.1, d, x, b c a.1, cc c a.1)
            | _ => none)
          let out : State × List Req :=
            if c.w.farWaits then (s, far.map (fun a =>
              { seq := 0, tag := 0, lane := a.1, pc := c.sl.path.pc, addr := a.2.1, kind := .far a.2.2.1 a.2.2.2.1 opc r.ty once dst a.2.2.2.2.1 a.2.2.2.2.2 }))
            else sendAtomics s c.sl.path.pc opc r.ty once dst far
          let reqs := local_.map (fun a => mkReq c s a (.atom opc (locsOf a.2.2) r.ty once dst (b c a.1) (cc c a.1))) ++
            out.2.map (fun q => { q with seq := s.tick, tag := s.tick, after := c.w.barrier })
          .next (c.request out.1 .dev (if ret then dstRegs r.ty once r.dst.toNat else []) reqs)))

def execAtg (op : AtomOp) (r : Lane) (s : State) : Out :=
  atomWord r s op.code.toNat true (fun c l => srcB c.w r r.ty l) (fun _ _ => 0)

def execCasg (r : Lane) (s : State) : Out :=
  atomWord r s 7 true (fun c l => srcC c.w r r.ty l) (fun c l => srcB c.w r r.ty l)

/-- R312: under the determinism flag a `REDG` is staged with the block's set. -/
def stageRedg (op : AtomOp) (r : Lane) (s : State) : Out :=
  issueOut s (fun c =>
    let once := r.form == .scal
    let ls := c.turns r
    if ls.isEmpty then .next (c.done s id)
    else
      let at_ := ls.map (fun l => (l, devAddr c.w once r.sa.toNat l))
      let accs := devAccess c s r.ty.size .atomic at_
      checkDev c s once accs (fun s =>
        let mis := at_.filter (fun p => p.2.toNat % r.ty.size != 0)
        if !mis.isEmpty then
          .next (raiseLanes c s cMISALIGN (if once then [] else mis.map (fun p => p.1)) ((mis.map (fun p => p.2)).headD 0))
        else .next (detTouch c s once (redKind op r.ty) (accs.map accTouches) (fun s =>
          let s := countHot (countDev s c.id.serial r.ty accs) c.l.offer.part accs
          let x := tget {} s.sets c.key
          let rs : List Redg := accs.map (fun a =>
            { id := c.id, seq := s.tick, op := op.code.toNat, locs := locsOf a.2.2, far := (match a.2.2 with | .remote d x :: _ => some (d, x) | _ => none),
              ty := r.ty, b := srcB c.w r r.ty a.1, addr := a.2.1, pc := c.sl.path.pc.toNat, wave := waveNo c.id c.w,
              engine := c.w.engine })
          c.done { s with sets := tput s.sets c.key { x with redgs := x.redgs ++ rs, blocks := insertNat c.id.block x.blocks } } id))))

def execRedg (op : AtomOp) (r : Lane) (s : State) : Out :=
  match s.issuer with
  | some c => if c.det then stageRedg op r s else atomWord r s op.code.toNat false (fun c l => srcB c.w r r.ty l) (fun _ _ => 0)
  | none => .refused .noIssuer

/-! ### Requests performed (R188, R192, R195, R201, R202) -/

def reqLocs (r : Req) : List Nat :=
  match r.kind with
  | .stg bs => bs.map (fun b => b.1)
  | .stable ls _ _ _ => ls
  | .home ls _ _ _ _ => ls
  | .atom _ ls _ _ _ _ _ => ls
  | .far d a _ ty _ _ _ _ => (List.range ty.size).map (fun i => farKey d (a + i))
  | _ => []

def isStable (r : Req) : Bool := match r.kind with | .stable _ _ _ _ => true | _ => false
def isStg (r : Req) : Bool := match r.kind with | .stg _ => true | _ => false
/-- R188, R202: a request must wait for an earlier one of its wave to the same bytes, a store for every earlier store, a
home request for the earlier ones behind a `PHASE`, `RFSH` or acquiring wait. Two stable loads never wait for one another. -/
def mustFollow (earlier later : Req) : Bool :=
  (isStg earlier && isStg later) || (atHome earlier && atHome later && earlier.seq < later.after) ||
    (!(isStable earlier && isStable later) && (reqLocs later).any (fun l => (reqLocs earlier).contains l))

/-- Request `k` of a wave may be performed. -/
def reqFree (w : Wave) (k : Nat) : Bool :=
  match w.reqs[k]? with
  | some r => (w.reqs.take k).all (fun q => !mustFollow q r)
  | none => false

/-- STORE_SET_ENTRY: the wave's earliest store enters its set (R195). -/
def execStoreSetEntry (w : WaveId) (s : State) : Out :=
  match s.wave w, s.block w.serial w.block, s.launch w.serial with
  | some x, some b, some l =>
    (match x.reqs.findIdx? isStg with
      | some k =>
        if reqFree x k then
          let key := setKey l b.core w.serial w.block
          (match x.reqs[k]? with
            | some r =>
              (match r.kind with
                | .stg bs =>
                  .next ({ s with sets := tput s.sets key (StoreSet.enter (tget {} s.sets key) w.block bs) }.setWave w { x with reqs := x.reqs.eraseIdx k })
                | _ => .next s)
            | none => .next s)
        else .next s
      | none => .next s)
  | _, _, _ => .next s

/-- The old and new value of an atomic (R162, R191): operation code 7 compares with `c`. -/
def atomNew (op : Nat) (ty : Ty) (old b c : Nat) : Option Nat :=
  if op = 7 then (if old = c then some b else none)
  else some (match op with
    | 0 => redOp .add ty old b | 1 => redOp .min ty old b | 2 => redOp .max ty old b
    | 3 => old &&& b | 4 => old ||| b | 5 => old ^^^ b | _ => b)

/-- One request of an atomic at home: one event of H. -/
def atomAt (s : State) (op : Nat) (locs : List Nat) (ty : Ty) (b c : Nat) : State × Nat :=
  let old := ofLeBytes (locs.map (memByte s))
  match atomNew op ty old b c with
  | some x => (homeWrite s (locs.zip (leBytes x ty.size)), old)
  | none => (homeWrite s [], old)

/-- A remote atomic that waits. -/
def isFar (r : Req) : Bool := match r.kind with | .far _ _ _ _ _ _ _ _ => true | _ => false

/-- The remote lanes of the word of request `r` are sent, once nothing that the word must follow is under way (R202). -/
def sendFar (s : State) (id : WaveId) (w : Wave) (r : Req) : State :=
  let mine (q : Req) : Bool := q.tag == r.tag && isFar q
  let free := (List.range w.reqs.length).all (fun j => match w.reqs[j]? with
    | some q => !mine q || (w.reqs.take j).all (fun p => p.tag == r.tag || !mustFollow p q)
    | none => true)
  match r.kind with
  | .far _ _ opc ty scal dst _ _ =>
    if !free then s
    else
      let before := w.reqs.takeWhile (fun q => !mine q)
      let after := (w.reqs.dropWhile (fun q => !mine q)).filter (fun q => !mine q)
      let out := sendAtomics s r.pc opc ty scal dst ((w.reqs.filter mine).filterMap (fun q => match q.kind with
        | .far d a _ _ _ _ b c => some (q.lane, q.addr, d, a, b, c)
        | _ => none))
      out.1.setWave id { w with reqs := before ++ out.2.map (fun q => { q with seq := r.seq, tag := r.tag, after := r.after }) ++ after }
  | _ => s

/-- ATOMIC_AT_HOME: request `k` of a wave takes its point in H (R192, R202); a remote one that has waited is sent. -/
def execAtomicAtHome (w : WaveId) (k : Nat) (s : State) : Out :=
  match s.wave w, s.block w.serial w.block with
  | some x, some b =>
    (match x.reqs[k]? with
      | some r =>
        (match r.kind with
          | .far _ _ _ _ _ _ _ _ => .next (sendFar s w x r)
          | .atom op locs ty scal dst bv cv =>
            let reqs := x.reqs.eraseIdx k
            if !reqFree x k then .next s
            else if locs.any (lockedAt s) then .next (lockedOut (s.setWave w { x with reqs := reqs }) w x b.core r.pc.toNat r.addr)
            else if locs.any (badUnit s) then .next (uncorr (s.setWave w { x with reqs := reqs }) w x b.core r.pc.toNat r.addr)
            else
              let a := atomAt s op locs ty bv cv
              let ws := match dst with | some d => typeWrites ty scal d r.lane a.2 | none => []
              .next (a.1.setWave w ({ x with reqs := reqs, homePt := max x.homePt a.1.hpt }.pendWrite r.tag ws (!reqs.any (fun q => q.tag == r.tag))))
          | _ => .next s)
      | none => .next s)
  | _, _ => .next s

/-- HOME_READ_ARRIVAL: the next 32-byte unit of request `k` reads its home value (R186, R201). -/
def execHomeReadArrival (w : WaveId) (k : Nat) (s : State) : Out :=
  match s.wave w, s.block w.serial w.block with
  | some x, some b =>
    if !reqFree x k then .next s
    else (match x.reqs[k]? with
      | some r =>
        (match r.kind with
          | .home locs got ty dk dst =>
            let unit_ := (unitsOf locs).headD []
            let rest := locs.drop unit_.length
            let x := { x with homePt := max x.homePt s.hpt }
            if unit_.any (badUnit s) then
              .next (uncorr (s.setWave w { x with reqs := x.reqs.eraseIdx k }) w x b.core r.pc.toNat (r.addr + BitVec.ofNat 64 got.length))
            else
              let got := got ++ unit_.map (memByte s)
              if rest.isEmpty then
                let reqs := x.reqs.eraseIdx k
                .next (s.setWave w ({ x with reqs := reqs }.pendWrite r.tag (typeWrites ty dk dst r.lane (ofLeBytes got)) (!reqs.any (fun q => q.tag == r.tag))))
              else .next (s.setWave w { x with reqs := x.reqs.set k { r with kind := .home rest got ty dk dst } })
          | _ => .next s)
      | none => .next s)
  | _, _ => .next s

/-- The stable loads of a word are performed (R200), where the view's start is known and no earlier request of the
wave to the same bytes is still under way. DESIGN CHOICE (log 62). -/
def performStable (s : State) (id : WaveId) (tag : Nat) : State :=
  match s.wave id, s.block id.serial id.block, s.launch id.serial with
  | some w, some b, some l =>
    let key := setKey l b.core id.serial id.block
    let mine := w.reqs.filter (fun r => r.tag == tag)
    let free := (List.range w.reqs.length).all (fun k => match w.reqs[k]? with
      | some r => r.tag != tag || (isStable r && reqFree w k)
      | none => true)
    if mine.isEmpty || !free || !(tget {} s.views key).needs.isEmpty then s
    else
      mine.foldl (fun s r => match r.kind with
        | .stable locs ty dk dst =>
          (match readStable s key locs ty dk dst r.lane with
            | (s, .inl i) => uncorr s id w b.core r.pc.toNat (r.addr + BitVec.ofNat 64 i)
            | (s, .inr ws) => s.modWave id (fun w => w.pendWrite tag ws true))
        | _ => s) (s.modWave id (fun w => { w with reqs := w.reqs.filter (fun r => r.tag != tag) }))
  | _, _, _ => s

end Sys2Proof.Machine
end

