-- ==== Sys2Proof/Machine/Ordering.lean ====
section
/-! DEFINITION. The ordering words (Table 10-3, R208) and the performing of publications (R176, R196, R198, R312). -/

namespace Sys2Proof.Machine

/-- R208: the words of Set(scope) that a wave issued before `seq` and that are not yet performed. -/
def outstanding (w : Wave) (system : Bool) (seq : Nat) : Bool :=
  w.reqs.any (fun r => r.seq < seq && (match r.kind with | .ldh _ _ _ _ => system | _ => true)) ||
    w.pend.any (fun p => p.tag < seq && (p.kind == .dev || p.kind == .die || (system && p.kind == .host))) ||
    w.spq.any (fun o => o.seq < seq && (match o.kind with | .load die _ _ _ _ => die | .store die _ => die | _ => false))

/-- R208, R312: a `REDG` that a wave staged before `seq` and that has been published has not acted at its home: the ticket
unit has not placed it, or it is on its way to another device. One that no publication carries yet is in the block's set, as
a store is: only a later publication makes it act. DEDUCED (log 79). -/
def redgWaits (s : State) (id : WaveId) (key seq : Nat) : Bool :=
  s.pubs.any (fun p => p.key == key && p.set.redgs.any (fun r => r.id == id && r.seq < seq)) ||
    s.farReds.any (fun f => f.copy.isNone && f.id == id && f.seq < seq)

/-- A new view of the cursor's launch (R199). -/
def Ctx.newView (c : Ctx) (s : State) (acq : Nat) : State :=
  startView s c.key ((s.wave c.id).map (fun w => w.homePt) |>.getD 0) acq

/-- The words of a wave that `NewView` of its word `seq` waits for are performed (R208). -/
def viewClear (w : Wave) (seq : Nat) : Bool :=
  !w.pend.any (fun p => p.kind == .dev && p.tag < seq) &&
    !w.reqs.any (fun r => r.seq < seq && (isStable r || atHome r))

/-- R208: so are the `REDG` that it has staged. -/
def Ctx.clear (c : Ctx) (s : State) (seq : Nat) : Bool := viewClear c.w seq && !redgWaits s c.id c.key seq

/-- R208: a fence of the wave has nothing to wait for. -/
def Ctx.fenceClear (c : Ctx) (s : State) (system : Bool) (seq : Nat) : Bool := !outstanding c.w system seq && !redgWaits s c.id c.key seq

/-- The word orders the wave's requests to home (R202). -/
def Ctx.bar (c : Ctx) (s : State) : State := s.modWave c.id (fun w => { w with barrier := s.tick })

/-- The path is held by a word whose `NewView` waits (R208). -/
def Ctx.holdView (c : Ctx) (s : State) : State :=
  s.modWave c.id (fun w => w.setSlot c.slotB (some { c.sl with hold := .view, since := s.tick }))

/-- R208: a view is started, at once or when the wave's earlier loads and atomics are performed. -/
def Ctx.view (c : Ctx) (s : State) : State :=
  let s := c.bar s
  if c.clear s s.tick then c.done (c.newView s 0) (fun w => w) else c.holdView s

def execPhase (h : Hdr) (s : State) : Out :=
  issue s (fun c => if !c.any h then c.done s id else c.view (c.publish s none).1)

def execPubl (h : Hdr) (s : State) : Out :=
  issue s (fun c => if !c.any h then c.done s id else c.done (c.publish s none).1 id)

def execRfsh (h : Hdr) (s : State) : Out :=
  issue s (fun c => if !c.any h then c.done s id else c.view s)

/-- R208: a fence with nothing outstanding is past at once; otherwise it holds its path. -/
def execFence (system : Bool) (h : Hdr) (s : State) : Out :=
  issue s (fun c =>
    if !c.any h || c.fenceClear s system s.tick then c.done s id
    else s.modWave c.id (fun w => w.setSlot c.slotB (some { c.sl with hold := .fence system s.tick })))

/-- R208: publishes, then holds its path until the publication is performed and the flushing read has returned. -/
def execSysrel (h : Hdr) (s : State) : Out :=
  issue s (fun c =>
    if !c.any h then c.done s id
    else
      let r := c.publish s none
      r.1.modWave c.id (fun w => w.setSlot c.slotB (some { c.sl with hold := .sysrel r.2 })))

/-- FENCE_COMPLETE: the earlier words that a fence, or the `NewView` of a `PHASE`, an `RFSH` or a READY `CLAIM`, waits for are
performed. DEDUCED (log 79). -/
def execFenceComplete (w : WaveId) (slotB : Bool) (s : State) : Out :=
  onPath s w slotB (fun c =>
    match c.sl.hold with
    | .fence system seq => if c.fenceClear s system seq then c.done s id else s
    | .view => if c.clear s c.sl.since then c.done (c.newView s 0) (fun w => w) else s
    | .ready acq clk => if c.clear s c.sl.since then c.done (acquire (c.newView s acq) c.id.serial c.id.block clk) id else s
    | _ => s)

/-- R196: whether a publication has been performed. One that only makes an entry READY has no bytes: it is performed
once every earlier publication of its set is. -/
def pubPerformed (s : State) (id : Nat) : Bool :=
  match s.pubs.find? (fun p => p.id == id) with
  | none => true
  | some p =>
    p.at_.isSome ||
      (p.set.bytes.isEmpty && p.set.redgs.isEmpty && ((pubsOf s p.key).head?.any (fun q => q.id == p.id)))

def waitPub (s : State) : Option Nat → Bool
  | none => true
  | some id => pubPerformed s id

/-- R208: the address of the flushing read: the bus base of host window 0, or of the record ring. -/
def flushBase (p : Part) : BitVec 64 :=
  let h := tget {} p.map.hwins 0
  if h.perm.getLsbD 0 then h.base else p.ringbase

/-- SYSREL_COMPLETE: the flushing read returns, `ok` or with an error, which the launch reports as XLATE from the host.
DEDUCED (log 23). -/
def execSysrelComplete (w : WaveId) (slotB : Bool) (ok : Bool) (s : State) : Out :=
  onPath s w slotB (fun c =>
    match c.sl.hold with
    | .sysrel pub =>
      if !waitPub s pub then s
      else if ok then c.done s id
      else raise c s cXLATE aHOST 0 0 (flushBase (s.part c.l.offer.part))
    | _ => s)

/-! ### Publications performed -/

/-- The 32-byte units of a set that hold an uncorrectable error and that the set does not cover whole (R176). -/
def badUnits (s : State) (x : Tab SByte) : List Nat :=
  let units := x.foldl (fun us b => insertNat (b.1 / 32) us) []
  units.filter (fun u => badUnit s (32 * u) && !(List.range 32).all (fun i => (tfind x (32 * u + i)).isSome))

/-- A unit written whole has fresh check bytes (R176). -/
def freshUnits (s : State) (x : Tab SByte) : State :=
  let units := (x.foldl (fun us b => insertNat (b.1 / 32) us) []).filter (fun u =>
    (List.range 32).all (fun i => (tfind x (32 * u + i)).isSome))
  { s with bad := s.bad.filter (fun u => !units.any (fun v => redir s (32 * v) / 32 == u)) }

/-- UNCORR of a publication: the word that published, and the address of the lowest stored byte of each bad unit. -/
def uncorrPub (s : State) (p : Pub) (addr : BitVec 64) (pc : Nat) : State :=
  let t : Trap :=
    { code := cUNCORR, attr := aMACHINE, construct := 0, pc := pc, pc2 := noPc, block := p.block, block2 := noPc,
      wave := p.wave, core := p.core, engine := p.engine, lanes := 0, value := addr }
  addTrap s p.serial t

/-- PROT of a publication: a stored byte stands in a frame that has been locked since its store was translated (R61, R244).
DEDUCED (log 80). -/
def protPub (s : State) (p : Pub) (addr : BitVec 64) (pc : Nat) : State :=
  let t : Trap :=
    { code := cPROT, attr := aCALLER, construct := 0, pc := pc, pc2 := noPc, block := p.block, block2 := noPc,
      wave := p.wave, core := p.core, engine := p.engine, lanes := 0, value := addr }
  addTrap s p.serial t

/-- A staged `REDG` request takes its point (R312), which its wave has then reached (R199), or leaves for the device that
holds the remote range. -/
def placeRedg (s : State) (p : Pub) (r : Redg) : State :=
  match r.far with
  | some (d, a) =>
    let tag := s.flitTags
    sendFlit { s with
      flitTags := tag + 1,
      farReds := s.farReds ++ [{ id := r.id, seq := r.seq, tag := tag, dev := d, serial := p.serial, block := p.block, wave := r.wave, engine := r.engine, core := p.core, pc := r.pc, addr := r.addr }] } d 1 0 (areqPayload tag r.op r.ty.code.toNat false [(a, r.b, 0)])
  | none =>
    let q := { p with engine := r.engine, wave := r.wave }
    if r.locs.any (lockedAt s) then protPub s q r.addr r.pc
    else if r.locs.any (badUnit s) then uncorrPub s q r.addr r.pc
    else
      let s := (atomAt s r.op r.locs r.ty r.b 0).1
      s.modWave r.id (fun w => { w with homePt := max w.homePt s.hpt })

/-- A view keeps what it first read (R200). Under the determinism flag no value may depend on when a publication is
performed (R311): of the bytes that the block published, its view reads those that it did not hold yet at the publication's
point or after it. DEDUCED (log 6). -/
def viewKeeps (v : View) (hpt : Nat) (x : Tab SByte) : View :=
  x.foldl (fun v b => if (tfind v.seen b.1).isSome then v else { v with from_ := (b.1, hpt) :: v.from_ }) v

/-- A view's start waits for this publication no longer, and lies no earlier than it. -/
def View.settle (v : View) (id hpt : Nat) : View :=
  if v.needs.contains id then { v with needs := v.needs.filter (fun i => i != id), start := max v.start hpt } else v

/-- Runs of remote bytes: one device, rising addresses of one 4 KiB page, at most `most` bytes (R382). -/
def runsOfFar (most : Nat) (bs : List (Nat × Nat × Byte)) : List (Nat × Nat × List Byte) :=
  (bs.foldl (fun (acc : List (Nat × Nat × List Byte)) b =>
    match acc with
    | (d, a, xs) :: t =>
      if d = b.1 && a + xs.length = b.2.1 && a / 4096 = b.2.1 / 4096 && xs.length < most then (d, a, xs ++ [b.2.2]) :: t
      else (b.1, b.2.1, [b.2.2]) :: acc
    | [] => [(b.1, b.2.1, [b.2.2])]) []).reverse

/-- The staged bytes that copies of the set wrote for other devices leave, each copy's in its own runs (R258, R382).
DEDUCED (log 27). -/
def sendStaged (s : State) (p : Pub) : State :=
  let far := p.set.bytes.filter (fun b => 2 ^ 64 ≤ b.1)
  let srcs := far.foldl (fun cs b => if cs.contains b.2.copy then cs else cs ++ [b.2.copy]) []
  srcs.foldl (fun s src =>
    (runsOfFar 208 ((far.filter (fun b => b.2.copy == src)).map (fun b => (b.1 / 2 ^ 64 - 1, b.1 % 2 ^ 64, b.2.val)))).foldl (fun s run =>
      let tag := s.flitTags
      let dva := ((tfind far (farKey run.1 run.2.1)).map (fun b => b.dva)).getD 0
      sendFlit { s with
        flitTags := tag + 1,
        farReds := s.farReds ++ [{ id := ⟨p.serial, p.block, p.wave⟩, seq := 0, copy := src, tag := tag, dev := run.1, serial := p.serial, block := p.block, wave := p.wave, engine := p.engine, core := p.core, pc := p.pc, addr := dva }] }
        run.1 5 0 (wdataPayload tag run.2.1 run.2.2)) s) s

/-- R256: a copy whose bytes were staged fails, though its number may have passed: its point is set in error, its timeline
records the failure. -/
def failStaged (s : State) (serial : Nat) (c : CopySrc) (code value : Nat) : State :=
  let s := failPoint s c.pt code (copyEngine c.ctx, c.pc, value)
  s.modCopy c.ctx (fun x => { x with failed := x.failed ++ [{ num := c.num, code := code, serial := serial, pc := c.pc, value := value }] })

/-- Bytes of a publication that are not written: each copy that staged some of them fails with `err` at its lowest, and where
stores are among them the publication traps at theirs. -/
def refuseBytes (s : State) (p : Pub) (bs : Tab SByte) (err : Nat) (trap : State → Pub → BitVec 64 → Nat → State) : State :=
  let srcs := bs.foldl (fun cs b => if cs.contains b.2.copy then cs else cs ++ [b.2.copy]) []
  srcs.foldl (fun s src => match bs.find? (fun b => b.2.copy == src), src with
    | some b, some c => failStaged s p.serial c err b.2.dva.toNat
    | some b, none => trap s p b.2.dva p.pc
    | none, _ => s) s

/-- The publication takes its one point in H. Bytes in a unit with an error, and bytes in a frame that has been locked since
they were translated (R61, R244), are not written; the others are. -/
def performPub (s : State) (p : Pub) : State :=
  let near := p.set.bytes.filter (fun b => b.1 < 2 ^ 64)
  let shut := near.filter (fun b => lockedAt s b.1)
  let open_ := near.filter (fun b => !lockedAt s b.1)
  let bad := badUnits s open_
  let good := open_.filter (fun b => !bad.contains (b.1 / 32))
  let s := freshUnits s good
  let s := homeWrite s (good.map (fun b => (b.1, b.2.val)))
  let hp := s.hpt
  let s := p.set.redgs.foldl (fun s r => placeRedg s p r) (sendStaged s p)
  let end_ := s.hpt
  let views := s.views.map (fun v => (v.1, if v.1 = p.key && p.key % 2 = 1 then viewKeeps (v.2.settle p.id end_) hp good else v.2.settle p.id end_))
  let pubs := match p.claim with
    | some _ => s.pubs.map (fun q => if q.id = p.id then { q with at_ := some end_, key := 0, set := {} } else q)
    | none => s.pubs.filter (fun q => q.id != p.id)
  let s := { s with views := views, pubs := pubs, pubPt := tput s.pubPt p.key end_ }
  let s := bad.foldl (fun s u => refuseBytes s p (open_.filter (fun b => b.1 / 32 = u)) 6 uncorrPub) s
  refuseBytes s p shut 2 protPub

/-- R196: the publications of one set in the order made; R312: the ticket unit takes the sets that are ready in
ascending block index. -/
def pubFirst (s : State) (p : Pub) : Bool :=
  ((pubsOf s p.key).head?.any (fun q => q.id == p.id)) &&
    (match s.launch p.serial with
      | some l => !l.det || s.pubs.all (fun q => q.serial != p.serial || q.key == 0 || p.block ≤ q.block)
      | none => true)

/-- PUBLICATION_PERFORM. -/
def execPublicationPerform (id : Nat) (s : State) : Out :=
  match s.pubs.find? (fun p => p.id == id) with
  | some p => if p.at_.isNone && pubFirst s p then .next (performPub s p) else .next s
  | none => .next s

end Sys2Proof.Machine
end

