-- ==== Sys2Proof/Machine/Claims.lean ====
section
/-! DEFINITION. The claim table (22_claims.md): lookup, creation, eviction, hand-over, pins, and the claim words. -/

namespace Sys2Proof.Machine

/-- R345: the set of a name. -/
def claimSet (a b : DWord) : Nat := nhash a.toNat b.toNat % 65536

def setEntries (set : Nat) : List Nat := (List.range 4).map (fun w => 4 * set + w)

/-- R345, R352: the entry a `CLAIM` matches. -/
def claimMatch (s : State) (part : Nat) (a b : DWord) (set : Nat) : Option Nat :=
  (setEntries set).find? (fun e =>
    let c := s.claim e
    (c.st == .making || c.st == .ready) && c.part == part && c.fid == a.extractLsb' 32 32 && c.ver == a.extractLsb' 0 32 && c.dig == b)

/-- R347: records that the pool of a home slice holds: queue places and pins of its entries. -/
def poolUsed (s : State) (slice : Nat) : Nat :=
  (s.claims.filter (fun p => p.1 / 4 % 64 == slice)).foldl (fun n p => n + p.2.queue.length + p.2.pins.length) 0

def poolFull (s : State) (e : Nat) : Bool := 8192 ≤ poolUsed s (e / 4 % 64)

/-- R349. -/
def ticketOf (e : Nat) (c : Claim) : BitVec 64 := BitVec.ofNat 64 (e * 16384 + c.gen.toNat)
def answer (kind : Nat) (ticket : BitVec 64) : BitVec 64 := BitVec.ofNat 64 (kind * 2 ^ 62) + ticket
def ticketEntry (t : BitVec 32) : Nat := (t.extractLsb' 14 18).toNat
def ticketGen (t : BitVec 32) : BitVec 14 := t.extractLsb' 0 14

/-- R354: one visit of the clock hand; the way freed, if any. -/
def evictStep (s : State) (set hand : Nat) : State × Option Nat :=
  let e := 4 * set + hand % 4
  let c := s.claim e
  if c.st == .ready && c.pins.isEmpty then
    (if c.clk then (s.setClaim e { c with clk := false }, none)
     else (s.setClaim e { gen := c.gen }, some e))
  else (s, none)

def evictFrom (set : Nat) : Nat → State → Nat → State × Nat × Option Nat
  | 0, s, hand => (s, hand, none)
  | n + 1, s, hand =>
    match evictStep s set hand with
    | (s, some e) => (s, (hand + 1) % 4, some e)
    | (s, none) => evictFrom set n s ((hand + 1) % 4)

/-- R354: at most eight visits; the hand moves with them. -/
def evict (s : State) (set : Nat) : State × Option Nat :=
  let r := evictFrom set 8 s (tget 0 s.hands set)
  ({ r.1 with hands := tset 0 r.1.hands set r.2.1 }, r.2.2)

/-- The wave has not retired. -/
def going (s : State) (w : WaveId) : Bool := (s.wave w).any (fun x => !x.retiredWave)

/-- R356: a maker fails; the duty passes to the earliest waiter whose launch is running, or the entry becomes FREE. A
waiter that has retired would fail at once, so it is passed over. DEDUCED (log 63). -/
def makerFail (s : State) (e : Nat) : State :=
  let c := s.claim e
  let live := c.queue.filter (fun w => (s.launch w.serial).any (fun l => l.traps.isEmpty))
  match live.dropWhile (fun w => !going s w) with
  | w :: rest => s.setClaim e { c with maker := w, queue := rest, handed := true }
  | [] => s.setClaim e { gen := c.gen }

/-- Maker duties not yet discharged by `FULFIL` of the waves that `p` names fail (R356). -/
def makersFail (s : State) (p : WaveId → Bool) : State :=
  s.claims.foldl (fun s e => if e.2.st == .making && !e.2.fulfilling && p e.2.maker then makerFail s e.1 else s) s

/-- R358: one pin of a launch released. -/
def dropPin (c : Claim) (serial : Nat) : Claim :=
  let pins := c.pins.erase serial
  if c.st == .stale && pins.isEmpty then { gen := c.gen } else { c with pins := pins }

/-- R358: every pin and queue place of a launch that ends. -/
def dropLaunch (s : State) (serial : Nat) : State :=
  s.claims.foldl (fun s e =>
    let c := s.claim e.1
    let c := { c with queue := c.queue.filter (fun w => w.serial != serial) }
    let n := (c.pins.filter (fun p => p == serial)).length
    s.setClaim e.1 ((List.range n).foldl (fun c _ => dropPin c serial) c)) s

/-- The queue places of the waves that `p` names are left, those that have turned into pins too (R374). -/
def dropQueue (s : State) (p : WaveId → Bool) : State :=
  s.claims.foldl (fun s e =>
    let c := s.claim e.1
    s.setClaim e.1 { c with queue := c.queue.filter (fun w => !p w), served := c.served.filter (fun w => !p w) }) s

/-- The result pair of a claim word, which lands later (R351). -/
def claimAnswer (c : Ctx) (s : State) (d : BitVec 6) (a h : BitVec 64) : State :=
  c.later s [.s d.toNat, .s (d.toNat + 1)] [.s d.toNat a, .s (d.toNat + 1) h]

/-- R352: a `CLAIM` that is answered READY starts a view: at once, or when the wave's earlier loads and atomics are performed,
for which its path is held (R208). The answer itself waits for nothing. DEDUCED (log 79). -/
def readyView (c : Ctx) (s : State) (acq : Nat) (clk : Tab Nat) (res : List Reg) (ws : List RegWrite) : State :=
  let s := c.bar s
  if c.clear s s.tick then c.later (acquire (c.newView s acq) c.id.serial c.id.block clk) res ws
  else s.modWave c.id (fun w => (addPend w { tag := s.tick, kind := .other, dst := res, writes := ws, ready := true }).setSlot c.slotB
    (some { c.sl with hold := .ready acq clk, since := s.tick }))

/-- R352. -/
def execClaim (h : Hdr) (d n : BitVec 6) (s : State) : Out :=
  issue s (fun c =>
    if !c.any h then c.done s id
    else
      let a := c.s n
      let b := c.w.readS (n.toNat + 1)
      let set := claimSet a b
      match claimMatch s c.l.offer.part a b set with
      | some e =>
        let k := s.claim e
        if k.st == .ready then
          if 2 ^ 20 - 1 ≤ k.pins.length || poolFull s e then claimAnswer c s d 0 0
          else
            let s := s.setClaim e { k with pins := k.pins ++ [c.id.serial], clk := true }
            readyView c s k.relPt k.clock [.s d.toNat, .s (d.toNat + 1)] [.s d.toNat (answer 3 (ticketOf e k)), .s (d.toNat + 1) k.handle]
        else if 255 ≤ k.queue.length || poolFull s e then claimAnswer c s d 0 0
        else claimAnswer c (s.setClaim e { k with queue := k.queue ++ [c.id] }) d (answer 2 (ticketOf e k)) 0
      | none =>
        if c.l.offer.claims ≤ c.l.creations then claimAnswer c s d 0 0
        else
          let (s, way) := match (setEntries set).find? (fun e => (s.claim e).st == .free) with
            | some e => (s, some e)
            | none => evict s set
          match way with
          | none => claimAnswer c s d 0 0
          | some e =>
            let k : Claim := { fid := a.extractLsb' 32 32, ver := a.extractLsb' 0 32, dig := b, st := .making,
                               part := c.l.offer.part, gen := (s.claim e).gen + 1, maker := c.id, creator := c.id.serial }
            let s := (s.setClaim e k).modLaunch c.id.serial (fun l => { l with creations := l.creations + 1 })
            claimAnswer c s d (answer 1 (ticketOf e k)) 0)

/-- Whether a waiter's wait is over (R355), with its answer: READY, or made maker. DEDUCED (log 26). -/
def clReady (s : State) (id : WaveId) (ticket : BitVec 32) : Option (BitVec 64 × BitVec 64 × Bool) :=
  let e := ticketEntry ticket
  let k := s.claim e
  let t := (0#32 ++ ticket : BitVec 64)
  if k.gen != ticketGen ticket then none
  else if (k.st == .ready || k.st == .stale) && k.served.contains id then some (answer 3 t, k.handle, true)
  else if k.st == .making && k.maker == id && k.handed then some (answer 1 t, 0, false)
  else none

/-- Whether the wave still holds, or has turned into a pin or a maker's duty, the queue place of a ticket (R355). -/
def clHolds (s : State) (id : WaveId) (ticket : BitVec 32) : Bool :=
  let k := s.claim (ticketEntry ticket)
  k.gen == ticketGen ticket &&
    (k.queue.contains id || (k.st == .making && k.maker == id && k.handed) ||
      ((k.st == .ready || k.st == .stale) && k.served.contains id))

/-- What the entry of a ticket answers the waiter now, with what READY acquires (R355). -/
def clAnswers (s : State) (id : WaveId) (ticket : BitVec 32) : Option ClAns :=
  let k := s.claim (ticketEntry ticket)
  (clReady s id ticket).map (fun r => { word := r.1, handle := r.2.1, ready := r.2.2, relPt := k.relPt, clk := k.clock })

/-- The place of the wave that has answered is gone, unless the entry has been freed or made anew since. -/
def clLeave (s : State) (id : WaveId) (ticket : BitVec 32) (ready : Bool) : State :=
  let e := ticketEntry ticket
  let k := s.claim e
  if k.gen != ticketGen ticket then s
  else s.setClaim e (if ready then { k with served := k.served.erase id } else { k with handed := k.handed && k.maker != id })

/-- R355, R199, R204: the wait ends with its answer; READY acquires. -/
def clwaitFinish (c : Ctx) (s : State) (d : Nat) (ticket : BitVec 32) (x : ClAns) : State :=
  let s := clLeave s c.id ticket x.ready
  let s := if x.ready then acquire (startView s c.key c.w.homePt x.relPt) c.id.serial c.id.block x.clk else s
  c.done s (fun w => addPend w { tag := s.tick, kind := .other, dst := [.s d, .s (d + 1)], writes := [.s d x.word, .s (d + 1) x.handle], ready := true })

/-- A held path's answer noted. -/
def Ctx.noteAns (c : Ctx) (s : State) (x : ClAns) : State :=
  s.modWave c.id (fun w => w.setSlot c.slotB ((w.slot c.slotB).map (fun sl => { sl with ans := some x })))

/-- R355: the ticket must name this wave's place; then the path is held until the entry answers. -/
def execClwait (h : Hdr) (d t : BitVec 6) (lim : Lim 31) (s : State) : Out :=
  issue s (fun c =>
    if !c.any h then c.done s id
    else
      let ticket := (c.s t).extractLsb' 0 32
      if !clHolds s c.id ticket then raiseWave c s cCLSTATE (0#32 ++ ticket)
      else match clAnswers s c.id ticket with
        | some x =>
          if !x.ready || c.clear s s.tick then clwaitFinish c (c.bar s) d.toNat ticket x
          else c.noteAns (c.holdMet (c.bar s) (.clwait d.toNat ticket) (limVal c.l lim) none) x
        | none => c.hold (c.bar s) (.clwait d.toNat ticket) (limVal c.l lim))

/-- R357: the checks that `FULFIL` and `ABANDON` share. -/
def makerOk (s : State) (id : WaveId) (ticket : BitVec 32) : Bool :=
  let k := s.claim (ticketEntry ticket)
  k.gen == ticketGen ticket && k.st == .making && k.maker == id && !k.fulfilling

/-- The other path of the wave waits for a ticket of which the wave has been made maker: its wait is over (R355). -/
def Ctx.heirWaits (c : Ctx) (s : State) : Bool :=
  (c.w.slot (!c.slotB)).any (fun sl => match sl.hold with
    | .clwait _ t => (clReady s c.id t).any (fun r => !r.2.2)
    | _ => false)

/-- R357: publishes; the entry becomes READY when the publication is performed. -/
def execFulfil (h : Hdr) (hdl t : BitVec 6) (s : State) : Out :=
  issue s (fun c =>
    if !c.any h then c.done s id
    else
      let ticket := (c.s t).extractLsb' 0 32
      let hv := c.s hdl
      if !makerOk s c.id ticket then raiseWave c s cCLSTATE (0#32 ++ ticket)
      else if hv.extractLsb' 49 15 == 0 then raiseWave c s cRESERVED 0
      else
        let e := ticketEntry ticket
        let s := (c.publish s (some (e, (ticketGen ticket).toNat, hv))).1
        let s := s.setClaim e { s.claim e with fulfilling := true, handed := false, clock := releaseClock s c.id.serial c.id.block }
        c.done (endRelaunch s c.id.serial c.id.block) id)

def execAbandon (h : Hdr) (t : BitVec 6) (s : State) : Out :=
  issue s (fun c =>
    if !c.any h then c.done s id
    else
      let ticket := (c.s t).extractLsb' 0 32
      if !makerOk s c.id ticket then raiseWave c s cCLSTATE (0#32 ++ ticket)
      else c.done (addPhase (makerFail s (ticketEntry ticket)) c.id.serial c.id.block) id)

/-- R358. -/
def execClrel (h : Hdr) (t : BitVec 6) (s : State) : Out :=
  issue s (fun c =>
    if !c.any h then c.done s id
    else
      let ticket := (c.s t).extractLsb' 0 32
      let e := ticketEntry ticket
      let k := s.claim e
      if k.gen != ticketGen ticket || !(k.st == .ready || k.st == .stale) || !k.pins.contains c.id.serial then
        raiseWave c s cCLSTATE (0#32 ++ ticket)
      else c.done (s.setClaim e (dropPin k c.id.serial)) id)

/-- Whether `CLINV` changes an entry (R359). -/
def clinvHits (part : Nat) (x : DWord) (k : Claim) : Bool :=
  k.st == .ready && k.part == part && k.fid == x.extractLsb' 32 32 && k.ver.ult (x.extractLsb' 0 32)

/-- R359. -/
def execClinv (h : Hdr) (d a : BitVec 6) (s : State) : Out :=
  issue s (fun c =>
    if !c.any h then c.done s id
    else
      let x := c.s a
      let hits := s.claims.filter (fun p => clinvHits c.l.offer.part x p.2)
      let s := hits.foldl (fun s p => s.setClaim p.1 (if p.2.pins.isEmpty then { gen := p.2.gen } else { p.2 with st := .stale })) s
      c.later s [s6 d] [.s d.toNat (BitVec.ofNat 64 hits.length)])

/-- R357: the publication of a `FULFIL` has been performed; the entry becomes READY and its queue turns into pins. -/
def fulfilReady (s : State) (e gen : Nat) (handle : BitVec 64) (hpt : Nat) : State :=
  let k := s.claim e
  if k.st == .making && k.gen.toNat == gen && k.fulfilling then
    s.setClaim e { k with st := .ready, handle := handle, clk := true, pins := k.pins ++ k.queue.map (fun w => w.serial),
                          served := k.queue, queue := [], fulfilling := false, relPt := hpt }
  else s

/-- The publication of a `FULFIL` of an entry that has been performed: taken at a point of H, or of an empty set behind
no earlier publication (R196). Answers it with that point. -/
def fulfilPub (s : State) (entry : Nat) : Option (Pub × Nat × Nat × BitVec 64 × Nat) :=
  s.pubs.findSome? (fun p =>
    match p.claim with
    | some (e, g, h) =>
      if e != entry then none
      else match p.at_ with
        | some n => some (p, e, g, h, n)
        | none =>
          if p.set.bytes.isEmpty && p.set.redgs.isEmpty && ((pubsOf s p.key).head?.any (fun q => q.id == p.id)) then
            some (p, e, g, h, s.hpt)
          else none
    | none => none)

/-- FULFIL_READY: the `FULFIL` whose publication has been performed makes its entry READY (R357). -/
def execFulfilReady (entry : Nat) (s : State) : Out :=
  match fulfilPub s entry with
  | some (p, e, g, h, n) =>
    let views := s.views.map (fun v => (v.1, { v.2 with needs := v.2.needs.filter (fun i => i != p.id) }))
    .next (fulfilReady { s with pubs := s.pubs.filter (fun q => q.id != p.id), views := views } e g h n)
  | none => .next s

/-- CLAIM_ENTRY_ERROR: an uncorrectable error frees the entry and faults its users (R362). DESIGN CHOICE (log 81). -/
def execClaimEntryError (entry : Nat) (s : State) : Out :=
  let k := s.claim entry
  if k.st == .free then .next s
  else
    let users := (if k.st == .making then [k.maker.serial] else []) ++ k.queue.map (fun w => w.serial) ++ k.pins
    let t : Trap := { code := cUNCORR, attr := aMACHINE, construct := 0, pc := noPc, pc2 := noPc, block := noPc, block2 := noPc,
                      wave := 255, core := 255, engine := 0, lanes := 0, value := Config.claimErrorValue s.tick entry }
    .next (users.foldl (fun s n => addTrap s n t) (s.setClaim entry { gen := k.gen }))

end Sys2Proof.Machine
end

