-- ==== Sys2Proof/Machine/RegBlocks.lean ====
section
/-! DEFINITION. Register blocks: `RCEDE`, `RTAKE` and their completions (R141 to R143); the spill area (R145). -/

namespace Sys2Proof.Machine

/-- Whether an outstanding write of the wave holds a register of the top `n` blocks of its allotment. -/
def cededBusy (w : Wave) (n : Nat) : Bool :=
  w.pend.any (fun p => p.dst.any (fun r => match r with
    | .v i => 16 * (w.allot - n) ≤ i && i < 16 * w.allot
    | _ => false))

/-- R143: the blocks join the pool of the wave's slot. -/
def cede (c : Ctx) (s : State) (n : Nat) : State :=
  let k := c.id.wave % 4
  (c.done s (fun w => { w with allot := w.allot - n })).modBlock c.id.serial c.id.block
    (fun b => { b with pools := tput b.pools k (tget 0 b.pools k + n) })

def execRcede (_h : Hdr) (n : BitVec 8) (s : State) : Out :=
  issue s (fun c =>
    if cededBusy c.w n.toNat then
      s.modWave c.id (fun w => w.setSlot c.slotB (some { c.sl with hold := .rcede n.toNat }))
    else cede c s n.toNat)

/-- RCEDE_COMPLETE. -/
def execRcedeComplete (w : WaveId) (slotB : Bool) (s : State) : Out :=
  onPath s w slotB (fun c =>
    match c.sl.hold with
    | .rcede n => if cededBusy c.w n then s else cede c s n
    | _ => s)

/-- Registers `lo` to `hi - 1` zeroed in every lane. -/
def Wave.zeroRegs (w : Wave) (lo hi : Nat) : Wave :=
  { w with v := w.v.filter (fun p => !(64 * lo ≤ p.1 && p.1 < 64 * hi)) }

/-- Whether a waiter heads its pool's queue and the pool holds enough. -/
def canTake (b : Block) (id : WaveId) (slotB : Bool) (n : Nat) : Bool :=
  let k := id.wave % 4
  (tget [] b.takers k).head? == some (id.wave, slotB) && n ≤ tget 0 b.pools k

/-- Resident core cycles of a held path's wait are within its limit. -/
def Ctx.inTime (c : Ctx) (s : State) : Bool := Sys2Proof.Machine.inTime c.w c.b.core s.tick c.sl.start c.sl.limit

/-- What a held path waits for, which stands now as `holds` tells, has come about within its limit (R211, R303). -/
def Ctx.metInTime (c : Ctx) (s : State) (holds : Bool) : Bool := Sys2Proof.Machine.metInTime c.sl.met holds (c.inTime s)

/-- A place in a pool's queue left. -/
def Block.leavePool (b : Block) (id : WaveId) (slotB : Bool) : Block :=
  let k := id.wave % 4
  { b with takers := tset [] b.takers k ((tget [] b.takers k).filter (fun x => x != (id.wave, slotB))) }

/-- R143: the blocks are taken and their registers read zero. -/
def take (c : Ctx) (s : State) (n : Nat) : State :=
  let k := c.id.wave % 4
  (c.done s (fun w => { w with allot := w.allot + n }.zeroRegs (16 * w.allot) (16 * (w.allot + n)))).modBlock c.id.serial c.id.block
    (fun b => { b.leavePool c.id c.slotB with pools := tput b.pools k (tget 0 b.pools k - n) })

/-- R143: `RTAKE` waiters are served in the order in which their words issued. -/
def execRtake (_h : Hdr) (n : BitVec 8) (lim : Lim 31) (s : State) : Out :=
  issue s (fun c =>
    let k := c.id.wave % 4
    let b := { c.b with takers := tput c.b.takers k (tget [] c.b.takers k ++ [(c.id.wave, c.slotB)]) }
    let s := s.modBlock c.id.serial c.id.block (fun _ => b)
    if canTake b c.id c.slotB n.toNat then take c s n.toNat else c.hold s (.rtake n.toNat) (limVal c.l lim))

/-- RTAKE_COMPLETE: within the limit. -/
def execRtakeComplete (w : WaveId) (slotB : Bool) (s : State) : Out :=
  onPath s w slotB (fun c =>
    match c.sl.hold with
    | .rtake n => if c.metInTime s (canTake c.b w slotB n) then take c s n else s
    | _ => s)

/-! ### The spill area (R145): key 64 · slot + lane -/

/-- The 32-byte units of the waves' spill areas among the units that may hold an uncorrectable error. DEDUCED (log 77). -/
def spillUnit (id : WaveId) (a : Nat) : Nat := 2 ^ 100 + wkey id * 2 ^ 15 + a / 32

/-- The lowest byte offset in the spill area that a `SPILL` or `FILL` accesses in a unit in error. -/
def spillBad (c : Ctx) (s : State) (h : Hdr) (wide : Bool) (k : BitVec 12) : Option Nat :=
  ((List.range (if wide then 2 else 1)).flatMap (fun i => (c.lanes h).map (fun l => 4 * c.w.width * (k.toNat + i) + 4 * l))).find?
    (fun a => s.bad.contains (spillUnit c.id a))

/-- UNCORR of `SPILL` and `FILL`, imprecise: VALUE is the offset in the area. DEDUCED (log 77). -/
def raiseSpill (c : Ctx) (s : State) (a : Nat) : State :=
  raise c s cUNCORR aMACHINE 0 0 (BitVec.ofNat 64 a)

def execSpill (h : Hdr) (wide : Bool) (src : BitVec 8) (k : BitVec 12) (s : State) : Out :=
  issue s (fun c =>
    match spillBad c s h wide k with
    | some a => raiseSpill c s a
    | none =>
      c.done (addBytes s c.id.serial 1 (64 * (c.lanes h).length)) (fun w =>
        { w with spill := (c.lanes h).foldl (fun t l =>
            let t := tset 0 t (64 * k.toNat + l) (w.readV src.toNat l)
            if wide then tset 0 t (64 * (k.toNat + 1) + l) (w.readV (src.toNat + 1) l) else t) w.spill }))

/-- The accesses of a wave take effect in issue order; the register is written later (class G). -/
def execFill (h : Hdr) (wide : Bool) (dst : BitVec 8) (k : BitVec 12) (s : State) : Out :=
  issue s (fun c =>
    match spillBad c s h wide k with
    | some a => raiseSpill c s a
    | none =>
      c.later (addBytes s c.id.serial 1 (64 * (c.lanes h).length))
        (if wide then [.v dst.toNat, .v (dst.toNat + 1)] else [.v dst.toNat])
        ((c.lanes h).flatMap (fun l =>
          .v dst.toNat l (tget 0 c.w.spill (64 * k.toNat + l)) ::
            (if wide then [.v (dst.toNat + 1) l (tget 0 c.w.spill (64 * (k.toNat + 1) + l))] else []))))

end Sys2Proof.Machine
end

