-- ==== Sys2Proof/Machine/Rendezvous.lean ====
section
/-! DEFINITION. Rendezvous points and timelines (11_rendezvous.md): arrivals, waits, timelines, and the limits of waits. -/

namespace Sys2Proof.Machine

/-- A word on a point: nothing when EFF is empty, RESERVED when the block lacks the team (R36, R212). -/
def pointWord (h : Hdr) (pt : BitVec 8) (s : State) (f : Ctx → PointRef → State) : Out :=
  issue s (fun c =>
    if !c.any h then c.done s id
    else match pointOf c.l c.id pt with
      | some p => f c p
      | none => raiseWave c s cRESERVED 0)

/-- R218: arrivals already counted in the open phase keep counting. -/
def Point.init (p : Point) (exp : BitVec 16) : Point :=
  let a := p.exp.toNat - p.arr.toNat
  { p with exp := exp, arr := BitVec.ofNat 16 (exp.toNat - a) }

def execRvinit (h : Hdr) (pt : BitVec 8) (exp : BitVec 16) (s : State) : Out :=
  pointWord h pt s (fun c p => c.done (setPoint s p ((getPoint s p).init exp).test) id)

def execRvexp (h : Hdr) (pt : BitVec 8) (src : BitVec 6) (s : State) : Out :=
  pointWord h pt s (fun c p =>
    let b := (c.s src).toNat
    let q := getPoint s p
    if bytesMax < b || (bytesMax : Int) < q.pend + b then raise c s cLIMIT aCALLER kBYTES 0 (BitVec.ofNat 64 bytesMax)
    else c.done (setPoint s p ({ q with pend := q.pend + b } : Point).test) id)

/-- PEND[39:0] << 24 | ARR << 8 | ERR << 1 | PH. -/
def Point.word (p : Point) : BitVec 64 :=
  BitVec.ofNat 64 ((p.pend % (2 : Int) ^ 40).toNat * 2 ^ 24 + p.arr.toNat * 2 ^ 8 + p.err * 2 + p.ph.toNat)

def execRvtest (h : Hdr) (pt : BitVec 8) (dst : BitVec 6) (s : State) : Out :=
  pointWord h pt s (fun c p => c.later s [s6 dst] [.s dst.toNat (getPoint s p).word])

/-- R213: the arrival is on its way; the wave goes on at once. -/
def execRvarr (h : Hdr) (pt : BitVec 8) (dst : BitVec 6) (rlx : Bool) (sc : Scope) (n : BitVec 8) (s : State) : Out :=
  pointWord h pt s (fun c p =>
    c.done s (fun w =>
      addPend { w with arrs := w.arrs ++ [{ seq := s.tick, tag := s.tick, pc := c.sl.path.pc, p := p, n := n.toNat, dst := dst.toNat,
                                            rlx := rlx, scope := sc, published := false, pub := none, watchIx := watchIx p, clock := [] }] }
        { tag := s.tick, kind := .other, dst := [s6 dst], writes := [], ready := false }))

/-- R213, step 1: every earlier `STG`, `STS`, `DSTS`, atomic and queue word of the wave is performed. -/
def relClear (w : Wave) (seq : Nat) : Bool :=
  !w.reqs.any (fun r => r.seq < seq && (match r.kind with
    | .stg _ => true | .atom _ _ _ _ _ _ _ => true | .remote _ _ _ _ _ _ => true | .far _ _ _ _ _ _ _ _ => true
    | _ => false)) &&
  !w.spq.any (fun o => o.seq < seq && (match o.kind with
    | .store _ _ => true | .ats _ _ _ _ _ => true | .cass _ _ _ _ => true | .qinit _ _ _ _ => true
    | .qpush _ _ => true | .qpop _ _ => true | _ => false))

/-- The arrival reaches its point (R218): LIMIT where fewer are awaited, else counted and tested. -/
def reachPoint (s : State) (id : WaveId) (w : Wave) (b : Block) (k : Nat) (a : Arr) : State :=
  let p := getPoint s a.p
  let w := { w with arrs := w.arrs.eraseIdx k }
  if p.arr.toNat < a.n then
    let t : Trap :=
      { code := cLIMIT, attr := aCALLER, construct := kARRIVE, pc := a.pc.toNat, pc2 := noPc, block := id.block, block2 := noPc,
        wave := waveNo id w, core := b.core, engine := w.engine, lanes := 0, value := BitVec.ofNat 64 p.exp.toNat }
    addTrap (s.setWave id w) id.serial t
  else
    let l := s.launch id.serial
    let key := match l with | some l => setKey l b.core id.serial id.block | none => 0
    let rel := if a.rlx || a.scope == .block then p.rel else max p.rel (tget 0 s.pubPt key)
    let q : Point := { p with arr := p.arr - BitVec.ofNat 16 a.n, rel := rel, clk := joinClock p.clk a.clock }
    let s := setPoint s a.p q.test
    let w := ({ w with watch := tput w.watch a.watchIx p.ph }).pendWrite a.tag [.s a.dst (if p.ph then 1 else 0)] true
    let s := s.setWave id w
    if a.p.cohort.isSome then endRelaunch s id.serial id.block else s

/-- An arrival whose flushing read returns an error (R206, R208): XLATE from the host, at the arrival's word. -/
def flushFails (s : State) (id : WaveId) (w : Wave) (b : Block) (l : Launch) (k : Nat) (a : Arr) : State :=
  addTrap (s.setWave id { w with arrs := w.arrs.eraseIdx k }) id.serial
    { code := cXLATE, attr := aHOST, construct := 0, pc := a.pc.toNat, pc2 := noPc, block := id.block, block2 := noPc,
      wave := waveNo id w, core := b.core, engine := w.engine, lanes := 0, value := flushBase (s.part l.offer.part) }

/-- ARRIVAL_AT_POINT: the next of the steps of R213 of an arrival of the wave. A relaxed arrival reaches its point at
any time. At scope `.SYSTEM` the last step follows the flushing read, which returns or fails. -/
def execArrivalAtPoint (id : WaveId) (step : ArrivalStep) (s : State) : Out :=
  let k := step.k
  match s.wave id, s.block id.serial id.block, s.launch id.serial with
  | some w, some b, some l =>
    (match w.arrs[k]? with
      | some a =>
        if a.rlx then .next (reachPoint s id w b k a)
        else if !a.published then
          if !relClear w a.seq then .next s
          else if a.scope == .block && redgWaits s id (setKey l b.core id.serial id.block) a.seq then .next s
          else if a.scope == .block then .next (reachPoint s id w b k { a with clock := releaseClock s id.serial id.block })
          else
            let r := publishSet s id (setKey l b.core id.serial id.block) b.core a.pc.toNat none
            let s := r.1
            let a := { a with published := true, pub := r.2, clock := releaseClock s id.serial id.block }
            let w := { w with arrs := w.arrs.set k a }
            if waitPub s r.2 && !redgWaits s id (setKey l b.core id.serial id.block) a.seq && a.scope != .system then .next (reachPoint s id w b k a) else .next (s.setWave id w)
        else if !waitPub s a.pub || redgWaits s id (setKey l b.core id.serial id.block) a.seq then .next s
        else if a.scope == .system && !step.ok then .next (flushFails s id w b l k a)
        else .next (reachPoint s id w b k a)
      | none => .next s)
  | _, _, _ => .next s

/-! ### Waits -/

/-- A copy's failure raised at the waiting word (R216, R221): code and attribution of Table 11-2, the engine's context. -/
def raiseCopy (c : Ctx) (s : State) (code engine value : Nat) (lanes : Mask) : State :=
  let e := errTrap code
  takeTrap c s { mkTrap c e.1 e.2.2 e.2.1 lanes (BitVec.ofNat 64 value) with engine := engine }

/-- A wait on a point raises the point's error. -/
def raisePoint (c : Ctx) (s : State) (r : PointRef) (p : Point) (lanes : Mask) : State :=
  let src := p.src.getD (0, 0, 0)
  raiseCopy c (setPoint s r { getPoint s r with raised := true }) p.err src.1 src.2.2 lanes

/-- R215: the wait ends; unless relaxed it starts a view and, under the determinism flag, ends a det phase. -/
def waitDone (c : Ctx) (s : State) (p : Point) (rlx : Bool) : State :=
  if rlx then s else acquire (c.newView s p.relDone) c.id.serial c.id.block p.clkDone

/-- The condition of `RVWAIT` (R216, R218). -/
def rvOver (p : Point) (par : Bool) : Bool := p.err != 0 || p.ph != par

/-- R218: the wait on a point that stood as `p` when its phase completed ends. -/
def rvwaitFinish (c : Ctx) (s : State) (r : PointRef) (p : Point) (rlx : Bool) : State :=
  if p.err != 0 then raisePoint c s r p 0 else c.done (waitDone c s p rlx) id

def execRvwait (h : Hdr) (pt : BitVec 8) (rlx : Bool) (par : BitVec 6) (lim : Lim 31) (s : State) : Out :=
  pointWord h pt s (fun c p =>
    let b := (c.s par).getLsbD 0
    let q := getPoint s p
    let s := if rlx then s else c.bar s
    if !rvOver q b then c.hold s (.rvwait p b rlx) (limVal c.l lim)
    else if rlx || q.err != 0 || c.clear s s.tick then rvwaitFinish c s p q rlx
    else c.holdMet s (.rvwait p b rlx) (limVal c.l lim) (some q))

/-- The point that a wait sees: as it stood when its phase completed (R211), or as it stands. -/
def Ctx.point (c : Ctx) (s : State) (r : PointRef) : Point := c.sl.seen.getD (getPoint s r)

/-- RVWAIT_COMPLETE: the phase has completed within the limit; an acquiring wait then waits as `NewView` does (R208). -/
def execRvwaitComplete (w : WaveId) (slotB : Bool) (s : State) : Out :=
  onPath s w slotB (fun c =>
    match c.sl.hold with
    | .rvwait p par rlx =>
      let q := c.point s p
      if c.metInTime s (rvOver q par) && (rlx || q.err != 0 || c.clear s c.sl.since) then rvwaitFinish c s p q rlx else s
    | _ => s)

/-- R219: the phase that the wave watches has completed; an arrival of the wave still on its way to the point writes
the watch bit first. -/
def yieldOver (q : Point) (w : Wave) (p : PointRef) : Bool :=
  q.err != 0 || (!w.arrs.any (fun a => a.watchIx == watchIx p) && q.ph != tget false w.watch (watchIx p))

/-- A point's error raised by `YIELDC` carries ACTIVE. DEDUCED (log 68). -/
def yieldFinish (c : Ctx) (s : State) (r : PointRef) (p : Point) (cont : BitVec 32) : State :=
  if p.err != 0 then raisePoint c s r p c.sl.path.mask
  else
    let s := (waitDone c s p false)
    s.modWave c.id (fun w => { w with watch := tput w.watch (watchIx r) p.ph }.setSlot c.slotB (some (c.sl.to cont)))

def execYieldc (pt : BitVec 8) (tgt : BitVec 24) (lim : Lim 15) (s : State) : Out :=
  issue s (fun c =>
    match pointOf c.l c.id pt with
    | none => raise c s cRESERVED aCALLER 0 c.sl.path.mask 0
    | some p =>
      let cont := target c.sl.path.pc tgt
      let q := getPoint s p
      let s := c.bar s
      if !yieldOver q c.w p then c.hold s (.yieldc p cont) (limVal c.l lim)
      else if q.err != 0 || c.clear s s.tick then yieldFinish c s p q cont
      else c.holdMet s (.yieldc p cont) (limVal c.l lim) (some q))

/-- YIELDC_RESUME. -/
def execYieldcResume (w : WaveId) (slotB : Bool) (s : State) : Out :=
  onPath s w slotB (fun c =>
    match c.sl.hold with
    | .yieldc p cont =>
      let q := c.point s p
      if c.metInTime s (c.sl.seen.isSome || yieldOver q c.w p) && (q.err != 0 || c.clear s c.sl.since) then yieldFinish c s p q cont
      else s
    | _ => s)

/-- CLWAIT_COMPLETE (R355): with the answer that has come in time, whatever has become of the entry since. -/
def execClwaitComplete (w : WaveId) (slotB : Bool) (s : State) : Out :=
  onPath s w slotB (fun c =>
    match c.sl.hold with
    | .clwait d ticket => (match c.sl.ans.or (clAnswers s c.id ticket) with
      | some x =>
        if (c.sl.ans.isSome || c.metInTime s true) && (!x.ready || c.clear s c.sl.since) then clwaitFinish c s d ticket x else s
      | none => s)
    | _ => s)

/-! ### Timelines (R220, R221) -/

/-- R221: a context that a handle names, where the launch's quotation holds it: whether of a sweep, and its number. -/
def handleIn (l : Launch) (h : DWord) : Option (Bool × Nat) :=
  let ctx := (h.extractLsb' 0 10).toNat
  if h.extractLsb' 32 32 != 0 || h.extractLsb' 10 20 != 0 then none
  else match (h.extractLsb' 30 2).toNat with
    | 0 => if l.ctxOf.any (fun p => p.2 == ctx) then some (false, ctx) else none
    | 1 => if l.offer.cores.contains (ctx / 4) && l.offer.swctx.getLsbD (ctx % 4) then some (true, ctx) else none
    | _ => none

def handleOf (c : Ctx) (h : DWord) : Option (Bool × Nat) := handleIn c.l h

def timelineOf (s : State) (sweep : Bool) (ctx : Nat) : Nat := if sweep then (s.sweepCtx ctx).timeline else (s.copyCtx ctx).timeline
def failsOf (s : State) (sweep : Bool) (ctx : Nat) : List FailRec := if sweep then (s.sweepCtx ctx).failed else (s.copyCtx ctx).failed
def relPtOf (s : State) (sweep : Bool) (ctx : Nat) : Nat := if sweep then (s.sweepCtx ctx).relPt else (s.copyCtx ctx).relPt
def ctxEngine (sweep : Bool) (ctx : Nat) : Nat := if sweep then 0x4000 + ctx else copyEngine ctx

/-- Failures of a launch at or below a number are observed. -/
def observe (s : State) (sweep : Bool) (ctx serial num : Nat) : State :=
  let f (fs : List FailRec) := fs.map (fun r => if r.serial = serial && r.num ≤ num then { r with observed := true } else r)
  if sweep then s.modSweep ctx (fun c => { c with failed := f c.failed }) else s.modCopy ctx (fun c => { c with failed := f c.failed })

/-- R221: the wait ends: with the code of a failed operation, or past it. -/
def tlFinish (c : Ctx) (s : State) (sweep : Bool) (ctx num : Nat) (rlx : Bool) : State :=
  match (failsOf s sweep ctx).find? (fun r => r.serial == c.id.serial && r.num ≤ num) with
  | some r => raiseCopy c (observe s sweep ctx c.id.serial num) r.code (ctxEngine sweep ctx) r.value 0
  | none => c.done (if rlx then s else acquire (c.newView s (relPtOf s sweep ctx)) c.id.serial c.id.block []) id

/-- A wait whose timeline stands at its number ends at once, or starts its view when earlier loads are performed (R208). -/
def tlClear (c : Ctx) (s : State) (sweep : Bool) (ctx num : Nat) (rlx : Bool) (seq : Nat) : Bool :=
  rlx || (failsOf s sweep ctx).any (fun r => r.serial == c.id.serial && r.num ≤ num) || c.clear s seq

/-- R221: a handle that names no context of the launch is PROT; the record's VALUE is the handle's register.
DESIGN CHOICE (log 101). -/
def raiseHandle (c : Ctx) (s : State) (h : DWord) : State := raiseWave c s cPROT h

def execTlwait (h : Hdr) (num : BitVec 6) (rlx : Bool) (hdl : BitVec 6) (lim : Lim 31) (s : State) : Out :=
  issue s (fun c =>
    if !c.any h then c.done s id
    else match handleOf c (c.s hdl) with
      | none => raiseHandle c s (c.s hdl)
      | some (sweep, ctx) =>
        let n := (c.s num).toNat
        let s := if rlx then s else c.bar s
        if timelineOf s sweep ctx < n then c.hold s (.tlwait sweep ctx n rlx) (limVal c.l lim)
        else if tlClear c s sweep ctx n rlx s.tick then tlFinish c s sweep ctx n rlx
        else c.holdMet s (.tlwait sweep ctx n rlx) (limVal c.l lim) none)

def execTlread (h : Hdr) (dst hdl : BitVec 6) (s : State) : Out :=
  issue s (fun c =>
    if !c.any h then c.done s id
    else match handleOf c (c.s hdl) with
      | none => raiseHandle c s (c.s hdl)
      | some (sweep, ctx) => c.later s [s6 dst] [.s dst.toNat (BitVec.ofNat 64 (timelineOf s sweep ctx))])

/-- TLWAIT_COMPLETE. -/
def execTlwaitComplete (w : WaveId) (slotB : Bool) (s : State) : Out :=
  onPath s w slotB (fun c =>
    match c.sl.hold with
    | .tlwait sweep ctx n rlx =>
      if c.metInTime s (n ≤ timelineOf s sweep ctx) && tlClear c s sweep ctx n rlx c.sl.since then tlFinish c s sweep ctx n rlx else s
    | _ => s)

/-! ### Limits (R218, R303) -/

/-- A queue place that the expired wait held. -/
def leaveWait (c : Ctx) (s : State) : State :=
  match c.sl.hold with
  | .rtake _ => s.modBlock c.id.serial c.id.block (fun b => b.leavePool c.id c.slotB)
  | _ => s

/-- DEDUCED (log 18). -/
def limited : Hold → Bool
  | .rvwait _ _ _ => true | .tlwait _ _ _ _ => true | .clwait _ _ => true | .rtake _ => true | .yieldc _ _ => true
  | _ => false

/-- Table 23-2: a trap of `YIELDC`, a word of control format (R219), carries ACTIVE. DEDUCED (log 68). -/
def waitLanes (c : Ctx) : Mask := match c.sl.hold with | .yieldc _ _ => c.sl.path.mask | _ => 0

/-- Whether what a held path waits for stands now (R143, R218, R219, R221, R355). -/
def waitHolds (s : State) (c : Ctx) : Bool :=
  match c.sl.hold with
  | .rvwait p par _ => rvOver (c.point s p) par
  | .yieldc p _ => c.sl.seen.isSome || yieldOver (getPoint s p) c.w p
  | .tlwait sweep ctx n _ => n ≤ timelineOf s sweep ctx
  | .clwait _ ticket => c.sl.ans.isSome || (clReady s c.id ticket).isSome
  | .rtake n => canTake c.b c.id c.slotB n
  | _ => false

/-- The point that a wait on a point watches. -/
def waitPoint (s : State) : Hold → Option Point
  | .rvwait p _ _ => some (getPoint s p)
  | .yieldc p _ => some (getPoint s p)
  | _ => none

/-- WAIT_LIMIT_EXPIRY: the wait has run past its limit of resident core cycles and what it waits for has not come about
within it: LIMIT WAIT at the waiting word. -/
def execWaitLimitExpiry (w : WaveId) (site : HoldSite) (s : State) : Out :=
  let expire (slotB : Bool) : Out := onPath s w slotB (fun c =>
    if limited c.sl.hold && !c.inTime s && !c.metInTime s (waitHolds s c) then
      raise c (leaveWait c s) cLIMIT (waitAttr c.l c.sl.since) kWAIT (waitLanes c) (BitVec.ofNat 64 c.sl.limit)
    else s)
  match site with
  | .slotA => expire false
  | .slotB => expire true
  | .spad => match spHead s w with
    | some (x, b, op) =>
      let waits := match op.kind with | .qpush _ _ => true | .qpop _ _ => true | _ => false
      if waits && !inTime x b.core s.tick op.start op.limit && !queueMet s w x b op then .next (trapSpLimit s w x b op kWAIT)
      else .next s
    | none => .next s

/-! ### What comes about while a word waits (R168, R211, R303) -/

/-- The answer that a `CLWAIT` waits for. -/
def waitAns (s : State) (id : WaveId) : Hold → Option ClAns
  | .clwait _ ticket => clAnswers s id ticket
  | _ => none

/-- A held path notes whether what it waits for has come about, and whether within its limit. A wait on a point keeps the
point as it then stood, a `CLWAIT` the answer that came in time. -/
def noteSlot (s : State) (id : WaveId) (slotB : Bool) : State :=
  match s.ctxAt id slotB with
  | some c =>
    if !limited c.sl.hold || c.sl.met == some false || c.sl.seen.isSome then s
    else if !waitHolds s c then
      (if c.sl.met.isNone then s else s.modWave id (fun w => w.setSlot slotB (some { c.sl with met := none })))
    else if c.sl.met.isSome then s
    else s.modWave id (fun w => w.setSlot slotB (some { c.sl with met := some (c.inTime s), seen := waitPoint s c.sl.hold,
                                                                         ans := if c.inTime s then waitAns s id c.sl.hold else none }))
  | none => s

/-- A waiting push or pop notes the same. An `LDS` at the head that finds a line empty waits, and its wait is over for good
when every line is full (R165). -/
def noteQueue (s : State) (id : WaveId) : State :=
  match spHead s id with
  | some (w, b, op) =>
    let holds := queueReady s id w b op
    (match op.kind with
      | .qpush _ _ => if op.met == some false || op.met.isSome == holds then s
          else setSpHead s id { op with met := if holds then some (inTime w b.core s.tick op.start op.limit) else none }
      | .qpop _ _ => if op.met == some false || op.met.isSome == holds then s
          else setSpHead s id { op with met := if holds then some (inTime w b.core s.tick op.start op.limit) else none }
      | .lds _ _ _ _ lines =>
          let now := filled b op lines
          if op.left.isSome || op.met == some true || op.met == some now || (op.met.isNone && now) then s
          else setSpHead s id { op with met := some now }
      | _ => s)
  | none => s

/-- After a step every waiting word notes what has come about. DEDUCED (log 18). -/
def noteWaits (s : State) : State :=
  s.waves.foldl (fun s p =>
    let id : WaveId := { serial := p.1 / 128 / 2 ^ 32, block := p.1 / 128 % 2 ^ 32, wave := p.1 % 128 }
    noteQueue (noteSlot (noteSlot s id false) id true) id) s

end Sys2Proof.Machine
end

