-- ==== Sys2Proof/Machine/Copy.lean ====
section
/-! DEFINITION. Layout records, the copy words and the copy engines (14_copy.md). -/

namespace Sys2Proof.Machine

/-! ### Layout records (R250, R251, R253) -/

/-- A well-formed record; lists run over dimensions 0 to 3. -/
structure LRec where
  base : Nat
  fill : BitVec 32
  swz : Nat
  conv : Bool
  ind : Bool
  ndim : Nat
  csat : Bool
  crnd : Nat
  fty : Ty
  tty : Ty
  ext : List Nat
  str : List Int
  win : List Nat
  org : List Int
  idim : Nat
  ibase : Nat
  cs : List Nat
  dl : List Nat
  pd : List Nat
  fo : List Nat
deriving DecidableEq, Repr

/-- R251: the pairs of types that a copy converts between. -/
def copyTypes (tty fty : Ty) : Bool :=
  tty == fty || [(Ty.bf16, Ty.e4m3), (.bf16, .e5m2), (.e4m3, .bf16), (.e5m2, .bf16)].contains (tty, fty)

/-- The record in twelve words; none where it is not well formed. -/
def recOf (ws : List DWord) : Option LRec :=
  let w (i : Nat) : Nat := (ws.getD i 0).toNat
  let nd := bits (w 1) 13 12
  let conv := (w 1).testBit 15
  let ind := (w 1).testBit 14
  let dims := List.range 4
  let ext (d : Nat) := bits (w (2 + d)) 63 40
  let win (d : Nat) := bits (w 6) (16 * d + 15) (16 * d)
  let org (d : Nat) : Int := signedOf 32 (if d < 2 then bits (w 7) (32 * d + 31) (32 * d) else bits (w 8) (32 * d - 33) (32 * d - 64))
  match tyOfCode (BitVec.ofNat 4 (bits (w 1) 7 4)), tyOfCode (BitVec.ofNat 4 (bits (w 1) 3 0)) with
  | some fty, some tty =>
    let ok := bits (w 0) 63 57 == 0 && bits (w 1) 31 19 == 0 && bits (w 1) 11 11 == 0 && fty != .q4 && tty != .q4 &&
      copyTypes tty fty && bits (w 1) 9 8 < 2 && (tty != fty || bits (w 1) 10 8 == 0) &&
      dims.all (fun d => if d ≤ nd then 1 ≤ ext d && 1 ≤ win d else w (2 + d) == 0 && win d == 0) &&
      [2, 3].all (fun d => d ≤ nd || bits (w 8) (32 * d - 33) (32 * d - 64) == 0) &&
      bits (w 9) 63 59 == 0 && (if ind then bits (w 9) 58 57 ≤ nd else w 9 == 0) &&
      bits (w 11) 63 32 == 0 &&
      (if conv then nd == 3 && !ind && [7, 15, 23, 31].all (fun k => 1 ≤ bits (w 10) k (k - 7)) else w 10 == 0 && w 11 == 0)
    if ok then
      some { base := bits (w 0) 56 0, fill := (ws.getD 1 0).extractLsb' 32 32, swz := bits (w 1) 18 16, conv := conv, ind := ind,
             ndim := nd + 1, csat := (w 1).testBit 10, crnd := bits (w 1) 9 8, fty := fty, tty := tty,
             ext := dims.map ext, str := dims.map (fun d => signedOf 40 (bits (w (2 + d)) 39 0)),
             win := dims.map win, org := dims.map org, idim := bits (w 9) 58 57, ibase := bits (w 9) 56 0,
             cs := [0, bits (w 10) 7 0, bits (w 10) 15 8, 0], dl := [0, bits (w 10) 23 16, bits (w 10) 31 24, 0],
             pd := [0, bits (w 10) 47 32, bits (w 10) 63 48, 0], fo := [0, bits (w 11) 15 0, bits (w 11) 31 16, 0] }
    else none
  | _, _ => none

def LRec.w (r : LRec) (d : Nat) : Nat := max 1 (r.win.getD d 1)
/-- N, the positions of the window. -/
def LRec.count (r : LRec) : Nat := r.w 0 * r.w 1 * r.w 2 * r.w 3
/-- P, the bytes of a tile row. -/
def LRec.rowBytes (r : LRec) : Nat := r.w 0 * r.fty.size
def LRec.pitch (r : LRec) : Nat := if r.swz = 0 then r.rowBytes else 32 * ceilDiv r.rowBytes 32 + 32 * r.swz
/-- T. -/
def LRec.tileBytes (r : LRec) : Nat := r.count * r.fty.size
def LRec.span (r : LRec) : Nat := (r.count / r.w 0 - 1) * r.pitch + r.rowBytes
/-- B. -/
def LRec.bytes (r : LRec) : Nat := r.count * max r.tty.size r.fty.size + (if r.ind then 4 * r.w r.idim else 0)
/-- Offset of position `j` in the tile. -/
def LRec.tileOff (r : LRec) (j : Nat) : Nat := j / r.w 0 * r.pitch + j % r.w 0 * r.fty.size
/-- Components of position `j`. -/
def LRec.pos (r : LRec) (j : Nat) : List Nat :=
  [j % r.w 0, j / r.w 0 % r.w 1, j / r.w 0 / r.w 1 % r.w 2, j / r.w 0 / r.w 1 / r.w 2]

/-- The fill element (Table 14-1); the FILL field states 32 bits. DESIGN CHOICE (log 11). -/
def LRec.fillBytes (r : LRec) : List Byte :=
  leBytes (if r.fty.size = 8 then r.fill.toNat + 2 ^ 32 * (Config.fillHigh r.fill).toNat else r.fill.toNat) r.fty.size

/-! ### Conversion (R254) -/

def rndOf (n : Nat) : Rnd := if n = 0 then .rne else .rtz

/-- BF16 to an 8-bit format. -/
def narrow (f : Fmt) (rm : Rnd) (csat : Bool) (n : Nat) : Nat :=
  let ovf (neg : Bool) : Nat := if !csat then f.withSign neg f.maxEnc else if f.inf then f.withSign neg f.infEnc else f.nan
  match fmtBF16.decode n with
  | .nan => f.nan
  | .inf neg => ovf neg
  | .fin neg m e =>
    if m = 0 then f.withSign neg 0
    else let k := roundEnc f rm neg m e false; if f.maxEnc < k then ovf neg else f.withSign neg k

/-- One element from the source type to the destination type. -/
def convElem (r : LRec) (src dst : Ty) (n : Nat) : Nat :=
  if src = dst then n
  else if src = .bf16 then narrow (fmtOf dst) (rndOf r.crnd) r.csat n
  else convert src dst .rne n

/-! ### Where a position lies (R252) -/

/-- Where a position's element lies: out of range, at translated bytes, or a failure of ERR `code`. -/
inductive Elem where
  | out
  | at_ (addr : Nat) (xs : List Xl)
  | bad (code value : Nat)
deriving DecidableEq, Repr

/-- ERR of a failed translation (Table 11-2). -/
def errOf (code attr : Nat) : Nat := if code = cXLATE then (if attr = aHOST then 8 else 1) else 2

/-- A byte that no tier has is one without a translation. DESIGN CHOICE (log 1). -/
def Xl.present : Xl → Xl
  | .at_ loc => if absent loc then .bad cXLATE aCALLER else .at_ loc
  | x => x

/-- Bytes of an engine's access. -/
def engAccess (s : State) (m : Mapping) (a : Nat) (n : Nat) (k : Acc) : List Xl :=
  (List.range n).map (fun i =>
    match (translateEngine s m (BitVec.ofNat 64 (a + i)) k).present with
    | .at_ loc => if k != .load && lockedAt s loc then .bad cPROT aCALLER else .at_ loc
    | x => x)

/-- R258: an element that a copy reads, where it has itself written the bytes `old`: all of it as the copy wrote it, or, where
some of its bytes are not written, all of it as it was before the copy. DEDUCED (log 27). -/
def readWhole (s : State) (old : Tab Byte) (locs : List Nat) : List Byte :=
  if locs.all (fun l => (tfind old l).isSome) then locs.map (memByte s) else locs.map (fun l => (tfind old l).getD (memByte s l))

/-- The home bytes of a local access, or the ERR of the read: a failed translation, or an uncorrectable error. -/
def homeRead (s : State) (old : Tab Byte) (xs : List Xl) : Nat ⊕ List Byte :=
  match firstBad xs with
  | some (c, a) => .inl (errOf c a)
  | none =>
    let locs := locsOf xs
    if locs.any (badUnit s) then .inl 6 else .inr (readWhole s old locs)

/-- The index of the indirect dimension at position `k`. -/
def indexAt (s : State) (m : Mapping) (old : Tab Byte) (r : LRec) (k : Nat) : (Nat × Nat) ⊕ Int :=
  let a : Int := (r.ibase : Int) + 4 * (r.org.getD r.idim 0 + k)
  if a < 0 || (2 : Int) ^ 57 ≤ a then .inl (1, (BitVec.ofInt 64 a).toNat)
  else
    let xs := (access s m (BitVec.ofInt 64 a) 4 .load).map Xl.present
    match homeRead s old xs with
    | .inl e => .inl (e, a.toNat)
    | .inr bs => .inr (signedOf 32 (ofLeBytes bs))

/-- Coordinates of a position. The index of an indirect dimension is read whether or not another coordinate is in range.
DESIGN CHOICE (log 105). -/
def coords (s : State) (m : Mapping) (old : Tab Byte) (r : LRec) (j : Nat) : (Nat × Nat) ⊕ List Int :=
  let p := r.pos j
  let o (d : Nat) : Int := r.org.getD d 0 + p.getD d 0
  if r.conv then
    let c (d : Nat) : Int := o d * r.cs.getD d 0 + r.fo.getD d 0 * r.dl.getD d 0 - r.pd.getD d 0
    .inr [o 0, c 1, c 2, o 3]
  else if r.ind then
    match indexAt s m old r (p.getD r.idim 0) with
    | .inl e => .inl e
    | .inr x => .inr ((List.range 4).map (fun d => if d = r.idim then x else o d))
  else .inr ((List.range 4).map o)

/-- R252: the element of position `j` for an access of kind `k`, of a copy that has written the bytes `old`. An exact address
that 57 bits do not hold, one below 0 or past 64 bits among them, fails. DESIGN CHOICE (log 104). -/
def elemOf (s : State) (m : Mapping) (old : Tab Byte) (r : LRec) (j : Nat) (k : Acc) : Elem :=
  match coords s m old r j with
  | .inl e => .bad e.1 e.2
  | .inr cs =>
    let inside := (List.range r.ndim).all (fun d => 0 ≤ cs.getD d 0 && cs.getD d 0 < (r.ext.getD d 0 : Int))
    if !inside then .out
    else
      let a := (List.range r.ndim).foldl (fun (a : Int) d => a + cs.getD d 0 * r.str.getD d 0) (r.base : Int)
      if a < 0 || (2 : Int) ^ 57 ≤ a then .bad 1 (BitVec.ofInt 64 a).toNat
      else
        let xs := engAccess s m a.toNat r.tty.size k
        match firstBad xs with
        | some (c, at_) => .bad (errOf c at_) a.toNat
        | none => .at_ a.toNat xs

/-! ### Writes of an engine (R176, R194, R258) -/

/-- Device bytes grouped by their 32-byte unit, in order of first writing; a later byte replaces an earlier one. -/
def unitGroups (bs : List (Nat × Byte × BitVec 64)) : List (Nat × Tab SByte) :=
  bs.foldl (fun gs b =>
    let u := b.1 / 32
    if gs.any (fun g => g.1 == u) then
      gs.map (fun g => if g.1 = u then (u, tput g.2 b.1 { val := b.2.1, dva := b.2.2 }) else g)
    else gs ++ [(u, [(b.1, { val := b.2.1, dva := b.2.2 })])]) []

/-- One unit written: whole, or into a unit without an error; otherwise nothing is written. -/
def writeUnit (s : State) (u : Nat) (t : Tab SByte) : State × Bool :=
  let whole := (List.range 32).all (fun i => (tfind t (32 * u + i)).isSome)
  if badUnit s (32 * u) && !whole then (s, false)
  else
    let s := if whole then { s with bad := s.bad.filter (fun x => x != redir s (32 * u) / 32) } else s
    (homeWrite s (t.map (fun b => (b.1, b.2.val))), true)

/-- The units of a remote write, each one event of H; answers the address of the first byte of a unit that fails. -/
def engineWrite (s : State) (bs : List (Nat × Byte × BitVec 64)) : State × Option Nat :=
  (unitGroups bs).foldl (fun (acc : State × Option Nat) g =>
    match acc.2 with
    | some _ => acc
    | none =>
      let r := writeUnit acc.1 g.1 g.2
      (r.1, if r.2 then none else (g.2.head?).map (fun b => b.2.dva.toNat))) (s, none)

/-! ### The words (R248, R255, R256) -/

/-- Touches of a copy under the determinism flag (R313): the device bytes of its positions in range, read and written,
whatever its limit. -/
def copyTouches (s : State) (m : Mapping) (kind : Nat) (ws : List DWord) (tile : Int) : List (Nat × BitVec 64) × List (Nat × BitVec 64) :=
  match recOf ws with
  | none => ([], [])
  | some r =>
    let name (a : Nat) (xs : List Xl) : List (Nat × BitVec 64) :=
      (touched xs).zipIdx.map (fun p => (p.1, BitVec.ofNat 64 (a + p.2)))
    let out := kind == 1 || kind == 3
    (List.range r.count).foldl (fun (acc : List (Nat × BitVec 64) × List (Nat × BitVec 64)) j =>
      match elemOf s m [] r j (if out then .store else .load) with
      | .at_ a xs =>
        let tensor := name a xs
        let ta := (tile + r.tileOff j).toNat
        let tileB := if kind < 2 then [] else name ta (access s m (BitVec.ofNat 64 ta) r.fty.size (if out then .load else .store))
        if out then (acc.1 ++ tileB, acc.2 ++ tensor) else (acc.1 ++ tensor, acc.2 ++ tileB)
      | _ => acc) ([], [])

/-- The first of a copy's bytes that conflicts, by its device address, and the earlier touch (R314). -/
def copyConflict (c : Ctx) (kind : Nat) (at_ : List (Nat × BitVec 64)) : Option (BitVec 64 × Touch) :=
  (findConflict c.l c.b c.id.block kind (at_.map (fun x => x.1))).map (fun f => ((tfind at_ f.1).getD 0, f.2))

/-- The four copy words: the command is on its way to the context of the core. -/
def copyWord (kind : Nat) (a : CpyArgs) (s : State) : Out :=
  issue s (fun c =>
    if !c.any a.h then c.done s id
    else
      let pt := if a.pt = 0xFF then some none else (pointOf c.l c.id a.pt).map some
      match pt with
      | none => raiseWave c s cRESERVED 0
      | some pt =>
        let ws := (List.range 12).map (fun i => c.w.readS (a.b.toNat + i))
        let tile := c.s a.t
        let limit := 128 * limVal c.l a.lim
        let t := if c.det then copyTouches s (c.mapping s) kind ws tile.toInt else ([], [])
        match if c.det then (copyConflict c 0 t.1).or (copyConflict c 1 t.2) else none with
        | some f => raiseConflict c s [] f.1 f.2
        | none =>
          let touch (s : State) (kind : Nat) (at_ : List (Nat × BitVec 64)) : State :=
            addTouches s c.id.serial c.id.block kind c.sl.path.pc.toNat (at_.map (fun x => x.1))
          let s := if c.det then touch (touch s 0 t.1) 1 t.2 else s
          let cmd : Cmd := { seq := s.tick, tag := s.tick, pc := c.sl.path.pc, ctx := tget 0 c.l.ctxOf c.b.core, kind := kind,
                             d := a.d.toNat, rcd := ws, tile := tile, limit := limit, pt := pt,
                             pubs := (pubsOf s c.key).map (fun p => p.id) }
          let s := c.done s (fun w => addPend { w with cmds := w.cmds ++ [cmd] }
            { tag := s.tick, kind := .other, dst := [.s a.d.toNat, .s (a.d.toNat + 1)], writes := [], ready := false })
          if kind = 1 || kind = 3 then endRelaunch s c.id.serial c.id.block else s)

def execCpy (a : CpyArgs) (s : State) : Out := copyWord 0 a s
def execCpyx (a : CpyArgs) (s : State) : Out := copyWord 1 a s
def execCpyrIn (a : CpyArgs) (s : State) : Out := copyWord 2 a s
def execCpyrOut (a : CpyArgs) (s : State) : Out := copyWord 3 a s

/-- R260: the low 64 bits of T, SPAN or B, which may pass them. DESIGN CHOICE (log 103). -/
def execLrchk (h : Hdr) (sel : LrSel) (dst b : BitVec 8) (s : State) : Out :=
  issue s (fun c =>
    if !c.any h then c.done s id
    else match recOf ((List.range 12).map (fun i => c.w.readS (b.toNat + i))) with
      | none => raiseWave c s cRESERVED 0
      | some r =>
        let n := match sel with | .tile => r.tileBytes | .span => r.span | .bytes => r.bytes
        c.write s [.s dst.toNat (BitVec.ofNat 64 n)])

/-! ### The engine -/

/-- COPY_COMMAND_ARRIVAL: the wave's earliest command reaches its context (R248). -/
def execCopyCommandArrival (id : WaveId) (s : State) : Out :=
  match s.wave id, s.block id.serial id.block with
  | some w, some b =>
    (match w.cmds with
      | cmd :: rest =>
        if w.spq.any (fun o => o.seq < cmd.seq) || !cmd.pubs.all (fun p => pubPerformed s p) then .next s
        else
          let x := s.copyCtx cmd.ctx
          let op : CopyOp := { num := x.nextNum, serial := id.serial, block := id.block, core := b.core, wave := waveNo id w,
                               pc := cmd.pc.toNat, kind := cmd.kind, rcd := cmd.rcd, tile := cmd.tile.toInt, limit := cmd.limit, pt := cmd.pt }
          let s := s.modCopy cmd.ctx (fun x => { x with nextNum := x.nextNum + 1, ops := x.ops ++ [op] })
          .next (s.setWave id ({ w with cmds := rest }.pendWrite cmd.tag
            [.s cmd.d (BitVec.ofNat 64 x.nextNum), .s (cmd.d + 1) (BitVec.ofNat 64 cmd.ctx)] true))
      | [] => .next s)
  | _, _ => .next s

/-- The operation at the head of a context. -/
def State.copyHead (s : State) (ctx : Nat) : Option CopyOp := (s.copyCtx ctx).ops.head?

def setHead (s : State) (ctx : Nat) (f : CopyOp → CopyOp) : State :=
  s.modCopy ctx (fun x => match x.ops with
    | o :: t => { x with ops := f o :: t }
    | [] => x)

/-- R256: the operation fails; it still counts as finished. -/
def copyFail (s : State) (ctx : Nat) (op : CopyOp) (code value : Nat) : State :=
  let s := failPoint s op.pt code (copyEngine ctx, op.pc, value)
  let s := s.modCopy ctx (fun x => { x with failed := x.failed ++ [{ num := op.num, code := code, serial := op.serial, pc := op.pc, value := value }] })
  setHead s ctx (fun o => { o with started := true, failed := true })

/-- R256: the checks of an operation, or the ERR and value it fails with. The value of LIMIT BYTES is the limit in bytes,
128 times L. DESIGN CHOICE (log 82). -/
def copyCheck (s : State) (op : CopyOp) : (Nat × Nat) ⊕ LRec :=
  let v := (BitVec.ofInt 64 op.tile).toNat
  match recOf op.rcd with
  | none => .inl (5, 0)
  | some r =>
    if op.kind ≥ 2 && r.swz != 0 then .inl (5, 0)
    else if op.limit < r.bytes then .inl (7, op.limit)
    else if op.kind < 2 then
      (if op.tile % 128 != 0 then .inl (3, v)
       else if op.tile < 0 || (scratchOf s op.serial : Int) < op.tile + r.span then .inl (4, v)
       else .inr r)
    else if op.tile % 32 != 0 then .inl (3, v)
    else .inr r

/-- COPY_OPERATION_START. -/
def execCopyOperationStart (ctx : Nat) (s : State) : Out :=
  match s.copyHead ctx with
  | some op =>
    if op.started then .next s
    else (match copyCheck s op with
      | .inl e => .next (copyFail s ctx op e.1 e.2)
      | .inr _ => .next (setHead s ctx (fun o => { o with started := true })))
  | none => .next s

/-- The run of the operation that a remote byte lies in. -/
def runOf (rem : List RemRun) (dev addr : Nat) : Option RemRun :=
  rem.find? (fun r => r.dev == dev && r.addr ≤ addr && addr < r.addr + r.len)

/-- The answer of a remote byte, from the runs of the operation. -/
def farByte (rem : List RemRun) (dev addr : Nat) : Byte :=
  ((runOf rem dev addr).bind (fun r => r.got.map (fun g => g.2.getD (addr - r.addr) 0))).getD 0

/-- Whether position `j` is the first to read its index (R259): each index counts once. -/
def firstIndex (r : LRec) (j : Nat) : Bool :=
  let p := r.pos j
  r.ind && (List.range 4).all (fun d => d == r.idim || p.getD d 0 == 0)

/-- The index bytes of position `j`, counted to the tier that they reach (R259). -/
def countIndex (s : State) (m : Mapping) (r : LRec) (j : Nat) (t : Turn) : Turn :=
  if firstIndex r j then
    let a : Int := (r.ibase : Int) + 4 * (r.org.getD r.idim 0 + (r.pos j).getD r.idim 0)
    let locs := locsOf (access s m (BitVec.ofInt 64 a) 4 .load)
    { t with moved := t.moved ++ locs.map (fun l => (tierOf s l, 1)), hot := t.hot ++ [locs] }
  else t

/-- The tier at whose rate the tile side counts: the scratchpad, or for `CPYR` the device-memory rate of the quotation
(R259). -/
def tileTier (s : State) (op : CopyOp) : Nat :=
  if op.kind < 2 then 0 else match s.launch op.serial with | some l => if l.offer.g2400 then 2 else 1 | none => 1

/-- The tile bytes of a device tile (`CPYR`), or the failure of reaching them. -/
def tileAccess (s : State) (m : Mapping) (op : CopyOp) (r : LRec) (j : Nat) (k : Acc) : (Nat × Nat) ⊕ (BitVec 64 × List Nat) :=
  let a := BitVec.ofInt 64 (op.tile + r.tileOff j)
  let xs := (access s m a r.fty.size k).map Xl.present
  match firstBad xs with
  | some (c, at_) => .inl (errOf c at_, a.toNat)
  | none => .inr (a, locsOf xs)

/-- Position `j` of a copy into the tile. -/
def turnIn (s : State) (m : Mapping) (op : CopyOp) (r : LRec) (j : Nat) (t : Turn) : Turn :=
  let put (bs : List Byte) (u : Turn) : Turn :=
    if op.kind = 0 then
      { u with tile := u.tile ++ [((op.tile + r.tileOff j).toNat, bs)], moved := u.moved ++ [(tileTier s op, r.fty.size)], upto := j + 1 }
    else match tileAccess s m op r j .store with
      | .inl e => { t with fail := some e, upto := j }
      | .inr (a, locs) =>
        { u with dev := u.dev ++ (locs.zip bs).zipIdx.map (fun p => (j, p.1.1, p.1.2, a + BitVec.ofNat 64 p.2)), hot := u.hot ++ [locs], upto := j + 1 }
  match elemOf s m op.old r j .load with
  | .bad c v => { t with fail := some (c, v) }
  | .out => put r.fillBytes (countIndex s m r j t)
  | .at_ a xs =>
    let locs := locsOf xs
    if locs.any (badUnit s) then { t with fail := some (6, a) }
    else
      let here := locs.zip (readWhole s op.old locs)
      let bs := xs.map (fun x => match x with | .at_ l => (tfind here l).getD 0 | .remote d y => farByte op.rem d y | .bad _ _ => 0)
      let far := xs.filterMap (fun x => match x with | .remote d y => some (d, y, (0 : Byte)) | _ => none)
      let tier (x : Xl) : Nat := match x with | .at_ l => tierOf s l | _ => 4
      let t := countIndex s m r j t
      put (leBytes (convElem r r.tty r.fty (ofLeBytes bs)) r.fty.size)
        { t with far := t.far ++ far, moved := t.moved ++ xs.map (fun x => (tier x, 1)), hot := t.hot ++ [locs] }

/-- Position `j` of a copy out of the tile. Under the determinism flag the bytes for another device are staged with the
others, under their keys (R258). -/
def turnOut (s : State) (m : Mapping) (det : Bool) (op : CopyOp) (r : LRec) (j : Nat) (t : Turn) : Turn :=
  match elemOf s m op.old r j .store with
  | .bad c v => { t with fail := some (c, v) }
  | .out =>
    let t := countIndex s m r j t
    { t with moved := t.moved ++ [(tileTier s op, r.fty.size)], upto := j + 1 }
  | .at_ a xs =>
    let src : (Nat × Nat) ⊕ List Nat × List Byte :=
      if op.kind = 1 then .inr ([], scrBytes s op.serial op.block false (op.tile + r.tileOff j).toNat r.fty.size)
      else match tileAccess s m op r j .load with
        | .inl e => .inl e
        | .inr (b, locs) => if locs.any (badUnit s) then .inl (6, b.toNat) else .inr (locs, readWhole s op.old locs)
    match src with
    | .inl e => { t with fail := some e }
    | .inr (locs, bs) =>
      let t := countIndex s m r j t
      let out := leBytes (convElem r r.fty r.tty (ofLeBytes bs)) r.tty.size
      let both := (xs.zip out).zipIdx
      let dev := both.filterMap (fun p => match p.1.1 with
        | .at_ l => some (j, l, p.1.2, BitVec.ofNat 64 (a + p.2))
        | .remote d y => if det then some (j, farKey d y, p.1.2, BitVec.ofNat 64 (a + p.2)) else none
        | .bad _ _ => none)
      let far := if det then [] else
        both.filterMap (fun p => match p.1.1 with | .remote d y => some (d, y, p.1.2) | _ => none)
      { t with dev := t.dev ++ dev, far := t.far ++ far, moved := t.moved ++ [(tileTier s op, r.fty.size), (4, far.length)],
               hot := t.hot ++ [locs, locsOf xs], upto := j + 1 }

/-- The 64-byte unit of the tile that position `j` starts in (R153, R258). -/
def tileUnit (op : CopyOp) (r : LRec) (j : Nat) : Int := (op.tile + r.tileOff j) / 64

/-- The positions of the next event: those of one 64-byte unit of the tile, in ascending order. -/
def nextUnit (op : CopyOp) (r : LRec) : List Nat :=
  let j0 := op.next / r.fty.size
  ((List.range (min 64 (r.count - j0))).map (j0 + ·)).takeWhile (fun j => tileUnit op r j == tileUnit op r j0)

/-- One event gathered, until a position fails. -/
def gather (s : State) (m : Mapping) (det : Bool) (op : CopyOp) (r : LRec) : Turn :=
  (nextUnit op r).foldl (fun t j =>
    if t.fail.isSome then t
    else if op.kind = 0 || op.kind = 2 then turnIn s m op r j t else turnOut s m det op r j t) { upto := op.next / r.fty.size }

/-- The requests of a turn's remote bytes leave (R382). -/
def sendRuns (s : State) (ctx : Nat) (out : Bool) (far : List (Nat × Nat × Byte)) : State :=
  (runsOfFar (if out then 208 else 224) far).foldl (fun s run =>
    let tag := s.flitTags
    let s := { s with flitTags := tag + 1 }
    let s := if out then sendFlit s run.1 5 0 (wdataPayload tag run.2.1 run.2.2)
      else sendFlit s run.1 3 0 (rreqPayload tag run.2.1 run.2.2.length)
    setHead s ctx (fun o => { o with rem := o.rem ++ [{ tag := tag, dev := run.1, addr := run.2.1, len := run.2.2.length, got := none }] })) s

/-- ERR of a serving device's status (Table 11-2, R382). -/
def errOfStatus (st : Nat) : Nat := [0, 1, 2, 3, 6, 8].getD st 1

/-- Scratchpad lines that a `CPY` has written for the last time when it has served the positions below `upto` (R257). -/
def linesDone (op : CopyOp) (r : LRec) (t : Turn) : List Nat :=
  let rest := if t.upto < r.count then some ((op.tile + r.tileOff t.upto).toNat / 128) else none
  (t.tile.foldl (fun ls p => insertNat (p.1 / 128) ls) []).filter (fun k => match rest with | some n => k < n | none => true)

/-- A copy's device bytes join its block's staged stores (R258). -/
def stage (x : StoreSet) (ctx : Nat) (op : CopyOp) (bs : List (Nat × Nat × Byte × BitVec 64)) : StoreSet :=
  let src : CopySrc := { ctx := ctx, num := op.num, pc := op.pc, pt := op.pt }
  if bs.isEmpty then x
  else { x with bytes := bs.foldl (fun t b => tput t b.2.1 { val := b.2.2.1, dva := b.2.2.2, copy := some src }) x.bytes, blocks := insertNat op.block x.blocks }

/-- Device bytes that the copy has written, or staged, counted (R259): a tile's at the tile rate, a tensor's in the tier that
each byte reaches. -/
def countWritten (s : State) (op : CopyOp) (bs : List (Nat × Nat × Byte × BitVec 64)) : State :=
  bs.foldl (fun s b => addBytes s op.serial (if op.kind = 2 then tileTier s op else if 2 ^ 64 ≤ b.2.1 then 4 else tierOf s b.2.1) 1) s

/-- The effects of a unit of the tile whose remote bytes, if any, are answered. -/
def applyTurn (s : State) (ctx : Nat) (det : Bool) (op : CopyOp) (r : LRec) (t : Turn) : State :=
  let s := t.moved.foldl (fun s p => addBytes s op.serial p.1 p.2) s
  let part := ((s.launch op.serial).map (fun l => l.offer.part)).getD 16
  let s := t.hot.foldl (fun s locs => countAccess s part locs) s
  let s := t.tile.foldl (fun s p => scrWrite s op.serial op.block false p.1 p.2) s
  let s := if op.kind = 0 then fillLines s op.serial op.block (linesDone op r t) else s
  let key := match s.launch op.serial with | some l => setKey l op.core op.serial op.block | none => 0
  let s := if det && !t.dev.isEmpty then countWritten { s with sets := tput s.sets key (stage (tget {} s.sets key) ctx op t.dev) } op t.dev else s
  setHead s ctx (fun o => { o with next := t.upto * r.fty.size, rem := [], turn := none, buf := if det then o.buf else o.buf ++ t.dev })

/-- The 32-byte unit of the oldest byte that is served and not yet written. -/
def headUnit (op : CopyOp) : Option Nat := op.buf.head?.map (fun b => b.2.1 / 32)

/-- Whether a position not yet served lies in a unit. -/
def grows (s : State) (m : Mapping) (op : CopyOp) (r : LRec) (u : Nat) : Bool :=
  let j0 := op.next / r.fty.size
  (List.range (r.count - j0)).any (fun i =>
    let locs := if op.kind = 2 then (match tileAccess s m op r (j0 + i) .store with | .inr x => x.2 | .inl _ => [])
      else (match elemOf s m op.old r (j0 + i) .store with | .at_ _ xs => locsOf xs | _ => [])
    locs.any (fun l => l / 32 == u))

/-- One unit written is one event of H (R258): the bytes of the positions in rising order. One in a frame that has been
locked since it was translated fails the copy (R244), as one in error does. -/
def writeHead (s : State) (ctx : Nat) (op : CopyOp) (u : Nat) : State :=
  let bs := op.buf.filter (fun b => b.2.1 / 32 == u)
  let w := writeUnit s u (bs.foldl (fun t b => tput t b.2.1 { val := b.2.2.1, dva := b.2.2.2 }) [])
  let fail (code : Nat) : State :=
    copyFail (setHead s ctx (fun o => { o with buf := [] })) ctx op code ((bs.head?).map (fun b => b.2.2.2.toNat) |>.getD 0)
  if lockedAt s (32 * u) then fail 2
  else if w.2 then setHead (countWritten w.1 op bs) ctx (fun o =>
    { o with buf := o.buf.filter (fun b => b.2.1 / 32 != u), old := bs.foldl (fun t b => if (tfind t b.2.1).isSome then t else tput t b.2.1 (memByte s b.2.1)) o.old })
  else fail 6

/-- R259: what the runs that another device has answered have moved counts where one of them is refused: their bytes over the
fabric, and of a copy out the tile bytes that they hold. -/
def countAnswered (s : State) (op : CopyOp) (r : LRec) (out : Bool) : State :=
  let n := (op.rem.filter (fun x => x.got.any (fun g => g.1 == 0))).foldl (fun n x => n + x.len) 0
  let s := addBytes s op.serial 4 n
  if out then addBytes s op.serial (tileTier s op) (n * r.fty.size / r.tty.size) else s

/-- One unit of the tile served. One with remote bytes sends their requests and acts when every answer has come: of a copy
out with what it read when it sent them, of a copy in with what it reads then, sending again where an index that it reads
now names other bytes. A position that fails ends the operation when the bytes before it are written. DEDUCED (log 27). -/
def serve (s : State) (ctx : Nat) (m : Mapping) (det : Bool) (op : CopyOp) (r : LRec) : State :=
  let t := gather s m det op r
  let out := op.kind == 1 || op.kind == 3
  let send (t : Turn) : State := setHead (sendRuns s ctx out t.far) ctx (fun o => { o with turn := if out then some t else none })
  let go (t : Turn) : State := if t.far.isEmpty then applyTurn s ctx det op r t else send t
  if op.rem.isEmpty then
    match t.fail with
    | some e =>
      if t.upto * r.fty.size != op.next then go t
      else (match headUnit op with
        | some u => writeHead s ctx op u
        | none => copyFail s ctx op e.1 e.2)
    | none => go t
  else if op.rem.any (fun x => x.got.isNone) then s
  else match op.rem.find? (fun x => x.got.any (fun g => g.1 != 0)) with
    | some x => copyFail (setHead (countAnswered s op r out) ctx (fun o => { o with rem := [], turn := none })) ctx { op with rem := [] } (errOfStatus ((x.got.map (fun g => g.1)).getD 1)) x.addr
    | none => match op.turn with
      | some u => applyTurn s ctx det op r u
      | none => if t.far.all (fun b => (runOf op.rem b.1 b.2.1).isSome) then applyTurn s ctx det op r t else send t

/-- The next event of an operation: the oldest unit served, once no position still to come lies in it, is written; else
a unit of the tile is served. -/
def serveNext (s : State) (ctx : Nat) (op : CopyOp) (r : LRec) : State :=
  let m := ((s.launch op.serial).map (fun l => (s.part l.offer.part).map)).getD {}
  let det := ((s.launch op.serial).map (fun l => l.det)).getD false
  match headUnit op with
  | some u => if grows s m op r u then serve s ctx m det op r else writeHead s ctx op u
  | none => serve s ctx m det op r

/-- A context with bytes left to move. -/
def busyCtx (s : State) (ctx : Nat) : Bool :=
  match s.copyHead ctx with
  | some op => op.started && !op.failed && (!op.buf.isEmpty || (match recOf op.rcd with | some r => op.next < r.tileBytes | none => false))
  | none => false

/-- R247: the context of its engine whose turn it is. -/
def nextCtx (s : State) (engine : Nat) : Option Nat :=
  let last := tget 7 s.engineLast engine
  ((List.range 8).map (fun i => 8 * engine + (last + 1 + i) % 8)).find? (busyCtx s)

/-- A turn moves at most 128 tile bytes: it ends where the next unit would pass them, with the operation, or where it
waits for another device (R247). -/
def turnOver (s : State) (ctx : Nat) (r : LRec) : Bool :=
  match s.copyHead ctx with
  | some op => !busyCtx s ctx || !op.rem.isEmpty || 128 < op.next - op.turnAt + (nextUnit op r).length * r.fty.size
  | none => true

/-- ENGINE_TURN: one event of the context's turn. -/
def execEngineTurn (ctx : Nat) (s : State) : Out :=
  if nextCtx s (ctx / 8) != some ctx then .next s
  else match s.copyHead ctx with
    | some op => (match recOf op.rcd with
      | some r =>
        let s := serveNext s ctx op r
        .next (if turnOver s ctx r then
          setHead { s with engineLast := tput s.engineLast (ctx / 8) (ctx % 8) } ctx (fun o => { o with turnAt := o.next }) else s)
      | none => .next s)
    | none => .next s

/-- Tile bytes of the positions whose bytes are all written. -/
def writtenBytes (op : CopyOp) (r : LRec) : Nat := op.buf.foldl (fun n b => min n (b.1 * r.fty.size)) op.next

/-- COPY_PIECE_COUNTDOWN: the next piece of 128 tile bytes, all written, counts down on the named point (R257).
DEDUCED (log 27). -/
def execCopyPieceCountdown (ctx : Nat) (s : State) : Out :=
  match s.copyHead ctx with
  | some op =>
    let total := ((recOf op.rcd).map LRec.tileBytes).getD 0
    let written := ((recOf op.rcd).map (writtenBytes op)).getD 0
    let piece := min 128 (written - op.counted)
    let whole := piece = 128 || written = total
    (match op.pt with
      | some p => if op.failed || piece = 0 || !whole then .next s
          else .next (setHead (countDown s p piece s.hpt (copyEngine ctx, op.pc, 0)) ctx (fun o => { o with counted := o.counted + piece }))
      | none => .next s)
  | none => .next s

/-- COPY_FINISH: every write and count-down made, or the operation failed; the timeline passes its number. -/
def execCopyFinish (ctx : Nat) (s : State) : Out :=
  match s.copyHead ctx with
  | some op =>
    let total := ((recOf op.rcd).map LRec.tileBytes).getD 0
    if op.failed || (op.started && op.next = total && op.buf.isEmpty && (op.pt.isNone || op.counted = total)) then
      .next (s.modCopy ctx (fun x => { x with ops := x.ops.tail, timeline := max x.timeline op.num, relPt := max x.relPt s.hpt }))
    else .next s
  | none => .next s

end Sys2Proof.Machine
end

