-- ==== Sys2Proof/Machine/Ring.lean ====
section
/-! DEFINITION. The record rings and interrupts of partitions (R370, R378, R379), and the joule balances (R284, R287). -/

namespace Sys2Proof.Machine

/-! ### Interrupts and records -/

/-- Vectors of Table 23-4. -/
def vQUOTE : Nat := 0
def vDONE : Nat := 1
def vFAULT : Nat := 2
def vRESET : Nat := 3
def vENERGY : Nat := 4
def vSELFTEST : Nat := 5
/-- A record that raises none: a fault record that a completion record follows (R365). -/
def vNONE : Nat := 255

/-- An interrupt of a partition's virtual function is raised. -/
def raiseIrq (s : State) (p vec : Nat) : State := s.modPart p (fun q => { q with irqs := vec :: q.irqs })

/-- A record of the partition joins those that wait for the ring. -/
def postRecord (s : State) (p kind : Nat) (bytes : List Byte) (tag : BitVec 64) (vec : Nat) : State :=
  s.modPart p (fun q => { q with held := q.held ++ [{ kind := kind, bytes := bytes, tag := tag, vec := vec }] })

/-- Bytes of a record: fields of (bytes, value), little-endian. -/
def fields (fs : List (Nat × Nat)) : List Byte := fs.flatMap (fun f => leBytes f.2 f.1)

/-- The slot's header (R378). -/
def slotHeader (q : Part) (r : RingRec) : List Byte :=
  fields [(1, r.kind), (1, 1 + q.head.toNat / q.ringslots.toNat % 2), (2, r.bytes.length), (4, 0), (8, r.tag.toNat)]

def hostPut (s : State) (a : Nat) (bs : List Byte) : State := { s with hostMem := tputs 0 s.hostMem a bs }

/-- The next held record goes to the slot that HEAD names: record, header, HEAD, interrupt. -/
def writeRecord (s : State) (p : Nat) (r : RingRec) (rest : List RingRec) : State :=
  let q := s.part p
  let a := q.ringbase.toNat + 2048 * (q.head.toNat % q.ringslots.toNat)
  let s := hostPut (hostPut s (a + 16) r.bytes) a (slotHeader q r)
  let s := s.modPart p (fun q => { q with head := q.head + 1, held := rest })
  if r.vec < 6 then raiseIrq s p r.vec else s

/-- RING_RECORD_WRITE: nothing while there is no ring or the ring is full (R378, R379). -/
def execRingRecordWrite (part : Nat) (s : State) : Out :=
  let q := s.part part
  match q.held with
  | r :: rest => if q.ringslots = 0 || q.head - q.tail == q.ringslots then .next s else .next (writeRecord s part r rest)
  | [] => .next s

/-- R379: a write to TAIL; the status of one that is ignored. DEDUCED (log 37). -/
def tailWrite (s : State) (part : Nat) (v : BitVec 32) : State :=
  let q := s.part part
  s.modPart part (fun q' => if (q.head - v).toNat ≤ (q.head - q.tail).toNat then { q' with tail := v, status := 0 } else { q' with status := 2 })

/-- TAIL_WRITE (R379). -/
def execTailWrite (part : Nat) (v : BitVec 32) (s : State) : Out := .next (if part < 16 then tailWrite s part v else s)

/-! ### Joule balances -/

def balMax : Int := 2 ^ 62
def houseMax : Nat := 2 ^ 64 - 1

def addHouse (s : State) (n : Nat) : State := { s with house := min houseMax (s.house + n) }

/-- A balance takes a new value; ENERGY_LOW at a downward crossing of LOWMARK (R287). -/
def setBalance (s : State) (p : Nat) (b : Int) : State :=
  let q := s.part p
  let s := s.modPart p (fun q => { q with balance := b })
  if (q.lowmark.toNat : Int) ≤ q.balance && b < (q.lowmark.toNat : Int) then raiseIrq s p vENERGY else s

/-- R284: a return; what lies above 2^62 goes to the house reserve. -/
def refund (s : State) (p n : Nat) : State :=
  let b := (s.part p).balance + n
  if balMax < b then addHouse (setBalance s p balMax) (b - balMax).toNat else setBalance s p b

/-- The house reserve pays `n` nanojoules, as far as it holds them. -/
def payHouse (s : State) (n : Nat) : State := { s with house := s.house - n }

/-- R284: an overrun charged to a balance; answers what the house reserve must bear. -/
def chargeOverrun (s : State) (p n : Nat) : State × Nat :=
  let b := (s.part p).balance - n
  if b < -balMax then (payHouse (setBalance s p (-balMax)) (-balMax - b).toNat, (-balMax - b).toNat) else (setBalance s p b, 0)

/-! ### Energy in units of 1/22,500,000 nJ (R232, R233) -/

/-- One quantum at a layer voltage of `v` centivolts: 0.25 pJ · (v / 75)². -/
def quantumUnits (v : Nat) : Nat := v * v
/-- The basis voltage of a floor in 0.1 GHz, in centivolts. -/
def basis (floor : Nat) : Nat := 55 + floor
def nJ : Nat := 22500000

/-- Rates of Table 12-4 per byte, by tier: scratchpad, HBM, second tier, host, fabric. -/
def byteUnits (tier : Nat) : Nat := [13500, 450000, 1350000, 4500000, 1800000].getD tier 0

/-- R232: what issuing above the basis costs beyond it, at a cluster's layer voltage in millivolts. DEDUCED (log 32). -/
def aboveBasis (floor mv quanta : Nat) : Nat := quanta * (mv / 10 * (mv / 10) - quantumUnits (basis floor))

/-! ### Accepted launches -/

/-- The launches that reserve a core of a cluster. -/
def launchesOn (s : State) (cluster : Nat) : List (Nat × Launch) :=
  s.launches.filter (fun l => l.2.offer.cores.any (fun c => clusterOf c == cluster))

/-- The highest floor that a cluster must keep, 1.2 GHz where no launch reserves a core of it. -/
def floorOf (s : State) (cluster : Nat) : Nat := (launchesOn s cluster).foldl (fun m l => max m l.2.offer.floor) 12

/-- An event joins the list of a launch; the 65th and later are only counted (R239). -/
def Launch.addEvent (l : Launch) (e : Event) : Launch :=
  { l with nevents := l.nevents + 1, events := if l.events.length < 64 then l.events ++ [e] else l.events }

end Sys2Proof.Machine
end

