-- ==== Sys2Proof/Machine/Energy.lean ====
section
/-! DEFINITION. Clusters' frequency and voltage, the Blender, the supply, the reference clock (16_energy.md, R385) and
ENERGY.GRANT (R285, R286). -/

namespace Sys2Proof.Machine

/-! ### Frequency and voltage (R288, R289) -/

/-- A ramp toward `t` starts, unless the cluster stands there. -/
def Cluster.ramp (c : Cluster) (t : Nat) : Cluster := { c with target := if t = c.freq then none else some t }

/-- The layer voltage of a frequency, in millivolts. -/
def voltage (f : Nat) : Nat := 550 + 10 * f

/-- A ramp that stands at its target is done; the request that waits starts the next (R289). -/
def Cluster.settle (c : Cluster) : Cluster :=
  if c.target = some c.freq && c.mv = voltage c.freq then
    match c.pending with
    | some p => { c with target := none, pending := none }.ramp p
    | none => { c with target := none }
  else c

/-- A running ramp toward `r` goes down: it has steps to take, or its last fall of the voltage. -/
def Cluster.falls (c : Cluster) (r : Nat) : Bool := r < c.freq || (r = c.freq && voltage c.freq < c.mv)

/-- R289: a request that reaches a cluster. -/
def Cluster.ask (c : Cluster) (t : Nat) : Cluster :=
  match c.pending, c.target with
  | some _, _ => { c with pending := some t }
  | none, none => c.ramp t
  | none, some r => if (c.freq < r && c.freq < t) || (c.falls r && t < c.freq) then { c with target := some t } else { c with pending := some t }

/-- A target within 1.2 to 2.5 GHz, raised to the highest floor. -/
def legalTarget (s : State) (cluster f : Nat) : Nat := max (floorOf s cluster) (min 25 (max 12 f))

/-- The clock a cluster runs at, in 0.01 GHz. -/
def Cluster.clock (c : Cluster) : Nat := min (10 * (c.freq - c.throttle)) (min (c.stretched.getD 1000) (c.fell.getD 1000))

/-- Under a floor: the throttle takes no clock below it (R282), a clock that rides at the floor follows it, one that had
fallen below a higher floor too (R291, R385), and a target below it, of the running ramp or of the request that waits, is raised to it (R288). -/
def Cluster.under (c : Cluster) (floor : Nat) : Cluster :=
  { c with
    throttle := min c.throttle (c.freq - floor), stretched := c.stretched.map (fun _ => 10 * floor),
    fell := c.fell.filter (fun f => f < 10 * floor),
    target := c.target.map (max floor), pending := c.pending.map (max floor) }.settle

/-! ### Floors offered (R290) -/

/-- The highest floor that a cluster can hold. DESIGN CHOICE (log 12). -/
def clusterCap (s : State) (cluster : Nat) : Nat :=
  let d := max s.droop (s.beyond.getD 0)
  let c := s.cluster cluster
  if d = 0 && c.throttle = 0 && !c.shunt then 20 else 20 - Config.floorDrop d c.throttle c.shunt % 9

/-- A core that some quotation could reserve: issue slot 0 and the scratchpad banks work (R235). DEDUCED (log 57). -/
def usable (m : BitVec 64) : Bool := m.getLsbD 12 && m.getLsbD 17

/-- A cluster that a request could be given: its quadrant stands and one of its cores is usable. -/
def givenable (s : State) (k : Nat) : Bool :=
  !s.lostQuads.contains (k / 4) && (List.range 192).any (fun c => clusterOf c == k && usable (s.feat c))

/-- The highest floor offered to a partition's requests: every cluster that they could be given can hold it. -/
def floorCap (s : State) (part : Nat) : Nat :=
  ((List.range 32).filter (fun k => (s.part part).clusters.getLsbD k && givenable s k)).foldl (fun m k => min m (clusterCap s k)) 20

/-- The generation moves when the floors offered have changed. -/
def moveFloors (s t : State) : State :=
  if (List.range 16).all (fun p => floorCap s p == floorCap t p) then t else { t with gen := t.gen + 1 }

/-! ### Episodes (R292) -/

/-- A span of an event opens. -/
def Launch.openSpan (l : Launch) (kind tick : Nat) : Launch := { l with spans := l.spans ++ [(kind, tick, none)] }
def Launch.closeSpan (l : Launch) (kind tick : Nat) : Launch :=
  { l with spans := l.spans.map (fun x => if x.1 = kind && x.2.2.isNone then (x.1, x.2.1, some tick) else x) }

/-- Changes an event that the list holds. -/
def Launch.modEvent (l : Launch) (k : Nat) (f : Event → Event) : Launch :=
  { l with events := match l.events[k]? with | some e => l.events.set k (f e) | none => l.events }

/-- A clock is taken below a floor by a throttle or a stretch. A ramp that has still to reach the floor takes it nowhere:
no block of the launch runs before it is done (R288). DEDUCED (log 31). -/
def Cluster.below (c : Cluster) (floor : Nat) : Bool := c.clock < 10 * floor && c.clock < 10 * c.freq

/-- One launch sees a cluster's clock: an episode opens, goes on, or ends with the clock at the floor again. -/
def episodeOf (s : State) (cluster serial : Nat) (l : Launch) : State :=
  let c := s.cluster cluster
  match c.episodes.find? (fun e => e.1 == serial) with
  | some e =>
    if c.clock < 10 * l.offer.floor then
      s.modLaunch serial (fun l => l.modEvent e.2 (fun v => if c.clock < v.value.toNat then { v with value := BitVec.ofNat 64 c.clock } else v))
    else
      (s.modCluster cluster (fun c => { c with episodes := c.episodes.filter (fun x => x.1 != serial) })).modLaunch serial
        (fun l => l.closeSpan (4 + 16 * cluster) s.tick)
  | none =>
    if c.below l.offer.floor then
      let core := ((l.offer.cores.filter (fun c => clusterOf c == cluster)).foldl min 255)
      let e : Event := { kind := 4, attr := if s.beyond.isSome then aSUPPLY else aMACHINE, core := core, pc := noPc, value := BitVec.ofNat 64 c.clock }
      (s.modCluster cluster (fun c => { c with episodes := c.episodes ++ [(serial, l.nevents)] })).modLaunch serial
        (fun l => (l.addEvent e).openSpan (4 + 16 * cluster) s.tick)
    else s

/-- Every launch that reserves a core of a cluster sees its clock. -/
def seeClock (s : State) (cluster : Nat) : State := (launchesOn s cluster).foldl (fun s l => episodeOf s cluster l.1 l.2) s

/-! ### Targets and ramps -/

/-- The highest floor on a cluster has changed, after an accept or the end of a launch: the cluster goes toward its
standing request or the floor above it, and its throttle and its stretch follow the floor. -/
def retarget (s : State) (cluster : Nat) : State :=
  let t := legalTarget s cluster (s.cluster cluster).request
  let s := s.modCluster cluster (fun c => c.under (floorOf s cluster))
  let c := s.cluster cluster
  seeClock (if (c.pending.getD (c.target.getD c.freq)) = t then s else s.modCluster cluster (fun c => c.ask t)) cluster

/-- FREQUENCY_REQUEST: a request of the host or the board stands until either requests another. -/
def execFrequencyRequest (src : FreqSource) (cluster f : Nat) (s : State) : Out :=
  .next (if 32 ≤ cluster || f < 12 || 25 < f then s
    else s.modCluster cluster (fun c => { c with request := (match src with | .blender => c.request | _ => f) }.ask (legalTarget s cluster f)))

/-- One move of a ramp: on the way up the voltage rises and then the frequency steps; on the way down the frequency steps
and then the voltage falls. -/
def Cluster.step (c : Cluster) : Cluster :=
  match c.target with
  | none => c
  | some t =>
    if c.freq < t then
      (if c.mv < voltage (c.freq + 1) then { c with mv := c.mv + 10 } else { c with freq := c.freq + 1 }).settle
    else if voltage c.freq < c.mv then { c with mv := c.mv - 10 }.settle
    else if t < c.freq then { c with freq := c.freq - 1 }
    else c.settle

/-- RAMP_STEP. DESIGN CHOICE (log 31). -/
def execRampStep (cluster : Nat) (s : State) : Out :=
  .next (if 32 ≤ cluster then s
    else moveFloors s (seeClock (s.modCluster cluster (fun c => c.step.under (floorOf s cluster))) cluster))

/-! ### The Blender (R282, R283) -/

/-- BLENDER_WINDOW: pair `p` has clusters 2p, the lower layer, and 2p + 1. DESIGN CHOICE (log 13). -/
def execBlenderWindow (pair : Nat) (s : State) : Out :=
  if 16 ≤ pair then .next s
  else
    let lo := s.cluster (2 * pair)
    let hi := s.cluster (2 * pair + 1)
    let a := (lo.charge - lo.windowFrom).toNat
    let b := (hi.charge - hi.windowFrom).toNat
    let heavy := if b ≤ a then 2 * pair else 2 * pair + 1
    let light := if b ≤ a then 2 * pair + 1 else 2 * pair
    let out := decide (max a b < 10 * (max a b - min a b))
    let open_ (c : Cluster) (heavier : Bool) : Cluster := { c with windowFrom := c.charge, bias := if out then none else some heavier }
    let t := (s.modCluster heavy (fun c => open_ c true)).modCluster light (fun c => open_ c false)
    .next (moveFloors s (if out then
        (if 10 * floorOf s heavy < (s.cluster heavy).clock then
          seeClock (t.modCluster heavy (fun c => { c with throttle := c.throttle + 1 })) heavy
        else payHouse (t.modCluster light (fun c => { c with shunt := true })) (Config.shuntDraw s.tick))
      else
        (t.modCluster heavy (fun c => { c with throttle := c.throttle - 1, shunt := false })).modCluster light
          (fun c => { c with throttle := c.throttle - 1, shunt := false })))

/-! ### Clocks stretched -/

/-- CLOCK_BELOW_FLOOR: the cluster's clock stands at `f100` units of 0.01 GHz, below its highest floor; at the floor or above,
it has fallen no longer. -/
def execClockBelowFloor (cluster f100 : Nat) (s : State) : Out :=
  .next (if 32 ≤ cluster then s
    else seeClock (s.modCluster cluster (fun c => { c with fell := if f100 < 10 * floorOf s cluster then some f100 else none })) cluster)

/-- A cluster rides on by stretching its clock down to its floor, and not below. DESIGN CHOICE (log 31). -/
def rideDown (s : State) (cluster : Nat) : State :=
  s.modCluster cluster (fun c => { c with stretched := some (10 * floorOf s cluster) })

def allClusters : List Nat := List.range 32

/-- A cluster runs at its floor. -/
def rideAtFloor (s : State) (cluster : Nat) : State :=
  seeClock (s.modCluster cluster (fun c => { c with stretched := some (10 * floorOf s cluster), fell := none })) cluster

/-- Stretched clocks recover. -/
def recoverClocks (s : State) : State :=
  allClusters.foldl (fun s k => seeClock (s.modCluster k (fun c => { c with stretched := none, fell := none })) k) s

/-! ### The supply (R291, R292) -/

/-- DROOP: a droop within the specification, in percent of 48 V. -/
def execDroop (percent : Nat) (s : State) : Out :=
  .next (moveFloors s (allClusters.foldl rideDown { s with droop := 480 * percent }))

/-- A launch records the excursion. -/
def Launch.excursion (l : Launch) (mv tick : Nat) : Launch :=
  { (l.addEvent { kind := 5, attr := aSUPPLY, core := 255, pc := noPc, value := BitVec.ofNat 64 mv }).openSpan 5 tick with
    excursionAt := some l.nevents }

/-- The largest depth of the excursion that is still going on, where its event is listed. -/
def Launch.deeper (l : Launch) (mv : Nat) : Launch :=
  match l.excursionAt with
  | some k => l.modEvent k (fun e => if e.value.toNat < mv then { e with value := BitVec.ofNat 64 mv } else e)
  | none => l

/-- An episode during which the supply is beyond the specification is attributed to SUPPLY. -/
def blameSupply (s : State) : State :=
  allClusters.foldl (fun s k => (s.cluster k).episodes.foldl (fun s e =>
    s.modLaunch e.1 (fun l => l.modEvent e.2 (fun v => { v with attr := aSUPPLY }))) s) s

/-- SUPPLY_EXCURSION. -/
def execSupplyExcursion (mv : Nat) (s : State) : Out :=
  let t := match s.beyond with
    | none => { s with beyond := some mv, launches := s.launches.map (fun l => (l.1, l.2.excursion mv s.tick)) }
    | some d => { s with beyond := some (max d mv), launches := s.launches.map (fun l => (l.1, l.2.deeper mv)) }
  .next (moveFloors s (blameSupply t))

/-- SUPPLY_RETURN: stretched clocks recover, or run at their floors while the reference is lost (R385). -/
def execSupplyReturn (s : State) : Out :=
  let t := { s with droop := 0, beyond := none, launches := s.launches.map (fun l => (l.1, l.2.closeSpan 5 s.tick)) }
  .next (moveFloors s (if s.refClock then recoverClocks t else allClusters.foldl rideAtFloor t))

/-- REFERENCE_CLOCK_LOSS: the clusters run at their floors (R385). -/
def execReferenceClockLoss (s : State) : Out := .next (allClusters.foldl rideDown { s with refClock := false })

/-- REFERENCE_CLOCK_RETURN. -/
def execReferenceClockReturn (s : State) : Out :=
  let t := { s with refClock := true }
  .next (if s.droop = 0 && s.beyond.isNone then recoverClocks t else t)

/-! ### ENERGY.GRANT (R285, R286) -/

/-- Status of GRANTSTAT: 1 GRANTED, 2 OVERFLOW, 3 REFUSED. -/
def grant (s : State) (via : GrantVia) (cmd : List Byte) : State × Nat :=
  let n (o k : Nat) := ofLeBytes ((cmd.drop o).take k)
  let tgt := n 0 1
  let amount := n 8 8
  let low := n 16 8
  if via == .virtualFunction || cmd.length != 32 || n 1 7 != 0 || n 24 8 != 0 || 2 ^ 62 < amount || !(tgt < 16 || (tgt = 255 && low = 0)) then (s, 3)
  else if tgt = 255 then (if houseMax < s.house + amount then (s, 2) else ({ s with house := s.house + amount }, 1))
  else if balMax < (s.part tgt).balance + amount then (s, 2)
  else
    let s := if low = 2 ^ 64 - 1 then s else s.modPart tgt (fun q => { q with lowmark := BitVec.ofNat 64 low })
    (setBalance s tgt ((s.part tgt).balance + amount), 1)

/-- ENERGY_GRANT: through the physical function's registers the status stands in GRANTSTAT; the board is answered over
the management path (R386), a virtual function in `vfGrant`. -/
def execEnergyGrant (via : GrantVia) (cmd : List Byte) (s : State) : Out :=
  let r := grant s via cmd
  .next (match via with
    | .physicalFunction => { r.1 with grantStat := r.2, grants := r.1.grants + 1 }
    | .board => { r.1 with mgmt := { kind := 1, a := r.2, value := 0 } :: r.1.mgmt }
    | .virtualFunction => { r.1 with vfGrant := r.2 })

end Sys2Proof.Machine
end

