-- ==== Sys2Proof/Machine/Matrix.lean ====
section
/-! DEFINITION. The matrix unit (15_matrix.md): B slots, the six words, passes with their exact arithmetic (R75 to R77),
and broadcasts. -/

namespace Sys2Proof.Machine

/-! ### Formats (R265, R266, R272) -/

/-- A and B types. -/
def mxTypes : List Ty := [.q4, .i8, .e4m3, .e5m2, .bf16, .f16]
def is8f (t : Ty) : Bool := t == .e4m3 || t == .e5m2
def is16f (t : Ty) : Bool := t == .bf16 || t == .f16
def isFacc (t : Ty) : Bool := t == .f32 || is16f t

/-- Table 15-2. -/
def mxAdmit (a b c : Ty) : Bool :=
  if b == .q4 then (a == .q4 || a == .i8 || is8f a) && isFacc c
  else if is8f b then is8f a && isFacc c
  else if b == .i8 then a == .i8 && c == .i32
  else is16f b && is16f a && isFacc c

/-- Cells of one B element. -/
def cellsOf (t : Ty) : Nat := t.bits / 4
/-- Bytes of an A row or a B column. -/
def rowBytes (t : Ty) : Nat := 32 * t.bits
/-- Rows and row bytes of an accumulator view (Table 15-1). -/
def viewRows (t : Ty) : Nat := if t.bits = 32 then 16 else 32
def viewRowBytes (t : Ty) : Nat := if t.bits = 32 then 1024 else 512

/-- A format block. -/
structure MxFmt where
  a : Ty
  b : Ty
  c : Ty
  abl : Nat
  asc : Nat
deriving DecidableEq, Repr

def fmtBlock (f : BitVec 64) : Option MxFmt :=
  let n := f.toNat
  match tyOfCode (f.extractLsb' 0 4), tyOfCode (f.extractLsb' 4 4), tyOfCode (f.extractLsb' 8 4) with
  | some a, some b, some c =>
    let ok := bits n 31 13 == 0 && mxTypes.contains a && mxTypes.contains b && (isFacc c || c == .i32) && mxAdmit a b c &&
      (a == .q4 || (bits n 63 32 == 0 && bits n 12 12 == 0))
    if ok then some { a := a, b := b, c := c, abl := if n.testBit 12 then 32 else 16, asc := bits n 63 32 } else none
  | _, _, _ => none

/-- A panel descriptor (R272): type, block length, scale offset. -/
def descOf (d : BitVec 64) : Option (Ty × Nat × Nat) :=
  let n := d.toNat
  match tyOfCode (d.extractLsb' 0 4) with
  | some t =>
    if bits n 31 5 == 0 && mxTypes.contains t && (t == .q4 || (bits n 63 32 == 0 && bits n 4 4 == 0)) then
      some (t, if n.testBit 4 then 32 else 16, bits n 63 32)
    else none
  | none => none

/-- Scale bytes of a `.Q4` panel. -/
def panelScales (t : Ty) (bl : Nat) : Nat := if t = .q4 then 32 * (256 / bl) else 0

/-! ### Arithmetic (R70, R75 to R77) -/

/-- Element `k` of a row or column of bytes (R267, R72). -/
def elemCode (t : Ty) (bs : List Byte) (k : Nat) : Nat :=
  if t.bits = 4 then (bs.getD (k / 2) 0).toNat / 16 ^ (k % 2) % 16
  else if t.bits = 8 then (bs.getD k 0).toNat
  else (bs.getD (2 * k) 0).toNat + 256 * (bs.getD (2 * k + 1) 0).toNat

/-- The exact value of an element; `scale k` is its scale byte. -/
def elemVal (t : Ty) (bs : List Byte) (scale : Nat → Nat) (k : Nat) : Fp :=
  let c := elemCode t bs k
  if t = .q4 then value4 c (scale k) else toFp t c

/-- Unbiased exponent of a finite non-zero element, subnormals at the smallest normal. -/
def blockExp (emin : Int) : Fp → Option Int
  | .fin _ m e => if m = 0 then none else some (max emin (e + m.log2))
  | _ => none

/-- R75: truncation of a finite element to the block's unit 2 ^ u. -/
def alignTo (u : Int) : Fp → Fp
  | .fin neg m e => if u ≤ e then .fin neg (m * 2 ^ (e - u).toNat) u else .fin neg (m / 2 ^ (u - e).toNat) u
  | x => x

/-- The operands of one K-block, aligned where the type is a floating-point one. -/
def alignBlock (t : Ty) (xs : List Fp) : List Fp :=
  if is8f t || is16f t then
    match xs.filterMap (blockExp (fmtOf t).emin) with
    | [] => xs
    | x :: r => xs.map (alignTo (r.foldl max x - (if is8f t then 7 else 15) + 1))
  else xs

/-- The eight K-blocks of a row or column. -/
def kBlocks (t : Ty) (bs : List Byte) (scale : Nat → Nat) : List (List Fp) :=
  (List.range 8).map (fun kb => alignBlock t ((List.range 32).map (fun i => elemVal t bs scale (32 * kb + i))))

/-- R76, R77: one K-block into an accumulator element of type `ct`. -/
def accStep (ct : Ty) (old : Nat) (xs ys : List Fp) : Nat :=
  let terms := (xs.zip ys).map (fun p => p.1.mul p.2)
  if ct = .i32 then wrap .i32 (sat .i32 (terms.foldl (fun a t => a + t.at_ 0) (signedOf 32 old)))
  else
    let f := fmtOf ct
    roundFp f .rne false (sumFp false (f.decode old :: terms))

def accElem (ct : Ty) (old : Nat) (a b : List (List Fp)) : Nat := (a.zip b).foldl (fun v p => accStep ct v p.1 p.2) old

/-! ### The slot -/

/-- Element `k` of column `n` of B in the cells of K-row `k` (Table 15-1): `cells` holds 128 bytes for each K-row, two cells
a byte, the lower-numbered cell and the lower bits first. DEDUCED (log 78). -/
def cellElem (x : BSlot) (t : Ty) (n k : Nat) : Nat :=
  let c := cellsOf t
  let at_ := 128 * k + n * c / 2
  if c = 1 then (tget 0 x.cells at_).toNat / 16 ^ (n % 2) % 16 else ofLeBytes (tgets 0 x.cells at_ (c / 2))

/-- The elements of a column as the bytes of a panel hold them (R267). -/
def columnBytes (x : BSlot) (t : Ty) (n : Nat) : List Byte :=
  if t.bits = 4 then (List.range 128).map (fun i => BitVec.ofNat 8 (cellElem x t n (2 * i) + 16 * cellElem x t n (2 * i + 1)))
  else (List.range 256).flatMap (fun k => leBytes (cellElem x t n k) t.size)

/-- Column `n` of B as the slot's tag reads it (R264, R267). -/
def slotColumn (x : BSlot) (t : Ty) (bl n : Nat) : List (List Fp) :=
  let bs := columnBytes x t n
  kBlocks t bs (fun k => (tget 0 x.scales (n * (256 / bl) + k / bl)).toNat)

/-- One quarter: rows as (position in the quarter, row bytes, scale bytes). -/
def passRows (x : BSlot) (g : Nat) (f : MxFmt) (rows : List (Nat × List Byte × List Byte)) : BSlot :=
  let tag := x.tag.getD (f.b, 16)
  let n := 256 / cellsOf f.b
  let w := f.c.size
  rows.foldl (fun x r =>
    let a := kBlocks f.a r.2.1 (fun k => (r.2.2.getD (k / f.abl) 0).toNat)
    (List.range n).foldl (fun x j =>
      let at_ := viewRowBytes f.c * (8 * g + r.1) + w * j
      let v := accElem f.c (ofLeBytes (tgets 0 x.acc at_ w)) a (slotColumn x tag.1 tag.2 j)
      { x with acc := tputs 0 x.acc at_ (leBytes v w) }) x) x

/-- The 16 bytes of K-row `k` that a panel of type `t` fills: of each of its columns the element `k` (R264, R267). -/
def panelRow (t : Ty) (d : List Byte) (k : Nat) : List Byte :=
  let elem (j : Nat) : Nat := elemCode t ((d.drop (rowBytes t * j)).take (rowBytes t)) k
  if t.bits = 4 then (List.range 16).map (fun i => BitVec.ofNat 8 (elem (2 * i) + 16 * elem (2 * i + 1)))
  else (List.range (128 / t.bits)).flatMap (fun j => leBytes (elem j) t.size)

/-- A panel written to the cells of a slot, with its tag: 32 cells of every K-row. -/
def loadPanel (x : BSlot) (p : Nat) (t : Ty) (bl : Nat) (d : List Byte × List Byte) : BSlot :=
  { x with cells := (List.range 256).foldl (fun c k => tputs 0 c (128 * k + 16 * p) (panelRow t d.1 k)) x.cells,
           scales := if t = .q4 then tputs 0 x.scales (32 * p * (256 / bl)) d.2 else x.scales, tag := some (t, bl) }

/-- The type that the slot will hold once the words waiting on it have acted. -/
def BSlot.comingTag (x : BSlot) : Option Ty :=
  match (x.q.filterMap (fun o => match o.kind with | .mbld _ t _ _ => some t | _ => none)).getLast? with
  | some t => some t
  | none => x.tag.map (fun t => t.1)

/-- R278: the accumulator words act. DEDUCED (log 30). -/
def mxAct (s : State) (core b : Nat) (op : MxOp) : State :=
  let x := s.bslot core b
  match op.kind with
  | .mcrd t r c dst eff =>
    let read (l : Nat) : Word := BitVec.ofNat 32 (ofLeBytes (tgets 0 x.acc (viewRowBytes t * r + t.size * (c + l)) t.size))
    s.modWave op.w (fun w => w.pendWrite op.tag ((lanesOf w.width eff).map (fun l => .v dst l (read l))) true)
  | .mcwr t r c vals =>
    s.modBSlot core b (fun x => { x with acc := vals.foldl (fun a v => tputs 0 a (viewRowBytes t * r + t.size * (c + v.1)) (leBytes v.2.toNat t.size)) x.acc })
  | .mcz t r n =>
    s.modBSlot core b (fun x => { x with acc := tputs 0 x.acc (viewRowBytes t * r) (List.replicate (viewRowBytes t * n) 0) })
  | _ => s

/-- Words at the head of a slot's queue that act at once. -/
def drain (core b : Nat) : Nat → State → State
  | 0, s => s
  | n + 1, s =>
    match (s.bslot core b).q with
    | op :: rest => (match op.kind with
      | .mbld _ _ _ _ => s
      | .mqma _ _ _ _ => s
      | _ => drain core b n ((mxAct s core b op).modBSlot core b (fun x => { x with q := rest })))
    | [] => s

def drainAll (s : State) (core b : Nat) : State := drain core b (s.bslot core b).q.length s

/-- A matrix word joins its slot's queue (R270), and its block is bound to the core (R263). -/
def mxIssue (c : Ctx) (s : State) (b : Nat) (k : MxKind) : State :=
  let s := s.modBlock c.id.serial c.id.block (fun x => { x with matrixActed := true })
  s.modBSlot c.b.core b (fun x => { x with q := x.q ++ [{ id := s.tick, w := c.id, tag := s.tick, kind := k }] })

/-- R262. -/
def drives (c : Ctx) (b : Nat) : Bool := c.id.wave % 4 == b % 4

/-! ### The words -/

/-- R273. -/
def execMbld (h : Hdr) (p b : BitVec 3) (sa sb : BitVec 6) (off : BitVec 24) (s : State) : Out :=
  issue s (fun c =>
    if !c.any h then c.done s id
    else if !drives c b.toNat then raiseWave c s cPROT (BitVec.ofNat 64 b.toNat)
    else match descOf (c.s sb) with
      | none => raiseWave c s cRESERVED 0
      | some (t, bl, sc) =>
        let a := (c.s sa).toInt + off.toInt
        let size : Int := c.l.offer.kernel.scratch
        let n := panelScales t bl
        if a % 128 != 0 then raiseWave c s cMISALIGN (BitVec.ofInt 64 a)
        else if a < 0 || size < a + 4096 then raiseWave c s cSPBOUND (BitVec.ofInt 64 a)
        else if t = .q4 && size < sc + n then raiseWave c s cSPBOUND (BitVec.ofNat 64 sc)
        else
          let s := mxIssue c s b.toNat (.mbld p.toNat t bl none)
          spIssue c s (.mbld b.toNat p.toNat a.toNat sc t bl s.tick) [] .other 0 (c.eff h))

/-- R274: the word is on its way to the cluster broadcast bus. A word that breaks R262 and names a team that its block lacks
traps PROT. DESIGN CHOICE (log 92). -/
def execMbcast (h : Hdr) (p b : BitVec 3) (sa sb : BitVec 6) (pt : BitVec 8) (off : BitVec 16) (s : State) : Out :=
  issue s (fun c =>
    if !c.any h then c.done s id
    else if !drives c b.toNat then raiseWave c s cPROT (BitVec.ofNat 64 b.toNat)
    else match cohortOf c.l.offer.kernel c.id.block (pt >>> 5).toNat with
      | some co =>
        if !co.aff then raiseWave c s cRESERVED 0
        else
          let s := s.modBlock c.id.serial c.id.block (fun x => { x with matrixActed := true })
          spIssue c s (.mbcast co.entry b.toNat p.toNat ((c.s sa).toInt + off.toInt) (c.s sb) (pt &&& 31#8).toNat) [] .other 0 (c.eff h)
      | none => raiseWave c s cRESERVED 0)

/-- Bits of A that SUB[9:8] names. -/
def bitsOf (x : BitVec 2) : Nat := 4 * 2 ^ x.toNat

/-- R276. -/
def execMqma (h : Hdr) (_keepA : Bool) (b : BitVec 3) (g : BitVec 2) (sa sb : BitVec 8) (q : BitVec 3) (nb : BitVec 2) (s : State) : Out :=
  issue s (fun c =>
    let ls := (c.lanes h).filter (fun l => l / 8 == q.toNat)
    if ls.isEmpty then c.done s id
    else if !drives c b.toNat then raiseWave c s cPROT (BitVec.ofNat 64 b.toNat)
    else match fmtBlock (c.w.readS sb.toNat) with
      | none => raiseWave c s cRESERVED 0
      | some f =>
        if f.a.bits != bitsOf nb || (s.bslot c.b.core b.toNat).comingTag != some f.b || viewRows f.c ≤ 8 * g.toNat + 7 then
          raiseWave c s cRESERVED 0
        else
          let addr (l : Nat) : Nat := (c.w.readV sa.toNat l).toNat
          let size := c.l.offer.kernel.scratch
          let nsc := if f.a = .q4 then 256 / f.abl else 0
          let mis := ls.filter (fun l => addr l % 128 != 0)
          let out := ls.filter (fun l => size < addr l + rowBytes f.a || (f.a == .q4 && size < f.asc + (l % 8 + 1) * nsc))
          if !mis.isEmpty then raiseLanes c s cMISALIGN mis (BitVec.ofNat 64 (addr (mis.headD 0)))
          else if !out.isEmpty then raiseLanes c s cSPBOUND out (BitVec.ofNat 64 (addr (out.headD 0)))
          else
            let s := mxIssue c s b.toNat (.mqma g.toNat (c.w.readS sb.toNat) none false)
            spIssue c s (.mqma b.toNat s.tick (ls.map (fun l => (l % 8, addr l))) (rowBytes f.a) f.asc nsc) [] .other 0 (c.eff h))

def execMcrd (h : Hdr) (ty : Ty) (dst : BitVec 8) (b : BitVec 3) (r : BitVec 5) (col : BitVec 8) (s : State) : Out :=
  issue s (fun c =>
    if !c.any h then c.done s id
    else if !drives c b.toNat then raiseWave c s cPROT (BitVec.ofNat 64 b.toNat)
    else
      let s := c.done s (fun w => addPend w { tag := s.tick, kind := .other, dst := [.v dst.toNat], writes := [], ready := false })
      drainAll (mxIssue c s b.toNat (.mcrd ty r.toNat col.toNat dst.toNat (c.eff h))) c.b.core b.toNat)

def execMcwr (h : Hdr) (ty : Ty) (_keepA : Bool) (src : BitVec 8) (b : BitVec 3) (r : BitVec 5) (col : BitVec 8) (s : State) : Out :=
  issue s (fun c =>
    if !c.any h then c.done s id
    else if !drives c b.toNat then raiseWave c s cPROT (BitVec.ofNat 64 b.toNat)
    else
      let vals := (c.lanes h).map (fun l => (l, c.w.readV src.toNat l))
      drainAll (mxIssue c (c.done s id) b.toNat (.mcwr ty r.toNat col.toNat vals)) c.b.core b.toNat)

def execMcz (h : Hdr) (ty : Ty) (b : BitVec 3) (r : BitVec 5) (n : BitVec 8) (s : State) : Out :=
  issue s (fun c =>
    if !c.any h then c.done s id
    else if !drives c b.toNat then raiseWave c s cPROT (BitVec.ofNat 64 b.toNat)
    else drainAll (mxIssue c (c.done s id) b.toNat (.mcz ty r.toNat n.toNat)) c.b.core b.toNat)

/-! ### Reads of the scratchpad (R271) -/

/-- A word of a slot's queue rewritten. -/
def modMx (s : State) (core b id : Nat) (f : MxKind → MxKind) : State :=
  s.modBSlot core b (fun x => { x with q := x.q.map (fun o => if o.id = id then { o with kind := f o.kind } else o) })

/-- The accesses of a matrix word: panel and scales, rows and their scales, the source of a broadcast. -/
def mxSpans (size : Nat) (k : SpKind) : List Span :=
  match k with
  | .mbld _ _ a sc ty bl _ => [(0, a, 4096), (0, sc, panelScales ty bl)]
  | .mqma _ _ rows n asc nsc => rows.flatMap (fun r => [(0, r.2, n), (0, asc + r.1 * nsc, nsc)])
  | .mbcast _ _ _ a desc _ => (match descOf desc with
    | some (t, bl, sc) =>
      if a % 128 != 0 || a < 0 || (size : Int) < a + 4096 || (t == .q4 && size < sc + panelScales t bl) then []
      else [(0, a.toNat, 4096), (0, sc, panelScales t bl)]
    | none => [])
  | _ => []

/-- R239: a panel load counts the bytes of its panel and scales. -/
def countPanel (s : State) (serial p : Nat) (k : SpKind) (xs : List Span) : State :=
  match k with
  | .mbld _ _ _ _ _ _ _ => addBytes s serial 0 (spanBytes p xs).length
  | _ => s

/-- R269: no earlier panel load of the issue slot is still to complete; of two slots b and b + 4 of one issue slot. -/
def mbldFirst (s : State) (core slot id : Nat) : Bool :=
  [slot % 4, slot % 4 + 4].all (fun b => (s.bslot core b).q.all (fun o => match o.kind with
    | .mbld _ _ _ _ => id ≤ o.id
    | _ => true))

/-- The word of a member for the bus, with what its checks come to (R274). -/
def bcastOf (s : State) (id : WaveId) (b : Block) (op : SpOp) (entry slot p : Nat) (a : Int) (desc : BitVec 64) (pt : Nat) : Bcast :=
  let size : Int := scratchOf s id.serial
  let item (err value : Nat) (d : List Byte × List Byte) : Bcast :=
    { entry := entry, num := tget 0 b.bcasts entry, block := id.block, wave := id.wave, seq := op.seq, core := b.core, b := slot, p := p,
      desc := desc, pt := pt, pc := op.pc.toNat, data := d, err := err, value := value }
  let v := (BitVec.ofInt 64 a).toNat
  match descOf desc with
  | none => item 5 0 ([], [])
  | some (t, bl, sc) =>
    if a % 128 != 0 then item 3 v ([], [])
    else if a < 0 || size < a + 4096 then item 4 v ([], [])
    else if t = .q4 && size < sc + panelScales t bl then item 4 sc ([], [])
    else item 0 0 (op.bytes 0 a.toNat 4096, op.bytes 0 sc (panelScales t bl))

/-- What follows the reads of a matrix word. `MQMA` is performed with them; `MBLD` stays at the head of its wave's queue
until its cells and tag are written (R271). -/
def matrixEnd (s : State) (id : WaveId) (b : Block) (op : SpOp) : State :=
  match op.kind with
  | .mbld slot _ a sc ty bl mid =>
    let d := (op.bytes 0 a 4096, op.bytes 0 sc (panelScales ty bl))
    setSpHead (modMx s b.core slot mid (fun k => match k with | .mbld p t l _ => .mbld p t l (some d) | k => k)) id op
  | .mqma slot mid rows n asc nsc =>
    let d := rows.map (fun r => (r.1, op.bytes 0 r.2 n, op.bytes 0 (asc + r.1 * nsc) nsc))
    spDone (modMx s b.core slot mid (fun k => match k with | .mqma g f _ st => .mqma g f (some d) st | k => k)) id op.tag []
  | .mbcast entry slot p a desc pt =>
    let s := s.modLaunch id.serial (fun l => { l with bcastSent := l.bcastSent ++ [bcastOf s id b op entry slot p a desc pt] })
    let s := s.modBlock id.serial id.block (fun b => { b with bcasts := tput b.bcasts entry (tget 0 b.bcasts entry + 1), relaunchable := false })
    spDone s id op.tag []
  | _ => s

/-- The scratchpad performs the next part of a matrix word at the head of a wave's queue. -/
def performMatrix (s : State) (id : WaveId) (b : Block) (op : SpOp) : State :=
  let xs := mxSpans (scratchOf s id.serial) op.kind
  let held : Bool := match op.kind with
    | .mbld slot _ _ _ _ _ mid => op.left == some [] || !mbldFirst s b.core slot mid
    | _ => false
  if held then s
  else stepParts s id op (spanParts xs) (anyPart s) (fun p => (countPanel s id.serial p op.kind xs, some (readPart s id false p xs op.got)))
    (fun s op => matrixEnd s id b op)

/-! ### The unit's own steps -/

/-- MBLD_COMPLETE: the slot's earliest word is a load whose panel has been read. -/
def execMbldComplete (core b : Nat) (s : State) : Out :=
  match (s.bslot core b).q with
  | op :: rest => (match op.kind with
    | .mbld p t bl (some d) =>
      .next (drainAll (spDone (s.modBSlot core b (fun x => { loadPanel x p t bl d with q := rest })) op.w op.tag []) core b)
    | _ => .next s)
  | [] => .next s

/-- The words that fuse with a pass that starts now (R269): those behind it of its format block, up to eight quarters. -/
def fuse (f : BitVec 64) : Nat → List MxOp → List MxOp
  | 0, q => q
  | _, [] => []
  | n + 1, o :: t => match o.kind with
    | .mqma g k (some d) _ => if k = f then { o with kind := .mqma g k (some d) true } :: fuse f n t else o :: t
    | _ => o :: t

/-- MATRIX_PASS: a pass starts on a slot. -/
def execMatrixPass (core b : Nat) (s : State) : Out :=
  match (s.bslot core b).q with
  | op :: _ => (match op.kind with
    | .mqma _ f (some _) false => .next (s.modBSlot core b (fun x => { x with q := fuse f 8 x.q }))
    | _ => .next s)
  | [] => .next s

/-- MATRIX_PASS_COMPLETE: the earliest quarter of a started pass has accumulated. -/
def execMatrixPassComplete (core b : Nat) (s : State) : Out :=
  match (s.bslot core b).q with
  | op :: rest => (match op.kind with
    | .mqma g f (some rows) true => (match fmtBlock f with
      | some m => .next (drainAll (s.modBSlot core b (fun x => { passRows x g m rows with q := rest })) core b)
      | none => .next s)
    | _ => .next s)
  | [] => .next s

/-- The matrix words that a member's wave issued before its `MBCAST` on the slot have taken effect there. -/
def bcastFree (s : State) (serial : Nat) (x : Bcast) : Bool :=
  (s.bslot x.core x.b).q.all (fun o => !(o.w == { serial := serial, block := x.block, wave := x.wave } && o.id < x.seq))

/-- The words of the next broadcast of a cohort, one of each member, once all have reached the bus. -/
def bcastReady (l : Launch) (entry : Nat) : Option (List Bcast) :=
  match l.offer.kernel.cohorts.find? (fun c => c.entry == entry) with
  | some c =>
    let k := tget 0 l.bcastDone entry
    let ms := c.members l.offer.nblock
    let xs := ms.filterMap (fun m => l.bcastSent.find? (fun x => x.entry == entry && x.num == k && x.block == m))
    if xs.length = ms.length && !xs.isEmpty then some xs else none
  | none => none

/-- BROADCAST_PERFORM (R274). The panel is written in one step: a quarter that adds meanwhile reads it wholly before the
write or wholly after. DEDUCED (log 30). -/
def execBroadcastPerform (serial cohort : Nat) (s : State) : Out :=
  match s.launch serial with
  | none => .next s
  | some l => match bcastReady l cohort with
    | none => .next s
    | some xs => match xs with
      | [] => .next s
      | src :: _ =>
        if !xs.all (bcastFree s serial) then .next s else
        let s := s.modLaunch serial (fun l => { l with bcastDone := tput l.bcastDone cohort (src.num + 1),
                                                        bcastSent := l.bcastSent.filter (fun x => !(x.entry == cohort && x.num == src.num)) })
        let pt : PointRef := { serial := serial, block := src.block, cohort := some cohort, n := src.pt }
        if xs.any (fun x => x.b != src.b || x.p != src.p || x.desc != src.desc) then .next (failPoint s (some pt) 5 (0, src.pc, 0))
        else if src.err != 0 then .next (failPoint s (some pt) src.err (0, src.pc, src.value))
        else match descOf src.desc with
          | none => .next s
          | some (t, bl, _) =>
            let s := addBytes s serial 0 (4096 + panelScales t bl)
            let s := xs.foldl (fun s x => s.modBSlot x.core src.b (fun y => loadPanel y src.p t bl src.data)) s
            .next (countDown s pt 4096 s.hpt (0, src.pc, 0))

end Sys2Proof.Machine
end

