-- ==== Sys2Proof/Machine/Control.lean ====
section
/-! DEFINITION. The control words (Table 5-3, R100 to R110), the frames of the spill stack (R93 to R95) and the
retirement of a wave (R96, R141, R356). -/

namespace Sys2Proof.Machine

/-- The cursor's wave rewritten; the word itself sets its PC slots. -/
def Ctx.rewrite (c : Ctx) (s : State) (f : Wave → Wave) : State := s.modWave c.id f

/-- The cursor's path moved to `pc`. -/
def Ctx.jump (c : Ctx) (s : State) (pc : BitVec 32) : State :=
  c.rewrite s (fun w => w.setSlot c.slotB (some (c.sl.to pc)))

/-- R100, R101: a condition operand over ACTIVE. -/
def condMask (c : Ctx) (neg : Bool) (m : BitVec 3) : Mask :=
  (if neg then ~~~ (c.w.readM m.toNat) else c.w.readM m.toNat) &&& c.sl.path.mask

/-- R94: a live path of the other slot becomes a PATH frame. A wait that held it is over: once popped, the waiting word
issues anew, with its limit. DEDUCED (log 86). -/
def Wave.pushOther (w : Wave) (slotB : Bool) : Wave :=
  match w.slot (!slotB) with
  | some x => { w.setSlot (!slotB) none with stack := .path x.path :: w.stack }
  | none => w

/-- A fresh path in a slot. -/
def freshSlot (p : Path) : Slot := { path := p }

/-- A path held until a popped frame has been read (R95). -/
def frameSlot (p : Path) : Slot := { path := p, hold := .frame }

/-- R92: the loop registers of a wave, as a frame saves them. -/
def Wave.loops (w : Wave) : List LoopReg := (List.range 8).map w.readL
def Wave.setLoops (w : Wave) (ls : List LoopReg) : Wave := { w with l := tputs {} [] 0 ls }

/-- Activation count of a call target (R92). -/
def Wave.actOf (w : Wave) (t : Nat) : Nat := tget 0 w.act t
def Wave.setAct (w : Wave) (t n : Nat) : Wave := { w with act := tset 0 w.act t n }

/-- `.recurse` depth of a target. -/
def depthOf (l : Launch) (t : Nat) : Nat := ((l.offer.kernel.recurse.find? (fun r => r.1 == t)).map (fun r => r.2)).getD 0

/-! ### Retirement -/

/-- R96, R141: the wave retires; its allotment joins the pool of its slot, a maker's duty not discharged fails.
DEDUCED (log 63). A sweep wave's registers stay with its context's reservation (R326). DEDUCED (log 94). -/
def retireWave (s : State) (id : WaveId) : State :=
  match s.wave id with
  | none => s
  | some w =>
    let s := s.setWave id { w with retiredWave := true }
    let s := match w.sweep with
      | some i => s.modSweep i.ctx (fun x => { x with cur := x.cur.map (fun r => { r with waveOn := false }) })
      | none => s.modBlock id.serial id.block (fun b => { b with pools := tput b.pools (id.wave % 4) (tget 0 b.pools (id.wave % 4) + w.allot) })
    makersFail s (fun m => m == id)

/-- R96: both slots empty and no PATH frame left. -/
def Wave.over_ (w : Wave) : Bool :=
  w.a.isNone && w.b.isNone && !w.stack.any (fun f => match f with | .path _ => true | _ => false)

/-- The wave retires when R96 says so. -/
def retireIfOver (s : State) (id : WaveId) : State :=
  match s.wave id with
  | some w => if w.over_ && !w.retiredWave then retireWave s id else s
  | none => s

/-- R108: frames above a PATH frame are discarded; CALL frames give back their loop registers and activations. -/
def unwind (w : Wave) : List Frame → Wave
  | [] => { w with stack := [] }
  | .path p :: t => { w with stack := .path p :: t }
  | .rejoin _ _ :: t => unwind w t
  | .call _ _ ls tg :: t => unwind ((w.setLoops ls).setAct tg (w.actOf tg - 1)) t

/-- R108: the issuing path ends. -/
def Wave.exitPath (w : Wave) (slotB : Bool) : Wave :=
  let w := w.setSlot slotB none
  if (w.slot (!slotB)).isNone then unwind w w.stack else w

/-- R239, Table 12-4: the frames that a word of the cursor has popped, 96 bytes each, counted to HBM.
DEDUCED (log 63). -/
def Ctx.pops (c : Ctx) (s : State) : State :=
  match s.wave c.id with
  | some w => addBytes s c.id.serial 1 (96 * (c.w.stack.length - w.stack.length))
  | none => s

/-! ### The words -/

def execBra (tgt : BitVec 24) (s : State) : Out := issue s (fun c => c.jump s (target c.sl.path.pc tgt))

def execBrc (neg : Bool) (m : BitVec 3) (tgt : BitVec 24) (s : State) : Out :=
  issue s (fun c => c.jump s (if condMask c neg m != 0 then target c.sl.path.pc tgt else c.sl.path.pc + 8))

/-- R102. -/
def execBrd (neg : Bool) (m : BitVec 3) (tgt : BitVec 24) (dist : BitVec 16) (s : State) : Out :=
  issue s (fun c =>
    let t := condMask c neg m
    let f := c.sl.path.mask &&& ~~~t
    let pc := c.sl.path.pc
    let j := pc + 8 * dist.setWidth 32
    if f == 0 then c.jump s (target pc tgt)
    else if t == 0 then c.jump s (pc + 8)
    else c.rewrite s (fun w =>
      let w := w.pushOther c.slotB
      let w := { w with stack := .rejoin c.sl.path.join c.sl.path.mask :: w.stack }
      let w := w.setSlot c.slotB (some (freshSlot { pc := pc + 8, mask := f, join := some j, parked := false }))
      w.setSlot (!c.slotB) (some (freshSlot { pc := target pc tgt, mask := t, join := some j, parked := false }))))

/-- R103: a REJOIN frame popped; the path left in the slot waits for the frame read. With no REJOIN frame on top, which no
accepted kernel reaches, the path goes on with no join address. DESIGN CHOICE (log 88). -/
def Wave.rejoin (w : Wave) (slotB : Bool) (pc : BitVec 32) (mask : Mask) : Wave :=
  match w.stack with
  | .rejoin j _ :: t => { w with stack := t }.setSlot slotB (some (frameSlot { pc := pc + 8, mask := mask, join := j, parked := false }))
  | _ => w.setSlot slotB (some (freshSlot { pc := pc + 8, mask := mask, join := none, parked := false }))

def execJoin (s : State) : Out :=
  issue s (fun c => c.pops (
    let pc := c.sl.path.pc
    if c.sl.path.join != some pc then c.jump s (pc + 8)
    else match c.w.slot (!c.slotB) with
      | some x =>
        if x.path.join == some pc then
          (if x.path.parked then
            c.rewrite s (fun w => (w.setSlot (!c.slotB) none).rejoin c.slotB pc (c.sl.path.mask ||| x.path.mask))
           else c.rewrite s (fun w => w.setSlot c.slotB (some { c.sl with path := { c.sl.path with parked := true } })))
        else c.rewrite s (fun w => w.rejoin c.slotB pc c.sl.path.mask)
      | none => c.rewrite s (fun w => w.rejoin c.slotB pc c.sl.path.mask)))

/-- R104. -/
def execLoopb (l : BitVec 3) (tgt : BitVec 24) (lim : Lim 15) (s : State) : Out :=
  issue s (fun c =>
    let n := limVal c.l lim
    let trips := (c.w.readL l.toNat).trips + 1
    if n ≤ trips.toNat then raiseLimit c s kLOOP n
    else (c.jump s (target c.sl.path.pc tgt)).modWave c.id (fun w => w.writeL l.toNat { trips := trips, limit := BitVec.ofNat 32 n }))

def execLoopn (l : BitVec 3) (tgt : BitVec 24) (lim : Lim 15) (s : State) : Out :=
  issue s (fun c =>
    let n := limVal c.l lim
    let trips := (c.w.readL l.toNat).trips + 1
    let more := trips.toNat < n
    (c.jump s (if more then target c.sl.path.pc tgt else c.sl.path.pc + 8)).modWave c.id
      (fun w => w.writeL l.toNat { trips := if more then trips else 0, limit := BitVec.ofNat 32 n }))

def execLoopx (l : BitVec 3) (tgt : BitVec 24) (s : State) : Out :=
  issue s (fun c => (c.jump s (target c.sl.path.pc tgt)).modWave c.id (fun w => w.writeL l.toNat { w.readL l.toNat with trips := 0 }))

/-- R106 once the target is known. -/
def callTo (c : Ctx) (s : State) (t : BitVec 32) : State :=
  let d := depthOf c.l t.toNat
  if c.w.actOf t.toNat == d then raiseLimit c s kRECURSE d
  else c.rewrite s (fun w =>
    let ls := w.loops
    let w := w.pushOther c.slotB
    let w := { w with stack := .call (c.sl.path.pc + 8) c.sl.path.join ls t.toNat :: w.stack, l := [] }
    let w := w.setAct t.toNat (w.actOf t.toNat + 1)
    w.setSlot c.slotB (some (freshSlot { c.sl.path with pc := t, join := none })))

def execCall (tgt : BitVec 24) (s : State) : Out := issue s (fun c => callTo c s (target c.sl.path.pc tgt))

def execCallt (tbl : BitVec 8) (idx : BitVec 6) (s : State) : Out :=
  issue s (fun c =>
    let t := c.l.offer.kernel.tables.getD tbl.toNat []
    match t[(c.s idx).toNat]? with
    | some a => callTo c s (BitVec.ofNat 32 a)
    | none => raiseLimit c s kCALLT t.length)

/-- R107. With no CALL frame on top, which no accepted kernel brings about (R98), the path goes on at the next word.
DESIGN CHOICE (log 88). -/
def execRet (s : State) : Out :=
  issue s (fun c =>
    match c.w.stack with
    | .call r j ls t :: rest =>
      c.pops (c.rewrite s (fun w =>
        let w := ({ w with stack := rest }.setLoops ls).setAct t (w.actOf t - 1)
        w.setSlot c.slotB (some (frameSlot { c.sl.path with pc := r, join := j }))))
    | _ => c.jump s (c.sl.path.pc + 8))

def execExit (s : State) : Out := issue s (fun c => retireIfOver (c.pops (c.rewrite s (fun w => w.exitPath c.slotB))) c.id)

/-- R109. -/
def execYield (s : State) : Out := issue s (fun c => c.done s (fun w => { w with yielded := !c.det }))
def execNop (s : State) : Out := issue s (fun c => c.done s id)

/-- R110. -/
def execTrap (code : BitVec 16) (s : State) : Out := issue s (fun c => raiseLimit c s kTRAP code.toNat)
def execBrk (_code : BitVec 16) (s : State) : Out :=
  issue s (fun c => (c.done s id).modLaunch c.id.serial (fun l => { l with brks := l.brks + 1 }))

/-! ### Frames read back (R95) -/

/-- The slot that a PATH frame on top of the stack fills (R95), A where both are empty. DESIGN CHOICE (log 93). -/
def Wave.popDue (w : Wave) : Option (Bool × Path × List Frame) :=
  match w.stack with
  | .path p :: t => if w.a.isNone then some (false, p, t) else if w.b.isNone then some (true, p, t) else none
  | _ => none

/-- FRAME_POP: the path fills the empty slot with its parked flag cleared, not eligible until the frame is read. -/
def execFramePop (w : WaveId) (s : State) : Out :=
  match s.wave w with
  | some x => match x.popDue with
    | some (slotB, p, t) => .next (addBytes (s.setWave w ({ x with stack := t }.setSlot slotB (some (frameSlot { p with parked := false })))) w.serial 1 96)
    | none => .next s
  | none => .next s

/-- FRAME_READ_DONE. -/
def execFrameReadDone (w : WaveId) (slotB : Bool) (s : State) : Out :=
  .next (s.modWave w (fun x => match x.slot slotB with
    | some sl => if sl.hold == .frame then x.setSlot slotB (some { sl with hold := .free }) else x
    | none => x))

end Sys2Proof.Machine
end

