-- ==== Sys2Proof/Machine/Sweep.lean ====
section
/-! DEFINITION. Accorded tensors, sweep contexts, their runs and the sweep words (20_sweeps.md). -/

namespace Sys2Proof.Machine

/-! ### Geometry (R323) -/

def accordOf (k : Kernel) (c : Nat) : Option Accord := k.accords.find? (fun a => a.c == c)

/-- P. Orders: 0 `row`, 1 `col`, 2 `diag:S`. -/
def Accord.count (a : Accord) : Nat := if a.order = 2 then (a.rows + a.cols - 1) * a.skew else a.rows * a.cols

/-- The position of an element; none outside the tensor. -/
def Accord.posOf (a : Accord) (i j : Int) : Option Nat :=
  if 0 ≤ i && i < a.rows && 0 ≤ j && j < a.cols then
    let i := i.toNat
    let j := j.toNat
    some (match a.order with
      | 0 => i * a.cols + j
      | 1 => j * a.rows + i
      | _ => (i + j) * a.skew + i)
  else none

/-- The element at a position; none for a hole and at P and above. -/
def Accord.elemAt (a : Accord) (p : Nat) : Option (Nat × Nat) :=
  if a.count ≤ p then none
  else match a.order with
    | 0 => some (p / a.cols, p % a.cols)
    | 1 => some (p % a.rows, p / a.rows)
    | _ =>
      let i := p % a.skew
      let d := p / a.skew
      if i < a.rows && i ≤ d && d - i < a.cols then some (i, d - i) else none

/-- Allocation offset of a record. -/
def Accord.off (a : Accord) (p : Nat) : Nat := a.base + 16 * p

/-- Chunks of a sweep (R330). -/
def Accord.chunks (a : Accord) (width : Nat) : Nat := ceilDiv a.count width

/-! ### Contexts (Table 20-2) -/

def cxState (x : Nat) : Nat := bits x 63 56
def cxWait (x : Nat) : Nat := bits x 55 52
def cxNbr (x : Nat) : Nat := bits x 51 48
def cxArg (x : Nat) : Nat := bits x 47 32
def cxPriv (x : Nat) : Nat := bits x 31 0

/-- The context of a position in a block's allocation. -/
def ctxNat (s : State) (serial block : Nat) (a : Accord) (p : Nat) : Nat :=
  ofLeBytes (scrBytes s serial block false (a.off p + 8) 8)

/-- The neighbour of a position through a table entry (R325). -/
def nbrOf (a : Accord) (p k : Nat) : Option Nat :=
  match a.elemAt p, a.nbr[k]? with
  | some e, some d => a.posOf ((e.1 : Int) + d.1) ((e.2 : Int) + d.2)
  | _, _ => none

def nbrState (s : State) (serial block : Nat) (a : Accord) (p k : Nat) : Nat :=
  match nbrOf a p k with
  | some q => cxState (ctxNat s serial block a q)
  | none => 255

/-- The designator of a WAITK 2. -/
def cxPoint (x : Nat) : BitVec 8 := BitVec.ofNat 8 (cxArg x / 256)

/-- R325. -/
def malformedCx (l : Launch) (id : WaveId) (a : Accord) (x : Nat) : Bool :=
  let arg := cxArg x
  (cxState x != 255 && a.resume.length ≤ cxState x) ||
    (match cxWait x with
      | 0 => arg != 0
      | 1 => 256 ≤ arg
      | 2 => l.det || bits arg 7 1 != 0 || 24 ≤ bits arg 12 8 || 5 ≤ bits arg 15 13 || (pointOf l id (cxPoint x)).isNone
      | 3 => l.det || arg != 0
      | 4 => l.det || bits arg 15 12 != 0
      | 5 => arg != 0
      | _ => true)

/-- The skip bit that a context write leaves (R339). -/
def skipOf (s : State) (serial block : Nat) (a : Accord) (p x : Nat) : Bool :=
  cxState x == 255 || cxWait x == 5 || (cxWait x == 1 && nbrState s serial block a p (cxNbr x) < bits (cxArg x) 7 0)

/-! ### The skip map (R329, R331) -/

/-- The run of a tensor in progress for a block. -/
def runningOf (s : State) (ctx serial block : Nat) : Option CurRun :=
  match (s.sweepCtx ctx).cur with
  | some r => if r.run.w.serial == serial && r.run.w.block == block then some r else none
  | none => none

def modRun (s : State) (ctx : Nat) (f : CurRun → CurRun) : State := s.modSweep ctx (fun x => { x with cur := x.cur.map f })

/-- Sets the skip bit of a position to `on`. -/
def CurRun.skip (r : CurRun) (p : Nat) (on : Bool) : CurRun :=
  { r with clear := if on then r.clear.filter (fun q => q != p) else insertNat p r.clear }

/-- R331: the elements whose neighbour through some entry is the changed one. -/
def wakeOf (a : Accord) (p : Nat) : List Nat :=
  match a.elemAt p with
  | some e => a.nbr.filterMap (fun d => a.posOf ((e.1 : Int) - d.1) ((e.2 : Int) - d.2))
  | none => []

/-- A context write by `SWAIT`, `SWEND` or `SCTXW`, with what it does to the skip map during a run. -/
def putCx (s : State) (ctx serial block : Nat) (a : Accord) (p x : Nat) : State :=
  let old := cxState (ctxNat s serial block a p)
  let s := scrWrite s serial block false (a.off p + 8) (leBytes x 8)
  match runningOf s ctx serial block with
  | some _ =>
    let s := modRun s ctx (fun r => r.skip p (skipOf s serial block a p x))
    if cxState x != old then modRun s ctx (fun r => (wakeOf a p).foldl (fun r q => r.skip q false) r) else s
  | none => s

/-- `SWEND`: retired, no wait; NBR, WARG and PRIV kept. -/
def endCx (x : Nat) : Nat := 255 * 2 ^ 56 + bits x 51 0

/-- `SWAKE` on one record (R340). -/
def wakeCx (s : State) (ctx serial block : Nat) (a : Accord) (p : Nat) : State :=
  let x := ctxNat s serial block a p
  let s := if cxWait x = 5 then scrWrite s serial block false (a.off p + 8) (leBytes (cxState x * 2 ^ 56 + bits x 51 0) 8) else s
  match runningOf s ctx serial block with
  | some _ => modRun s ctx (fun r => r.skip p false)
  | none => s

/-! ### The words -/

/-- The context of a core that a tensor operand names. -/
def Ctx.sweep (c : Ctx) (k : BitVec 2) : Nat := 4 * c.b.core + k.toNat

/-- R338. -/
def execSwgo (h : Hdr) (k : BitVec 2) (d arg : BitVec 6) (lim : Lim 31) (s : State) : Out :=
  issue s (fun c =>
    if !c.any h then c.done s id
    else
      let ctx := c.sweep k
      let num := (s.sweepCtx ctx).nextNum
      let run : Run := { num := num, seq := s.tick, w := c.id, pc := c.sl.path.pc.toNat, arg := c.s arg, limit := limVal c.l lim }
      let mine (r : Run) : Bool := r.w.serial == c.id.serial && r.w.block == c.id.block
      let run := { run with behind := (s.sweepCtx ctx).cur.any (fun r => mine r.run) || (s.sweepCtx ctx).runs.any mine }
      let s := s.modSweep ctx (fun x => { x with nextNum := num + 1, runs := x.runs ++ [run] })
      c.later s [.s d.toNat, .s (d.toNat + 1)]
        [.s d.toNat (BitVec.ofNat 64 num), .s (d.toNat + 1) (BitVec.ofNat 64 (2 ^ 30 + ctx))])

/-- The tensor and the element positions of a sweep wave. -/
def Ctx.tensor (c : Ctx) : Option (Accord × SweepInfo) :=
  c.w.sweep.bind (fun i => (accordOf c.l.offer.kernel (i.ctx % 4)).map (fun a => (a, i)))

/-- R339: the lanes leave the path; an empty mask ends the path as `EXIT` does. -/
def Ctx.leave (c : Ctx) (s : State) (eff : Mask) : State :=
  let mask := c.sl.path.mask &&& ~~~eff
  if mask == 0 then retireIfOver (c.pops (s.modWave c.id (fun w => w.exitPath c.slotB))) c.id
  else s.modWave c.id (fun w => w.setSlot c.slotB (some
    { c.sl with path := { c.sl.path with pc := c.sl.path.pc + 8, mask := mask }, hold := .free }))

/-- The context writes of `SWAIT` or `SWEND`: a scratchpad word of the sweep wave; `v` gives a lane's new context.
DEDUCED (log 42). -/
def leaveWord (c : Ctx) (s : State) (h : Hdr) (v : Nat → Option (BitVec 64)) : State :=
  let at_ := match c.tensor with
    | some (_, i) => (c.lanes h).filterMap (fun l => (tfind i.lanes l).map (fun p => (l, p, v l)))
    | none => []
  let op : SpOp := { seq := s.tick, tag := s.tick, pc := c.sl.path.pc, start := c.w.cyc c.b.core s.tick, since := s.tick,
                     limit := 0, eff := c.eff h, kind := .swctx at_ }
  c.leave (s.modWave c.id (fun w => { w with spq := w.spq ++ [op] })) (c.eff h)

def execSwait (h : Hdr) (sa : BitVec 8) (s : State) : Out :=
  issue s (fun c =>
    if !c.any h then c.done s id
    else
      let x (l : Nat) : BitVec 64 := c.w.readV64 sa.toNat l
      let bad := (c.lanes h).filter (fun l => match c.tensor with
        | some (a, _) => malformedCx c.l c.id a (x l).toNat || cxState (x l).toNat == 255
        | none => false)
      if !bad.isEmpty then raiseLanes c s cRESERVED bad 0
      else leaveWord c s h (fun l => some (x l)))

def execSwend (h : Hdr) (s : State) : Out :=
  issue s (fun c => if !c.any h then c.done s id else leaveWord c s h (fun _ => none))

/-- R340: the checks of a word that names records by their offsets; `data` gives the new context of a lane. -/
def recordWord (h : Hdr) (sa : BitVec 8) (scal : Bool) (k : BitVec 2) (s : State) (data : Option (Ctx → Nat → BitVec 64))
    (ok : Ctx → List (Nat × Nat) → State) : Out :=
  issue s (fun c =>
    let ls := turnsOf c h scal
    if ls.isEmpty then c.done s id
    else match accordOf c.l.offer.kernel k.toNat with
      | none => raiseWave c s cRESERVED 0
      | some a =>
        checkSp c s scal c.l.offer.kernel.scratch 16 16 (ls.map (fun l => (l, spAddr c.w scal sa.toNat l))) (fun at_ =>
          let lie := at_.filter (fun p => p.2 < a.base || a.off a.count ≤ p.2)
          let hole := at_.filter (fun p => (a.elemAt ((p.2 - a.base) / 16)).isNone)
          let wrong : List (Nat × Nat) := match data with
            | some f => at_.filter (fun p => malformedCx c.l c.id a (f c p.1).toNat)
            | none => []
          if !lie.isEmpty then raiseAt c s cSPBOUND scal (lie.map (fun p => (p.1, (p.2 : Int))))
          else if !hole.isEmpty then raiseAt c s cRESERVED scal (hole.map (fun p => (p.1, (0 : Int))))
          else if !wrong.isEmpty then raiseAt c s cRESERVED scal (wrong.map (fun p => (p.1, (0 : Int))))
          else ok c (at_.map (fun p => (p.1, (p.2 - a.base) / 16)))))

def execSwake (h : Hdr) (sa : BitVec 8) (scalar : Bool) (k : BitVec 2) (s : State) : Out :=
  recordWord h sa scalar k s none (fun c at_ =>
    spIssue c s (.swake k.toNat at_) [] .other 0 (c.eff h))

def execSctxr (h : Hdr) (dst sa : BitVec 8) (scalar : Bool) (k : BitVec 2) (s : State) : Out :=
  recordWord h sa scalar k s none (fun c at_ =>
    spIssue c s (.sctxr scalar dst.toNat k.toNat at_) (dstRegs .n64 scalar dst.toNat) .other 0 (c.eff h))

def execSctxw (h : Hdr) (src sa : BitVec 8) (scalar : Bool) (k : BitVec 2) (s : State) : Out :=
  let f (c : Ctx) (l : Nat) : BitVec 64 := if scalar then c.w.readS src.toNat else c.w.readV64 src.toNat l
  recordWord h sa scalar k s (some f) (fun c at_ =>
    spIssue c s (.sctxw k.toNat (at_.map (fun (p : Nat × Nat) => (p.1, p.2, f c p.1)))) [] .other 0 (c.eff h))

/-- R341. -/
def execSnbr (h : Hdr) (dst : BitVec 8) (k : BitVec 4) (mc : BitVec 3) (s : State) : Out :=
  issue s (fun c =>
    if !c.any h then c.done s id
    else
      let pair := c.l.offer.kernel.pairNbr.contains c.sl.path.pc.toNat
      let at_ := match c.tensor with
        | some (a, i) => (c.lanes h).map (fun l => (l, (tfind i.lanes l).bind (fun p => nbrOf a p k.toNat)))
        | none => []
      spIssue c s (.snbr dst.toNat pair mc.toNat at_)
        (vregs pair dst ++ (if mc = 0 then [] else [.m mc.toNat])) .other 0 (c.eff h))

/-- Elements of a tensor not retired (R342). -/
def aliveOf (s : State) (serial block : Nat) (a : Accord) : Nat :=
  ((List.range a.count).filter (fun p => (a.elemAt p).isSome && cxState (ctxNat s serial block a p) != 255)).length

/-- The sweep in progress has evaluated its last chunk and its last wave has retired. -/
def CurRun.sweepOver (r : CurRun) (chunks : Nat) : Bool := r.evaluated && r.groups.isEmpty && !r.waveOn && chunks ≤ r.chunk + 1

/-- R342. -/
def execSwqry (h : Hdr) (dst : BitVec 6) (f k : BitVec 2) (s : State) : Out :=
  issue s (fun c =>
    if !c.any h then c.done s id
    else match accordOf c.l.offer.kernel k.toNat with
      | none => raiseWave c s cRESERVED 0
      | some a =>
        let x := s.sweepCtx (c.sweep k)
        let n := match f.toNat, x.cur with
          | 0, some r => r.sweep + (if r.sweepOver (a.chunks c.w.width) then 1 else 0)
          | 0, none => x.lastSweeps
          | 1, _ => aliveOf s c.id.serial c.id.block a
          | 2, some r => r.clear.length
          | 2, none => x.lastClear
          | _, some r => r.run.num
          | _, none => x.lastNum
        c.later s [s6 dst] [.s dst.toNat (BitVec.ofNat 64 n)])

/-! ### Scratchpad words of sweeps performed (R334, R339 to R341) -/

/-- The data of a neighbour under the tensor's type, as `SNBR` writes it. -/
def nbrWrites (op : SpOp) (a : Accord) (dst : Nat) (pair : Bool) (p : Nat × Option Nat) : List RegWrite :=
  let n := match p.2 with
    | some q => ofLeBytes (op.bytes p.1 (a.off q) a.ty.size)
    | none => a.fill.toNat
  let x := extend a.ty n
  if pair then [.v dst p.1 (x.extractLsb' 0 32), .v (dst + 1) p.1 (x.extractLsb' 32 32)] else [.v dst p.1 (x.extractLsb' 0 32)]

/-- The tensor that a sweep word works on. -/
def sweepTensor (w : Wave) (k : Kernel) (op : SpOp) : Option Accord :=
  match op.kind with
  | .sctxr _ _ c _ => accordOf k c
  | .sctxw c _ => accordOf k c
  | .swake c _ => accordOf k c
  | _ => w.sweep.bind (fun i => accordOf k (i.ctx % 4))

/-- The data of neighbours that `SNBR` reads. -/
def sweepSpans (a : Accord) (k : SpKind) : List Span :=
  match k with
  | .snbr _ _ _ at_ => at_.filterMap (fun p => p.2.map (fun q => (p.1, a.off q, a.ty.size)))
  | _ => []

/-- R329, R339, R340: `SWAIT`, `SWEND`, `SCTXW` and `SWAKE` are each one indivisible step, lane after lane in ascending
order, the skip map with them; none for the other words. -/
def sweepWhole (s : State) (id : WaveId) (b : Block) (a : Accord) (k : SpKind) : Option State :=
  let ctx := 4 * b.core + a.c
  match k with
  | .sctxw _ at_ => some (at_.foldl (fun s x => putCx s ctx id.serial id.block a x.2.1 x.2.2.toNat) s)
  | .swake _ at_ => some (at_.foldl (fun s x => wakeCx s ctx id.serial id.block a x.2) s)
  | .swctx at_ => some (at_.foldl (fun s x => putCx s ctx id.serial id.block a x.2.1
      (match x.2.2 with | some y => y.toNat | none => endCx (ctxNat s id.serial id.block a x.2.1))) s)
  | _ => none

/-- The parts of the words that read: for `SCTXR` its lanes (R340), for `SNBR` the units that it touches. -/
def sweepParts (a : Accord) (k : SpKind) : List Nat :=
  match k with
  | .sctxr _ _ _ at_ => at_.map (fun p => spPart (p.1 / 32) p.1)
  | k => spanParts (sweepSpans a k)

/-- `SCTXR` reads its lanes in ascending order (R340). -/
def sweepPick (s : State) (k : SpKind) : List Nat → Option Nat :=
  match k with
  | .sctxr _ _ _ _ => List.head?
  | _ => anyPart s

/-- One part of a sweep word that reads; `SCTXR` keeps a lane's context under eight times the lane. -/
def sweepPart (s : State) (id : WaveId) (a : Accord) (op : SpOp) (p : Nat) : State × Option (Tab Byte) :=
  match op.kind with
  | .sctxr _ _ _ at_ =>
    (s, some (keepOld 8 ((at_.filter (fun x => x.1 == partUnit p)).map (fun x => (x.1, ctxNat s id.serial id.block a x.2))) op.got))
  | _ => (s, some (readPart s id false p (sweepSpans a op.kind) op.got))

/-- The result of a sweep word whose parts are all performed. -/
def sweepWrites (a : Accord) (op : SpOp) : List RegWrite :=
  match op.kind with
  | .sctxr scal dst _ at_ => at_.flatMap (fun p => typeWrites .n64 scal dst p.1 (ofLeBytes (tgets 0 op.got (8 * p.1) 8)))
  | .snbr dst pair mc at_ =>
    at_.flatMap (nbrWrites op a dst pair) ++
      (if mc = 0 then [] else [.m mc op.eff (maskOf ((at_.filter (fun p => p.2.isSome)).map (fun p => p.1)))])
  | _ => []

/-- A sweep word at the head of a wave's queue is performed: whole, or the next part of one that reads. -/
def performSweep (s : State) (id : WaveId) (w : Wave) (b : Block) (k : Kernel) (op : SpOp) : State :=
  match sweepTensor w k op with
  | some a =>
    (match sweepWhole s id b a op.kind with
      | some t => spDone t id op.tag []
      | none => stepParts s id op (sweepParts a op.kind) (sweepPick s op.kind) (sweepPart s id a op)
          (fun s op => spDone s id op.tag (sweepWrites a op)))
  | none => spDone s id op.tag []

/-! ### Turns of a block under the determinism flag (R310, R319, R334) -/

/-- R90, R219: a path parked at a `JOIN` or by `YIELDC`. -/
def Slot.parked (x : Slot) : Bool :=
  x.path.parked || (match x.hold with | .yieldc _ _ => true | _ => false)

/-- R319: a wave that has no eligible path only because its paths are parked. -/
def Wave.allParked (w : Wave) : Bool :=
  (w.a.isSome || w.b.isSome) && w.a.all Slot.parked && w.b.all Slot.parked && w.popDue.isNone

/-- The sweep contexts of a core that have a run of a block in progress or sent to them, those apart whose sweep wave is
parked. -/
def runsOf (s : State) (id : WaveId) (core : Nat) : List Nat :=
  (List.range 4).filter (fun c =>
    let x := s.sweepCtx (4 * core + c)
    let mine (r : Run) : Bool := r.w.serial == id.serial && r.w.block == id.block
    (x.cur.any (fun r => mine r.run) || x.runs.any mine) &&
      !(wavesOf s id.serial id.block).any (fun p => p.2.sweep.any (fun i => i.ctx == 4 * core + c) && !p.2.retiredWave && p.2.allParked))

/-- Places of a block's sequence: its ordinary waves in ascending `WAVE`, then the contexts with a run. A wave whose
paths are all parked is passed over. -/
def places (s : State) (id : WaveId) (core : Nat) : List Nat :=
  ((wavesOf s id.serial id.block).filter (fun p => p.2.sweep.isNone && !p.2.retiredWave && !p.2.allParked)).map (fun p => p.1.wave) ++
    (runsOf s id core).map (fun c => 64 + c)

/-- R334: a run that has been sent to a context with no other run of the block and has not started, or a sweep wave that is
due and not formed, comes before the next turn. DEDUCED (log 74). -/
def sweepDue (s : State) (id : WaveId) (core : Nat) : Bool :=
  (List.range 4).any (fun c =>
    let x := s.sweepCtx (4 * core + c)
    let mine (r : Run) : Bool := r.w.serial == id.serial && r.w.block == id.block
    match x.cur.filter (fun r => mine r.run) with
    | some r => !r.waveOn && !r.groups.isEmpty
    | none => (x.runs.find? mine).any (fun r => !r.behind))

/-- A wave's place: its `WAVE`, or the place of its context. -/
def placeOf (id : WaveId) : Nat := if id.wave < 64 then id.wave else 64 + id.wave % 4

/-- The place whose turn it is. -/
def turnOf (s : State) (id : WaveId) (b : Block) : Option Nat :=
  let ps := places s id b.core
  match ps.find? (fun p => b.rot ≤ p) with
  | some p => some p
  | none => ps.head?

/-! ### Runs (R329, R330, R332, R334, R344) -/

/-- The launch, block and tensor of a run. -/
def runPlace (s : State) (ctx : Nat) (run : Run) : Option (Launch × Block × Accord) :=
  match s.launch run.w.serial, s.block run.w.serial run.w.block with
  | some l, some b =>
    if b.core == ctx / 4 && b.place == .resident then (accordOf l.offer.kernel (ctx % 4)).map (fun a => (l, b, a)) else none
  | _, _ => none

/-- The sweep waves of a run. -/
def runWaves (s : State) (ctx : Nat) (run : Run) : List (WaveId × Wave) :=
  (wavesOf s run.w.serial run.w.block).filter (fun p => match p.2.sweep with
    | some i => i.ctx == ctx && i.run == run.num
    | none => false)

/-- R330, R344: every scratchpad word of the run's waves has been performed; under the determinism flag, every one of
the block that issued before this turn (R157). -/
def runQuiet (s : State) (ctx : Nat) (run : Run) (det : Bool) : Bool :=
  (runWaves s ctx run).all (fun p => p.2.spq.isEmpty) &&
    (!det || (wavesOf s run.w.serial run.w.block).all (fun p => p.2.spq.isEmpty))

/-- R334: a step of a run takes the context's turn. -/
def runTurn (s : State) (ctx : Nat) (run : Run) (b : Block) (det : Bool) : Bool :=
  !det || (turnOf s run.w b == some (64 + ctx % 4) && !sweepDue s run.w b.core)

def tookTurn (s : State) (ctx : Nat) (run : Run) (det : Bool) : State :=
  if det then s.modBlock run.w.serial run.w.block (fun b => { b with rot := 64 + ctx % 4 + 1 }) else s

/-- A fault of a run, at the `SWGO` that started it. -/
def raiseRun (s : State) (ctx : Nat) (run : Run) (b : Block) (code attr construct engine value : Nat) : State :=
  addTrap s run.w.serial
    { code := code, attr := attr, construct := construct, pc := run.pc, pc2 := noPc, block := run.w.block, block2 := noPc,
      wave := run.w.wave, core := b.core, engine := if engine = 0 then 0x4000 + ctx else engine, lanes := 0,
      value := BitVec.ofNat 64 value }

/-- SWEEP_RUN_START: the next run of an idle context; its skip map (R329). The words that the issuing wave had queued
for the scratchpad come first, under the determinism flag those of the whole block (R157). There a run behind another of its
block starts at the context's turn. DEDUCED (log 74). -/
def execSweepRunStart (ctx : Nat) (s : State) : Out :=
  let x := s.sweepCtx ctx
  match x.cur, x.runs with
  | none, run :: rest =>
    (match runPlace s ctx run with
      | some (l, b, a) =>
        let early := (wavesOf s run.w.serial run.w.block).any (fun p =>
          if l.det then !p.2.spq.isEmpty else p.1 == run.w && p.2.spq.any (fun o => o.seq < run.seq))
        if early || (l.det && run.behind && !runTurn s ctx run b true) then .next s
        else
          let clear := (List.range a.count).filter (fun p => (a.elemAt p).isSome &&
            (let y := ctxNat s run.w.serial run.w.block a p; cxState y != 255 && cxWait y != 5))
          let r : CurRun := { run := run, sweep := 0, chunk := 0, clear := clear, groups := [], evaluated := false,
                              sweepTick := s.tick, waveOn := false, relPt := 0 }
          .next (s.modSweep ctx (fun x => { x with cur := some r, runs := rest }))
      | none => .next s)
  | _, _ => .next s

/-- What an evaluated element comes to. -/
inductive Ready where
  | no | yes (relPt : Nat) | err (code attr construct engine value : Nat)
deriving DecidableEq, Repr

/-- R325, Table 20-3: whether an element is ready. -/
def readyOf (s : State) (l : Launch) (id : WaveId) (a : Accord) (p x : Nat) : Ready :=
  match cxWait x with
  | 0 => .yes 0
  | 1 => if bits (cxArg x) 7 0 ≤ nbrState s id.serial id.block a p (cxNbr x) then .yes 0 else .no
  | 2 => (match pointOf l id (cxPoint x) with
    | some r =>
      let q := getPoint s r
      if q.err != 0 then (let e := errTrap q.err; let src := q.src.getD (0, 0, 0); .err e.1 e.2.2 e.2.1 src.1 src.2.2)
      else if q.ph != (cxArg x).testBit 0 then .yes q.relDone else .no
    | none => .err cRESERVED aCALLER 0 0 0)
  | 3 =>
    let t := BitVec.ofNat 32 (cxPriv x)
    let k := s.claim (ticketEntry t)
    if k.st == .making && k.gen == ticketGen t then .no else .yes k.relPt
  | 4 =>
    let h := BitVec.ofNat 64 (bits (cxArg x) 11 10 * 2 ^ 30 + bits (cxArg x) 9 0)
    (match handleIn l h with
      | some (sweep, ctx) => if cxPriv x ≤ timelineOf s sweep ctx then .yes (relPtOf s sweep ctx) else .no
      | none => .err cPROT aCALLER 0 0 h.toNat)
  | _ => .no

/-- R325, R330, R343: a retired context as `SWEND` leaves it, its WARG kept, is no fault; any other malformed one is.
DEDUCED (log 102). -/
def faultyCx (l : Launch) (id : WaveId) (a : Accord) (x : Nat) : Bool := malformedCx l id a x && !(cxState x == 255 && cxWait x == 0)

/-- The elements of one chunk, evaluated in ascending order: the run, its ready elements by lane, or a fault. -/
def evalChunk (s : State) (l : Launch) (id : WaveId) (a : Accord) (width lo : Nat) :
    List Nat → CurRun → (CurRun × List (Nat × Nat × Nat) × Nat) ⊕ (Nat × Nat × Nat × Nat × Nat)
  | [], r => .inl (r, [], 0)
  | p :: t, r =>
    let x := ctxNat s id.serial id.block a p
    let more (r : CurRun) (m : List (Nat × Nat × Nat)) :=
      match evalChunk s l id a width lo t r with
      | .inl (r, k, n) => Sum.inl (r, m ++ k, n + 1)
      | .inr e => .inr e
    if faultyCx l id a x then .inr (cRESERVED, aCALLER, 0, 0, 0)
    else if cxState x = 255 then more (r.skip p true) []
    else match readyOf s l id a p x with
      | .err c at_ k e v => .inr (c, at_, k, e, v)
      | .yes n => more { r with relPt := max r.relPt n } [(cxState x, p - lo, p)]
      | .no => more (if cxWait x = 1 || cxWait x = 5 then r.skip p true else r) []

/-- Ready elements grouped by STATE, ascending; lanes ascend within a group. -/
def groupsOf (m : List (Nat × Nat × Nat)) : List (Nat × List (Nat × Nat)) :=
  (m.foldl (fun us e => insertNat e.1 us) []).map (fun st => (st, (m.filter (fun e => e.1 == st)).map (fun e => e.2)))

/-- CHUNK_EVALUATION: the first chunk of a sweep, or the next once the waves of the one before are done (R330).
DEDUCED (log 29). -/
def execChunkEvaluation (ctx : Nat) (s : State) : Out :=
  match (s.sweepCtx ctx).cur with
  | none => .next s
  | some r =>
    (match runPlace s ctx r.run with
      | none => .next s
      | some (l, b, a) =>
        let width := l.offer.kernel.width
        let n := if r.evaluated then r.chunk + 1 else r.chunk
        if !r.groups.isEmpty || r.waveOn || a.chunks width ≤ n || !runQuiet s ctx r.run l.det || !runTurn s ctx r.run b l.det then .next s
        else
          let lo := n * width
          let r0 : CurRun := { r with chunk := n, evaluated := true, relPt := 0 }
          match evalChunk s l r.run.w a width lo (r.clear.filter (fun p => lo ≤ p && p < lo + width)) r0 with
          | .inr (c, at_, k, e, v) => .next (raiseRun s ctx r.run b c at_ k e v)
          | .inl (r, m, reads) =>
            let s := addBytes s r.run.w.serial 0 (8 * reads)
            .next (tookTurn (modRun s ctx (fun _ => { r with groups := groupsOf m })) ctx r.run l.det))

/-- The registers of a sweep wave at its resume PC (R328). -/
def sweepWave (s : State) (l : Launch) (a : Accord) (ctx : Nat) (r : CurRun) (st : Nat) (lanes : List (Nat × Nat)) : Wave :=
  let k := l.offer.kernel
  let id := r.run.w
  let w : Wave :=
    { width := k.width, allot := k.regs / 16, resident := some s.tick,
      a := some { path := { pc := BitVec.ofNat 32 (a.resume.getD st 0), mask := maskOf (lanes.map (fun p => p.1)), join := none, parked := false } },
      sweep := some { ctx := ctx, run := r.run.num, wave := id.wave, lanes := lanes } }
  let w := (l.offer.params.take 16).zipIdx.foldl (fun (w : Wave) p => w.writeS p.2 p.1) w
  let w := (((w.writeS 16 r.run.arg).writeS 17 (BitVec.ofNat 64 r.sweep)).writeS 18 (BitVec.ofNat 64 r.chunk)).writeS 19 (BitVec.ofNat 64 st)
  lanes.foldl (fun w p =>
    let x := ctxNat s id.serial id.block a p.2
    let e := (a.elemAt p.2).getD (0, 0)
    let w := (w.writeV 0 p.1 (BitVec.ofNat 32 p.2)).writeV 1 p.1 (BitVec.ofNat 32 (e.1 * 65536 + e.2))
    let w := w.writeV 2 p.1 (BitVec.ofNat 32 (a.off p.2))
    (w.writeV 4 p.1 (BitVec.ofNat 32 (bits x 31 0))).writeV 5 p.1 (BitVec.ofNat 32 (bits x 63 32))) w

/-- Nothing of a wave is under way. -/
def Wave.quiet (w : Wave) : Bool :=
  w.pend.isEmpty && w.spq.isEmpty && w.reqs.isEmpty && w.arrs.isEmpty && w.cmds.isEmpty

/-- The index under which the next sweep wave of a context stands: the words of earlier ones may still be under way. -/
def freeIndex (s : State) (id : WaveId) (c : Nat) : Option Nat :=
  ((List.range 16).map (fun j => 64 + c + 4 * j)).find? (fun n => match s.wave { id with wave := n } with
    | some w => w.retiredWave && w.quiet
    | none => true)

/-- SWEEP_WAVE_FORM: a wave for the next STATE group, in ascending STATE, on issue slot c, once the wave before has
retired and its scratchpad words are performed (R328, R330, R333). -/
def execSweepWaveForm (ctx : Nat) (s : State) : Out :=
  match (s.sweepCtx ctx).cur with
  | none => .next s
  | some r =>
    (match r.groups, runPlace s ctx r.run, freeIndex s r.run.w (ctx % 4) with
      | (st, lanes) :: rest, some (l, b, a), some n =>
        if r.waveOn || !runQuiet s ctx r.run l.det then .next s
        else
          let id : WaveId := { r.run.w with wave := n }
          let gone := ((runWaves s ctx r.run).filter (fun p => p.1 == id)).foldl (fun n p => max n p.2.homePt) r.wrote
          let s := s.setWave id (sweepWave s l a ctx r st lanes)
          let s := startView s (setKey l b.core id.serial id.block) 0 r.relPt
          .next (modRun s ctx (fun r => { r with groups := rest, waveOn := true, wrote := gone }))
      | _, _, _ => .next s)

/-- SWEEP_START: the next sweep, at least 1,024 core cycles after the one before started; beyond the repeat limit the
launch faults (R332). -/
def execSweepStart (ctx : Nat) (s : State) : Out :=
  match (s.sweepCtx ctx).cur with
  | none => .next s
  | some r =>
    (match runPlace s ctx r.run with
      | none => .next s
      | some (l, b, a) =>
        if !r.sweepOver (a.chunks l.offer.kernel.width) || r.clear.isEmpty || !runQuiet s ctx r.run l.det || !runTurn s ctx r.run b l.det then .next s
        else if r.run.limit ≤ r.sweep + 1 then .next (raiseRun s ctx r.run b cLIMIT (waitAttr l r.run.seq) kSWEEP 0 r.run.limit)
        else if cum b.core s.tick < cum b.core r.sweepTick + 1024 then .next s
        else .next (tookTurn (modRun s ctx (fun r =>
          { r with sweep := r.sweep + 1, chunk := 0, evaluated := false, sweepTick := s.tick })) ctx r.run l.det))

/-- R221: the stores, atomics and publications of a run's waves are performed, so that a view which starts from now on can
hold its writes. -/
def runWritten (s : State) (ctx : Nat) (run : Run) : Bool :=
  (runWaves s ctx run).all (fun p => !p.2.reqs.any (fun r => isStg r || atHome r)) &&
    s.pubs.all (fun p => p.serial != run.w.serial || p.block != run.w.block || p.engine != 0x4000 + ctx || pubPerformed s p.id)

/-- The latest point of H that a run's waves have reached, or a publication of their store set (R221). -/
def runPoint (s : State) (l : Launch) (core ctx : Nat) (r : CurRun) : Nat :=
  (runWaves s ctx r.run).foldl (fun n p => max n p.2.homePt)
    (max r.wrote (tget 0 s.pubPt (setKey l core r.run.w.serial r.run.w.block)))

/-- SWEEP_RUN_END: the sweep has left every bit set, every scratchpad word of the run is performed and so are its writes; the
timeline passes its number (R221, R332, R344). DEDUCED (log 29). -/
def execSweepRunEnd (ctx : Nat) (s : State) : Out :=
  match (s.sweepCtx ctx).cur with
  | none => .next s
  | some r =>
    (match runPlace s ctx r.run with
      | none => .next s
      | some (l, b, a) =>
        if !r.sweepOver (a.chunks l.offer.kernel.width) || !r.clear.isEmpty || !runQuiet s ctx r.run l.det || !runWritten s ctx r.run || !runTurn s ctx r.run b l.det then .next s
        else
          let s := tookTurn s ctx r.run l.det
          .next (s.modSweep ctx (fun x => { x with cur := none, timeline := max x.timeline r.run.num, lastSweeps := r.sweep + 1,
                                                   lastNum := r.run.num, lastClear := 0,
                                                   relPt := max x.relPt (runPoint s l b.core ctx r) })))

end Sys2Proof.Machine
end

