-- ==== Sys2Proof/Machine/Sched.lean ====
section
/-! DEFINITION. The distributors (17_scheduling.md): placing, stealing, turns of shared cores, pre-emption and restore,
suspension, retirement; relaunch and the loss of a quadrant (16_energy.md); the end of a launch (R238, R239, R363 to
R368). -/

namespace Sys2Proof.Machine

/-! ### Cohort groups and items (R297) -/

def overlap (a b : Cohort) : Bool := a.ranges.any (fun x => b.ranges.any (fun y => x.1 ≤ y.2 && y.1 ≤ x.2))

/-- Cohorts joined to `g` through chains of at most `n` shared blocks. -/
def growGroup (cs : List Cohort) : Nat → List Cohort → List Cohort
  | 0, g => g
  | n + 1, g => growGroup cs n (cs.filter (fun c => g.any (overlap c)))

/-- The cohorts of a block's group. -/
def groupCohorts (k : Kernel) (block : Nat) : List Cohort :=
  growGroup k.cohorts k.cohorts.length (k.cohorts.filter (fun c => c.has block))

/-- Members of some cohorts in ascending order. -/
def membersOf (g : List Cohort) : List Nat :=
  g.foldl (fun ms c => c.ranges.foldl (fun ms r => (List.range (r.2 + 1 - r.1)).foldl (fun ms i => insertNat (r.1 + i) ms) ms) ms) []

/-- The blocks that are placed, stolen, pre-empted and resumed together with a block. -/
def groupOf (k : Kernel) (block : Nat) : List Nat :=
  let g := groupCohorts k block
  if g.isEmpty then [block] else membersOf g

/-- DEDUCED (log 35). -/
def bothDies (cores : List Nat) : Bool := cores.any (fun c => dieOf c == 0) && cores.any (fun c => dieOf c == 1)

/-- The die that owns a block's stripe. -/
def ownerDie (cores : List Nat) (block : Nat) : Nat :=
  if bothDies cores then block / 64 % 2 else if cores.any (fun c => dieOf c == 1) then 1 else 0

/-- The die that owns a group. -/
def groupDie (o : Offer) (g : List Cohort) (low : Nat) : Nat :=
  match g.find? (fun c => c.aff) with
  | some c => ((o.cohortClusters.find? (fun p => p.1 == c.entry)).map (fun p => p.2)).getD 0 / 16
  | none => ownerDie o.cores low

def Item.low : Item → Nat
  | .range lo _ => lo
  | .group ms => ms.headD 0
def Item.count : Item → Nat
  | .range lo hi => hi + 1 - lo
  | .group _ => 1

def insertItem (x : Item) : List Item → List Item
  | [] => [x]
  | y :: t => if x.low ≤ y.low then x :: y :: t else y :: insertItem x t

/-- A range without some blocks. -/
def cutRange (r : Nat × Nat) (ms : List Nat) : List (Nat × Nat) :=
  ms.foldl (fun rs m => rs.flatMap (fun r =>
    if r.1 ≤ m && m ≤ r.2 then (if r.1 < m then [(r.1, m - 1)] else []) ++ (if m < r.2 then [(m + 1, r.2)] else []) else [r])) [r]

/-- The unstarted items of a die at accept, in ascending order. -/
def itemsOf (o : Offer) (die : Nat) : List Item :=
  let lows := o.kernel.cohorts.foldl (fun ls c => match c.ranges with | r :: _ => insertNat ((groupOf o.kernel r.1).headD 0) ls | [] => ls) []
  let groups := (lows.filter (fun b => groupDie o (groupCohorts o.kernel b) b == die)).map (fun b => Item.group (groupOf o.kernel b))
  let all := membersOf o.kernel.cohorts
  let stripes := ((List.range (ceilDiv o.nblock 64)).filter (fun i => ownerDie o.cores (64 * i) == die)).map
    (fun i => (64 * i, min (64 * i + 63) (o.nblock - 1)))
  let ranges := stripes.flatMap (fun r => (cutRange r (all.filter (fun m => r.1 ≤ m && m ≤ r.2))).map (fun x => Item.range x.1 x.2))
  groups.foldr insertItem ranges

def Launch.own (l : Launch) (die : Nat) : List Item := if die = 0 then l.own0 else l.own1
def Launch.setOwn (l : Launch) (die : Nat) (x : List Item) : Launch := if die = 0 then { l with own0 := x } else { l with own1 := x }

/-! ### What a core holds (R12, R138, R147, R230) -/

/-- The launch may start and resume blocks. -/
def Launch.live (l : Launch) : Bool := l.traps.isEmpty && l.st != .suspended

/-- Blocks of a launch with their indices. -/
def blocksOf (s : State) (serial : Nat) : List (Nat × Block) :=
  s.blocks.filterMap (fun p => if p.1 / 2 ^ 32 = serial then some (p.1 % 2 ^ 32, p.2) else none)

/-- Blocks resident on a core: serial, index, block. -/
def onCore (s : State) (core : Nat) : List (Nat × Nat × Block) :=
  s.blocks.filterMap (fun p =>
    if p.2.place == .resident && p.2.core == core then some (p.1 / 2 ^ 32, p.1 % 2 ^ 32, p.2) else none)

/-- Waves of a block of `n` waves on slot `k`. -/
def slotWaves (n k : Nat) : Nat := (n + 3 - k) / 4

/-- Lane-words that a launch's block takes on a slot. -/
def laneWords (o : Offer) (k : Nat) : Nat := slotWaves o.waves k * (o.allot * 16 * o.kernel.width)

/-- Sweep contexts reserved on a core, with the lane-words of each (R326). -/
def sweepLoad (s : State) (core k : Nat) : Nat × Nat :=
  s.launches.foldl (fun (n : Nat × Nat) l =>
    if l.2.offer.cores.contains core && l.2.offer.swctx.getLsbD k then (n.1 + 1, n.2 + l.2.offer.kernel.regs * l.2.offer.kernel.width) else n) (0, 0)

def roundScratch (n : Nat) : Nat := ceilDiv n 1536 * 1536

/-- Whether a core has room for one more block of a launch. -/
def fits (s : State) (core : Nat) (o : Offer) : Bool :=
  let here := (onCore s core).filterMap (fun b => (s.launch b.1).map (fun l => l.offer))
  (List.range 4).all (fun k =>
    let sw := sweepLoad s core k
    here.foldl (fun n x => n + slotWaves x.waves k) (slotWaves o.waves k + sw.1) ≤ 16 &&
      here.foldl (fun n x => n + laneWords x k) (laneWords o k + sw.2) ≤ 32768) &&
    here.foldl (fun n x => n + roundScratch x.kernel.scratch) (roundScratch o.kernel.scratch) ≤ 1572864

def roomOn (s : State) (serial : Nat) (l : Launch) (core : Nat) : Bool :=
  ((onCore s core).filter (fun b => b.1 == serial)).length < l.offer.r && fits s core l.offer

def hasFeats (s : State) (core : Nat) (m : BitVec 64) : Bool := s.feat core &&& m == m

/-- R288: the core's cluster stands at or above the floor. -/
def fastEnough (s : State) (core : Nat) (l : Launch) : Bool := 10 * l.offer.floor ≤ (s.cluster (clusterOf core)).clock

/-- R304: a core on which a pre-empted block may resume. -/
def resumeCore (s : State) (l : Launch) (b : Block) (core : Nat) : Bool :=
  l.offer.cores.contains core && hasFeats s core l.offer.feats && (l.offer.kernel.diescratch = 0 || dieOf core == b.startDie) &&
    (!b.matrixActed || core == b.core)

/-! ### Turns of shared cores (R301) -/

def sharers (s : State) (core : Nat) : List (Nat × Launch) :=
  s.launches.filter (fun l => l.2.offer.klass != 0 && l.2.offer.cores.contains core)

/-- The core holds no block of another launch, and its turn is the launch's or nobody's. -/
def turnOpen (s : State) (serial : Nat) (l : Launch) (core : Nat) : Bool :=
  l.offer.klass == 0 || ((onCore s core).all (fun b => b.1 == serial) && (tfind s.turns core).all (fun t => t.1 == serial))

def startTurn (s : State) (serial : Nat) (l : Launch) (core : Nat) : State :=
  if l.offer.klass = 0 || (tfind s.turns core).isSome then s
  else { s with turns := tput s.turns core (serial, s.tick), lastServed := tput s.lastServed core serial }

/-! ### Core cycles spent on a launch (R239) -/

def openUse (s : State) (serial core : Nat) : State :=
  s.modLaunch serial (fun l =>
    let u := (tfind l.use core).getD { acc := 0, open_ := none, first := s.tick }
    { l with use := tput l.use core (if u.open_.isNone then { u with open_ := some s.tick } else u) })

/-- Cycles of a use still open. -/
def CoreUse.now (u : CoreUse) (core tick : Nat) : Nat :=
  match u.open_ with
  | some t => u.acc + (cum core tick - cum core t)
  | none => u.acc

/-- A block of a launch has left a core: a FIRM core counts from its first placement to its last retirement, the others
while a block of the launch is resident. -/
def closeUse (s : State) (serial core : Nat) : State :=
  match s.launch serial with
  | some l =>
    (match tfind l.use core with
      | some u =>
        if (onCore s core).any (fun b => b.1 == serial) then s
        else
          let n := if l.offer.klass = 0 then cum core s.tick - cum core u.first else u.now core s.tick
          s.modLaunch serial (fun l => { l with use := tput l.use core { u with acc := n, open_ := none } })
      | none => s)
  | none => s

/-! ### Placing (R298, R148, R210, R263) -/

def freshBlock (l : Launch) (core : Nat) : Block :=
  { core := core, place := .resident, startDie := dieOf core, nwaves := l.offer.waves }

/-- A wave as it starts: the launch parameters in s0 to s15, the entry at offset 0 with every lane active (R92, R223). -/
def freshWave (l : Launch) (tick : Nat) : Wave :=
  let w : Wave :=
    { width := l.offer.kernel.width, allot := l.offer.allot, resident := some tick,
      a := some { path := { pc := 0, mask := allLanes l.offer.kernel.width, join := none, parked := false } } }
  (l.offer.params.take 16).zipIdx.foldl (fun (w : Wave) p => w.writeS p.2 p.1) w

/-- R263: the first block of a launch on a core, and every block under the determinism flag, finds its reserved slots
as they are at first placement. -/
def clearSlots (s : State) (l : Launch) (core : Nat) : State :=
  if (tfind l.use core).isNone || (l.det && l.offer.kernel.hasMatrix) then
    (List.range 8).foldl (fun s b => if l.offer.bslots.getLsbD b then { s with bslots := tdel s.bslots (core * 8 + b) } else s) s
  else s

/-- A block starts on a core. -/
def startBlock (s : State) (serial block core : Nat) (l : Launch) : State :=
  let s := clearSlots s l core
  let s := { s with blocks := tput s.blocks (bkey serial block) (freshBlock l core) }
  let s := (List.range l.offer.waves).foldl (fun s w => s.setWave { serial := serial, block := block, wave := w } (freshWave l s.tick)) s
  let s := startView s (setKey l core serial block) l.offer.hpt 0
  let s := openUse (startTurn s serial l core) serial core
  s.modLaunch serial (fun l => { l with placedOn := tput l.placedOn core (tget 0 l.placedOn core + 1), st := .running })

/-- The core can take a first block of the launch, its turn apart. -/
def roomToStart (s : State) (serial core : Nat) (l : Launch) : Bool :=
  l.offer.cores.contains core && hasFeats s core l.offer.feats && fastEnough s core l &&
    roomOn s serial l core && tget 0 l.placedOn core < l.offer.rounds * l.offer.r

/-- R15: the members of affinity cohorts lie on cores of the clusters that the quotation names. An unstarted group keeps its
cluster when that is lost: it never starts. DESIGN CHOICE (log 89). -/
def affinityOk (o : Offer) (at_ : List (Nat × Nat)) : Bool :=
  o.kernel.cohorts.all (fun c => !c.aff || at_.all (fun p => !c.has p.1 ||
    (o.cohortClusters.find? (fun x => x.1 == c.entry)).any (fun x => x.2 == clusterOf p.2)))

/-- R306: no pre-empted block of the launch with a lower index than a block waits on the die where that block is to
start. -/
def noneSavedBelow (s : State) (serial : Nat) (at_ : List (Nat × Nat)) : Bool :=
  at_.all (fun p => (blocksOf s serial).all (fun b => !(b.2.place == .saved && dieOf b.2.core == dieOf p.2 && b.1 < p.1)))

/-- Cores for some blocks, one after another: of all the ways in which `ok` allows each of them its core once those before
it are there, and that put one of them on a core that `lead` names unless one is there (`led`), the one that gives the earlier
blocks the lowest-numbered cores; none where there is no way. -/
def plan (step : State → Nat → Nat → State) (ok : State → Nat → Nat → Bool) (lead : Nat → Bool) :
    Bool → List Nat → State → Option (List (Nat × Nat))
  | led, [], _ => if led then some [] else none
  | led, b :: t, s => (List.range 192).findSome? (fun c =>
      if ok s b c then (plan step ok lead (led || lead c) t (step s b c)).map (fun r => (b, c) :: r) else none)

/-- A block starts on a core of its launch. -/
def startOn (serial : Nat) (s : State) (block core : Nat) : State :=
  match s.launch serial with
  | some l => startBlock s serial block core l
  | none => s

/-- Blocks of an item. -/
def Item.blocks : Item → List Nat
  | .range lo _ => [lo]
  | .group ms => ms

/-- Where the lowest unstarted item of a die can start on cores that hold no other launch's block and are in no other
launch's turn, one of them a core that `lead` names. -/
def startPlan (s : State) (serial die : Nat) (l : Launch) (lead : Nat → Bool) : Option (List (Nat × Nat)) :=
  match l.own die with
  | [] => none
  | it :: _ =>
    let alone := match it with | .range _ _ => true | .group _ => false
    plan (startOn serial) (fun s b c =>
      (match s.launch serial with | some l => roomToStart s serial c l | none => false) && turnOpen s serial l c &&
      (!alone || dieOf c == die) && affinityOk l.offer [(b, c)] && noneSavedBelow s serial [(b, c)]) lead false it.blocks s

/-! ### Restoring and relaunching: where a block can go (R304, R318, R375) -/

/-- A quadrant's cluster that is lost. -/
def lostCluster (s : State) (k : Nat) : Bool := s.lostQuads.contains (k / 4)

/-- R15: an affinity cohort of the block, whose cluster still stands, lies in the core's cluster; one whose cluster is
lost is placed anew, where its members already placed are. DEDUCED (log 89). -/
def affinityNow (s : State) (o : Offer) (block core : Nat) : Bool :=
  o.kernel.cohorts.all (fun c => !c.aff || !c.has block ||
    (o.cohortClusters.find? (fun x => x.1 == c.entry)).any (fun x => x.2 == clusterOf core || lostCluster s x.2))

/-- R15: affinity cohorts of a block, with those that share blocks with them, whose cluster is lost have the cluster
where the block now is. -/
def rehome (s : State) (serial block core : Nat) : State :=
  s.modLaunch serial (fun l =>
    let aff := l.offer.kernel.cohorts.filter (fun c => c.aff)
    let g := growGroup aff aff.length (aff.filter (fun c => c.has block))
    { l with offer := { l.offer with cohortClusters := l.offer.cohortClusters.map (fun x =>
      if lostCluster s x.2 && g.any (fun c => c.entry == x.1) then (x.1, clusterOf core) else x) } })

/-- Members of a block's group that are saved, those bound to one core by a matrix word first (R263). -/
def savedOf (s : State) (serial block : Nat) (k : Kernel) : List Nat :=
  let ms := (groupOf k block).filter (fun m => (s.block serial m).any (fun b => b.place == .saved))
  let pinned (m : Nat) : Bool := (s.block serial m).any (fun b => b.matrixActed)
  ms.filter pinned ++ ms.filter (fun m => !pinned m)

/-- R304, R318: a core for the saved block, room and its turn apart: one of the block's die, or of the other die when no
core of its own meets R304. DEDUCED (log 35). -/
def placeFor (s : State) (l : Launch) (block : Nat) (b : Block) (core : Nat) : Bool :=
  resumeCore s l b core && fastEnough s core l && affinityNow s l.offer block core &&
    (dieOf core == dieOf b.core || !(List.range 192).any (fun c => dieOf c == dieOf b.core && resumeCore s l b c))

/-- R230: the core cycles of a save and restore. -/
def saveCycles (o : Offer) : Nat :=
  2400 + ceilDiv (roundScratch o.kernel.scratch + 64 * o.kernel.width * (o.allot * o.waves) + 1024 * o.waves) 64

/-- R263: a saved block in which a matrix word has acted has its matrix state in place on a core. -/
def heldSlots (s : State) (serial core : Nat) : Bool :=
  (blocksOf s serial).any (fun b => b.2.place == .saved && b.2.matrixActed && b.2.core == core)

/-- R263, R311: a resumed block in which no matrix word has acted finds its slots as any block of the launch does: the first
on its core at first placement, and under the determinism flag always so, but for those that hold a saved block's state.
DEDUCED (log 35). -/
def resumeSlots (s : State) (serial core : Nat) (l : Launch) (acted : Bool) : State :=
  if acted || heldSlots s serial core then s else clearSlots s l core

/-- A block restored on a core (R302, R318): its view starts anew, the core spends X on it. -/
def restoreBlock (s : State) (serial block core : Nat) (l : Launch) : State :=
  let s := resumeSlots s serial core l ((s.block serial block).any (fun b => b.matrixActed))
  let s := (wavesOf s serial block).foldl (fun s p => s.setWave p.1 { p.2 with resident := some s.tick }) s
  let s := s.modBlock serial block (fun b => { b with place := .resident, core := core })
  let hp := maxOf ((wavesOf s serial block).map (fun p => p.2.homePt))
  let s := startView s (setKey l core serial block) hp l.offer.hpt
  let s := openUse (startTurn s serial l core) serial core
  s.modLaunch serial (fun l =>
    { l with use := match tfind l.use core with | some u => tput l.use core { u with acc := u.acc + saveCycles l.offer } | none => l.use })

def restoreOn (serial : Nat) (s : State) (block core : Nat) : State :=
  match s.launch serial with
  | some l => rehome (restoreBlock s serial block core l) serial block core
  | none => s

/-- R318: where a saved block's group can resume, each member on the lowest-numbered core that can hold it, on cores that hold
no other launch's block and are in no other launch's turn, one of them a core that `lead` names. DEDUCED (log 35). -/
def resumePlan (s : State) (serial : Nat) (l : Launch) (block : Nat) (lead : Nat → Bool) : Option (List (Nat × Nat)) :=
  plan (restoreOn serial) (fun s m c => turnOpen s serial l c && (match s.launch serial, s.block serial m with
    | some l, some b => placeFor s l m b c && roomOn s serial l c
    | _, _ => false)) lead false (savedOf s serial block l.offer.kernel) s

/-- R375: the core can hold a relaunched block under R12, R138 and R147; under the determinism flag a core holds one block
of a launch with matrix words (R263). -/
def canRelaunch (s : State) (serial : Nat) (l : Launch) (block : Nat) (b : Block) (core : Nat) : Bool :=
  l.offer.cores.contains core && hasFeats s core l.offer.feats && !s.lostQuads.contains (quadOf core) && fastEnough s core l &&
    (l.offer.kernel.diescratch = 0 || dieOf core == b.startDie) && affinityNow s l.offer block core && fits s core l.offer &&
    (!(l.det && l.offer.kernel.hasMatrix) || (onCore s core).all (fun x => x.1 != serial))

/-! ### Whose turn it is (R301) -/

/-- The device as it would be in a launch's turn on a core: no block of another launch there, and on other cores none that can
still be pre-empted; no turn of another launch stands. A group that needs several cores is thus ready for each of them while
the others can be freed for it. DEDUCED (log 35). -/
def inTurn (s : State) (serial core : Nat) : State :=
  let movable (p : Nat × Block) : Bool := p.2.core == core ||
    (s.launch (p.1 / 2 ^ 32)).any (fun l => l.offer.klass != 0 && p.2.preempts < l.offer.k)
  { s with blocks := s.blocks.filter (fun p => !(p.2.place == .resident && p.1 / 2 ^ 32 != serial && movable p)),
           turns := s.turns.filter (fun t => t.2.1 == serial) }

/-- A launch that shares a core has a block ready for it: one that would start, resume or be relaunched there were it the
launch's turn. DEDUCED (log 35). -/
def hasReady (s : State) (serial : Nat) (l : Launch) (core : Nat) : Bool :=
  let s := inTurn s serial core
  let here (c : Nat) : Bool := c == core
  l.live && ((blocksOf s serial).any (fun b =>
      (b.2.place == .saved && (resumePlan s serial l b.1 here).isSome) ||
      (b.2.place == .lost && b.2.relaunchable && canRelaunch s serial l b.1 b.2 core)) ||
    [0, 1].any (fun die => (startPlan s serial die l here).isSome))

/-- The launch whose turn comes next: SLICED launches first, in rotation by serial. -/
def nextTurn (s : State) (core : Nat) : Option Nat :=
  let rs := (sharers s core).filter (fun l => hasReady s l.1 l.2 core)
  let sl := rs.filter (fun l => l.2.offer.klass == 1)
  let pool := (if sl.isEmpty then rs else sl).map (fun l => l.1)
  let last := tget 0 s.lastServed core
  match pool.find? (fun n => last < n) with
  | some n => some n
  | none => pool.head?

def turnAllows (s : State) (serial : Nat) (l : Launch) (core : Nat) : Bool :=
  l.offer.klass == 0 ||
    ((onCore s core).all (fun b => b.1 == serial) && (match tfind s.turns core with
      | some t => t.1 == serial
      | none => nextTurn s core == some serial))

/-! ### Lost blocks relaunched (R375) -/

/-- R375: the core on which a lost block can be relaunched now: of the blocks lost together the lowest that has a core comes
first, and no member of its group is saved or about to be (R15). DEDUCED (log 35). -/
def relaunchCore (s : State) (serial : Nat) (l : Launch) (block : Nat) (b : Block) : Option Nat :=
  let target (n : Nat) (x : Block) : Option Nat := (List.range 192).find? (fun c => canRelaunch s serial l n x c && turnAllows s serial l c)
  let before (p : Nat × Block) : Bool :=
    p.2.place == .lost && p.1 < block && p.2.lostAt == b.lostAt && (target p.1 p.2).isSome
  let away (m : Nat) : Bool := (s.block serial m).any (fun x => x.place == .saved || x.draining)
  if l.live && b.place == .lost && b.relaunchable && !(blocksOf s serial).any before && !(groupOf l.offer.kernel block).any away then target block b
  else none

/-- A lost block starts again, its allowance as it was spent (R231). -/
def relaunchOn (s : State) (serial block core : Nat) (l : Launch) (b : Block) : State :=
  let s := startBlock s serial block core l
  rehome ((s.modBlock serial block (fun x => { x with startDie := b.startDie, preempts := b.preempts })).modLaunch serial
    (fun x => { x with placedOn := l.placedOn })) serial block core

/-- The lowest lost block below `limit` that can be relaunched now, with its core. -/
def lostBelow (s : State) (serial : Nat) (l : Launch) (limit : Nat) : Option (Nat × Block × Nat) :=
  (blocksOf s serial).findSome? (fun p => if p.1 < limit then (relaunchCore s serial l p.1 p.2).map (fun c => (p.1, p.2, c)) else none)

/-! ### Starting an item (R298) -/

/-- Blocks placed together. -/
def startAll (serial : Nat) : List (Nat × Nat) → State → Option State
  | [], s => some s
  | (block, core) :: t, s =>
    match s.launch serial with
    | some l => if roomToStart s serial core l && turnOpen s serial l core then startAll serial t (startBlock s serial block core l) else none
    | none => none

/-- The lowest unstarted item of a die starts on the given cores, one for each member; none where it may not. -/
def placeItem (serial die : Nat) (cores : List Nat) (s : State) : Option State :=
  match s.launch serial with
  | none => none
  | some l =>
    let go (blocks : List Nat) (alone : Bool) (rest : List Item) : Option State :=
      let at_ := blocks.zip cores
      if !l.live || blocks.length != cores.length || (alone && cores.any (fun c => dieOf c != die)) ||
          !noneSavedBelow s serial at_ || !affinityOk l.offer at_ || !cores.any (turnAllows s serial l) then none
      else (startAll serial at_ s).map (fun s =>
        s.modLaunch serial (fun l => { l.setOwn die rest with stealWait := l.stealWait.filter (fun d => d == die) }))
    match l.own die with
    | [] => none
    | .range lo hi :: t => go [lo] true (if lo < hi then .range (lo + 1) hi :: t else t)
    | .group ms :: t => go ms false t

/-- BLOCK_PLACE: the lowest unstarted item of a die starts on the given cores, one for each member; a lower lost block that
can be relaunched comes first (R375). -/
def execBlockPlace (serial die : Nat) (cores : List Nat) (s : State) : Out :=
  let first := (s.launch serial).any (fun l => (l.own die).head?.any (fun it => (lostBelow s serial l it.low).isSome))
  .next (if die < 2 && !first then (placeItem serial die cores s).getD s else s)

/-! ### Stealing (R299) -/

/-- R299: a reserved core of a die that has run dry can take a block of the launch, whoever's turn comes next. -/
def canTakeOne (s : State) (serial : Nat) (l : Launch) (core : Nat) : Bool :=
  roomToStart s serial core l && (l.offer.klass == 0 || (onCore s core).all (fun b => b.1 == serial))

/-- STEAL_MESSAGE: a die that has run dry asks the other. -/
def execStealMessage (serial die : Nat) (s : State) : Out :=
  match s.launch serial with
  | some l =>
    .next (if l.live && die < 2 && (l.own die).isEmpty && l.stealAsk.isNone && !l.stealWait.contains die &&
        l.offer.cores.any (fun c => dieOf c == die && canTakeOne s serial l c) then
      s.modLaunch serial (fun l => { l with stealAsk := some die })
    else s)
  | none => .next s

/-- The highest `h` items of a list in descending order: what stays, what goes, both descending. -/
def takeTop : Nat → List Item → List Item × List Item
  | _, [] => ([], [])
  | h, it :: t =>
    if h = 0 then (it :: t, [])
    else match it with
      | .group ms => let r := takeTop (h - 1) t; (r.1, .group ms :: r.2)
      | .range lo hi =>
        let n := hi + 1 - lo
        if n ≤ h then (let r := takeTop (h - n) t; (r.1, .range lo hi :: r.2))
        else (.range lo (hi - h) :: t, [.range (hi + 1 - h) hi])

/-- STEAL_ANSWER: die `die` hands over its highest-indexed half. -/
def execStealAnswer (serial die : Nat) (s : State) : Out :=
  match s.launch serial with
  | some l =>
    if l.stealAsk != some (1 - die) || 1 < die then .next s
    else
      let u := (l.own die).foldl (fun n i => n + i.count) 0
      let h := u / 2
      let r := takeTop h (l.own die).reverse
      .next (s.modLaunch serial (fun l =>
        if h = 0 then { l with stealAsk := none, stealWait := insertNat (1 - die) l.stealWait }
        else { (l.setOwn die r.1.reverse).setOwn (1 - die) (l.own (1 - die) ++ r.2.reverse) with stealAsk := none }))
  | none => .next s

/-! ### Pre-emption and restore (R301 to R304, R307, R311, R318) -/

/-- Resident blocks are to leave their cores; those that already are to are not counted again. -/
def setDraining (s : State) (serial : Nat) (blocks : List Nat) (count : Nat) : State :=
  (blocks.filter (fun b => (s.block serial b).any (fun x => x.place == .resident && !x.draining))).foldl
    (fun s b => s.modBlock serial b (fun x => { x with draining := true, preempts := x.preempts + count })) s

/-- QUANTUM_END: the turn of a shared core ends; its blocks are pre-empted where another launch has a block ready and
each has pre-emptions left. -/
def execQuantumEnd (core : Nat) (s : State) : Out :=
  match tfind s.turns core with
  | none => .next s
  | some (serial, since) =>
    match s.launch serial with
    | none => .next { s with turns := tdel s.turns core }
    | some l =>
      let spent := cum core s.tick - cum core since
      let others := (sharers s core).filter (fun o => o.1 != serial && hasReady s o.1 o.2 core)
      let here := ((onCore s core).filter (fun b => b.1 == serial)).map (fun b => b.2.1)
      let idle := here.isEmpty && !hasReady s serial l core
      let over_ := if l.offer.klass = 1 then l.offer.quantum ≤ spent
        else others.any (fun o => o.2.offer.klass == 1) || (!others.isEmpty && 65536 ≤ spent)
      let all := here.foldl (fun ms b => (groupOf l.offer.kernel b).foldl (fun ms m => insertNat m ms) ms) []
      let may := all.all (fun b => (s.block serial b).any (fun x => x.place != .resident || x.draining || x.preempts < l.offer.k))
      if !(over_ || idle) then .next s
      else if others.isEmpty then .next { s with turns := tput s.turns core (serial, s.tick) }
      else if !may then .next s
      else .next (setDraining { s with turns := tdel s.turns core, lastServed := tput s.lastServed core serial } serial all 1)

/-- A scratchpad word at the head of a queue that waits and cannot go on now. -/
def headWaits (id : WaveId) (w : Wave) (b : Block) : Bool :=
  match w.spq with
  | [] => true
  | op :: _ => (match op.kind with
    | .lds _ _ _ _ lines => !fillDone b op lines
    | .qpush q _ => !canPush b (waveNo id w) q
    | .qpop q _ => !canPop b q
    | _ => false)

/-- R302, step 2: everything that a wave has issued is performed or waits; the results of scratchpad words queued behind one
that waits stay outstanding (R54). DEDUCED (log 91). -/
def waveSettled (id : WaveId) (w : Wave) (b : Block) : Bool :=
  let held (x : Option Slot) : Bool := match x with
    | some sl => (match sl.hold with | .frame => true | .fence _ _ => true | .view => true | .ready _ _ => true | .rcede _ => true | .sysrel _ => true | _ => false)
    | none => false
  w.reqs.isEmpty && w.arrs.isEmpty && w.cmds.isEmpty && headWaits id w b &&
    w.pend.all (fun p => w.spq.any (fun o => o.tag == p.tag)) && !held w.a && !held w.b

/-- No copy of a block that the predicate names is in flight. -/
def copiesDone (s : State) (serial block : Nat) (kind : Nat → Bool) : Bool :=
  s.copy.all (fun c => c.2.ops.all (fun o => !(o.serial == serial && o.block == block && kind o.kind)))

def runsDone (s : State) (serial block : Nat) : Bool :=
  s.sweeps.all (fun c => c.2.runs.all (fun r => !(r.w.serial == serial && r.w.block == block)) &&
    (match c.2.cur with | some r => !(r.run.w.serial == serial && r.run.w.block == block) | none => true))

/-- No matrix word of a block waits, nor a broadcast of one of its cohorts that every member has sent. -/
def matrixDone (s : State) (serial block : Nat) : Bool :=
  s.bslots.all (fun x => x.2.q.all (fun o => !(o.w.serial == serial && o.w.block == block))) &&
    (match s.launch serial with
      | some l => l.offer.kernel.cohorts.all (fun c => !c.has block || (bcastReady l c.entry).isNone)
      | none => true)

def blockSettled (s : State) (serial block : Nat) (b : Block) : Bool :=
  (wavesOf s serial block).all (fun p => waveSettled p.1 p.2 b) && copiesDone s serial block (fun k => k < 2) &&
    runsDone s serial block && matrixDone s serial block

/-- The store set that a block publishes when it leaves its core. -/
def leavePublish (s : State) (serial block : Nat) (l : Launch) (b : Block) : State :=
  let key := setKey l b.core serial block
  let x := tget {} s.sets key
  if x.bytes.isEmpty && x.redgs.isEmpty then s
  else (publishSet s { serial := serial, block := block, wave := 0 } key b.core noPc none).1

/-- The reuse latches of a core hold nothing of a block (R56): those of its slots that hold a wave of the block are emptied,
and others keep what they hold. DESIGN CHOICE (log 28). -/
def dropBlockLatch (s : State) (serial block core : Nat) : State :=
  (List.range 4).foldl (fun s k => if (tget [] s.latches (4 * core + k)).any (fun x => x.wave / 128 == bkey serial block)
    then dropLatch s (4 * core + k) else s) s

/-- R302, step 4; R56. -/
def saveBlock (s : State) (serial block : Nat) (b : Block) : State :=
  let s := (wavesOf s serial block).foldl (fun s p =>
    s.setWave p.1 { p.2 with cycAcc := p.2.cyc b.core s.tick, resident := none, yielded := false }) s
  let s := s.modBlock serial block (fun x => { x with place := .saved, draining := false })
  closeUse (dropBlockLatch s serial block b.core) serial b.core

/-- The resident members of a block's group. -/
def residentOf (s : State) (serial block : Nat) (k : Kernel) : List (Nat × Block) :=
  (groupOf k block).filterMap (fun m => (s.block serial m).bind (fun b => if b.place == .resident then some (m, b) else none))

/-- The saved blocks of a launch, each the lowest of its group. -/
def savedLows (s : State) (serial : Nat) (k : Kernel) : List (Nat × Block) :=
  (blocksOf s serial).filter (fun p => p.2.place == .saved && (savedOf s serial p.1 k).all (fun m => p.1 ≤ m))

/-- Where a saved block's group can resume now. -/
def resumeAt (s : State) (serial : Nat) (l : Launch) (block : Nat) : Option (List (Nat × Nat)) :=
  if l.live then resumePlan s serial l block (turnAllows s serial l) else none

/-- A saved block's group restored. -/
def resumeOn (serial : Nat) (s : State) (at_ : List (Nat × Nat)) : State := at_.foldl (fun s p => restoreOn serial s p.1 p.2) s

/-- The lower of two moves, by the block that each brings in. -/
def lowerOf (a b : Option (Nat × State)) : Option (Nat × State) :=
  match a, b with
  | some x, some y => some (if y.1 < x.1 then y else x)
  | some x, none => some x
  | none, b => b

/-- R308: the lowest block below `limit` that can come in now does: a lost one is relaunched, a saved one, not of `skip`,
resumes with its group, the lowest unstarted item of a die starts, the other die's too where it takes a core of the die. -/
def lowerMove (s : State) (serial die limit : Nat) (skip : List Nat) : Option State :=
  match s.launch serial with
  | none => none
  | some l =>
    let lost := (lostBelow s serial l limit).map (fun x => (x.1, relaunchOn s serial x.1 x.2.2 l x.2.1))
    let saved := (savedLows s serial l.offer.kernel).findSome? (fun p =>
      if p.1 < limit && !skip.contains p.1 then (resumeAt s serial l p.1).map (fun at_ => (p.1, resumeOn serial s at_)) else none)
    let fresh (d : Nat) := match l.own d with
      | it :: _ => if it.low < limit then (startPlan s serial d l (turnAllows s serial l)).bind (fun at_ =>
          if d = die || at_.any (fun p => dieOf p.2 == die) then (placeItem serial d (at_.map (fun p => p.2)) s).map (fun t => (it.low, t))
          else none) else none
      | [] => none
    (lowerOf lost (lowerOf saved (lowerOf (fresh 0) (fresh 1)))).map (fun x => x.2)

/-- R308: a block of a launch has left its core: lower blocks come in while there is one that can. DEDUCED (log 35). -/
def bringLower (serial die limit : Nat) (skip : List Nat) : Nat → State → State
  | 0, s => s
  | n + 1, s => match lowerMove s serial die limit skip with
    | some t => bringLower serial die limit skip n t
    | none => s

/-- More blocks than the cores of the device can take. -/
def manyBlocks : Nat := 192 * 64

/-- PREEMPT: a block that is to leave its core is saved with its group once everything is settled and its store set is
published and performed. Members that have retired or are lost hold nothing up. -/
def execPreempt (serial block : Nat) (s : State) : Out :=
  match s.launch serial with
  | none => .next s
  | some l =>
    let g := residentOf s serial block l.offer.kernel
    if g.isEmpty || !g.all (fun p => p.2.draining && blockSettled s serial p.1 p.2) then .next s
    else
      let t := g.foldl (fun s p => leavePublish s serial p.1 l p.2) s
      if g.all (fun p => (pubsOf t (setKey l p.2.core serial p.1)).isEmpty && !t.farReds.any (fun f => f.copy.isNone && f.serial == serial && f.block == p.1)) then
        let u := g.foldl (fun s p => saveBlock s serial p.1 p.2) t
        .next (g.foldl (fun s p => bringLower serial (dieOf p.2.core) p.1 (g.map (fun x => x.1)) manyBlocks s) u)
      else .next t

/-- R306, R318: no lower pre-empted block of the same die could resume now. -/
def resumeOrder (s : State) (serial block : Nat) (l : Launch) (b : Block) : Bool :=
  (savedLows s serial l.offer.kernel).all (fun p => !(dieOf p.2.core == dieOf b.core && p.1 < block &&
    (resumeAt s serial l p.1).isSome))

/-- RESUME: a pre-empted block, or what is saved of a whole cohort group, is restored; one core is named for each saved
member. A lower lost block that can be relaunched comes first (R375). -/
def execResume (serial block : Nat) (cores : List Nat) (s : State) : Out :=
  match s.launch serial, s.block serial block with
  | some l, some b =>
    if b.place == .saved && l.live && (savedLows s serial l.offer.kernel).any (fun p => p.1 == block) && resumeOrder s serial block l b &&
        (lostBelow s serial l block).isNone then
      .next (match resumeAt s serial l block with
        | some at_ => if at_.map (fun p => p.2) == cores then resumeOn serial s at_ else s
        | none => s)
    else .next s
  | _, _ => .next s

/-- A wave of the block is in a bounded wait. -/
def inWait (s : State) (serial block : Nat) (b : Block) : Bool :=
  (wavesOf s serial block).any (fun p =>
    let held (x : Option Slot) : Bool := match x with | some sl => limited sl.hold | none => false
    held p.2.a || held p.2.b || (!p.2.spq.isEmpty && headWaits p.1 p.2 b))

/-- The device without some resident blocks of a launch. -/
def without (s : State) (serial : Nat) (p : Nat → Block → Bool) : State :=
  { s with blocks := s.blocks.filter (fun b => !(b.1 / 2 ^ 32 == serial && b.2.place == .resident && p (b.1 % 2 ^ 32) b.2)) }

/-- R307: a resident block whose place a saved block's group could use: it is in a bounded wait, lies above the saved block,
and a member of the group could go to its core. -/
def givesPlace (s : State) (serial : Nat) (l : Launch) (lower n : Nat) (x : Block) : Bool :=
  x.place == .resident && !x.draining && lower < n && inWait s serial n x &&
    (savedOf s serial lower l.offer.kernel).any (fun m => (s.block serial m).any (fun y => placeFor s l m y x.core))

/-- R307: a saved block's group lacks room alone: it cannot resume, even when the blocks that are already leaving have left,
and could when the groups of the waiters above it have. -/
def wantsRoom (s : State) (serial : Nat) (l : Launch) (lower : Nat) : Bool :=
  let ms := ((blocksOf s serial).filter (fun p => givesPlace s serial l lower p.1 p.2)).flatMap (fun p => groupOf l.offer.kernel p.1)
  (resumeAt (without s serial (fun _ x => x.draining)) serial l lower).isNone &&
    (resumeAt (without s serial (fun n x => x.draining || ms.contains n)) serial l lower).isSome

/-- SWAP: a waiting block, the highest of several, gives its place to a lower pre-empted block that has no room (R307). -/
def execSwap (serial waiter lower : Nat) (s : State) : Out :=
  match s.launch serial, s.block serial waiter, s.block serial lower with
  | some l, some w, some b =>
    let waits (n : Nat) (x : Block) : Bool := givesPlace s serial l lower n x
    if l.live && l.offer.klass != 0 && b.place == .saved && wantsRoom s serial l lower && waits waiter w &&
        (blocksOf s serial).all (fun p => p.1 ≤ waiter || !waits p.1 p.2) then
      .next (setDraining s serial (groupOf l.offer.kernel waiter) 0)
    else .next s
  | _, _, _ => .next s

/-! ### Records of faults and ends (R239, R363 to R365) -/

def faultRecord (serial rkind : Nat) (t : Trap) : List Byte :=
  fields [(8, serial), (1, rkind), (1, t.code), (1, t.attr), (1, t.construct), (4, t.pc), (4, t.pc2), (4, t.block), (4, t.block2),
    (1, t.wave), (1, t.core), (2, t.engine), (8, t.lanes.toNat), (8, t.value.toNat), (16, 0)]

/-- The event that the completion record lists for a trap (Table 12-8); a lost quadrant has its own event already. -/
def trapEvent (t : Trap) : Option Event :=
  let e (k : Nat) (v : BitVec 64) : Option Event := some { kind := k, attr := t.attr, core := t.core, pc := t.pc, value := v }
  if t.code = cLIMIT then e 1 (t.value + BitVec.ofNat 64 (t.construct * 2 ^ 56))
  else if t.code = cXLATE || t.code = cPROT then e 2 t.value
  else if t.code = cUNCORR || t.code = cILLOP || t.code = cSOFT then e 7 t.value
  else if t.code = cQUADLOSS then none
  else e 3 t.value

def eventBytes (e : Event) : List Byte := fields [(1, e.kind), (1, e.attr), (1, e.core), (1, 0), (4, e.pc), (8, e.value.toNat)]

/-- The first of SUPPLY, HOST and MACHINE that an event of some kinds carries (R242). -/
def firstBlame (es : List Event) (kinds : Nat → Bool) (none_ : Nat) : Nat :=
  let has (a : Nat) := es.any (fun e => kinds e.kind && e.attr == a)
  if has aSUPPLY then aSUPPLY else if has aHOST then aHOST else if has aMACHINE then aMACHINE else none_

/-- Core cycles that a reserved core has spent on the launch. -/
def spentOn (s : State) (serial : Nat) (l : Launch) (core : Nat) : Nat :=
  match tfind l.use core with
  | some u => if (onCore s core).any (fun b => b.1 == serial) && l.offer.klass == 0 then cum core s.tick - cum core u.first else u.now core s.tick
  | none => 0

/-- Energy used, rounded up to a nanojoule (R239). -/
def energyUsed (s : State) (serial : Nat) (l : Launch) : Nat :=
  let cores := l.offer.cores
  ceilDiv (l.quanta * quantumUnits (basis l.offer.floor) + l.ebytes.foldl (fun n e => n + e.2 * byteUnits e.1) 0 +
    cores.foldl (fun n c => n + spentOn s serial l c * nJ) 0) nJ

/-- Events of kinds 10 and 11 (R242). -/
def overrunEvents (s : State) (serial : Nat) (l : Launch) (used : Nat) : List Event :=
  let a := firstBlame l.events (fun k => 4 ≤ k && k ≤ 9) aMACHINE
  (l.offer.cores.filter (fun c => l.offer.q < spentOn s serial l c)).map
    (fun c => { kind := 10, attr := a, core := c, pc := noPc, value := BitVec.ofNat 64 (spentOn s serial l c - l.offer.q) }) ++
  (if l.offer.ebound < used then [{ kind := 11, attr := a, core := 255, pc := noPc, value := BitVec.ofNat 64 (used - l.offer.ebound) }] else [])

/-- R238: the joules of a launch that ends: REFUND and HOUSE. REFUND is the whole return, also where the balance takes only a
part of it (R284). DESIGN CHOICE (log 106). -/
def settleJoules (s : State) (l : Launch) (used attr : Nat) : State × Nat × Nat :=
  let p := l.offer.part
  let s := payHouse s (ceilDiv l.above nJ)
  if used ≤ l.offer.ebound then (refund s p (l.offer.ebound - used), l.offer.ebound - used, 0)
  else
    let x := used - l.offer.ebound
    if attr = aMACHINE || attr = aSUPPLY then (payHouse s x, 0, x)
    else (let r := chargeOverrun s p x; (r.1, 0, r.2))

/-- The busiest reserved core, the lowest-numbered of several. -/
def busiest (s : State) (serial : Nat) (l : Launch) : Nat × Nat :=
  let cores := (List.range 192).filter (fun c => l.offer.cores.contains c)
  cores.foldl (fun m c => if m.2 < spentOn s serial l c then (c, spentOn s serial l c) else m) (cores.headD 0, 0)

/-- What a launch held goes back: its own entry, turns, the clocks it kept up (R238, R288). -/
def forget (s : State) (serial : Nat) (l : Launch) : State :=
  let s := { s with
    launches := tdel s.launches serial,
    blocks := s.blocks.filter (fun b => b.1 / 2 ^ 32 != serial),
    waves := s.waves.filter (fun w => w.1 / 128 / 2 ^ 32 != serial),
    farReds := s.farReds.filter (fun f => f.serial != serial),
    turns := s.turns.filter (fun t => t.2.1 != serial) }
  let s := allClusters.foldl (fun s k => s.modCluster k (fun c => { c with episodes := c.episodes.filter (fun e => e.1 != serial) })) s
  (l.offer.cores.foldl (fun ks c => insertNat (clusterOf c) ks) []).foldl retarget s

/-- Kind 8 events of a port take the core cycles counted since its allowance ended (R384). -/
def lateValues (s : State) (port : Nat) (mine : Nat → Bool) : State :=
  let p := s.port port
  (p.late.filter (fun x => mine x.1)).foldl (fun s x =>
    s.modLaunch x.1 (fun l => l.modEvent x.2.1 (fun e => { e with value := BitVec.ofNat 64 (cum x.2.2 s.tick - cum x.2.2 p.lateAt) }))) s

/-- The end of a launch: outcome 1 RETIRED, 2 FAULTED, 3 DISCARDED. -/
def finishLaunch (s : State) (serial outcome fcode attr : Nat) : State :=
  let s := (List.range 16).foldl (fun s p => lateValues s p (fun n => n == serial)) s
  match s.launch serial with
  | none => s
  | some l =>
    let used := energyUsed s serial l
    let l := (overrunEvents s serial l used).foldl Launch.addEvent l
    let blame := firstBlame l.events (fun k => 4 ≤ k) 0
    let attr := if outcome = 1 then blame else attr
    let over_ := firstBlame l.events (fun k => 4 ≤ k && k ≤ 9) aMACHINE
    let r := settleJoules s l used over_
    let b := busiest s serial l
    let bytes := fields [(8, serial), (1, outcome), (1, attr), (2, l.nevents), (1, fcode), (3, 0), (8, b.2), (8, used), (8, r.2.1),
      (8, r.2.2 + ceilDiv l.above nJ), (2, b.1), (2, 0), (4, l.brks), (8, 0)] ++ l.events.flatMap eventBytes
    let s := postRecord r.1 l.offer.part 2 bytes 0 (if outcome = 1 then vDONE else vFAULT)
    forget (dropLaunch s serial) serial l

/-! ### Discarding (R366) -/

/-- Publications that a launch has made are performed, and its `FULFIL`s make their entries READY. DEDUCED (log 33). -/
def performAll (s : State) (serial : Nat) : State :=
  let mine := s.pubs.filter (fun p => p.serial == serial)
  let s := (mine.filter (fun p => p.at_.isNone)).foldl performPub s
  let s := mine.foldl (fun s p => match p.claim with
    | some (e, g, h) => fulfilReady s e g h (((s.pubs.find? (fun q => q.id == p.id)).bind (fun q => q.at_)).getD s.hpt)
    | none => s) s
  let ids := mine.map (fun p => p.id)
  { s with pubs := s.pubs.filter (fun p => p.serial != serial),
           views := s.views.map (fun v => (v.1, { v.2 with needs := v.2.needs.filter (fun i => !ids.contains i) })) }

/-- Each issued and unperformed lane request of an atomic takes its point in H or takes none. DESIGN CHOICE (log 10). -/
def discardAtomics (s : State) (serial : Nat) : State :=
  let rs := (s.waves.filter (fun w => w.1 / 128 / 2 ^ 32 == serial)).flatMap (fun w => w.2.reqs)
  rs.zipIdx.foldl (fun s r => match r.1.kind with
    | .atom op locs ty _ _ b c =>
      if Config.discardPerforms (s.free + r.2) && !locs.any (badUnit s) && !locs.any (lockedAt s) then (atomAt s op locs ty b c).1 else s
    | _ => s) { s with free := s.free + rs.length }

/-- Copies of the operations that the predicate names stop; their timelines pass them. DEDUCED (log 33). -/
def stopCopies (s : State) (mark : Bool) (p : CopyOp → Bool) : State :=
  s.copy.foldl (fun s c =>
    let gone := c.2.ops.filter p
    if gone.isEmpty then s
    else s.modCopy c.1 (fun x =>
      let kept := x.ops.filter (fun o => !p o)
      let passed := if kept.isEmpty then x.nextNum - 1 else x.timeline
      { x with ops := kept, timeline := max x.timeline passed, relPt := max x.relPt s.hpt,
               failed := x.failed ++ (if mark then gone.map (fun o => { num := o.num, code := 0, serial := o.serial, pc := o.pc, value := 0 }) else []) })) s

/-- DEDUCED (log 33). -/
def stopSweeps (s : State) (mark : Bool) (p : WaveId → Bool) : State :=
  s.sweeps.foldl (fun s c =>
    let x := c.2
    let cur := match x.cur with | some r => (if p r.run.w then [r.run] else []) | none => []
    let gone := cur ++ x.runs.filter (fun r => p r.w)
    if gone.isEmpty then s
    else s.modSweep c.1 (fun x => { x with
      cur := if cur.isEmpty then x.cur else none, runs := x.runs.filter (fun r => !p r.w),
      timeline := max x.timeline (maxOf (gone.map (fun r => r.num))),
      lastSweeps := (match x.cur with | some r => r.sweep | none => x.lastSweeps),
      lastNum := (match x.cur with | some r => r.run.num | none => x.lastNum),
      lastClear := (match x.cur with | some r => r.clear.length | none => x.lastClear),
      failed := x.failed ++ (if mark then gone.map (fun r => { num := r.num, code := 0, serial := r.w.serial, pc := r.pc, value := 0 }) else []) })) s

/-- Serial of a store-set key. -/
def keySerial (k : Nat) : Nat := if k % 2 = 0 then k / 2 / 256 else k / 2 / 2 ^ 32

/-- R366, steps 1 to 4. -/
def discardWork (s : State) (serial : Nat) : State :=
  let s := discardAtomics s serial
  let s := { s with sets := s.sets.filter (fun x => keySerial x.1 != serial) }
  let s := performAll s serial
  let s := stopCopies s true (fun o => o.serial == serial)
  let s := stopSweeps s true (fun w => w.serial == serial)
  let s := { s with bslots := s.bslots.map (fun b => (b.1, { b.2 with q := b.2.q.filter (fun o => o.w.serial != serial) })),
                    views := s.views.filter (fun v => keySerial v.1 != serial) }
  makersFail (dropLaunch s serial) (fun w => w.serial == serial)

/-- LAUNCH_FAULT: the first trap that reached the fault logic ends the launch. -/
def execLaunchFault (serial : Nat) (s : State) : Out :=
  match s.launch serial with
  | none => .next s
  | some l => match l.traps with
    | [] => .next s
    | t :: _ =>
      let s := s.modLaunch serial (fun l => match trapEvent t with | some e => l.addEvent e | none => l)
      let s := discardWork s serial
      let s := postRecord s l.offer.part 3 (faultRecord serial 1 t) 0 vNONE
      .next (finishLaunch s serial 2 t.code t.attr)

/-- A launch that a reset or a forced breaking change ends (R181, R372). -/
def discardLaunch (s : State) (serial : Nat) : State :=
  let s := s.modLaunch serial (fun l => l.addEvent { kind := 9, attr := aHOST, core := 255, pc := noPc, value := 0 })
  finishLaunch (discardWork s serial) serial 3 0 aHOST

/-- Every launch of a partition is discarded. -/
def discardPart (s : State) (p : Nat) : State :=
  (s.launches.filter (fun l => l.2.offer.part == p)).foldl (fun s l => discardLaunch s l.1) s

/-! ### Retirement (R96, R216, R221, R245, R335) -/

/-- An error of a point that no wait has raised, at the copy's program counter. -/
def pointTrap (b : Nat) (core : Nat) (p : Point) : Option Trap :=
  if p.err = 0 || p.raised then none
  else
    let e := errTrap p.err
    let src := p.src.getD (0, noPc, 0)
    some { code := e.1, attr := e.2.2, construct := e.2.1, pc := src.2.1, pc2 := noPc, block := b, block2 := noPc, wave := 255,
           core := core, engine := src.1, lanes := 0, value := BitVec.ofNat 64 src.2.2 }

/-- Cohorts of which the block is the last that has not retired. -/
def lastOf (s : State) (serial block : Nat) (l : Launch) : List Cohort :=
  (l.offer.kernel.cohorts.filter (fun c => c.has block)).filter (fun c =>
    (membersOf [c]).all (fun m => m == block || (s.block serial m).any (fun b => b.place == .retired)))

def retireTraps (s : State) (serial block : Nat) (l : Launch) (b : Block) : List Trap :=
  b.points.filterMap (fun p => pointTrap block b.core p.2) ++
    (lastOf s serial block l).flatMap (fun c =>
      (l.cpoints.filter (fun p => p.1 / 32 == c.entry)).filterMap (fun p => pointTrap block b.core p.2))

/-- BLOCK_RETIRE: every wave has retired and nothing that the block issued is under way; the block publishes. -/
def execBlockRetire (serial block : Nat) (s : State) : Out :=
  match s.launch serial, s.block serial block with
  | some l, some b =>
    let ws := wavesOf s serial block
    if b.place != .resident || !ws.all (fun p => p.2.retiredWave && p.2.quiet) || !copiesDone s serial block (fun _ => true) ||
        !runsDone s serial block || !matrixDone s serial block then .next s
    else
      let traps := retireTraps s serial block l b
      let s := leavePublish s serial block l b
      let s := { s with waves := s.waves.filter (fun w => w.1 / 128 != bkey serial block) }
      let s := s.modBlock serial block (fun b =>
        { b with place := .retired, scratch := [], fe := [], late := [], queues := [], points := [], pools := [], takers := [], draining := false })
      let s := (closeUse s serial b.core).modLaunch serial (fun l => { l with done := l.done + 1 })
      .next (bringLower serial (dieOf b.core) block [] manyBlocks (traps.foldl (fun s t => addTrap s serial t) s))
  | _, _ => .next s

/-- Failures of the launch's timelines that no wait has observed. -/
def unseenFails (s : State) (serial : Nat) : List Trap :=
  let f (engine : Nat) (r : FailRec) : Option Trap :=
    if r.serial = serial && !r.observed then
      let e := errTrap r.code
      some { code := e.1, attr := e.2.2, construct := e.2.1, pc := r.pc, pc2 := noPc, block := noPc, block2 := noPc, wave := 255,
             core := 255, engine := engine, lanes := 0, value := BitVec.ofNat 64 r.value }
    else none
  s.copy.flatMap (fun c => c.2.failed.filterMap (f (copyEngine c.1))) ++
    s.sweeps.flatMap (fun c => c.2.failed.filterMap (f (0x4000 + c.1)))

/-- LAUNCH_COMPLETION. -/
def execLaunchCompletion (serial : Nat) (s : State) : Out :=
  match s.launch serial with
  | none => .next s
  | some l =>
    if l.done < l.offer.nblock || !l.traps.isEmpty || s.pubs.any (fun p => p.serial == serial) ||
        s.farReds.any (fun f => f.serial == serial) then .next s
    else match unseenFails s serial with
      | t :: _ => .next (addTrap s serial t)
      | [] => .next (finishLaunch s serial 1 0 0)

/-! ### Suspension (R305, R370) -/

/-- A pre-empted block that no core can take, or unstarted blocks whose launch has no core left with its features.
DEDUCED (log 34). -/
def stuck (s : State) (serial : Nat) (l : Launch) : Bool :=
  (blocksOf s serial).any (fun b => b.2.place == .saved && !(List.range 192).any (resumeCore s l b.2)) ||
    (!(l.own0.isEmpty && l.own1.isEmpty) && !l.offer.cores.any (fun c => hasFeats s c l.offer.feats))

/-- DEDUCED (log 34). -/
def suspendRecord (s : State) (serial rkind : Nat) (l : Launch) (value : BitVec 64) : State :=
  let t : Trap := { code := cFEATURE, attr := aMACHINE, construct := 0, pc := noPc, pc2 := noPc, block := noPc, block2 := noPc,
                    wave := 255, core := 255, engine := 0, lanes := 0, value := value }
  postRecord s l.offer.part 3 (faultRecord serial rkind t) 0 vFAULT

/-- SUSPEND. -/
def execSuspend (serial : Nat) (s : State) : Out :=
  match s.launch serial with
  | none => .next s
  | some l =>
    if l.st == .suspended || !l.traps.isEmpty || !stuck s serial l then .next s
    else
      let held := l.offer.cores.foldl (fun m c => m ||| s.feat c) 0
      .next (suspendRecord (s.modLaunch serial (fun l => { l with st := .suspended })) serial 2 l (l.offer.feats &&& ~~~held))

/-- SUSPENSION_END. -/
def execSuspensionEnd (serial : Nat) (s : State) : Out :=
  match s.launch serial with
  | none => .next s
  | some l =>
    if l.st != .suspended || stuck s serial l then .next s
    else .next (suspendRecord (s.modLaunch serial (fun l => { l with st := .running })) serial 3 l 0)

/-! ### Quadrants lost and blocks relaunched (R293 to R295, R374, R375) -/

/-- A core of the partition's clusters that no launch reserves. -/
def freeCore (s : State) (l : Launch) (ok : Nat → Bool) : Option Nat :=
  (ranked s.tick ((List.range 192).filter (fun c => ok c && (s.part l.offer.part).clusters.getLsbD (clusterOf c) &&
    hasFeats s c l.offer.feats && !s.launches.any (fun x => x.2.offer.cores.contains c)))).head?

/-- Contexts of a die's copy engines that no launch holds (R7, R246). -/
def freeCtxs (s : State) (die : Nat) : List Nat :=
  ((List.range 512).map (fun i => 512 * die + i)).filter (fun x => !s.launches.any (fun l => l.2.ctxOf.any (fun p => p.2 == x)))

/-- A free context for a core reserved now. -/
def freeCtx (s : State) (die : Nat) : Option Nat := (ranked s.tick (freeCtxs s die)).head?

/-- QUADLOSS of a block. -/
def quadTrap (block core q attr : Nat) : Trap :=
  { code := cQUADLOSS, attr := attr, construct := 0, pc := noPc, pc2 := noPc, block := block, block2 := noPc,
    wave := 255, core := core, engine := 0, lanes := 0, value := BitVec.ofNat 64 q }

/-- R295: a lost block that can run again has a core: one that its launch reserves, or a free core that the device
reserves for it, with a copy-engine context where the kernel has copy words (R246); else the launch faults, as the block's own
loss is attributed. -/
def keepCore (s : State) (serial block : Nat) : State :=
  match s.launch serial, s.block serial block with
  | some l, some b =>
    let ok (c : Nat) : Bool := (l.offer.kernel.diescratch = 0 || dieOf c == b.startDie) && affinityNow s l.offer block c
    if l.offer.cores.any (fun c => ok c && !s.lostQuads.contains (quadOf c)) then s
    else (match freeCore s l (fun c => ok c && (!l.offer.kernel.hasCopy || (freeCtx s (dieOf c)).isSome)) with
      | some c => retarget (s.modLaunch serial (fun l =>
          { l with offer := { l.offer with cores := insertNat c l.offer.cores },
                   ctxOf := if l.offer.kernel.hasCopy then (match freeCtx s (dieOf c) with | some x => tput l.ctxOf c x | none => l.ctxOf) else l.ctxOf }))
          (clusterOf c)
      | none => addTrap s serial (quadTrap block b.core b.lostQ b.lostAttr))
  | _, _ => s

/-- A block on a lost core: it waits for its place, or its launch faults (R198, R295, R374). -/
def loseBlock (s : State) (serial block q attr : Nat) : State :=
  match s.launch serial, s.block serial block with
  | some l, some b =>
    let id (w : WaveId) : Bool := w.serial == serial && w.block == block
    let key := setKey l b.core serial block
    let s := { s with sets := tdel s.sets key, waves := s.waves.filter (fun w => w.1 / 128 != bkey serial block) }
    let s := stopSweeps (stopCopies s false (fun o => o.serial == serial && o.block == block)) false id
    let s := dropBlockLatch s serial block b.core
    let s := closeUse (s.modBlock serial block (fun x => { x with place := .lost, draining := false, lostAt := s.tick, lostQ := q, lostAttr := attr })) serial b.core
    if !b.relaunchable then addTrap s serial (quadTrap block b.core q attr)
    else (makersFail (dropQueue s id) id).modLaunch serial (fun l => { l with touches := l.touches.filter (fun x => x.block != block) })
  | _, _ => s

/-- Lost blocks that wait for a core. -/
def lostBlocks (s : State) : List (Nat × Nat) :=
  s.blocks.filterMap (fun p => if p.2.place == .lost && p.2.relaunchable then some (p.1 / 2 ^ 32, p.1 % 2 ^ 32) else none)

/-- The management path carries the feature masks that differ from those of a state before (R304, R386). -/
def tellFeats (before s : State) : State :=
  ((List.range 192).filter (fun c => before.feat c != s.feat c)).foldl (fun t c => report t 8 c (s.feat c).toNat) s

/-- QUADRANT_SHUTDOWN. DEDUCED (log 55). -/
def execQuadrantShutdown (q : Nat) (s : State) : Out :=
  if 8 ≤ q || s.lostQuads.contains q then .next s
  else
    let attr := if s.beyond.isSome then aSUPPLY else aMACHINE
    let cores := (List.range 24).map (fun i => 24 * q + i)
    let lost := cores.flatMap (fun c => onCore s c)
    let serials := lost.foldl (fun ss b => insertNat b.1 ss) []
    let s := tellFeats s { s with
      lostQuads := insertNat q s.lostQuads, gen := s.gen + 1,
      feats := cores.foldl (fun t c => tput t c 0) s.feats,
      bslots := s.bslots.filter (fun b => !cores.contains (b.1 / 8)) }
    let s := serials.foldl (fun s n => s.modLaunch n (fun l =>
      { l.addEvent { kind := 6, attr := attr, core := 255, pc := noPc, value := BitVec.ofNat 64 q } with
          spans := l.spans ++ [(6, s.tick, some s.tick)] })) s
    let s := lost.foldl (fun s b => loseBlock s b.1 b.2.1 q attr) s
    .next ((lostBlocks s).foldl (fun s b => keepCore s b.1 b.2) s)

/-- RELAUNCH: a lost block starts again on the core that R375 gives it. -/
def execRelaunch (serial block core : Nat) (s : State) : Out :=
  match s.launch serial, s.block serial block with
  | some l, some b => .next (if relaunchCore s serial l block b = some core then relaunchOn s serial block core l b else s)
  | _, _ => .next s

end Sys2Proof.Machine
end

