-- ==== Sys2Proof/Machine/HostRegs.lean ====
section
/-! DEFINITION. What the host writes and reads: the physical function's registers, mappings and their changes (R178,
R181, R369, R380), resets (R371, R372), request windows (R377), the ring registers (R379), device memory through BAR2
(R394). -/

namespace Sys2Proof.Machine

def hasLaunches (s : State) (p : Nat) : Bool := s.launches.any (fun l => l.2.offer.part == p)

/-- STATUS codes of Table 25-4. -/
def stOK : Nat := 0
def stBUSY : Nat := 1
def stREFUSED : Nat := 2
def stRESERVED : Nat := 3
def stHELD : Nat := 4

def setStatus (s : State) (p n : Nat) : State := s.modPart p (fun q => { q with status := n })

/-! ### What a mapping must satisfy (R178, Tables 9-1 and 25-5) -/

def RangeEnt.ok (e : RangeEnt) : Bool :=
  let w0 := e.w0.toNat
  let w1 := e.w1.toNat
  let w2 := e.w2.toNat
  let w3 := e.w3.toNat
  !e.valid || (e.tier != 3 && !w0.testBit 57 && bits w0 11 0 == 0 && bits w1 63 57 == 0 && bits w1 11 0 == 0 && e.base < e.limit &&
    bits w2 63 57 == 0 && bits w3 63 21 == 0 && (e.tier == 2 || (bits w2 56 41 == 0 && bits w2 11 0 == 0 && w3 == 0)))

def HWin.ok (h : HWin) : Bool :=
  !h.perm.getLsbD 0 || (h.base.toNat % 4096 == 0 && h.target.toNat % 4096 == 0 && h.len != 0 && bits h.perm.toNat 31 3 == 0 && h.rsv == 0)

def rootOk (r : BitVec 64) : Bool := r.toNat % 4096 == 0 && r.toNat < 2 ^ 41

def Mapping.ok (m : Mapping) : Bool := rootOk m.ptroot && m.ranges.all (fun e => e.2.ok) && m.hwins.all (fun h => h.2.ok)

/-! ### Invisible and breaking changes (R181) -/

/-- What an address translates to, permissions apart: tier, place, and the three permissions. -/
abbrev Target := Nat × Nat × Nat × Bool × Bool × Bool

def RangeEnt.target (e : RangeEnt) (va : Nat) : Target :=
  (e.tier, (if e.tier = 2 then e.w3.toNat else 0), e.far va, e.w0.getLsbD 60, e.w0.getLsbD 59, e.w0.getLsbD 58)

def Mapping.targetOf (s : State) (m : Mapping) (va : Nat) : Option Target :=
  let at_ (raw : Nat) (rd wr a : Bool) : Target := (m.place s va raw / 2 ^ 41, 0, m.place s va raw % 2 ^ 41, rd, wr, a)
  match m.rangeAt va with
  | some e => some (if e.tier = 2 then e.target va
      else at_ (e.raw va) (e.w0.getLsbD 60) (e.w0.getLsbD 59) (e.w0.getLsbD 58))
  | none => match walk s m va 4 m.ptroot.toNat with
    | .leaf raw rd wr a => some (at_ raw rd wr a)
    | _ => none

/-- A translation that existed stays, with every permission it had. -/
def keepsTarget : Option Target → Option Target → Bool
  | none, _ => true
  | some _, none => false
  | some (t, d, p, r, w, a), some (t', d', p', r', w', a') =>
    t == t' && d == d' && p == p' && (!r || r') && (!w || w') && (!a || a')

/-- Bounds at which the ranges of a mapping begin or end. -/
def Mapping.bounds (m : Mapping) : List Nat :=
  (m.ranges.filter (fun e => e.2.valid)).foldl (fun ls e => insertNat e.2.base (insertNat e.2.limit ls)) []

/-- Segments of the device space in which no range of either mapping begins or ends. -/
def segments : Nat → List Nat → List (Nat × Nat)
  | lo, [] => [(lo, 2 ^ 57)]
  | lo, b :: t => if lo < b then (lo, b) :: segments b t else segments lo t

/-- Every translation of the 4 KiB pages from `lo` to `hi` stays. -/
def pagesKept (s t : State) (m n : Mapping) (lo hi : Nat) : Bool :=
  (List.range ((hi - lo) / 4096)).all (fun i => keepsTarget (m.targetOf s (lo + 4096 * i)) (n.targetOf t (lo + 4096 * i)))

/-- What a walk finds below a node for the part `i` of its span. -/
def Node.child (x : Node) (s : State) (m : Mapping) (lvl i : Nat) : Node :=
  match x with
  | .table a => nodeAt s m lvl a i
  | .leaf base rd wr at_ => .leaf (base + i * 2 ^ (12 + 9 * lvl)) rd wr at_
  | _ => .none

/-- Of one table at level `lvl`, for the span from `va`: its leaves stay under the node `b` of the new mapping, or each page that lies
elsewhere is held against the translation of its addresses; its tables are left to `below`. -/
def tableKept (s t : State) (m n : Mapping) (below : Nat → Nat → Node → Bool) (lvl va tbl : Nat) (b : Node) : Bool :=
  (List.range 512).all (fun i =>
    let span := 2 ^ (12 + 9 * lvl)
    let va := va + i * span
    let y := b.child t n lvl i
    match nodeAt s m lvl tbl i with
    | .leaf base rd wr at_ =>
      (match y with
        | .leaf base' rd' wr' at_' => base == base' && (!rd || rd') && (!wr || wr') && (!at_ || at_')
        | _ => false) || pagesKept s t m n va (va + span)
    | .table a => below va a y
    | _ => true)

/-- The translations that a table of the old mapping gives stay under the node of the new one, down to level 0. -/
def treeKept (s t : State) (m n : Mapping) : Nat → Nat → Nat → Node → Bool
  | 0 => tableKept s t m n (fun _ _ _ => true) 0
  | l + 1 => tableKept s t m n (treeKept s t m n l) (l + 1)

def segmentKept (s : State) (m n : Mapping) (g : Nat × Nat) : Bool :=
  match m.rangeAt g.1, n.rangeAt g.1 with
  | some a, some b => keepsTarget (some (a.target g.1)) (some (b.target g.1)) || pagesKept s s m n g.1 g.2
  | none, none => true
  | _, _ => pagesKept s s m n g.1 g.2

/-- Of one table at level `lvl`: some leaf that a predicate on (tier-physical place, size) holds of, or some table below. -/
def tableAny (s : State) (m : Mapping) (p : Nat → Nat → Bool) (below : Nat → Bool) (lvl tbl : Nat) : Bool :=
  (List.range 512).any (fun i =>
    match nodeAt s m lvl tbl i with
    | .leaf base _ _ _ => p base (2 ^ (12 + 9 * lvl))
    | .table a => below a
    | _ => false)

/-- A leaf of a page table, at or below level `lvl`, that a predicate on (tier-physical place, size) holds of. -/
def anyLeaf (s : State) (m : Mapping) (p : Nat → Nat → Bool) : Nat → Nat → Bool
  | 0 => tableAny s m p (fun _ => false) 0
  | l + 1 => tableAny s m p (anyLeaf s m p l) (l + 1)

/-- Whether a table that the walks from `tbl` reach holds a byte of some locations. -/
def anyTable (s : State) (m : Mapping) (locs : List Nat) : Nat → Nat → Bool
  | 0, tbl => locs.any (fun a => a / 4096 == m.tableLoc s tbl / 4096)
  | l + 1, tbl => locs.any (fun a => a / 4096 == m.tableLoc s tbl / 4096) ||
      tableAny s m (fun _ _ => false) (anyTable s m locs l) (l + 1) tbl

/-- The pages of 4 KiB of the tables that the walks from `tbl` reach, as the root and the entries name them. -/
def tablesOf (s : State) (m : Mapping) : Nat → Nat → List Nat
  | 0, tbl => [tbl / 4096]
  | l + 1, tbl => tbl / 4096 :: (List.range 512).flatMap (fun i => match nodeAt s m (l + 1) tbl i with
    | .table a => tablesOf s m l a
    | _ => [])

/-- R173: a valid second-tier mapping, or a remote one. -/
def hasSecondTier (s : State) (m : Mapping) : Bool :=
  m.ranges.any (fun e => e.2.valid && e.2.tier == 1) || m.switched.any (fun o => 2 ^ 41 ≤ o.2.2 * 4096) ||
    anyLeaf s m (fun loc _ => 2 ^ 41 ≤ loc) 4 m.ptroot.toNat
def hasRemote (m : Mapping) : Bool := m.ranges.any (fun e => e.2.valid && e.2.tier == 2)

def hwinKept (m n : Mapping) : Bool :=
  (m.hwins.filter (fun h => h.2.perm.getLsbD 0)).all (fun h =>
    match n.hwins.find? (fun k => k.2.perm.getLsbD 0 && k.2.base.toNat ≤ h.2.base.toNat &&
        h.2.base.toNat + 4096 * h.2.len.toNat ≤ k.2.base.toNat + 4096 * k.2.len.toNat) with
    | some k => k.2.target - k.2.base == h.2.target - h.2.base && (!h.2.perm.getLsbD 1 || k.2.perm.getLsbD 1) &&
        (!h.2.perm.getLsbD 2 || k.2.perm.getLsbD 2)
    | none => false)

/-- The tier that a mapping gives an address, if any, before migrations. -/
def Mapping.tierAt (s : State) (m : Mapping) (va : Nat) : Option Nat :=
  match m.rangeAt va with
  | some e => some e.tier
  | none => (m.rawOf s va).map (fun raw => raw / 2 ^ 41)

/-- Some 4 KiB page from `lo` to `hi` has a place in a tier under the new mapping and none there under the old one. -/
def pagesAdd (s t : State) (m n : Mapping) (tier lo hi : Nat) : Bool :=
  (List.range ((hi - lo) / 4096)).any (fun i =>
    n.tierAt t (lo + 4096 * i) == some tier && m.tierAt s (lo + 4096 * i) != some tier)

/-- The same of a segment whose addresses a range of one of the mappings translates. -/
def segmentAdds (s t : State) (m n : Mapping) (tier : Nat) (g : Nat × Nat) : Bool :=
  match m.rangeAt g.1, n.rangeAt g.1 with
  | some a, some b => b.tier == tier && a.tier != tier
  | none, some b => b.tier == tier && pagesAdd s t m n tier g.1 g.2
  | some _, none => pagesAdd s t m n tier g.1 g.2
  | none, none => false

/-- The same of the leaves of one table of the new mapping in the second tier, `b` the node of the old one. -/
def tableAdds (s t : State) (m n : Mapping) (below : Nat → Nat → Node → Bool) (lvl va tbl : Nat) (b : Node) : Bool :=
  (List.range 512).any (fun i =>
    let span := 2 ^ (12 + 9 * lvl)
    let va := va + i * span
    let y := b.child s m lvl i
    match nodeAt t n lvl tbl i with
    | .leaf base _ _ _ => 2 ^ 41 ≤ base && (match y with
      | .leaf base' _ _ _ => base' < 2 ^ 41
      | _ => pagesAdd s t m n 1 va (va + span))
    | .table a => below va a y
    | _ => false)

def treeAdds (s t : State) (m n : Mapping) : Nat → Nat → Nat → Node → Bool
  | 0 => tableAdds s t m n (fun _ _ _ => false) 0
  | l + 1 => tableAdds s t m n (treeAdds s t m n l) (l + 1)

/-- A mapping adds a second-tier translation (`tier` 1) or a remote one (`tier` 2) to those of another (R181). -/
def tierAdded (s t : State) (m n : Mapping) (tier : Nat) : Bool :=
  (segments 0 (m.bounds.foldl (fun ls b => insertNat b ls) n.bounds)).any (segmentAdds s t m n tier) ||
    (tier == 1 && treeAdds s t m n 4 0 n.ptroot.toNat (.table m.ptroot.toNat))

/-- No accepted launch of the partition is priced without the tiers that a change adds (R173, R181). -/
def pricingKept (s t : State) (p : Nat) (m n : Mapping) : Bool :=
  let mine := (s.launches.filter (fun l => l.2.offer.part == p)).map (fun l => l.2.offer)
  (mine.all (fun o => o.g2400) || !tierAdded s t m n 1) && (mine.all (fun o => o.hAtomics) || !tierAdded s t m n 2)

/-- R181: the change is an addition. DEDUCED (log 36). -/
def isAddition (s : State) (p : Nat) (m n : Mapping) : Bool :=
  (segments 0 (m.bounds.foldl (fun ls b => insertNat b ls) n.bounds)).all (segmentKept s m n) &&
    treeKept s s m n 4 0 m.ptroot.toNat (.table n.ptroot.toNat) && hwinKept m n && pricingKept s s p m n

/-- The mapping with the page-table bytes that the host has written, those held among them. -/
def Mapping.freed (m : Mapping) : Mapping := { m with held := [] }

/-- Pages that a migration has switched keep their place while the mapping gives, or a change that is held will give, what it
gave (R182). -/
def Mapping.prune (s : State) (m : Mapping) : Mapping :=
  let gives (m : Mapping) (o : Nat × Nat × Nat) : Bool := (m.rawOf s (4096 * o.1)).any (fun raw => raw / 4096 == o.2.1)
  let walks (m : Mapping) (o : Nat × Nat) : Bool := (tablesOf s m 4 m.ptroot.toNat).contains o.1
  { m with switched := m.switched.filter (fun o => gives m o || gives m.freed o),
           tables := m.tables.filter (fun o => walks m o || walks m.freed o) }

/-- The staged mapping, with what the device knows of the one in force. -/
def Part.next (q : Part) : Mapping := { q.staged with held := q.map.held, switched := q.map.switched, tables := q.map.tables }

def applyMap (s : State) (p : Nat) (m : Mapping) (breaking : Bool) : State :=
  let m := if breaking then { m with held := [] } else m
  let s := s.modPart p (fun q => { q with map := m.prune s, heldMap := none })
  if breaking then { s with gen := s.gen + 1 } else s

/-- A commit of the staged copies as one change. One marked FORCE takes with it the page-table changes that are held.
DEDUCED (log 36). -/
def commit (s : State) (p : Nat) (force : Bool) : State :=
  let q := s.part p
  if !q.staged.ok then setStatus s p stRESERVED
  else if isAddition s p q.map q.next && !(force && !q.map.held.isEmpty) then setStatus (applyMap s p q.next false) p stOK
  else if !hasLaunches s p then setStatus (applyMap s p q.next true) p stOK
  else if force then setStatus (applyMap (discardPart s p) p q.next true) p stOK
  else setStatus (s.modPart p (fun q => { q with heldMap := some q.next })) p stHELD

/-- COMMIT. -/
def execCommit (part : Nat) (s : State) : Out := .next (if part < 16 then commit s part false else s)
/-- FORCE: a commit marked FORCE. -/
def execForce (part : Nat) (s : State) : Out := .next (if part < 16 then commit s part true else s)

/-- A breaking change of the partition is held (R181). -/
def Part.breaking (q : Part) : Bool := q.heldMap.isSome || !q.map.held.isEmpty

/-- BREAKING_CHANGE_APPLY. -/
def execBreakingChangeApply (part : Nat) (s : State) : Out :=
  let q := s.part part
  .next (if !q.breaking || hasLaunches s part then s else applyMap s part (q.heldMap.getD q.map) true)

/-- R181: the host has written bytes of a partition's page tables, `t` the state after the write. An addition takes effect;
a breaking change takes effect where the partition has no launch, and else the old bytes stay in force. -/
def tableWrite (s t : State) (p : Nat) (locs : List Nat) : State :=
  let m := (s.part p).map
  if !anyTable s m locs 4 m.ptroot.toNat then t
  else
    let n := { m with held := m.held.filter (fun b => !locs.contains b.1) }
    let put (m : Mapping) : State := t.modPart p (fun q => { q with map := m.prune t })
    if treeKept s t m n 4 0 m.ptroot.toNat (.table m.ptroot.toNat) && pricingKept s t p m n then put n
    else if !hasLaunches s p then let u := put n; { u with gen := u.gen + 1 }
    else
      let old := locs.foldl (fun h a => if (tfind h a).isSome then h else tput h a (memByte s a)) m.held
      t.modPart p (fun q => { q with map := { q.map with held := old.filter (fun b => memByte t b.1 != b.2) } })

/-! ### Pages switched (R182), hot pages moved back (R184) -/

/-- The translations of a page that a mapping gives, or will give once a held change applies, take the new place, and so do
the page tables that its walks read there (R182). -/
def Mapping.switch (m : Mapping) (s : State) (old new_ : Nat) : Mapping :=
  let now (x : Nat) : Nat := 16 * new_ + x % 16
  let pages := m.pagesAt s old ++ (if m.held.isEmpty then [] else m.freed.pagesAt s old)
  let fresh := pages.filter (fun o => !m.switched.any (fun x => x.1 == o.1 && x.2.1 == o.2))
  let tables := (tablesOf s m 4 m.ptroot.toNat ++ (if m.held.isEmpty then [] else tablesOf s m.freed 4 m.ptroot.toNat)).filter (fun a =>
    ((tfind m.tables a).getD a) / 16 == old)
  { m with
    switched := m.switched.map (fun o => if o.2.2 / 16 = old then (o.1, o.2.1, now o.2.2) else o) ++ fresh.map (fun o => (o.1, o.2, now o.2)),
    tables := tables.foldl (fun t a => tput t a (now ((tfind m.tables a).getD a))) m.tables }

/-- The bytes at two places change their names: those that were at the old place are at the new one. -/
def swapPlaces (s : State) (old new_ : Nat) : State :=
  let a := pageAt s old
  let b := pageAt s new_
  let put (t : Tab Nat) (n p : Nat) : Tab Nat := if n = p then tdel t n else tput t n p
  { s with moved := put (put s.moved a new_) b old }

/-- Step 5 of R182: every translation of the page gives the new place, by the mappings, or for a move of the tracker by the
indirection table (R184). Errors stay with their data. DEDUCED (log 59). -/
def switchPage (s : State) (g : Migration) : State :=
  let s := { s with
    migrations := s.migrations.filter (fun h => h.old != g.old),
    bad := (s.bad.filter (fun u => u / 2048 == g.old)).foldl (fun bs u => insertNat (g.new_ * 2048 + u % 2048) bs)
      (s.bad.filter (fun u => u / 2048 != g.new_)) }
  let s := if g.hot then { s with hot := if 2 ^ 25 ≤ g.new_ then tdel s.hot g.new_ else tput s.hot g.old g.new_ }
    else { s with parts := s.parts.map (fun q => (q.1, { q.2 with
      map := q.2.map.switch s g.old g.new_, heldMap := q.2.heldMap.map (fun m => m.freed.switch s g.old g.new_) })) }
  swapPlaces s g.old g.new_

/-- A migration run from its start to its end. -/
def migrateWhole (s : State) (g : Migration) : State :=
  let s := { s with migrations := s.migrations ++ [g] }
  switchPage ((List.range 512).foldl (fun s i => copyLine s g i) s) g

/-- The pages that a partition's pool holds go back to their own frames (R184). -/
def returnHot (s : State) (p : Nat) : State :=
  let q := s.part p
  let lo := q.hotbase.toNat / 65536
  let s := { s with migrations := s.migrations.filter (fun g => !(g.hot && g.part == p)) }
  (s.hot.filter (fun m => lo ≤ m.2 && m.2 < lo + q.hotcount.toNat)).foldl
    (fun s m => migrateWhole s { old := m.2, new_ := m.1, done := [], part := p, hot := true }) s

/-! ### Partition configuration (R369, Table 25-4) -/

/-- What a mapping gives lies outside the bytes from `base` to `hi`: its ranges and leaves, but for pages that a migration has
taken away, and the places to which one has taken them (R182). -/
def Mapping.outside (s : State) (m : Mapping) (base hi : Nat) : Bool :=
  let clear (loc n : Nat) : Bool := 2 ^ 41 ≤ loc || loc + n ≤ base || hi ≤ loc
  let named := m.ranges.all (fun e => !e.2.valid || e.2.tier != 0 || clear (e.2.w2.extractLsb' 0 57).toNat (e.2.limit - e.2.base)) &&
    !anyLeaf s m (fun loc n => !clear loc n) 4 m.ptroot.toNat
  m.switched.all (fun o => clear (4096 * o.2.2) 4096) &&
    (named || (List.range ((hi - base) / 65536)).all (fun i => (m.pagesAt s (base / 65536 + i)).all (fun o =>
      m.switched.any (fun x => x.1 == o.1 && x.2.1 == o.2))))

/-- The pool lies in HBM and outside every mapping of every partition. -/
def poolOk (s : State) (base count : Nat) : Bool :=
  let hi := base + 65536 * count
  count ≤ 4096 && base % 65536 == 0 && (count == 0 || (hi ≤ 360 * 2 ^ 30 && s.parts.all (fun q => q.2.map.outside s base hi)))

/-- What a write to one of the configuration registers would make of the partition, or none where it breaks a limit. -/
def configured (s : State) (p reg : Nat) (v : BitVec 64) : Option Part :=
  let q := s.part p
  let others := s.parts.filter (fun x => x.1 != p)
  let n := v.toNat
  match reg with
  | 0x00 => if bits n 63 3 != 0 || (n.testBit 2 && !n.testBit 1) then none else some { q with ctrl := v }
  | 0x08 => if 2 ^ 32 ≤ n || others.any (fun x => x.2.clusters &&& v.setWidth 32 != 0) then none else some { q with clusters := v.setWidth 32 }
  | 0x0C => if 262144 < n + others.foldl (fun t x => t + x.2.quota.toNat) 0 then none else some { q with quota := v.setWidth 32 }
  | 0x18 => if poolOk s n q.hotcount.toNat then some { q with hotbase := v } else none
  | 0x20 => if poolOk s q.hotbase.toNat n then some { q with hotcount := v.setWidth 32 } else none
  | _ => none

/-- PARTITION_CONFIG_WRITE: CTRL, CLUSTERS, QUOTA, HOTBASE, HOTCOUNT by their offsets. -/
def configWrite (s : State) (p reg : Nat) (v : BitVec 64) : State :=
  let q := s.part p
  if hasLaunches s p then setStatus s p stBUSY
  else match configured s p reg v with
    | none => setStatus s p stREFUSED
    | some q' =>
      let moves := q'.clusters != q.clusters || q'.quota != q.quota || q'.ctrl.extractLsb' 1 2 != q.ctrl.extractLsb' 1 2 ||
        q'.hotbase != q.hotbase || q'.hotcount != q.hotcount
      let pool := (q.ctrl.getLsbD 2 && !q'.ctrl.getLsbD 2) || q'.hotbase != q.hotbase || q'.hotcount != q.hotcount
      let s := if pool then returnHot s p else s
      let s := s.modPart p (fun x => { x with ctrl := q'.ctrl, clusters := q'.clusters, quota := q'.quota, hotbase := q'.hotbase, hotcount := q'.hotcount })
      setStatus (if moves then { s with gen := s.gen + 1 } else s) p stOK

def execPartitionConfigWrite (part reg : Nat) (v : BitVec 64) (s : State) : Out :=
  .next (if part < 16 then configWrite s part reg v else s)

/-! ### Ring registers (R379) -/

def ringAdmits (isBase : Bool) (v : BitVec 64) : Bool :=
  if isBase then v.toNat % 4096 == 0 else 2 ≤ v.toNat && v.toNat ≤ 4096 && (List.range 13).any (fun k => v.toNat == 2 ^ k)

/-- RING_SET. -/
def ringSet (s : State) (p : Nat) (isBase : Bool) (v : BitVec 64) : State :=
  let q := s.part p
  if q.head != q.tail || hasLaunches s p then setStatus s p stBUSY
  else if !ringAdmits isBase v then setStatus s p stREFUSED
  else setStatus (s.modPart p (fun q =>
    if isBase then { q with ringbase := v, head := 0, tail := 0 } else { q with ringslots := v.setWidth 32, head := 0, tail := 0 })) p stOK

def execRingSet (part : Nat) (isBase : Bool) (v : BitVec 64) (s : State) : Out := .next (if part < 16 then ringSet s part isBase v else s)

/-! ### Resets (R371, R372) -/

/-- Every claim entry of a partition becomes FREE (R348). -/
def freeClaims (s : State) (p : Nat) : State :=
  s.claims.foldl (fun s e => if e.2.st != .free && e.2.part == p then s.setClaim e.1 { gen := e.2.gen } else s) s

/-- Steps 1 to 3 of a reset. -/
def resetPart (s : State) (p : Nat) : State :=
  let s := s.modPart p (fun q => { q with resetting := true, offers := [] })
  freeClaims (discardPart s p) p

/-- RESET: the reset command. -/
def execReset (part : Nat) (s : State) : Out := .next (if part < 16 then setStatus (resetPart s part) part stOK else s)

/-- FUNCTION_LEVEL_RESET: the mappings, the request windows and the ring are cleared as well; clearing a mapping is a
breaking change. DEDUCED (log 38). -/
def execFunctionLevelReset (part : Nat) (s : State) : Out :=
  if 16 ≤ part then .next s
  else
    let s := resetPart s part
    let q := s.part part
    let s := s.modPart part (fun q => { q with
      map := {}, staged := {}, heldMap := none, win := [], bells := [], ringbase := 0, ringslots := 0, head := 0, tail := 0 })
    .next (if q.map = {} then s else { s with gen := s.gen + 1 })

/-- R366, R372: the records of the launches that a partition's reset has ended are not all written. -/
def endsHeld (q : Part) : Bool := q.held.any (fun r => r.kind == 2 || r.kind == 3)

/-- RESET_DONE (step 5), after every other step: the ended launches' records are written and their interrupts raised.
DEDUCED (log 38). -/
def execResetDone (part : Nat) (s : State) : Out :=
  .next (if (s.part part).resetting && !endsHeld (s.part part) then raiseIrq (s.modPart part (fun q => { q with resetting := false })) part vRESET else s)

/-! ### Other registers (R376, R377, R380) -/

/-- Bytes of `data` written over a field of bytes. DEDUCED (log 37). -/
def overwrite (old : List Byte) (at_ : Nat) (data : List Byte) : List Byte :=
  old.zipIdx.map (fun p => if at_ ≤ p.2 && p.2 < at_ + data.length then data.getD (p.2 - at_) p.1 else p.1)

def RangeEnt.bytes (e : RangeEnt) : List Byte := fields [(8, e.w0.toNat), (8, e.w1.toNat), (8, e.w2.toNat), (8, e.w3.toNat)]
def word64 (bs : List Byte) (o : Nat) : BitVec 64 := BitVec.ofNat 64 (ofLeBytes ((bs.drop o).take 8))
def rangeOfBytes (bs : List Byte) : RangeEnt := { w0 := word64 bs 0, w1 := word64 bs 8, w2 := word64 bs 16, w3 := word64 bs 24 }
def HWin.bytes (h : HWin) : List Byte := fields [(8, h.base.toNat), (8, h.target.toNat), (4, h.len.toNat), (4, h.perm.toNat), (8, h.rsv.toNat)]
def hwinOfBytes (bs : List Byte) : HWin :=
  { base := word64 bs 0, target := word64 bs 8, len := (word64 bs 16).extractLsb' 0 32, perm := (word64 bs 16).extractLsb' 32 32, rsv := word64 bs 24 }

/-- A write to one staged entry. -/
def stageWrite (s : State) (p off : Nat) (data : List Byte) : State :=
  let put (f : Mapping → Mapping) : State := s.modPart p (fun q => { q with staged := f q.staged })
  if 0x800 ≤ off && off < 0x1000 then
    let e := (off - 0x800) / 32
    put (fun m => { m with ranges := tset {} m.ranges e (rangeOfBytes (overwrite (tget {} m.ranges e).bytes (off % 32) data)) })
  else if 0x1000 ≤ off && off < 0x1200 then
    let w := (off - 0x1000) / 32
    put (fun m => { m with hwins := tset {} m.hwins w (hwinOfBytes (overwrite (tget {} m.hwins w).bytes (off % 32) data)) })
  else if 0x10 ≤ off && off < 0x18 then
    put (fun m => { m with ptroot := word64 (overwrite (leBytes m.ptroot.toNat 8) (off - 0x10) data) 0 })
  else s

/-- A write to a partition's block of the physical function. -/
def blockWrite (s : State) (p off : Nat) (data : List Byte) : State :=
  let v := BitVec.ofNat 64 (ofLeBytes data)
  match off with
  | 0x00 => configWrite s p 0x00 v
  | 0x08 => configWrite s p 0x08 v
  | 0x0C => configWrite s p 0x0C v
  | 0x18 => configWrite s p 0x18 v
  | 0x20 => configWrite s p 0x20 v
  | 0x40 => if v.getLsbD 0 then commit s p (v.getLsbD 1) else setStatus s p stOK
  | 0x48 => setStatus (if v.getLsbD 0 then resetPart s p else s) p stOK
  | _ => setStatus (stageWrite s p off data) p stOK

/-! ### Words that stall on a port (R384) -/

/-- The flits whose words a port stalls: its own, or those without a route that its going down has left so. -/
def stallFlits (s : State) (port : Nat) : List Flit :=
  let p := s.port port
  if p.up then p.replay ++ p.waiting
  else (s.port 16).waiting.filter (fun f => (routeOf s f.dest.toNat).getLsbD port)

def waveIdOf (k : Nat) : WaveId := { serial := k / 128 / 2 ^ 32, block := k / 128 % 2 ^ 32, wave := k % 128 }

/-- The stalled words of a launch on a port: core and PC, an atomic's, a staged write's or a copy's. -/
def stalledOn (s : State) (port serial : Nat) : List (Nat × Nat) :=
  let fs := stallFlits s port
  let on (dev : Nat) : Bool := fs.any (fun f => f.dest.toNat == dev)
  (s.waves.filter (fun w => (waveIdOf w.1).serial == serial)).flatMap (fun w =>
    (w.2.reqs.filter (fun r => match r.kind with | .remote d _ _ _ _ _ => on d | _ => false)).map (fun r =>
      (((s.block serial (waveIdOf w.1).block).map (fun b => b.core)).getD 255, r.pc.toNat))) ++
  (s.farReds.filter (fun r => r.serial == serial && on r.dev)).map (fun r => (r.core, r.pc)) ++
  s.copy.flatMap (fun c => (c.2.ops.filter (fun o => o.serial == serial && o.rem.any (fun r => r.got.isNone && on r.dev))).map
    (fun o => (o.core, o.pc)))

/-- A launch's event of kind 8 on a port past its allowance opens with its first stalled word, and lasts as the port's
lateness does (R241). DEDUCED (log 41). -/
def noteStall (s : State) (port serial : Nat) : State :=
  let p := s.port port
  match stalledOn s port serial, p.late.find? (fun x => x.1 == serial) with
  | x :: _, none =>
    let ix := ((s.launch serial).map (fun l => l.nevents)).getD 0
    (s.modPort port (fun p => { p with late := p.late ++ [(serial, ix, x.1)] })).modLaunch serial (fun l =>
      (l.addEvent { kind := 8, attr := aMACHINE, core := x.1, pc := x.2, value := 0 }).openSpan (8 + 16 * port) s.tick)
  | _, _ => s

/-- After a step the launches that stall on a port past its allowance, or down, are noted. -/
def noteStalls (s : State) : State :=
  (s.ports.filter (fun p => p.2.overdue)).foldl (fun s p => s.launches.foldl (fun s l => noteStall s p.1 l.1) s) s

/-- A flit that had no route is tried again (R382). -/
def retryRoutes (s : State) : State :=
  let fs := (s.port 16).waiting
  fs.foldl routeFlit (s.modPort 16 (fun p => { p with waiting := [] }))

def routeWrite (s : State) (v : BitVec 32) : State :=
  retryRoutes { s with routes := tset 0 s.routes (s.rtindex.toNat % 2 ^ 21) (v &&& 0x1FFFFF) }

/-- ROUTING_ENTRY_WRITE. -/
def execRoutingEntryWrite (v : BitVec 32) (s : State) : Out := .next (routeWrite s v)

/-- TRANSPORT_FLAG_WRITE. DEDUCED (log 43). -/
def execTransportFlagWrite (v : BitVec 64) (s : State) : Out := .next { s with transport := v.getLsbD 0 }

/-- A write to the physical function's BAR0. -/
def pfWrite (s : State) (off : Nat) (data : List Byte) : State :=
  if off < 0x20000 then blockWrite s (off / 0x2000) (off % 0x2000) data
  else if off < 0x20020 then
    let bs := overwrite (tgets 0 s.grantRegs 0 32) (off - 0x20000) data
    let s := { s with grantRegs := tputs 0 [] 0 bs }
    if off ≤ 0x20007 && 0x20007 < off + data.length then (let r := grant s .physicalFunction bs; { r.1 with grantStat := r.2, grants := r.1.grants + 1 })
    else s
  else if off = 0x20028 then { s with transport := (BitVec.ofNat 64 (ofLeBytes data)).getLsbD 0 }
  else if 0x20040 ≤ off && off < 0x20044 then
    { s with rtindex := BitVec.ofNat 32 (ofLeBytes (overwrite (leBytes s.rtindex.toNat 4) (off - 0x20040) data)) }
  else if off = 0x20044 then routeWrite s (BitVec.ofNat 32 (ofLeBytes data))
  else s

/-- A write to a virtual function's BAR0: the write that reaches the last byte of CMD is the doorbell. -/
def vfWrite (s : State) (p off : Nat) (data : List Byte) : State :=
  if off < 0x400 then
    let s := s.modPart p (fun q => { q with win := tputs 0 q.win off data })
    let w := off / 64
    if off % 64 ≤ 7 && 7 < off % 64 + data.length then
      s.modPart p (fun q => { q with bells := q.bells ++ [{ win := w, bytes := tgets 0 q.win (64 * w) 64, inReset := q.resetting, hpt := s.hpt }] })
    else s
  else if off = 0x1000 then ringSet s p true (BitVec.ofNat 64 (ofLeBytes data))
  else if off = 0x1008 then ringSet s p false (BitVec.ofNat 64 (ofLeBytes data))
  else if off = 0x100C then tailWrite s p (BitVec.ofNat 32 (ofLeBytes data))
  else s

/-- REGISTER_WRITE: within one register or one entry. -/
def execRegisterWrite (pf : Bool) (part off : Nat) (data : List Byte) (s : State) : Out :=
  .next (if pf then pfWrite s off data else if 16 ≤ part then s else vfWrite s part off data)

/-- STATUS of a partition (Table 25-4). -/
def statusWord (q : Part) : Nat := q.status + 256 * q.resetting.toNat + 512 * q.breaking.toNat + 1024 * q.discarded.toNat

/-- A byte of a register file: registers by offset, as bytes; a reserved byte reads 0. -/
def regByte (rs : List (Nat × List Byte)) (off : Nat) : Byte :=
  ((rs.findSome? (fun r => if r.1 ≤ off && off < r.1 + r.2.length then some (r.2.getD (off - r.1) 0) else none))).getD 0

/-- A partition's configuration block (Table 25-4); COMMIT and RESET read 0. -/
def blockRegs (q : Part) : List (Nat × List Byte) :=
  [(0x00, leBytes q.ctrl.toNat 8), (0x08, leBytes q.clusters.toNat 4), (0x0C, leBytes q.quota.toNat 4),
   (0x10, leBytes q.staged.ptroot.toNat 8), (0x18, leBytes q.hotbase.toNat 8), (0x20, leBytes q.hotcount.toNat 4),
   (0x28, leBytes (BitVec.ofInt 64 q.balance).toNat 8), (0x30, leBytes q.lowmark.toNat 8), (0x38, leBytes (statusWord q) 8)] ++
  (List.range 64).map (fun e => (0x800 + 32 * e, (tget {} q.staged.ranges e).bytes)) ++
  (List.range 16).map (fun w => (0x1000 + 32 * w, (tget {} q.staged.hwins w).bytes))

/-- The physical function's registers after the configuration blocks (Table 25-3). -/
def deviceRegs (s : State) : List (Nat × List Byte) :=
  [(0x20000, tgets 0 s.grantRegs 0 32), (0x20020, leBytes (s.grantStat + 256 * s.grants.toNat) 8),
   (0x20028, leBytes s.transport.toNat 8), (0x20030, leBytes s.gen 8), (0x20038, leBytes s.house 8),
   (0x20040, leBytes s.rtindex.toNat 4), (0x20044, leBytes (routeOf s (s.rtindex.toNat % 2 ^ 21)).toNat 4)]

/-- A virtual function's BAR0 (Table 25-1). -/
def vfRegs (q : Part) : List (Nat × List Byte) :=
  [(0x0, tgets 0 q.win 0 1024), (0x1000, leBytes q.ringbase.toNat 8), (0x1008, leBytes q.ringslots.toNat 4),
   (0x100C, leBytes q.tail.toNat 4), (0x1010, leBytes q.head.toNat 4)]

/-- What a register read returns. -/
def readRegs (s : State) (r : RegRead) : List Byte :=
  (List.range r.len).map (fun i =>
    let a := r.off + i
    if !r.pf then regByte (vfRegs (s.part r.part)) a
    else if a < 0x20000 then regByte (blockRegs (s.part (a / 0x2000))) (a % 0x2000)
    else regByte (deviceRegs s) a)

/-- STATUS_READ, with the reads of the other registers (R376, R380): one that reaches bit [10] of a partition's STATUS clears
it. DEDUCED (log 37). -/
def execStatusRead (r : RegRead) (s : State) : Out :=
  if !r.pf && 16 ≤ r.part then .next s
  else
    let seen := if r.pf then ((List.range 16).filter (fun p => r.off ≤ 0x2000 * p + 0x39 && 0x2000 * p + 0x39 < r.off + r.len)) else []
    let t := { s with hostReads := (r.off, 0, readRegs s r) :: s.hostReads }
    .next (seen.foldl (fun t p => t.modPart p (fun q => { q with discarded := false })) t)

/-! ### Device memory through BAR2 (R394) -/

/-- A host access's bytes, cut at 32-byte units of the device address. -/
def hostUnits (addr : Nat) (data : List Byte) : List (Nat × List Byte) :=
  (data.zipIdx.foldl (fun (acc : List (Nat × List Byte)) b =>
    let a := addr + b.2
    match acc with
    | (x, bs) :: t => if x / 32 = a / 32 then (x, bs ++ [b.1]) :: t else (a, [b.1]) :: acc
    | [] => [(a, [b.1])]) []).reverse

/-- Translation of a host access: AT takes no part, a remote range is refused. -/
def hostXl (s : State) (p a : Nat) (k : Acc) : Xl :=
  match translate s (s.part p).map (BitVec.ofNat 64 a) k with
  | .remote _ _ => .bad cPROT aCALLER
  | x => x

/-- A write unit discarded: bit [10] of STATUS and a notice. -/
def dropUnit (s : State) (p a cause : Nat) : State := report (s.modPart p (fun q => { q with discarded := true })) 2 cause a

/-- One unit of a host write. One beyond its tier's capacity is discarded as one without a translation. DESIGN CHOICE
(log 1). -/
def hostWriteUnit (s : State) (p a : Nat) (bs : List Byte) : State :=
  match hostXl s p a .store with
  | .at_ loc =>
    if absent loc then dropUnit s p a cXLATE
    else if lockedAt s loc then dropUnit s p a cPROT
    else if badUnit s loc && bs.length != 32 then dropUnit s p a cUNCORR
    else
      let u := if bs.length = 32 then { s with bad := s.bad.filter (fun u => u != redir s loc / 32) } else s
      let locs := (List.range bs.length).map (fun i => loc + i)
      (s.parts.map (fun q => q.1)).foldl (fun t q => tableWrite s t q locs) (homeWrite u (locs.zip bs))
  | .bad c _ => dropUnit s p a c
  | .remote _ _ => s

/-- HOST_WRITE: its units one after another, with nothing between them. DEDUCED (log 27). -/
def execHostWrite (part addr : Nat) (data : List Byte) (s : State) : Out :=
  if 16 ≤ part then .next s
  else .next ((hostUnits addr data).foldl (fun s u => hostWriteUnit s part u.1 u.2) s)

/-- One unit of a host read: data, or the status of its error. -/
def hostReadUnit (s : State) (p a n : Nat) : Nat ⊕ List Byte :=
  match hostXl s p a .load with
  | .at_ loc => if absent loc then .inl 1 else if badUnit s loc then .inl 3 else .inr ((List.range n).map (fun i => memByte s (loc + i)))
  | .bad c _ => .inl (if c = cXLATE then 1 else 2)
  | .remote _ _ => .inl 2

/-- HOST_READ: its completion, with the status of the first unit in error; every unit with an uncorrectable error is
reported as well (R176). -/
def execHostRead (part addr len : Nat) (s : State) : Out :=
  if 16 ≤ part then .next s
  else
  let us := (hostUnits addr (List.replicate len 0)).map (fun u => (u.1, hostReadUnit s part u.1 u.2.length))
  let s := (us.filter (fun u => match u.2 with | .inl n => n == 3 | .inr _ => false)).foldl (fun s u => report s 3 0 u.1) s
  let answer := match us.findSome? (fun u => match u.2 with | .inl n => some n | .inr _ => none) with
    | some n => (addr, min n 2, [])
    | none => (addr, 0, us.flatMap (fun u => match u.2 with | .inr bs => bs | .inl _ => []))
  .next { s with hostReads := answer :: s.hostReads }

end Sys2Proof.Machine
end

