-- ==== Sys2Proof/Machine/Fabric.lean ====
section
/-! DEFINITION. Flits received, served and answered; retraining (R381 to R384). -/

namespace Sys2Proof.Machine

/-! ### Receiving (R381, R382) -/

/-- R382: the acknowledgement frees the replay buffer up to its sequence. -/
def dropAcked (a : BitVec 12) : List Flit → List Flit
  | [] => []
  | f :: t => if f.seq = a then t else (if t.any (fun g => g.seq == a) then dropAcked a t else f :: t)

/-- The acknowledgement of a received flit. -/
def Port.acked (p : Port) (f : Flit) : Port := { p with replay := dropAcked f.ackSeq p.replay }

/-- The credits of a received flit, counted once: a flit sent again carries those that it carried first. DEDUCED (log 24). -/
def Port.credit (p : Port) (f : Flit) : Port :=
  { p with cred0 := p.cred0 + 8 * f.cred0.toNat, cred1 := p.cred1 + 8 * f.cred1.toNat }

/-- The next flit in order is taken: its sequence, its buffer freed. DEDUCED (log 24). -/
def Port.take (p : Port) (f : Flit) : Port :=
  { p with rxSeq := p.rxSeq + 1, freed0 := if f.vc = 0 then p.freed0 + 1 else p.freed0, freed1 := if f.vc = 1 then p.freed1 + 1 else p.freed1 }

/-- A flit counted toward the port's last 2^24, and a failed one (R383). -/
def Port.count (p : Port) (bad : Bool) : Port :=
  let w := p.window + 1
  { p with window := w, crc := p.crc + bad.toNat, crcAt := (if bad then w :: p.crcAt else p.crcAt).filter (fun x => w < x + 2 ^ 24) }

/-- A port starts to retrain. -/
def Port.retrain (p : Port) (tick : Nat) : Port :=
  { p with retraining := true, since := tick, overdue := false, late := [], window := 0, crcAt := [] }

/-- A failed flit is counted; more than 16 of the last 2^24 start a retraining (R383). -/
def countFailed (s : State) (port : Nat) : State :=
  s.modPort port (fun p =>
    let p := p.count true
    if 16 < p.crcAt.length && p.up && !p.retraining then p.retrain s.tick else p)

/-- Waiting flits carry the acknowledgement and the credits back, and where none can leave a LINK flit does.
DEDUCED (log 24). -/
def Port.ackBack (p : Port) : Port :=
  let q := p.pump
  if q.sent.length = p.sent.length then
    let c0 := min 15 (q.freed0 / 8)
    let c1 := min 15 (q.freed1 / 8)
    { q with
      freed0 := q.freed0 - 8 * c0, freed1 := q.freed1 - 8 * c1,
      sent := q.sent ++ [{ dest := 0, kind := 0, seq := 0, ackSeq := q.rxSeq - 1, cred0 := BitVec.ofNat 4 c0, cred1 := BitVec.ofNat 4 c1,
                           vc := 2, hops := 0, payload := List.replicate payloadLen 0 }] }
  else q

/-- R382: a flit for another device is forwarded, or dropped and counted at HOPS 0. -/
def forward (s : State) (f : Flit) : State :=
  if f.hops = 0 then report s 4 f.dest.toNat 0 else routeFlit s { f with hops := f.hops - 1 }

/-- A flit of a kind arrives at a port that is up and locked: acknowledgement and credits always; the flit itself only
in sequence, at its destination or onward. DESIGN CHOICE (log 8). -/
def arrive (s : State) (port kind : Nat) (f : Flit) (deliver : State → State) : State :=
  let p := s.port port
  if f.kind.toNat != kind || 16 ≤ port || !p.up || p.retraining then s
  else
    let s := s.modPort port (fun p => ((p.count false).acked f).pump)
    if f.seq != p.rxSeq then s
    else
      let s := s.modPort port (fun p => ((p.take f).credit f).pump)
      let s := if f.dest = Config.deviceNumber then deliver s else forward s f
      s.modPort port Port.ackBack

/-- LINK: never held for replay, never forwarded, sequence 0. -/
def execLink (port : Nat) (f : Flit) (s : State) : Out :=
  let p := s.port port
  .next (if f.kind != 0 || 16 ≤ port || !p.up || p.retraining then s
    else s.modPort port (fun p => (((p.count false).acked f).credit f).pump))

/-- RESERVED_FLIT: kind 7 is dropped and counted as a CRC failure. -/
def execReservedFlit (port : Nat) (f : Flit) (s : State) : Out :=
  .next (if f.kind != 7 || 16 ≤ port || !(s.port port).up || (s.port port).retraining then s
    else countFailed s port)

/-- CRC_FAILURE: the flit is dropped unacknowledged (R383). DESIGN CHOICE (log 9). -/
def execCrcFailure (port : Nat) (s : State) : Out :=
  .next (if 16 ≤ port then s else countFailed s port)

/-! ### Serving (R382) -/

def payNat (f : Flit) (o n : Nat) : Nat := ofLeBytes ((f.payload.drop o).take n)
def payBytes (f : Flit) (o n : Nat) : List Byte := (f.payload.drop o).take n
def paySrc (f : Flit) : Nat := payNat f 0 4 % 2 ^ 21
def payTag (f : Flit) : Nat := payNat f 4 4

/-- STATUS of Table 25-7 for a translation that failed. -/
def statusOf (code attr : Nat) : Nat := if code = cXLATE then (if attr = aHOST then 5 else 1) else 2

/-- The mapping that serves a device, where its routing entry accepts it. -/
def servedBy (s : State) (src : Nat) : Option Mapping :=
  if (routeOf s src).getLsbD 20 then some (s.part ((routeOf s src).extractLsb' 16 4).toNat).map else none

/-- Bytes of an access made for another device: their places, or a STATUS. DEDUCED (log 39). -/
def serveAccess (s : State) (m : Mapping) (a n : Nat) (k : Acc) : Nat ⊕ List Nat :=
  let xs := access s m (BitVec.ofNat 64 a) n k
  match firstBad xs with
  | some (c, at_) => .inl (statusOf c at_)
  | none =>
    let locs := locsOf xs
    if locs.length != n then .inl 2 else if locs.any absent then .inl 1 else .inr locs

/-- One record of an AREQ: its places, or the STATUS of the first check that fails. DEDUCED (log 39). -/
def checkRecord (s : State) (m : Mapping) (ty : Ty) (a : Nat) : Nat ⊕ List Nat :=
  match serveAccess s m a ty.size .atomic with
  | .inl e => .inl e
  | .inr locs => if a % ty.size != 0 then .inl 3 else if locs.any (badUnit s) then .inl 4 else .inr locs

def firstStatus {α : Type} (xs : List (Nat ⊕ α)) : Nat := (xs.findSome? (fun x => match x with | .inl e => some e | .inr _ => none)).getD 0

/-- Checks of an AREQ: every record before any acts. -/
def areqChecks (s : State) (f : Flit) : Nat ⊕ (Ty × List (List Nat × Nat × Nat)) :=
  let n := payNat f 9 1
  match servedBy s (paySrc f), tyOfCode (BitVec.ofNat 4 (payNat f 8 1 / 16)) with
  | some m, some ty =>
    let recs := (List.range n).map (fun i => (payNat f (16 + 24 * i) 8, payNat f (24 + 24 * i) 8, payNat f (32 + 24 * i) 8))
    let cs := recs.map (fun r => checkRecord s m ty r.1)
    if n = 0 || 8 < n || 7 < payNat f 8 1 % 16 then .inl 2
    else if firstStatus cs != 0 then .inl (firstStatus cs)
    else .inr (ty, (cs.zip recs).map (fun p => ((match p.1 with | .inr l => l | .inl _ => []), p.2.2.1 % 2 ^ ty.bits, p.2.2.2 % 2 ^ ty.bits)))
  | _, _ => .inl 2

def arspPayload (tag status : Nat) (olds : List Nat) : List Byte :=
  srcTag tag ++ leBytes status 1 ++ leBytes olds.length 1 ++ List.replicate 6 0 ++ olds.flatMap (fun x => leBytes x 8)

/-- The records act in order, each an event of H. -/
def serveAreq (s : State) (f : Flit) : State :=
  match areqChecks s f with
  | .inl e => sendFlit s (paySrc f) 2 1 (arspPayload (payTag f) e [])
  | .inr (ty, recs) =>
    let r := recs.foldl (fun (acc : State × List Nat) x =>
      let a := atomAt acc.1 (payNat f 8 1 % 16) x.1 ty x.2.1 x.2.2
      (a.1, acc.2 ++ [a.2])) (s, [])
    sendFlit r.1 (paySrc f) 2 1 (arspPayload (payTag f) 0 (if (payNat f 10 1).testBit 0 then r.2 else []))

def execAreq (port : Nat) (f : Flit) (s : State) : Out := .next (arrive s port 1 f (fun s => serveAreq s f))

def rdataPayload (tag status : Nat) (data : List Byte) : List Byte :=
  srcTag tag ++ leBytes status 1 ++ [0] ++ leBytes data.length 2 ++ List.replicate 4 0 ++ data

def serveRreq (s : State) (f : Flit) : State :=
  let n := payNat f 16 2
  let r : Nat ⊕ List Byte := match servedBy s (paySrc f) with
    | none => .inl 2
    | some m =>
      if n = 0 || 224 < n then .inl 2
      else match serveAccess s m (payNat f 8 8) n .load with
        | .inl e => .inl e
        | .inr locs => if locs.any (badUnit s) then .inl 4 else .inr (locs.map (memByte s))
  sendFlit s (paySrc f) 4 1 (match r with | .inl e => rdataPayload (payTag f) e [] | .inr bs => rdataPayload (payTag f) 0 bs)

def execRreq (port : Nat) (f : Flit) (s : State) : Out := .next (arrive s port 3 f (fun s => serveRreq s f))

def serveWdata (s : State) (f : Flit) : State :=
  let n := payNat f 16 2
  let a := payNat f 8 8
  let r : State × Nat := match servedBy s (paySrc f) with
    | none => (s, 2)
    | some m =>
      if n = 0 || 208 < n then (s, 2)
      else match serveAccess s m a n .store with
        | .inl e => (s, e)
        | .inr locs =>
          let bs := (locs.zip (payBytes f 32 n)).zipIdx.map (fun p => (p.1.1, p.1.2, BitVec.ofNat 64 (a + p.2)))
          if (unitGroups bs).any (fun g => badUnit s (32 * g.1) && !(List.range 32).all (fun i => (tfind g.2 (32 * g.1 + i)).isSome)) then (s, 4)
          else ((engineWrite s bs).1, 0)
  sendFlit r.1 (paySrc f) 6 1 (srcTag (payTag f) ++ leBytes r.2 1)

def execWdata (port : Nat) (f : Flit) (s : State) : Out := .next (arrive s port 5 f (fun s => serveWdata s f))

/-! ### Answers -/

/-- Trap code and attribution of a STATUS (R382). -/
def statusTrap (st : Nat) : Nat × Nat :=
  match st with
  | 1 => (cXLATE, aCALLER) | 2 => (cPROT, aCALLER) | 3 => (cMISALIGN, aCALLER) | 4 => (cUNCORR, aMACHINE) | _ => (cXLATE, aHOST)

def remoteTrap (st pc block wave core engine : Nat) (addr : BitVec 64) : Trap :=
  { code := (statusTrap st).1, attr := (statusTrap st).2, construct := 0, pc := pc, pc2 := noPc, block := block, block2 := noPc,
    wave := wave, core := core, engine := engine, lanes := 0, value := addr }

/-- The lanes of a wave that wait for an answer are given it. -/
def answerWave (s : State) (id : WaveId) (w : Wave) (dev tag st : Nat) (old : Nat → Nat) : State :=
  let mine (r : Req) : Bool := match r.kind with | .remote d t _ _ _ _ => d == dev && t == tag | _ => false
  let got := w.reqs.filter mine
  let reqs := w.reqs.filter (fun r => !mine r)
  let core := ((s.block id.serial id.block).map (fun b => b.core)).getD 0
  let w := got.foldl (fun (w : Wave) r => match r.kind with
    | .remote _ _ slot ty scal dst =>
      let ws := match dst with | some d => typeWrites ty scal d r.lane (old slot) | none => []
      if st = 0 then w.pendWrite r.tag ws (!reqs.any (fun q => q.tag == r.tag)) else w
    | _ => w) { w with reqs := reqs }
  let s := s.setWave id w
  if st = 0 then s
  else match got with
    | r :: _ => addTrap s id.serial (remoteTrap st r.pc.toNat id.block (waveNo id w) core w.engine r.addr)
    | [] => s

def hasRemoteReq (w : Wave) (dev tag : Nat) : Bool :=
  w.reqs.any (fun r => match r.kind with | .remote d t _ _ _ _ => d == dev && t == tag | _ => false)

/-- The answer of a staged `REDG` or of staged bytes: one that reports an error traps at the publishing word, or fails the
copy that staged the bytes with that code (R256). -/
def takeStaged (s : State) (f : Flit) : State :=
  let hit (r : FarRed) : Bool := r.dev == paySrc f && r.tag == payTag f
  let t := { s with farReds := s.farReds.filter (fun r => !hit r) }
  let st := payNat f 8 1
  if st = 0 then t
  else (s.farReds.filter hit).foldl (fun t r => match r.copy with
    | some c => failStaged t r.serial c (errOfStatus st) r.addr.toNat
    | none => addTrap t r.serial (remoteTrap st r.pc r.block r.wave r.core r.engine r.addr)) t

def takeArsp (s : State) (f : Flit) : State :=
  let dev := paySrc f
  let tag := payTag f
  takeStaged ((s.waves.filter (fun w => hasRemoteReq w.2 dev tag)).foldl
    (fun s w => answerWave s (waveIdOf w.1) w.2 dev tag (payNat f 8 1) (fun i => payNat f (16 + 8 * i) 8)) s) f

def execArsp (port : Nat) (f : Flit) (s : State) : Out := .next (arrive s port 2 f (fun s => takeArsp s f))

/-- The answer of a copy's run (R382). -/
def takeRun (s : State) (f : Flit) (data : List Byte) : State :=
  let hit (r : RemRun) : Bool := r.dev == paySrc f && r.tag == payTag f && r.got.isNone
  { s with copy := s.copy.map (fun c => (c.1, { c.2 with ops := c.2.ops.map (fun o =>
      { o with rem := o.rem.map (fun r => if hit r then { r with got := some (payNat f 8 1, data) } else r) }) })) }

def execRdata (port : Nat) (f : Flit) (s : State) : Out :=
  .next (arrive s port 4 f (fun s => takeRun s f (payBytes f 16 (payNat f 10 2))))
def execWack (port : Nat) (f : Flit) (s : State) : Out :=
  .next (arrive s port 6 f (fun s => takeRun (takeStaged s f) f []))

/-! ### Replay and retraining (R383, R384) -/

/-- FLIT_REPLAY: the oldest unacknowledged flit is sent again. -/
def execFlitReplay (port : Nat) (s : State) : Out :=
  let p := s.port port
  .next (if 16 ≤ port || !p.up || p.retraining then s
    else match p.replay with
      | f :: _ => s.modPort port (fun p => { p with sent := p.sent ++ [f] })
      | [] => s)

/-- RETRAIN_START: the port has lost lock. -/
def execRetrainStart (port : Nat) (s : State) : Out :=
  let p := s.port port
  .next (if 16 ≤ port || !p.up || p.retraining then s else s.modPort port (fun p => p.retrain s.tick))

/-- A port that is down: its flits follow the other ports. A word left without a route stalls as on a port past its
allowance (R384). DEDUCED (log 41). -/
def portDown (s : State) (port : Nat) : State :=
  let p := s.port port
  let s := s.modPort port (fun p => { p with up := false, retraining := false, replay := [], waiting := [], overdue := true,
                                             lateAt := if p.overdue then p.lateAt else s.tick })
  (p.replay ++ p.waiting).foldl routeFlit s

/-- The span in which a port ran past its allowance ends. DEDUCED (log 41). -/
def endLate (s : State) (port : Nat) : State :=
  let s := lateValues s port (fun _ => true)
  let s := { s with launches := s.launches.map (fun (l : Nat × Launch) => (l.1, l.2.closeSpan (8 + 16 * port) s.tick)) }
  s.modPort port (fun p => { p with overdue := false, late := [] })

/-- RETRAIN_END: the port resumes from its oldest unacknowledged flit; after four failures in a row it is down, and
before that it retrains again. -/
def execRetrainEnd (port : Nat) (ok : Bool) (s : State) : Out :=
  let p := s.port port
  .next (if 16 ≤ port || !p.retraining then s
    else if ok then (endLate s port).modPort port (fun p => { p with retraining := false, fails := 0, sent := p.sent ++ p.replay }.pump)
    else if 4 ≤ p.fails + 1 then portDown (s.modPort port (fun p => { p with fails := p.fails + 1 })) port
    else (endLate s port).modPort port (fun p => { p with fails := p.fails + 1, since := s.tick }))

/-- RETRAIN_ALLOWANCE_EXPIRY. -/
def execRetrainAllowanceExpiry (port : Nat) (s : State) : Out :=
  let p := s.port port
  .next (if 16 ≤ port || !p.retraining || p.overdue then s
    else
      let s := s.modPort port (fun p => { p with overdue := true, lateAt := s.tick, late := [] })
      s.launches.foldl (fun s l => noteStall s port l.1) s)

end Sys2Proof.Machine
end

