-- ==== Sys2Proof/Machine/Board.lean ====
section
/-! DEFINITION. Power-up, self-test and attestation (R387 to R389). -/

namespace Sys2Proof.Machine

/-- POWER_UP: everything starts as at a reset. The count of power-ups, the serials of requests (R234) and the transport
flag last; the host's memory, the supply and what has been sent over the links are not the device's to clear. Clusters that
start in a droop or without the reference clock start at their floors (R291, R385).
DESIGN CHOICE (log 56). -/
def execPowerUp (transportLow : Bool) (s : State) : Out :=
  let test := transportLow || s.transport
  let t := { State.reset with
    tick := s.tick, agenda := s.agenda, cur := s.cur, seq := s.seq, free := s.free, hostMem := s.hostMem, lastSerial := s.lastSerial,
    powerUps := s.powerUps + 1, selfTest := test, transport := false, droop := s.droop, beyond := s.beyond, refClock := s.refClock,
    mgmt := s.mgmt, attest := s.attest, hostReads := s.hostReads, selfRecord := s.selfRecord }
  .next (if t.refClock && t.droop = 0 then t else allClusters.foldl rideAtFloor t)

/-! ### Self-test (R387, R388) -/

/-- The cores that a set of rails fences. -/
def onRails (rails : BitVec 8) (core : Nat) : Bool := rails.getLsbD (quadOf core)

/-- The feature masks after a self-test: failing units' bits cleared, failing rails' quadrants fenced.
DEDUCED (log 57). -/
def testedMask (s : State) (fails : Tab (BitVec 64)) (rails : BitVec 8) (core : Nat) : BitVec 64 :=
  if onRails rails core then 0
  else fails.foldl (fun m f => if f.1 = core then m &&& ~~~ f.2 else m) (s.feat core)

def coreBits (p : Nat → Bool) : Nat := (List.range 192).foldl (fun n c => if p c then n + 2 ^ c else n) 0

/-- RESULT of Table 25-8. -/
def testResult (masks : List (BitVec 64)) (rails : BitVec 8) : Nat :=
  if masks.all (fun m => !usable m) then 3
  else if rails != 0 then 2
  else if masks.any (fun m => m != fullFeatures) then 1 else 0

def selfTestRecord (powerUps : Nat) (masks : List (BitVec 64)) (rails hbm : BitVec 8) (ports : BitVec 16) (lpddr : BitVec 32)
    (corrected : BitVec 64) : List Byte :=
  fields ([(8, powerUps), (1, testResult masks rails), (7, 0), (24, coreBits (fun c => masks.getD c 0 != fullFeatures)),
    (1, rails.toNat), (1, hbm.toNat), (2, ports.toNat), (4, lpddr.toNat), (8, corrected.toNat), (8, 0)] ++ masks.map (fun m => (8, m.toNat)))

/-- SELF_TEST_END: units fenced, ports down, a record to every enabled partition; the result goes over the management
path as well. PORTS names the ports that failed and those that a failed retraining has taken down (R384). -/
def execSelfTestEnd (masks : List (Nat × BitVec 64)) (rails hbm : BitVec 8) (ports : BitVec 16) (lpddr : BitVec 32) (corrected : BitVec 64)
    (s : State) : Out :=
  if !s.selfTest then .next s
  else
    let ms := (List.range 192).map (testedMask s masks rails)
    let moved := (List.range 192).any (fun c => ms.getD c 0 != s.feat c)
    let down := (List.range 16).foldl (fun (d : BitVec 16) p => if (s.port p).up then d else d ||| (1#16 <<< p)) ports
    let bs := selfTestRecord s.powerUps ms rails hbm down lpddr corrected
    let t := { s with
      selfTest := false, selfRecord := bs, gen := if moved then s.gen + 1 else s.gen,
      feats := (List.range 192).foldl (fun t c => tset fullFeatures t c (ms.getD c 0)) s.feats }
    let t := ((List.range 16).filter (fun p => ports.getLsbD p)).foldl portDown t
    let t := tellFeats s (report t 5 (testResult ms rails) s.powerUps)
    let t := if hbm = 0 && lpddr = 0 then t else report t 9 hbm.toNat lpddr.toNat
    .next (((List.range 16).filter (fun p => (t.part p).ctrl.getLsbD 0)).foldl (fun t p => postRecord t p 5 bs 0 vSELFTEST) t)

/-! ### Attestation (R389) -/

/-- Part number and generation, the digest of the identity key, and those of the firmware images (R389). -/
def attestIdentity : List Byte :=
  leBytes Config.partNumber.toNat 8 ++ leBytes Config.keyDigest.toNat 32 ++ Config.firmwareDigests.flatMap (fun d => leBytes d.toNat 32)

/-- What the signature covers, in the order and with the lengths of R389. DESIGN CHOICE (log 7). -/
def attestBody (s : State) (nonce : List Byte) : List Byte :=
  attestIdentity ++ (List.range 16).map (fun i => s.selfRecord.getD i 0) ++
    fields ((List.range 192).map (fun c => (8, (s.feat c).toNat))) ++ nonce

/-- ATTESTATION_REQUEST: a record with the request's own nonce goes over the management path. DESIGN CHOICE (log 7). -/
def execAttestationRequest (nonce : List Byte) (s : State) : Out :=
  if nonce.length != 32 then .next s
  else
    let b := attestBody s nonce
    .next (report { s with attest := (b ++ leBytes (Config.attestSign b).toNat 29792) :: s.attest } 6 0 0)

end Sys2Proof.Machine
end

