-- ==== Sys2Proof/Machine/Convert.lean ====
section
/-! DEFINITION. The conversion words (Table 4-8, R78 to R86). -/

namespace Sys2Proof.Machine

/-- R81. -/
def execCvt (st : Ty) (rnd : Rnd) (r : Lane) (s : State) : Out :=
  issue s (fun c => c.write s (laneWrites c r st r.ty (fun a _ _ => convert st r.ty rnd a)))

/-- R82: one register written; for an 8-bit destination the other halfword is kept. -/
def packValue (dt : Ty) (h : Bool) (old a b : Nat) : Nat :=
  if dt.bits = 16 then b * 65536 + a
  else if h then old % 65536 + (b * 256 + a) * 65536
  else old / 65536 * 65536 + (b * 256 + a)

def execPack (st : Ty) (rnd : Rnd) (r : Lane) (s : State) : Out :=
  issue s (fun c => c.write s ((c.lanes r.h).map (fun l =>
    .v r.dst.toNat l (BitVec.ofNat 32 (packValue r.ty (r.sc.getLsbD 0) (c.w.readV r.dst.toNat l).toNat
      (convert st r.ty rnd (srcA c.w r st l)) (convert st r.ty rnd (srcB c.w r st l)))))))

/-- R83. -/
def execUnpk (st : Ty) (rnd : Rnd) (r : Lane) (s : State) : Out :=
  issue s (fun c => c.write s ((c.lanes r.h).flatMap (fun l =>
    typeWrites r.ty false r.dst.toNat l
      (convert st r.ty rnd ((c.w.readV r.sa.toNat l).toNat / 2 ^ (st.bits * (r.sc.toNat % 4)) % 2 ^ st.bits)))))

/-- The value of a lane scaled by 2 ^ (32 − E). -/
def unscale (e : Nat) : Fp → Fp
  | .fin neg m k => .fin neg m (k + 32 - (e : Int))
  | x => x

/-- R84: code of every lane of a wave, and scale field of every block of `n` lanes. -/
def qntBlock (t n : Nat) (rm : Rnd) (w : Nat) (eff : Nat → Bool) (x : Nat → Fp) : List Nat × List Nat :=
  let es := (List.range (w / n)).map (fun b => scaleOf t (((List.range n).filter (fun i => eff (b * n + i))).map (fun i => x (b * n + i))))
  let cs := (List.range w).map (fun l =>
    let e := es.getD (l / n) 0
    if eff l && e < 63 then encode4 t rm (unscale e (x l)) else 0)
  (cs, es)

/-- R84: class S; SC holds the block type in [7:6] and the block length in [5]. -/
def execQnt (st : Ty) (rnd : Rnd) (r : Lane) (s : State) : Out :=
  issue s (fun c =>
    let t := (r.sc >>> 6).toNat
    let n := if r.sc.getLsbD 5 then 32 else 16
    let q := qntBlock t n rnd c.w.width (fun l => (c.eff r.h).getLsbD l) (fun l => toFp st (readType c.w st false r.sa.toNat l))
    c.later s [.v r.dst.toNat, .v (r.dst.toNat + 1)] ((c.lanes r.h).flatMap (fun l =>
      let o := l / 8 * 8
      [.v r.dst.toNat l (BitVec.ofNat 32 ((List.range 8).foldl (fun a j => a + q.1.getD (o + j) 0 * 16 ^ j) 0)),
       .v (r.dst.toNat + 1) l (BitVec.ofNat 32 (t * 64 + q.2.getD (l / n) 0))])))

/-- R86. -/
def execDqnt (_st : Ty) (rnd : Rnd) (r : Lane) (s : State) : Out :=
  issue s (fun c => c.write s ((c.lanes r.h).flatMap (fun l =>
    typeWrites r.ty false r.dst.toNat l
      (fromFp r.ty rnd (value4 ((c.w.readV r.sa.toNat l).toNat / 16 ^ (l % 8) % 16) (srcB c.w r .n8 l))))))

end Sys2Proof.Machine
end

