-- ==== Sys2Proof/Machine/SpecialFn.lean ====
section
/-! DEFINITION. The special functions (R73, R74): fixed-point evaluation with 600 fraction bits, by series, then one
rounding. A value is magnitude bits, an exponent and whether the exact value lies a little above them. -/

namespace Sys2Proof.Machine

/-- Fraction bits of the working fixed point. -/
def wb : Nat := 600
def one_ : Nat := 2 ^ wb
def fmul (a b : Nat) : Nat := a * b / one_

/-- Sum of `t, t·y/(k), t·y²/(k·(k+1)), …`: the exponential series from the term `t` of index `k - 1`. -/
def expTerms (y : Nat) : Nat → Nat → Nat → Nat
  | 0, _, _ => 0
  | n + 1, k, t => t + expTerms y n (k + 1) (fmul t y / k)

/-- e ^ y for 0 ≤ y < 1. -/
def expFix (y : Nat) : Nat := expTerms y 160 1 one_

/-- Sum of z^(2k+1) / (2k+1), from the power `p` and the divisor `d`. -/
def atanhTerms (z2 : Nat) : Nat → Nat → Nat → Nat
  | 0, _, _ => 0
  | n + 1, d, p => p / d + atanhTerms z2 n (d + 2) (fmul p z2)

/-- atanh z for 0 ≤ z ≤ 1/3. -/
def atanhFix (z : Nat) : Nat := atanhTerms (fmul z z) 200 1 z

def ln2 : Nat := 2 * atanhFix (one_ / 3)

/-- Fraction bits of π: enough to reduce an argument of 2 ^ 128. -/
def pb : Nat := wb + 160

/-- Σ (−1)^k / ((2k+1) n^(2k+1)) scaled by 2 ^ pb. -/
def atanInv (n : Nat) : Nat → Nat → Bool → Nat → Int
  | 0, _, _, _ => 0
  | f + 1, d, neg, p => (if neg then -((p / d : Nat) : Int) else (p / d : Nat)) + atanInv n f (d + 2) (!neg) (p / (n * n))

/-- π scaled by 2 ^ pb (Machin). -/
def piFix : Nat := (16 * atanInv 5 180 1 false (2 ^ pb / 5) - 4 * atanInv 239 60 1 false (2 ^ pb / 239)).toNat

/-- Alternating series of sine (from `t = r`, `k = 1`) or cosine (from `t = 1`, `k = 0`). -/
def trigTerms (r2 : Nat) : Nat → Nat → Bool → Nat → Int
  | 0, _, _, _ => 0
  | n + 1, k, neg, t => (if neg then -(t : Int) else t) + trigTerms r2 n (k + 2) (!neg) (fmul t r2 / ((k + 1) * (k + 2)))

def sinFix (r : Nat) : Nat := (trigTerms (fmul r r) 80 1 false r).toNat
def cosFix (r : Nat) : Nat := (trigTerms (fmul r r) 80 0 false one_).toNat

/-- e ^ (−x) for x ≥ 0 as g · 2 ^ (−n), g in [1/2, 1]. -/
def expNeg (x : Nat) : Nat × Nat :=
  let t := x * one_ / ln2
  let n := t / one_
  let f := t % one_
  (expFix (fmul (one_ - f) ln2) / 2, n)

/-- Terms x·(2x²)^n / (2n+1)!! of the error function. -/
def erfTerms (x2 : Nat) : Nat → Nat → Nat → Nat
  | 0, _, _ => 0
  | n + 1, d, t => if t = 0 then 0 else t + erfTerms x2 n (d + 2) (fmul t x2 * 2 / d)

/-- An approximate magnitude: m · 2 ^ e, exact or a little more. -/
structure Approx where
  neg : Bool
  m : Nat
  e : Int
  sticky : Bool

/-- A fixed-point value a · 2 ^ (−wb) · 2 ^ k known to within 2 ^ 40 units: its bits above the error. -/
def ofFix (neg : Bool) (a : Nat) (k : Int) : Approx := { neg := neg, m := a / 2 ^ 40, e := k + 40 - wb, sticky := true }

/-- A little below one. -/
def belowOne (neg : Bool) : Approx := { neg := neg, m := 2 ^ 500 - 1, e := -500, sticky := true }
/-- Above zero and below every format's least number. -/
def aboveZero (neg : Bool) : Approx := { neg := neg, m := 1, e := -2000, sticky := true }
def exactly (neg : Bool) (m : Nat) (e : Int) : Approx := { neg := neg, m := m, e := e, sticky := false }

/-- m · 2 ^ e in fixed point, for values below 2 ^ 20 with no bit under 2 ^ (−wb). -/
def toFix (m : Nat) (e : Int) : Nat := if 0 ≤ e + wb then m * 2 ^ (e + wb).toNat else m / 2 ^ (-(e + wb)).toNat

/-- Whether m · 2 ^ e is at least `c`. -/
def geNat (m : Nat) (e : Int) (c : Nat) : Bool := leScaled c 0 m e

/-- 2 ^ x. -/
def exp2Of (neg : Bool) (m : Nat) (e : Int) : Approx :=
  if geNat m e 2000 then (if neg then aboveZero false else exactly false 1 2000)
  else
    let x := toFix m e
    let n := x / one_
    let f := x % one_
    if f = 0 then exactly false 1 (if neg then -(n : Int) else n)
    else if neg then ofFix false (expFix (fmul (one_ - f) ln2)) (-(n : Int) - 1)
    else ofFix false (expFix (fmul f ln2)) n

/-- log2 x for x > 0. -/
def log2Of (m : Nat) (e : Int) : Approx :=
  let l := m.log2
  let n : Int := e + l
  if m = 2 ^ l then exactly (n < 0) n.natAbs 0
  else
    let y := m * 2 ^ wb / 2 ^ l
    let g := 2 * atanhFix ((y - one_) * one_ / (y + one_)) * one_ / ln2
    if n < 0 then ofFix true (n.natAbs * one_ - g) 0 else ofFix false (n.toNat * one_ + g) 0

def rcpOf (neg : Bool) (m : Nat) (e : Int) : Approx :=
  let t := 2 ^ 64
  { neg := neg, m := t / m, e := -e - 64, sticky := t % m != 0 }

/-- 1 / √x for x > 0. -/
def rsqOf (m : Nat) (e : Int) : Approx :=
  let k : Nat := if e % 2 = 0 then 128 else 129
  let t := 2 ^ k
  let r := isqrt (t / m)
  { neg := false, m := r, e := (-e - k) / 2, sticky := r * r * m != t }

/-- Quadrant of |x| and the rest in fixed point. -/
def reduce (m : Nat) (e : Int) : Nat × Nat :=
  let h := piFix / 2
  let x := if 0 ≤ e + pb then m * 2 ^ (e + pb).toNat else m / 2 ^ (-(e + pb)).toNat
  (x / h % 4, x % h / 2 ^ 160)

def sinOf (neg : Bool) (m : Nat) (e : Int) : Approx :=
  match reduce m e with
  | (0, r) => ofFix neg (sinFix r) 0
  | (1, r) => ofFix neg (cosFix r) 0
  | (2, r) => ofFix (!neg) (sinFix r) 0
  | (_, r) => ofFix (!neg) (cosFix r) 0

def cosOf (m : Nat) (e : Int) : Approx :=
  match reduce m e with
  | (0, r) => ofFix false (cosFix r) 0
  | (1, r) => ofFix true (sinFix r) 0
  | (2, r) => ofFix true (cosFix r) 0
  | (_, r) => ofFix false (sinFix r) 0

/-- e ^ (−x) in plain fixed point. -/
def expNegFix (x : Nat) : Nat := let p := expNeg x; p.1 / 2 ^ p.2

def tanhOf (neg : Bool) (m : Nat) (e : Int) : Approx :=
  if geNat m e 170 then belowOne neg
  else let u := expNegFix (2 * toFix m e); ofFix neg ((one_ - u) * one_ / (one_ + u)) 0

def sigmOf (neg : Bool) (m : Nat) (e : Int) : Approx :=
  if geNat m e 330 then (if neg then aboveZero false else belowOne false)
  else
    let u := expNegFix (toFix m e)
    if neg then ofFix false (u * one_ / (one_ + u)) 0 else ofFix false (one_ * one_ / (one_ + u)) 0

def erfOf (neg : Bool) (m : Nat) (e : Int) : Approx :=
  if geNat m e 18 then belowOne neg
  else
    let x := toFix m e
    let x2 := fmul x x
    let g := expNeg x2
    let c := 2 * one_ * one_ / isqrt (piFix / 2 ^ 160 * one_)
    ofFix neg (fmul (fmul (erfTerms x2 1200 3 x) g.1) c / 2 ^ g.2) 0

/-- The function codes of Table 6-5. -/
def specialOf (fn : Nat) (neg : Bool) (m : Nat) (e : Int) : Option Approx :=
  match fn with
  | 0 => some (exp2Of neg m e)
  | 1 => if neg then none else some (log2Of m e)
  | 2 => some (rcpOf neg m e)
  | 3 => if neg then none else some (rsqOf m e)
  | 4 => some (sinOf neg m e)
  | 5 => some (cosOf m e)
  | 6 => some (tanhOf neg m e)
  | 7 => some (sigmOf neg m e)
  | _ => some (erfOf neg m e)

/-- Table 4-6: results at zeros and infinities. -/
def specialZero (f : Fmt) (fn : Nat) (neg : Bool) : Nat :=
  let one := roundFin f .rne false false 1 0 false
  match fn with
  | 0 => one
  | 1 => f.withSign true f.infEnc
  | 2 => f.withSign neg f.infEnc
  | 3 => f.withSign neg f.infEnc
  | 5 => one
  | 7 => roundFin f .rne false false 1 (-1) false
  | _ => f.withSign neg 0

def specialInf (f : Fmt) (fn : Nat) (neg : Bool) : Nat :=
  let one := roundFin f .rne false false 1 0 false
  match fn with
  | 0 => if neg then 0 else f.infEnc
  | 1 => if neg then f.nan else f.infEnc
  | 2 => f.withSign neg 0
  | 3 => if neg then f.nan else 0
  | 4 => f.nan
  | 5 => f.nan
  | 6 => f.withSign neg one
  | 7 => if neg then 0 else one
  | _ => f.withSign neg one

/-- R74: an exact magnitude beyond the largest finite value becomes an infinity. -/
def beyondMax (f : Fmt) (a : Approx) : Bool :=
  let n := roundEnc f .rtz false a.m a.e a.sticky
  f.maxEnc < n || (n == f.maxEnc && roundEnc f .rup false a.m a.e a.sticky != n)

/-- R73, R74: one element. 16-bit types round to nearest; F32 returns the bracketing value that `outer` selects.
DESIGN CHOICE (log 3). -/
def special (fn : Nat) (t : Ty) (ftz : Bool) (outer : Bool) (n : Nat) : Nat :=
  let f := fmtOf t
  match f.decode n with
  | .nan => f.nan
  | .inf neg => specialInf f fn neg
  | .fin neg m e =>
    if m = 0 then specialZero f fn neg
    else match specialOf fn neg m e with
      | none => f.nan
      | some a =>
        if beyondMax f a then f.withSign a.neg f.infEnc
        else
          let rm : Rnd := if t = .f32 then (if outer then (if a.neg then .rdn else .rup) else .rtz) else .rne
          roundFin f rm ftz a.neg a.m a.e a.sticky

end Sys2Proof.Machine
end

