-- ==== Sys2Proof/Machine/FloatLane.lean ====
section
/-! DEFINITION. The floating-point words (Table 6-4, R126 to R131) and the special functions (Table 6-5, R132). -/

namespace Sys2Proof.Machine

/-- The writes of a word of three sources, computed element by element from encodings read under `.DAZ`. -/
def floatWrites (c : Ctx) (m : FMode) (r : Lane) (g : Fmt → Nat → Nat → Nat → Nat) : List RegWrite :=
  let f := fmtOf r.ty
  laneWrites c r .n32 .n32 (perElem r.ty (fun x y z => g f (f.daz m.daz x) (f.daz m.daz y) (f.daz m.daz z)))

/-- The same for a unary word (R116). -/
def floatWrites1 (c : Ctx) (m : FMode) (r : Lane) (g : Fmt → Nat → Nat) : List RegWrite :=
  let f := fmtOf r.ty
  unaryWrites c r .n32 .n32 (fun x => perElem r.ty (fun x _ _ => g f (f.daz m.daz x)) x 0 0)

def execFadd (m : FMode) (r : Lane) (s : State) : Out :=
  issue s (fun c => c.write s (floatWrites c m r (fun f x y _ => roundFp f m.rnd m.ftz (sumFp (m.rnd == .rdn) [f.decode x, f.decode y]))))

def execFsub (m : FMode) (r : Lane) (s : State) : Out :=
  issue s (fun c => c.write s (floatWrites c m r (fun f x y _ => roundFp f m.rnd m.ftz (sumFp (m.rnd == .rdn) [f.decode x, (f.decode y).neg]))))

def execFmul (m : FMode) (r : Lane) (s : State) : Out :=
  issue s (fun c => c.write s (floatWrites c m r (fun f x y _ => roundFp f m.rnd m.ftz ((f.decode x).mul (f.decode y)))))

def execFfma (m : FMode) (r : Lane) (s : State) : Out :=
  issue s (fun c => c.write s (floatWrites c m r (fun f x y z =>
    roundFp f m.rnd m.ftz (sumFp (m.rnd == .rdn) [(f.decode x).mul (f.decode y), f.decode z]))))

/-- R128: under `.FTZ` a subnormal result becomes a zero of its sign. -/
def execFmin (m : FMode) (r : Lane) (s : State) : Out :=
  issue s (fun c => c.write s (floatWrites c m r (fun f x y _ => f.daz m.ftz (minMax f true x y))))

def execFmax (m : FMode) (r : Lane) (s : State) : Out :=
  issue s (fun c => c.write s (floatWrites c m r (fun f x y _ => f.daz m.ftz (minMax f false x y))))

/-- R129: in scalar form one test, written to every lane of EFF. -/
def execFcmp (cc : Cond) (m : FMode) (r : Lane) (s : State) : Out :=
  issue s (fun c => c.write s [condWrite c r (fun l =>
    let f := fmtOf r.ty
    fCond cc f (f.daz m.daz (srcA c.w r r.ty l)) (f.daz m.daz (srcB c.w r r.ty l)))])

/-- R130. -/
def execFclass (cls : BitVec 10) (m : FMode) (r : Lane) (s : State) : Out :=
  issue s (fun c => c.write s [condWrite c r (fun l =>
    cls.getLsbD (classBit (fmtF32.daz m.daz (srcU c.w r r.ty l))))])

/-- R127: an integral result is never tiny. -/
def execFrint (m : FMode) (r : Lane) (s : State) : Out :=
  issue s (fun c => c.write s (floatWrites1 c m r (fun f x => rintFp f m.rnd (f.decode x))))

/-- Class S: the result lands later (R118). -/
def execFdiv (m : FMode) (r : Lane) (s : State) : Out :=
  issue s (fun c => c.later s (dstRegs .n32 (r.form == .scal) r.dst.toNat)
    (floatWrites c m r (fun f x y _ => divFp f m.rnd m.ftz (f.decode x) (f.decode y))))

def execFsqrt (m : FMode) (r : Lane) (s : State) : Out :=
  issue s (fun c => c.later s (dstRegs .n32 (r.form == .scal) r.dst.toNat)
    (floatWrites1 c m r (fun f x => sqrtFp f m.rnd m.ftz (f.decode x))))

/-- R131: two 16-bit elements of each source, an F32 addend, one rounding to F32. -/
def dot2 (m : FMode) (t : Ty) (a b z : Nat) : Nat :=
  let f := fmtOf t
  let el (x : Nat) := f.decode (f.daz m.daz (x % 65536))
  roundFp fmtF32 m.rnd m.ftz (sumFp (m.rnd == .rdn)
    [(el a).mul (el b), (el (a / 65536)).mul (el (b / 65536)), fmtF32.decode (fmtF32.daz m.daz z)])

def execFdot2 (m : FMode) (r : Lane) (s : State) : Out :=
  issue s (fun c => c.write s (laneWrites c r .n32 .n32 (dot2 m r.ty)))

/-- A special function of code `fn`: class S, one source, no rounding field (R132). DESIGN CHOICE (log 3). -/
def specialWord (fn : Nat) (m : FMode) (r : Lane) (s : State) : Out :=
  issue s (fun c => c.later s (dstRegs .n32 (r.form == .scal) r.dst.toNat)
    (floatWrites1 c m r (fun _ x => special fn r.ty m.ftz (Config.specialOuter fn m.ftz m.daz (BitVec.ofNat 32 x)) x)))

def execExp2 (m : FMode) (r : Lane) (s : State) : Out := specialWord 0 m r s
def execLog2 (m : FMode) (r : Lane) (s : State) : Out := specialWord 1 m r s
def execRcp (m : FMode) (r : Lane) (s : State) : Out := specialWord 2 m r s
def execRsq (m : FMode) (r : Lane) (s : State) : Out := specialWord 3 m r s
def execSin (m : FMode) (r : Lane) (s : State) : Out := specialWord 4 m r s
def execCos (m : FMode) (r : Lane) (s : State) : Out := specialWord 5 m r s
def execTanh (m : FMode) (r : Lane) (s : State) : Out := specialWord 6 m r s
def execSigm (m : FMode) (r : Lane) (s : State) : Out := specialWord 7 m r s
def execErf (m : FMode) (r : Lane) (s : State) : Out := specialWord 8 m r s

end Sys2Proof.Machine
end

