-- ==== Sys2Proof/Machine/IntLane.lean ====
section
/-! DEFINITION. The integer, bitwise, move and hash words (Table 6-2, R119 to R125). -/

namespace Sys2Proof.Machine

/-- A class A word of two sources. -/
def intWord (r : Lane) (s : State) (f : Ty → Nat → Nat → Nat) : Out :=
  issue s (fun c => c.write s (laneWrites c r r.ty r.ty (fun a b _ => f r.ty a b)))

def intWord3 (r : Lane) (s : State) (f : Ty → Nat → Nat → Nat → Nat) : Out :=
  issue s (fun c => c.write s (laneWrites c r r.ty r.ty (f r.ty)))

def intWord1 (r : Lane) (s : State) (f : Ty → Nat → Nat) : Out :=
  issue s (fun c => c.write s (unaryWrites c r r.ty r.ty (f r.ty)))

def execIadd (r : Lane) (s : State) : Out := intWord r s iAdd
def execIsub (r : Lane) (s : State) : Out := intWord r s iSub
def execIsadd (r : Lane) (s : State) : Out := intWord r s iSadd
def execImul (r : Lane) (s : State) : Out := intWord r s iMul
def execImulh (r : Lane) (s : State) : Out := intWord r s iMulh
def execImad (r : Lane) (s : State) : Out := intWord3 r s iMad
def execImin (r : Lane) (s : State) : Out := intWord r s iMin
def execImax (r : Lane) (s : State) : Out := intWord r s iMax
def execIabs (r : Lane) (s : State) : Out := intWord1 r s iAbs
def execIneg (r : Lane) (s : State) : Out := intWord1 r s iNeg
def execAnd (r : Lane) (s : State) : Out := intWord r s (fun _ a b => a &&& b)
def execOr (r : Lane) (s : State) : Out := intWord r s (fun _ a b => a ||| b)
def execXor (r : Lane) (s : State) : Out := intWord r s (fun _ a b => a ^^^ b)
def execNot (r : Lane) (s : State) : Out := intWord1 r s iNot
def execShl (r : Lane) (s : State) : Out := intWord r s iShl
def execShr (r : Lane) (s : State) : Out := intWord r s iShr
def execShra (r : Lane) (s : State) : Out := intWord r s iShra
def execRot (r : Lane) (s : State) : Out := intWord r s iRot
def execPopc (r : Lane) (s : State) : Out := intWord1 r s iPopc
def execClz (r : Lane) (s : State) : Out := intWord1 r s iClz
def execBrev (r : Lane) (s : State) : Out := intWord1 r s iBrev
def execBfx (r : Lane) (s : State) : Out := intWord r s iBfx
def execBfi (r : Lane) (s : State) : Out := intWord3 r s iBfi
def execMov (r : Lane) (s : State) : Out := intWord1 r s (fun _ a => a)

/-- R121: sum and carry of each lane of EFF; lanes outside EFF keep their carry. -/
def execIaddc (r : Lane) (s : State) : Out :=
  issue s (fun c =>
    let cin (l : Nat) : Bool := (c.w.readM r.sc.toNat).getLsbD l
    let sums := (c.lanes r.h).flatMap (fun l =>
      typeWrites r.ty false r.dst.toNat l (addCarry r.ty (srcA c.w r r.ty l) (srcB c.w r r.ty l) (cin l)))
    let carries := (c.lanes r.h).filter (fun l => carryOut r.ty (srcA c.w r r.ty l) (srcB c.w r r.ty l) (cin l))
    c.write s (sums ++ [.m r.sc.toNat (c.eff r.h) (maskOf carries)]))

/-- R123; in scalar form one test fills every lane of EFF. -/
def execIcmp (cc : Cond) (r : Lane) (s : State) : Out :=
  issue s (fun c => c.write s [condWrite c r (fun l => iCond cc r.ty (srcA c.w r r.ty l) (srcB c.w r r.ty l))])

def execSel (r : Lane) (s : State) : Out :=
  issue s (fun c => c.write s ((c.lanes r.h).flatMap (fun l =>
    typeWrites r.ty false r.dst.toNat l
      (if (c.w.readM r.sc.toNat).getLsbD l then srcA c.w r r.ty l else srcB c.w r r.ty l))))

/-- R124. -/
def execMovi (h : Hdr) (dst : BitVec 8) (signed scalar : Bool) (imm : BitVec 32) (s : State) : Out :=
  issue s (fun c =>
    let t : Ty := if signed then .i32 else .n32
    c.write s ((if scalar then (if c.any h then [0] else []) else c.lanes h).flatMap
      (fun l => typeWrites t scalar dst.toNat l imm.toNat)))

/-- R125: class S, the result lands later. -/
def execNhash (r : Lane) (s : State) : Out :=
  issue s (fun c => c.later s (dstRegs r.ty (r.form == .scal) r.dst.toNat) (laneWrites c r r.ty r.ty (fun a b _ => nhash a b)))

end Sys2Proof.Machine
end

