-- ==== Sys2Proof/Machine/Masks.lean ====
section
/-! DEFINITION. The mask group (Table 5-4, R111) and the special registers (Table 5-5, R112 to R114). -/

namespace Sys2Proof.Machine

/-- A lane-wise mask word: the lanes of EFF of `m[DST]`. -/
def maskWord (r : Lane) (s : State) (f : Mask → Mask → Mask) : Out :=
  issue s (fun c => c.write s [.m r.dst.toNat (c.eff r.h) (f (c.w.readM r.sa.toNat) (c.w.readM r.sb.toNat))])

/-- A counting mask word: written once if EFF is not empty. -/
def maskCount (r : Lane) (s : State) (f : Mask → Mask → Nat) : Out :=
  issue s (fun c => c.write s (if c.any r.h then [.s r.dst.toNat (BitVec.ofNat 64 (f (c.w.readM r.sa.toNat) (c.eff r.h)))] else []))

def execMand (r : Lane) (s : State) : Out := maskWord r s (fun a b => a &&& b)
def execMor (r : Lane) (s : State) : Out := maskWord r s (fun a b => a ||| b)
def execMxor (r : Lane) (s : State) : Out := maskWord r s (fun a b => a ^^^ b)
def execMnot (r : Lane) (s : State) : Out := maskWord r s (fun a _ => ~~~a)
def execMpop (r : Lane) (s : State) : Out := maskCount r s (fun a e => popcount 64 (a &&& e).toNat)
def execMany (r : Lane) (s : State) : Out := maskCount r s (fun a e => if a &&& e ≠ 0 then 1 else 0)
def execMall (r : Lane) (s : State) : Out := maskCount r s (fun a e => if a &&& e = e then 1 else 0)

/-- What `CYCLES` counts: core cycles, or words issued under the determinism flag (R113). -/
def Ctx.count (c : Ctx) (s : State) : Nat := if c.det then c.w.retired else c.w.cyc c.b.core s.tick

/-- Table 5-5. `CHARGE` is what the words issued before the reading one have charged. DESIGN CHOICE (log 95). -/
def sregVal (c : Ctx) (s : State) (lane : Nat) : SReg → BitVec 64
  | .lane => BitVec.ofNat 64 lane
  | .width => BitVec.ofNat 64 c.w.width
  | .wave => BitVec.ofNat 64 (waveNo c.id c.w)
  | .block => BitVec.ofNat 64 c.id.block
  | .nblock => BitVec.ofNat 64 c.l.offer.nblock
  | .core => BitVec.ofNat 64 c.b.core
  | .cluster => BitVec.ofNat 64 (clusterOf c.b.core)
  | .cycles => BitVec.ofNat 64 (c.count s) + c.w.cycOff
  | .retired => BitVec.ofNat 64 c.w.retired
  | .charge => BitVec.ofNat 64 c.w.charge
  | .features => if c.det then c.l.offer.feats else s.feat c.b.core
  | .sca => 0x03050606

def execSrd (h : Hdr) (_keep : BitVec 3) (scalar : Bool) (code : SReg) (dst : BitVec 8) (s : State) : Out :=
  issue s (fun c => c.write s
    (if scalar then (if c.any h then [.s dst.toNat (sregVal c s 0 code)] else [])
     else (c.lanes h).flatMap (fun l => typeWrites (if sregWide code then .n64 else .n32) false dst.toNat l (sregVal c s l code).toNat)))

/-- R114: a vector source is the pair of the lowest lane of EFF. Under the determinism flag the word itself counts among
those issued since the write. DEDUCED (log 87). -/
def execSwr (h : Hdr) (_keep : BitVec 3) (scalar : Bool) (_code : SReg) (src : BitVec 8) (s : State) : Out :=
  issue s (fun c =>
    match c.lanes h with
    | [] => c.done s id
    | l :: _ =>
      let x := if scalar then c.w.readS src.toNat else c.w.readV64 src.toNat l
      c.done s (fun w => { w with cycOff := x - BitVec.ofNat 64 (c.count s) }))

end Sys2Proof.Machine
end

