-- ==== Sys2Proof/Machine/Paging.lean ====
section
/-! DEFINITION. Page migration (R182), the hot-page tracker (R183, R184), uncorrectable errors that no access finds
(R176). Pages are numbered by place / 65536. -/

namespace Sys2Proof.Machine

/-! ### Migration (R182) -/

def absentPage (p : Nat) : Bool := absent (65536 * p)

/-- The page's bytes are on the move, or other bytes on the move to it. -/
def moving (s : State) (p : Nat) : Bool := s.migrations.any (fun g => g.old == p || g.new_ == p)

/-- The indirection table names the page or the frame (R184). -/
def indirect (s : State) (p : Nat) : Bool := s.hot.any (fun h => h.1 == p || h.2 == p)

def poolFrames (q : Part) : List Nat := (List.range q.hotcount.toNat).map (fun i => q.hotbase.toNat / 65536 + i)

/-- A place that a migration may fill: it exists, is not locked, and is of no tracker's pool. DEDUCED (log 59). -/
def openPage (s : State) (p : Nat) : Bool :=
  !absentPage p && !moving s p && !lockedPage s (pageAt s p) && !indirect s p &&
    s.parts.all (fun q => !(q.2.hotbase.toNat / 65536 ≤ p && p < q.2.hotbase.toNat / 65536 + q.2.hotcount.toNat))

/-- MIGRATION_START: the host names a page by its tier-physical place, and its new place; the bitmap starts clear. The tiers
that launches are priced for bar no migration (R173). DEDUCED (log 59). A page that the tracker holds or moves, one that the
indirection table names, and a place that may not be filled start nothing. DESIGN CHOICE (log 59). -/
def execMigrationStart (page target : Nat) (s : State) : Out :=
  .next (if absentPage page || moving s page || indirect s page || !openPage s target || page == target then s
    else { s with migrations := s.migrations ++ [{ old := page, new_ := target, done := [], part := 16, hot := false }] })

/-- MIGRATION_LINE_COPY: the lowest line whose bit is clear. -/
def execMigrationLineCopy (page : Nat) (s : State) : Out :=
  match s.migrations.find? (fun g => g.old == page) with
  | none => .next s
  | some g => match (List.range 512).find? (fun i => !g.done.contains i) with
    | none => .next s
    | some i => .next (copyLine s g i)

/-- MIGRATION_SWITCH: all lines are copied. -/
def execMigrationSwitch (page : Nat) (s : State) : Out :=
  match s.migrations.find? (fun g => g.old == page) with
  | none => .next s
  | some g => .next (if (List.range 512).all (fun i => g.done.contains i) then switchPage s g else s)

/-! ### The hot-page tracker (R183, R184) -/

/-- Pages that a partition's pool holds, each with its frame. -/
def heldHot (s : State) (q : Part) : List (Nat × Nat) := s.hot.filter (fun m => (poolFrames q).contains m.2)

def freeFrames (s : State) (q : Part) : List Nat :=
  (poolFrames q).filter (fun f => !moving s f && !s.hot.any (fun m => m.2 == f) && !lockedPage s (pageAt s f))

/-- A choice of pages to move in: at most 16, none moved or moving, and no other such page is counted more often. -/
def hotChoice (s : State) (q : Part) (pages : List Nat) : Bool :=
  let open_ (p : Nat) : Bool := 2 ^ 25 ≤ p && !moving s p && !indirect s p
  pages.length ≤ 16 && pages.Nodup && pages.all (fun p => open_ p && (tfind q.hotCount p).isSome) &&
    q.hotCount.all (fun c => pages.contains c.1 || !open_ c.1 || pages.all (fun p => c.2 ≤ tget 0 q.hotCount p))

/-- Pages in rising order of their counts. -/
def insertCounted (q : Part) (x : Nat × Nat) : List (Nat × Nat) → List (Nat × Nat)
  | [] => [x]
  | y :: t => if tget 0 q.hotCount x.1 ≤ tget 0 q.hotCount y.1 then x :: y :: t else y :: insertCounted q x t

/-- HOT_PAGE_SCAN: while the pool lacks frames for the chosen pages, the least-counted pages that it holds start back to
their own; when it has them the chosen pages start to move in and the counts are cleared. DEDUCED (log 60). -/
def execHotPageScan (part : Nat) (order : List Nat) (s : State) : Out :=
  let q := s.part part
  let held := heldHot s q
  let leaving := (held.filter (fun m => moving s m.2)).length
  let free := (freeFrames s q).length
  if !q.ctrl.getLsbD 2 || q.accesses < 2 ^ 24 || !hotChoice s q order || free + held.length < order.length then .next s
  else if free < order.length then
    let out := ((held.filter (fun m => !moving s m.2)).foldr (insertCounted q) []).take (order.length - free - leaving)
    .next { s with migrations := s.migrations ++ out.map (fun m => { old := m.2, new_ := m.1, done := [], part := part, hot := true }) }
  else
    let frames := (ranked s.tick (freeFrames s q)).take order.length
    .next { s.modPart part (fun q => { q with hotCount := [], accesses := 0 }) with
      migrations := s.migrations ++ (order.zip frames).map (fun p => { old := p.1, new_ := p.2, done := [], part := part, hot := true }) }

/-! ### Errors (R176) -/

/-- The unit of 32 bytes that a device address of a partition names. -/
def unitAt (s : State) (p addr : Nat) : Option Nat :=
  match (s.part p).map.targetOf s addr with
  | some t => if t.1 = 2 then none else some ((t.1 * 2 ^ 41 + t.2.2.1) / 32)
  | none => none

/-- SCRUB_ERROR: the unit holds an uncorrectable error; the host is told of it by its device address. Where the address
does not name the unit, nobody has found the error yet. An error that the code corrects is counted for its stack or
channel, and the count goes over the management path (R174). DEDUCED (log 61). -/
def execScrubError (e : MemError) (part addr : Nat) (s : State) : Out :=
  .next (match e with
    | .corrected place => if place < 40 then
        let n := tget 0 s.corrected place + 1
        report { s with corrected := tput s.corrected place n } 7 place n
      else s
    | .uncorrected u =>
      let t := { s with bad := insertNat u s.bad }
      if unitAt s part addr = some u then report t 3 0 addr else t)

end Sys2Proof.Machine
end

