-- ==== Sys2Proof/Machine/Paired.lean ====
section
/-! DEFINITION. The paired word (R47 to R50): the 64 half operations of Table 3-8, both halves from one state. -/

namespace Sys2Proof.Machine

/-- Rounding and flushing of a half (R49). -/
def halfMode (x : PHalf) : FMode :=
  { rnd := match (x.sub.extractLsb' 2 2).toNat with | 0 => .rne | 1 => .rtz | 2 => .rup | _ => .rdn,
    ftz := x.sub.getLsbD 1, daz := x.sub.getLsbD 0 }

/-- Type of the result of an operation, for its extension in scalar form (R65). -/
def halfTy (op : Nat) : Ty :=
  if [0x02, 0x03, 0x04, 0x06, 0x07, 0x09, 0x0B, 0x0D, 0x0E, 0x15, 0x2A, 0x37, 0x39, 0x3E, 0x3F].contains op then .i32
  else if op = 0x2D then .bf16
  else if op = 0x2F then .f16
  else .n32

/-- A floating-point operation of two sources, element by element. -/
def halfFloat (t : Ty) (m : FMode) (g : Fmt → Nat → Nat → Nat) (a b : Nat) : Nat :=
  let f := fmtOf t
  perElem t (fun x y _ => g f (f.daz m.daz x) (f.daz m.daz y)) a b 0

def halfAdd (t : Ty) (m : FMode) : Nat → Nat → Nat :=
  halfFloat t m (fun f x y => roundFp f m.rnd m.ftz (sumFp (m.rnd == .rdn) [f.decode x, f.decode y]))
def halfSub (t : Ty) (m : FMode) : Nat → Nat → Nat :=
  halfFloat t m (fun f x y => roundFp f m.rnd m.ftz (sumFp (m.rnd == .rdn) [f.decode x, (f.decode y).neg]))
def halfMul (t : Ty) (m : FMode) : Nat → Nat → Nat :=
  halfFloat t m (fun f x y => roundFp f m.rnd m.ftz ((f.decode x).mul (f.decode y)))
def halfMin (t : Ty) (m : FMode) : Nat → Nat → Nat := halfFloat t m (fun f x y => f.daz m.ftz (minMax f true x y))
def halfMax (t : Ty) (m : FMode) : Nat → Nat → Nat := halfFloat t m (fun f x y => f.daz m.ftz (minMax f false x y))
def halfRint (rm : Rnd) (m : FMode) (b : Nat) : Nat := rintFp fmtF32 rm (fmtF32.decode (fmtF32.daz m.daz b))
/-- A conversion; a 16-bit source is element 0 of its register. -/
def halfCvt (st dt : Ty) (m : FMode) (b : Nat) : Nat := convert st dt m.rnd (b % 2 ^ st.bits)

/-- Table 3-8: the operation on the first source `a` (DST) and the second `b` (SRC or the immediate). -/
def halfOp (op : Nat) (m : FMode) (a b : Nat) : Nat :=
  match op with
  | 0x01 => b
  | 0x02 => iAdd .i32 a b | 0x03 => iSub .i32 a b | 0x04 => iSadd .i32 a b | 0x05 => iSadd .n32 a b
  | 0x06 => iMul .i32 a b | 0x07 => iMulh .i32 a b | 0x08 => iMulh .n32 a b
  | 0x09 => iMin .i32 a b | 0x0A => iMin .n32 a b | 0x0B => iMax .i32 a b | 0x0C => iMax .n32 a b
  | 0x0D => iAbs .i32 b | 0x0E => iNeg .i32 b
  | 0x0F => a &&& b | 0x10 => a ||| b | 0x11 => a ^^^ b | 0x12 => iNot .n32 b
  | 0x13 => iShl .n32 a b | 0x14 => iShr .n32 a b | 0x15 => iShra .i32 a b | 0x16 => iRot .n32 a b
  | 0x17 => iPopc .n32 b | 0x18 => iClz .n32 b | 0x19 => iBrev .n32 b
  | 0x1A => halfAdd .f32 m a b | 0x1B => halfSub .f32 m a b | 0x1C => halfMul .f32 m a b
  | 0x1D => halfMin .f32 m a b | 0x1E => halfMax .f32 m a b
  | 0x1F => halfAdd .f16 m a b | 0x20 => halfSub .f16 m a b | 0x21 => halfMul .f16 m a b
  | 0x22 => halfMin .f16 m a b | 0x23 => halfMax .f16 m a b
  | 0x24 => halfAdd .bf16 m a b | 0x25 => halfSub .bf16 m a b | 0x26 => halfMul .bf16 m a b
  | 0x27 => halfMin .bf16 m a b | 0x28 => halfMax .bf16 m a b
  | 0x29 => halfCvt .i32 .f32 m b | 0x2A => halfCvt .f32 .i32 m b | 0x2B => halfCvt .n32 .f32 m b
  | 0x2C => halfCvt .f32 .n32 m b | 0x2D => halfCvt .f32 .bf16 m b | 0x2E => halfCvt .bf16 .f32 m b
  | 0x2F => halfCvt .f32 .f16 m b | 0x30 => halfCvt .f16 .f32 m b
  | 0x31 => halfRint .rne m b | 0x32 => halfRint .rtz m b | 0x33 => halfRint .rup m b | 0x34 => halfRint .rdn m b
  | 0x35 => iShl .n32 a b | 0x36 => iShr .n32 a b | 0x37 => iShra .i32 a b | 0x38 => iRot .n32 a b
  | 0x39 => iAdd .i32 a b | 0x3A => b | 0x3B => a &&& b | 0x3C => a ||| b | 0x3D => a ^^^ b
  | 0x3E => iMin .i32 a b | _ => iMax .i32 a b

def halfImm (op : Nat) : Bool := 0x35 ≤ op
/-- R48: the immediate as a 32-bit operand. -/
def immOf (op : Nat) (src : BitVec 8) : Nat :=
  if op = 0x39 || op = 0x3A || op = 0x3E || op = 0x3F then (src.signExtend 32).toNat else src.toNat

/-- R50: the mask of a half. -/
def halfMask (c : Ctx) (x : PHalf) : Mask := c.sl.path.mask &&& c.w.readM x.pred.toNat

/-- The writes of one half. -/
def halfWrites (c : Ctx) (x : PHalf) : List RegWrite :=
  let op := x.op.toNat
  let sc := x.sub.getLsbD 5
  if op = 0 then []
  else
    let turns := if sc then (if halfMask c x != 0 then [0] else []) else lanesOf c.w.width (halfMask c x)
    turns.flatMap (fun l =>
      let a := readType c.w .n32 sc x.dst.toNat l
      let b := if halfImm op then immOf op x.src else readType c.w .n32 (sc || x.sub.getLsbD 4) x.src.toNat l
      typeWrites (halfTy op) sc x.dst.toNat l (halfOp op (halfMode x) a b))

def execPairedWord (x y : PHalf) (s : State) : Out := issue s (fun c => c.write s (halfWrites c x ++ halfWrites c y))

end Sys2Proof.Machine
end

