-- ==== Sys2Proof/Machine/Perform.lean ====
section
/-! DEFINITION. The banks perform the scratchpad word at the head of a wave's queue (R154, R155). -/

namespace Sys2Proof.Machine

/-- SCRATCHPAD_ACCESS_PERFORM: the next part of the word; an `LDS`, `QPUSH` or `QPOP` waits for its own completion event
when it cannot be performed now. -/
def execScratchpadAccessPerform (w : WaveId) (s : State) : Out :=
  match spHead s w, s.launch w.serial with
  | some (x, b, op), some l =>
    .next (match op.kind with
      | .qpush _ _ => performPush s w
      | .qpop _ _ => performPop s w
      | .mbld _ _ _ _ _ _ _ => performMatrix s w b op
      | .mqma _ _ _ _ _ _ => performMatrix s w b op
      | .mbcast _ _ _ _ _ _ => performMatrix s w b op
      | .sctxr _ _ _ _ => performSweep s w x b l.offer.kernel op
      | .sctxw _ _ => performSweep s w x b l.offer.kernel op
      | .swctx _ => performSweep s w x b l.offer.kernel op
      | .swake _ _ => performSweep s w x b l.offer.kernel op
      | .snbr _ _ _ _ => performSweep s w x b l.offer.kernel op
      | _ => performPlain s w)
  | _, _ => .next s

end Sys2Proof.Machine
end

