-- ==== Sys2Proof/Machine/Pipeline.lean ====
section
/-! DEFINITION. The pipeline's own steps: a result lands (R118, R54), a fetched word fails its check bits, a word that is
not an instruction is decoded (R61). -/

namespace Sys2Proof.Machine

/-- A register write names a latched register (R56). -/
def latchHit (x : Latch) : RegWrite → Bool
  | .v r _ _ => !x.scal && x.reg == r
  | .s r _ => x.scal && x.reg == r
  | .m _ _ _ => false

/-- The latch positions whose register is written are emptied, whichever wave of the slot they are of (R56).
DESIGN CHOICE (log 28). -/
def unlatch (s : State) (slot : Nat) (ws : List RegWrite) : State :=
  { s with latches := tset [] s.latches slot ((tget [] s.latches slot).filter (fun x => !ws.any (latchHit x))) }

/-- A complete result of a wave is written and leaves the scoreboard. -/
def land (s : State) (id : WaveId) (core tag : Nat) : State :=
  match s.wave id with
  | some w => (match w.pend.find? (fun p => p.tag == tag && p.ready) with
    | some p =>
      unlatch (s.setWave id ({ w with pend := w.pend.filter (fun q => q.tag != tag) }.applyWrites p.writes))
        (4 * core + id.wave % 4) p.writes
    | none => s)
  | none => s

/-- RESULT_WRITEBACK: the result of tag `tag` of the wave is written; stable loads read as it lands (R200).
DESIGN CHOICE (log 19). -/
def execResultWriteback (w : WaveId) (tag : Nat) (s : State) : Out :=
  match s.block w.serial w.block with
  | some b => .next (if b.place == .resident then land (performStable s w tag) w b.core tag else s)
  | none => .next s

/-- An imprecise trap of a path's word, attributed to MACHINE, that names the word (R61). -/
def raiseWord (c : Ctx) (s : State) (code : Nat) (word : BitVec 64) : State := raise c s code aMACHINE 0 0 word

/-- FETCH_CHECK_ERROR: the word is fetched again; a second failure is SOFT (R61). -/
def execFetchCheckError (w : WaveId) (slotB : Bool) (second : Bool) (s : State) : Out :=
  onPath s w slotB (fun c =>
    if !second then s.modWave w (fun x => x.setSlot slotB (some { c.sl with retry := true }))
    else if c.sl.retry then
      raiseWord c s cSOFT (BitVec.ofNat 64 (ofLeBytes ((locsOf (access s (s.part c.l.offer.part).map
        (c.l.offer.image + c.sl.path.pc.setWidth 64) 8 .load)).map (memByte s))))
    else s)

/-- ILLOP: a word that is not an instruction is decoded (R61). -/
def execIllop (w : WaveId) (slotB : Bool) (word : BitVec 64) (s : State) : Out :=
  onPath s w slotB (fun c => if (decode word).isNone then raiseWord c s cILLOP word else s)

end Sys2Proof.Machine
end

