-- ==== Sys2Proof/Machine/Flow.lean ====
section
/-! DEFINITION. The Nose's analysis of control flow: static paths, control structure (R98), lookahead promises (R53),
static allotments (R140), the costliest path and the deepest stack (R99). Code positions here are word indices. -/

namespace Sys2Proof.Machine

/-- A kernel's code with what its record says of control: call targets with their depth, tables, resume positions, limits. -/
structure Prog where
  ins : List Instr
  recurse : List (Nat × Nat)
  tables : List (List Nat)
  resumes : List (List Nat)
  limits : List Nat

def Prog.len (g : Prog) : Nat := g.ins.length
def Prog.at_ (g : Prog) (p : Nat) : Instr := g.ins.getD p .exit

/-- The word that a branch of the word at `p` names; a position before the code reads as the code's end. -/
def Prog.dest (g : Prog) (p : Nat) (t : BitVec 24) : Nat :=
  let x : Int := p + t.toInt
  if 0 ≤ x then x.toNat else g.len

/-- The words at which control starts: the kernel's entry and every resume position (R92, R328). -/
def Prog.starts (g : Prog) : List Nat := 0 :: g.resumes.flatten

/-! ### Static paths (R52, R327) -/

/-- Targets of a call. -/
def Prog.calls (g : Prog) (p : Nat) : List Nat :=
  match g.at_ p with
  | .call t => [g.dest p t]
  | .callt tbl _ => g.tables.getD tbl.toNat []
  | _ => []

/-- Successors of a word within its function; `rs` are the functions that return. -/
def Prog.succ (g : Prog) (rs : List Nat) (p : Nat) : List Nat :=
  match g.at_ p with
  | .exit => [] | .ret => [] | .trap _ => []
  | .bra t => [g.dest p t] | .loopx _ t => [g.dest p t] | .yieldc _ t _ => [g.dest p t] | .loopb _ t _ => [g.dest p t]
  | .brc _ _ t => [p + 1, g.dest p t] | .brd _ _ t _ => [p + 1, g.dest p t] | .loopn _ t _ => [p + 1, g.dest p t]
  | .call t => if rs.contains (g.dest p t) then [p + 1] else []
  | .callt tbl _ => if (g.tables.getD tbl.toNat []).any (fun f => rs.contains f) then [p + 1] else []
  | _ => [p + 1]

/-- Every position that steps of `next` lead to from the positions `todo`; each unit of fuel takes up a new one. -/
def closure (next : Nat → List Nat) (n : Nat) : Nat → List Nat → List Nat → List Nat
  | 0, _, seen => seen
  | f + 1, todo, seen =>
    match todo.filter (fun p => p < n && !seen.contains p) with
    | [] => seen
    | p :: rest => closure next n f (next p ++ rest) (p :: seen)

/-- Positions of a function, or of the code from a start, without its callees. -/
def Prog.intra (g : Prog) (rs : List Nat) (starts : List Nat) : List Nat := closure (g.succ rs) g.len (g.len + 1) starts []

def isRet : Instr → Bool
  | .ret => true
  | _ => false

/-- Call targets that occur in the code. -/
def Prog.fns (g : Prog) : List Nat := ((List.range g.len).flatMap g.calls).eraseDups

/-- The functions that return, `n` calls deep. -/
def Prog.returning (g : Prog) : Nat → List Nat
  | 0 => []
  | n + 1 => let rs := g.returning n; g.fns.filter (fun f => (g.intra rs [f]).any (fun p => isRet (g.at_ p)))

def Prog.rets (g : Prog) : List Nat := g.returning (g.fns.length + 1)

/-- Every word that static paths reach from some starts, through calls and back. -/
def Prog.reach (g : Prog) (starts : List Nat) : List Nat :=
  closure (fun p => g.succ g.rets p ++ g.calls p) g.len (g.len + 1) starts []

/-- The words that follow a `RET`: every return address of a call whose target reaches it. -/
def Prog.afterRet (g : Prog) (p : Nat) : List Nat :=
  ((List.range g.len).filter (fun q => (g.calls q).any (fun f => (g.intra g.rets [f]).contains p))).map (fun q => q + 1)

/-- The next words of static paths: into the callee of a call, back to each call site after `RET` (R52).
DEDUCED (log 44). -/
def Prog.next (g : Prog) (p : Nat) : List Nat :=
  match g.at_ p with
  | .call _ => g.calls p
  | .callt _ _ => g.calls p
  | .ret => g.afterRet p
  | _ => g.succ g.rets p

/-! ### Loop extents and divergent regions (R98) -/

/-- A loop extent: top, closing word, loop register, whether it closes with `LOOPN`. -/
structure Extent where
  top : Nat
  close : Nat
  reg : Nat
  counted : Bool
deriving DecidableEq, Repr

def Extent.has (e : Extent) (p : Nat) : Bool := e.top ≤ p && p ≤ e.close

/-- The extents whose closing words lie on static paths. -/
def Prog.extents (g : Prog) (live : List Nat) : List Extent :=
  live.filterMap (fun p => match g.at_ p with
    | .loopb l t _ => if g.dest p t ≤ p then some { top := g.dest p t, close := p, reg := l.toNat, counted := false } else none
    | .loopn l t _ => if g.dest p t ≤ p then some { top := g.dest p t, close := p, reg := l.toNat, counted := true } else none
    | _ => none)

/-- The innermost extent that holds a word. -/
def innermost (es : List Extent) (p : Nat) : Option Extent :=
  (es.filter (fun e => e.has p)).foldl (fun b e => match b with
    | none => some e
    | some x => if x.top < e.top || (x.top = e.top && e.close < x.close) then some e else some x) none

/-- Words of one arm of a region, up to its join address. -/
def Prog.arm (g : Prog) (start j : Nat) : List Nat :=
  closure (fun p => (g.succ g.rets p).filter (fun q => q != j)) g.len (g.len + 1) ([start].filter (fun q => q != j)) []

/-- An arm's words with those of the functions it calls. -/
def Prog.armAll (g : Prog) (start j : Nat) : List Nat :=
  let a := g.arm start j
  a ++ g.reach (a.flatMap g.calls)

def isJoin : Instr → Bool
  | .join => true
  | _ => false

/-- What the checks of control structure need at every word. -/
structure Shape where
  g : Prog
  live : List Nat
  ext : List Extent
  /-- Words reached from the starts without entering a callee. -/
  base : List Nat

def Prog.shape (g : Prog) : Shape :=
  let live := g.reach g.starts
  { g := g, live := live, ext := g.extents live, base := g.intra g.rets g.starts }

/-- Only `LOOPB` and `LOOPN` go backward. -/
def Shape.badEdge (x : Shape) (p : Nat) : Bool :=
  match x.g.at_ p with
  | .loopb _ t _ => p < x.g.dest p t
  | .loopn _ t _ => p < x.g.dest p t
  | .call _ => false
  | i => match branchOf i with | some t => x.g.dest p t ≤ p | none => false

/-- Extents nest properly, inner loops on higher registers: told at a closing word. -/
def Shape.badNest (x : Shape) (p : Nat) : Bool :=
  x.ext.any (fun e => e.close == p && x.ext.any (fun f =>
    (f.top < e.top && e.top ≤ f.close && f.close < e.close) ||
      (f != e && f.top ≤ e.top && e.close ≤ f.close && e.reg ≤ f.reg)))

/-- Control enters an extent only at its top. -/
def Shape.badEnter (x : Shape) (p : Nat) : Bool :=
  (x.g.succ x.g.rets p ++ x.g.calls p).any (fun q => x.ext.any (fun e => e.has q && !e.has p && q != e.top)) ||
    (x.g.starts.contains p && x.ext.any (fun e => e.has p && p != e.top))

/-- Control leaves an extent by `LOOPN` falling through or by `LOOPX` of the innermost loop. -/
def Shape.badLeave (x : Shape) (p : Nat) : Bool :=
  let inner := innermost x.ext p
  let loopx : Bool := match x.g.at_ p with | .loopx _ _ => true | _ => false
  (x.g.succ x.g.rets p).any (fun q => x.ext.any (fun e => e.has p && !e.has q &&
    !((e.counted && e.close == p && q == p + 1) || (loopx && inner == some e)))) ||
  (match x.g.at_ p with
    | .loopx l t => (match inner with | some e => e.reg != l.toNat || x.g.dest p t ≤ e.close | none => true)
    | .brd _ _ _ d => inner.any (fun e => !e.has (p + d.toNat) || p + d.toNat == e.top)
    | _ => false)

/-- A divergent region: its `BRD`, its join address. -/
def Prog.region (g : Prog) (p : Nat) : Option (Nat × Nat) :=
  match g.at_ p with
  | .brd _ _ _ d => some (p, p + d.toNat)
  | _ => none

/-- Regions: shape, arms, whose calls return, nesting, loop registers of the arms; told at the `BRD`. -/
def Shape.badRegion (x : Shape) (p : Nat) : Bool :=
  match x.g.at_ p with
  | .brd _ _ t d =>
    let j := p + d.toNat
    let t := x.g.dest p t
    let closes (ps : List Nat) : List Nat := ps.filterMap (fun q => closesOf (x.g.at_ q))
    let inside (s : Nat) : Bool := (x.g.arm s j).all (fun q =>
      p < q && q < j && !isRet (x.g.at_ q) && (x.g.calls q).all (fun f => x.g.rets.contains f))
    !isJoin (x.g.at_ j) || x.g.len ≤ j || j < t || !inside (p + 1) || !inside t ||
      (closes (x.g.armAll (p + 1) j)).any (fun l => (closes (x.g.armAll t j)).contains l) ||
      x.live.any (fun q => match x.g.region q with
        | some (q, j') => q < p && p < j' && j' ≤ j
        | none => false)
  | _ => false

/-- Every call target carries `.recurse`. -/
def Shape.badCall (x : Shape) (p : Nat) : Bool := (x.g.calls p).any (fun f => !x.g.recurse.any (fun r => r.1 == f))

/-- `RET` only under a call; no path runs past the last word. -/
def Shape.badEnd (x : Shape) (p : Nat) : Bool :=
  (isRet (x.g.at_ p) && x.base.contains p) || (x.g.succ x.g.rets p).any (fun q => x.g.len ≤ q)

/-- Labels of a table that no word calls through and that carry no `.recurse`. -/
def Shape.badLabels (x : Shape) : List Nat :=
  (List.range x.g.tables.length).flatMap (fun n =>
    if (List.range x.g.len).any (fun p => match x.g.at_ p with | .callt tbl _ => tbl.toNat == n | _ => false) then []
    else (x.g.tables.getD n []).filter (fun f => !x.g.recurse.any (fun r => r.1 == f)))

/-- R219: the continuation of a `YIELDC` lies after the word, in the innermost extent that holds it and not at its top. -/
def Shape.badYield (x : Shape) (p : Nat) : Bool :=
  match x.g.at_ p with
  | .yieldc _ t _ =>
    let q := x.g.dest p t
    q ≤ p || (innermost x.ext p).any (fun e => !e.has q || q == e.top)
  | _ => false

/-- The words at which R98 or R219 fails. DEDUCED (log 44). -/
def Shape.bad (x : Shape) : List Nat :=
  x.live.filter (fun p => x.badEdge p || x.badNest p || x.badEnter p || x.badLeave p || x.badRegion p || x.badCall p || x.badEnd p) ++
    (List.range x.g.len).filter (fun p => x.badYield p || (match x.g.at_ p with | .callt _ _ => x.badCall p | _ => false)) ++ x.badLabels

/-! ### Static allotments (R140) -/

/-- The allotment after a word, in register blocks; none where it leaves 1 to `top`. DEDUCED (log 47). -/
def allotAfter (top : Nat) (i : Instr) (c : Nat) : Option Nat :=
  match i with
  | .rcede _ n => if n.toNat < c then some (c - n.toNat) else none
  | .rtake _ n _ => if c + n.toNat ≤ top then some (c + n.toNat) else none
  | _ => some c

/-- Positions with the allotments that static paths bring, as 32 · position + allotment. -/
def Prog.allots (g : Prog) (top start : Nat) : List Nat :=
  closure (fun k => match allotAfter top (g.at_ (k / 32)) (k % 32) with
      | some c => (g.next (k / 32)).map (fun q => 32 * q + c)
      | none => [])
    (32 * g.len) (32 * g.len + 1) (start :: g.resumes.flatten.map (fun r => 32 * r + top)) []

def allotsAt (as : List Nat) (p : Nat) : List Nat := (as.filter (fun k => k / 32 == p)).map (fun k => k % 32)

/-- The registers that `RCEDE` and `RTAKE` write under an allotment. -/
def blockWrites (i : Instr) (c : Nat) : List Reg :=
  let run (lo n : Nat) : List Reg := (List.range (16 * n)).map (fun k => Reg.v (16 * lo + k))
  match i with
  | .rcede _ n => run (c - n.toNat) n.toNat
  | .rtake _ n _ => run c n.toNat
  | _ => []

def aboveAllot (c : Nat) (rs : List Reg) : Bool := rs.any (fun r => match r with | .v n => 16 * c ≤ n | _ => false)

/-- Words inside a divergent region, callees included. -/
def Shape.inRegions (x : Shape) : List Nat :=
  x.live.flatMap (fun p => match x.g.at_ p with
    | .brd _ _ t d => x.g.armAll (p + 1) (p + d.toNat) ++ x.g.armAll (x.g.dest p t) (p + d.toNat)
    | _ => [])

/-- The words at which R140 fails; `pair`: the `SNBR` words whose width is a pair. DEDUCED (log 47). -/
def Shape.badAllots (x : Shape) (pair : List Nat) (top start : Nat) : List Nat :=
  let as := x.g.allots top start
  let reg := x.inRegions
  (List.range x.g.len).filter (fun p =>
    let cs := allotsAt as p
    let i := x.g.at_ p
    let moves : Bool := match i with | .rcede _ _ => true | .rtake _ _ _ => true | _ => false
    1 < cs.length || cs.any (fun c => aboveAllot c (readsOf i ++ writesOf (pair.contains p) i) || (allotAfter top i c).isNone) ||
      (moves && reg.contains p))

/-! ### Lookahead (R53) -/

/-- No word within `n` steps of the positions `front` reads or writes the promised registers. -/
def Prog.windowClear (g : Prog) (pair as : List Nat) (ds : List Reg) : Nat → List Nat → Bool
  | 0, _ => true
  | n + 1, front =>
    front.all (fun q =>
      let i := g.at_ q
      g.len ≤ q || (readsOf i ++ writesOf (pair.contains q) i ++ (allotsAt as q).flatMap (blockWrites i)).all (fun r => !ds.contains r)) &&
      g.windowClear pair as ds n (((front.filter (fun q => q < g.len)).flatMap g.next).eraseDups)

/-- Lookahead of a word. -/
def laOf (i : Instr) : Nat :=
  match i with
  | .pairedWord _ _ => 0
  | i => match rawOf i with | some r => r.hdr.la.toNat | none => 0

/-- The words whose promise is broken. -/
def Prog.badPromises (g : Prog) (pair : List Nat) (top start : Nat) : List Nat :=
  let as := g.allots top start
  (List.range g.len).filter (fun p =>
    let i := g.at_ p
    laOf i != 0 && !g.windowClear pair as (writesOf (pair.contains p) i) (laOf i) (g.next p))

/-! ### The costliest path (R99, R228) -/

/-- The costliest ways through a piece of code: on to its end, back to a caller, to an end of the path. -/
structure Ways where
  go : Option Nat := none
  ret : Option Nat := none
  halt : Option Nat := none

def omax : Option Nat → Option Nat → Option Nat
  | some a, some b => some (max a b)
  | none, b => b
  | a, none => a

def Ways.join (a b : Ways) : Ways := { go := omax a.go b.go, ret := omax a.ret b.ret, halt := omax a.halt b.halt }
def Ways.plus (n : Nat) (a : Ways) : Ways := { go := a.go.map (n + ·), ret := a.ret.map (n + ·), halt := a.halt.map (n + ·) }
def Ways.most (a : Ways) : Nat := (omax a.go (omax a.ret a.halt)).getD 0

/-- One way after another, where both exist. -/
def oplus (a b : Option Nat) : Option Nat := a.bind (fun x => b.map (x + ·))

/-- What the walk adds up: a word's own cost, the cost of a frame pop. -/
structure Meter where
  x : Shape
  word : Instr → Nat
  pop : Nat

/-- Trips of a loop (R99): max(L, 1). -/
def Meter.trips (m : Meter) (e : Extent) : Nat :=
  match limOf (m.x.g.at_ e.close) with
  | some (.num n) => max n 1
  | some (.tbl i) => max (m.x.g.limits.getD i 0) 1
  | none => 1

/-- The outermost extent that a path enters at `p`, inside the loop it is in. -/
def Meter.enters (m : Meter) (p : Nat) (inside : Option Extent) : Option Extent :=
  (m.x.ext.filter (fun e => e.top == p && inside.all (fun o => e.close < o.close))).foldl
    (fun b e => match b with | none => some e | some y => if y.close < e.close then some e else some y) none

/-- Where the path goes on after a loop. -/
def Meter.exits (m : Meter) (e : Extent) : List Nat :=
  (if e.counted then [e.close + 1] else []) ++
    m.x.live.filterMap (fun q => match m.x.g.at_ q with
      | .loopx _ t => if innermost m.x.ext q == some e then some (m.x.g.dest q t) else none
      | _ => none)

/-- Activations that `.recurse` still admits of a target (R99, R106). -/
def Meter.mayCall (m : Meter) (acts : Tab Nat) (f : Nat) : Bool :=
  tget 0 acts f < ((m.x.g.recurse.find? (fun r => r.1 == f)).map (fun r => r.2)).getD 0

/-- A call of one of `fs`: the callee's body where an activation is left, then what follows the return address. -/
def Meter.callWays (m : Meter) (acts : Tab Nat) (c : Nat) (body : Nat → Tab Nat → Ways) (after : Ways) (fs : List Nat) : Ways :=
  fs.foldl (fun w f => w.join
    (if m.mayCall acts f then
      let b := body f (tput acts f (tget 0 acts f + 1))
      let r := b.ret.map (c + 2 * m.pop + ·)
      { go := oplus r after.go, ret := oplus r after.ret, halt := omax (oplus r after.halt) (b.halt.map (c + 2 * m.pop + ·)) }
    else { halt := some c })) {}

/-- The ways from a word to `stop`, inside a loop, with the activations made so far; `fuel` bounds the depth. A path may
end at the closing word of a `LOOPB`, in LIMIT (R104).
DEDUCED (log 48). -/
def Meter.ways (m : Meter) : Nat → Nat → Option Nat → Option Extent → Tab Nat → Ways
  | 0, _, _, _, _ => {}
  | fuel + 1, p, stop, lp, acts =>
    if stop == some p then { go := some 0 }
    else if m.x.g.len ≤ p then {}
    else
      let i := m.x.g.at_ p
      let c := m.word i
      let on (q : Nat) : Ways := m.ways fuel q stop lp acts
      match m.enters p lp with
      | some e =>
        let b := m.ways fuel p none (some e) acts
        let after := ((m.exits e).map on).foldl Ways.join {}
        let n := m.trips e
        let t := b.go.getD 0
        { go := after.go.map (n * t + ·), ret := omax (after.ret.map (n * t + ·)) (b.ret.map ((n - 1) * t + ·)),
          halt := omax (omax (after.halt.map (n * t + ·)) (b.halt.map ((n - 1) * t + ·)))
            (if e.counted then none else b.go.map (fun _ => n * t)) }
      | none => match i with
        | .exit => { halt := some c } | .trap _ => { halt := some c } | .ret => { ret := some c }
        | .loopb _ _ _ => { go := some c } | .loopn _ _ _ => { go := some c } | .loopx _ _ => { go := some c }
        | .bra t => (on (m.x.g.dest p t)).plus c
        | .yieldc _ t _ => (on (m.x.g.dest p t)).plus c
        | .brc _ _ t => ((on (p + 1)).join (on (m.x.g.dest p t))).plus c
        | .brd _ _ t d =>
          let j := p + d.toNat
          let a := m.ways fuel (p + 1) (some j) lp acts
          let b := m.ways fuel (m.x.g.dest p t) (some j) lp acts
          let both := c + 2 * m.pop + a.most + b.most
          if a.go.isNone && b.go.isNone then { halt := some both } else (on j).plus both
        | .call _ => m.callWays acts c (fun f as => m.ways fuel f none none as) (on (p + 1)) (m.x.g.calls p)
        | .callt _ _ => m.callWays acts c (fun f as => m.ways fuel f none none as) (on (p + 1)) (m.x.g.calls p)
        | _ => (on (p + 1)).plus c

/-- Depth that no walk exceeds: twice the code for each activation. -/
def Meter.fuel (m : Meter) : Nat := (2 * m.x.g.len + 2) * (m.x.g.recurse.foldl (fun n r => n + r.2) 1)

/-- The cost of the costliest static path from some starts. -/
def Meter.worst (m : Meter) (starts : List Nat) : Nat := maxOf (starts.map (fun p => (m.ways m.fuel p none none []).most))

/-! ### The spill stack (R99, R145) -/

/-- An admitted call of `f` can come back. -/
def Meter.returns (m : Meter) (acts : Tab Nat) (f : Nat) : Bool :=
  m.mayCall acts f && (m.ways m.fuel f none none (tput acts f (tget 0 acts f + 1))).ret.isSome

/-- A path from `p` reaches the join address `j`. -/
def Meter.reaches (m : Meter) (acts : Tab Nat) (p j : Nat) : Bool := (m.ways m.fuel p (some j) none acts).go.isSome

/-- Frames on the deepest path: two for a level of region, two for an activation. A path goes on behind a call that can come
back and behind a region whose join an arm reaches. -/
def Meter.frames (m : Meter) : Nat → Nat → Option Nat → Tab Nat → Nat
  | 0, _, _, _ => 0
  | fuel + 1, p, stop, acts =>
    if stop == some p || m.x.g.len ≤ p then 0
    else
      let on (q : Nat) : Nat := m.frames fuel q stop acts
      match m.x.g.at_ p with
      | .exit => 0 | .trap _ => 0 | .ret => 0 | .loopb _ _ _ => 0
      | .bra t => on (m.x.g.dest p t)
      | .loopx _ t => on (m.x.g.dest p t)
      | .yieldc _ t _ => on (m.x.g.dest p t)
      | .brc _ _ t => max (on (p + 1)) (on (m.x.g.dest p t))
      | .brd _ _ t d =>
        let j := p + d.toNat
        max (2 + max (m.frames fuel (p + 1) (some j) acts) (m.frames fuel (m.x.g.dest p t) (some j) acts))
          (if m.reaches acts (p + 1) j || m.reaches acts (m.x.g.dest p t) j then on j else 0)
      | _ =>
        let fs := m.x.g.calls p
        fs.foldl (fun n f => max n (if m.mayCall acts f then 2 + m.frames fuel f none (tput acts f (tget 0 acts f + 1)) else 0))
          (if fs.isEmpty || fs.any (m.returns acts) then on (p + 1) else 0)

/-- Bytes of a wave's spill stack from a start: its frames and its `SPILL` area. -/
def Meter.stack (m : Meter) (start width : Nat) : Nat :=
  96 * m.frames m.fuel start none [] + 4 * width * maxOf (m.x.g.ins.map spillTop)

end Sys2Proof.Machine
end

