-- ==== Sys2Proof/Machine/Nose.lean ====
section
/-! DEFINITION. The Nose (12_quotation.md): the request descriptor, the kernel record and its expressions, the checks of
Table 12-2, the placement, Q and the energy bound. -/

namespace Sys2Proof.Machine

/-! ### The descriptor (R223, Table 12-1) -/

structure Ask where
  image : BitVec 64
  imglen : Nat
  nblock : Nat
  waves : Nat
  allot : Nat
  klass : Nat
  flags : Nat
  floor : Nat
  allow : Nat
  cores : Nat
  quantum : Nat
  krec : BitVec 64
  kreclen : Nat
  params : List DWord
deriving DecidableEq, Repr

/-- A little-endian field of `n` bytes at an offset. -/
def field (bs : List Byte) (o n : Nat) : Nat := ofLeBytes ((bs.drop o).take n)

def askOf (bs : List Byte) : Ask :=
  { image := BitVec.ofNat 64 (field bs 0 8), imglen := field bs 8 4, nblock := field bs 0x0C 4, waves := field bs 0x10 1,
    allot := field bs 0x11 1, klass := field bs 0x12 1, flags := field bs 0x13 1, floor := field bs 0x14 1, allow := field bs 0x15 1,
    cores := field bs 0x18 4, quantum := field bs 0x1C 4, krec := BitVec.ofNat 64 (field bs 0x20 8), kreclen := field bs 0x28 4,
    params := (List.range 16).map (fun k => BitVec.ofNat 64 (field bs (0x40 + 8 * k) 8)) }

/-- The fields of a request that check 1 of Table 12-2 finds out of Table 12-1: NBLOCK 0 and more than 64 WAVES among them,
which R13 gives the reason SHAPE. DEDUCED (log 84). -/
def askOk (bs : List Byte) (a : Ask) : Bool :=
  a.image.toNat % 128 == 0 && 8 ≤ a.imglen && a.imglen ≤ 16777216 && 1 ≤ a.nblock && 1 ≤ a.waves && a.waves ≤ 64 && a.allot ≤ 16 &&
    a.klass ≤ 2 && a.flags ≤ 1 && (a.floor == 0 || (12 ≤ a.floor && a.floor ≤ 20)) && (a.klass == 2 || a.allow == 0) && a.cores ≤ 192 &&
    (if a.klass = 1 then 65536 ≤ a.quantum else a.quantum = 0) && a.krec.toNat % 8 == 0 && 64 ≤ a.kreclen && a.kreclen ≤ 16777216 &&
    field bs 0x16 2 == 0 && field bs 0x2C 20 == 0 && field bs 0xC0 64 == 0

/-! ### Expressions (R393, R26) -/

inductive Tok where
  | const (n : Nat) | param (k : Nat) | add | sub | mul | div | min | max | clog2
deriving DecidableEq, Repr

/-- A run of 8-byte units as tokens; none for a malformed one. -/
def tokens : List Nat → Option (List Tok)
  | [] => some []
  | 1 :: v :: t => (tokens t).map (Tok.const v :: ·)
  | u :: t =>
    let one (k : Tok) : Option (List Tok) := (tokens t).map (k :: ·)
    if u % 256 = 2 && u / 256 < 16 then one (.param (u / 256))
    else match u with
      | 3 => one .add | 4 => one .sub | 5 => one .mul | 6 => one .div | 7 => one .min | 8 => one .max | 9 => one .clog2
      | _ => none

/-- Values on the stack after the tokens; none where the stack rules are broken. -/
def depthAfter : List Tok → Nat → Option Nat
  | [], d => some d
  | k :: t, d => match k with
    | .const _ => if d < 64 then depthAfter t (d + 1) else none
    | .param _ => if d < 64 then depthAfter t (d + 1) else none
    | .clog2 => if 1 ≤ d then depthAfter t d else none
    | _ => if 2 ≤ d then depthAfter t (d - 1) else none

/-- The smallest k with 2^k ≥ a; 0 for 0. -/
def clog2 (a : Nat) : Nat := if a ≤ 1 then 0 else (a - 1).log2 + 1

/-- Evaluation on unsigned 64-bit values; none on overflow, below zero and on division by zero. -/
def evalToks (params : List DWord) : List Tok → List Nat → Option Nat
  | [], st => st.head?
  | k :: t, st =>
    let push (v : Nat) (st : List Nat) : Option Nat := if v < 2 ^ 64 then evalToks params t (v :: st) else none
    match k, st with
    | .const n, st => push n st
    | .param i, st => push (params.getD i 0).toNat st
    | .clog2, a :: st => push (clog2 a) st
    | .add, b :: a :: st => push (a + b) st
    | .sub, b :: a :: st => if b ≤ a then push (a - b) st else none
    | .mul, b :: a :: st => push (a * b) st
    | .div, b :: a :: st => if b = 0 then none else push (a / b) st
    | .min, b :: a :: st => push (Nat.min a b) st
    | .max, b :: a :: st => push (Nat.max a b) st
    | _, _ => none

/-! ### The kernel record (R390 to R392) -/

/-- The record as read: the kernel without its limits' values, the limits' expressions, whether `.det` stands in it. -/
structure KRec where
  k : Kernel
  exprs : List (List Tok)

/-- A code position: a multiple of 8 below 8 × CODELEN. -/
def posOk (codeLen p : Nat) : Bool := p % 8 == 0 && p < 8 * codeLen

/-- All elements or none. -/
def allSome {α : Type} : List (Option α) → Option (List α)
  | [] => some []
  | a :: t => match a, allSome t with
    | some x, some xs => some (x :: xs)
    | _, _ => none

def risingBy {α : Type} (f : α → Nat) : List α → Bool
  | a :: b :: t => f a < f b && risingBy f (b :: t)
  | _ => true

/-- Recurse section. -/
def readRecurse (bs : List Byte) (codeLen o n : Nat) : Option (List (Nat × Nat)) :=
  let es := (List.range n).map (fun i => (field bs (o + 8 * i) 4, field bs (o + 8 * i + 4) 1, field bs (o + 8 * i + 5) 3))
  if es.all (fun e => posOk codeLen e.1 && e.2.1 != 0 && e.2.2 == 0) && risingBy (fun e => e.1) es then some (es.map (fun e => (e.1, e.2.1))) else none

/-- One expression of the limit section. -/
def readExpr (bs : List Byte) (o : Nat) : Option (List Tok) :=
  let off := field bs o 4
  let len := field bs (o + 4) 4
  if off % 8 != 0 || len = 0 || 1024 < len || bs.length < off + 8 * len then none
  else match tokens ((List.range len).map (fun i => field bs (off + 8 * i) 8)) with
    | some ts => if depthAfter ts 0 = some 1 then some ts else none
    | none => none

def readLimits (bs : List Byte) (o n : Nat) : Option (List (List Tok)) := allSome ((List.range n).map (fun i => readExpr bs (o + 8 * i)))

/-- Cohort section: `n` entries from an offset; answers the offset past it. -/
def readCohorts (bs : List Byte) : Nat → Nat → Option (List Cohort × Nat)
  | 0, o => some ([], o)
  | n + 1, o =>
    let nr := field bs (o + 4) 4
    let rs := (List.range nr).map (fun i => (field bs (o + 8 + 8 * i) 4, field bs (o + 12 + 8 * i) 4))
    if 1 < field bs (o + 1) 1 || field bs (o + 2) 2 != 0 || nr = 0 || 65536 < nr || bs.length < o + 8 + 8 * nr ||
        rs.any (fun r => r.2 < r.1) then none
    else (readCohorts bs n (o + 8 + 8 * nr)).map (fun x => ({ entry := field bs o 1, aff := field bs (o + 1) 1 = 1, ranges := rs } :: x.1, x.2))

/-- The next multiple of 8. -/
def up8 (n : Nat) : Nat := (n + 7) / 8 * 8

/-- Table section. -/
def readTables (bs : List Byte) (codeLen : Nat) : Nat → Nat → Option (List (List Nat) × Nat)
  | 0, o => some ([], o)
  | n + 1, o =>
    let c := field bs o 4
    let ls := (List.range c).map (fun i => field bs (o + 4 + 4 * i) 4)
    let e := o + up8 (4 + 4 * c)
    if c = 0 || 256 < c || bs.length < e || !ls.all (posOk codeLen) || field bs (o + 4 + 4 * c) (e - (o + 4 + 4 * c)) != 0 then none
    else (readTables bs codeLen n e).map (fun x => (ls :: x.1, x.2))

/-- Element types of Table 20-1. -/
def accordTy : List Ty := [.i16, .n16, .f16, .bf16, .i32, .n32, .f32, .i64, .n64]

/-- Accord section: the entries of the contexts `cs` (Table 12-10). -/
def readAccords (bs : List Byte) (codeLen : Nat) : List Nat → Nat → Option (List Accord × Nat)
  | [], o => some ([], o)
  | c :: cs, o =>
    let f (a n : Nat) : Nat := field bs (o + a) n
    let nn := f 3 1
    let nres := f 0x0A 1
    let e := o + up8 (0x38 + 4 * nres)
    let ls := (List.range nres).map (fun i => f (0x38 + 4 * i) 4)
    match tyOfCode (BitVec.ofNat 4 (f 1 1)) with
    | none => none
    | some ty =>
      if bs.length < e || f 0 1 != c || 15 < f 1 1 || !accordTy.contains ty || 2 < f 2 1 || 15 < nn || f 4 2 = 0 || f 6 2 = 0 ||
          (if f 2 1 = 2 then f 8 2 < f 4 2 else f 8 2 != 0) || nres = 0 || f 0x0B 1 != 0 || f 0x0C 4 % 128 != 0 ||
          f (0x10 + ty.size) (8 - ty.size) != 0 || f (0x18 + 2 * nn) (32 - 2 * nn) != 0 || !ls.all (posOk codeLen) ||
          f (0x38 + 4 * nres) (e - (o + 0x38 + 4 * nres)) != 0 then none
      else
        let a : Accord :=
          { c := c, ty := ty, order := f 2 1, rows := f 4 2, cols := f 6 2, skew := f 8 2, base := f 0x0C 4,
            fill := BitVec.ofNat 64 (f 0x10 8),
            nbr := (List.range nn).map (fun k => (signedOf 8 (f (0x18 + 2 * k) 1), signedOf 8 (f (0x19 + 2 * k) 1))), resume := ls }
        (readAccords bs codeLen cs e).map (fun x => (a :: x.1, x.2))

/-- A section's place is admitted: offset 0 exactly when it has no entry. -/
def sectOk (len n o : Nat) : Bool := if n = 0 then o = 0 else o % 8 = 0 && 0x40 ≤ o && o < len

/-- No two of some runs overlap. -/
def apart : List (Nat × Nat) → Bool
  | [] => true
  | r :: t => t.all (fun x => r.2 ≤ x.1 || x.2 ≤ r.1) && apart t

/-- The kernel record; none where it breaks R391, R392 or R393. -/
def readRecord (bs : List Byte) : Option KRec :=
  let f := field bs
  let len := bs.length
  let code := f 0 4
  let nrec := f 0x14 2
  let nlim := f 0x16 2
  let ncoh := f 0x18 2
  let ntab := f 0x1A 2
  let acc := f 0x1C 1
  let ro := f 0x20 4
  let lo := f 0x24 4
  let co := f 0x28 4
  let to_ := f 0x2C 4
  let ao := f 0x30 4
  let cs := (List.range 4).filter (fun c => acc.testBit c)
  if code = 0 || !([16, 32, 64].contains (f 4 1)) || f 5 1 = 0 || 16 < f 5 1 || 1 < f 6 1 || f 7 1 != 0 || f 8 4 % 128 != 0 || 1572864 < f 8 4 ||
      f 0x0C 4 % 128 != 0 || 50331648 < f 0x0C 4 || 32768 < nlim || 256 < ncoh || 256 < ntab || 15 < acc || f 0x1D 3 != 0 || f 0x34 12 != 0 ||
      !(sectOk len nrec ro && sectOk len nlim lo && sectOk len ncoh co && sectOk len ntab to_ && sectOk len cs.length ao) ||
      len < ro + 8 * nrec || len < lo + 8 * nlim then none
  else match readRecurse bs code ro nrec, readLimits bs lo nlim, readCohorts bs ncoh co, readTables bs code ntab to_, readAccords bs code cs ao with
    | some rec_, some ex, some (coh, ce), some (tab, te), some (ac, ae) =>
      if !risingBy (fun c => c.entry) coh ||
          !apart ([(ro, ro + 8 * nrec), (lo, lo + 8 * nlim), (co, ce), (to_, te), (ao, ae)].filter (fun r => r.1 < r.2)) then none
      else some
        { k := { codeLen := code, width := f 4 1, regs := 16 * f 5 1, det := f 6 1 = 1, scratch := f 8 4, diescratch := f 0x0C 4,
                 fillLimit := f 0x10 4, recurse := rec_, limits := [], cohorts := coh, tables := tab, accords := ac,
                 hasCopy := false, hasMatrix := false, hasSpecial := false, claimsOnPath := 0, pairNbr := [] },
          exprs := ex }
    | _, _, _, _, _ => none

/-! ### Refusals (Table 12-2) -/

def rILLEGAL : Nat := 1
def rUNBOUNDED : Nat := 2
def rLOOKAHEAD : Nat := 3
def rREGS : Nat := 4
def rDETERMINISM : Nat := 5
def rSHAPE : Nat := 6
def rCOHORT : Nat := 7
def rRESOURCE : Nat := 8
def rFLOOR : Nat := 9
def rSIZE : Nat := 10
def rREQUEST : Nat := 11
def rRESET : Nat := 12

/-- The lowest of some word positions as a byte offset; none for an empty list. DEDUCED (log 45). -/
def lowest (ps : List Nat) : Option Nat :=
  match ps with
  | [] => none
  | p :: t => some (8 * t.foldl Nat.min p)

/-- Bytes of a device address range as the Nose reads them; none where a byte does not translate with RD.
DEDUCED (log 52). -/
def readDev (s : State) (m : Mapping) (a : BitVec 64) (n : Nat) : Option (List Byte) :=
  let xs := access s m a n .load
  if (locsOf xs).length = n && !(locsOf xs).any absent then some ((locsOf xs).map (memByte s)) else none

/-! ### Check 3: ILLEGAL (R60 and the entries) -/

/-- Blocks at which the set of cohorts that hold a block changes. -/
def cohortEdges (k : Kernel) (nblock : Nat) : List Nat :=
  (k.cohorts.flatMap (fun c => c.ranges.flatMap (fun r => [r.1, r.2 + 1]))).filter (fun b => b < nblock)

/-- Some block of the launch has a k-th cohort that satisfies `ok` (R45, R272). -/
def someTeam (k : Kernel) (nblock n : Nat) (ok : Cohort → Bool) : Bool :=
  (cohortEdges k nblock).any (fun b => (cohortOf k b n).any ok)

/-- A designator names a team that some block has. -/
def designatorOk (k : Kernel) (nblock : Nat) (i : Instr) : Bool :=
  match designatorOf i with
  | none => true
  | some p =>
    let team := (p >>> 5).toNat
    team = 0 || someTeam k nblock team (fun c => match i with | .mbcast _ _ _ _ _ _ _ => c.aff | _ => true)

/-- Fields that the kernel's width bounds. -/
def widthOk (w : Nat) : Instr → Bool
  | .bcast r => r.sc.toNat < w | .vtos r => r.sc.toNat < w | .stov r => r.sc.toNat < w
  | .qnt _ _ r => (if r.sc.getLsbD 5 then 32 else 16) ≤ w
  | .mqma _ _ _ _ _ _ q _ => q.toNat < w / 8
  | .mcrd _ _ _ _ _ c => c.toNat + w ≤ 256 | .mcwr _ _ _ _ _ _ c => c.toNat + w ≤ 256
  | _ => true

/-- Branch targets, tables and limits of a word name what the kernel has (R43, R44, R106). -/
def namesOk (k : Kernel) (exprs : Nat) (p : Nat) (i : Instr) : Bool :=
  let inCode (d : Int) : Bool := 0 ≤ (p : Int) + d && (p : Int) + d < k.codeLen
  (match branchOf i with | some t => inCode t.toInt | none => true) &&
    (match i with | .brd _ _ _ d => inCode d.toNat | .callt tbl _ => tbl.toNat < k.tables.length | _ => true) &&
    (match limOf i with | some (.tbl n) => n < exprs | _ => true)

/-- Sweep words: the context has a tensor, the repeat limit is not 0 (R337). -/
def sweepOk (k : Kernel) (limits : List (Option Nat)) (i : Instr) : Bool :=
  (match sweepOf i with | some c => k.accords.any (fun a => a.c == c) | none => true) &&
    (match i with
      | .swgo _ _ _ _ l => (match limRef l with | .num n => n != 0 | .tbl n => (limits.getD n none) != some 0)
      | _ => true)

/-- Words that no code reachable from the entry may hold, and that no sweep program may hold (R327). -/
def onlySweep : Instr → Bool
  | .swait _ _ => true | .swend _ => true | .snbr _ _ _ _ => true
  | _ => false
def neverSweep : Instr → Bool
  | .swgo _ _ _ _ _ => true | .rcede _ _ => true | .rtake _ _ _ => true | .qinit _ _ _ _ _ => true | .qpush _ _ _ _ => true
  | .qpop _ _ _ _ => true | .rvarr _ _ _ _ _ _ => true | .rvwait _ _ _ _ _ => true | .yieldc _ _ _ => true
  | .tlwait _ _ _ _ _ => true | .clwait _ _ _ _ => true | .mbcast _ _ _ _ _ _ _ => true
  | i => isCopy i

/-- A word that the kernel's record makes illegal whatever stands around it. -/
def wordIllegal (k : Kernel) (limits : List (Option Nat)) (nblock p : Nat) (i : Instr) : Bool :=
  aboveAllot (k.regs / 16) (readsOf i ++ writesOf false i) || !designatorOk k nblock i || !widthOk k.width i ||
    !namesOk k limits.length p i || !sweepOk k limits i || (k.fillLimit = 0 && (match i with | .lds _ => true | _ => false))

/-- DEDUCED (log 51). -/
def isSnbr : Instr → Option (BitVec 8)
  | .snbr _ d _ _ => some d
  | _ => none

/-- The `SNBR` words whose static width is a pair (R341). -/
def pairWords (g : Prog) (k : Kernel) : List Nat :=
  let wide := (k.accords.filter (fun a => a.ty.wide)).flatMap (fun a => a.resume.map (fun r => r / 8))
  (g.reach wide).filter (fun p => (isSnbr (g.at_ p)).isSome)

/-- The words refused ILLEGAL once every word decodes; `exprs` the values of the limit table. -/
def illegalWords (g : Prog) (k : Kernel) (limits : List (Option Nat)) (nblock : Nat) : List Nat :=
  let entry := g.reach [0]
  let sweeps := g.reach g.resumes.flatten
  let pair := pairWords g k
  (List.range g.len).filter (fun p =>
    let i := g.at_ p
    wordIllegal k limits nblock p i || (onlySweep i && entry.contains p) || (neverSweep i && sweeps.contains p) ||
      (pair.contains p && (isSnbr i).any (fun d => d.getLsbD 0 || k.regs ≤ d.toNat + 1)))

/-! ### Check 4: limits (R26, R98, R255) -/

/-- The words that use a limit refused UNBOUNDED. DEDUCED (log 46). -/
def limitWords (g : Prog) (limits : List (Option Nat)) : List Nat :=
  (List.range g.len).filter (fun p =>
    let i := g.at_ p
    match limOf i with
    | some (.tbl n) => (match limits.getD n none with | none => true | some v => 0xFFFFFFFF < v || (isCopy i && v = 0))
    | _ => false)

/-- A limit that no word uses is refused as well. DEDUCED (log 46). -/
def unusedLimit (g : Prog) (limits : List (Option Nat)) : Bool :=
  (List.range limits.length).any (fun n =>
    (match limits.getD n none with | none => true | some v => 0xFFFFFFFF < v) && !g.ins.any (fun i => limOf i == some (.tbl n)))

/-! ### Check 7: DETERMINISM (Table 12-3, R315) -/

def detWords (x : Shape) : List Nat :=
  (List.range x.g.len).filter (fun p =>
    let inLoopb := x.ext.any (fun e => !e.counted && e.has p)
    match x.g.at_ p with
    | .atg _ _ => true | .casg _ => true | .ldg home _ => home | .rvarr _ _ _ rlx _ _ => rlx | .rvtest _ _ _ => true
    | .tlread _ _ _ => true | .rfsh _ => inLoopb | .phase _ => inLoopb | .swqry _ _ _ _ => true
    | .redg _ r => r.ty == .f32
    | _ => false)

/-! ### Pricing (R227 to R233, R336) -/

/-- A kernel ready to be priced. -/
structure Priced where
  x : Shape
  k : Kernel
  a : Ask
  det : Bool
  price : Price

def Priced.resumes (y : Priced) (c : Nat) : List Nat :=
  ((y.k.accords.find? (fun a => a.c == c)).map (fun a => a.resume.map (fun r => r / 8))).getD []

/-- NCH and G of R336, and P. -/
def Priced.chunks (y : Priced) (c : Nat) : Nat := ((y.k.accords.find? (fun a => a.c == c)).map (fun a => a.chunks y.k.width)).getD 0
def Priced.groups (y : Priced) (c : Nat) : Nat := min y.k.width (y.resumes c).length
def Priced.places (y : Priced) (c : Nat) : Nat := ((y.k.accords.find? (fun a => a.c == c)).map (fun a => a.count)).getD 0

/-- The runs that an `SWGO` may ask for: repeat limit and context. -/
def Priced.runs (y : Priced) : Instr → Option (Nat × Nat)
  | .swgo _ c _ _ l => some (y.price.limit (some (limRef l)), c.toNat)
  | _ => none

/-- A walk that adds up `word`, for an `SWGO` also what its runs add. -/
def Priced.meter (y : Priced) (word : Instr → Nat) (pop : Nat) (runs : Nat → Nat → Nat) : Meter :=
  { x := y.x, word := fun i => word i + (match y.runs i with | some (n, c) => runs n c | none => 0), pop := pop }

def Priced.plain (y : Priced) (word : Instr → Nat) (pop : Nat) : Meter := y.meter word pop (fun _ _ => 0)

/-- C_w at share divisor `d` (R227, R228, R336). -/
def Priced.cw (y : Priced) (d : Nat) : Nat :=
  let word (i : Instr) : Nat := d * y.price.cost i
  (y.meter word 1200 (fun n c =>
    d * (n * max 1024 (y.chunks c * (24 + y.groups c * (y.plain word 1200).worst (y.resumes c)))))).worst [0]

/-- Σ weight × W over the costliest path. -/
def Priced.charge (y : Priced) : Nat :=
  let word (i : Instr) : Nat := fullWeight i * y.k.width
  (y.meter word 0 (fun n c => n * y.chunks c * y.groups c * (y.plain word 0).worst (y.resumes c))).worst [0]

/-- Energy of the bytes of the costliest path. -/
def Priced.byteUnits (y : Priced) : Nat :=
  let pop := 96 * 450000
  (y.meter y.price.bytes pop (fun n c =>
    n * 8 * y.places c * 13500 + n * y.chunks c * y.groups c * (y.plain y.price.bytes pop).worst (y.resumes c))).worst [0]

def isClaim : Instr → Bool
  | .claim _ _ _ => true
  | _ => false

/-- R350: `CLAIM` words on the worst path. DEDUCED (log 48). -/
def Priced.claimWords (y : Priced) : Nat := (y.plain (fun i => if isClaim i then 1 else 0) 0).worst [0]

/-- Sweep contexts that the kernel has on an issue slot. -/
def sweepsOn (k : Kernel) (slot : Nat) : Nat := if k.accords.any (fun a => a.c == slot) then 1 else 0

/-- R229, R320, R326: the share divisor with `r` blocks on a core. -/
def Priced.share (y : Priced) (r : Nat) : Nat :=
  if y.a.klass = 2 then 16
  else max (if y.det then y.a.waves else 1)
    (maxOf ((List.range 4).map (fun k => r * slotWaves y.a.waves k + sweepsOn y.k k)))

/-- Starting allotment in register blocks (R139). -/
def allotOf (a : Ask) (k : Kernel) : Nat := if a.allot = 0 then k.regs / 16 else a.allot

/-- B, K and the Q of a placement (R230, R231). -/
def Priced.block (y : Priced) (d : Nat) : Nat := 512 + ceilDiv (roundScratch y.k.scratch) 1024 + y.cw d + y.price.g
def Priced.kOf (y : Priced) (b : Nat) : Nat := if y.a.klass = 1 then ceilDiv b y.a.quantum else if y.a.klass = 2 then y.a.allow else 0
def Priced.saved (y : Priced) : Nat :=
  roundScratch y.k.scratch + 64 * y.k.width * (allotOf y.a y.k * y.a.waves) + 1024 * y.a.waves
def Priced.rounds (y : Priced) (n r : Nat) : Nat := ceilDiv y.a.nblock (n * r)
def Priced.qOf (y : Priced) (b n r : Nat) : Nat := y.rounds n r * (b + y.kOf b * (2400 + ceilDiv y.saved 64))

/-- R233: the energy bound; `charge` and `bytes` over the launch. -/
def eboundOf (charge bytes floor n q : Nat) : Nat := ceilDiv (charge * quantumUnits (basis floor) + bytes + n * q * nJ) nJ

/-! ### Check 8: SHAPE (R13, R139, R147, R322) -/

/-- Most blocks of the launch that a core holds whose slots carry sweep loads `sw` (R12, R138, R147, R263, R326).
DEDUCED (log 49). -/
def mostBlocks (k : Kernel) (a : Ask) (det : Bool) (sw : Nat → Nat × Nat) : Nat :=
  let bySlot := (List.range 4).filterMap (fun s =>
    let n := slotWaves a.waves s
    if n = 0 then none
    else some (Nat.min ((16 - (sw s).1) / n) ((32768 - (sw s).2) / (n * (allotOf a k * 16 * k.width)))))
  let most := minOf 64 bySlot
  let most := if k.scratch = 0 then most else Nat.min most (1572864 / roundScratch k.scratch)
  if det && k.hasMatrix then Nat.min most 1 else most

/-- A slot's own sweep load. -/
def ownSweep (k : Kernel) (slot : Nat) : Nat × Nat := (sweepsOn k slot, sweepsOn k slot * (k.regs * k.width))

/-- R322: every tensor lies in the allocation, apart from the others. -/
def accordsFit (k : Kernel) : Bool :=
  k.accords.all (fun a => a.base + 16 * a.count ≤ k.scratch) && apart (k.accords.map (fun a => (a.base, a.base + 16 * a.count)))

/-! ### Check 9: COHORT (R15) -/

/-- Affinity cohorts joined by shared blocks, each such family by its cohorts. -/
def affFamilies (k : Kernel) : List (List Cohort) :=
  let affs := k.cohorts.filter (fun c => c.aff)
  (affs.map (fun c => growGroup affs affs.length [c])).foldl (fun fs f => if fs.contains f then fs else fs ++ [f]) []

/-- Distinct blocks of some cohorts. -/
def sizeOf (cs : List Cohort) : Nat := countFrom 0 ((cs.flatMap (fun c => c.ranges)).foldr insertRange [])

/-- R15: what cannot fit in a cluster's 6 cores is told by the blocks that empty cores hold (R12, R138, R147, R326).
DEDUCED (log 85). -/
def cohortsOk (k : Kernel) (nblock most : Nat) : Bool :=
  k.cohorts.all (fun c => c.ranges.all (fun r => r.2 < nblock && (k.cohorts.filter (fun d => d.has r.1)).length ≤ 4)) &&
    (affFamilies k).all (fun f => sizeOf f ≤ 6 * most)

/-! ### Check 11: the placement (R230, R20, R235) -/

/-- A cohort group: its size, and the sizes of its affinity families with their cohorts. -/
structure Group where
  size : Nat
  fams : List (List Cohort)

def cohortGroups (k : Kernel) : List Group :=
  ((k.cohorts.map (fun c => growGroup k.cohorts k.cohorts.length [c])).foldl (fun gs g => if gs.contains g then gs else gs ++ [g]) []).map
    (fun g => { size := sizeOf g, fams := (affFamilies k).filter (fun f => f.any (fun c => g.contains c)) })

/-- What the launch asks of a core (R235): the required feature mask. -/
def featsOf (k : Kernel) (a : Ask) (bslots : Nat) : BitVec 64 :=
  BitVec.ofNat 64 (bslots + 2 ^ 8 * k.accords.foldl (fun n c => n + 2 ^ c.c) 0 +
    2 ^ 12 * (List.range 4).foldl (fun n s => if slotWaves a.waves s = 0 then n else n + 2 ^ s) 0 +
    (if k.hasSpecial then 2 ^ 16 else 0) + 2 ^ 17)

/-- R170: bytes of die scratchpad that the accepted launches hold on a die. -/
def dieHeld (s : State) (die : Nat) : Nat := s.launches.foldl (fun n l => n + (if die = 0 then l.2.offer.die0 else l.2.offer.die1)) 0

/-- A core that the present load leaves for `r` blocks of the launch. DEDUCED (log 50). -/
def coreOpen (s : State) (part : Nat) (y : Priced) (feats : BitVec 64) (bslots r core : Nat) : Bool :=
  let others := (s.launches.filter (fun l => l.2.offer.cores.contains core)).map (fun l => l.2.offer)
  (s.part part).clusters.getLsbD (clusterOf core) && hasFeats s core feats && !s.lostQuads.contains (quadOf core) &&
    (if y.a.klass = 0 then others.isEmpty else others.all (fun o => o.klass != 0)) &&
    others.all (fun o => o.bslots.toNat &&& bslots == 0 && !y.k.accords.any (fun a => o.swctx.getLsbD a.c)) &&
    r ≤ mostBlocks y.k y.a y.det (fun k => let w := sweepLoad s core k; let v := ownSweep y.k k; (w.1 + v.1, w.2 + v.2)) &&
    dieHeld s (dieOf core) + y.k.diescratch ≤ 50331648

/-- Cores that each cluster must give for a choice of clusters for the affinity families: the most that any one group
needs there. -/
def needOf (r : Nat) (pick : List (List Cohort × Nat)) (gs : List Group) (cluster : Nat) : Nat :=
  maxOf (gs.map (fun g => ceilDiv ((pick.filter (fun p => p.2 == cluster && g.fams.contains p.1)).foldl (fun n p => n + sizeOf p.1) 0) r))

/-- Cores taken for the needs of the clusters, then the rest in the device's order, `n` in all; a die gives no more than
`cap` of it. -/
def takeCores (n : Nat) (cap : Nat → Nat) (need : Nat → Nat) (open_ : List Nat) : Option (List Nat) :=
  let first := (List.range 32).flatMap (fun c => (open_.filter (fun x => clusterOf x == c)).take (need c))
  let all := (open_.filter (fun x => !first.contains x)).foldl (fun (l : List Nat) x =>
    if l.length < n && (l.filter (fun y => dieOf y == dieOf x)).length < cap (dieOf x) then l ++ [x] else l) first
  if all.length = n && (List.range 32).all (fun c => need c ≤ (first.filter (fun x => clusterOf x == c)).length) &&
      (List.range 2).all (fun d => (all.filter (fun x => dieOf x == d)).length ≤ cap d) then some all else none

/-- A choice of clusters for the affinity families, in the device's order of clusters, with which `n` cores suffice. -/
def chooseCores (n r : Nat) (cap : Nat → Nat) (clusters open_ : List Nat) (gs : List Group) :
    List (List Cohort) → List (List Cohort × Nat) → Option (List Nat × List (List Cohort × Nat))
  | [], pick => (takeCores n cap (needOf r pick gs) open_).map (fun cs => (cs, pick))
  | f :: t, pick => clusters.findSome? (fun c => chooseCores n r cap clusters open_ gs t ((f, c) :: pick))

/-- A placement that the load admits. -/
structure Placement where
  q : Nat
  n : Nat
  r : Nat
  d : Nat
  b : Nat
  ebound : Nat
  cores : List Nat
  pick : List (List Cohort × Nat)

/-- The placement of least Q, then least n, then least r (R230); `most` the blocks that an empty core holds, `open_` the
open cores for each r, `cap` the copy-engine contexts left on a die. -/
def bestPlacement (y : Priced) (floor most lim : Nat) (open_ : Nat → List Nat) (cap : Nat → Nat) (clusters : List Nat) : Option Placement :=
  let charge := y.charge * (y.a.waves * y.a.nblock)
  let bytes := y.byteUnits * (y.a.waves * y.a.nblock)
  let gs := cohortGroups y.k
  (List.range most).foldl (fun (best : Option Placement) r0 =>
    let r := r0 + 1
    let d := y.share r
    let b := y.block d
    (List.range (Nat.min lim (open_ r).length)).foldl (fun (best : Option Placement) n0 =>
      let n := n0 + 1
      let q := y.qOf b n r
      let e := eboundOf charge bytes floor n q
      if 2 ^ 62 < q || 2 ^ 62 < e || gs.any (fun g => n * r < g.size) ||
          best.any (fun p => p.q < q || (p.q = q && (p.n < n || (p.n = n && p.r < r)))) then best
      else match chooseCores n r cap clusters (open_ r) gs (affFamilies y.k) [] with
        | some (cs, pick) => some { q := q, n := n, r := r, d := d, b := b, ebound := e, cores := cs.foldl (fun l c => insertNat c l) [], pick := pick }
        | none => best) best) none

/-! ### The answer -/

/-- What the Nose answers: a refusal with reason and offset, or an offer. -/
inductive Answer where
  | refused (reason offset : Nat)
  | offered (o : Offer)

/-- R350: what a partition's quota leaves. -/
def freeQuota (s : State) (part : Nat) : Nat :=
  let mine := (s.claims.filter (fun c => c.2.part == part && c.2.st != .free)).filter (fun c => c.2.st == .making || !c.2.pins.isEmpty)
  let unused := (s.launches.filter (fun l => l.2.offer.part == part)).foldl (fun n l => n + (l.2.offer.claims - l.2.creations)) 0
  (s.part part).quota.toNat - mine.length - unused

/-- Checks 10 and 11 and the record, for a kernel that has passed the others (R234). -/
def offerOf (s : State) (part serial : Nat) (tag : BitVec 64) (y : Priced) (floor most : Nat) : Answer :=
  let k := y.k
  let bsl := ((y.x.g.ins.filterMap bslotOf).foldl (fun l b => insertNat b l) []).foldl (fun n b => n + 2 ^ b) 0
  let feats := featsOf k y.a bsl
  let q := s.part part
  let open_ (r : Nat) : List Nat := ranked s.tick ((List.range 192).filter (coreOpen s part y feats bsl r))
  let cap (die : Nat) : Nat := if k.hasCopy then (freeCtxs s die).length else 96
  if floorCap s part < floor then .refused rFLOOR noPc
  else if !q.ctrl.getLsbD 0 || q.breaking then .refused rRESOURCE noPc
  else match bestPlacement y floor most (if y.a.cores = 0 then 192 else y.a.cores) open_ cap (ranked s.tick (List.range 32)) with
    | none => .refused rRESOURCE noPc
    | some p =>
      let on (die : Nat) : Nat := if p.cores.any (fun c => dieOf c == die) then k.diescratch else 0
      .offered
        { serial := serial, part := part, tag := tag, gen := s.gen, klass := y.a.klass, g2400 := y.price.g = 2400, hAtomics := y.price.hAtomics,
          q := p.q, ebound := p.ebound, feats := feats, floor := floor, d := p.d, rounds := y.rounds p.n p.r, r := p.r, k := y.kOf p.b,
          quantum := y.a.quantum, cores := p.cores, scratch := p.r * roundScratch k.scratch,
          regblk := maxOf ((List.range 4).map (fun sl => p.r * slotWaves y.a.waves sl * allotOf y.a k + sweepsOn k sl * (k.regs / 16))),
          bslots := BitVec.ofNat 8 bsl, swctx := BitVec.ofNat 8 (k.accords.foldl (fun n a => n + 2 ^ a.c) 0), die0 := on 0, die1 := on 1,
          claims := Nat.min (freeQuota s part) (k.claimsOnPath * (y.a.waves * y.a.nblock)), cectx := if k.hasCopy then p.n else 0,
          stack := (y.plain (fun _ => 0) 0).stack 0 k.width,
          swstack := k.accords.foldl (fun t a => tput t a.c (maxOf ((y.resumes a.c).map (fun p => (y.plain (fun _ => 0) 0).stack p k.width)))) [],
          cohortClusters := p.pick.flatMap (fun x => x.1.map (fun c => (c.entry, x.2))),
          nblock := y.a.nblock, waves := y.a.waves, allot := allotOf y.a k, image := y.a.image, imglen := y.a.imglen, params := y.a.params, kernel := k }

/-- Checks 4 to 11 on a kernel whose words are all legal. -/
def checkFlow (s : State) (part serial : Nat) (tag : BitVec 64) (a : Ask) (k : Kernel) (g : Prog) (limits : List (Option Nat)) : Answer :=
  let x := g.shape
  let pair := pairWords g k
  let det := k.det || a.flags = 1
  let g2 := hasSecondTier s (s.part part).map
  let price : Price := { g := if g2 then 2400 else 1200, hAtomics := hasRemote (s.part part).map, width := k.width, fill := k.fillLimit, limits := g.limits }
  let has (f : Instr → Bool) : Bool := g.ins.any f
  let k : Kernel := { k with limits := g.limits, det := det, hasCopy := has isCopy, hasMatrix := has (fun i => (bslotOf i).isSome),
                             hasSpecial := has isSpecial, pairNbr := pair.map (fun p => 8 * p) }
  let y : Priced := { x := x, k := k, a := a, det := det, price := price }
  let k : Kernel := { k with claimsOnPath := y.claimWords }
  let y : Priced := { y with k := k }
  let floor := if a.floor = 0 then floorCap s part else a.floor
  let start := if k.regs / 16 < a.allot then k.regs / 16 else allotOf a k
  let most := mostBlocks k a det (ownSweep k)
  match lowest (x.bad ++ limitWords g limits) with
  | some o => .refused rUNBOUNDED o
  | none =>
    let q1 := y.qOf (y.block (y.share 1)) 1 1
    let n := a.waves * a.nblock
    if unusedLimit g limits || 2 ^ 62 < q1 || 2 ^ 62 < eboundOf (y.charge * n) (y.byteUnits * n) floor 1 q1 then .refused rUNBOUNDED noPc
    else match lowest (g.badPromises pair (k.regs / 16) start) with
      | some o => .refused rLOOKAHEAD o
      | none => match lowest (x.badAllots pair (k.regs / 16) start) with
        | some o => .refused rREGS o
        | none =>
          if k.regs / 16 < a.allot then .refused rREGS noPc
          else match (if det then lowest (detWords x) else none) with
            | some o => .refused rDETERMINISM o
            | none =>
              if !accordsFit k || most = 0 then .refused rSHAPE noPc
              else if !cohortsOk k a.nblock most then .refused rCOHORT noPc
              else offerOf s part serial tag y floor most

/-- The words of the code, from the image's bytes. -/
def wordsOf : Nat → List Byte → List (BitVec 64)
  | 0, _ => []
  | n + 1, bs => ((wordOfBytes (bs.take 8)).getD 0) :: wordsOf n (bs.drop 8)

/-- Check 3 on, from the image's words. -/
def checkCode (s : State) (part serial : Nat) (tag : BitVec 64) (a : Ask) (r : KRec) (ws : List (BitVec 64)) : Answer :=
  let limits := r.exprs.map (fun e => evalToks a.params e [])
  let g : Prog :=
    { ins := ws.map (fun w => (decode w).getD .exit), recurse := r.k.recurse.map (fun x => (x.1 / 8, x.2)),
      tables := r.k.tables.map (fun t => t.map (fun p => p / 8)), resumes := r.k.accords.map (fun c => c.resume.map (fun p => p / 8)),
      limits := limits.map (fun v => v.getD 0) }
  match lowest ((List.range ws.length).filter (fun p => (decode (ws.getD p 0)).isNone) ++ illegalWords g r.k limits a.nblock) with
  | some o => .refused rILLEGAL o
  | none => checkFlow s part serial tag a r.k g limits

/-- The device address of a kernel image has a translation in the partition. DEDUCED (log 83). -/
def mapped (s : State) (m : Mapping) (a : BitVec 64) : Bool := a.toNat < 2 ^ 57 && (m.targetOf s a.toNat).isSome

/-- The Nose on one request whose descriptor lies at `addr` (R225). -/
def nose (s : State) (part serial : Nat) (tag addr : BitVec 64) : Answer :=
  let m := (s.part part).map
  match (if addr.toNat % 256 = 0 then readDev s m addr 256 else none) with
  | none => .refused rREQUEST noPc
  | some d =>
    let a := askOf d
    match (if askOk d a && mapped s m a.image then readDev s m a.krec a.kreclen else none) with
    | none => .refused rREQUEST noPc
    | some kb => match readRecord kb with
      | none => .refused rREQUEST noPc
      | some r => match (if 131072 < r.k.codeLen || a.imglen < 8 * r.k.codeLen then none else readDev s m a.image a.imglen) with
        | none => .refused rSIZE noPc
        | some img => checkCode s part serial tag a r (wordsOf r.k.codeLen img)

end Sys2Proof.Machine
end

