-- ==== Sys2Proof/Machine/Quote.lean ====
section
/-! DEFINITION. The request windows' doorbells (R224, R234, R236, R237, R377): quotations, accepts, declines, malformed
windows. -/

namespace Sys2Proof.Machine

/-! ### The window (Table 25-2) -/

def Bell.cmd (b : Bell) : Nat := field b.bytes 0 8
def Bell.arg0 (b : Bell) : Nat := field b.bytes 8 8
def Bell.arg1 (b : Bell) : Nat := field b.bytes 16 8
def Bell.tag (b : Bell) : BitVec 64 := BitVec.ofNat 64 (field b.bytes 24 8)

/-- R377: a CMD of Table 25-2 and zero reserved bytes. -/
def Bell.wellFormed (b : Bell) : Bool := (b.cmd == 1 || b.cmd == 2 || b.cmd == 3) && field b.bytes 0x20 32 == 0

/-- What the device makes of a window: 1 QUOTE, 2 ACCEPT, 3 DECLINE, 5 a malformed window. -/
def Bell.does (b : Bell) : Nat := if b.wellFormed then b.cmd else 5

/-- The oldest doorbell of a partition, where window `win` rang it for the kind of request, is taken; any other leaves
the machine as it is. -/
def onBell (s : State) (part win kind : Nat) (f : State → Bell → State) : Out :=
  match (s.part part).bells with
  | b :: rest =>
    .next (if b.win = win && b.does = kind then f (s.modPart part (fun q => { q with bells := rest })) b else s)
  | [] => .next s

/-! ### The quotation record (Table 12-5) -/

def bitSet (l : List Nat) : Nat := l.foldl (fun n i => n + 2 ^ i) 0

def refusedRecord (serial reason offset : Nat) : List Byte := fields [(8, serial), (1, 2), (1, reason), (2, 0), (4, offset), (496, 0)]

/-- Byte c of COHORTS. -/
def cohortBytes (o : Offer) : List Byte :=
  (List.range 256).map (fun c => BitVec.ofNat 8 (match o.cohortClusters.find? (fun x => x.1 == c) with | some x => x.2 | none => 255))

/-- Table 12-5. The K field holds the low 16 bits of K, which may pass them (R234); the offer keeps the whole.
DESIGN CHOICE (log 98). -/
def offeredRecord (o : Offer) : List Byte :=
  fields [(8, o.serial), (1, 1), (1, 0), (1, o.klass), (1, o.kernel.det.toNat + 2 * o.g2400.toNat + 4 * o.hAtomics.toNat), (4, noPc),
    (8, o.q), (8, o.ebound), (8, o.gen), (8, o.feats.toNat), (1, o.floor), (1, o.d), (2, 0), (4, o.rounds), (2, o.r), (2, o.k),
    (4, o.quantum), (24, bitSet o.cores), (4, o.scratch), (2, o.regblk), (1, o.bslots.toNat), (1, o.swctx.toNat), (8, o.die0 + 2 ^ 32 * o.die1),
    (4, o.claims), (2, o.cectx), (2, 0), (4, o.stack), (12, 0)] ++ cohortBytes o ++ fields [(128, 0)]

/-- R317: the launch of an offer follows what its doorbell followed. -/
def Answer.after (n : Nat) : Answer → Answer
  | .refused r o => .refused r o
  | .offered o => .offered { o with hpt := n }

/-- What a request is answered: RESET for one written during a reset (R224), RESOURCE while a self-test runs (R387), else
the Nose's answer. DEDUCED (log 53). -/
def quoteAnswer (s : State) (part serial : Nat) (b : Bell) : Answer :=
  if b.inReset then .refused rRESET noPc
  else if s.selfTest then .refused rRESOURCE noPc
  else (nose s part serial b.tag (BitVec.ofNat 64 b.arg0)).after b.hpt

/-- The record that an answer makes. -/
def Answer.record (serial : Nat) : Answer → List Byte
  | .refused reason offset => refusedRecord serial reason offset
  | .offered o => offeredRecord o

/-- An offer stays open with its partition. -/
def Answer.keep (s : State) (part : Nat) : Answer → State
  | .refused _ _ => s
  | .offered o => s.modPart part (fun q => { q with offers := q.offers ++ [o] })

/-- A request takes the next serial, is quoted, and its record waits for the ring. -/
def quoteBell (s : State) (part : Nat) (b : Bell) : State :=
  let serial := s.lastSerial + 1
  let s := { s with lastSerial := serial }
  let a := quoteAnswer s part serial b
  postRecord (a.keep s part) part 1 (a.record serial) b.tag vQUOTE

/-- QUOTE. -/
def execQuote (part win : Nat) (s : State) : Out := onBell s part win 1 (fun s b => quoteBell s part b)

/-! ### Answers (R236, R378) -/

/-- Results of an answer record. -/
def rsCLOSED : Nat := 1
def rsSTALE : Nat := 2
def rsBALANCE : Nat := 3
def rsACCEPTED : Nat := 4
def rsMALFORMED : Nat := 5

def answerBell (s : State) (part : Nat) (b : Bell) (result : Nat) : State :=
  postRecord s part 4 (fields [(8, b.arg0), (1, result), (7, 0)]) b.tag vQUOTE

/-- The frames of the bytes of an image as its device addresses translate now (R243). -/
def imageFrames (s : State) (o : Offer) : List Nat :=
  let lo := o.image.toNat / 4096
  let hi := (o.image.toNat + o.imglen - 1) / 4096
  (List.range (hi + 1 - lo)).foldl (fun fs i => match translate s (s.part o.part).map (BitVec.ofNat 64 (4096 * (lo + i))) .load with
    | .at_ loc => insertNat (loc / 4096) fs
    | _ => fs) []

/-- One context for each reserved core, on an engine of its die (R246). -/
def takeContexts (s : State) (o : Offer) : Tab Nat :=
  if o.kernel.hasCopy then
    (List.range 2).foldl (fun t d => ((o.cores.filter (fun c => dieOf c == d)).zip (ranked s.tick (freeCtxs s d))).foldl (fun t p => tput t p.1 p.2) t) []
  else []

/-- The launch that an offer becomes. DEDUCED (log 54). -/
def launchOf (s : State) (o : Offer) : Launch :=
  { offer := o, own0 := itemsOf o 0, own1 := itemsOf o 1, ctxOf := takeContexts s o, locked := imageFrames s o }

/-- A migration onto a page that has been locked is given up: its bytes stay where they are, and no agent writes the locked
ones (R61, R182). DEDUCED (log 59). -/
def keepLocked (s : State) : State := { s with migrations := s.migrations.filter (fun g => !lockedPage s (pageAt s g.new_)) }

/-- ACCEPTED: EBOUND leaves the balance, the reservations are taken, the code is locked, the generation moves, the
clusters rise to the floor. An excursion of the supply that is going on is an event of the launch as well. -/
def acceptOffer (s : State) (o : Offer) : State :=
  let s := s.modPart o.part (fun q => { q with offers := q.offers.filter (fun x => x.serial != o.serial) })
  let s := setBalance s o.part ((s.part o.part).balance - o.ebound)
  let l := launchOf s o
  let l := match s.beyond with | some mv => l.excursion mv s.tick | none => l
  let s := keepLocked { s with launches := tput s.launches o.serial l, gen := s.gen + 1 }
  (o.cores.foldl (fun ks c => insertNat (clusterOf c) ks) []).foldl retarget s

/-- Table 12-6: the first condition that holds. A GEN that is not the record's is STALE as one of the past is.
DESIGN CHOICE (log 99). -/
def acceptBell (s : State) (part : Nat) (b : Bell) : State :=
  match (s.part part).offers.find? (fun o => o.serial == b.arg0) with
  | none => answerBell s part b rsCLOSED
  | some o =>
    if b.arg1 != s.gen || o.gen != s.gen then
      answerBell (s.modPart part (fun q => { q with offers := q.offers.filter (fun x => x.serial != o.serial) })) part b rsSTALE
    else if (s.part part).balance < o.ebound then answerBell s part b rsBALANCE
    else answerBell (acceptOffer s o) part b rsACCEPTED

/-- ACCEPT. -/
def execAccept (part win : Nat) (s : State) : Out := onBell s part win 2 (fun s b => acceptBell s part b)

/-- DECLINE: closes the partition's own open offer; always CLOSED. -/
def execDecline (part win : Nat) (s : State) : Out :=
  onBell s part win 3 (fun s b =>
    answerBell (s.modPart part (fun q => { q with offers := q.offers.filter (fun x => x.serial != b.arg0) })) part b rsCLOSED)

/-- MALFORMED. -/
def execMalformed (part win : Nat) (s : State) : Out := onBell s part win 5 (fun s b => answerBell s part b rsMALFORMED)

end Sys2Proof.Machine
end

