-- ==== Sys2Proof/Machine/Dispatch.lean ====
section
/-! DEFINITION. One arm per constructor: the meaning of each row of the operation table. -/

namespace Sys2Proof.Machine

def exec (i : Instr) (s : State) : Host.Outcome State Fault Refusal :=
  match i with
  | .iadd r => Sys2Proof.Machine.execIadd r s
  | .isub r => Sys2Proof.Machine.execIsub r s
  | .iaddc r => Sys2Proof.Machine.execIaddc r s
  | .isadd r => Sys2Proof.Machine.execIsadd r s
  | .imul r => Sys2Proof.Machine.execImul r s
  | .imulh r => Sys2Proof.Machine.execImulh r s
  | .imad r => Sys2Proof.Machine.execImad r s
  | .imin r => Sys2Proof.Machine.execImin r s
  | .imax r => Sys2Proof.Machine.execImax r s
  | .iabs r => Sys2Proof.Machine.execIabs r s
  | .ineg r => Sys2Proof.Machine.execIneg r s
  | .and r => Sys2Proof.Machine.execAnd r s
  | .or r => Sys2Proof.Machine.execOr r s
  | .xor r => Sys2Proof.Machine.execXor r s
  | .not r => Sys2Proof.Machine.execNot r s
  | .shl r => Sys2Proof.Machine.execShl r s
  | .shr r => Sys2Proof.Machine.execShr r s
  | .shra r => Sys2Proof.Machine.execShra r s
  | .rot r => Sys2Proof.Machine.execRot r s
  | .popc r => Sys2Proof.Machine.execPopc r s
  | .clz r => Sys2Proof.Machine.execClz r s
  | .brev r => Sys2Proof.Machine.execBrev r s
  | .bfx r => Sys2Proof.Machine.execBfx r s
  | .bfi r => Sys2Proof.Machine.execBfi r s
  | .icmp c r => Sys2Proof.Machine.execIcmp c r s
  | .sel r => Sys2Proof.Machine.execSel r s
  | .mov r => Sys2Proof.Machine.execMov r s
  | .movi h dst signed scalar imm => Sys2Proof.Machine.execMovi h dst signed scalar imm s
  | .nhash r => Sys2Proof.Machine.execNhash r s
  | .fadd m r => Sys2Proof.Machine.execFadd m r s
  | .fsub m r => Sys2Proof.Machine.execFsub m r s
  | .fmul m r => Sys2Proof.Machine.execFmul m r s
  | .ffma m r => Sys2Proof.Machine.execFfma m r s
  | .fmin m r => Sys2Proof.Machine.execFmin m r s
  | .fmax m r => Sys2Proof.Machine.execFmax m r s
  | .fcmp c m r => Sys2Proof.Machine.execFcmp c m r s
  | .fclass cls m r => Sys2Proof.Machine.execFclass cls m r s
  | .frint m r => Sys2Proof.Machine.execFrint m r s
  | .fdiv m r => Sys2Proof.Machine.execFdiv m r s
  | .fsqrt m r => Sys2Proof.Machine.execFsqrt m r s
  | .fdot2 m r => Sys2Proof.Machine.execFdot2 m r s
  | .exp2 m r => Sys2Proof.Machine.execExp2 m r s
  | .log2 m r => Sys2Proof.Machine.execLog2 m r s
  | .rcp m r => Sys2Proof.Machine.execRcp m r s
  | .rsq m r => Sys2Proof.Machine.execRsq m r s
  | .sin m r => Sys2Proof.Machine.execSin m r s
  | .cos m r => Sys2Proof.Machine.execCos m r s
  | .tanh m r => Sys2Proof.Machine.execTanh m r s
  | .sigm m r => Sys2Proof.Machine.execSigm m r s
  | .erf m r => Sys2Proof.Machine.execErf m r s
  | .cvt st rnd r => Sys2Proof.Machine.execCvt st rnd r s
  | .pack st rnd r => Sys2Proof.Machine.execPack st rnd r s
  | .unpk st rnd r => Sys2Proof.Machine.execUnpk st rnd r s
  | .qnt st rnd r => Sys2Proof.Machine.execQnt st rnd r s
  | .dqnt st rnd r => Sys2Proof.Machine.execDqnt st rnd r s
  | .shfl r => Sys2Proof.Machine.execShfl r s
  | .shflx r => Sys2Proof.Machine.execShflx r s
  | .bcast r => Sys2Proof.Machine.execBcast r s
  | .redv op r => Sys2Proof.Machine.execRedv op r s
  | .scanv op r => Sys2Proof.Machine.execScanv op r s
  | .vtos r => Sys2Proof.Machine.execVtos r s
  | .stov r => Sys2Proof.Machine.execStov r s
  | .mand r => Sys2Proof.Machine.execMand r s
  | .mor r => Sys2Proof.Machine.execMor r s
  | .mxor r => Sys2Proof.Machine.execMxor r s
  | .mnot r => Sys2Proof.Machine.execMnot r s
  | .mpop r => Sys2Proof.Machine.execMpop r s
  | .many r => Sys2Proof.Machine.execMany r s
  | .mall r => Sys2Proof.Machine.execMall r s
  | .srd h keep scalar code dst => Sys2Proof.Machine.execSrd h keep scalar code dst s
  | .swr h keep scalar code src => Sys2Proof.Machine.execSwr h keep scalar code src s
  | .ats op r => Sys2Proof.Machine.execAts op r s
  | .cass r => Sys2Proof.Machine.execCass r s
  | .feset h keep scalar sa => Sys2Proof.Machine.execFeset h keep scalar sa s
  | .feclr h keep scalar sa => Sys2Proof.Machine.execFeclr h keep scalar sa s
  | .feqry h keep scalar dst sa => Sys2Proof.Machine.execFeqry h keep scalar dst sa s
  | .atg op r => Sys2Proof.Machine.execAtg op r s
  | .casg r => Sys2Proof.Machine.execCasg r s
  | .redg op r => Sys2Proof.Machine.execRedg op r s
  | .phase h => Sys2Proof.Machine.execPhase h s
  | .publ h => Sys2Proof.Machine.execPubl h s
  | .rfsh h => Sys2Proof.Machine.execRfsh h s
  | .fence system h => Sys2Proof.Machine.execFence system h s
  | .sysrel h => Sys2Proof.Machine.execSysrel h s
  | .mqma h keepA b g sa sb q bits => Sys2Proof.Machine.execMqma h keepA b g sa sb q bits s
  | .mcrd h ty dst b r c => Sys2Proof.Machine.execMcrd h ty dst b r c s
  | .mcwr h ty keepA src b r c => Sys2Proof.Machine.execMcwr h ty keepA src b r c s
  | .mcz h ty b r n => Sys2Proof.Machine.execMcz h ty b r n s
  | .lrchk h sel dst b => Sys2Proof.Machine.execLrchk h sel dst b s
  | .claim h d n => Sys2Proof.Machine.execClaim h d n s
  | .rcede h n => Sys2Proof.Machine.execRcede h n s
  | .rtake h n lim => Sys2Proof.Machine.execRtake h n lim s
  | .qinit h q sa logc allow => Sys2Proof.Machine.execQinit h q sa logc allow s
  | .qpush h q sa lim => Sys2Proof.Machine.execQpush h q sa lim s
  | .qpop h dst q lim => Sys2Proof.Machine.execQpop h dst q lim s
  | .rvinit h pt exp => Sys2Proof.Machine.execRvinit h pt exp s
  | .rvarr h pt dst rlx sc n => Sys2Proof.Machine.execRvarr h pt dst rlx sc n s
  | .rvexp h pt src => Sys2Proof.Machine.execRvexp h pt src s
  | .rvwait h pt rlx par lim => Sys2Proof.Machine.execRvwait h pt rlx par lim s
  | .rvtest h pt dst => Sys2Proof.Machine.execRvtest h pt dst s
  | .tlwait h num rlx hdl lim => Sys2Proof.Machine.execTlwait h num rlx hdl lim s
  | .tlread h dst hdl => Sys2Proof.Machine.execTlread h dst hdl s
  | .clwait h d t lim => Sys2Proof.Machine.execClwait h d t lim s
  | .fulfil h hdl t => Sys2Proof.Machine.execFulfil h hdl t s
  | .abandon h t => Sys2Proof.Machine.execAbandon h t s
  | .clrel h t => Sys2Proof.Machine.execClrel h t s
  | .clinv h d a => Sys2Proof.Machine.execClinv h d a s
  | .swgo h c d arg lim => Sys2Proof.Machine.execSwgo h c d arg lim s
  | .swait h sa => Sys2Proof.Machine.execSwait h sa s
  | .swend h => Sys2Proof.Machine.execSwend h s
  | .swake h sa scalar c => Sys2Proof.Machine.execSwake h sa scalar c s
  | .sctxr h dst sa scalar c => Sys2Proof.Machine.execSctxr h dst sa scalar c s
  | .sctxw h src sa scalar c => Sys2Proof.Machine.execSctxw h src sa scalar c s
  | .snbr h dst k mc => Sys2Proof.Machine.execSnbr h dst k mc s
  | .swqry h dst f c => Sys2Proof.Machine.execSwqry h dst f c s
  | .lds m => Sys2Proof.Machine.execLds m s
  | .sts m => Sys2Proof.Machine.execSts m s
  | .dlds m => Sys2Proof.Machine.execDlds m s
  | .dsts m => Sys2Proof.Machine.execDsts m s
  | .ldg home m => Sys2Proof.Machine.execLdg home m s
  | .stg m => Sys2Proof.Machine.execStg m s
  | .ldh m => Sys2Proof.Machine.execLdh m s
  | .sth m => Sys2Proof.Machine.execSth m s
  | .pfg m => Sys2Proof.Machine.execPfg m s
  | .spill h wide src k => Sys2Proof.Machine.execSpill h wide src k s
  | .fill h wide dst k => Sys2Proof.Machine.execFill h wide dst k s
  | .mbld h p b sa sb off => Sys2Proof.Machine.execMbld h p b sa sb off s
  | .mbcast h p b sa sb pt off => Sys2Proof.Machine.execMbcast h p b sa sb pt off s
  | .cpy a => Sys2Proof.Machine.execCpy a s
  | .cpyx a => Sys2Proof.Machine.execCpyx a s
  | .cpyrIn a => Sys2Proof.Machine.execCpyrIn a s
  | .cpyrOut a => Sys2Proof.Machine.execCpyrOut a s
  | .bra tgt => Sys2Proof.Machine.execBra tgt s
  | .brc neg m tgt => Sys2Proof.Machine.execBrc neg m tgt s
  | .brd neg m tgt dist => Sys2Proof.Machine.execBrd neg m tgt dist s
  | .join => Sys2Proof.Machine.execJoin s
  | .loopb l tgt lim => Sys2Proof.Machine.execLoopb l tgt lim s
  | .loopn l tgt lim => Sys2Proof.Machine.execLoopn l tgt lim s
  | .loopx l tgt => Sys2Proof.Machine.execLoopx l tgt s
  | .call tgt => Sys2Proof.Machine.execCall tgt s
  | .callt tbl idx => Sys2Proof.Machine.execCallt tbl idx s
  | .ret => Sys2Proof.Machine.execRet s
  | .exit => Sys2Proof.Machine.execExit s
  | .yield => Sys2Proof.Machine.execYield s
  | .nop => Sys2Proof.Machine.execNop s
  | .trap code => Sys2Proof.Machine.execTrap code s
  | .brk code => Sys2Proof.Machine.execBrk code s
  | .yieldc pt tgt lim => Sys2Proof.Machine.execYieldc pt tgt lim s
  | .pairedWord x y => Sys2Proof.Machine.execPairedWord x y s
  | .resultWriteback w tag => Sys2Proof.Machine.execResultWriteback w tag s
  | .scratchpadAccessPerform w => Sys2Proof.Machine.execScratchpadAccessPerform w s
  | .storeSetEntry w => Sys2Proof.Machine.execStoreSetEntry w s
  | .publicationPerform id => Sys2Proof.Machine.execPublicationPerform id s
  | .atomicAtHome w k => Sys2Proof.Machine.execAtomicAtHome w k s
  | .homeReadArrival w k => Sys2Proof.Machine.execHomeReadArrival w k s
  | .framePop w => Sys2Proof.Machine.execFramePop w s
  | .frameReadDone w slotB => Sys2Proof.Machine.execFrameReadDone w slotB s
  | .rvwaitComplete w slotB => Sys2Proof.Machine.execRvwaitComplete w slotB s
  | .tlwaitComplete w slotB => Sys2Proof.Machine.execTlwaitComplete w slotB s
  | .clwaitComplete w slotB => Sys2Proof.Machine.execClwaitComplete w slotB s
  | .qpushComplete w => Sys2Proof.Machine.execQpushComplete w s
  | .qpopComplete w => Sys2Proof.Machine.execQpopComplete w s
  | .rtakeComplete w slotB => Sys2Proof.Machine.execRtakeComplete w slotB s
  | .rcedeComplete w slotB => Sys2Proof.Machine.execRcedeComplete w slotB s
  | .ldsFillComplete w => Sys2Proof.Machine.execLdsFillComplete w s
  | .yieldcResume w slotB => Sys2Proof.Machine.execYieldcResume w slotB s
  | .fenceComplete w slotB => Sys2Proof.Machine.execFenceComplete w slotB s
  | .sysrelComplete w slotB ok => Sys2Proof.Machine.execSysrelComplete w slotB ok s
  | .waitLimitExpiry w site => Sys2Proof.Machine.execWaitLimitExpiry w site s
  | .fillLimitExpiry w => Sys2Proof.Machine.execFillLimitExpiry w s
  | .arrivalAtPoint w k => Sys2Proof.Machine.execArrivalAtPoint w k s
  | .ldhCompletion w k data => Sys2Proof.Machine.execLdhCompletion w k data s
  | .copyCommandArrival w => Sys2Proof.Machine.execCopyCommandArrival w s
  | .engineTurn ctx => Sys2Proof.Machine.execEngineTurn ctx s
  | .copyOperationStart ctx => Sys2Proof.Machine.execCopyOperationStart ctx s
  | .copyPieceCountdown ctx => Sys2Proof.Machine.execCopyPieceCountdown ctx s
  | .copyFinish ctx => Sys2Proof.Machine.execCopyFinish ctx s
  | .mbldComplete core b => Sys2Proof.Machine.execMbldComplete core b s
  | .matrixPass core b => Sys2Proof.Machine.execMatrixPass core b s
  | .matrixPassComplete core b => Sys2Proof.Machine.execMatrixPassComplete core b s
  | .broadcastPerform serial cohort => Sys2Proof.Machine.execBroadcastPerform serial cohort s
  | .sweepRunStart ctx => Sys2Proof.Machine.execSweepRunStart ctx s
  | .chunkEvaluation ctx => Sys2Proof.Machine.execChunkEvaluation ctx s
  | .sweepWaveForm ctx => Sys2Proof.Machine.execSweepWaveForm ctx s
  | .sweepStart ctx => Sys2Proof.Machine.execSweepStart ctx s
  | .sweepRunEnd ctx => Sys2Proof.Machine.execSweepRunEnd ctx s
  | .quote part win => Sys2Proof.Machine.execQuote part win s
  | .accept part win => Sys2Proof.Machine.execAccept part win s
  | .decline part win => Sys2Proof.Machine.execDecline part win s
  | .malformed part win => Sys2Proof.Machine.execMalformed part win s
  | .ringRecordWrite part => Sys2Proof.Machine.execRingRecordWrite part s
  | .tailWrite part v => Sys2Proof.Machine.execTailWrite part v s
  | .ringSet part isBase v => Sys2Proof.Machine.execRingSet part isBase v s
  | .partitionConfigWrite part reg v => Sys2Proof.Machine.execPartitionConfigWrite part reg v s
  | .commit part => Sys2Proof.Machine.execCommit part s
  | .force part => Sys2Proof.Machine.execForce part s
  | .breakingChangeApply part => Sys2Proof.Machine.execBreakingChangeApply part s
  | .reset part => Sys2Proof.Machine.execReset part s
  | .functionLevelReset part => Sys2Proof.Machine.execFunctionLevelReset part s
  | .resetDone part => Sys2Proof.Machine.execResetDone part s
  | .energyGrant via cmd => Sys2Proof.Machine.execEnergyGrant via cmd s
  | .transportFlagWrite v => Sys2Proof.Machine.execTransportFlagWrite v s
  | .routingEntryWrite v => Sys2Proof.Machine.execRoutingEntryWrite v s
  | .registerWrite pf part off data => Sys2Proof.Machine.execRegisterWrite pf part off data s
  | .hostWrite part addr data => Sys2Proof.Machine.execHostWrite part addr data s
  | .hostRead part addr len => Sys2Proof.Machine.execHostRead part addr len s
  | .blockPlace serial die cores => Sys2Proof.Machine.execBlockPlace serial die cores s
  | .stealMessage serial die => Sys2Proof.Machine.execStealMessage serial die s
  | .stealAnswer serial die => Sys2Proof.Machine.execStealAnswer serial die s
  | .quantumEnd core => Sys2Proof.Machine.execQuantumEnd core s
  | .preempt serial block => Sys2Proof.Machine.execPreempt serial block s
  | .resume serial block cores => Sys2Proof.Machine.execResume serial block cores s
  | .swap serial waiter lower => Sys2Proof.Machine.execSwap serial waiter lower s
  | .suspend serial => Sys2Proof.Machine.execSuspend serial s
  | .suspensionEnd serial => Sys2Proof.Machine.execSuspensionEnd serial s
  | .blockRetire serial block => Sys2Proof.Machine.execBlockRetire serial block s
  | .launchCompletion serial => Sys2Proof.Machine.execLaunchCompletion serial s
  | .launchFault serial => Sys2Proof.Machine.execLaunchFault serial s
  | .fulfilReady entry => Sys2Proof.Machine.execFulfilReady entry s
  | .claimEntryError entry => Sys2Proof.Machine.execClaimEntryError entry s
  | .quadrantShutdown q => Sys2Proof.Machine.execQuadrantShutdown q s
  | .relaunch serial block core => Sys2Proof.Machine.execRelaunch serial block core s
  | .blenderWindow pair => Sys2Proof.Machine.execBlenderWindow pair s
  | .frequencyRequest src cluster f => Sys2Proof.Machine.execFrequencyRequest src cluster f s
  | .rampStep cluster => Sys2Proof.Machine.execRampStep cluster s
  | .supplyExcursion mv => Sys2Proof.Machine.execSupplyExcursion mv s
  | .clockBelowFloor cluster f100 => Sys2Proof.Machine.execClockBelowFloor cluster f100 s
  | .referenceClockLoss => Sys2Proof.Machine.execReferenceClockLoss s
  | .hotPageScan part order => Sys2Proof.Machine.execHotPageScan part order s
  | .migrationStart page target => Sys2Proof.Machine.execMigrationStart page target s
  | .migrationLineCopy page => Sys2Proof.Machine.execMigrationLineCopy page s
  | .migrationSwitch page => Sys2Proof.Machine.execMigrationSwitch page s
  | .scrubError e part addr => Sys2Proof.Machine.execScrubError e part addr s
  | .fetchCheckError w slotB second => Sys2Proof.Machine.execFetchCheckError w slotB second s
  | .illop w slotB word => Sys2Proof.Machine.execIllop w slotB word s
  | .link port f => Sys2Proof.Machine.execLink port f s
  | .areq port f => Sys2Proof.Machine.execAreq port f s
  | .arsp port f => Sys2Proof.Machine.execArsp port f s
  | .rreq port f => Sys2Proof.Machine.execRreq port f s
  | .rdata port f => Sys2Proof.Machine.execRdata port f s
  | .wdata port f => Sys2Proof.Machine.execWdata port f s
  | .wack port f => Sys2Proof.Machine.execWack port f s
  | .reservedFlit port f => Sys2Proof.Machine.execReservedFlit port f s
  | .flitReplay port => Sys2Proof.Machine.execFlitReplay port s
  | .retrainStart port => Sys2Proof.Machine.execRetrainStart port s
  | .retrainEnd port ok => Sys2Proof.Machine.execRetrainEnd port ok s
  | .retrainAllowanceExpiry port => Sys2Proof.Machine.execRetrainAllowanceExpiry port s
  | .powerUp transportLow => Sys2Proof.Machine.execPowerUp transportLow s
  | .selfTestEnd masks rails hbm ports lpddr corrected => Sys2Proof.Machine.execSelfTestEnd masks rails hbm ports lpddr corrected s
  | .attestationRequest nonce => Sys2Proof.Machine.execAttestationRequest nonce s
  | .droop percent => Sys2Proof.Machine.execDroop percent s
  | .supplyReturn => Sys2Proof.Machine.execSupplyReturn s
  | .referenceClockReturn => Sys2Proof.Machine.execReferenceClockReturn s
  | .crcFailure port => Sys2Proof.Machine.execCrcFailure port s
  | .statusRead r => Sys2Proof.Machine.execStatusRead r s

end Sys2Proof.Machine
end

