-- ==== Sys2Proof/Machine/Issue.lean ====
section
/-! DEFINITION. The issue slot: which path may issue (R88 to R90, R301, R319), fetching and decoding its word (R61), and
what an issue counts (R50, R52, R56, R113, R239, R280). -/

namespace Sys2Proof.Machine

/-! ### Charge (R36, R50, R280) -/

/-- R36, R50, R280: the quanta that an issue charges. -/
def chargeOf (c : Ctx) (i : Instr) : Nat :=
  match i with
  | .pairedWord x y =>
    halfWeight x.op.toNat * popcount 64 (halfMask c x).toNat + halfWeight y.op.toNat * popcount 64 (halfMask c y).toNat
  | i => match rawOf i with
    | some r => weightOf r.op * popcount 64 (c.eff r.hdr).toNat
    | none => 0

/-! ### Eligibility -/

/-- R88, R95: the path is live, not parked, held by nothing, and no frame is due to be popped. -/
def Ctx.eligible (c : Ctx) : Bool :=
  c.b.place == .resident && !c.w.retiredWave && !c.sl.path.parked && c.sl.hold == .free && c.w.popDue.isNone

/-- R302: the waves of a block that is to leave its core issue no more. Its runs go on to their ends first (R335): the
sweep waves issue, and under the determinism flag the block's whole sequence, which is the same on every run whenever the
block is pre-empted (R311). DEDUCED (log 74). -/
def Ctx.stopped (c : Ctx) (s : State) : Bool :=
  c.b.draining && c.w.sweep.isNone && (!c.det || runsDone s c.id.serial c.id.block)

/-- R52, R351: a register of the word waits for a result, that of a waiting `CLWAIT` among them. -/
def scoreboardHolds (w : Wave) (i : Instr) : Bool :=
  let rs := regsOf i
  w.pend.any (fun p => p.dst.any (fun r => rs.contains r)) || [w.a, w.b].any (fun x => match x with
    | some sl => (match sl.hold with | .clwait d _ => rs.contains (.s d) || rs.contains (.s (d + 1)) | _ => false)
    | none => false)

/-- R208: the words of Set(scope). -/
def inFenceSet (system : Bool) : Instr → Bool
  | .ldg _ _ => true | .stg _ => true | .atg _ _ => true | .casg _ => true | .redg _ _ => true | .dlds _ => true | .dsts _ => true
  | .ldh _ => system | .sth _ => system
  | _ => false

/-- R208: a stable load, which reads in a view. -/
def readsView : Instr → Bool
  | .ldg home _ => !home
  | _ => false

/-- R208: a fence of the other path holds the words of its set, and a `NewView` that waits the loads that are to read in it. -/
def fenced (w : Wave) (i : Instr) : Bool :=
  let f (sl : Option Slot) : Bool := match sl with
    | some x => (match x.hold with
      | .fence system _ => inFenceSet system i
      | .view => readsView i
      | .ready _ _ => readsView i
      | _ => false)
    | none => false
  f w.a || f w.b

/-- The stores that a publication closes over may enter the set now (R188). -/
def storesFree (w : Wave) : Bool :=
  (List.range w.reqs.length).all (fun k => match w.reqs[k]? with
    | some r => !isStg r || (w.reqs.take k).all (fun q => isStg q || !mustFollow q r)
    | none => true)

/-- R211: what the other path of the wave waits for has come about in time, so that its wait ends first. -/
def Ctx.otherMet (c : Ctx) : Bool := (c.w.slot (!c.slotB)).any (fun sl => limited sl.hold && sl.met == some true)

/-- What the word itself waits for before it issues. A word that would push the other path onto the stack lets a wait of it
that is over end first (R211), a `FULFIL` or `ABANDON` one that has made the wave maker (R355). Under the determinism flag a stable load
waits until the block's publications are performed, for no value may depend on when they are (R311). DEDUCED (log 6). -/
def wordReady (s : State) (c : Ctx) (i : Instr) : Bool :=
  match i with
  | .phase h => !c.any h || storesFree c.w
  | .publ h => !c.any h || storesFree c.w
  | .sysrel h => !c.any h || storesFree c.w
  | .fulfil h _ _ => !c.any h || (storesFree c.w && !c.heirWaits s)
  | .abandon h _ => !c.any h || !c.heirWaits s
  | .call _ => !c.otherMet
  | .callt _ _ => !c.otherMet
  | .brd _ _ _ _ => !c.otherMet
  | .ldg home m => home || !c.det || !c.any m.h || ((tget {} s.views c.key).needs.isEmpty && (pubsOf s c.key).isEmpty)
  | _ => true

/-! ### Fetch (R34, R61) -/

/-- The word at a path's program counter, from the image; none where the bytes do not translate. -/
def fetch (s : State) (c : Ctx) : Option (List Byte) :=
  let xs := access s (c.mapping s) (c.l.offer.image + c.sl.path.pc.setWidth 64) 8 .load
  if (firstBad xs).isSome || (locsOf xs).length != 8 then none else some ((locsOf xs).map (memByte s))

/-- What the path's next word decodes to. -/
def nextWord (s : State) (c : Ctx) : Option Instr := (fetch s c).bind decodeBytes

/-- The path would issue now, but for turns and yields. -/
def Ctx.canIssue (c : Ctx) (s : State) : Bool :=
  c.eligible && !c.stopped s && (match nextWord s c with
    | some i => !scoreboardHolds c.w i && !fenced c.w i && wordReady s c i
    | none => true)

/-! ### Turns under the determinism flag (R90, R319, R334) -/

/-- R90: on a wave's turn the word comes from PC-A unless that is empty or parked. -/
def turnSlot (w : Wave) : Bool :=
  match w.a with
  | some x => x.parked
  | none => true

def onTurn (s : State) (c : Ctx) : Bool :=
  !c.det || (turnOf s c.id c.b == some (placeOf c.id) && !sweepDue s c.id c.b.core && turnSlot c.w == c.slotB)

/-! ### Yielding (R109) -/

/-- The other waves resident on a wave's issue slot. -/
def slotMates (s : State) (id : WaveId) (core : Nat) : List WaveId :=
  s.waves.filterMap (fun p =>
    let i : WaveId := { serial := p.1 / 128 / 2 ^ 32, block := p.1 / 128 % 2 ^ 32, wave := p.1 % 128 }
    match s.block i.serial i.block with
    | some b => if b.place == .resident && b.core == core && slotOf i == slotOf id && i != id && !p.2.retiredWave then some i else none
    | none => none)

/-- A wave that has yielded lets another eligible wave of its slot go first. -/
def yields (s : State) (c : Ctx) : Bool :=
  c.w.yielded && (slotMates s c.id c.b.core).any (fun i =>
    [false, true].any (fun sb => match s.ctxAt i sb with
      | some d => d.canIssue s && onTurn s d
      | none => false))

/-! ### The reuse latch (R55, R56) -/

/-- The KEEP bits of a word, for SA, SB and SC. -/
def keepOf (i : Instr) : Nat → Bool :=
  match i with
  | .mqma _ k _ _ _ _ _ _ => fun p => p == 0 && k
  | .mcwr _ _ k _ _ _ _ => fun p => p == 0 && k
  | i => match rawOf i with
    | some r => fun p => (unpackR r.body).keep.getLsbD (2 - p)
    | none => fun _ => false

/-- The latch positions that a register-format word fills (R55): those of its KEEP bits whose field names a register. -/
def keeps (i : Instr) : List Pos := (posOf i).filter (fun p => keepOf i p.1)

/-- Whether a word is a full word of the register format. -/
def isRegWord (i : Instr) : Bool :=
  match i with
  | .pairedWord _ _ => false
  | i => (rawOf i).any (fun r => r.op.toNat < 0x40)

/-- The vector and scalar registers that a word writes: register and scalar kind. -/
def wroteBy (i : Instr) : List (Nat × Bool) :=
  (writesOf false i).filterMap (fun r => match r with | .v n => some (n, false) | .s n => some (n, true) | .m _ => none)

/-- The values that a register holds: of each lane, or of the scalar register. Of a 64-bit vector operand a position keeps
the even register's lanes alone (R55). DESIGN CHOICE (log 28). -/
def Wave.lanesOf (w : Wave) (reg : Nat) (scal : Bool) : List DWord :=
  if scal then [w.readS reg] else (List.range w.width).map (fun l => (w.readV reg l).setWidth 64)

/-- R55: a register-format word takes a register from the latch where the position holds it, of the same wave and kind;
the registers of the wave as the word reads them. DEDUCED (log 28). -/
def fromLatch (w : Wave) (key : Nat) (t : List Latch) (i : Instr) : Wave :=
  (t.filter (fun x => x.wave == key && isRegWord i && (posOf i).contains (x.pos, x.reg, x.scal))).foldl
    (fun w x => if x.scal then w.writeS x.reg (x.vals.headD 0)
      else x.vals.zipIdx.foldl (fun w v => w.writeV x.reg v.2 (v.1.setWidth 32)) w) w

/-- R55, R56: the reuse latch after an issue of a wave, key `key`: `w` is the wave as the word read it, `now` whether the
word has written its registers as it issued. DEDUCED (log 28). -/
def latchAfter (t : List Latch) (key : Nat) (w : Wave) (i : Instr) (now : Bool) : List Latch :=
  if !isRegWord i then []
  else
    let kept := keeps i
    let t := (t.filter (fun x => x.wave == key && !kept.any (fun k => k.1 == x.pos))) ++
      kept.map (fun k => { wave := key, pos := k.1, reg := k.2.1, scal := k.2.2, vals := w.lanesOf k.2.1 k.2.2 })
    if now then t.filter (fun x => !(wroteBy i).contains (x.reg, x.scal)) else t

/-- EFF of a word is not empty. -/
def effAny (c : Ctx) (i : Instr) : Bool := (rawOf i).any (fun r => c.any r.hdr)

/-! ### The slot's choice (R89, R282, R310) -/

/-- A path that its slot may issue now. -/
def Ctx.may (c : Ctx) (s : State) : Bool := c.canIssue s && onTurn s c

/-- The paths of the waves resident on a wave's issue slot. -/
def slotPaths (s : State) (id : WaveId) (core : Nat) : List Ctx :=
  (id :: slotMates s id core).flatMap (fun i => [false, true].filterMap (fun sb => s.ctxAt i sb))

/-- The other waves of a slot, of launches without the determinism flag, that have an eligible path. -/
def rivals (s : State) (id : WaveId) (core : Nat) : List (WaveId × Wave) :=
  (slotMates s id core).filterMap (fun i =>
    ([false, true].filterMap (fun sb => s.ctxAt i sb)).find? (fun d => !d.det && d.may s) |>.map (fun d => (i, d.w)))

/-- R89: after this issue every rival can still have its issue in each window of 16; where that cannot be, the wave is
the one passed over longest. DEDUCED (log 72). -/
def fair (s : State) (c : Ctx) : Bool :=
  let rs := rivals s c.id c.b.core
  (List.range 16).all (fun k => (rs.filter (fun r => 15 ≤ r.2.passed + k)).length ≤ k) ||
    rs.all (fun r => r.2.yielded || r.2.passed ≤ c.w.passed)

/-- Weight times popcount of EFF of a path's next word. -/
def nextCharge (s : State) (c : Ctx) : Nat :=
  match nextWord s c with
  | some i => chargeOf c i
  | none => 0

/-- R282, R283: on the heavier layer of a pair whose margin is held the slot takes the word of the smallest charge among
those that R88 and R89 allow, on the lighter the largest. DEDUCED (log 73). -/
def biased (s : State) (c : Ctx) : Bool :=
  match (s.cluster (clusterOf c.b.core)).bias with
  | none => true
  | some heavy => c.det || (slotPaths s c.id c.b.core).all (fun d =>
      d.det || !d.may s || yields s d || !fair s d ||
        (if heavy then nextCharge s c ≤ nextCharge s d else nextCharge s d ≤ nextCharge s c))

/-- R310: the slot serves the blocks of a launch that have a ready turn on it in ascending block index, cyclically, after
the block it served last. -/
def slotNext (s : State) (c : Ctx) : Bool :=
  !c.det ||
    (let ready := ((slotPaths s c.id c.b.core).filter (fun d => d.id.serial == c.id.serial && d.may s)).foldl
        (fun bs d => insertNat d.id.block bs) []
     let after := match tfind s.served (4 * c.b.core + slotOf c.id) with
       | some n => ready.find? (fun b => n < b)
       | none => none
     (after.or ready.head?) == some c.id.block)

/-- The slot may choose the path for its next issue. -/
def Ctx.chosen (c : Ctx) (s : State) : Bool := c.may s && !yields s c && fair s c && biased s c && slotNext s c

/-- The state in which the word of a chosen path executes: the slot's rivals have been passed over once more (R89), the
registers that the reuse latch holds are taken from it (R55), the cursor names the path. -/
def State.chosenFor (s : State) (c : Ctx) (i : Instr) : State :=
  let rs := rivals s c.id c.b.core
  let slot := 4 * c.b.core + slotOf c.id
  let s := (slotMates s c.id c.b.core).foldl (fun s j =>
    s.modWave j (fun w => { w with passed := if rs.any (fun r => r.1 == j) then w.passed + 1 else 0 })) s
  { s.modWave c.id (fun w => fromLatch w (wkey c.id) (tget [] s.latches slot) i) with cur := (c.id, c.slotB) }

/-! ### Counting an issue -/

/-- What an issue adds to the wave, the cluster and the launch; the latch, the rotation and the yields of the slot move
on (R89, R113, R239, R280, R319). `c` is the path as it issued. DEDUCED (log 17). -/
def account (c : Ctx) (i : Instr) (s : State) : State :=
  let q := chargeOf c i
  let slot := 4 * c.b.core + slotOf c.id
  let s := s.modWave c.id (fun w =>
    { w.setSlot c.slotB ((w.slot c.slotB).map (fun x => { x with retry := false })) with
      retired := w.retired + 1, charge := w.charge + q, yielded := i == .yield && !c.det, passed := 0 })
  let s := s.modCluster (clusterOf c.b.core) (fun k => { k with charge := k.charge + BitVec.ofNat 64 q })
  let mv := (s.cluster (clusterOf c.b.core)).mv
  let s := s.modLaunch c.id.serial (fun l => { l with quanta := l.quanta + q, above := l.above + aboveBasis l.offer.floor mv q })
  let trapped : Bool := match s.ctxAt c.id c.slotB with | some d => d.sl.hold == .trapped | none => false
  let later : Bool := match s.wave c.id with | some w => w.pend.any (fun p => p.tag == s.tick) | none => true
  let latch := if trapped then [] else latchAfter (tget [] s.latches slot) (wkey c.id) c.w i (effAny c i && !later)
  let s := { s with latches := tset [] s.latches slot latch }
  let s := if c.det then { s.modBlock c.id.serial c.id.block (fun b => { b with rot := placeOf c.id + 1 }) with served := tput s.served slot c.id.block } else s
  (slotMates s c.id c.b.core).foldl (fun s i => s.modWave i (fun w => { w with yielded := false })) s

/-- A row of the table that is no instruction word: a step of the device, the host or the board.
DESIGN CHOICE (log 66). -/
def isEvent (i : Instr) : Bool := (encode i).isNone

/-- One issue of a path: nothing where the path may not issue; an undecodable word raises ILLOP (R61).
DESIGN CHOICE (log 2). -/
def issueStep (w : WaveId) (slotB : Bool) (s : State) : Out :=
  match s.ctxAt w slotB with
  | none => .next s
  | some c =>
    if !c.chosen s then .next s
    else match fetch s c with
      | none => .next s
      | some bytes => match decodeBytes bytes with
        | some i => (match exec i (s.chosenFor c i) with
          | .next t => .next (account c i t)
          | .fault f => .fault f
          | .refused r => .refused r)
        | none => execIllop w slotB (BitVec.ofNat 64 (ofLeBytes bytes)) s

end Sys2Proof.Machine
end

