-- ==== Sys2Proof/Machine/Place.lean ====
section
/-! DEFINITION. How one word comes to be the next that issues: a launch of one block of one wave, loaded as an accepted
launch would stand once its block is placed. It stands for the host's loading of a program (R223, R236, R298). -/

namespace Sys2Proof.Machine

/-- Serial of the loaded launch: one that no launch of the state holds. -/
def loadSerial (s : State) : Nat := s.lastSerial + 1

/-- Tier-physical address of the loaded image, in HBM. -/
def loadBase : Nat := 0x10000

def loadKernel : Kernel :=
  { codeLen := 1, width := 16, regs := 256, det := false, scratch := 1024, diescratch := 0, fillLimit := 1000,
    recurse := [], limits := [], cohorts := [], tables := [], accords := [], hasCopy := false, hasMatrix := false,
    hasSpecial := false, claimsOnPath := 0, pairNbr := [] }

def loadOffer (serial : Nat) : Offer :=
  { serial := serial, part := 0, tag := 0, gen := 0, klass := 0, g2400 := false, hAtomics := false, q := 0, ebound := 0, feats := 0x21000,
    floor := 12, d := 1, rounds := 1, r := 1, k := 0, quantum := 0, cores := [0], scratch := 1024, regblk := 16,
    bslots := 0xFF, swctx := 0, die0 := 0, die1 := 0, claims := 0, cectx := 0, stack := 0, cohortClusters := [],
    nblock := 1, waves := 1, allot := 16, image := BitVec.ofNat 64 loadBase, imglen := 8, params := [], kernel := loadKernel }

/-- A range that maps the first 64 MiB of device addresses to HBM, with every permission. -/
def loadRange : RangeEnt :=
  { w0 := 0x9C00000000000000, w1 := 0x4000000, w2 := 0, w3 := 0 }

def loadBlock : Block := { core := 0, place := .resident, startDie := 0, nwaves := 1 }
def loadWave (tick : Nat) : Wave :=
  { width := 16, allot := 16, resident := some tick, a := some { path := { pc := 0, mask := allLanes 16, join := none, parked := false } } }

/-- The bytes of the word stand at the start of a loaded image, and its issue is the next move.
DESIGN CHOICE (log 5). -/
def placeProgram (s : State) (bytes : List Byte) : State :=
  let n := loadSerial s
  let id : WaveId := { serial := n, block := 0, wave := 0 }
  let p := s.part 0
  let map := { p.map with ranges := tput p.map.ranges 0 loadRange }
  { s with
    mem := tputs 0 s.mem loadBase bytes,
    parts := tput s.parts 0 { p with map := map },
    launches := tput s.launches n { offer := loadOffer n, st := .running, locked := [map.locOf s loadBase loadBase / 4096] },
    blocks := tput s.blocks (bkey n 0) loadBlock,
    waves := tput s.waves (wkey id) (loadWave s.tick),
    agenda := .issue id false :: s.agenda }

end Sys2Proof.Machine
end

