-- ==== Sys2Proof/Machine/Step.lean ====
section
/-! DEFINITION. One step of the machine: the next move of the schedule, a path's issue or an event of the device, the
host or the board. -/

namespace Sys2Proof.Machine

/-- The state in which the first move of the schedule is made. DESIGN CHOICE (log 2). -/
def State.begin_ (s : State) (rest : List Move) : State := { s with agenda := rest, tick := s.tick + 1 }

/-- What the head of the schedule does. With no move left the clock alone goes on. DESIGN CHOICE (log 2). -/
def move (s : State) : Out :=
  match s.agenda with
  | [] => .next (s.begin_ [])
  | .issue w slotB :: rest => issueStep w slotB (s.begin_ rest)
  | .event i :: rest => if isEvent i then exec i (s.begin_ rest) else .next (s.begin_ rest)

/-- One step: the next move, after which the waits whose conditions hold are noted (R211), and the words
that stall on the fabric (R384). -/
def step (s : State) : Host.Outcome State Fault Refusal :=
  match move s with
  | .next t => .next (noteStalls (noteWaits t))
  | .fault f => .fault f
  | .refused r => .refused r

/-- A launch of one wave is loaded whose first word is the given word, and its issue is the next move.
DESIGN CHOICE (log 5). -/
def State.withFetchWord (s : State) (nbits w : Nat) : State := placeProgram s (bytesOfWord (BitVec.ofNat 64 (w % 2 ^ nbits)))

end Sys2Proof.Machine
end

