-- ==== Sys2Proof/Safety.lean ====
section
/-! DEFINITION. What counts as a safe run, and the words in which the statements say what a step leaves. -/

namespace Sys2Proof.Machine

/-- A step that is neither a fault nor a refusal. -/
def runs (s : State) : Prop := ∃ t, step s = .next t

/-- What every step keeps: device memory and host memory in canonical form, the claim table's entries listed once each. -/
def Inv (s : State) : Prop := Memory.wf s.mem = true ∧ Memory.wf s.hostMem = true ∧ tsorted s.claims = true

/-! ### What a word leaves of its wave -/

/-- `w` is the issuing wave past its word, its registers apart: no other part of the wave differs. -/
def Ctx.past (c : Ctx) (w : Wave) : Prop := { w with v := c.w.v, s := c.w.s, m := c.w.m } = c.w.advance c.slotB

def Ctx.sameV (c : Ctx) (w : Wave) : Prop := ∀ r l, l < 64 → w.readV r l = c.w.readV r l
def Ctx.sameS (c : Ctx) (w : Wave) : Prop := ∀ r, w.readS r = c.w.readS r
def Ctx.sameM (c : Ctx) (w : Wave) : Prop := ∀ r, w.readM r = c.w.readM r

/-- Exactly the lanes `ls` of `v[d]`, and of `v[d + 1]` for a 64-bit value, hold new values. -/
def Ctx.wroteV (c : Ctx) (w : Wave) (d : Nat) (wide : Bool) (ls : List Nat) (x : Nat → BitVec 64) : Prop :=
  ∀ r l, l < 64 → w.readV r l =
    if l ∈ ls ∧ r = d then (x l).extractLsb' 0 32
    else if l ∈ ls ∧ wide = true ∧ r = d + 1 then (x l).extractLsb' 32 32
    else c.w.readV r l

/-- Exactly `s[d]` holds a new value, where the word acts. -/
def Ctx.wroteS (c : Ctx) (w : Wave) (d : Nat) (on : Bool) (x : BitVec 64) : Prop :=
  ∀ r, w.readS r = if on = true ∧ r = d then x else c.w.readS r

/-- Exactly the lanes of `on` of `m[d]` hold new bits; `m0` is never written. -/
def Ctx.wroteM (c : Ctx) (w : Wave) (d : Nat) (on : Mask) (p : Nat → Bool) : Prop :=
  ∀ r l, l < c.w.width → l < 64 → (w.readM r).getLsbD l =
    if r = d ∧ r ≠ 0 ∧ on.getLsbD l = true then p l else (c.w.readM r).getLsbD l

/-- A lane word that gives `x l` of type `t` in each lane of EFF, or once in scalar form (R65, R115). -/
def Ctx.wroteLane (c : Ctx) (w : Wave) (r : Lane) (t : Ty) (x : Nat → Nat) : Prop :=
  c.past w ∧ c.sameM w ∧
    (if r.form = .scal then c.sameV w ∧ c.wroteS w r.dst.toNat (c.any r.h) (extend t (x 0))
     else c.sameS w ∧ c.wroteV w r.dst.toNat t.wide (c.lanes r.h) (fun l => extend t (x l)))

/-- A word that writes lanes of one vector register or pair, one scalar register, or lanes of one mask register. -/
def Ctx.vecOnly (c : Ctx) (w : Wave) (d : Nat) (wide : Bool) (ls : List Nat) (x : Nat → BitVec 64) : Prop :=
  c.past w ∧ c.sameS w ∧ c.sameM w ∧ c.wroteV w d wide ls x
def Ctx.scalOnly (c : Ctx) (w : Wave) (d : Nat) (on : Bool) (x : BitVec 64) : Prop :=
  c.past w ∧ c.sameV w ∧ c.sameM w ∧ c.wroteS w d on x
def Ctx.maskOnly (c : Ctx) (w : Wave) (d : Nat) (on : Mask) (p : Nat → Bool) : Prop :=
  c.past w ∧ c.sameV w ∧ c.sameS w ∧ c.wroteM w d on p

/-- The instruction answers a next state that differs from `s` in the issuing wave alone, which satisfies `P`. -/
def leavesWave (c : Ctx) (s : State) (i : Instr) (P : Wave → Prop) : Prop := ∃ w, exec i s = .next (s.setWave c.id w) ∧ P w

/-- The instruction answers a next state in which its path is past the word and its result waits for RESULT_WRITEBACK, the
scoreboard holding the registers `dst` (R118); the writes that wait leave a wave that satisfies `P` when they are made. -/
def latersWave (c : Ctx) (s : State) (i : Instr) (dst : List Reg) (P : Wave → Prop) : Prop :=
  ∃ ws, exec i s = .next (s.setWave c.id
      ((if ws.isEmpty then c.w else addPend c.w { tag := s.tick, kind := .other, dst := dst, writes := ws, ready := true }).advance c.slotB)) ∧
    P ((c.w.applyWrites ws).advance c.slotB)

/-- Moving past the word is all that happens. -/
def passes (c : Ctx) (s : State) (i : Instr) : Prop := exec i s = .next (s.setWave c.id (c.w.advance c.slotB))

/-! ### What a step leaves of the machine -/

/-- The instruction answers a next state that satisfies `P`. -/
def answers (s : State) (i : Instr) (P : State → Prop) : Prop := ∃ t, exec i s = .next t ∧ P t

/-- Nothing happens. -/
def idles (s : State) (i : Instr) : Prop := exec i s = .next s

/-- Every wave but `id` is what it was. -/
def otherWaves (s t : State) (id : WaveId) : Prop := ∀ k, k ≠ wkey id → tfind t.waves k = tfind s.waves k

/-- The path of the issuing word takes a trap: it is held for good, its wave keeps every register, and the launch has one
trap more, of this word (R363, R365). Waves and launches apart, the machine is what it was but for the reuse latch of the
slot, which is emptied (R56). -/
def Ctx.trapped (c : Ctx) (s t : State) (code attr construct : Nat) (lanes : Mask) (value : BitVec 64) : Prop :=
  ∃ w l tr, t.wave c.id = some w ∧ t.launch c.id.serial = some l ∧
    { w with a := c.w.a, b := c.w.b } = c.w ∧ w.slot c.slotB = some { c.sl with hold := .trapped } ∧
    w.slot (!c.slotB) = c.w.slot (!c.slotB) ∧
    l.traps = c.l.traps ++ [tr] ∧ { l with traps := c.l.traps } = c.l ∧
    tr.code = code ∧ tr.attr = attr ∧ tr.construct = construct ∧ tr.pc = c.sl.path.pc.toNat ∧ tr.block = c.id.block ∧
    tr.core = c.b.core ∧ tr.lanes = lanes ∧ tr.value = value ∧
    otherWaves s t c.id ∧ { t with waves := s.waves, launches := s.launches } = dropLatch s (4 * c.b.core + slotOf c.id)

/-- The path is past its word, which waits in the wave's scratchpad queue as `k` (R154), none of its parts performed; the
scoreboard holds `dst`. The touches of the launch apart (R313), nothing else differs. -/
def Ctx.queued (c : Ctx) (s t : State) (k : SpKind) (dst : List Reg) (limit : Nat) (eff : Mask) : Prop :=
  ∃ w op l pk, t.wave c.id = some w ∧ w.spq = c.w.spq ++ [op] ∧ op.kind = k ∧ op.pc = c.sl.path.pc ∧ op.limit = limit ∧ op.eff = eff ∧
    op.start = c.w.cyc c.b.core s.tick ∧ op.left = none ∧ op.got = [] ∧ op.met = none ∧
    w.pend = c.w.pend ++ (if dst = [] then [] else
      [{ tag := op.tag, kind := pk, dst := dst, writes := [], ready := false }]) ∧
    { w with spq := c.w.spq, pend := c.w.pend } = c.w.advance c.slotB ∧
    t.launch c.id.serial = some l ∧ { l with touches := c.l.touches } = c.l ∧
    otherWaves s t c.id ∧ { t with waves := s.waves, launches := s.launches } = s

/-- The word at the head of a wave's scratchpad queue has left it, and its result is complete with the writes `ws`. -/
def served (x : Wave) (op : SpOp) (ws : List RegWrite) (w : Wave) : Prop :=
  { w with pend := x.pend } = { x with spq := x.spq.tail } ∧
    w.pend = x.pend.map (fun p => if p.tag = op.tag then { p with writes := p.writes ++ ws, ready := true } else p)

/-- The path is past its word and its wave has the requests `rs` more under way; the scoreboard holds `dst` under the tag
of the first. -/
def Ctx.requested (c : Ctx) (w : Wave) (dst : List Reg) (rs : List Req) : Prop :=
  w.reqs = c.w.reqs ++ rs ∧
    (∃ pk, w.pend = c.w.pend ++ (if dst = [] then [] else
      [{ tag := (rs.head?.map (fun r => r.tag)).getD 0, kind := pk, dst := dst, writes := [], ready := false }])) ∧
    { w with reqs := c.w.reqs, pend := c.w.pend } = c.w.advance c.slotB

/-- The wave of a word that orders its later requests to home, where `acquires` (R202). -/
def Ctx.barred (c : Ctx) (s : State) (acquires : Bool) : Wave :=
  { c.w with barrier := if acquires then s.tick else c.w.barrier }

/-- The path waits: held by `h` with the limit, the count of its wait begun at this step (R88, R303). `met`: what it waits
for has come about already, at a point as `seen` or with the answer `ans`, and its view still waits (R208). -/
def Ctx.waits (c : Ctx) (s t : State) (h : Hold) (limit : Nat) (acquires : Bool) (met : Option Bool) (seen : Option Point)
    (ans : Option ClAns := none) : Prop :=
  t = s.setWave c.id ((c.barred s acquires).setSlot c.slotB
    (some { c.sl with hold := h, start := c.w.cyc c.b.core s.tick, limit := limit, since := s.tick, met := met, seen := seen, ans := ans }))

/-- What a held path waits for, where it stands, has come about within the limit (R211, R303). -/
def Ctx.timely (c : Ctx) (s : State) : Prop :=
  c.sl.met = some true ∨ (c.sl.met = none ∧ c.w.cyc c.b.core s.tick - c.sl.start ≤ c.sl.limit)

end Sys2Proof.Machine
end

