-- ==== Sys2Proof/Certificates/Slice0/Obligations.lean ====
section
/-! DEFINITION. The statements for the provers. `s` is a state, `c` the path at the issue cursor; `t` the next state. -/

open Sys2Proof Sys2Proof.Machine

/-! ### Lane words (06_lanes.md) -/

/-- R120: each integer, bitwise and move word leaves in DST the value that the rule computes from its sources, in each lane
of EFF or once in scalar form; no other register, and nothing else of the machine, changes. -/
def Obligations.IntegerWordsCompute : Prop :=
  ∀ (s : State) (c : Ctx) (r : Lane), s.issuer = some c →
    let n := r.ty.bits
    let a := srcA c.w r r.ty
    let b := srcB c.w r r.ty
    let z := srcC c.w r r.ty
    let u := srcU c.w r r.ty
    let k (l : Nat) : Nat := b l % 2 ^ 32
    let gives (i : Instr) (x : Nat → Nat) : Prop := leavesWave c s i (fun w => c.wroteLane w r r.ty x)
    gives (.iadd r) (fun l => (a l + b l) % 2 ^ n) ∧
    gives (.isub r) (fun l => (((a l : Int) - b l) % 2 ^ n).toNat) ∧
    gives (.imul r) (fun l => a l * b l % 2 ^ n) ∧
    gives (.imad r) (fun l => (a l * b l + z l) % 2 ^ n) ∧
    gives (.imulh r) (fun l => (val r.ty (a l) * val r.ty (b l) / 2 ^ n % 2 ^ n).toNat) ∧
    gives (.isadd r) (fun l =>
      (max (tyMin r.ty) (min (tyMax r.ty) (val r.ty (a l) + val r.ty (b l))) % 2 ^ n).toNat) ∧
    gives (.imin r) (fun l => if val r.ty (a l) ≤ val r.ty (b l) then a l else b l) ∧
    gives (.imax r) (fun l => if val r.ty (b l) ≤ val r.ty (a l) then a l else b l) ∧
    gives (.iabs r) (fun l => (val r.ty (u l)).natAbs % 2 ^ n) ∧
    gives (.ineg r) (fun l => ((-(u l : Int)) % 2 ^ n).toNat) ∧
    gives (.and r) (fun l => a l &&& b l) ∧
    gives (.or r) (fun l => a l ||| b l) ∧
    gives (.xor r) (fun l => a l ^^^ b l) ∧
    gives (.not r) (fun l => 2 ^ n - 1 - u l) ∧
    gives (.shl r) (fun l => if n ≤ k l then 0 else a l * 2 ^ k l % 2 ^ n) ∧
    gives (.shr r) (fun l => if n ≤ k l then 0 else a l / 2 ^ k l) ∧
    gives (.shra r) (fun l => if n ≤ k l then (if (a l).testBit (n - 1) then 2 ^ n - 1 else 0)
      else (signedOf n (a l) / 2 ^ k l % 2 ^ n).toNat) ∧
    gives (.rot r) (fun l => (a l * 2 ^ (k l % n) ||| a l / 2 ^ (n - k l % n)) % 2 ^ n) ∧
    gives (.popc r) (fun l => ((List.range n).filter (fun i => (u l).testBit i)).length) ∧
    gives (.clz r) (fun l => n - Nat.size (u l)) ∧
    (∃ x : Nat → Nat, gives (.brev r) x ∧ ∀ l i, i < n → (x l).testBit i = (u l).testBit (n - 1 - i)) ∧
    gives (.mov r) u

/-- R121: `IADDC` adds with the carry of m[C], lane by lane, and leaves the carry out of bit n - 1 there; lanes outside EFF
keep their carry. The forms of `IADDC` are vector forms. Its word for `v4, v4, v8, m1` is the one the rule gives. -/
def Obligations.AddWithCarry : Prop :=
  (
    ∀ (s : State) (c : Ctx) (r : Lane), s.issuer = some c → r.form ≠ .scal →
      let t (l : Nat) : Nat := srcA c.w r r.ty l + srcB c.w r r.ty l + ((c.w.readM r.sc.toNat).getLsbD l).toNat
      leavesWave c s (.iaddc r) (fun w =>
        c.past w ∧ c.sameS w ∧
        c.wroteV w r.dst.toNat r.ty.wide (c.lanes r.h) (fun l => extend r.ty (t l % 2 ^ r.ty.bits)) ∧
        c.wroteM w r.sc.toNat (c.eff r.h) (fun l => decide (2 ^ r.ty.bits ≤ t l)))) ∧
  decode 0x0300040408010002 = some (.iaddc { h := { pn := false, pm := 0, la := 0 }, form := .vec, ty := .n64, dst := 4, sa := 4, sb := 8, sc := 1, keep := 0 })

/-- R122: `BFX` extracts a field and `BFI` inserts one, under the control b[15:0]. The word of `BFX.I32 v5, v3, s2` is the one the rule gives. -/
def Obligations.BitFieldWords : Prop :=
  (
    ∀ (s : State) (c : Ctx) (r : Lane), s.issuer = some c →
      let n := r.ty.bits
      let a := srcA c.w r r.ty
      let z := srcC c.w r r.ty
      let p (l : Nat) : Nat := srcB c.w r r.ty l % 256
      let w0 (l : Nat) : Nat := srcB c.w r r.ty l / 256 % 256
      let w (l : Nat) : Nat := min (w0 l) (n - p l)
      let f (l : Nat) : Nat := a l / 2 ^ p l % 2 ^ w l
      let m (l : Nat) : Nat := (2 ^ w l - 1) * 2 ^ p l
      leavesWave c s (.bfx r) (fun u => c.wroteLane u r r.ty (fun l =>
        if n ≤ p l ∨ w0 l = 0 then 0
        else if r.ty.signed = true ∧ (f l).testBit (w l - 1) = true then f l + (2 ^ n - 2 ^ w l) else f l)) ∧
      leavesWave c s (.bfi r) (fun u => c.wroteLane u r r.ty (fun l =>
        if n ≤ p l ∨ w0 l = 0 then z l else (z l &&& (2 ^ n - 1 - m l)) ||| (a l * 2 ^ p l &&& m l)))) ∧
  decode 0x1700050302000041 = some (.bfx { h := { pn := false, pm := 0, la := 0 }, form := .bcast, ty := .i32, dst := 5, sa := 3, sb := 2, sc := 0, keep := 0 })

/-- R123: `ICMP` writes the condition to the lanes of EFF of `m[DST]`, one test for all of them in scalar form; `SEL`
selects lane by lane. The word of `ICMP.LT m1, v0, v1` is the one the rule gives. -/
def Obligations.CompareAndSelect : Prop :=
  (
    ∀ (s : State) (c : Ctx) (r : Lane), s.issuer = some c →
      let va (l : Nat) : Int := val r.ty (srcA c.w r r.ty l)
      let vb (l : Nat) : Int := val r.ty (srcB c.w r r.ty l)
      let tests (cc : Cond) (q : Int → Int → Bool) : Prop :=
        leavesWave c s (.icmp cc r) (fun w => c.maskOnly w r.dst.toNat (c.eff r.h) (fun l =>
          if r.form = .scal then q (va 0) (vb 0) else q (va l) (vb l)))
      tests .eq (fun x y => decide (x = y)) ∧ tests .ne (fun x y => decide (x ≠ y)) ∧
      tests .lt (fun x y => decide (x < y)) ∧ tests .le (fun x y => decide (x ≤ y)) ∧
      tests .gt (fun x y => decide (y < x)) ∧ tests .ge (fun x y => decide (y ≤ x)) ∧
      (r.form ≠ .scal → leavesWave c s (.sel r) (fun w => c.wroteLane w r r.ty (fun l =>
        if (c.w.readM r.sc.toNat).getLsbD l = true then srcA c.w r r.ty l else srcB c.w r r.ty l)))) ∧
  decode 0x1900010001000801 = some (.icmp .lt { h := { pn := false, pm := 0, la := 0 }, form := .vec, ty := .i32, dst := 1, sa := 0, sb := 1, sc := 0, keep := 0 })

/-- R124: `MOVI` writes its immediate to each lane of EFF, or once to a scalar register, extended by zeros or by sign.

R112 to R114, Table 5-5: `SRD` reads a special register into a scalar register, zero-extended, or into each lane of EFF;
under the determinism flag `CYCLES` reads `RETIRED` and `FEATURES` the kernel's required mask. After `SWR CYCLES` a read counts
on from its operand: a scalar register, or the pair of the lowest lane of EFF.
The model's own choices in it: log entries 4, 87, 95. -/
def Obligations.MovesAndSpecialRegisters : Prop :=
  (
    ∀ (s : State) (c : Ctx) (h : Hdr) (d : BitVec 8) (signed : Bool) (imm : BitVec 32), s.issuer = some c →
      leavesWave c s (.movi h d signed false imm) (fun w =>
        c.vecOnly w d.toNat false (c.lanes h) (fun _ => imm.setWidth 64)) ∧
      leavesWave c s (.movi h d signed true imm) (fun w =>
        c.scalOnly w d.toNat (c.any h) (if signed = true then imm.signExtend 64 else imm.setWidth 64))) ∧
  (
    ∀ (s : State) (c : Ctx) (h : Hdr) (keep : BitVec 3) (code : SReg) (d : BitVec 8), s.issuer = some c →
      let count : Nat := if c.det = true then c.w.retired else c.w.cyc c.b.core s.tick
      let value (l : Nat) : BitVec 64 := match code with
        | .lane => BitVec.ofNat 64 l
        | .width => BitVec.ofNat 64 c.w.width
        | .wave => BitVec.ofNat 64 (waveNo c.id c.w)
        | .block => BitVec.ofNat 64 c.id.block
        | .nblock => BitVec.ofNat 64 c.l.offer.nblock
        | .core => BitVec.ofNat 64 c.b.core
        | .cluster => BitVec.ofNat 64 (c.b.core / 6)
        | .cycles => BitVec.ofNat 64 count + c.w.cycOff
        | .retired => BitVec.ofNat 64 c.w.retired
        | .charge => BitVec.ofNat 64 c.w.charge
        | .features => if c.det = true then c.l.offer.feats else tget 0x3FFFF s.feats c.b.core
        | .sca => 0x03050606
      let wide : Bool := match code with | .cycles => true | .retired => true | .charge => true | .features => true | _ => false
      let counts (w : Wave) (x : BitVec 64) : Prop :=
        { w with cycOff := c.w.cycOff } = c.w.advance c.slotB ∧ BitVec.ofNat 64 count + w.cycOff = x
      leavesWave c s (.srd h keep true code d) (fun w => c.scalOnly w d.toNat (c.any h) (value 0)) ∧
      leavesWave c s (.srd h keep false code d) (fun w =>
        c.vecOnly w d.toNat wide (c.lanes h) (fun l => if wide = true then value l else ((value l).setWidth 32).setWidth 64)) ∧
      (∀ l, (c.lanes h).head? = some l →
        leavesWave c s (.swr h keep true .cycles d) (fun w => counts w (c.w.readS d.toNat)) ∧
        leavesWave c s (.swr h keep false .cycles d) (fun w => counts w (c.w.readV (d.toNat + 1) l ++ c.w.readV d.toNat l))) ∧
      (c.lanes h = [] → ∀ scalar, passes c s (.swr h keep scalar .cycles d)))

/-- R125: the result of `NHASH`, which waits for RESULT_WRITEBACK (class S), is Mix64 of ((a xor b) + the golden ratio).
The model's own choices in it: log entry 19. -/
def Obligations.HashWord : Prop :=
  ∀ (s : State) (c : Ctx) (r : Lane), s.issuer = some c → r.ty = .n64 →
    let m1 (z : Nat) : Nat := (z ^^^ z / 2 ^ 30) * 0xBF58476D1CE4E5B9 % 2 ^ 64
    let m2 (z : Nat) : Nat := (z ^^^ z / 2 ^ 27) * 0x94D049BB133111EB % 2 ^ 64
    let m3 (z : Nat) : Nat := z ^^^ z / 2 ^ 31
    latersWave c s (.nhash r) (if r.form = .scal then [.s r.dst.toNat] else [.v r.dst.toNat, .v (r.dst.toNat + 1)]) (fun w =>
      c.wroteLane w r .n64 (fun l =>
        m3 (m2 (m1 (((srcA c.w r .n64 l ^^^ srcB c.w r .n64 l) + 0x9E3779B97F4A7C15) % 2 ^ 64)))))

/-- R127, R131: the class A floating-point words compute element by element, after `.DAZ`, exactly, and round once (R66).

R128 to R130: `FMIN` and `FMAX` return an operand; `FCMP` and `FCLASS` write a mask register's lanes of EFF. -/
def Obligations.FloatWords : Prop :=
  (
    ∀ (s : State) (c : Ctx) (m : FMode) (r : Lane), s.issuer = some c →
      let f := fmtOf r.ty
      let d (x : Nat) : Fp := f.decode (f.daz m.daz x)
      let rnd (x : Fp) : Nat := roundFp f m.rnd m.ftz x
      let sum (xs : List Fp) : Fp := sumFp (m.rnd == .rdn) xs
      let a := srcA c.w r .n32
      let b := srcB c.w r .n32
      let z := srcC c.w r .n32
      let each (g : Nat → Nat → Nat → Nat) (l : Nat) : Nat := perElem r.ty g (a l) (b l) (z l)
      let gives (i : Instr) (x : Nat → Nat) : Prop := leavesWave c s i (fun w => c.wroteLane w r .n32 x)
      gives (.fadd m r) (each (fun x y _ => rnd (sum [d x, d y]))) ∧
      gives (.fsub m r) (each (fun x y _ => rnd (sum [d x, (d y).neg]))) ∧
      gives (.fmul m r) (each (fun x y _ => rnd ((d x).mul (d y)))) ∧
      gives (.ffma m r) (each (fun x y w => rnd (sum [(d x).mul (d y), d w]))) ∧
      gives (.frint m r) (fun l => perElem r.ty (fun x _ _ => rintFp f m.rnd (d x)) (srcU c.w r .n32 l) 0 0) ∧
      gives (.fdot2 m r) (fun l => roundFp fmtF32 m.rnd m.ftz (sum
        [(d (a l % 65536)).mul (d (b l % 65536)), (d (a l / 65536)).mul (d (b l / 65536)), fmtF32.decode (fmtF32.daz m.daz (z l))]))) ∧
  (
    ∀ (s : State) (c : Ctx) (m : FMode) (r : Lane), s.issuer = some c →
      let f := fmtOf r.ty
      let a := srcA c.w r .n32
      let b := srcB c.w r .n32
      let least (isMin : Bool) (l : Nat) : Nat :=
        perElem r.ty (fun x y _ => f.daz m.ftz (minMax f isMin (f.daz m.daz x) (f.daz m.daz y))) (a l) (b l) (srcC c.w r .n32 l)
      leavesWave c s (.fmin m r) (fun w => c.wroteLane w r .n32 (least true)) ∧
      leavesWave c s (.fmax m r) (fun w => c.wroteLane w r .n32 (least false)) ∧
      (∀ cc, leavesWave c s (.fcmp cc m r) (fun w => c.maskOnly w r.dst.toNat (c.eff r.h) (fun l =>
        fCond cc f (f.daz m.daz (srcA c.w r r.ty l)) (f.daz m.daz (srcB c.w r r.ty l))))) ∧
      (∀ cls : BitVec 10, leavesWave c s (.fclass cls m r) (fun w => c.maskOnly w r.dst.toNat (c.eff r.h) (fun l =>
        cls.getLsbD (classBit (fmtF32.daz m.daz (srcU c.w r r.ty l)))))))

/-- R127, R132: `FDIV`, `FSQRT` and the special functions are class S: the result waits, the scoreboard holding DST, and is
the one that the rule gives when it lands; which of two neighbours a special function returns is the model's free value
(log entry 3).
The model's own choices in it: log entries 3, 19. -/
def Obligations.SlowFloatWords : Prop :=
  ∀ (s : State) (c : Ctx) (m : FMode) (r : Lane), s.issuer = some c →
    let f := fmtOf r.ty
    let dst : List Reg := if r.form = .scal then [.s r.dst.toNat] else [.v r.dst.toNat]
    let gives (i : Instr) (x : Nat → Nat) : Prop := latersWave c s i dst (fun w => c.wroteLane w r .n32 x)
    let fn (k : Nat) (l : Nat) : Nat := perElem r.ty (fun x _ _ =>
      special k r.ty m.ftz (Config.specialOuter k m.ftz m.daz (BitVec.ofNat 32 (f.daz m.daz x))) (f.daz m.daz x)) (srcU c.w r .n32 l) 0 0
    gives (.fdiv m r) (fun l => perElem r.ty (fun x y _ => divFp f m.rnd m.ftz (f.decode (f.daz m.daz x)) (f.decode (f.daz m.daz y)))
      (srcA c.w r .n32 l) (srcB c.w r .n32 l) (srcC c.w r .n32 l)) ∧
    gives (.fsqrt m r) (fun l => perElem r.ty (fun x _ _ => sqrtFp f m.rnd m.ftz (f.decode (f.daz m.daz x))) (srcU c.w r .n32 l) 0 0) ∧
    gives (.exp2 m r) (fn 0) ∧ gives (.log2 m r) (fn 1) ∧ gives (.rcp m r) (fn 2) ∧ gives (.rsq m r) (fn 3) ∧
    gives (.sin m r) (fn 4) ∧ gives (.cos m r) (fn 5) ∧ gives (.tanh m r) (fn 6) ∧ gives (.sigm m r) (fn 7) ∧ gives (.erf m r) (fn 8)

/-- R81 to R86: the conversion words. `PACK` keeps the other halfword of DST for an 8-bit type; `QNT` writes code words and
scale bytes, its result waiting.
The model's own choices in it: log entry 19. -/
def Obligations.ConversionWords : Prop :=
  ∀ (s : State) (c : Ctx) (st : Ty) (rm : Rnd) (r : Lane), s.issuer = some c →
    leavesWave c s (.cvt st rm r) (fun w => c.wroteLane w r r.ty (fun l => convert st r.ty rm (srcA c.w r st l))) ∧
    leavesWave c s (.unpk st rm r) (fun w => c.vecOnly w r.dst.toNat r.ty.wide (c.lanes r.h) (fun l =>
      extend r.ty (convert st r.ty rm ((c.w.readV r.sa.toNat l).toNat / 2 ^ (st.bits * (r.sc.toNat % 4)) % 2 ^ st.bits)))) ∧
    leavesWave c s (.dqnt st rm r) (fun w => c.vecOnly w r.dst.toNat r.ty.wide (c.lanes r.h) (fun l =>
      extend r.ty (fromFp r.ty rm (value4 ((c.w.readV r.sa.toNat l).toNat / 16 ^ (l % 8) % 16) (srcB c.w r .n8 l))))) ∧
    leavesWave c s (.pack st rm r) (fun w => c.vecOnly w r.dst.toNat false (c.lanes r.h) (fun l =>
      let x := convert st r.ty rm (srcA c.w r st l)
      let y := convert st r.ty rm (srcB c.w r st l)
      let old := (c.w.readV r.dst.toNat l).toNat
      BitVec.ofNat 64 ((if r.ty.bits = 16 then y * 65536 + x
        else if r.sc.getLsbD 0 = true then old % 65536 + (y * 256 + x) * 65536
        else old / 65536 * 65536 + (y * 256 + x)) % 2 ^ 32))) ∧
    (let t := (r.sc >>> 6).toNat
     let n := if r.sc.getLsbD 5 = true then 32 else 16
     let q := qntBlock t n rm c.w.width (fun l => (c.eff r.h).getLsbD l) (fun l => toFp st (readType c.w st false r.sa.toNat l))
     latersWave c s (.qnt st rm r) [.v r.dst.toNat, .v (r.dst.toNat + 1)] (fun w =>
       c.vecOnly w r.dst.toNat true (c.lanes r.h) (fun l =>
         BitVec.ofNat 32 (t * 64 + q.2.getD (l / n) 0) ++
           BitVec.ofNat 32 ((List.range 8).foldl (fun a j => a + q.1.getD (l / 8 * 8 + j) 0 * 16 ^ j) 0))))

/-- R133 to R136: the cross-lane words read the lanes of SA as they stand when the word issues; the result waits (class S).
An index beyond the wave reads the lane's own value.

R111, Table 5-4: the mask words; `MPOP`, `MANY` and `MALL` see only the lanes of EFF and write nothing where EFF is
empty.
The model's own choices in it: log entries 19, 70. -/
def Obligations.CrossLaneAndMaskWords : Prop :=
  (
    ∀ (s : State) (c : Ctx) (r : Lane), s.issuer = some c →
      let lane (i : Nat) : Nat := readType c.w r.ty false r.sa.toNat i
      let ix (l : Nat) : Nat := srcB c.w r .n32 l
      let dst : List Reg := if r.ty.wide = true then [.v r.dst.toNat, .v (r.dst.toNat + 1)] else [.v r.dst.toNat]
      let gives (i : Instr) (x : Nat → Nat) : Prop :=
        latersWave c s i dst (fun w => c.vecOnly w r.dst.toNat r.ty.wide (c.lanes r.h) (fun l => extend r.ty (x l)))
      gives (.shfl r) (fun l => if ix l < c.w.width then lane (ix l) else lane l) ∧
      gives (.shflx r) (fun l => if l ^^^ ix l < c.w.width then lane (l ^^^ ix l) else lane l) ∧
      gives (.bcast r) (fun _ => lane (r.sc.toNat % 64)) ∧
      (∀ op, gives (.redv op r) (fun _ => treeRed (redOp op r.ty) 6 (redInput c op r))) ∧
      (∀ op, gives (.scanv op r) (fun l => (scanAll (redOp op r.ty) 6 1 (redInput c op r)).getD l 0)) ∧
      latersWave c s (.vtos r) [.s r.dst.toNat] (fun w =>
        c.scalOnly w r.dst.toNat (c.any r.h) (extend r.ty (lane (r.sc.toNat % 64)))) ∧
      latersWave c s (.stov r) dst (fun w =>
        c.vecOnly w r.dst.toNat r.ty.wide (if (c.eff r.h).getLsbD (r.sc.toNat % 64) = true then [r.sc.toNat % 64] else [])
          (fun _ => extend r.ty (c.w.readS r.sb.toNat).toNat))) ∧
  (
    ∀ (s : State) (c : Ctx) (r : Lane), s.issuer = some c →
      let a := c.w.readM r.sa.toNat
      let b := c.w.readM r.sb.toNat
      let e := c.eff r.h
      let lanes (i : Instr) (q : Nat → Bool) : Prop := leavesWave c s i (fun w => c.maskOnly w r.dst.toNat e q)
      let once (i : Instr) (x : BitVec 64) : Prop := leavesWave c s i (fun w => c.scalOnly w r.dst.toNat (c.any r.h) x)
      lanes (.mand r) (fun l => a.getLsbD l && b.getLsbD l) ∧
      lanes (.mor r) (fun l => a.getLsbD l || b.getLsbD l) ∧
      lanes (.mxor r) (fun l => a.getLsbD l ^^ b.getLsbD l) ∧
      lanes (.mnot r) (fun l => !a.getLsbD l) ∧
      once (.mpop r) (BitVec.ofNat 64 ((List.range 64).filter (fun l => a.getLsbD l && e.getLsbD l)).length) ∧
      once (.many r) (if (List.range 64).any (fun l => a.getLsbD l && e.getLsbD l) then 1 else 0) ∧
      once (.mall r) (if (List.range 64).all (fun l => !e.getLsbD l || a.getLsbD l) then 1 else 0))

/-- R48 to R50: both halves of a paired word read one state, each acts on the lanes of ACTIVE that its own predicate
selects, or once in scalar form where they are not empty, and each writes its own destination; a `NOP` half writes
nothing. The two destinations differ (R51). -/
def Obligations.PairedHalves : Prop :=
  ∀ (s : State) (c : Ctx) (x y : PHalf), s.issuer = some c →
    (x.op = 0 ∨ y.op = 0 ∨ x.sub.getLsbD 5 ≠ y.sub.getLsbD 5 ∨ x.dst ≠ y.dst) →
    let on (h : PHalf) : Mask := c.sl.path.mask &&& c.w.readM h.pred.toNat
    let vec (h : PHalf) (r l : Nat) : Prop := h.op ≠ 0 ∧ h.sub.getLsbD 5 = false ∧ r = h.dst.toNat ∧ l ∈ lanesOf c.w.width (on h)
    let scal (h : PHalf) (r : Nat) : Prop := h.op ≠ 0 ∧ h.sub.getLsbD 5 = true ∧ r = h.dst.toNat ∧ on h ≠ 0
    let src1 (h : PHalf) (l : Nat) : Nat :=
      if h.sub.getLsbD 5 = true then (c.w.readS h.dst.toNat).toNat % 2 ^ 32 else (c.w.readV h.dst.toNat l).toNat
    let src2 (h : PHalf) (l : Nat) : Nat :=
      if 0x35 ≤ h.op.toNat then immOf h.op.toNat h.src
      else if h.sub.getLsbD 5 = true ∨ h.sub.getLsbD 4 = true then (c.w.readS h.src.toNat).toNat % 2 ^ 32
      else (c.w.readV h.src.toNat l).toNat
    let res (h : PHalf) (l : Nat) : BitVec 64 := extend (halfTy h.op.toNat) (halfOp h.op.toNat (halfMode h) (src1 h l) (src2 h l))
    leavesWave c s (.pairedWord x y) (fun w => c.past w ∧ c.sameM w ∧
      (∀ r l, l < 64 →
        (vec x r l → w.readV r l = (res x l).extractLsb' 0 32) ∧ (vec y r l → w.readV r l = (res y l).extractLsb' 0 32) ∧
        (¬ vec x r l → ¬ vec y r l → w.readV r l = c.w.readV r l)) ∧
      (∀ r,
        (scal x r → w.readS r = res x 0) ∧ (scal y r → w.readS r = res y 0) ∧
        (¬ scal x r → ¬ scal y r → w.readS r = c.w.readS r)))

/-! ### Scratchpad words (08_scratchpad.md) -/

/-- R152, R159, R160, R170: a load or store whose lanes lie inside the allocation waits in its wave's queue; a load holds its
destination in the scoreboard. Under the determinism flag a die-scratchpad word touches bytes that no other block has touched
in an unordered phase.
The model's own choices in it: log entry 20. -/
def Obligations.ScratchpadMemoryWords : Prop :=
  ∀ (s : State) (c : Ctx) (m : Mem), s.issuer = some c →
    let ls : List Nat := if m.dk = true then (if c.any m.h = true then [0] else []) else c.lanes m.h
    let ad (l : Nat) : Int := (if m.ak = true then (c.w.readS m.sa.toNat).toInt else (c.w.readV m.sa.toNat l).toNat) + m.off.toInt
    let at_ : List (Nat × Nat) := ls.map (fun l => (l, (ad l).toNat))
    let data : List (Nat × Nat × List Byte) := ls.map (fun l => (l, (ad l).toNat, leBytes (readType c.w m.ty m.dk m.dst.toNat l) m.ty.size))
    let inside (size : Nat) : Prop := ls ≠ [] ∧ ∀ l ∈ ls, 0 ≤ ad l ∧ ad l + m.ty.size ≤ size
    let quiet (kind : Nat) : Prop := c.det = true → ∀ p ∈ at_, findConflict c.l c.b c.id.block kind
      ((List.range m.ty.size).map (fun i => dieLoc c (p.2 + i))) = none
    let dst : List Reg := dstRegs m.ty m.dk m.dst.toNat
    let eff : Mask := c.eff m.h
    (inside c.l.offer.kernel.scratch →
      answers s (.lds m) (fun t => c.queued s t (.lds m.ty m.dk m.dst.toNat at_ (linesOf at_ m.ty.size)) dst c.l.offer.kernel.fillLimit eff) ∧
      answers s (.sts m) (fun t => c.queued s t (.store false data) [] 0 eff)) ∧
    (inside c.l.offer.kernel.diescratch →
      (quiet 0 → answers s (.dlds m) (fun t => c.queued s t (.load true m.ty m.dk m.dst.toNat at_) dst 0 eff)) ∧
      (quiet 1 → answers s (.dsts m) (fun t => c.queued s t (.store true data) [] 0 eff))) ∧
    (ls = [] → passes c s (.lds m) ∧ passes c s (.sts m) ∧ passes c s (.dlds m) ∧ passes c s (.dsts m))

/-- R152, R153, R162, R164, R168: the atomic, full/empty and queue words wait in the wave's queue when their addresses are
inside the allocation and aligned.
The model's own choices in it: log entries 20, 76. -/
def Obligations.ScratchpadAtomicWords : Prop :=
  ∀ (s : State) (c : Ctx) (r : Lane) (h : Hdr) (keep : BitVec 3) (once : Bool) (sa d : BitVec 8) (q : BitVec 4) (lg al : BitVec 8)
      (lim : Lim 31), s.issuer = some c →
    let size : Nat := c.l.offer.kernel.scratch
    let ad (once : Bool) (g : BitVec 8) (l : Nat) : Int :=
      if once = true then (c.w.readS g.toNat).toInt else (c.w.readV g.toNat l).toNat
    let fits (ls : List Nat) (f : Nat → Int) (n align : Nat) : Prop :=
      ls ≠ [] ∧ ∀ l ∈ ls, 0 ≤ f l ∧ f l + n ≤ size ∧ f l % align = 0
    let rl : List Nat := if r.form = .scal then (if c.any r.h = true then [0] else []) else c.lanes r.h
    let ra : Nat → Int := ad (r.form == .scal) r.sa
    let hl : List Nat := if once = true then (if c.any h = true then [0] else []) else c.lanes h
    let ha : Nat → Int := ad once sa
    let fe : List (Nat × Nat) := hl.map (fun l => (l, (ha l).toNat / 128))
    (fits rl ra r.ty.size r.ty.size →
      (∀ op, answers s (.ats op r) (fun t => c.queued s t (.ats op r.ty (r.form == .scal) r.dst.toNat
        (rl.map (fun l => (l, (ra l).toNat, srcB c.w r r.ty l)))) (dstRegs r.ty (r.form == .scal) r.dst.toNat) 0 (c.eff r.h))) ∧
      answers s (.cass r) (fun t => c.queued s t (.cass r.ty (r.form == .scal) r.dst.toNat
        (rl.map (fun l => (l, (ra l).toNat, srcB c.w r r.ty l, srcC c.w r r.ty l)))) (dstRegs r.ty (r.form == .scal) r.dst.toNat) 0
        (c.eff r.h))) ∧
    (rl = [] → passes c s (.cass r) ∧ ∀ op, passes c s (.ats op r)) ∧
    (hl = [] → passes c s (.feset h keep once sa) ∧ passes c s (.feclr h keep once sa) ∧ passes c s (.feqry h keep once d sa)) ∧
    (c.any h = false → passes c s (.qinit h q sa lg al) ∧ passes c s (.qpush h q sa lim) ∧ passes c s (.qpop h d q lim)) ∧
    (fits hl ha 1 4 →
      answers s (.feset h keep once sa) (fun t => c.queued s t (.feset fe) [] 0 (c.eff h)) ∧
      answers s (.feclr h keep once sa) (fun t => c.queued s t (.feclr fe) [] 0 (c.eff h)) ∧
      answers s (.feqry h keep once d sa) (fun t => c.queued s t (.feqry once d.toNat fe)
        [if once = true then .s d.toNat else .m d.toNat] 0 (c.eff h))) ∧
    (c.any h = true → fits [0] (ad true sa) (4 * 2 ^ lg.toNat) 4 →
      answers s (.qinit h q sa lg al) (fun t => c.queued s t
        (.qinit q.toNat (c.w.readS sa.toNat).toInt.toNat (2 ^ lg.toNat) al.toNat) [] 0 (c.eff h))) ∧
    (c.any h = true →
      answers s (.qpush h q sa lim) (fun t => c.queued s t (.qpush q.toNat ((c.w.readS sa.toNat).extractLsb' 0 32)) []
        (limVal c.l lim) (c.eff h)) ∧
      answers s (.qpop h d q lim) (fun t => c.queued s t (.qpop q.toNat d.toNat) [.s d.toNat] (limVal c.l lim) (c.eff h)))

/-- R152, R153, R363: with lanes outside the allocation a scratchpad word takes SPBOUND, whose LANES are those lanes (none
where it acts once per wave) and whose VALUE is the address of the lowest; with every lane inside and some not aligned, an
atomic, full/empty word or `QINIT` takes MISALIGN likewise. Nothing is stored.

R180, R185, R186, R188, R190: the lanes of a device or host word that do not translate make it trap with the code of the
lowest such lane, its address and the mask of them all (no lane where the word acts once); an atomic whose lanes translate and
are not aligned takes MISALIGN. No lane acts. A location beyond the capacity of its tier, where the manual gives no outcome,
stops the model.
The model's own choices in it: log entries 1, 17, 21, 71. -/
def Obligations.MemoryTraps : Prop :=
  (
    ∀ (s : State) (c : Ctx) (m : Mem) (r : Lane) (h : Hdr) (keep : BitVec 3) (once : Bool) (sa d : BitVec 8) (q : BitVec 4) (lg al : BitVec 8),
        s.issuer = some c →
      let turns (h : Hdr) (once : Bool) : List Nat := if once = true then (if c.any h = true then [0] else []) else c.lanes h
      let ad (once : Bool) (g : BitVec 8) (l : Nat) : Int := if once = true then (c.w.readS g.toNat).toInt else (c.w.readV g.toNat l).toNat
      let out (size : Nat) (ls : List Nat) (f : Nat → Int) (n : Nat) : List Nat := ls.filter (fun l => decide (f l < 0 ∨ (size : Int) < f l + n))
      let mis (ls : List Nat) (f : Nat → Int) (n : Nat) : List Nat := ls.filter (fun l => decide (f l % n ≠ 0))
      let takes (i : Instr) (once : Bool) (code : Nat) (bad : List Nat) (f : Nat → Int) : Prop :=
        ∀ l, bad.head? = some l →
          answers s i (fun t => c.trapped s t code aCALLER 0 (if once = true then 0 else maskOf bad) (BitVec.ofInt 64 (f l)))
      let size : Nat := c.l.offer.kernel.scratch
      let far : Nat := c.l.offer.kernel.diescratch
      let ml := turns m.h m.dk
      let ma (l : Nat) : Int := ad m.ak m.sa l + m.off.toInt
      let rs : Bool := r.form == .scal
      let rl := turns r.h rs
      let ra := ad rs r.sa
      let hl := turns h once
      let ha := ad once sa
      let ql := turns h true
      let qa := ad true sa
      takes (.lds m) m.dk cSPBOUND (out size ml ma m.ty.size) ma ∧ takes (.sts m) m.dk cSPBOUND (out size ml ma m.ty.size) ma ∧
      takes (.dlds m) m.dk cSPBOUND (out far ml ma m.ty.size) ma ∧ takes (.dsts m) m.dk cSPBOUND (out far ml ma m.ty.size) ma ∧
      (∀ op, takes (.ats op r) rs cSPBOUND (out size rl ra r.ty.size) ra ∧
        (out size rl ra r.ty.size = [] → takes (.ats op r) rs cMISALIGN (mis rl ra r.ty.size) ra)) ∧
      takes (.cass r) rs cSPBOUND (out size rl ra r.ty.size) ra ∧
      (out size rl ra r.ty.size = [] → takes (.cass r) rs cMISALIGN (mis rl ra r.ty.size) ra) ∧
      (∀ i, i = .feset h keep once sa ∨ i = .feclr h keep once sa ∨ i = .feqry h keep once d sa →
        takes i once cSPBOUND (out size hl ha 1) ha ∧ (out size hl ha 1 = [] → takes i once cMISALIGN (mis hl ha 4) ha)) ∧
      takes (.qinit h q sa lg al) true cSPBOUND (out size ql qa (4 * 2 ^ lg.toNat)) qa ∧
      (out size ql qa (4 * 2 ^ lg.toNat) = [] → takes (.qinit h q sa lg al) true cMISALIGN (mis ql qa 4) qa)) ∧
  (
    ∀ (s : State) (c : Ctx) (m : Mem) (r : Lane) (home : Bool) (op : AtomOp), s.issuer = some c →
      let ml : List Nat := if m.dk = true then (if c.any m.h = true then [0] else []) else c.lanes m.h
      let ma (l : Nat) : BitVec 64 := (if m.ak = true then c.w.readS m.sa.toNat else c.w.readV64 m.sa.toNat l) + m.off.signExtend 64
      let once : Bool := r.form == .scal
      let rl : List Nat := if once = true then (if c.any r.h = true then [0] else []) else c.lanes r.h
      let ra (l : Nat) : BitVec 64 := if once = true then c.w.readS r.sa.toNat else c.w.readV64 r.sa.toNat l
      let fails (t : Ty) (k : Acc) (f : Nat → BitVec 64) (l : Nat) : Option (Nat × Nat) := firstBad (access s (c.mapping s) (f l) t.size k)
      let bad (ls : List Nat) (t : Ty) (k : Acc) (f : Nat → BitVec 64) : List Nat := ls.filter (fun l => (fails t k f l).isSome)
      let takes (i : Instr) (once : Bool) (ls : List Nat) (t : Ty) (k : Acc) (f : Nat → BitVec 64) : Prop :=
        ∀ l e, (bad ls t k f).head? = some l → fails t k f l = some e →
          answers s i (fun u => c.trapped s u e.1 e.2 0 (if once = true then 0 else maskOf (bad ls t k f)) (f l))
      let hostFails (wr : Bool) (l : Nat) : Option Nat := hostBad (hostAccess (c.mapping s) wr (ma l) m.ty.size)
      let hostTakes (i : Instr) (wr : Bool) : Prop :=
        let bad := ml.filter (fun l => (hostFails wr l).isSome)
        ∀ l e, bad.head? = some l → hostFails wr l = some e →
          answers s i (fun u => c.trapped s u e aCALLER 0 (if m.dk = true then 0 else maskOf bad) (ma l))
      let mis : List Nat := rl.filter (fun l => decide ((ra l).toNat % r.ty.size ≠ 0))
      let gone (ls : List Nat) (t : Ty) (k : Acc) (f : Nat → BitVec 64) : Prop :=
        bad ls t k f = [] ∧ ∃ l ∈ ls, ∃ x, Xl.at_ x ∈ access s (c.mapping s) (f l) t.size k ∧ absent x = true
      let here (ls : List Nat) (t : Ty) (k : Acc) (f : Nat → BitVec 64) : Prop :=
        bad ls t k f = [] ∧ ∀ l ∈ ls, ∀ x, Xl.at_ x ∈ access s (c.mapping s) (f l) t.size k → absent x = false
      takes (.ldg home m) m.dk ml m.ty .load ma ∧ takes (.stg m) m.dk ml m.ty .store ma ∧
      takes (.atg op r) once rl r.ty .atomic ra ∧ takes (.casg r) once rl r.ty .atomic ra ∧ takes (.redg op r) once rl r.ty .atomic ra ∧
      hostTakes (.ldh m) false ∧ hostTakes (.sth m) true ∧
      (here rl r.ty .atomic ra → ∀ l, mis.head? = some l → ∀ i, i = .atg op r ∨ i = .casg r ∨ i = .redg op r →
        answers s i (fun u => c.trapped s u cMISALIGN aCALLER 0 (if once = true then 0 else maskOf mis) (ra l))) ∧
      (gone ml m.ty .load ma → exec (.ldg home m) s = .fault .absentMemory) ∧
      (gone ml m.ty .store ma → exec (.stg m) s = .fault .absentMemory) ∧
      (gone rl r.ty .atomic ra → exec (.atg op r) s = .fault .absentMemory))

/-- R153 to R157, R162, R163, R165, R168, R170, R363: SCRATCHPAD_ACCESS_PERFORM performs one part of the word at the head of
a wave's queue: of the accesses of lanes 0 to 31 before those of lanes 32 to 63, the bytes of one aligned 64-byte unit, or one
128-byte line. A load reads its bytes there, a store writes them, the highest lane's where lanes overlap, and no other
byte changes; an atomic serves its lanes in ascending order, each reading what the one before left, in parts that are runs of
consecutive lanes, the lanes that name one unit all in one; a full/empty word sets,
clears or reads the line, a `FECLR` only when no load whose wait has completed has yet to read it. With its last part the word leaves the queue, its result complete. A unit of the die scratchpad
with an uncorrectable error ends the word in UNCORR at the offset met.

R160, R168, R239, R303: QPUSH_COMPLETE and QPOP_COMPLETE move one handle, first among those that wait, where the condition
has come about within the limit, and count its bytes; one whose condition has not is LIMIT WAIT after the limit. An `LDS`
waits while one of its lines is empty and its wait has not completed; FILL_LIMIT_EXPIRY traps LIMIT on the fill past its limit.
The model's own choices in it: log entries 17, 18, 20, 76, 77, 100. -/
def Obligations.ScratchpadPerformsAndWaits : Prop :=
  (
    ∀ (s : State) (id : WaveId) (x : Wave) (b : Block) (op : SpOp) (l : Launch), spHead s id = some (x, b, op) →
      s.launch id.serial = some l →
      let ps : List Nat := op.left.getD (plainParts op.kind)
      let half (p : Nat) : Nat := p / 2 ^ 40
      let unit_ (p : Nat) : Nat := p % 2 ^ 40
      let die : Nat := b.core / 96
      let far : Tab Byte := if die = 0 then l.dieScr0 else l.dieScr1
      let part (P : Nat → SpOp → Block → Launch → Prop) (ws : SpOp → List RegWrite) : Prop :=
        ps ≠ [] → answers s (.scratchpadAccessPerform id) (fun t => ∃ p w b' l' op',
          p ∈ ps ∧ half p = half (ps.headD 0) ∧
          t.wave id = some w ∧ t.block id.serial id.block = some b' ∧ t.launch id.serial = some l' ∧
          op'.left = some (ps.erase p) ∧ { op' with left := op.left, got := op.got } = op ∧ P p op' b' l' ∧
          (ps.erase p ≠ [] → w = { x with spq := op' :: x.spq.tail }) ∧ (ps.erase p = [] → served x op (ws op') w) ∧
          otherWaves s t id ∧ { t with waves := s.waves, blocks := s.blocks, launches := s.launches } = s)
      let sameL (l' : Launch) : Prop := { l' with ebytes := l.ebytes } = l
      let covers (y : Nat × Nat × List Byte) (a : Nat) : Prop := y.2.1 ≤ a ∧ a < y.2.1 + y.2.2.length
      let inPart (p lane a : Nat) : Prop := lane / 32 = half p ∧ a / 64 = unit_ p
      let reads (m : Tab Byte) (n : Nat) (at_ : List (Nat × Nat)) (p : Nat) (op' : SpOp) : Prop :=
        ∀ y ∈ at_, ∀ a, y.2 ≤ a → a < y.2 + n →
          (inPart p y.1 a → op'.bytes y.1 a 1 = [tget 0 m a]) ∧ (¬ inPart p y.1 a → op'.bytes y.1 a 1 = op.bytes y.1 a 1)
      let writes (m m' : Tab Byte) (at_ : List (Nat × Nat × List Byte)) (p : Nat) : Prop :=
        (∀ a, (∀ y ∈ at_, ¬ (covers y a ∧ inPart p y.1 a)) → tget 0 m' a = tget 0 m a) ∧
        (∀ y ∈ at_, ∀ a, covers y a → inPart p y.1 a → (∀ z ∈ at_, covers z a → z.1 ≤ y.1) → tget 0 m' a = y.2.2.getD (a - y.2.1) 0)
      let loaded (ty : Ty) (dk : Bool) (dst : Nat) (at_ : List (Nat × Nat)) (op' : SpOp) : List RegWrite :=
        at_.flatMap (fun y => typeWrites ty dk dst y.1 (ofLeBytes (op'.bytes y.1 y.2 ty.size)))
      let olds (ty : Ty) (scal : Bool) (dst : Nat) (lanes : List Nat) (op' : SpOp) : List RegWrite :=
        lanes.flatMap (fun y => typeWrites ty scal dst y (ofLeBytes (tgets 0 op'.got (8 * y) ty.size)))
      let inOrder (n : Nat) (ys : List (Nat × Nat)) (new_ : Nat → Nat → Option Nat) (op' : SpOp) (b' : Block) : Prop :=
        { b' with scratch := b.scratch } = b ∧ ∃ m : Nat → Tab Byte, m 0 = b.scratch ∧ m ys.length = b'.scratch ∧
          ∀ (i : Nat) (y : Nat × Nat), ys[i]? = some y →
            tgets 0 op'.got (8 * y.1) n = tgets 0 (m i) y.2 n ∧
            m (i + 1) = (match new_ i (ofLeBytes (tgets 0 (m i) y.2 n)) with
              | some v => tputs 0 (m i) y.2 (leBytes v n)
              | none => m i)
      let starts : List Nat := plainParts op.kind
      let inRun (p lane : Nat) : Prop := p ≤ lane ∧ ∀ q ∈ starts, q ≤ lane → q ≤ p
      let runs (at_ : List (Nat × Nat)) : Prop := at_.Pairwise (fun y z => y.1 < z.1) →
        starts.Pairwise (· < ·) ∧ (∀ y ∈ at_, ∃ p ∈ starts, inRun p y.1) ∧
          ∀ y ∈ at_, ∀ z ∈ at_, y.2 / 64 = z.2 / 64 → ∀ p ∈ starts, (inRun p y.1 ↔ inRun p z.1)
      let near (n : Nat) (at_ : List (Nat × Nat)) : Prop := (∀ y ∈ at_, y.1 < 64 ∧ y.2 + n ≤ 2 ^ 40) ∧ (at_.map (fun y => y.1)).Nodup
      let sound (p : Nat) (n : Nat) (at_ : List (Nat × Nat)) : Prop := ∀ y ∈ at_, ∀ a, y.2 ≤ a → a < y.2 + n → inPart p y.1 a →
        dieUnit id.serial die a ∉ s.bad
      (∀ ty dk dst at_, near ty.size at_ →
        (op.kind = .load false ty dk dst at_ ∨ (∃ lines, op.kind = .lds ty dk dst at_ lines ∧ fillDone b op lines = true) →
          part (fun p op' b' l' => b' = b ∧ sameL l' ∧ reads b.scratch ty.size at_ p op') (loaded ty dk dst at_)) ∧
        (op.kind = .load true ty dk dst at_ → (∀ p ∈ ps, sound p ty.size at_) →
          part (fun p op' b' l' => b' = b ∧ sameL l' ∧ reads far ty.size at_ p op') (loaded ty dk dst at_))) ∧
      (∀ at_ : List (Nat × Nat × List Byte), (∀ y ∈ at_, y.1 < 64 ∧ y.2.1 + y.2.2.length ≤ 2 ^ 40) → (at_.map (fun y => y.1)).Nodup →
        (op.kind = .store false at_ →
          part (fun p op' b' l' => op'.got = op.got ∧ sameL l' ∧ { b' with scratch := b.scratch } = b ∧ writes b.scratch b'.scratch at_ p) (fun _ => [])) ∧
        (op.kind = .store true at_ → (∀ p ∈ ps, ∀ y ∈ at_, ∀ a, covers y a → inPart p y.1 a → dieUnit id.serial die a ∉ s.bad) →
          part (fun p op' b' l' => op'.got = op.got ∧ b' = { b with relaunchable := false } ∧
            (die = 0 → { l' with ebytes := l.ebytes, dieScr0 := l.dieScr0 } = l ∧ writes far l'.dieScr0 at_ p) ∧
            (die ≠ 0 → { l' with ebytes := l.ebytes, dieScr1 := l.dieScr1 } = l ∧ writes far l'.dieScr1 at_ p)) (fun _ => []))) ∧
      (∀ o ty scal dst at_, op.kind = .ats o ty scal dst at_ → ty.size ≤ 8 → (at_.map (fun y => y.1)).Nodup →
        runs (at_.map (fun y => (y.1, y.2.1))) ∧
        part (fun p op' b' l' => ps.head? = some p ∧ sameL l' ∧
          (let ys := at_.filter (fun y => decide (inRun p y.1))
           inOrder ty.size (ys.map (fun y => (y.1, y.2.1)))
             (fun i old => some (if o = .exch then (ys.getD i (0, 0, 0)).2.2 else redOp o ty old (ys.getD i (0, 0, 0)).2.2)) op' b'))
          (olds ty scal dst (at_.map (fun y => y.1)))) ∧
      (∀ ty scal dst at_, op.kind = .cass ty scal dst at_ → ty.size ≤ 8 → (at_.map (fun y => y.1)).Nodup →
        runs (at_.map (fun y => (y.1, y.2.1))) ∧
        part (fun p op' b' l' => ps.head? = some p ∧ sameL l' ∧
          (let ys := at_.filter (fun y => decide (inRun p y.1))
           inOrder ty.size (ys.map (fun y => (y.1, y.2.1)))
             (fun i old => if old = (ys.getD i (0, 0, 0, 0)).2.2.1 then some (ys.getD i (0, 0, 0, 0)).2.2.2 else none) op' b'))
          (olds ty scal dst (at_.map (fun y => y.1)))) ∧
      (∀ at_, op.kind = .feset at_ → part (fun p op' b' l' => op'.got = op.got ∧ l' = l ∧ { b' with fe := b.fe, late := b.late } = b ∧
        (∀ k, (k ∈ b'.fe ↔ k ∈ b.fe ∧ k ≠ unit_ p)) ∧
        ∀ n, (n ∈ b'.late ↔ n ∈ b.late ∨ ∃ q ∈ wavesOf s id.serial id.block, ∃ o ∈ q.2.spq, o.seq = n ∧
          o.limit < q.2.cyc b.core s.tick - o.start ∧ unit_ p ∈ b.fe ∧
            ∃ ty dk dst ls lines, o.kind = .lds ty dk dst ls lines ∧ unit_ p ∈ lines)) (fun _ => [])) ∧
      (∀ at_, op.kind = .feclr at_ →
        let reads (q : WaveId × Wave) : Prop := ∃ x b o, spHead s q.1 = some (x, b, o) ∧ (o.met = some true ∨ o.left ≠ none) ∧
          ∃ ty dk dst ls lines, o.kind = .lds ty dk dst ls lines ∧ ∃ y ∈ at_, y.2 ∈ lines
        ((∃ q ∈ wavesOf s id.serial id.block, reads q) → idles s (.scratchpadAccessPerform id)) ∧
        ((∀ q ∈ wavesOf s id.serial id.block, ¬ reads q) → part (fun p op' b' l' => op'.got = op.got ∧ l' = l ∧ { b' with fe := b.fe } = b ∧
        ∀ k, (k ∈ b'.fe ↔ k ∈ b.fe ∨ k = unit_ p)) (fun _ => []))) ∧
      (∀ scal dst at_, op.kind = .feqry scal dst at_ → (at_.map (fun y => y.1)).Nodup →
        part (fun p op' b' l' => b' = b ∧ l' = l ∧
          ∀ y ∈ at_, tget 0 op'.got y.1 = if y.1 / 32 = half p ∧ y.2 = unit_ p then (if y.2 ∈ b.fe then 0 else 1) else tget 0 op.got y.1)
          (fun op' =>
            let full (y : Nat) : Bool := tget 0 op'.got y == 1
            if scal = true then at_.map (fun y => .s dst (if full y.1 then 1 else 0))
            else [.m dst (maskOf (at_.map (fun y => y.1))) (maskOf ((at_.map (fun y => y.1)).filter full))])) ∧
      (∀ q base cap allow, op.kind = .qinit q base cap allow → op.left = none →
        answers s (.scratchpadAccessPerform id) (fun t => ∃ w b', t.wave id = some w ∧ t.block id.serial id.block = some b' ∧
          served x op [] w ∧ { b' with queues := b.queues } = b ∧
          tfind b'.queues q = some { base := base, cap := cap, allow := allow, head := 0, tail := 0, count := 0, tags := [], out := [] } ∧
          (∀ k, k ≠ q → tfind b'.queues k = tfind b.queues k) ∧
          otherWaves s t id ∧ { t with waves := s.waves, blocks := s.blocks } = s)) ∧
      (∀ p ty dk dst lane a, ps = [p] → op.kind = .load true ty dk dst [(lane, a)] → ty.size ≠ 0 → inPart p lane a → lane < 64 → a < 2 ^ 40 →
        dieUnit id.serial die a ∈ s.bad → answers s (.scratchpadAccessPerform id) (fun t => ∃ tr,
          t.launch id.serial = some { l with traps := l.traps ++ [tr] } ∧ t.wave id = some { x with spDead := true } ∧
          tr.code = cUNCORR ∧ tr.attr = aMACHINE ∧ tr.pc = op.pc.toNat ∧ tr.value = BitVec.ofNat 64 a ∧ tr.block = id.block ∧ tr.core = b.core))) ∧
  (
    ∀ (s : State) (id : WaveId) (x : Wave) (b : Block) (op : SpOp) (l : Launch), spHead s id = some (x, b, op) →
      s.launch id.serial = some l →
      let late : Prop := op.limit < x.cyc b.core s.tick - op.start
      let inT : Prop := op.met = some true ∨ (op.met = none ∧ ¬ late)
      let counts (l' : Launch) : Prop := { l' with ebytes := l.ebytes } = l ∧ tget 0 l'.ebytes 0 = tget 0 l.ebytes 0 + 4
      let does (i : Instr) (P : Block → Prop) (ws : List RegWrite) : Prop := answers s i (fun t =>
        ∃ w b' l', t.wave id = some w ∧ t.block id.serial id.block = some b' ∧ t.launch id.serial = some l' ∧ counts l' ∧
          served x op ws w ∧ P b' ∧ otherWaves s t id ∧ { t with waves := s.waves, blocks := s.blocks, launches := s.launches } = s)
      let limited (i : Instr) (construct : Nat) : Prop := answers s i (fun t =>
        ∃ tr, t.launch id.serial = some { l with traps := l.traps ++ [tr] } ∧ t.wave id = some { x with spDead := true } ∧
          tr.code = cLIMIT ∧ tr.construct = construct ∧ tr.attr = waitAttr l op.since ∧ tr.pc = op.pc.toNat ∧ tr.block = id.block ∧
          tr.core = b.core ∧ tr.value = BitVec.ofNat 64 op.limit ∧
          { t with waves := s.waves, launches := s.launches, latches := s.latches } = s)
      (∀ q h y, op.kind = .qpush q h → tfind b.queues q = some y → y.count < y.cap → tget 0 y.out (waveNo id x) < y.allow →
        firstWaiter s id b op.seq q true = true → inT → does (.qpushComplete id) (fun b' =>
          { b' with scratch := b.scratch, queues := b.queues } = b ∧
          tgets 0 b'.scratch (y.base + 4 * (y.tail % y.cap)) 4 = leBytes h.toNat 4 ∧
          (∀ a, a < y.base + 4 * (y.tail % y.cap) ∨ y.base + 4 * (y.tail % y.cap) + 4 ≤ a → tget 0 b'.scratch a = tget 0 b.scratch a) ∧
          (∀ k, k ≠ q → tfind b'.queues k = tfind b.queues k) ∧
          ∃ z, tfind b'.queues q = some z ∧ z.tail = y.tail + 1 ∧ z.head = y.head ∧ z.count = y.count + 1 ∧
            z.tags = y.tags ++ [waveNo id x] ∧ tget 0 z.out (waveNo id x) = tget 0 y.out (waveNo id x) + 1) []) ∧
      (∀ q d y, op.kind = .qpop q d → tfind b.queues q = some y → 0 < y.count →
        firstWaiter s id b op.seq q false = true → inT → does (.qpopComplete id) (fun b' =>
          { b' with queues := b.queues } = b ∧ (∀ k, k ≠ q → tfind b'.queues k = tfind b.queues k) ∧
          ∃ z, tfind b'.queues q = some z ∧ z.head = y.head + 1 ∧ z.tail = y.tail ∧ z.count + 1 = y.count ∧ z.tags = y.tags.tail ∧
            tget 0 z.out (y.tags.headD 0) = tget 0 y.out (y.tags.headD 0) - 1)
          [.s d (BitVec.ofNat 64 (ofLeBytes (tgets 0 b.scratch (y.base + 4 * (y.head % y.cap)) 4)))]) ∧
      (((∃ q h, op.kind = .qpush q h) ∨ ∃ q d, op.kind = .qpop q d) → late → queueMet s id x b op = false →
        limited (.waitLimitExpiry id .spad) kWAIT) ∧
      (∀ ty dk dst at_ lines, op.kind = .lds ty dk dst at_ lines → op.left = none → op.met ≠ some true →
        ((∃ k ∈ lines, k ∈ b.fe) ∨ op.seq ∈ b.late) → idles s (.ldsFillComplete id) ∧ idles s (.scratchpadAccessPerform id) ∧
          (late → limited (.fillLimitExpiry id) kFILL) ∧ (¬ late → idles s (.fillLimitExpiry id))) ∧
      (∀ ty dk dst at_ lines, op.kind = .lds ty dk dst at_ lines →
        (op.met = some true ∨ ((∀ k ∈ lines, k ∉ b.fe) ∧ op.seq ∉ b.late)) →
        idles s (.fillLimitExpiry id) ∧
        ∀ p, op.left.getD (plainParts op.kind) = [p] → answers s (.ldsFillComplete id) (fun t => ∃ (w : Wave) (op' : SpOp), t.wave id = some w ∧
          served x op (at_.flatMap (fun y => typeWrites ty dk dst y.1 (ofLeBytes (op'.bytes y.1 y.2 ty.size)))) w ∧
          t.blocks = s.blocks ∧ otherWaves s t id)))

/-! ### Device and host memory words (09_device_memory.md) -/

/-- R186, R188, R197, R201, R313: a load whose lanes all translate asks for their bytes, `LDG.H` from home; under the
determinism flag a stable load reads at once. It conflicts with no earlier touch of another block, and home memory, its order
and the store sets stay as they are.
The model's own choices in it: log entries 6, 19, 62. -/
def Obligations.DeviceLoads : Prop :=
  ∀ (s : State) (c : Ctx) (m : Mem) (home : Bool) (lo : Nat → List Nat), s.issuer = some c →
    let ls : List Nat := if m.dk = true then (if c.any m.h = true then [0] else []) else c.lanes m.h
    let da (l : Nat) : BitVec 64 := (if m.ak = true then c.w.readS m.sa.toNat else c.w.readV64 m.sa.toNat l) + m.off.signExtend 64
    let dst : List Reg := dstRegs m.ty m.dk m.dst.toNat
    (ls = [] → passes c s (.ldg home m)) ∧
    (ls ≠ [] → (∀ l ∈ ls, access s (c.mapping s) (da l) m.ty.size .load = (lo l).map Xl.at_ ∧ ∀ x ∈ lo l, absent x = false) →
      (c.det = true → ∀ l ∈ ls, findConflict c.l c.b c.id.block 0 (lo l) = none) →
      answers s (.ldg home m) (fun t => ∃ w, t.wave c.id = some w ∧ otherWaves s t c.id ∧
        { t with waves := s.waves, launches := s.launches, parts := s.parts, views := s.views, free := s.free } = s ∧
        ((c.det = false ∨ home = true) → t.views = s.views ∧ t.free = s.free ∧
          c.requested w dst (ls.map (fun l =>
            { seq := s.tick, tag := s.tick, lane := l, pc := c.sl.path.pc, addr := da l, after := c.w.barrier,
              kind := if home = true then .home (lo l) [] m.ty m.dk m.dst.toNat else .stable (lo l) m.ty m.dk m.dst.toNat }))) ∧
        (c.det = true → home = false → (∀ l ∈ ls, ∀ x ∈ lo l, badUnit s x = false) →
          ∃ xs : Nat → List Byte,
            { w with pend := c.w.pend } = c.w.advance c.slotB ∧
            w.pend = c.w.pend ++ [{ tag := s.tick, kind := .dev, dst := dst, ready := true, writes := ls.flatMap (fun l => typeWrites m.ty m.dk m.dst.toNat l (ofLeBytes (xs l))) }] ∧
            ∀ l ∈ ls, (xs l).length = (lo l).length ∧ ∀ (i x : Nat), (lo l)[i]? = some x →
              let v := tget {} s.views c.key
              match setByte? s c.key x with
              | some b => (xs l)[i]? = some b
              | none => match tfind v.seen x with
                | some b => (xs l)[i]? = some b
                | none => ∃ p, min (v.reads [x]) s.hpt ≤ p ∧ p ≤ s.hpt ∧ (xs l)[i]? = some (homeAt s p x))))

/-- R188, R195, R197, R312: a store whose lanes all translate is on its way to the store set of its core; under the
determinism flag it is in the set of its block at once. No byte of device memory changes before the set is published.
The model's own choices in it: log entries 2, 62. -/
def Obligations.DeviceStores : Prop :=
  ∀ (s : State) (c : Ctx) (m : Mem) (lo : Nat → List Nat), s.issuer = some c →
    let ls : List Nat := if m.dk = true then (if c.any m.h = true then [0] else []) else c.lanes m.h
    let da (l : Nat) : BitVec 64 := (if m.ak = true then c.w.readS m.sa.toNat else c.w.readV64 m.sa.toNat l) + m.off.signExtend 64
    let data (l : Nat) : List Byte := leBytes (readType c.w m.ty m.dk m.dst.toNat l) m.ty.size
    let bytes : List (Nat × Byte × BitVec 64) := ls.flatMap (fun l =>
      (lo l).zipIdx.map (fun p => (p.1, (data l).getD p.2 0, da l + BitVec.ofNat 64 p.2)))
    (ls = [] → passes c s (.stg m)) ∧
    (ls ≠ [] → (∀ l ∈ ls, access s (c.mapping s) (da l) m.ty.size .store = (lo l).map Xl.at_ ∧ ∀ x ∈ lo l, absent x = false) →
      (c.det = true → ∀ l ∈ ls, findConflict c.l c.b c.id.block 1 (lo l) = none) →
      answers s (.stg m) (fun t => ∃ w, t.wave c.id = some w ∧ otherWaves s t c.id ∧
        { t with waves := s.waves, launches := s.launches, parts := s.parts, sets := s.sets } = s ∧
        (c.det = false → t.sets = s.sets ∧
          c.requested w [] [{ seq := s.tick, tag := s.tick, lane := 0, pc := c.sl.path.pc, addr := 0, after := c.w.barrier, kind := .stg bytes }]) ∧
        (c.det = true → w = c.w.advance c.slotB ∧
          (∀ k, k ≠ c.key → tfind t.sets k = tfind s.sets k) ∧
          ∃ x, tfind t.sets c.key = some x ∧ x.redgs = (tget {} s.sets c.key).redgs ∧
            (∀ b, b ∈ x.blocks ↔ b = c.id.block ∨ b ∈ (tget {} s.sets c.key).blocks) ∧
            (∀ a, (∀ b ∈ bytes, b.1 ≠ a) → tfind x.bytes a = tfind (tget {} s.sets c.key).bytes a) ∧
            (∀ (i : Nat) (b : Nat × Byte × BitVec 64), bytes[i]? = some b →
              (∀ (j : Nat) (d : Nat × Byte × BitVec 64), i < j → bytes[j]? = some d → d.1 ≠ b.1) →
              tfind x.bytes b.1 = some { val := b.2.1, dva := b.2.2 }))))

/-- R190 to R193, R312, R313: a global atomic whose lanes are aligned and all translate asks for them, holding DST until it is
answered; its block relaunches no more. Lanes of this device ask home; lanes of a remote range of one device (up to eight of
them) go there in one AREQ flit, or wait where the wave has a request to home under way that they must follow (R202). Under the determinism flag a `REDG` joins the block's set, and sends nothing.
The model's own choices in it: log entries 19, 62, 79. -/
def Obligations.DeviceAtomics : Prop :=
  ∀ (s : State) (c : Ctx) (r : Lane) (op : AtomOp) (lo : Nat → List Nat) (dev : Nat) (x : Nat → Nat), s.issuer = some c →
    let ls : List Nat := if r.form = .scal then (if c.any r.h = true then [0] else []) else c.lanes r.h
    let da (l : Nat) : BitVec 64 := if r.form = .scal then c.w.readS r.sa.toNat else c.w.readV64 r.sa.toNat l
    let once : Bool := r.form == .scal
    let dst : List Reg := dstRegs r.ty once r.dst.toNat
    let b : Nat → Nat := srcB c.w r r.ty
    let z : Nat → Nat := srcC c.w r r.ty
    let no : Nat → Nat := fun _ => 0
    let req (l : Nat) (k : ReqKind) : Req :=
      { seq := s.tick, tag := s.tick, lane := l, pc := c.sl.path.pc, addr := da l, after := c.w.barrier, kind := k }
    let local_ (opc : Nat) (d : Option Nat) (b z : Nat → Nat) : List Req :=
      ls.map (fun l => req l (.atom opc (lo l) r.ty once d (b l) (z l)))
    let far (d : Option Nat) : List Req := ls.zipIdx.map (fun p => req p.1 (.remote dev s.flitTags p.2 r.ty once d))
    let wait (opc : Nat) (d : Option Nat) (b z : Nat → Nat) : List Req := ls.map (fun l => req l (.far dev (x l) opc r.ty once d (b l) (z l)))
    let asks (i : Instr) (dst : List Reg) (rs : List Req) (P : State → Prop) : Prop := answers s i (fun t =>
      ∃ w b', t.wave c.id = some w ∧ c.requested w dst rs ∧ t.block c.id.serial c.id.block = some b' ∧
        b' = { c.b with relaunchable := false } ∧ otherWaves s t c.id ∧ P t ∧
        { t with waves := s.waves, launches := s.launches, parts := s.parts, blocks := s.blocks, ports := s.ports, flitTags := s.flitTags } = s)
    let here (t : State) : Prop := t.ports = s.ports ∧ t.flitTags = s.flitTags
    let sent (opc : Nat) (ret : Bool) (b z : Nat → Nat) (t : State) : Prop := t.flitTags = s.flitTags + 1 ∧
      t.ports = (sendFlit s dev 1 0 (areqPayload s.flitTags opc r.ty.code.toNat ret (ls.map (fun l => (x l, b l, z l))))).ports
    let staged (locs : Nat → List Nat) (f : Nat → Option (Nat × Nat)) : Prop := answers s (.redg op r) (fun t =>
      t.wave c.id = some (c.w.advance c.slotB) ∧ otherWaves s t c.id ∧
        { t with waves := s.waves, launches := s.launches, parts := s.parts, sets := s.sets } = s ∧
        (∀ k, k ≠ c.key → tfind t.sets k = tfind s.sets k) ∧
        ∃ y, tfind t.sets c.key = some y ∧ y.bytes = (tget {} s.sets c.key).bytes ∧
          (∀ n, n ∈ y.blocks ↔ n = c.id.block ∨ n ∈ (tget {} s.sets c.key).blocks) ∧
          y.redgs = (tget {} s.sets c.key).redgs ++ ls.map (fun l =>
            { id := c.id, seq := s.tick, op := op.code.toNat, locs := locs l, far := f l, ty := r.ty, b := b l, addr := da l,
              pc := c.sl.path.pc.toNat, wave := waveNo c.id c.w, engine := c.w.engine }))
    (ls = [] → passes c s (.atg op r) ∧ passes c s (.casg r) ∧ passes c s (.redg op r)) ∧
    (ls ≠ [] → r.ty.size ≠ 0 → (∀ l ∈ ls, access s (c.mapping s) (da l) r.ty.size .atomic = (lo l).map Xl.at_ ∧
        (∀ a ∈ lo l, absent a = false) ∧ (da l).toNat % r.ty.size = 0) →
      asks (.atg op r) dst (local_ op.code.toNat (some r.dst.toNat) b no) here ∧
      asks (.casg r) dst (local_ 7 (some r.dst.toNat) z b) here ∧
      (c.det = false → asks (.redg op r) [] (local_ op.code.toNat none b no) here) ∧
      (c.det = true → (∀ l ∈ ls, findConflict c.l c.b c.id.block (redKind op r.ty) (lo l) = none) → staged lo (fun _ => none))) ∧
    (ls ≠ [] → ls.length ≤ 8 → r.ty.size ≠ 0 → (∀ l ∈ ls, access s (c.mapping s) (da l) r.ty.size .atomic =
        (List.range r.ty.size).map (fun i => Xl.remote dev (x l + i)) ∧ (da l).toNat % r.ty.size = 0) →
      (c.w.farWaits = false →
        asks (.atg op r) dst (far (some r.dst.toNat)) (sent op.code.toNat true b no) ∧
        asks (.casg r) dst (far (some r.dst.toNat)) (sent 7 true z b) ∧
        (c.det = false → asks (.redg op r) [] (far none) (sent op.code.toNat false b no))) ∧
      (c.w.farWaits = true →
        asks (.atg op r) dst (wait op.code.toNat (some r.dst.toNat) b no) here ∧
        asks (.casg r) dst (wait 7 (some r.dst.toNat) z b) here ∧
        (c.det = false → asks (.redg op r) [] (wait op.code.toNat none b no) here)) ∧
      (c.det = true → (∀ l ∈ ls, findConflict c.l c.b c.id.block (redKind op r.ty) ((List.range r.ty.size).map (fun i => farKey dev (x l + i))) = none) →
        staged (fun _ => []) (fun l => some (dev, x l))))

/-- R185, R189: `STH` writes host memory through the partition's windows and nothing else; `LDH` asks for its bytes, which
LDH_COMPLETION brings; `PFG` changes nothing a program can see.
The model's own choices in it: log entry 22. -/
def Obligations.HostWordsAndPrefetch : Prop :=
  ∀ (s : State) (c : Ctx) (m : Mem) (lo : Nat → List Nat), s.issuer = some c →
    let ls : List Nat := if m.dk = true then (if c.any m.h = true then [0] else []) else c.lanes m.h
    let da (l : Nat) : BitVec 64 := (if m.ak = true then c.w.readS m.sa.toNat else c.w.readV64 m.sa.toNat l) + m.off.signExtend 64
    let data (l : Nat) : List Byte := leBytes (readType c.w m.ty m.dk m.dst.toNat l) m.ty.size
    passes c s (.pfg m) ∧
    (ls = [] → passes c s (.ldh m) ∧ passes c s (.sth m)) ∧
    (ls ≠ [] → (∀ l ∈ ls, hostAccess (c.mapping s) false (da l) m.ty.size = (lo l).map Sum.inr) →
      answers s (.ldh m) (fun t => ∃ w, t.wave c.id = some w ∧ otherWaves s t c.id ∧
        { t with waves := s.waves, launches := s.launches } = s ∧
        c.requested w (dstRegs m.ty m.dk m.dst.toNat) (ls.map (fun l =>
          { seq := s.tick, tag := s.tick, lane := l, pc := c.sl.path.pc, addr := da l,
            kind := .ldh (lo l) m.ty m.dk m.dst.toNat })))) ∧
    (ls ≠ [] → (∀ l ∈ ls, hostAccess (c.mapping s) true (da l) m.ty.size = (lo l).map Sum.inr) →
      answers s (.sth m) (fun t => ∃ w, t.wave c.id = some w ∧ { w with sths := c.w.sths } = c.w.advance c.slotB ∧
        w.sths = c.w.sths + 1 ∧ otherWaves s t c.id ∧
        { t with waves := s.waves, launches := s.launches, hostMem := s.hostMem } = s ∧
        (∀ a, (∀ l ∈ ls, a ∉ lo l) → tget 0 t.hostMem a = tget 0 s.hostMem a) ∧
        (∀ l, ls = [l] → (lo l).Nodup → ∀ i a, (lo l)[i]? = some a → tget 0 t.hostMem a = (data l).getD i 0)))

/-- R313, R314: under the determinism flag a touch that conflicts with an earlier one of another block, which nothing orders
before it, makes its word trap DETCONFLICT at the lowest lane with such a byte: VALUE is the address of the byte (its offset in
the die scratchpad), and the record names the earlier word and its block. No lane acts.
The model's own choices in it: log entries 25, 71. -/
def Obligations.UnorderedTouches : Prop :=
  ∀ (s : State) (c : Ctx) (m : Mem) (r : Lane) (op : AtomOp) (home : Bool) (lo : Nat → List Nat) (l : Nat) (f : Nat × Touch),
      s.issuer = some c → c.det = true →
    let turns (h : Hdr) (once : Bool) : List Nat := if once = true then (if c.any h = true then [0] else []) else c.lanes h
    let ml := turns m.h m.dk
    let rs : Bool := r.form == .scal
    let rl := turns r.h rs
    let sp (l : Nat) : Int := (if m.ak = true then (c.w.readS m.sa.toNat).toInt else (c.w.readV m.sa.toNat l).toNat) + m.off.toInt
    let da (l : Nat) : BitVec 64 := (if m.ak = true then c.w.readS m.sa.toNat else c.w.readV64 m.sa.toNat l) + m.off.signExtend 64
    let ra (l : Nat) : BitVec 64 := if rs = true then c.w.readS r.sa.toNat else c.w.readV64 r.sa.toNat l
    let first (ls : List Nat) (kind : Nat) (locs : Nat → List Nat) : Prop :=
      ls.find? (fun l => (findConflict c.l c.b c.id.block kind (locs l)).isSome) = some l ∧ findConflict c.l c.b c.id.block kind (locs l) = some f
    let takes (i : Instr) (once : Bool) (value : BitVec 64) : Prop :=
      answers s i (fun t => c.trapped s t cDETCONFLICT aCALLER 0 (if once = true then 0 else maskOf [l]) value ∧
        ∃ y tr, t.launch c.id.serial = some y ∧ y.traps = c.l.traps ++ [tr] ∧ tr.pc2 = f.2.pc ∧ tr.block2 = f.2.block)
    let byte : BitVec 64 := BitVec.ofNat 64 ((lo l).idxOf f.1)
    ((∀ l ∈ ml, 0 ≤ sp l ∧ sp l + m.ty.size ≤ c.l.offer.kernel.diescratch) →
      let offs (l : Nat) : List Nat := (List.range m.ty.size).map (fun i => dieLoc c ((sp l).toNat + i))
      (first ml 0 offs → ∀ i, f.1 = dieLoc c ((sp l).toNat + i) → takes (.dlds m) m.dk (BitVec.ofNat 64 ((sp l).toNat + i))) ∧
      (first ml 1 offs → ∀ i, f.1 = dieLoc c ((sp l).toNat + i) → takes (.dsts m) m.dk (BitVec.ofNat 64 ((sp l).toNat + i)))) ∧
    (∀ k, (∀ l ∈ ml, access s (c.mapping s) (da l) m.ty.size k = (lo l).map Xl.at_ ∧ ∀ a ∈ lo l, absent a = false) →
      (k = .load → first ml 0 lo → takes (.ldg home m) m.dk (da l + byte)) ∧
      (k = .store → first ml 1 lo → takes (.stg m) m.dk (da l + byte))) ∧
    (r.ty.size ≠ 0 → (∀ l ∈ rl, access s (c.mapping s) (ra l) r.ty.size .atomic = (lo l).map Xl.at_ ∧ (∀ a ∈ lo l, absent a = false) ∧
        (ra l).toNat % r.ty.size = 0) → first rl (redKind op r.ty) lo → takes (.redg op r) rs (ra l + byte))

/-- R176, R186, R191, R192, R194, R195, R201: a request that no earlier one of its wave holds back is performed: a store enters
the set, an atomic replaces the bytes by one event of H and answers the old value, and the next 32-byte unit of an `LDG.H`
reads its home value. One that meets a unit with an uncorrectable error ends in UNCORR and reads and writes nothing.
The model's own choices in it: log entries 2, 79, 80. -/
def Obligations.RequestsPerformed : Prop :=
  ∀ (s : State) (id : WaveId) (x : Wave) (b : Block) (l : Launch) (k : Nat) (q : Req),
    s.wave id = some x → s.block id.serial id.block = some b → s.launch id.serial = some l → x.reqs[k]? = some q → reqFree x k = true →
    let last : Bool := !(x.reqs.eraseIdx k).any (fun p => p.tag == q.tag)
    let lands (w : Wave) (ws : List RegWrite) : Prop :=
      w.reqs = x.reqs.eraseIdx k ∧ { w with reqs := x.reqs, pend := x.pend, homePt := x.homePt } = x ∧
        w.pend = x.pend.map (fun p => if p.tag = q.tag then { p with writes := p.writes ++ ws, ready := p.ready || last } else p)
    let fails (i : Instr) (code attr pt : Nat) (addr : BitVec 64) : Prop := answers s i (fun t => ∃ tr,
      t.wave id = some { x with reqs := x.reqs.eraseIdx k, homePt := pt } ∧ t.launch id.serial = some { l with traps := l.traps ++ [tr] } ∧
      tr.code = code ∧ tr.attr = attr ∧ tr.pc = q.pc.toNat ∧ tr.block = id.block ∧ tr.core = b.core ∧ tr.engine = x.engine ∧
      tr.value = addr ∧ otherWaves s t id ∧ { t with waves := s.waves, launches := s.launches, latches := s.latches } = s)
    (∀ bs, q.kind = .stg bs → x.reqs.findIdx? isStg = some k → answers s (.storeSetEntry id) (fun t =>
      t.wave id = some { x with reqs := x.reqs.eraseIdx k } ∧ otherWaves s t id ∧ { t with waves := s.waves, sets := s.sets } = s ∧
      (let key := setKey l b.core id.serial id.block
       tfind t.sets key = some (StoreSet.enter (tget {} s.sets key) id.block bs) ∧ ∀ j, j ≠ key → tfind t.sets j = tfind s.sets j))) ∧
    (∀ op locs ty scal dst bv cv, q.kind = .atom op locs ty scal dst bv cv → (∀ a ∈ locs, badUnit s a = false ∧ lockedAt s a = false) →
      let old := ofLeBytes (locs.map (memByte s))
      answers s (.atomicAtHome id k) (fun t => ∃ w, t.wave id = some w ∧ otherWaves s t id ∧
        { t with waves := s.waves, mem := s.mem, hist := s.hist, migrations := s.migrations, mgmt := s.mgmt } = s ∧
        lands w (match dst with | some d => typeWrites ty scal d q.lane old | none => []) ∧ w.homePt = max x.homePt t.hpt ∧ t.hpt = s.hpt + 1 ∧
        (s.migrations = [] → (∀ a d, redir s a = redir s d → a = d) → (∀ a, a ∉ locs → memByte t a = memByte s a) ∧
          (atomNew op ty old bv cv = none → ∀ a, memByte t a = memByte s a) ∧
          (∀ v, atomNew op ty old bv cv = some v → locs.Nodup → locs.length = ty.size → locs.map (memByte t) = leBytes v ty.size)))) ∧
    (∀ op locs ty scal dst bv cv, q.kind = .atom op locs ty scal dst bv cv →
      ((∃ a ∈ locs, lockedAt s a = true) → fails (.atomicAtHome id k) cPROT aCALLER x.homePt q.addr) ∧
      ((∀ a ∈ locs, lockedAt s a = false) → (∃ a ∈ locs, badUnit s a = true) → fails (.atomicAtHome id k) cUNCORR aMACHINE x.homePt q.addr)) ∧
    (∀ dev a opc ty scal dst bv cv, q.kind = .far dev a opc ty scal dst bv cv → (∀ (j : Nat) (r : Req), x.reqs[j]? = some r → r.tag = q.tag → j = k) →
      answers s (.atomicAtHome id k) (fun t =>
        t.wave id = some { x with reqs := x.reqs.set k { q with kind := .remote dev s.flitTags 0 ty scal dst } } ∧ otherWaves s t id ∧
        t.flitTags = s.flitTags + 1 ∧
        t.ports = (sendFlit s dev 1 0 (areqPayload s.flitTags opc ty.code.toNat dst.isSome [(a, bv, cv)])).ports ∧
        { t with waves := s.waves, ports := s.ports, flitTags := s.flitTags } = s)) ∧
    (∀ locs got ty dk dst, q.kind = .home locs got ty dk dst →
      let u := (unitsOf locs).headD []
      ((∃ a ∈ u, badUnit s a = true) → fails (.homeReadArrival id k) cUNCORR aMACHINE (max x.homePt s.hpt) (q.addr + BitVec.ofNat 64 got.length)) ∧
      ((∀ a ∈ u, badUnit s a = false) → answers s (.homeReadArrival id k) (fun t => ∃ w, t.wave id = some w ∧ otherWaves s t id ∧
        { t with waves := s.waves } = s ∧ w.homePt = max x.homePt s.hpt ∧
        (locs.drop u.length = [] → lands w (typeWrites ty dk dst q.lane (ofLeBytes (got ++ u.map (memByte s))))) ∧
        (locs.drop u.length ≠ [] → { w with reqs := x.reqs, homePt := x.homePt } = x ∧
          w.reqs = x.reqs.set k { q with kind := .home (locs.drop u.length) (got ++ u.map (memByte s)) ty dk dst }))))

/-- R118, R54, R56, R185, R195, R200: RESULT_WRITEBACK writes a complete result and frees its registers. A stable load whose
requests none of the wave's earlier ones holds back reads as it lands: a byte of the store set, newest first, else what the
view holds, else the home value at one point of H no earlier than the view's start. LDH_COMPLETION completes a lane with the
host memory's bytes, those among them that the host has written as it wrote them, or notes the host's error; with the word's
last lane the result is complete, or, where a lane met an error, the launch traps XLATE, attributed to the host, of the lanes
with errors and the address of the lowest. That a reuse latch of the slot is emptied whichever wave of the slot it was filled
for is the model's choice (log entry 28): R56 empties a latch whose register is written.
The model's own choices in it: log entries 6, 19, 21, 22, 28, 62. -/
def Obligations.ResultsLand : Prop :=
  ∀ (s : State) (id : WaveId) (x : Wave) (b : Block) (l : Launch), s.wave id = some x → s.block id.serial id.block = some b →
    s.launch id.serial = some l →
    let key := setKey l b.core id.serial id.block
    (∀ (p : Pend) (tag : Nat), b.place = .resident → (∀ q ∈ x.reqs, q.tag ≠ tag) →
      x.pend.find? (fun p => p.tag == tag && p.ready) = some p →
      answers s (.resultWriteback id tag) (fun t =>
        t.wave id = some ({ x with pend := x.pend.filter (fun q => q.tag != tag) }.applyWrites p.writes) ∧ otherWaves s t id ∧
        { t with waves := s.waves, latches := s.latches } = s ∧
        ∀ y, y ∈ tget [] t.latches (4 * b.core + id.wave % 4) ↔
          y ∈ tget [] s.latches (4 * b.core + id.wave % 4) ∧ ∀ z ∈ p.writes, latchHit y z = false)) ∧
    (∀ (p : Pend) (tag : Nat), b.place = .resident → (tget {} s.views key).needs = [] →
      let mine := x.reqs.filter (fun r => r.tag == tag)
      mine ≠ [] → (∀ (k : Nat) (r : Req), x.reqs[k]? = some r → r.tag = tag →
        reqFree x k = true ∧ ∃ locs ty dk dst, r.kind = .stable locs ty dk dst ∧ ∀ a ∈ locs, badUnit s a = false) →
      x.pend.find? (fun p => p.tag == tag) = some p →
      answers s (.resultWriteback id tag) (fun t => ∃ xs : Nat → List Byte,
        t.wave id = some ({ x with pend := x.pend.filter (fun q => q.tag != tag), reqs := x.reqs.filter (fun r => r.tag != tag) }.applyWrites
          (p.writes ++ mine.zipIdx.flatMap (fun (r : Req × Nat) => match r.1.kind with
            | .stable _ ty dk dst => typeWrites ty dk dst r.1.lane (ofLeBytes (xs r.2))
            | _ => []))) ∧
        otherWaves s t id ∧ { t with waves := s.waves, latches := s.latches, views := s.views, free := s.free } = s ∧
        (∀ j, j ≠ key → tfind t.views j = tfind s.views j) ∧
        ∀ (k : Nat) (r : Req) (locs : List Nat) (ty : Ty) (dk : Bool) (dst : Nat), mine[k]? = some r → r.kind = .stable locs ty dk dst →
          (xs k).length = locs.length ∧ ∀ (i a : Nat), locs[i]? = some a →
            let v := tget {} s.views key
            match setByte? s key a with
            | some y => (xs k)[i]? = some y
            | none => match tfind v.seen a with
              | some y => (xs k)[i]? = some y
              | none => ∃ p, min (v.reads [a]) s.hpt ≤ p ∧ p ≤ s.hpt ∧ (xs k)[i]? = some (homeAt s p a) ∧
                  tfind (tget {} t.views key).seen a = some (homeAt s p a))) ∧
    (∀ k q addrs ty dk dst (y : Pend) (data : Option (List (Option Byte))), x.reqs[k]? = some q → q.kind = .ldh addrs ty dk dst →
      x.pend.filter (fun p => p.tag == q.tag) = [y] → addrs.Nodup → addrs.length = ty.size →
      let reqs := x.reqs.eraseIdx k
      let more : Prop := ∃ p ∈ reqs, p.tag = q.tag
      let bad : List (Nat × BitVec 64) := if data = none then y.bad ++ [(q.lane, q.addr)] else y.bad
      let host (i a : Nat) : Byte := (((data.getD []).getD i none).getD (tget 0 s.hostMem a))
      let lands (w : Wave) (ready : Prop) : Prop := { w with pend := x.pend } = { x with reqs := reqs } ∧
        (∀ p ∈ x.pend, p.tag ≠ q.tag → p ∈ w.pend) ∧ ∃ z, w.pend.filter (fun p => p.tag == q.tag) = [z] ∧
          { z with writes := y.writes, ready := y.ready, bad := y.bad } = y ∧ z.bad = bad ∧ (z.ready = true ↔ y.ready = true ∨ ready) ∧
          z.writes = y.writes ++ (if data = none then [] else
            typeWrites ty dk dst q.lane (ofLeBytes (addrs.zipIdx.map (fun (p : Nat × Nat) => host p.2 p.1))))
      answers s (.ldhCompletion id k data) (fun t => ∃ w, t.wave id = some w ∧ otherWaves s t id ∧
        (∀ a, a ∉ addrs → tget 0 t.hostMem a = tget 0 s.hostMem a) ∧
        (∀ i a, addrs[i]? = some a → tget 0 t.hostMem a = host i a) ∧
        (more ∨ bad = [] → lands w (¬ more) ∧ { t with waves := s.waves, hostMem := s.hostMem } = s) ∧
        (¬ more → bad ≠ [] → lands w False ∧ ∃ tr, t.launch id.serial = some { l with traps := l.traps ++ [tr] } ∧ tr.code = cXLATE ∧
          tr.attr = aHOST ∧ tr.pc = q.pc.toNat ∧ (∀ i : Nat, i < 64 → (tr.lanes.getLsbD i = true ↔ dk = false ∧ ∃ b ∈ bad, b.1 = i)) ∧
          (∃ b ∈ bad, tr.value = b.2 ∧ ∀ d ∈ bad, b.1 ≤ d.1) ∧
          { t with waves := s.waves, launches := s.launches, latches := s.latches, hostMem := s.hostMem } = s)))

/-! ### Ordering (10_ordering.md) -/

/-- R196, R198, R199, R202, R208, R294, Table 10-3: `PUBL` closes the store set, its wave's stores in it, into a publication
that waits for its point in the home order, and the blocks whose stores it carries relaunch no more; `RFSH` starts a view no
earlier than the old one, than the wave's own reads of home and than the core's publications, once the wave's earlier loads and
atomics are performed and its published `REDG` have acted (R312), and holds its path until then; `PHASE` does both, and its view waits for its publication. Home memory
does not change.
The model's own choices in it: log entries 6, 79. -/
def Obligations.OrderingWords : Prop :=
  ∀ (s : State) (c : Ctx) (h : Hdr), s.issuer = some c →
    let key := c.key
    let x : StoreSet := c.w.reqs.foldl (fun x r => match r.kind with | .stg bs => StoreSet.enter x c.id.block bs | _ => x) (tget {} s.sets key)
    let rest : List Req := c.w.reqs.filter (fun r => !isStg r)
    let clear : Prop := (∀ p ∈ c.w.pend, p.kind = .dev → s.tick ≤ p.tag) ∧
      ∀ r ∈ c.w.reqs, isStable r = true ∨ atHome r = true → s.tick ≤ r.seq
    let redgs (t : State) : Prop := (∃ p ∈ t.pubs, p.key = key ∧ ∃ r ∈ p.set.redgs, r.id = c.id ∧ r.seq < s.tick) ∨
      ∃ f ∈ t.farReds, f.copy = none ∧ f.id = c.id ∧ f.seq < s.tick
    let past (w : Wave) (reqs : List Req) : Prop := w.reqs = reqs ∧ { w with reqs := c.w.reqs, barrier := c.w.barrier } = c.w.advance c.slotB
    let held (w : Wave) (reqs : List Req) : Prop := w.reqs = reqs ∧ w.slot c.slotB = some { c.sl with hold := .view, since := s.tick } ∧
      w.slot (!c.slotB) = c.w.slot (!c.slotB) ∧ { w with reqs := c.w.reqs, barrier := c.w.barrier, a := c.w.a, b := c.w.b } = c.w
    let published (t : State) : Prop :=
      otherWaves s t c.id ∧
      (∃ b, t.block c.id.serial c.id.block = some b ∧ { b with relaunchable := c.b.relaunchable } = { c.b with phase := c.b.phase + 1 }) ∧
      ((x.bytes ≠ [] ∨ x.redgs ≠ []) → (∃ p, t.pubs = s.pubs ++ [p] ∧ p.key = key ∧ p.set = x ∧ p.serial = c.id.serial ∧
        p.block = c.id.block ∧ p.engine = c.w.engine ∧ p.pc = c.sl.path.pc.toNat ∧ p.at_ = none ∧ p.claim = none ∧ tfind t.sets key = none) ∧
        ∀ n ∈ x.blocks, ∀ b, t.block c.id.serial n = some b → b.relaunchable = false) ∧
      (x.bytes = [] → x.redgs = [] → t.pubs = s.pubs) ∧ (∀ k, k ≠ key → tfind t.sets k = tfind s.sets k)
    let viewed (t : State) : Prop := ∃ v, tfind t.views key = some v ∧ v.seen = [] ∧ v.from_ = [] ∧
      v.needs = (t.pubs.filter (fun p => p.key == key)).map (fun p => p.id) ∧
      v.start = max (max (tget {} s.views key).start c.w.homePt) (tget 0 s.pubPt key) ∧
      ∀ k, k ≠ key → tfind t.views k = tfind s.views k
    let ordered (t : State) (reqs : List Req) : Prop := ∃ w, t.wave c.id = some w ∧ w.barrier = s.tick ∧
      (clear ∧ ¬ redgs t → past w reqs ∧ viewed t) ∧ (¬ (clear ∧ ¬ redgs t) → held w reqs ∧ t.views = s.views)
    (c.any h = false → passes c s (.publ h) ∧ passes c s (.rfsh h) ∧ passes c s (.phase h)) ∧
    (c.any h = true →
      answers s (.publ h) (fun t => published t ∧ (∃ w, t.wave c.id = some w ∧ w.barrier = c.w.barrier ∧ past w rest) ∧
        { t with waves := s.waves, blocks := s.blocks, pubs := s.pubs, sets := s.sets, seq := s.seq } = s) ∧
      answers s (.rfsh h) (fun t => ordered t c.w.reqs ∧ otherWaves s t c.id ∧ { t with waves := s.waves, views := s.views } = s) ∧
      answers s (.phase h) (fun t => published t ∧ ordered t rest ∧
        { t with waves := s.waves, blocks := s.blocks, pubs := s.pubs, sets := s.sets, seq := s.seq, views := s.views } = s))

/-- R208: a fence with nothing of its set outstanding is past at once and one with something holds its path until there is
nothing; a held `PHASE` or `RFSH` starts its view when the wave's earlier loads and atomics are performed, as a `CLAIM` answered READY does, which also acquires what made the entry; `SYSREL` holds its path until its publication is performed and the flushing read is back. An error of that read is
XLATE, attributed to the host, and names the address read.

R188, R194, R195, R196: PUBLICATION_PERFORM makes every byte of the publication a home value in one event of the home
order, and no other byte; views that waited for it start no earlier. A view keeps what it has read; under the determinism flag
the view of the publishing block reads a byte of the publication that it does not hold yet at no point before it. The publication
of a `FULFIL` (R357) keeps its entry's place until FULFIL_READY, its bytes gone. Under the flag each staged `REDG` of the set then
acts at its home, in its order, one event of the home order each (R312). (The units
of the bytes hold no error, no page is moving, and no byte is another device's.) A byte in a
frame that has been locked since is not written (R61, R244): a store of one makes its launch trap PROT at the publishing word.
The model's own choices in it: log entries 6, 18, 23, 79, 80. -/
def Obligations.FencesAndPublications : Prop :=
  (
    ∀ (s : State) (c : Ctx) (h : Hdr) (system : Bool), s.ctxAt c.id c.slotB = some c →
      let set (system : Bool) (seq : Nat) : Prop :=
        (∃ r ∈ c.w.reqs, r.seq < seq ∧ ((∃ a ty dk d, r.kind = .ldh a ty dk d) → system = true)) ∨
        (∃ p ∈ c.w.pend, p.tag < seq ∧ (p.kind = .dev ∨ p.kind = .die ∨ (p.kind = .host ∧ system = true))) ∨
        (∃ o ∈ c.w.spq, o.seq < seq ∧ ((∃ ty dk d a, o.kind = .load true ty dk d a) ∨ ∃ a, o.kind = .store true a)) ∨
        (∃ p ∈ s.pubs, p.key = c.key ∧ ∃ r ∈ p.set.redgs, r.id = c.id ∧ r.seq < seq) ∨
        (∃ f ∈ s.farReds, f.copy = none ∧ f.id = c.id ∧ f.seq < seq)
      let onward (i : Instr) : Prop := exec i s = .next (s.setWave c.id (c.w.advance c.slotB))
      (s.cur = (c.id, c.slotB) → c.any h = false → passes c s (.fence system h) ∧ passes c s (.sysrel h)) ∧
      (s.cur = (c.id, c.slotB) → c.any h = true → ¬ set system s.tick → passes c s (.fence system h)) ∧
      (s.cur = (c.id, c.slotB) → c.any h = true → set system s.tick → exec (.fence system h) s =
        .next (s.setWave c.id (c.w.setSlot c.slotB (some { c.sl with hold := .fence system s.tick })))) ∧
      (s.cur = (c.id, c.slotB) → c.any h = true → answers s (.sysrel h) (fun t => ∃ w pub, t.wave c.id = some w ∧
        w.slot c.slotB = some { c.sl with hold := .sysrel pub } ∧ w.slot (!c.slotB) = c.w.slot (!c.slotB) ∧
        { w with a := c.w.a, b := c.w.b, reqs := c.w.reqs } = c.w ∧ (∀ r ∈ w.reqs, isStg r = false) ∧
        (pub = none → ∀ p ∈ t.pubs, p.key ≠ c.key) ∧ (∀ n, pub = some n → ∃ p ∈ t.pubs, p.key = c.key ∧ p.id = n) ∧
        otherWaves s t c.id ∧ { t with waves := s.waves, blocks := s.blocks, pubs := s.pubs, sets := s.sets, seq := s.seq } = s)) ∧
      (c.b.place = .resident →
        (∀ sys seq, c.sl.hold = .fence sys seq →
          (¬ set sys seq → onward (.fenceComplete c.id c.slotB)) ∧ (set sys seq → idles s (.fenceComplete c.id c.slotB))) ∧
        (c.sl.hold = .view →
          (c.clear s c.sl.since = true → answers s (.fenceComplete c.id c.slotB) (fun t =>
            (∃ v, tfind t.views c.key = some v ∧ v.seen = [] ∧ v.needs = (s.pubs.filter (fun p => p.key == c.key)).map (fun p => p.id) ∧
              v.start = max (max (tget {} s.views c.key).start c.w.homePt) (tget 0 s.pubPt c.key)) ∧
            t.wave c.id = some (c.w.advance c.slotB) ∧ otherWaves s t c.id ∧ { t with waves := s.waves, views := s.views } = s)) ∧
          (c.clear s c.sl.since = false → idles s (.fenceComplete c.id c.slotB))) ∧
        (∀ acq clk, c.sl.hold = .ready acq clk →
          (c.clear s c.sl.since = true → answers s (.fenceComplete c.id c.slotB) (fun t =>
            (∃ v, tfind t.views c.key = some v ∧ v.seen = [] ∧ acq ≤ v.start ∧ c.w.homePt ≤ v.start) ∧
            (∃ b, t.block c.id.serial c.id.block = some b ∧ b.phase = c.b.phase + 1 ∧ b.clock = joinClock c.b.clock clk) ∧
            t.wave c.id = some (c.w.advance c.slotB) ∧ otherWaves s t c.id ∧ { t with waves := s.waves, views := s.views, blocks := s.blocks } = s)) ∧
          (c.clear s c.sl.since = false → idles s (.fenceComplete c.id c.slotB))) ∧
        (∀ pub, c.sl.hold = .sysrel pub →
          (waitPub s pub = true → onward (.sysrelComplete c.id c.slotB true) ∧
            answers s (.sysrelComplete c.id c.slotB false) (fun t => c.trapped s t cXLATE aHOST 0 0 (flushBase (s.part c.l.offer.part)))) ∧
          (waitPub s pub = false → ∀ ok, idles s (.sysrelComplete c.id c.slotB ok))))) ∧
  (
    ∀ (s : State) (p : Pub), s.pubs.find? (fun q => q.id == p.id) = some p → p.at_ = none → pubFirst s p = true →
      s.migrations = [] → (∀ a d, redir s a = redir s d → a = d) →
      answers s (.publicationPerform p.id) (fun t => (∀ a, lockedAt s a = true → memByte t a = memByte s a) ∧
        ∀ b ∈ p.set.bytes, b.1 < 2 ^ 64 → b.2.copy = none → lockedAt s b.1 = true → ∀ l, s.launch p.serial = some l →
          ∃ y tr, t.launch p.serial = some y ∧ tr ∈ y.traps ∧ tr.code = cPROT ∧ tr.attr = aCALLER ∧ tr.pc = p.pc ∧ tr.core = p.core) ∧
      ((∀ b ∈ p.set.bytes, badUnit s b.1 = false ∧ lockedAt s b.1 = false ∧ b.1 < 2 ^ 64) →
        (∀ r ∈ p.set.redgs, r.far = none ∧ ∀ a ∈ r.locs, badUnit s a = false ∧ lockedAt s a = false) →
      let only (b : Nat × SByte) : Prop := ∀ d ∈ p.set.bytes, d.1 = b.1 → d = b
      answers s (.publicationPerform p.id) (fun t =>
        t.hpt = s.hpt + 1 + p.set.redgs.length ∧
        (∀ a, homeAt t s.hpt a = memByte s a) ∧ (∀ a, homeAt t t.hpt a = memByte t a) ∧
        (∀ a, (∀ b ∈ p.set.bytes, b.1 ≠ a) → homeAt t (s.hpt + 1) a = memByte s a) ∧
        (∀ b ∈ p.set.bytes, only b → homeAt t (s.hpt + 1) b.1 = b.2.val) ∧
        (∀ (i : Nat) (r : Redg), p.set.redgs[i]? = some r →
          let was (a : Nat) : Byte := homeAt t (s.hpt + 1 + i) a
          let is_ (a : Nat) : Byte := homeAt t (s.hpt + 2 + i) a
          let new_ := atomNew r.op r.ty (ofLeBytes (r.locs.map was)) r.b 0
          (new_ = none → ∀ a, is_ a = was a) ∧
          ∀ v, new_ = some v → (∀ a, a ∉ r.locs → is_ a = was a) ∧
            (r.locs.Nodup → r.locs.length = r.ty.size → r.locs.map is_ = leBytes v r.ty.size)) ∧
        (p.claim = none → ∀ q, q ∈ t.pubs ↔ q ∈ s.pubs ∧ q.id ≠ p.id) ∧
        (∀ y, p.claim = some y → t.pubs = s.pubs.map (fun q => if q.id = p.id then { q with at_ := some t.hpt, key := 0, set := {} } else q)) ∧
        tget 0 t.pubPt p.key = t.hpt ∧
        (∀ k v, tfind s.views k = some v → ∃ v', tfind t.views k = some v' ∧ (∀ n, n ∈ v'.needs ↔ n ∈ v.needs ∧ n ≠ p.id) ∧
          v.start ≤ v'.start ∧ (p.id ∈ v.needs → t.hpt ≤ v'.start) ∧ v'.seen = v.seen ∧
          (k ≠ p.key ∨ p.key % 2 = 0 → v'.from_ = v.from_) ∧
          (k = p.key → p.key % 2 = 1 → ∀ b ∈ p.set.bytes, tfind v.seen b.1 = none → s.hpt + 1 ≤ v'.reads [b.1])) ∧
        (∀ id w, s.wave id = some w → ∃ n, t.wave id = some { w with homePt := n } ∧ w.homePt ≤ n ∧
          ((∀ r ∈ p.set.redgs, r.id ≠ id) → n = w.homePt) ∧ ((∃ r ∈ p.set.redgs, r.id = id) → s.hpt + 2 ≤ n)) ∧
        t.blocks = s.blocks ∧ t.launches = s.launches ∧ t.hostMem = s.hostMem ∧ t.sets = s.sets)))

/-! ### Rendezvous points, timelines and waits (11_rendezvous.md) -/

/-- R209 to R211, R216 to R218: `RVINIT` gives the point its count, arrivals of the open phase still counted; `RVEXP` awaits bytes,
and traps LIMIT on more than 2^39 - 1; the phase completes when ARR and PEND are both zero: PH flips and ARR is EXP again, and a
point whose ERR is set completes every phase as it opens.
`RVTEST` reads PEND, ARR, ERR and PH; a block that lacks the team traps RESERVED. No other point of the team changes.
The model's own choices in it: log entry 75. -/
def Obligations.PointWords : Prop :=
  ∀ (s : State) (c : Ctx) (h : Hdr) (pt : BitVec 8) (n : BitVec 16) (x : BitVec 6), s.issuer = some c →
    (c.any h = false → passes c s (.rvinit h pt n) ∧ passes c s (.rvexp h pt x) ∧ passes c s (.rvtest h pt x)) ∧
    (c.any h = true → pointOf c.l c.id pt = none → ∀ i, i = .rvinit h pt n ∨ i = .rvexp h pt x ∨ i = .rvtest h pt x →
      answers s i (fun t => c.trapped s t cRESERVED aCALLER 0 0 0)) ∧
    (c.any h = true → ∀ p, pointOf c.l c.id pt = some p →
      let o := getPoint s p
      let leaves (i : Instr) (arr exp : BitVec 16) (pend : Int) : Prop := answers s i (fun t =>
        let q := getPoint t p
        q.err = o.err ∧ q.exp = exp ∧
        (o.err = 0 ∧ arr = 0 ∧ pend = 0 → q.ph = !o.ph ∧ q.arr = exp ∧ q.pend = 0 ∧ q.relDone = o.rel ∧ q.rel = 0) ∧
        (o.err = 0 → ¬ (arr = 0 ∧ pend = 0) → q.ph = o.ph ∧ q.arr = arr ∧ q.pend = pend ∧ q.relDone = o.relDone ∧ q.rel = o.rel) ∧
        (o.err ≠ 0 → q.ph = o.ph ∧ q.arr = exp ∧ q.pend = 0 ∧ q.relDone = o.relDone ∧ q.rel = o.rel) ∧
        (∀ r, r.serial = p.serial → r.block = p.block → r.n < 32 → p.n < 32 → r ≠ p → getPoint t r = getPoint s r) ∧
        t.wave c.id = some (c.w.advance c.slotB) ∧ otherWaves s t c.id ∧
        { t with waves := s.waves, blocks := s.blocks, launches := s.launches } = s)
      let add : Nat := (c.w.readS x.toNat).toNat
      leaves (.rvinit h pt n) (BitVec.ofNat 16 (n.toNat - (o.exp.toNat - o.arr.toNat))) n o.pend ∧
      (add < 2 ^ 39 → o.pend + add < 2 ^ 39 → leaves (.rvexp h pt x) o.arr o.exp (o.pend + add)) ∧
      (2 ^ 39 ≤ add ∨ (2 : Int) ^ 39 ≤ o.pend + add → answers s (.rvexp h pt x) (fun t =>
        c.trapped s t cLIMIT aCALLER kBYTES 0 (BitVec.ofNat 64 (2 ^ 39 - 1)))) ∧
      latersWave c s (.rvtest h pt x) [.s x.toNat] (fun w => c.scalOnly w x.toNat true
        (BitVec.ofNat 64 ((o.pend % (2 : Int) ^ 40).toNat * 2 ^ 24 + o.arr.toNat * 2 ^ 8 + o.err * 2 + o.ph.toNat))))

/-- R206, R213, R216, R218: an arrival is on its way once `RVARR` issues, DST held; ARRIVAL_AT_POINT counts it at the point: at
once when it is relaxed, otherwise when the wave's stores and published `REDG` are performed, its publication, where the scope is wider than the block, is made and has its point, and at
scope `.SYSTEM` the flushing read is back, whose error is XLATE, attributed to the host. Its DST is the phase it arrived in.
More arrivals than the point awaits are LIMIT ARRIVE.
The model's own choices in it: log entries 2, 23, 79. -/
def Obligations.Arrivals : Prop :=
  ∀ (s : State) (c : Ctx) (h : Hdr) (pt : BitVec 8) (d : BitVec 6) (rlx : Bool) (sc : Scope) (n : BitVec 8) (k : Nat) (a : Arr) (ok : Bool),
    (s.issuer = some c → c.any h = false → passes c s (.rvarr h pt d rlx sc n)) ∧
    (s.issuer = some c → c.any h = true → ∀ p, pointOf c.l c.id pt = some p →
      leavesWave c s (.rvarr h pt d rlx sc n) (fun w => { w with arrs := c.w.arrs, pend := c.w.pend } = c.w.advance c.slotB ∧
        w.pend = c.w.pend ++ [{ tag := s.tick, kind := .other, dst := [.s d.toNat], writes := [], ready := false }] ∧
        ∃ a, w.arrs = c.w.arrs ++ [a] ∧ a.p = p ∧ a.n = n.toNat ∧ a.tag = s.tick ∧ a.seq = s.tick ∧ a.rlx = rlx ∧ a.scope = sc ∧
          a.dst = d.toNat ∧ a.pc = c.sl.path.pc ∧ a.published = false)) ∧
    (s.issuer = some c → c.any h = true → pointOf c.l c.id pt = none →
      answers s (.rvarr h pt d rlx sc n) (fun t => c.trapped s t cRESERVED aCALLER 0 0 0)) ∧
    (s.ctxAt c.id c.slotB = some c → c.w.arrs[k]? = some a → a.p.serial = c.id.serial → a.p.block = c.id.block →
      let acted : Bool := !redgWaits s c.id c.key a.seq
      let done : Prop := a.published = true ∧ waitPub s a.pub = true ∧ acted = true
      (a.rlx = true ∨ (a.published = false ∧ a.scope = .block ∧ relClear c.w a.seq = true ∧ acted = true) ∨ (done ∧ (a.scope = .system → ok = true)) →
        let o := getPoint s a.p
        (a.n ≤ o.arr.toNat → a.n < 2 ^ 16 → answers s (.arrivalAtPoint c.id ⟨k, ok⟩) (fun t =>
          let q := getPoint t a.p
          let full : Prop := o.arr.toNat = a.n ∧ o.pend = 0
          (o.err = 0 → full → q.ph = !o.ph ∧ q.arr = o.exp ∧ q.pend = 0) ∧
          (o.err = 0 → ¬ full → q.ph = o.ph ∧ q.arr.toNat = o.arr.toNat - a.n ∧ q.pend = o.pend) ∧
          (o.err ≠ 0 → q.ph = o.ph ∧ q.arr = o.exp ∧ q.pend = 0) ∧ q.exp = o.exp ∧ q.err = o.err ∧
          (∃ w, t.wave c.id = some w ∧ { w with arrs := c.w.arrs, pend := c.w.pend, watch := c.w.watch } = c.w ∧
            w.arrs = c.w.arrs.eraseIdx k ∧ tget false w.watch a.watchIx = o.ph ∧
            w.pend = c.w.pend.map (fun p => if p.tag = a.tag then
              { p with writes := p.writes ++ [.s a.dst (if o.ph = true then 1 else 0)], ready := true } else p)) ∧
          otherWaves s t c.id ∧ { t with waves := s.waves, blocks := s.blocks, launches := s.launches } = s)) ∧
        (o.arr.toNat < a.n → answers s (.arrivalAtPoint c.id ⟨k, ok⟩) (fun t => ∃ tr,
          t.launch c.id.serial = some { c.l with traps := c.l.traps ++ [tr] } ∧
          t.wave c.id = some { c.w with arrs := c.w.arrs.eraseIdx k } ∧ getPoint t a.p = o ∧
          tr.code = cLIMIT ∧ tr.construct = kARRIVE ∧ tr.pc = a.pc.toNat ∧ tr.value = BitVec.ofNat 64 o.exp.toNat))) ∧
      (a.rlx = false → done → a.scope = .system → ok = false → answers s (.arrivalAtPoint c.id ⟨k, ok⟩) (fun t => ∃ tr,
        t.launch c.id.serial = some { c.l with traps := c.l.traps ++ [tr] } ∧
        t.wave c.id = some { c.w with arrs := c.w.arrs.eraseIdx k } ∧ tr.code = cXLATE ∧ tr.attr = aHOST ∧ tr.pc = a.pc.toNat ∧
        tr.value = flushBase (s.part c.l.offer.part))) ∧
      (a.rlx = false → a.published = false → relClear c.w a.seq = false ∨ (a.scope = .block ∧ acted = false) → idles s (.arrivalAtPoint c.id ⟨k, ok⟩)) ∧
      (a.rlx = false → a.published = true → waitPub s a.pub = false ∨ acted = false → idles s (.arrivalAtPoint c.id ⟨k, ok⟩)) ∧
      (a.rlx = false → a.published = false → a.scope ≠ .block → relClear c.w a.seq = true →
        let x := tget {} s.sets c.key
        x.bytes ≠ [] → (∀ p ∈ s.pubs, p.id ≠ s.seq) → answers s (.arrivalAtPoint c.id ⟨k, ok⟩) (fun t => ∃ p a', t.pubs = s.pubs ++ [p] ∧ p.key = c.key ∧ p.set = x ∧
          p.block = c.id.block ∧ p.pc = a.pc.toNat ∧ tfind t.sets c.key = none ∧
          a'.published = true ∧ a'.pub = some p.id ∧ { a' with published := a.published, pub := a.pub, clock := a.clock } = a ∧
          t.wave c.id = some { c.w with arrs := c.w.arrs.set k a' } ∧ otherWaves s t c.id ∧
          { t with waves := s.waves, blocks := s.blocks, pubs := s.pubs, sets := s.sets, seq := s.seq } = s)))

/-- R88, R202, R208, R211, R215, R216, R218, R219, R303: `RVWAIT` and `YIELDC` end when the awaited phase is over, the wait's view
starting no earlier than what the phase released, and hold their path until then, within their limit; an acquiring wait whose
wave has earlier loads or atomics under way is held until they are performed. A wait sees the point as it stood when its phase
completed. A point's ERR makes them trap with the code and attribution of Table 11-2.
The model's own choices in it: log entries 17, 18, 68, 75. -/
def Obligations.PointWaits : Prop :=
  ∀ (s : State) (c : Ctx) (h : Hdr) (pt : BitVec 8) (rlx : Bool) (x : BitVec 6) (lim : Lim 31) (tgt : BitVec 24) (lim' : Lim 15)
      (p : PointRef) (par : Bool) (cont : BitVec 32), s.ctxAt c.id c.slotB = some c →
    let o := getPoint s p
    let q : Point := c.sl.seen.getD o
    let synced (t : State) (o : Point) : Prop :=
      (∃ v, tfind t.views c.key = some v ∧ v.seen = [] ∧ o.relDone ≤ v.start ∧ c.w.homePt ≤ v.start) ∧
      (∃ b, t.block c.id.serial c.id.block = some b ∧ b.phase = c.b.phase + 1 ∧ { b with phase := c.b.phase, clock := c.b.clock } = c.b) ∧
      otherWaves s t c.id ∧ { t with waves := s.waves, views := s.views, blocks := s.blocks } = s
    let ends (i : Instr) (rlx bar : Bool) (o : Point) : Prop := answers s i (fun t => t.wave c.id = some ((c.barred s bar).advance c.slotB) ∧
      (rlx = true → t = s.setWave c.id (c.w.advance c.slotB)) ∧ (rlx = false → synced t o))
    let resumes (i : Instr) (goal : BitVec 32) (bar : Bool) (o : Point) : Prop := answers s i (fun t => synced t o ∧ ∃ w, t.wave c.id = some w ∧
      w.slot c.slotB = some (c.sl.to goal) ∧ w.slot (!c.slotB) = c.w.slot (!c.slotB) ∧ tget false w.watch (watchIx p) = o.ph ∧
      { w with a := c.w.a, b := c.w.b, watch := c.w.watch } = c.barred s bar)
    let fails (i : Instr) (lanes : Mask) (o : Point) : Prop := answers s i (fun t => ∃ w l tr, t.wave c.id = some w ∧ t.launch c.id.serial = some l ∧
      w.slot c.slotB = some { c.sl with hold := .trapped } ∧ l.traps = c.l.traps ++ [tr] ∧ (getPoint t p).raised = true ∧ tr.lanes = lanes ∧
      (tr.code, tr.construct, tr.attr) = errTrap o.err ∧ tr.pc = c.sl.path.pc.toNat ∧ tr.engine = (o.src.getD (0, 0, 0)).1 ∧
      tr.value = BitVec.ofNat 64 (o.src.getD (0, 0, 0)).2.2)
    let watched : Bool := tget false c.w.watch (watchIx p)
    let arriving : Prop := ∃ a ∈ c.w.arrs, a.watchIx = watchIx p
    let clear (seq : Nat) (rlx : Bool) : Prop := rlx = true ∨ c.clear s seq = true
    (s.cur = (c.id, c.slotB) → c.any h = true → pointOf c.l c.id pt = some p → par = (c.w.readS x.toNat).getLsbD 0 →
      (o.err = 0 → o.ph ≠ par → clear s.tick rlx → ends (.rvwait h pt rlx x lim) rlx (!rlx) o) ∧
      (o.err = 0 → o.ph ≠ par → ¬ clear s.tick rlx → answers s (.rvwait h pt rlx x lim) (fun t =>
        c.waits s t (.rvwait p par rlx) (limVal c.l lim) true (some true) (some o))) ∧
      (o.err ≠ 0 → fails (.rvwait h pt rlx x lim) 0 o) ∧
      (o.err = 0 → o.ph = par → answers s (.rvwait h pt rlx x lim) (fun t =>
        c.waits s t (.rvwait p par rlx) (limVal c.l lim) (!rlx) none none))) ∧
    (s.cur = (c.id, c.slotB) → c.any h = false → passes c s (.rvwait h pt rlx x lim)) ∧
    (s.cur = (c.id, c.slotB) → c.any h = true → pointOf c.l c.id pt = none →
      answers s (.rvwait h pt rlx x lim) (fun t => c.trapped s t cRESERVED aCALLER 0 0 0)) ∧
    (s.cur = (c.id, c.slotB) → pointOf c.l c.id pt = none →
      answers s (.yieldc pt tgt lim') (fun t => c.trapped s t cRESERVED aCALLER 0 c.sl.path.mask 0)) ∧
    (s.cur = (c.id, c.slotB) → pointOf c.l c.id pt = some p →
      let goal := c.sl.path.pc + (tgt.signExtend 32 <<< 3)
      (o.err = 0 → ¬ arriving → o.ph ≠ watched → clear s.tick false → resumes (.yieldc pt tgt lim') goal true o) ∧
      (o.err = 0 → ¬ arriving → o.ph ≠ watched → ¬ clear s.tick false → answers s (.yieldc pt tgt lim') (fun t =>
        c.waits s t (.yieldc p goal) (limVal c.l lim') true (some true) (some o))) ∧
      (o.err ≠ 0 → fails (.yieldc pt tgt lim') c.sl.path.mask o) ∧
      (o.err = 0 → arriving ∨ o.ph = watched → answers s (.yieldc pt tgt lim') (fun t =>
        c.waits s t (.yieldc p goal) (limVal c.l lim') true none none))) ∧
    (c.b.place = .resident → p.serial = c.id.serial → p.block = c.id.block → c.timely s →
      (c.sl.hold = .rvwait p par rlx →
        (q.err = 0 → q.ph ≠ par → clear c.sl.since rlx → ends (.rvwaitComplete c.id c.slotB) rlx false q) ∧
        (q.err ≠ 0 → fails (.rvwaitComplete c.id c.slotB) 0 q) ∧
        (q.err = 0 → q.ph = par ∨ ¬ clear c.sl.since rlx → idles s (.rvwaitComplete c.id c.slotB))) ∧
      (c.sl.hold = .yieldc p cont →
        let ended : Prop := c.sl.seen ≠ none ∨ (¬ arriving ∧ q.ph ≠ watched)
        (q.err = 0 → ended → clear c.sl.since false → resumes (.yieldcResume c.id c.slotB) cont false q) ∧
        (q.err ≠ 0 → fails (.yieldcResume c.id c.slotB) c.sl.path.mask q) ∧
        (q.err = 0 → ¬ ended ∨ ¬ clear c.sl.since false → idles s (.yieldcResume c.id c.slotB))))

/-- R202, R208, R220, R221, R303: `TLREAD` reads a timeline; `TLWAIT` is over when the timeline has reached its number, and takes
the trap of the launch's failed operation where one is at or below it; a handle that the launch does not hold is PROT. A wait
that outlasts its limit, what it waits for not come about in time, is LIMIT WAIT.
The model's own choices in it: log entries 17, 18, 68. -/
def Obligations.TimelineWaitsAndLimits : Prop :=
  ∀ (s : State) (c : Ctx) (h : Hdr) (num hdl d : BitVec 6) (rlx : Bool) (lim : Lim 31) (sweep : Bool) (ctx n : Nat),
      s.ctxAt c.id c.slotB = some c →
    let now : Nat := timelineOf s sweep ctx
    let mine : List FailRec := (failsOf s sweep ctx).filter (fun r => r.serial == c.id.serial && r.num ≤ n)
    let clear (seq : Nat) : Prop := rlx = true ∨ c.clear s seq = true
    let ends (i : Instr) (bar : Bool) : Prop := answers s i (fun t => t.wave c.id = some ((c.barred s bar).advance c.slotB) ∧
      (rlx = true → t = s.setWave c.id (c.w.advance c.slotB)) ∧
      (rlx = false → (∃ v, tfind t.views c.key = some v ∧ v.seen = [] ∧ relPtOf s sweep ctx ≤ v.start ∧ c.w.homePt ≤ v.start) ∧
        otherWaves s t c.id ∧ { t with waves := s.waves, views := s.views, blocks := s.blocks } = s))
    let fails (i : Instr) : Prop := ∀ r, mine.head? = some r → answers s i (fun t => ∃ w l tr, t.wave c.id = some w ∧
      t.launch c.id.serial = some l ∧ w.slot c.slotB = some { c.sl with hold := .trapped } ∧ l.traps = c.l.traps ++ [tr] ∧
      (tr.code, tr.construct, tr.attr) = errTrap r.code ∧ tr.engine = ctxEngine sweep ctx ∧ tr.value = BitVec.ofNat 64 r.value ∧
      ∀ q ∈ failsOf t sweep ctx, q.serial = c.id.serial → q.num ≤ n → q.observed = true)
    (s.cur = (c.id, c.slotB) → c.any h = true →
      (handleIn c.l (c.w.readS hdl.toNat) = none → answers s (.tlread h d hdl) (fun t => c.trapped s t cPROT aCALLER 0 0 (c.w.readS hdl.toNat)) ∧
        answers s (.tlwait h num rlx hdl lim) (fun t => c.trapped s t cPROT aCALLER 0 0 (c.w.readS hdl.toNat))) ∧
      (handleIn c.l (c.w.readS hdl.toNat) = some (sweep, ctx) → n = (c.w.readS num.toNat).toNat →
        latersWave c s (.tlread h d hdl) [.s d.toNat] (fun w => c.scalOnly w d.toNat true (BitVec.ofNat 64 now)) ∧
        (n ≤ now → mine = [] → clear s.tick → ends (.tlwait h num rlx hdl lim) (!rlx)) ∧
        (n ≤ now → mine = [] → ¬ clear s.tick → answers s (.tlwait h num rlx hdl lim) (fun t =>
          c.waits s t (.tlwait sweep ctx n rlx) (limVal c.l lim) true (some true) none)) ∧
        (n ≤ now → fails (.tlwait h num rlx hdl lim)) ∧
        (now < n → answers s (.tlwait h num rlx hdl lim) (fun t =>
          c.waits s t (.tlwait sweep ctx n rlx) (limVal c.l lim) (!rlx) none none)))) ∧
    (s.cur = (c.id, c.slotB) → c.any h = false → passes c s (.tlread h d hdl) ∧ passes c s (.tlwait h num rlx hdl lim)) ∧
    (c.b.place = .resident → c.sl.hold = .tlwait sweep ctx n rlx → c.timely s →
      (n ≤ now → mine = [] → clear c.sl.since → ends (.tlwaitComplete c.id c.slotB) false) ∧ (n ≤ now → fails (.tlwaitComplete c.id c.slotB)) ∧
      (now < n ∨ (mine = [] ∧ ¬ clear c.sl.since) → idles s (.tlwaitComplete c.id c.slotB))) ∧
    (c.b.place = .resident →
      let i : Instr := .waitLimitExpiry c.id (if c.slotB = true then .slotB else .slotA)
      let late : Prop := c.sl.limit < c.w.cyc c.b.core s.tick - c.sl.start
      let expires (lanes : Mask) : Prop :=
        (late → c.sl.met ≠ some true → answers s i (fun t =>
          c.trapped s t cLIMIT (waitAttr c.l c.sl.since) kWAIT lanes (BitVec.ofNat 64 c.sl.limit))) ∧
        (¬ late → idles s i)
      ((∃ p b r, c.sl.hold = .rvwait p b r) ∨ (∃ b a m r, c.sl.hold = .tlwait b a m r) ∨ (∃ a b, c.sl.hold = .clwait a b) → expires 0) ∧
      (∀ p b, c.sl.hold = .yieldc p b → expires c.sl.path.mask))

/-! ### Register blocks (07_registers.md) and claims (22_claims.md) -/

/-- R141 to R143, R303: `RCEDE` moves the top blocks of the allotment to the pool of the wave's slot once no result is due in
them; `RTAKE` waits its turn until the pool holds enough, within its limit, and the blocks it takes read zero.
The model's own choices in it: log entry 18. -/
def Obligations.RegisterBlocks : Prop :=
  ∀ (s : State) (c : Ctx) (h : Hdr) (n : BitVec 8) (lim : Lim 31) (m : Nat), s.ctxAt c.id c.slotB = some c →
    let k : Nat := c.id.wave % 4
    let pool : Nat := tget 0 c.b.pools k
    let queue : List (Nat × Bool) := tget [] c.b.takers k
    let busy (n : Nat) : Prop := ∃ p ∈ c.w.pend, ∃ i, .v i ∈ p.dst ∧ 16 * (c.w.allot - n) ≤ i ∧ i < 16 * c.w.allot
    let moves (i : Instr) (P : Wave → Prop) (pool' : Nat) (queue' : List (Nat × Bool)) : Prop := answers s i (fun t =>
      ∃ w b, t.wave c.id = some w ∧ P w ∧ t.block c.id.serial c.id.block = some b ∧
        { b with pools := c.b.pools, takers := c.b.takers } = c.b ∧ tget [] b.takers k = queue' ∧
        (∀ j, tget 0 b.pools j = if j = k then pool' else tget 0 c.b.pools j) ∧
        otherWaves s t c.id ∧ { t with waves := s.waves, blocks := s.blocks } = s)
    let gives (n : Nat) (w : Wave) : Prop := w = { c.w with allot := c.w.allot - n }.advance c.slotB
    let takes (n : Nat) (w : Wave) : Prop := { w with v := c.w.v } = { c.w with allot := c.w.allot + n }.advance c.slotB ∧
      ∀ r l, l < 64 → w.readV r l = if 16 * c.w.allot ≤ r ∧ r < 16 * (c.w.allot + n) then 0 else c.w.readV r l
    (s.cur = (c.id, c.slotB) →
      (¬ busy n.toNat → moves (.rcede h n) (gives n.toNat) (pool + n.toNat) queue) ∧
      (busy n.toNat → exec (.rcede h n) s = .next (s.setWave c.id (c.w.setSlot c.slotB (some { c.sl with hold := .rcede n.toNat })))) ∧
      (queue = [] → n.toNat ≤ pool → moves (.rtake h n lim) (takes n.toNat) (pool - n.toNat) []) ∧
      ((queue ≠ [] ∧ queue.head? ≠ some (c.id.wave, c.slotB)) ∨ pool < n.toNat →
        moves (.rtake h n lim) (fun w => w = c.w.setSlot c.slotB (some { c.sl with
          hold := .rtake n.toNat, start := c.w.cyc c.b.core s.tick, limit := limVal c.l lim, since := s.tick, met := none, seen := none }))
          pool (queue ++ [(c.id.wave, c.slotB)]))) ∧
    (c.b.place = .resident →
      (c.sl.hold = .rcede m → ¬ busy m → moves (.rcedeComplete c.id c.slotB) (gives m) (pool + m) queue) ∧
      (c.sl.hold = .rtake m → queue.head? = some (c.id.wave, c.slotB) → m ≤ pool → c.timely s →
        moves (.rtakeComplete c.id c.slotB) (takes m) (pool - m) (queue.filter (fun x => x != (c.id.wave, c.slotB)))) ∧
      (c.sl.hold = .rcede m → busy m → idles s (.rcedeComplete c.id c.slotB)) ∧
      (c.sl.hold = .rtake m → queue.head? ≠ some (c.id.wave, c.slotB) ∨ pool < m ∨ ¬ c.timely s → idles s (.rtakeComplete c.id c.slotB)) ∧
      (c.sl.hold = .rtake m → c.sl.limit < c.w.cyc c.b.core s.tick - c.sl.start → c.sl.met ≠ some true →
        answers s (.waitLimitExpiry c.id (if c.slotB = true then .slotB else .slotA)) (fun t => ∃ tr b,
          t.launch c.id.serial = some { c.l with traps := c.l.traps ++ [tr] } ∧ tr.code = cLIMIT ∧ tr.construct = kWAIT ∧
          tr.value = BitVec.ofNat 64 c.sl.limit ∧ t.block c.id.serial c.id.block = some b ∧
          (c.id.wave, c.slotB) ∉ tget [] b.takers k ∧ ∀ j, tget 0 b.pools j = tget 0 c.b.pools j)))

/-- R145, R239, R363: `SPILL` saves the lanes of EFF in the wave's spill area and `FILL` brings them back, its result waiting; no
other place of the area changes. Each lane counts 64 bytes of HBM. One that meets a unit of the area with an uncorrectable
error is UNCORR, attributed to the machine.
The model's own choices in it: log entries 19, 77. -/
def Obligations.SpillAndFill : Prop :=
  ∀ (s : State) (c : Ctx) (h : Hdr) (wide : Bool) (r : BitVec 8) (k : BitVec 12), s.issuer = some c →
    let dst : List Reg := if wide = true then [.v r.toNat, .v (r.toNat + 1)] else [.v r.toNat]
    let offsets : List Nat := (List.range (if wide = true then 2 else 1)).flatMap (fun i =>
      (c.lanes h).map (fun l => 4 * c.w.width * (k.toNat + i) + 4 * l))
    let counted (t : State) : Prop := (∃ l, t.launch c.id.serial = some l ∧ { l with ebytes := c.l.ebytes } = c.l ∧
        tget 0 l.ebytes 1 = tget 0 c.l.ebytes 1 + 64 * (c.lanes h).length) ∧
      otherWaves s t c.id ∧ { t with waves := s.waves, launches := s.launches } = s
    ((∀ a ∈ offsets, spillUnit c.id a ∉ s.bad) →
      answers s (.spill h wide r k) (fun t => counted t ∧ ∃ w, t.wave c.id = some w ∧
        { w with spill := c.w.spill } = c.w.advance c.slotB ∧
        ∀ j l, l < 64 → tget 0 w.spill (64 * j + l) =
          if l ∈ c.lanes h ∧ j = k.toNat then c.w.readV r.toNat l
          else if l ∈ c.lanes h ∧ wide = true ∧ j = k.toNat + 1 then c.w.readV (r.toNat + 1) l
          else tget 0 c.w.spill (64 * j + l)) ∧
      answers s (.fill h wide r k) (fun t => counted t ∧ ∃ ws,
        (c.lanes h = [] → t.wave c.id = some (c.w.advance c.slotB)) ∧
        (c.lanes h ≠ [] → t.wave c.id = some ((addPend c.w
          { tag := s.tick, kind := .other, dst := dst, writes := ws, ready := true }).advance c.slotB)) ∧
        c.vecOnly ((c.w.applyWrites ws).advance c.slotB) r.toNat wide (c.lanes h) (fun l =>
          tget 0 c.w.spill (64 * (k.toNat + 1) + l) ++ tget 0 c.w.spill (64 * k.toNat + l)))) ∧
    (∀ a, offsets.find? (fun a => s.bad.contains (spillUnit c.id a)) = some a →
      ∀ i, i = .spill h wide r k ∨ i = .fill h wide r k →
        answers s i (fun t => c.trapped s t cUNCORR aMACHINE 0 0 (BitVec.ofNat 64 a)))

/-- R345, R347, R349, R351 to R354: `CLAIM` pins a READY entry of its name and acquires what made it, its path held where the view must wait (R208), joins the queue of a
MAKING one, or makes an entry and its duty to fulfil, in a free way or in the way of the clock hand where that is READY,
unpinned and not lately used; where none of these can be it answers zero.
The model's own choices in it: log entry 79. -/
def Obligations.ClaimWord : Prop :=
  ∀ (s : State) (c : Ctx) (h : Hdr) (d n : BitVec 6), s.issuer = some c →
    let a := c.w.readS n.toNat
    let b := c.w.readS (n.toNat + 1)
    let set := claimSet a b
    let found := claimMatch s c.l.offer.part a b set
    let free := (setEntries set).find? (fun e => (s.claim e).st == .free)
    let answered (t : State) (bar : Bool) (x y : BitVec 64) : Prop := t.wave c.id = some ((addPend (c.barred s bar)
        { tag := s.tick, kind := .other, dst := [.s d.toNat, .s (d.toNat + 1)],
          writes := [.s d.toNat x, .s (d.toNat + 1) y], ready := true }).advance c.slotB) ∧ otherWaves s t c.id
    let only (t : State) (e : Nat) (k : Claim) : Prop := t.claim e = k ∧ ∀ j, j ≠ e → t.claim j = s.claim j
    let zero : Prop := answers s (.claim h d n) (fun t => answered t false 0 0 ∧ { t with waves := s.waves, hands := s.hands } = s)
    let makes (e : Nat) : Prop := answers s (.claim h d n) (fun t =>
      answered t false (BitVec.ofNat 64 (2 ^ 62 + e * 16384 + ((s.claim e).gen + 1).toNat)) 0 ∧
      only t e { fid := a.extractLsb' 32 32, ver := a.extractLsb' 0 32, dig := b, st := .making, part := c.l.offer.part,
                 gen := (s.claim e).gen + 1, maker := c.id, creator := c.id.serial } ∧
      t.launch c.id.serial = some { c.l with creations := c.l.creations + 1 } ∧
      { t with waves := s.waves, claims := s.claims, launches := s.launches, hands := s.hands } = s)
    (c.any h = false → passes c s (.claim h d n)) ∧
    (c.any h = true →
      (∀ e, found = some e → (s.claim e).st = .ready → (s.claim e).pins.length < 2 ^ 20 - 1 → poolFull s e = false →
        let x : BitVec 64 := BitVec.ofNat 64 (3 * 2 ^ 62 + e * 16384 + (s.claim e).gen.toNat)
        let pins (t : State) : Prop := only t e { s.claim e with pins := (s.claim e).pins ++ [c.id.serial], clk := true }
        (c.clear s s.tick = true → answers s (.claim h d n) (fun t => answered t true x (s.claim e).handle ∧ pins t ∧
          (∃ v, tfind t.views c.key = some v ∧ v.seen = [] ∧ (s.claim e).relPt ≤ v.start ∧ c.w.homePt ≤ v.start) ∧
          (∃ b, t.block c.id.serial c.id.block = some b ∧ b.phase = c.b.phase + 1 ∧ b.clock = joinClock c.b.clock (s.claim e).clock) ∧
          { t with waves := s.waves, claims := s.claims, views := s.views, blocks := s.blocks } = s)) ∧
        (c.clear s s.tick = false → answers s (.claim h d n) (fun t => pins t ∧ otherWaves s t c.id ∧
          t.wave c.id = some ((addPend (c.barred s true)
            { tag := s.tick, kind := .other, dst := [.s d.toNat, .s (d.toNat + 1)],
              writes := [.s d.toNat x, .s (d.toNat + 1) (s.claim e).handle], ready := true }).setSlot c.slotB
              (some { c.sl with hold := .ready (s.claim e).relPt (s.claim e).clock, since := s.tick })) ∧
          { t with waves := s.waves, claims := s.claims } = s))) ∧
      (∀ e, found = some e → (s.claim e).st = .making → (s.claim e).queue.length < 255 → poolFull s e = false →
        answers s (.claim h d n) (fun t => answered t false (BitVec.ofNat 64 (2 * 2 ^ 62 + e * 16384 + (s.claim e).gen.toNat)) 0 ∧
          only t e { s.claim e with queue := (s.claim e).queue ++ [c.id] } ∧ { t with waves := s.waves, claims := s.claims } = s)) ∧
      (∀ e, found = some e → (poolFull s e = true ∨ ((s.claim e).st = .ready ∧ 2 ^ 20 - 1 ≤ (s.claim e).pins.length) ∨
        ((s.claim e).st = .making ∧ 255 ≤ (s.claim e).queue.length)) → zero) ∧
      (found = none → c.l.offer.claims ≤ c.l.creations → zero) ∧
      (found = none → c.l.creations < c.l.offer.claims →
        (∀ e, free = some e → makes e) ∧
        (free = none → (∀ e ∈ setEntries set, (s.claim e).st ≠ .ready ∨ (s.claim e).pins ≠ []) → zero) ∧
        (free = none →
          let e := 4 * set + tget 0 s.hands set % 4
          (s.claim e).st = .ready → (s.claim e).pins = [] → (s.claim e).clk = false → makes e)))

/-- R208, R303, R313, R355: `CLWAIT` on the ticket of a place the wave does not hold is CLSTATE; it answers READY with the handle
once the entry has turned the place into a pin and the wave's earlier loads and atomics are performed, MAKER once the duty has
passed to the wave, and holds its path until then. An answer that came in time stands, whatever becomes of the entry.

R357, R362: FULFIL_READY makes the entry READY, its queue turned into pins, when the publication of its `FULFIL` has been
performed; CLAIM_ENTRY_ERROR frees the entry and every launch that used it takes UNCORR, attributed to the machine.
The model's own choices in it: log entries 18, 26, 79, 81. -/
def Obligations.ClaimWaitsAndEvents : Prop :=
  (
    ∀ (s : State) (c : Ctx) (h : Hdr) (d t6 : BitVec 6) (lim : Lim 31) (dn : Nat) (tk : BitVec 32), s.ctxAt c.id c.slotB = some c →
      let e := ticketEntry tk
      let k := s.claim e
      let live : Prop := k.gen = ticketGen tk
      let ready : Prop := live ∧ (k.st = .ready ∨ k.st = .stale) ∧ c.id ∈ k.served
      let heir : Prop := live ∧ k.st = .making ∧ k.maker = c.id ∧ k.handed = true
      let answered (t : State) (bar : Bool) (dn : Nat) (x y : BitVec 64) : Prop := t.wave c.id = some ((addPend (c.barred s bar)
          { tag := s.tick, kind := .other, dst := [.s dn, .s (dn + 1)], writes := [.s dn x, .s (dn + 1) y], ready := true }).advance c.slotB) ∧
        otherWaves s t c.id
      let ends (i : Instr) (bar : Bool) (dn seq : Nat) : Prop :=
        (ready → c.clear s seq = true → answers s i (fun t => answered t bar dn (BitVec.ofNat 64 (3 * 2 ^ 62 + tk.toNat)) k.handle ∧
          t.claim e = { k with served := k.served.erase c.id } ∧ (∀ j, j ≠ e → t.claim j = s.claim j) ∧
          (∃ v, tfind t.views c.key = some v ∧ v.seen = [] ∧ k.relPt ≤ v.start ∧ c.w.homePt ≤ v.start) ∧
          (∃ b, t.block c.id.serial c.id.block = some b ∧ b.phase = c.b.phase + 1 ∧
            b.clock = joinClock c.b.clock k.clock) ∧
          { t with waves := s.waves, claims := s.claims, views := s.views, blocks := s.blocks } = s)) ∧
        (heir → answers s i (fun t => answered t bar dn (BitVec.ofNat 64 (2 ^ 62 + tk.toNat)) 0 ∧
          t.claim e = { k with handed := false } ∧ (∀ j, j ≠ e → t.claim j = s.claim j) ∧ { t with waves := s.waves, claims := s.claims } = s))
      (s.cur = (c.id, c.slotB) → c.any h = false → passes c s (.clwait h d t6 lim)) ∧
      (s.cur = (c.id, c.slotB) → c.any h = true → tk = (c.w.readS t6.toNat).extractLsb' 0 32 →
        ends (.clwait h d t6 lim) true d.toNat s.tick ∧
        (ready → c.clear s s.tick = false → answers s (.clwait h d t6 lim) (fun t =>
          c.waits s t (.clwait d.toNat tk) (limVal c.l lim) true (some true) none
            (some { word := BitVec.ofNat 64 (3 * 2 ^ 62 + tk.toNat), handle := k.handle, ready := true, relPt := k.relPt, clk := k.clock }))) ∧
        (live → c.id ∈ k.queue → ¬ ready → ¬ heir → answers s (.clwait h d t6 lim) (fun t =>
          c.waits s t (.clwait d.toNat tk) (limVal c.l lim) true none none)) ∧
        (¬ live ∨ (c.id ∉ k.queue ∧ ¬ ready ∧ ¬ heir) → answers s (.clwait h d t6 lim) (fun t =>
          c.trapped s t cCLSTATE aCALLER 0 0 (BitVec.ofNat 64 tk.toNat)))) ∧
      (c.b.place = .resident → c.sl.hold = .clwait dn tk →
        (c.timely s → c.sl.ans = none →
          ends (.clwaitComplete c.id c.slotB) false dn c.sl.since ∧
          ((¬ ready ∨ c.clear s c.sl.since = false) → ¬ heir → idles s (.clwaitComplete c.id c.slotB))) ∧
        (∀ x : ClAns, c.sl.ans = some x →
          (x.ready = true → c.clear s c.sl.since = true → answers s (.clwaitComplete c.id c.slotB) (fun t => answered t false dn x.word x.handle ∧
            t.claim e = (if k.gen = ticketGen tk then { k with served := k.served.erase c.id } else k) ∧ (∀ j, j ≠ e → t.claim j = s.claim j) ∧
            (∃ v, tfind t.views c.key = some v ∧ v.seen = [] ∧ x.relPt ≤ v.start ∧ c.w.homePt ≤ v.start) ∧
            (∃ b, t.block c.id.serial c.id.block = some b ∧ b.phase = c.b.phase + 1 ∧ b.clock = joinClock c.b.clock x.clk) ∧
            { t with waves := s.waves, claims := s.claims, views := s.views, blocks := s.blocks } = s)) ∧
          (x.ready = true → c.clear s c.sl.since = false → idles s (.clwaitComplete c.id c.slotB)) ∧
          (x.ready = false → answers s (.clwaitComplete c.id c.slotB) (fun t => answered t false dn x.word x.handle ∧
            (∀ j, j ≠ e → t.claim j = s.claim j) ∧ { t with waves := s.waves, claims := s.claims } = s))))) ∧
  (
    ∀ (s : State) (e : Nat),
      let k := s.claim e
      (∀ p g hv n, fulfilPub s e = some (p, e, g, hv, n) → k.st = .making → k.gen.toNat = g → k.fulfilling = true →
        answers s (.fulfilReady e) (fun t =>
          t.claim e = { k with st := .ready, handle := hv, clk := true, pins := k.pins ++ k.queue.map (fun w => w.serial),
                               served := k.queue, queue := [], fulfilling := false, relPt := n } ∧
          (∀ j, j ≠ e → t.claim j = s.claim j) ∧ (∀ q, q ∈ t.pubs ↔ q ∈ s.pubs ∧ q.id ≠ p.id) ∧
          (∀ i v, tfind s.views i = some v → tfind t.views i = some { v with needs := v.needs.filter (fun j => j != p.id) }) ∧
          { t with claims := s.claims, pubs := s.pubs, views := s.views } = s)) ∧
      (fulfilPub s e = none → idles s (.fulfilReady e)) ∧
      (k.st = .free → idles s (.claimEntryError e)) ∧
      (k.st ≠ .free → answers s (.claimEntryError e) (fun t => t.claim e = { gen := k.gen } ∧
        (∀ j, j ≠ e → t.claim j = s.claim j) ∧
        (let uses (n : Nat) : Prop := (k.st = .making ∧ n = k.maker.serial) ∨ (∃ w ∈ k.queue, w.serial = n) ∨ n ∈ k.pins
         ∀ n l, s.launch n = some l → (¬ uses n → t.launch n = some l) ∧
          (uses n → ∃ l' trs, t.launch n = some l' ∧ { l' with traps := l.traps } = l ∧ l'.traps = l.traps ++ trs ∧ trs ≠ [] ∧
            ∀ tr ∈ trs, tr.code = cUNCORR ∧ tr.attr = aMACHINE ∧ tr.value = Config.claimErrorValue s.tick e)) ∧
        { t with claims := s.claims, launches := s.launches } = s)))

/-- R356 to R359: `FULFIL` hands the publication of the maker's stores the entry and its handle, `ABANDON` passes the duty to
the first waiter whose launch goes on or frees the entry, `CLREL` drops one pin of the launch, and `CLINV` takes older
versions of a file out of use and counts them. A ticket that does not fit is CLSTATE. The claim table lists each entry once.
The model's own choices in it: log entry 63. -/
def Obligations.ClaimDuties : Prop :=
  ∀ (s : State) (c : Ctx) (h : Hdr) (x d t6 : BitVec 6), s.issuer = some c → tsorted s.claims = true → c.any h = true →
    let tk := (c.w.readS t6.toNat).extractLsb' 0 32
    let e := ticketEntry tk
    let k := s.claim e
    let mine : Prop := k.gen = ticketGen tk ∧ k.st = .making ∧ k.maker = c.id ∧ k.fulfilling = false
    let pinned : Prop := k.gen = ticketGen tk ∧ (k.st = .ready ∨ k.st = .stale) ∧ c.id.serial ∈ k.pins
    let hv := c.w.readS x.toNat
    let others (t : State) : Prop := ∀ j, j ≠ e → t.claim j = s.claim j
    let past (t : State) : Prop := t.wave c.id = some (c.w.advance c.slotB) ∧ otherWaves s t c.id
    let bad (i : Instr) : Prop := answers s i (fun t => c.trapped s t cCLSTATE aCALLER 0 0 (BitVec.ofNat 64 tk.toNat))
    let waiter : Option WaveId := k.queue.find? (fun w => (s.launch w.serial).any (fun l => l.traps.isEmpty) && going s w)
    (mine → hv.extractLsb' 49 15 ≠ 0 → answers s (.fulfil h x t6) (fun t => others t ∧ otherWaves s t c.id ∧
      (∃ w, t.wave c.id = some w ∧ { w with reqs := c.w.reqs } = c.w.advance c.slotB ∧ ∀ r ∈ w.reqs, isStg r = false) ∧
      (∃ q, t.claim e = q ∧ q.fulfilling = true ∧ q.handed = false ∧ tget 0 q.clock (bkey c.id.serial c.id.block) = c.b.phase + 1 ∧
        { q with fulfilling := k.fulfilling, handed := k.handed, clock := k.clock } = k) ∧
      (∃ p, t.pubs = s.pubs ++ [p] ∧ p.key = c.key ∧ p.claim = some (e, (ticketGen tk).toNat, hv) ∧ p.at_ = none) ∧
      (∃ b, t.block c.id.serial c.id.block = some b ∧ b.relaunchable = false))) ∧
    (mine → hv.extractLsb' 49 15 = 0 → answers s (.fulfil h x t6) (fun t => c.trapped s t cRESERVED aCALLER 0 0 0)) ∧
    (¬ mine → bad (.fulfil h x t6) ∧ bad (.abandon h t6)) ∧
    (mine → answers s (.abandon h t6) (fun t => past t ∧ others t ∧
      (waiter = none → t.claim e = { gen := k.gen }) ∧
      (∀ w, waiter = some w → (t.claim e).maker = w ∧ (t.claim e).handed = true ∧ (t.claim e).st = .making ∧ w ∈ k.queue) ∧
      { t with waves := s.waves, claims := s.claims, blocks := s.blocks } = s)) ∧
    (pinned → answers s (.clrel h t6) (fun t => past t ∧ others t ∧
      (k.st = .stale → k.pins.erase c.id.serial = [] → t.claim e = { gen := k.gen }) ∧
      (¬ (k.st = .stale ∧ k.pins.erase c.id.serial = []) → t.claim e = { k with pins := k.pins.erase c.id.serial }) ∧
      { t with waves := s.waves, claims := s.claims } = s)) ∧
    (¬ pinned → bad (.clrel h t6)) ∧
    (∀ h', c.any h' = false → passes c s (.fulfil h' x t6) ∧ passes c s (.abandon h' t6) ∧ passes c s (.clrel h' t6) ∧ passes c s (.clinv h' d x)) ∧
    (let hit (q : Claim) : Prop := q.st = .ready ∧ q.part = c.l.offer.part ∧ q.fid = hv.extractLsb' 32 32 ∧ q.ver < hv.extractLsb' 0 32
     answers s (.clinv h d x) (fun t =>
      (∀ j, (hit (s.claim j) → t.claim j = if (s.claim j).pins = [] then { gen := (s.claim j).gen } else { s.claim j with st := .stale }) ∧
        (¬ hit (s.claim j) → t.claim j = s.claim j)) ∧
      (∃ ws, t.wave c.id = some ((addPend c.w { tag := s.tick, kind := .other, dst := [.s d.toNat], writes := ws, ready := true }).advance c.slotB) ∧
        ∃ n, ws = [.s d.toNat (BitVec.ofNat 64 n)] ∧ n = (s.claims.filter (fun p => clinvHits c.l.offer.part hv p.2)).length) ∧
      { t with waves := s.waves, claims := s.claims } = s))

/-! ### Control (05_issue.md) -/

/-- R100 to R103: `BRA` and `BRC` move the path; `BRD` moves it whole where its lanes agree and otherwise splits it, saving a
live path of the other slot and a REJOIN frame; `JOIN` at the path's join address parks it, or joins it with the path parked
there and pops the frame. Registers and memory stay.
The model's own choices in it: log entries 63, 86, 88. -/
def Obligations.BranchesAndJoins : Prop :=
  ∀ (s : State) (c : Ctx) (neg : Bool) (m : BitVec 3) (tgt : BitVec 24) (dist : BitVec 16), s.issuer = some c →
    let pc := c.sl.path.pc
    let goal := pc + (tgt.signExtend 32 <<< 3)
    let T := (if neg = true then ~~~ (c.w.readM m.toNat) else c.w.readM m.toNat) &&& c.sl.path.mask
    let F := c.sl.path.mask &&& ~~~ T
    let moved (p : BitVec 32) : Wave := c.w.setSlot c.slotB (some (c.sl.to p))
    let jumps (i : Instr) (p : BitVec 32) : Prop := exec i s = .next (s.setWave c.id (moved p))
    let other := c.w.slot (!c.slotB)
    let j := pc + 8 * dist.setWidth 32
    jumps (.bra tgt) goal ∧
    (T ≠ 0 → jumps (.brc neg m tgt) goal) ∧ (T = 0 → jumps (.brc neg m tgt) (pc + 8)) ∧
    (F = 0 → jumps (.brd neg m tgt dist) goal) ∧ (F ≠ 0 → T = 0 → jumps (.brd neg m tgt dist) (pc + 8)) ∧
    (F ≠ 0 → T ≠ 0 → leavesWave c s (.brd neg m tgt dist) (fun w =>
      w.slot c.slotB = some { path := { pc := pc + 8, mask := F, join := some j, parked := false } } ∧
      w.slot (!c.slotB) = some { path := { pc := goal, mask := T, join := some j, parked := false } } ∧
      w.stack = .rejoin c.sl.path.join c.sl.path.mask :: (match other with | some x => .path x.path :: c.w.stack | none => c.w.stack) ∧
      { w with a := c.w.a, b := c.w.b, stack := c.w.stack } = c.w)) ∧
    (let joins (P : Wave → Prop) : Prop := answers s .join (fun t => ∃ w l, t.wave c.id = some w ∧ P w ∧
        { w with a := c.w.a, b := c.w.b, stack := c.w.stack } = c.w ∧ otherWaves s t c.id ∧
        t.launch c.id.serial = some l ∧ { l with ebytes := c.l.ebytes } = c.l ∧ { t with waves := s.waves, launches := s.launches } = s)
     (c.sl.path.join ≠ some pc → joins (fun w => w = moved (pc + 8))) ∧
     (c.sl.path.join = some pc → ∀ x, other = some x → x.path.join = some pc → x.path.parked = false → joins (fun w =>
       w = c.w.setSlot c.slotB (some { c.sl with path := { c.sl.path with parked := true } }))) ∧
     (c.sl.path.join = some pc → ∀ k km rest, c.w.stack = .rejoin k km :: rest →
       (∀ x, other = some x → x.path.join = some pc → x.path.parked = true → joins (fun w => w.stack = rest ∧ w.slot (!c.slotB) = none ∧
         w.slot c.slotB = some { path := { pc := pc + 8, mask := c.sl.path.mask ||| x.path.mask, join := k, parked := false }, hold := .frame })) ∧
       ((∀ x, other = some x → x.path.join ≠ some pc) → joins (fun w => w.stack = rest ∧ w.slot (!c.slotB) = other ∧
         w.slot c.slotB = some { path := { pc := pc + 8, mask := c.sl.path.mask, join := k, parked := false }, hold := .frame }))))

/-- R104 to R107: the loop words count trips and `LOOPB` traps LIMIT LOOP at its limit; a call saves the return address, the
join address and the loop registers in a frame, starts with loop registers of zero, and traps LIMIT RECURSE at the depth
declared for its target and LIMIT CALLT beyond its table; `RET` gives back what the frame saved.
The model's own choices in it: log entry 88. -/
def Obligations.LoopsAndCalls : Prop :=
  ∀ (s : State) (c : Ctx) (r : BitVec 3) (tgt : BitVec 24) (lim : Lim 15) (tbl : BitVec 8) (x : BitVec 6), s.issuer = some c →
    let pc := c.sl.path.pc
    let goal := pc + (tgt.signExtend 32 <<< 3)
    let n := limVal c.l lim
    let trips := (c.w.readL r.toNat).trips + 1
    let limits (i : Instr) (construct v : Nat) : Prop :=
      answers s i (fun t => c.trapped s t cLIMIT aCALLER construct c.sl.path.mask (BitVec.ofNat 64 v))
    let loops (i : Instr) (p : BitVec 32) (k : LoopReg) : Prop := leavesWave c s i (fun w =>
      { w with l := c.w.l } = c.w.setSlot c.slotB (some (c.sl.to p)) ∧
      ∀ q, w.readL q = if q = r.toNat then k else c.w.readL q)
    let calls (i : Instr) (t : BitVec 32) : Prop :=
      (c.w.actOf t.toNat = depthOf c.l t.toNat → limits i kRECURSE (depthOf c.l t.toNat)) ∧
      (c.w.actOf t.toNat ≠ depthOf c.l t.toNat → leavesWave c s i (fun w =>
        w.slot c.slotB = some { path := { c.sl.path with pc := t, join := none } } ∧ w.slot (!c.slotB) = none ∧
        w.stack = .call (pc + 8) c.sl.path.join ((List.range 8).map c.w.readL) t.toNat ::
          (match c.w.slot (!c.slotB) with | some y => .path y.path :: c.w.stack | none => c.w.stack) ∧
        (∀ q, w.readL q = { trips := 0, limit := 0 }) ∧
        (∀ q, w.actOf q = if q = t.toNat then c.w.actOf q + 1 else c.w.actOf q) ∧
        { w with a := c.w.a, b := c.w.b, stack := c.w.stack, l := c.w.l, act := c.w.act } = c.w))
    (n ≤ trips.toNat → limits (.loopb r tgt lim) kLOOP n) ∧
    (trips.toNat < n → loops (.loopb r tgt lim) goal { trips := trips, limit := BitVec.ofNat 32 n }) ∧
    (trips.toNat < n → loops (.loopn r tgt lim) goal { trips := trips, limit := BitVec.ofNat 32 n }) ∧
    (n ≤ trips.toNat → loops (.loopn r tgt lim) (pc + 8) { trips := 0, limit := BitVec.ofNat 32 n }) ∧
    loops (.loopx r tgt) goal { c.w.readL r.toNat with trips := 0 } ∧
    calls (.call tgt) goal ∧
    (let table := c.l.offer.kernel.tables.getD tbl.toNat []
     (∀ a, table[(c.w.readS x.toNat).toNat]? = some a → calls (.callt tbl x) (BitVec.ofNat 32 a)) ∧
     (table.length ≤ (c.w.readS x.toNat).toNat → limits (.callt tbl x) kCALLT table.length)) ∧
    (∀ ret j ls tg rest, c.w.stack = .call ret j ls tg :: rest → ls.length = 8 → answers s .ret (fun t => ∃ w, t.wave c.id = some w ∧
      w.slot c.slotB = some { path := { c.sl.path with pc := ret, join := j }, hold := .frame } ∧ w.slot (!c.slotB) = c.w.slot (!c.slotB) ∧
      w.stack = rest ∧ (∀ q, q < 8 → ls[q]? = some (w.readL q)) ∧
      (∀ q, w.actOf q = if q = tg then c.w.actOf q - 1 else c.w.actOf q) ∧
      { w with a := c.w.a, b := c.w.b, stack := c.w.stack, l := c.w.l, act := c.w.act } = c.w ∧
      otherWaves s t c.id ∧ { t with waves := s.waves, launches := s.launches } = s)) ∧
    ((∀ ret j ls tg rest, c.w.stack ≠ .call ret j ls tg :: rest) →
      exec .ret s = .next (s.setWave c.id (c.w.setSlot c.slotB (some (c.sl.to (pc + 8))))))

/-- R95, R96, R108 to R110, R141: `EXIT` ends its path; the frames above a saved path are given up when no path is left beside
it, and a wave with no path left retires, its register blocks in the pool of its slot. `YIELD`, `NOP` and `BRK` go on, `TRAP`
takes LIMIT TRAP with its code. FRAME_POP fills the empty slot with the saved path, which FRAME_READ_DONE lets issue.

R56, R61: a path's word that fails its check is fetched again, and its second failure in a row is SOFT, attributed to the
machine; a word that is not an instruction is ILLOP and names the word.
The model's own choices in it: log entries 17, 63, 93. -/
def Obligations.EndsFramesAndFetch : Prop :=
  (
    ∀ (s : State) (c : Ctx) (code : BitVec 16), s.issuer = some c →
      let gone := c.w.setSlot c.slotB none
      let ends (P : Wave → Prop) : Prop := answers s .exit (fun t => ∃ w, t.wave c.id = some w ∧ P w ∧ otherWaves s t c.id ∧
        { t with waves := s.waves, launches := s.launches } = s)
      (∀ x, c.w.slot (!c.slotB) = some x → c.w.retiredWave = false → ends (fun w => w = gone)) ∧
      (c.w.slot (!c.slotB) = none → ∀ above p rest, c.w.stack = above ++ .path p :: rest → (∀ q, .path q ∉ above) →
        ends (fun w => w.stack = .path p :: rest ∧ { w with stack := c.w.stack, l := c.w.l, act := c.w.act } = gone)) ∧
      (c.w.slot (!c.slotB) = none → (∀ q, .path q ∉ c.w.stack) → c.w.retiredWave = false → c.w.sweep = none →
        answers s .exit (fun t => ∃ w b, t.wave c.id = some w ∧ w.retiredWave = true ∧ w.a = none ∧ w.b = none ∧ w.resident = c.w.resident ∧
          t.block c.id.serial c.id.block = some b ∧
          tget 0 b.pools (c.id.wave % 4) = tget 0 c.b.pools (c.id.wave % 4) + c.w.allot ∧ otherWaves s t c.id)) ∧
      leavesWave c s .yield (fun w => { w with yielded := c.w.yielded } = c.w.advance c.slotB ∧ w.yielded = !c.l.offer.kernel.det) ∧
      passes c s .nop ∧
      answers s (.trap code) (fun t => c.trapped s t cLIMIT aCALLER kTRAP c.sl.path.mask (BitVec.ofNat 64 code.toNat)) ∧
      answers s (.brk code) (fun t => t.wave c.id = some (c.w.advance c.slotB) ∧
        t.launch c.id.serial = some { c.l with brks := c.l.brks + 1 } ∧ otherWaves s t c.id ∧
        { t with waves := s.waves, launches := s.launches } = s) ∧
      (∀ id x p rest, s.wave id = some x → x.stack = .path p :: rest → (x.a = none ∨ x.b = none) →
        answers s (.framePop id) (fun t => ∃ w, t.wave id = some w ∧ w.stack = rest ∧
          (x.a = none → w.a = some { path := { p with parked := false }, hold := .frame } ∧ w.b = x.b) ∧
          (x.a ≠ none → w.b = some { path := { p with parked := false }, hold := .frame } ∧ w.a = x.a) ∧
          { w with a := x.a, b := x.b, stack := x.stack } = x ∧ otherWaves s t id ∧ { t with waves := s.waves, launches := s.launches } = s)) ∧
      (∀ id x sb sl, s.wave id = some x → x.slot sb = some sl → sl.hold = .frame →
        exec (.frameReadDone id sb) s = .next (s.setWave id (x.setSlot sb (some { sl with hold := .free }))))) ∧
  (
    ∀ (s : State) (c : Ctx) (word : BitVec 64), s.ctxAt c.id c.slotB = some c → c.b.place = .resident →
      exec (.fetchCheckError c.id c.slotB false) s = .next (s.setWave c.id (c.w.setSlot c.slotB (some { c.sl with retry := true }))) ∧
      (c.sl.retry = true → answers s (.fetchCheckError c.id c.slotB true) (fun t => ∃ v, c.trapped s t cSOFT aMACHINE 0 0 v ∧
        ∀ bytes, fetch s c = some bytes → v = BitVec.ofNat 64 (ofLeBytes bytes))) ∧
      (c.sl.retry = false → idles s (.fetchCheckError c.id c.slotB true)) ∧
      (decode word = none → answers s (.illop c.id c.slotB word) (fun t => c.trapped s t cILLOP aMACHINE 0 0 word)) ∧
      (∀ i, decode word = some i → idles s (.illop c.id c.slotB word)))

/-! ### The matrix unit (15_matrix.md) -/

/-- R262, R263, R270 to R276: a matrix word of a wave that drives the slot waits in the slot's queue and, where it reads the
scratchpad, in its wave's; its block is bound to the core. A wave of another row traps PROT; a descriptor or format block that the
unit does not have, a broadcast in a cohort without affinity, and a pass whose width of A, slot tag or row group does not fit trap
RESERVED; misaligned panels and rows trap MISALIGN, and panels, rows and scale bytes beyond the allocation SPBOUND, a pass with
the mask of its lanes.
The model's own choices in it: log entries 20, 30, 92. -/
def Obligations.MatrixWordsWait : Prop :=
  ∀ (s : State) (c : Ctx) (h : Hdr) (p b : BitVec 3) (sa sb : BitVec 6) (off : BitVec 24) (off' : BitVec 16) (pt : BitVec 8) (keep : BitVec 1)
      (g : BitVec 2) (va vb : BitVec 8) (q : BitVec 3) (nb : BitVec 2) (ty : Ty) (r : BitVec 5), s.issuer = some c →
    let x := s.bslot c.b.core b.toNat
    let size : Int := c.l.offer.kernel.scratch
    let row : List Nat := (c.lanes h).filter (fun l => l / 8 == q.toNat)
    let mqma : Instr := .mqma h (keep == 1) b g va vb q nb
    let waits (i : Instr) (k : SpKind) (q' : List MxOp → Prop) : Prop := answers s i (fun t => ∃ w o, t.wave c.id = some w ∧
      w.spq = c.w.spq ++ [o] ∧ o.kind = k ∧ o.pc = c.sl.path.pc ∧ { w with spq := c.w.spq } = c.w.advance c.slotB ∧ otherWaves s t c.id ∧
      t.block c.id.serial c.id.block = some { c.b with matrixActed := true } ∧
      q' (t.bslot c.b.core b.toNat).q ∧ { t.bslot c.b.core b.toNat with q := x.q } = x ∧
      { t with waves := s.waves, blocks := s.blocks, bslots := s.bslots, launches := s.launches } = s)
    let drives : Prop := c.id.wave % 4 = b.toNat % 4
    let prot (i : Instr) : Prop := answers s i (fun t => c.trapped s t cPROT aCALLER 0 0 (BitVec.ofNat 64 b.toNat))
    let joins (k : MxKind) (l : List MxOp) : Prop := l = x.q ++ [{ id := s.tick, w := c.id, tag := s.tick, kind := k }]
    (c.any h = false → passes c s (.mbld h p b sa sb off) ∧ passes c s (.mbcast h p b sa sb pt off') ∧ passes c s (.mcrd h ty va b r vb) ∧
      passes c s (.mcwr h ty (keep == 1) va b r vb) ∧ passes c s (.mcz h ty b r vb)) ∧
    (row = [] → passes c s mqma) ∧
    (c.any h = true → ¬ drives → prot (.mbld h p b sa sb off) ∧ prot (.mbcast h p b sa sb pt off') ∧ prot (.mcrd h ty va b r vb) ∧
      prot (.mcwr h ty (keep == 1) va b r vb) ∧ prot (.mcz h ty b r vb) ∧ (row ≠ [] → prot mqma)) ∧
    (c.any h = true → drives →
      (let a : Int := (c.w.readS sa.toNat).toInt + off.toInt
       (∀ t bl sc, descOf (c.w.readS sb.toNat) = some (t, bl, sc) → a % 128 = 0 → 0 ≤ a → a + 4096 ≤ size →
        (t = .q4 → sc + 32 * (256 / bl) ≤ size) →
        waits (.mbld h p b sa sb off) (.mbld b.toNat p.toNat a.toNat sc t bl s.tick) (joins (.mbld p.toNat t bl none))) ∧
       (descOf (c.w.readS sb.toNat) = none → answers s (.mbld h p b sa sb off) (fun u => c.trapped s u cRESERVED aCALLER 0 0 0)) ∧
       (∀ d, descOf (c.w.readS sb.toNat) = some d → a % 128 ≠ 0 →
        answers s (.mbld h p b sa sb off) (fun u => c.trapped s u cMISALIGN aCALLER 0 0 (BitVec.ofInt 64 a))) ∧
       (∀ d, descOf (c.w.readS sb.toNat) = some d → a % 128 = 0 → (a < 0 ∨ size < a + 4096) →
        answers s (.mbld h p b sa sb off) (fun u => c.trapped s u cSPBOUND aCALLER 0 0 (BitVec.ofInt 64 a))) ∧
       (∀ bl sc, descOf (c.w.readS sb.toNat) = some (.q4, bl, sc) → a % 128 = 0 → 0 ≤ a → a + 4096 ≤ size → size < sc + 32 * (256 / bl) →
        answers s (.mbld h p b sa sb off) (fun u => c.trapped s u cSPBOUND aCALLER 0 0 (BitVec.ofNat 64 sc)))) ∧
      (cohortOf c.l.offer.kernel c.id.block (pt >>> 5).toNat = none → answers s (.mbcast h p b sa sb pt off') (fun u =>
        c.trapped s u cRESERVED aCALLER 0 0 0)) ∧
      (∀ co, cohortOf c.l.offer.kernel c.id.block (pt >>> 5).toNat = some co → co.aff = false →
        answers s (.mbcast h p b sa sb pt off') (fun u => c.trapped s u cRESERVED aCALLER 0 0 0)) ∧
      (∀ co, cohortOf c.l.offer.kernel c.id.block (pt >>> 5).toNat = some co → co.aff = true →
        waits (.mbcast h p b sa sb pt off') (.mbcast co.entry b.toNat p.toNat ((c.w.readS sa.toNat).toInt + off'.toInt) (c.w.readS sb.toNat)
          (pt &&& 31#8).toNat) (fun l => l = x.q)) ∧
      (∀ f, row ≠ [] → fmtBlock (c.w.readS vb.toNat) = some f → f.a.bits = 4 * 2 ^ nb.toNat → x.comingTag = some f.b →
        8 * g.toNat + 7 < viewRows f.c →
        let ad (l : Nat) : Nat := (c.w.readV va.toNat l).toNat
        let nsc : Nat := if f.a = .q4 then 256 / f.abl else 0
        (∀ l ∈ row, ad l % 128 = 0 ∧ ad l + rowBytes f.a ≤ size ∧ (f.a = .q4 → f.asc + (l % 8 + 1) * nsc ≤ size)) →
        waits mqma (.mqma b.toNat s.tick (row.map (fun l => (l % 8, ad l))) (rowBytes f.a) f.asc nsc)
          (joins (.mqma g.toNat (c.w.readS vb.toNat) none false))) ∧
      (row ≠ [] → fmtBlock (c.w.readS vb.toNat) = none → answers s mqma (fun u => c.trapped s u cRESERVED aCALLER 0 0 0)) ∧
      (∀ f, row ≠ [] → fmtBlock (c.w.readS vb.toNat) = some f →
        let fits : Prop := f.a.bits = 4 * 2 ^ nb.toNat ∧ x.comingTag = some f.b ∧ 8 * g.toNat + 7 < viewRows f.c
        let ad (l : Nat) : Nat := (c.w.readV va.toNat l).toNat
        let nsc : Nat := if f.a = .q4 then 256 / f.abl else 0
        let mis : List Nat := row.filter (fun l => ad l % 128 != 0)
        let out : List Nat := row.filter (fun l => c.l.offer.kernel.scratch < ad l + rowBytes f.a ||
          (f.a == .q4 && c.l.offer.kernel.scratch < f.asc + (l % 8 + 1) * nsc))
        (¬ fits → answers s mqma (fun u => c.trapped s u cRESERVED aCALLER 0 0 0)) ∧
        (∀ l rest, fits → mis = l :: rest → answers s mqma (fun u =>
          c.trapped s u cMISALIGN aCALLER 0 (maskOf mis) (BitVec.ofNat 64 (ad l)))) ∧
        (∀ l rest, fits → mis = [] → out = l :: rest → answers s mqma (fun u =>
          c.trapped s u cSPBOUND aCALLER 0 (maskOf out) (BitVec.ofNat 64 (ad l))))))

/-- R264, R265, R270, R278: with nothing waiting on the slot `MCRD` reads the accumulator cells of its row, `MCWR` writes them
from the lanes of EFF and `MCZ` zeroes whole rows, and no other cell changes; behind a load or a pass they wait.
The model's own choices in it: log entry 30. -/
def Obligations.AccumulatorWords : Prop :=
  ∀ (s : State) (c : Ctx) (h : Hdr) (ty : Ty) (d : BitVec 8) (keep : Bool) (b : BitVec 3) (r : BitVec 5) (col n : BitVec 8), s.issuer = some c →
    c.any h = true → c.id.wave % 4 = b.toNat % 4 →
    let x := s.bslot c.b.core b.toNat
    let row : Nat := viewRowBytes ty * r.toNat
    let at_ (l : Nat) : Nat := row + ty.size * (col.toNat + l)
    let does (i : Instr) (P : Wave → BSlot → Prop) : Prop := answers s i (fun t => ∃ w, t.wave c.id = some w ∧
      P w (t.bslot c.b.core b.toNat) ∧ otherWaves s t c.id ∧ t.block c.id.serial c.id.block = some { c.b with matrixActed := true } ∧
      { t with waves := s.waves, blocks := s.blocks, bslots := s.bslots } = s)
    let past (w : Wave) : Prop := w = c.w.advance c.slotB
    (x.q = [] →
      does (.mcrd h ty d b r col) (fun w y => y = x ∧ { w with pend := c.w.pend } = c.w.advance c.slotB ∧
        w.pend.length = c.w.pend.length + 1 ∧ w.pend.getLast? = some { tag := s.tick, kind := .other, dst := [.v d.toNat], ready := true, writes := (c.lanes h).map (fun l => .v d.toNat l (BitVec.ofNat 32 (ofLeBytes (tgets 0 x.acc (at_ l) ty.size)))) }) ∧
      does (.mcwr h ty keep d b r col) (fun w y => past w ∧ { y with acc := x.acc } = x ∧
        (∀ l ∈ c.lanes h, tgets 0 y.acc (at_ l) ty.size = leBytes (c.w.readV d.toNat l).toNat ty.size) ∧
        ∀ j, (∀ l ∈ c.lanes h, j < at_ l ∨ at_ l + ty.size ≤ j) → tget 0 y.acc j = tget 0 x.acc j) ∧
      does (.mcz h ty b r n) (fun w y => past w ∧ { y with acc := x.acc } = x ∧
        ∀ j, tget 0 y.acc j = if row ≤ j ∧ j < row + viewRowBytes ty * n.toNat then 0 else tget 0 x.acc j)) ∧
    (∀ o rest, x.q = o :: rest → ((∃ p t bl d, o.kind = .mbld p t bl d) ∨ ∃ g f rs st, o.kind = .mqma g f rs st) →
      let joins (y : BSlot) (k : MxKind) : Prop := y = { x with q := x.q ++ [{ id := s.tick, w := c.id, tag := s.tick, kind := k }] }
      does (.mcrd h ty d b r col) (fun w y => joins y (.mcrd ty r.toNat col.toNat d.toNat (c.eff h)) ∧
        w = (addPend c.w { tag := s.tick, kind := .other, dst := [.v d.toNat], writes := [], ready := false }).advance c.slotB) ∧
      does (.mcwr h ty keep d b r col) (fun w y => past w ∧
        joins y (.mcwr ty r.toNat col.toNat ((c.lanes h).map (fun l => (l, c.w.readV d.toNat l))))) ∧
      does (.mcz h ty b r n) (fun w y => past w ∧ joins y (.mcz ty r.toNat n.toNat)))

/-- R75 to R77, R216, R264, R267, R269, R273, R274: MBLD_COMPLETE writes the panel, one eighth of every K-row's cells, and the
slot's tag, and the load leaves its wave's queue; MATRIX_PASS starts the pass at the head of the slot, and
MATRIX_PASS_COMPLETE adds, in each column, the products of the row and the column to the accumulator element, K-block by
K-block; a broadcast waits for the members' earlier words on the slot, writes one panel to the slot of every member, and counts
its bytes down on the point, or fails the point where the members differ or the source carries an error.

R154, R269, R271, R274: the scratchpad performs a matrix word by aligned 64-byte units. With its last part a load's panel is
read and the load stays at the head of its wave's queue, a pass's rows are read and the word is performed, and a broadcast
word reaches the bus with its source, its block relaunching no more. A load reads only once the earlier loads of its issue slot
have completed.
The model's own choices in it: log entries 30, 76, 78. -/
def Obligations.MatrixUnitSteps : Prop :=
  (
    ∀ (s : State) (core b : Nat) (op : MxOp),
      let x := s.bslot core b
      let slot (i : Instr) (P : BSlot → Prop) : Prop := answers s i (fun t => P (t.bslot core b) ∧ { t with bslots := s.bslots } = s)
      let cell (y : BSlot) (k m : Nat) : Nat := (tget 0 y.cells (128 * k + m / 2)).toNat / 16 ^ (m % 2) % 16
      let panel (y : BSlot) (p : Nat) (t : Ty) (d : List Byte) : Prop := ∀ k j i, k < 256 → i < cellsOf t → cellsOf t * j + i < 32 →
        cell y k (32 * p + (cellsOf t * j + i)) = elemCode t ((d.drop (128 * cellsOf t * j)).take (128 * cellsOf t)) k / 16 ^ i % 16
      let loadable (t : Ty) : Prop := t.bits = 4 ∨ t.bits = 8 ∨ t.bits = 16
      (x.q = [op] →
        (∀ p t bl d w, op.kind = .mbld p t bl (some d) → loadable t → p < 8 → s.wave op.w = some w →
          answers s (.mbldComplete core b) (fun u =>
            (let y := u.bslot core b
             y.q = [] ∧ y.tag = some (t, bl) ∧ y.acc = x.acc ∧ panel y p t d.1 ∧
             (∀ j, (32768 ≤ j ∨ j / 16 % 8 ≠ p) → tget 0 y.cells j = tget 0 x.cells j) ∧
             (t ≠ .q4 → y.scales = x.scales) ∧ (t = .q4 → tgets 0 y.scales (32 * p * (256 / bl)) d.2.length = d.2)) ∧
            (∃ w', u.wave op.w = some w' ∧ { w' with pend := w.pend } = { w with spq := w.spq.tail }) ∧ otherWaves s u op.w ∧
            { u with bslots := s.bslots, waves := s.waves } = s)) ∧
        (∀ g f rows, op.kind = .mqma g f (some rows) false → slot (.matrixPass core b) (fun y =>
          y = { x with q := [{ op with kind := .mqma g f (some rows) true }] })) ∧
        (∀ g f m rows, op.kind = .mqma g f (some rows) true → fmtBlock f = some m → (rows.map (fun r => r.1)).Nodup →
          slot (.matrixPassComplete core b) (fun y => { y with acc := x.acc, q := x.q } = x ∧ y.q = [] ∧
          (let w := m.c.size
           let n := 256 / cellsOf m.b
           let base (r : Nat × List Byte × List Byte) : Nat := viewRowBytes m.c * (8 * g + r.1)
           (∀ r ∈ rows, ∀ j, j < n → tgets 0 y.acc (base r + w * j) w = leBytes (accElem m.c (ofLeBytes (tgets 0 x.acc (base r + w * j) w))
              (kBlocks m.a r.2.1 (fun k => (r.2.2.getD (k / m.abl) 0).toNat))
              (slotColumn x (x.tag.getD (m.b, 16)).1 (x.tag.getD (m.b, 16)).2 j)) w) ∧
           ∀ j, (∀ r ∈ rows, j < base r ∨ base r + w * n ≤ j) → tget 0 y.acc j = tget 0 x.acc j)))) ∧
      (∀ serial l co xs src rest, s.launch serial = some l → bcastReady l co = some xs → xs = src :: rest →
        let pt : PointRef := { serial := serial, block := src.block, cohort := some co, n := src.pt }
        let o := getPoint s pt
        let free : Prop := ∀ y ∈ xs, ∀ o ∈ (s.bslot y.core y.b).q, o.w = { serial := serial, block := y.block, wave := y.wave } → y.seq ≤ o.id
        (¬ free → idles s (.broadcastPerform serial co)) ∧
        (∀ t bl sc, descOf src.desc = some (t, bl, sc) → src.err = 0 → src.p < 8 →
          free → (∀ y ∈ xs, y.b = src.b ∧ y.p = src.p ∧ y.desc = src.desc ∧ y.b < 8) → o.err = 0 → -(2 : Int) ^ 39 + 4096 ≤ o.pend →
          answers s (.broadcastPerform serial co) (fun u =>
            (∀ y ∈ xs, (u.bslot y.core src.b).tag = some (t, bl) ∧ (u.bslot y.core src.b).acc = (s.bslot y.core src.b).acc ∧
              (loadable t → panel (u.bslot y.core src.b) src.p t src.data.1)) ∧
            (let q := getPoint u pt
             (o.arr = 0 ∧ o.pend = 4096 → q.ph = !o.ph ∧ q.pend = 0) ∧ (¬ (o.arr = 0 ∧ o.pend = 4096) → q.ph = o.ph ∧ q.pend = o.pend - 4096)) ∧
            u.waves = s.waves ∧ u.mem = s.mem)) ∧
        (free → (∃ y ∈ xs, y.b ≠ src.b ∨ y.p ≠ src.p ∨ y.desc ≠ src.desc) → o.err = 0 →
          answers s (.broadcastPerform serial co) (fun u => (getPoint u pt).err = 5 ∧ (getPoint u pt).arr = o.exp ∧ (getPoint u pt).pend = 0 ∧
            u.bslots = s.bslots ∧ u.waves = s.waves ∧ u.mem = s.mem)) ∧
        (free → (∀ y ∈ xs, y.b = src.b ∧ y.p = src.p ∧ y.desc = src.desc) → src.err ≠ 0 → o.err = 0 →
          answers s (.broadcastPerform serial co) (fun u => (getPoint u pt).err = src.err ∧ (getPoint u pt).src = some (0, src.pc, src.value) ∧
            (getPoint u pt).arr = o.exp ∧ (getPoint u pt).pend = 0 ∧ u.bslots = s.bslots ∧ u.waves = s.waves ∧ u.mem = s.mem)))) ∧
  (
    ∀ (s : State) (id : WaveId) (x : Wave) (b : Block) (op : SpOp) (l : Launch) (u : Nat), spHead s id = some (x, b, op) →
      s.launch id.serial = some l → u < 2 ^ 40 →
      let read (op' : SpOp) (a n : Nat) : Prop := ∀ y, a ≤ y → y < a + n →
        op'.bytes 0 y 1 = if y / 64 = u then [tget 0 b.scratch y] else op.bytes 0 y 1
      let same (op' : SpOp) : Prop := op'.left = some [] ∧ { op' with left := op.left, got := op.got } = op
      let rest (t : State) : Prop := otherWaves s t id ∧
        { t with waves := s.waves, blocks := s.blocks, bslots := s.bslots, launches := s.launches } = s
      (∀ slot p a sc ty bl mid, op.kind = .mbld slot p a sc ty bl mid → a + 4096 ≤ 2 ^ 40 → sc + panelScales ty bl ≤ 2 ^ 40 →
        let y := s.bslot b.core slot
        (op.left = some [u] → mbldFirst s b.core slot mid = true → answers s (.scratchpadAccessPerform id) (fun t => ∃ op',
          same op' ∧ read op' a 4096 ∧ read op' sc (panelScales ty bl) ∧ t.wave id = some { x with spq := op' :: x.spq.tail } ∧
          t.bslot b.core slot = { y with q := y.q.map (fun o => if o.id = mid then { o with kind := (match o.kind with
            | .mbld p ty bl _ => .mbld p ty bl (some (op'.bytes 0 a 4096, op'.bytes 0 sc (panelScales ty bl)))
            | k => k) } else o) } ∧ rest t)) ∧
        (op.left = some [] ∨ mbldFirst s b.core slot mid = false → idles s (.scratchpadAccessPerform id))) ∧
      (∀ slot mid rows n asc nsc, op.kind = .mqma slot mid rows n asc nsc → op.left = some [u] →
        (∀ r ∈ rows, r.2 + n ≤ 2 ^ 40 ∧ asc + r.1 * nsc + nsc ≤ 2 ^ 40) →
        let y := s.bslot b.core slot
        answers s (.scratchpadAccessPerform id) (fun t => ∃ op' w, same op' ∧ (∀ r ∈ rows, read op' r.2 n ∧ read op' (asc + r.1 * nsc) nsc) ∧
          t.wave id = some w ∧ served x op [] w ∧
          t.bslot b.core slot = { y with q := y.q.map (fun o => if o.id = mid then { o with kind := (match o.kind with
            | .mqma g f _ st => .mqma g f (some (rows.map (fun r => (r.1, op'.bytes 0 r.2 n, op'.bytes 0 (asc + r.1 * nsc) nsc)))) st
            | k => k) } else o) } ∧ rest t)) ∧
      (∀ entry slot p a desc pt, op.kind = .mbcast entry slot p a desc pt →
        let sends (err : Nat) (P : SpOp → Bcast → Prop) : Prop := answers s (.scratchpadAccessPerform id) (fun t => ∃ op' m w,
          same op' ∧ P op' m ∧ m.err = err ∧ m.entry = entry ∧ m.num = tget 0 b.bcasts entry ∧ m.block = id.block ∧ m.wave = id.wave ∧
          m.core = b.core ∧ m.b = slot ∧ m.p = p ∧ m.desc = desc ∧ m.pt = pt ∧ m.pc = op.pc.toNat ∧
          t.launch id.serial = some { l with bcastSent := l.bcastSent ++ [m] } ∧ t.wave id = some w ∧ served x op [] w ∧
          t.block id.serial id.block = some { b with bcasts := tput b.bcasts entry (tget 0 b.bcasts entry + 1), relaunchable := false } ∧ rest t)
        (∀ ty bl sc, descOf desc = some (ty, bl, sc) → a % 128 = 0 → 0 ≤ a → a + 4096 ≤ l.offer.kernel.scratch → a + 4096 ≤ 2 ^ 40 →
          (ty = .q4 → sc + panelScales ty bl ≤ l.offer.kernel.scratch) → sc + panelScales ty bl ≤ 2 ^ 40 → op.left = some [u] →
          sends 0 (fun op' m => read op' a.toNat 4096 ∧ read op' sc (panelScales ty bl) ∧
            m.data = (op'.bytes 0 a.toNat 4096, op'.bytes 0 sc (panelScales ty bl)))) ∧
        (op.left = some [] → descOf desc = none → sends 5 (fun _ m => m.data = ([], []))) ∧
        (op.left = some [] → (descOf desc).isSome = true → a % 128 ≠ 0 → sends 3 (fun _ m => m.data = ([], []) ∧ m.value = (BitVec.ofInt 64 a).toNat)) ∧
        (∀ ty bl sc, op.left = some [] → descOf desc = some (ty, bl, sc) → a % 128 = 0 →
          (a < 0 ∨ l.offer.kernel.scratch < a + 4096 → sends 4 (fun _ m => m.data = ([], []) ∧ m.value = (BitVec.ofInt 64 a).toNat)) ∧
          (0 ≤ a → a + 4096 ≤ l.offer.kernel.scratch → ty = .q4 → l.offer.kernel.scratch < sc + panelScales ty bl →
            sends 4 (fun _ m => m.data = ([], []) ∧ m.value = sc)))))

/-! ### Sweeps (20_sweeps.md) -/

/-- R324, R338 to R342: `SWGO` sends a run to the context of its core and answers its number and the timeline's handle; `SWAIT`
and `SWEND` queue the new contexts of their lanes, which leave the path; the record words wait in the scratchpad queue where
their offsets name elements; `SWQRY` answers on the run or on the tensor. A new context that is malformed or retired makes `SWAIT`
trap RESERVED with the mask of its lanes, and a tensor that the kernel lacks does so to a word that names it.

R154, R329, R331, R334, R339 to R341: `SCTXR` reads its contexts lane after lane and `SNBR` the data of neighbours part by
part; with the last part the word leaves the queue, its result complete. `SCTXW`, the words that leave, and `SWAKE` are one step,
lane after lane in ascending order: each writes its element's context, or clears its wait for a wake. During a run of the tensor
the lane's element has its skip bit set or cleared at once, a changed STATE wakes the elements that point at the changed one, and
`SWAKE` clears the element's bit; no other bit changes.
The model's own choices in it: log entries 20, 42, 76. -/
def Obligations.SweepWords : Prop :=
  (
    ∀ (s : State) (c : Ctx) (h : Hdr) (k : BitVec 2) (d x : BitVec 6) (lim : Lim 31) (dst sa : BitVec 8) (scal : Bool) (nb : BitVec 4)
        (mc : BitVec 3) (f : BitVec 2), s.issuer = some c →
      (c.any h = false → passes c s (.swgo h k d x lim) ∧ passes c s (.swait h sa) ∧ passes c s (.swend h) ∧ passes c s (.swake h sa scal k) ∧
        passes c s (.sctxr h dst sa scal k) ∧ passes c s (.sctxw h dst sa scal k) ∧ passes c s (.snbr h dst nb mc) ∧ passes c s (.swqry h d f k)) ∧
      (c.any h = true → accordOf c.l.offer.kernel k.toNat = none → ∀ i, i = .swake h sa scal k ∨ i = .sctxr h dst sa scal k ∨
        i = .sctxw h dst sa scal k ∨ i = .swqry h d f k → answers s i (fun t => c.trapped s t cRESERVED aCALLER 0 0 0)) ∧
      (c.any h = true →
      let ctx : Nat := 4 * c.b.core + k.toNat
      let y := s.sweepCtx ctx
      let mine (r : Run) : Bool := r.w.serial == c.id.serial && r.w.block == c.id.block
      answers s (.swgo h k d x lim) (fun t => t.wave c.id = some ((addPend c.w { tag := s.tick, kind := .other, dst := [.s d.toNat, .s (d.toNat + 1)], ready := true, writes := [.s d.toNat (BitVec.ofNat 64 y.nextNum), .s (d.toNat + 1) (BitVec.ofNat 64 (2 ^ 30 + ctx))] }).advance c.slotB) ∧
        t.sweepCtx ctx = { y with nextNum := y.nextNum + 1, runs := y.runs ++
          [{ num := y.nextNum, seq := s.tick, w := c.id, pc := c.sl.path.pc.toNat, arg := c.w.readS x.toNat, limit := limVal c.l lim,
             behind := y.cur.any (fun r => mine r.run) || y.runs.any mine }] } ∧
        otherWaves s t c.id ∧ { t with waves := s.waves, sweeps := s.sweeps } = s) ∧
      (let places (v : Nat → Option (BitVec 64)) : List (Nat × Nat × Option (BitVec 64)) := match c.tensor with
         | some (_, i) => (c.lanes h).filterMap (fun l => (tfind i.lanes l).map (fun p => (l, p, v l)))
         | none => []
       let left : Mask := c.sl.path.mask &&& ~~~ (c.eff h)
       let leaves (i : Instr) (v : Nat → Option (BitVec 64)) : Prop := answers s i (fun t => ∃ w o, t.wave c.id = some w ∧
         w.spq = c.w.spq ++ [o] ∧ o.kind = .swctx (places v) ∧ otherWaves s t c.id ∧
         (left ≠ 0 → { w with spq := c.w.spq } = c.w.setSlot c.slotB (some
           { c.sl with path := { c.sl.path with pc := c.sl.path.pc + 8, mask := left }, hold := .free })) ∧
         (left = 0 → w.slot c.slotB = none ∧ (∀ z, c.w.slot (!c.slotB) = some z → { w with spq := c.w.spq } = c.w.setSlot c.slotB none)))
       let bad (a : Accord) (l : Nat) : Bool := malformedCx c.l c.id a (c.w.readV64 sa.toNat l).toNat || cxState (c.w.readV64 sa.toNat l).toNat == 255
       leaves (.swend h) (fun _ => none) ∧
       ((∀ a i, c.tensor = some (a, i) → ∀ l ∈ c.lanes h, bad a l = false) → leaves (.swait h sa) (fun l => some (c.w.readV64 sa.toNat l))) ∧
       (∀ a i, c.tensor = some (a, i) → (∃ l ∈ c.lanes h, bad a l = true) →
         answers s (.swait h sa) (fun t => c.trapped s t cRESERVED aCALLER 0 (maskOf ((c.lanes h).filter (bad a))) 0))) ∧
      (∀ a, accordOf c.l.offer.kernel k.toNat = some a →
        let ls : List Nat := if scal = true then [0] else c.lanes h
        let ad (l : Nat) : Int := if scal = true then (c.w.readS sa.toNat).toInt else (c.w.readV sa.toNat l).toNat
        let pos (l : Nat) : Nat := ((ad l).toNat - a.base) / 16
        let data (l : Nat) : BitVec 64 := if scal = true then c.w.readS dst.toNat else c.w.readV64 dst.toNat l
        (ls ≠ [] → (∀ l ∈ ls, 0 ≤ ad l ∧ ad l + 16 ≤ c.l.offer.kernel.scratch ∧ ad l % 16 = 0 ∧ a.base ≤ (ad l).toNat ∧
            (ad l).toNat < a.off a.count ∧ (a.elemAt (pos l)).isSome = true) →
          answers s (.swake h sa scal k) (fun t => c.queued s t (.swake k.toNat (ls.map (fun l => (l, pos l)))) [] 0 (c.eff h)) ∧
          answers s (.sctxr h dst sa scal k) (fun t => c.queued s t (.sctxr scal dst.toNat k.toNat (ls.map (fun l => (l, pos l))))
            (dstRegs .n64 scal dst.toNat) 0 (c.eff h)) ∧
          ((∀ l ∈ ls, malformedCx c.l c.id a (data l).toNat = false) → answers s (.sctxw h dst sa scal k) (fun t =>
            c.queued s t (.sctxw k.toNat (ls.map (fun l => (l, pos l, data l)))) [] 0 (c.eff h)))) ∧
        (let gives (n : Nat) : Prop := latersWave c s (.swqry h d f k) [.s d.toNat] (fun w => c.scalOnly w d.toNat true (BitVec.ofNat 64 n))
         (f = 1 → gives ((List.range a.count).filter (fun p => (a.elemAt p).isSome &&
           cxState (ctxNat s c.id.serial c.id.block a p) != 255)).length) ∧
         (y.cur = none → (f = 0 → gives y.lastSweeps) ∧ (f = 2 → gives y.lastClear) ∧ (f = 3 → gives y.lastNum)) ∧
         (∀ r, y.cur = some r → (f = 2 → gives r.clear.length) ∧ (f = 3 → gives r.run.num) ∧
           (f = 0 → gives (r.sweep + if r.sweepOver (a.chunks c.w.width) = true then 1 else 0))))) ∧
      (∀ a i, c.tensor = some (a, i) →
        let pair : Bool := c.l.offer.kernel.pairNbr.contains c.sl.path.pc.toNat
        answers s (.snbr h dst nb mc) (fun t => c.queued s t (.snbr dst.toNat pair mc.toNat
            ((c.lanes h).map (fun l => (l, (tfind i.lanes l).bind (fun p => nbrOf a p nb.toNat)))))
          (vregs pair dst ++ (if mc = 0 then [] else [.m mc.toNat])) 0 (c.eff h))))) ∧
  (
    ∀ (s : State) (id : WaveId) (x : Wave) (b : Block) (op : SpOp) (l : Launch) (a : Accord), spHead s id = some (x, b, op) →
      s.launch id.serial = some l → sweepTensor x l.offer.kernel op = some a →
      let ps : List Nat := op.left.getD (sweepParts a op.kind)
      let half (p : Nat) : Nat := p / 2 ^ 40
      let unit_ (p : Nat) : Nat := p % 2 ^ 40
      let cx (m : Tab Byte) (p : Nat) : Nat := ofLeBytes (tgets 0 m (a.base + 16 * p + 8) 8)
      let ctx : Nat := 4 * b.core + a.c
      let part (P : Nat → SpOp → Prop) (ws : SpOp → List RegWrite) : Prop :=
        ps ≠ [] → answers s (.scratchpadAccessPerform id) (fun t => ∃ p w op', p ∈ ps ∧ half p = half (ps.headD 0) ∧
          t.wave id = some w ∧ op'.left = some (ps.erase p) ∧ { op' with left := op.left, got := op.got } = op ∧ P p op' ∧
          (ps.erase p ≠ [] → w = { x with spq := op' :: x.spq.tail }) ∧ (ps.erase p = [] → served x op (ws op') w) ∧
          otherWaves s t id ∧ { t with waves := s.waves } = s)
      let whole (es : List Nat) (v : Nat → Tab Byte → Option Nat) (bit : Nat → Nat → Tab Byte → Tab Byte → List Nat → Nat → Prop) : Prop :=
        answers s (.scratchpadAccessPerform id) (fun t => ∃ (w : Wave) (b' : Block) (m : Nat → Tab Byte) (z : Nat → List Nat),
          t.wave id = some w ∧ served x op [] w ∧ t.block id.serial id.block = some b' ∧ { b' with scratch := b.scratch } = b ∧
          m 0 = b.scratch ∧ m es.length = b'.scratch ∧
          (∀ (i e : Nat), es[i]? = some e → m (i + 1) = (match v i (m i) with
            | some y => tputs 0 (m i) (a.base + 16 * e + 8) (leBytes y 8)
            | none => m i)) ∧
          (runningOf s ctx id.serial id.block = none → t.sweeps = s.sweeps) ∧
          (∀ r, runningOf s ctx id.serial id.block = some r → ∃ r', runningOf t ctx id.serial id.block = some r' ∧
            { r' with clear := r.clear } = r ∧ z 0 = r.clear ∧ z es.length = r'.clear ∧
            ∀ (i e : Nat), es[i]? = some e → ∀ q, q ∈ z (i + 1) ↔ bit i e (m i) (m (i + 1)) (z i) q) ∧
          otherWaves s t id ∧ { t with waves := s.waves, blocks := s.blocks, sweeps := s.sweeps } = s)
      let asleep (m : Tab Byte) (p v : Nat) : Prop := bits v 63 56 = 255 ∨ bits v 55 52 = 5 ∨ (bits v 55 52 = 1 ∧
        (match nbrOf a p (bits v 51 48) with | some q => bits (cx m q) 63 56 | none => 255) < bits v 39 32)
      let woken (p q : Nat) : Prop := ∃ e, a.elemAt p = some e ∧ ∃ d ∈ a.nbr, a.posOf ((e.1 : Int) - d.1) ((e.2 : Int) - d.2) = some q
      let writes (es : List Nat) (v : Nat → Tab Byte → Nat) : Prop := whole es (fun i m => some (v i m)) (fun i e m m' z q =>
        (q = e ∧ ¬ asleep m' e (v i m)) ∨ (q ≠ e ∧ q ∈ z) ∨ (bits (v i m) 63 56 ≠ bits (cx m e) 63 56 ∧ woken e q))
      (∀ scal dst k at_, op.kind = .sctxr scal dst k at_ → (∀ y ∈ at_, y.1 < 64) → (at_.map (fun y => y.1)).Nodup →
        part (fun p op' => ps.head? = some p ∧ ∀ y ∈ at_, tgets 0 op'.got (8 * y.1) 8 =
            if y.1 = unit_ p then tgets 0 b.scratch (a.base + 16 * y.2 + 8) 8 else tgets 0 op.got (8 * y.1) 8)
          (fun op' => at_.flatMap (fun y => typeWrites .n64 scal dst y.1 (ofLeBytes (tgets 0 op'.got (8 * y.1) 8))))) ∧
      (∀ dst pair mc at_, op.kind = .snbr dst pair mc at_ → (∀ y ∈ at_, y.1 < 64) →
        let value (op' : SpOp) (y : Nat × Option Nat) : BitVec 64 := extend a.ty
          (match y.2 with | some q => ofLeBytes (op'.bytes y.1 (a.base + 16 * q) a.ty.size) | none => a.fill.toNat)
        let ws (op' : SpOp) : List RegWrite := at_.flatMap (fun y =>
            .v dst y.1 ((value op' y).extractLsb' 0 32) :: (if pair = true then [.v (dst + 1) y.1 ((value op' y).extractLsb' 32 32)] else [])) ++
          (if mc = 0 then [] else [.m mc op.eff (maskOf ((at_.filter (fun y => y.2.isSome)).map (fun y => y.1)))])
        part (fun p op' => ∀ y ∈ at_, ∀ q, y.2 = some q → ∀ j, a.base + 16 * q ≤ j → j < a.base + 16 * q + a.ty.size →
            op'.bytes y.1 j 1 = if y.1 / 32 = half p ∧ j / 64 = unit_ p then [tget 0 b.scratch j] else op.bytes y.1 j 1) ws ∧
        (ps = [] → answers s (.scratchpadAccessPerform id) (fun t => ∃ w, t.wave id = some w ∧ served x op (ws op) w ∧
          otherWaves s t id ∧ { t with waves := s.waves } = s))) ∧
      (∀ k at_, op.kind = .sctxw k at_ → writes (at_.map (fun y => y.2.1)) (fun i _ => ((at_[i]?).map (fun y => y.2.2.toNat)).getD 0)) ∧
      (∀ at_, op.kind = .swctx at_ → writes (at_.map (fun y => y.2.1)) (fun i m => match at_[i]? with
        | some (_, _, some v) => v.toNat
        | some (_, e, none) => 255 * 2 ^ 56 + bits (cx m e) 51 0
        | none => 0)) ∧
      (∀ k at_, op.kind = .swake k at_ → whole (at_.map (fun y => y.2))
        (fun i m => (at_[i]?).bind (fun y => if bits (cx m y.2) 55 52 = 5 then
          some (bits (cx m y.2) 63 56 * 2 ^ 56 + bits (cx m y.2) 51 0) else none))
        (fun _ e _ _ z q => q ∈ z ∨ q = e)))

/-- R325, R328 to R332, R344: a run starts with the skip bits of its elements, evaluates chunk by chunk the elements whose bit
is clear, forms a wave for each group of one STATE with the registers of R328, its view no earlier than what made its lanes
ready, starts its next sweep while a bit is clear and the repeat limit allows, and ends when every bit is set and its waves' writes are performed, its timeline past
its number and released no earlier than those (R221). Evaluated, an element is ready as Table 20-3 says; one that is not sleeps when its wait is for a neighbour
or a wake. A malformed context (log entry 102), a point's error and a handle that the launch does not hold fault at the `SWGO`.
The model's own choices in it: log entries 4, 29, 74, 102. -/
def Obligations.SweepRuns : Prop :=
  ∀ (s : State) (ctx : Nat) (run : Run) (l : Launch) (b : Block) (a : Accord), runPlace s ctx run = some (l, b, a) →
    let x := s.sweepCtx ctx
    let cx (p : Nat) : Nat := ctxNat s run.w.serial run.w.block a p
    let goes (i : Instr) (P : SweepCtx → Prop) : Prop := answers s i (fun t => P (t.sweepCtx ctx) ∧
      { t with sweeps := s.sweeps, blocks := s.blocks, launches := s.launches } = s)
    (∀ rest, x.cur = none → x.runs = run :: rest →
      (∀ p ∈ wavesOf s run.w.serial run.w.block, (l.det = true → p.2.spq = []) ∧ (l.det = false → p.1 = run.w → ∀ o ∈ p.2.spq, run.seq ≤ o.seq)) →
      (l.det = true → run.behind = true → runTurn s ctx run b true = true) →
      goes (.sweepRunStart ctx) (fun y => y.runs = rest ∧ ∃ r, y.cur = some r ∧ r.run = run ∧ r.sweep = 0 ∧ r.chunk = 0 ∧
        r.evaluated = false ∧ r.groups = [] ∧
        ∀ p, p ∈ r.clear ↔ p < a.count ∧ (a.elemAt p).isSome = true ∧ cxState (cx p) ≠ 255 ∧ cxWait (cx p) ≠ 5)) ∧
    (∀ r, x.cur = some r → r.run = run → r.groups = [] → r.waveOn = false →
      let n := if r.evaluated = true then r.chunk + 1 else r.chunk
      let w := l.offer.kernel.width
      n < a.chunks w → runQuiet s ctx run l.det = true → runTurn s ctx run b l.det = true →
      let here : List Nat := r.clear.filter (fun p => n * w ≤ p && p < n * w + w)
      let entry (y : Nat) : Claim := s.claim (ticketEntry (BitVec.ofNat 32 (cxPriv y)))
      let handle (y : Nat) : BitVec 64 := BitVec.ofNat 64 (bits (cxArg y) 11 10 * 2 ^ 30 + bits (cxArg y) 9 0)
      let off (p : Nat) : Prop := cxState (cx p) = 255
      let erred (p : Nat) : Prop := cxWait (cx p) = 2 ∧ ∃ o, pointOf l run.w (cxPoint (cx p)) = some o ∧ (getPoint s o).err ≠ 0
      let foreign (p : Nat) : Prop := cxWait (cx p) = 4 ∧ handleIn l (handle (cx p)) = none
      let faulty (p : Nat) : Prop := malformedCx l run.w a (cx p) = true ∧ ¬ (off p ∧ cxWait (cx p) = 0)
      let sound (p : Nat) : Prop := ¬ faulty p ∧ (off p ∨ (¬ erred p ∧ ¬ foreign p))
      let ready (p : Nat) : Prop := match cxWait (cx p) with
        | 0 => True
        | 1 => bits (cxArg (cx p)) 7 0 ≤ (match nbrOf a p (cxNbr (cx p)) with | some q => cxState (cx q) | none => 255)
        | 2 => ∃ o, pointOf l run.w (cxPoint (cx p)) = some o ∧ (getPoint s o).ph ≠ (cxArg (cx p)).testBit 0
        | 3 => ¬ ((entry (cx p)).st = .making ∧ (entry (cx p)).gen = ticketGen (BitVec.ofNat 32 (cxPriv (cx p))))
        | 4 => ∃ sw c, handleIn l (handle (cx p)) = some (sw, c) ∧ cxPriv (cx p) ≤ timelineOf s sw c
        | _ => False
      let released (p m : Nat) : Prop := (∀ o, cxWait (cx p) = 2 → pointOf l run.w (cxPoint (cx p)) = some o → (getPoint s o).relDone ≤ m) ∧
        (cxWait (cx p) = 3 → (entry (cx p)).relPt ≤ m) ∧
        (∀ sw c, cxWait (cx p) = 4 → handleIn l (handle (cx p)) = some (sw, c) → relPtOf s sw c ≤ m)
      let faults (code attr construct engine value : Nat) : Prop := answers s (.chunkEvaluation ctx) (fun t => ∃ tr,
        t.launch run.w.serial = some { l with traps := l.traps ++ [tr] } ∧ tr.code = code ∧ tr.attr = attr ∧ tr.construct = construct ∧
        tr.engine = (if engine = 0 then 0x4000 + ctx else engine) ∧ tr.value = BitVec.ofNat 64 value ∧ tr.pc = run.pc ∧
        tr.block = run.w.block ∧ tr.wave = run.w.wave ∧ tr.core = b.core ∧
        { t with launches := s.launches, latches := s.latches } = s)
      ((∀ p ∈ here, sound p) →
        goes (.chunkEvaluation ctx) (fun y => ∃ r', y.cur = some r' ∧ r'.chunk = n ∧ r'.evaluated = true ∧ r'.sweep = r.sweep ∧
          (∀ p, p ∈ r'.clear ↔ p ∈ r.clear ∧ ¬ (p ∈ here ∧ (off p ∨ (¬ ready p ∧ (cxWait (cx p) = 1 ∨ cxWait (cx p) = 5))))) ∧
          (∀ p ∈ here, ¬ off p → ready p → released p r'.relPt) ∧
          ∀ st lane p, (∃ ls, (st, ls) ∈ r'.groups ∧ (lane, p) ∈ ls) ↔
            p ∈ here ∧ lane = p - n * w ∧ st = cxState (cx p) ∧ ¬ off p ∧ ready p)) ∧
      (∀ pre p post, here = pre ++ p :: post → (∀ q ∈ pre, sound q) →
        (faulty p → faults cRESERVED aCALLER 0 0 0) ∧
        (¬ faulty p → ¬ off p → foreign p → faults cPROT aCALLER 0 0 (handle (cx p)).toNat) ∧
        (¬ faulty p → ¬ off p → cxWait (cx p) = 2 → ∀ o, pointOf l run.w (cxPoint (cx p)) = some o → (getPoint s o).err ≠ 0 →
          let e := errTrap (getPoint s o).err
          let src := (getPoint s o).src.getD (0, 0, 0)
          faults e.1 e.2.2 e.2.1 src.1 src.2.2))) ∧
    (∀ r st lanes rest n, x.cur = some r → r.run = run → r.groups = (st, lanes) :: rest → r.waveOn = false →
      freeIndex s run.w (ctx % 4) = some n → runQuiet s ctx run l.det = true →
      answers s (.sweepWaveForm ctx) (fun t => ∃ w r', t.wave { run.w with wave := n } = some w ∧ (t.sweepCtx ctx).cur = some r' ∧
        r'.groups = rest ∧ r'.waveOn = true ∧ r.wrote ≤ r'.wrote ∧
        (∀ z i, s.wave { run.w with wave := n } = some z → n < 128 → z.sweep = some i → i.ctx = ctx → i.run = run.num → z.homePt ≤ r'.wrote) ∧ w.width = l.offer.kernel.width ∧
        (∃ i, w.sweep = some i ∧ i.ctx = ctx ∧ i.wave = run.w.wave ∧ i.lanes = lanes) ∧
        (∃ sl, w.a = some sl ∧ sl.path.pc = BitVec.ofNat 32 (a.resume.getD st 0) ∧ sl.path.mask = maskOf (lanes.map (fun p => p.1))) ∧
        (∃ v, tfind t.views (setKey l b.core run.w.serial run.w.block) = some v ∧ r.relPt ≤ v.start) ∧ w.b = none ∧ (∀ i v, i < 16 → l.offer.params[i]? = some v → w.readS i = v) ∧ w.readS 16 = run.arg ∧
        w.readS 17 = BitVec.ofNat 64 r.sweep ∧ w.readS 18 = BitVec.ofNat 64 r.chunk ∧ w.readS 19 = BitVec.ofNat 64 st ∧
        (∀ lane p, lanes = [(lane, p)] → lane < 64 → w.readV 0 lane = BitVec.ofNat 32 p ∧ w.readV 2 lane = BitVec.ofNat 32 (a.base + 16 * p) ∧
          w.readV 4 lane = BitVec.ofNat 32 (bits (cx p) 31 0) ∧ w.readV 5 lane = BitVec.ofNat 32 (bits (cx p) 63 32)) ∧
        otherWaves s t { run.w with wave := n } ∧ { t with waves := s.waves, sweeps := s.sweeps, views := s.views } = s)) ∧
    (∀ r, x.cur = some r → r.run = run → r.sweepOver (a.chunks l.offer.kernel.width) = true → runQuiet s ctx run l.det = true →
      runTurn s ctx run b l.det = true →
      (r.clear ≠ [] → r.sweep + 1 < run.limit → cum b.core r.sweepTick + 1024 ≤ cum b.core s.tick →
        goes (.sweepStart ctx) (fun y => y.cur = some { r with sweep := r.sweep + 1, chunk := 0, evaluated := false, sweepTick := s.tick })) ∧
      (r.clear ≠ [] → run.limit ≤ r.sweep + 1 → answers s (.sweepStart ctx) (fun t => ∃ tr,
        t.launch run.w.serial = some { l with traps := l.traps ++ [tr] } ∧ tr.code = cLIMIT ∧ tr.construct = kSWEEP ∧ tr.pc = run.pc ∧
        tr.value = BitVec.ofNat 64 run.limit ∧ { t with launches := s.launches, latches := s.latches } = s)) ∧
      (let written : Prop := (∀ p ∈ runWaves s ctx run, ∀ q ∈ p.2.reqs, isStg q = false ∧ atHome q = false) ∧
         ∀ p ∈ s.pubs, p.serial = run.w.serial → p.block = run.w.block → p.engine = 0x4000 + ctx → pubPerformed s p.id = true
       (r.clear = [] → written → goes (.sweepRunEnd ctx) (fun y => y.cur = none ∧ y.timeline = max x.timeline run.num ∧ y.lastSweeps = r.sweep + 1 ∧
         y.lastNum = run.num ∧ y.lastClear = 0 ∧ y.runs = x.runs ∧ x.relPt ≤ y.relPt ∧ r.wrote ≤ y.relPt ∧
         (∀ p ∈ runWaves s ctx run, p.2.homePt ≤ y.relPt) ∧ tget 0 s.pubPt (setKey l b.core run.w.serial run.w.block) ≤ y.relPt)) ∧
       (r.clear = [] → ¬ written → idles s (.sweepRunEnd ctx))))

/-! ### Copies (14_copy.md) -/

/-- R248, R250, R255, R260, R313, R314: a copy word is past once its command, the record as it stands, is on its way to the
context of its core, the result pair held; a point that the block lacks is RESERVED. Under the determinism flag a byte that the
copy reads or writes and that conflicts is DETCONFLICT at its address. `LRCHK` answers a member of a well-formed record, and is RESERVED on
another.
The model's own choices in it: log entries 2, 71, 103. -/
def Obligations.CopyWords : Prop :=
  ∀ (s : State) (c : Ctx) (a : CpyArgs) (h : Hdr) (d b : BitVec 8) (kind : Nat) (i : Instr), s.issuer = some c →
    (kind, i) ∈ [(0, Instr.cpy a), (1, .cpyx a), (2, .cpyrIn a), (3, .cpyrOut a)] →
    let ws : List DWord := (List.range 12).map (fun i => c.w.readS (a.b.toNat + i))
    let limit : Nat := 128 * limVal c.l a.lim
    let touched := copyTouches s (c.mapping s) kind ws (c.w.readS a.t.toNat).toInt
    let sends (pt : Option PointRef) : Prop := answers s i (fun t => ∃ w cmd, t.wave c.id = some w ∧
      { w with cmds := c.w.cmds, pend := c.w.pend } = c.w.advance c.slotB ∧ w.cmds = c.w.cmds ++ [cmd] ∧
      w.pend = c.w.pend ++ [{ tag := cmd.tag, kind := .other, dst := [.s a.d.toNat, .s (a.d.toNat + 1)], writes := [], ready := false }] ∧
      cmd.kind = kind ∧ cmd.rcd = ws ∧ cmd.tile = c.w.readS a.t.toNat ∧ cmd.limit = limit ∧ cmd.pt = pt ∧ cmd.d = a.d.toNat ∧
      cmd.ctx = tget 0 c.l.ctxOf c.b.core ∧ cmd.pc = c.sl.path.pc ∧ otherWaves s t c.id ∧
      (∃ b, t.block c.id.serial c.id.block = some b ∧ { b with relaunchable := c.b.relaunchable } = c.b ∧
        (kind = 1 ∨ kind = 3 → b.relaunchable = false)) ∧
      { t with waves := s.waves, blocks := s.blocks, launches := s.launches } = s)
    (c.any a.h = false → passes c s i) ∧
    (c.any a.h = true → (c.det = true → findConflict c.l c.b c.id.block 0 (touched.1.map (fun x => x.1)) = none ∧
        findConflict c.l c.b c.id.block 1 (touched.2.map (fun x => x.1)) = none) →
      ((a.pt = 0xFF → sends none) ∧ (a.pt ≠ 0xFF → ∀ p, pointOf c.l c.id a.pt = some p → sends (some p)))) ∧
    (c.any a.h = true → c.det = true → (a.pt = 0xFF ∨ (pointOf c.l c.id a.pt).isSome = true) → ∀ f : Nat × Touch,
      let named (at_ : List (Nat × BitVec 64)) (v : BitVec 64) : Prop := tfind at_ f.1 = some v →
        answers s i (fun t => c.trapped s t cDETCONFLICT aCALLER 0 0 v ∧
          ∃ y tr, t.launch c.id.serial = some y ∧ y.traps = c.l.traps ++ [tr] ∧ tr.pc2 = f.2.pc ∧ tr.block2 = f.2.block)
      (findConflict c.l c.b c.id.block 0 (touched.1.map (fun x => x.1)) = some f → ∀ v, named touched.1 v) ∧
      (findConflict c.l c.b c.id.block 0 (touched.1.map (fun x => x.1)) = none →
        findConflict c.l c.b c.id.block 1 (touched.2.map (fun x => x.1)) = some f → ∀ v, named touched.2 v)) ∧
    (c.any a.h = true → a.pt ≠ 0xFF → pointOf c.l c.id a.pt = none → answers s i (fun t => c.trapped s t cRESERVED aCALLER 0 0 0)) ∧
    (c.any h = true →
      let ws : List DWord := (List.range 12).map (fun i => c.w.readS (b.toNat + i))
      (∀ r, recOf ws = some r →
        leavesWave c s (.lrchk h .tile d b) (fun w => c.scalOnly w d.toNat true (BitVec.ofNat 64 r.tileBytes)) ∧
        leavesWave c s (.lrchk h .span d b) (fun w => c.scalOnly w d.toNat true (BitVec.ofNat 64 r.span)) ∧
        leavesWave c s (.lrchk h .bytes d b) (fun w => c.scalOnly w d.toNat true (BitVec.ofNat 64 r.bytes))) ∧
      (recOf ws = none → ∀ sel, answers s (.lrchk h sel d b) (fun t => c.trapped s t cRESERVED aCALLER 0 0 0))) ∧
    (c.any h = false → ∀ sel, passes c s (.lrchk h sel d b))

/-- R248, R252, R256, R257: a command that reaches its context takes the next number of the timeline; the operation starts, or
fails with the code of its first failed check; a written piece counts down on the point; and the operation finishes, in order,
once all is written and counted.

R153, R176, R194, R247, R252, R254, R258: at the turn of its context an operation serves one 64-byte unit of its tile. Into
the tile, each of its positions takes the element converted, or the fill value out of range: `CPY` writes the scratchpad, `CPYR`
device memory. Out of the tile, each position in range writes its converted element. Device bytes are written one 32-byte unit
at a time, oldest first, each unit one event of the home order with the highest position's bytes; an element that the copy reads over bytes it has
itself written is whole, as before the copy or as the copy wrote it; under the determinism flag they
join the stores of the block. A position that cannot be reached, an uncorrectable error, or a frame locked since (R244) ends the
operation with its ERR, once the bytes before it are written.
The model's own choices in it: log entries 1, 11, 27, 80, 82, 104, 105. -/
def Obligations.CopyEngine : Prop :=
  (
    ∀ (s : State) (ctx : Nat) (op : CopyOp) (rest : List CopyOp),
      let x := s.copyCtx ctx
      (∀ id w b cmd more, s.wave id = some w → s.block id.serial id.block = some b → w.cmds = cmd :: more → cmd.ctx = ctx →
        (∀ o ∈ w.spq, cmd.seq ≤ o.seq) → (∀ p ∈ cmd.pubs, pubPerformed s p = true) →
        answers s (.copyCommandArrival id) (fun t => ∃ w' o, t.wave id = some w' ∧ { w' with pend := w.pend } = { w with cmds := more } ∧
          w'.pend = w.pend.map (fun p => if p.tag = cmd.tag then { p with ready := true, writes := p.writes ++ [.s cmd.d (BitVec.ofNat 64 x.nextNum), .s (cmd.d + 1) (BitVec.ofNat 64 ctx)] } else p) ∧
          t.copyCtx ctx = { x with nextNum := x.nextNum + 1, ops := x.ops ++ [o] } ∧ o.num = x.nextNum ∧ o.kind = cmd.kind ∧
          o.rcd = cmd.rcd ∧ o.tile = cmd.tile.toInt ∧ o.limit = cmd.limit ∧ o.pt = cmd.pt ∧ o.serial = id.serial ∧ o.block = id.block ∧
          o.started = false ∧ otherWaves s t id ∧ { t with waves := s.waves, copy := s.copy } = s)) ∧
      (x.ops = op :: rest →
        (op.started = false → ∀ r, copyCheck s op = .inr r → answers s (.copyOperationStart ctx) (fun t =>
          t.copyCtx ctx = { x with ops := { op with started := true } :: rest } ∧ { t with copy := s.copy } = s)) ∧
        (op.started = false → ∀ e, copyCheck s op = .inl e → answers s (.copyOperationStart ctx) (fun t => ∃ y, t.copyCtx ctx = y ∧
          y.ops = { op with started := true, failed := true } :: rest ∧ y.timeline = x.timeline ∧
          (∃ f, y.failed = x.failed ++ [f] ∧ f.num = op.num ∧ f.code = e.1 ∧ f.value = e.2 ∧ f.serial = op.serial ∧ f.observed = false) ∧
          (op.pt = none → { t with copy := s.copy } = s) ∧ t.waves = s.waves ∧ t.mem = s.mem)) ∧
        (∀ p r, op.pt = some p → op.failed = false → recOf op.rcd = some r →
          let written := writtenBytes op r
          op.counted < written → (128 ≤ written - op.counted ∨ written = r.tileBytes) →
          let piece := min 128 (written - op.counted)
          let o := getPoint s p
          o.err = 0 → -(2 : Int) ^ 39 + 128 ≤ o.pend →
          (∃ b l, s.block p.serial p.block = some b ∧ s.launch p.serial = some l) →
          answers s (.copyPieceCountdown ctx) (fun t =>
            t.copyCtx ctx = { x with ops := { op with counted := op.counted + piece } :: rest } ∧
            (let q := getPoint t p
             let full : Prop := o.arr = 0 ∧ o.pend = piece
             (full → q.ph = !o.ph ∧ q.pend = 0 ∧ q.arr = o.exp ∧ s.hpt ≤ q.relDone) ∧ (¬ full → q.ph = o.ph ∧ q.pend = o.pend - piece ∧ q.arr = o.arr)) ∧
            t.waves = s.waves ∧ t.mem = s.mem)) ∧
        (∀ r, recOf op.rcd = some r → (op.failed = true ∨ (op.started = true ∧ op.next = r.tileBytes ∧ op.buf = [] ∧ (op.pt = none ∨ op.counted = r.tileBytes))) →
          answers s (.copyFinish ctx) (fun t =>
            t.copyCtx ctx = { x with ops := rest, timeline := max x.timeline op.num, relPt := max x.relPt s.hpt } ∧ { t with copy := s.copy } = s)) ∧
        (∀ r, recOf op.rcd = some r → op.failed = false → op.next < r.tileBytes ∨ op.buf ≠ [] → idles s (.copyFinish ctx)))) ∧
  (
    ∀ (s : State) (ctx : Nat) (op : CopyOp) (rest : List CopyOp) (r : LRec) (b : Block) (l : Launch) (j n : Nat),
      let x := s.copyCtx ctx
      let m : Mapping := (s.part l.offer.part).map
      x.ops = op :: rest → nextCtx s (ctx / 8) = some ctx → recOf op.rcd = some r → r.fty.size ≠ 0 → r.tty.size ≠ 0 → op.kind < 4 →
        s.block op.serial op.block = some b → s.launch op.serial = some l →
      let at_ (i : Nat) : Nat := (op.tile + r.tileOff (j + i)).toNat
      let unit_ (i : Nat) : Int := (op.tile + r.tileOff (j + i)) / 64
      let whole : Prop := op.next = j * r.fty.size ∧ 0 ≤ op.tile ∧ 0 < n ∧ n ≤ 64 ∧ j + n ≤ r.count ∧ (∀ i, i < n → unit_ i = unit_ 0) ∧
        (j + n = r.count ∨ unit_ n ≠ unit_ 0 ∨ n = 64)
      let serves : Prop := op.rem = [] ∧ ∀ u, headUnit op = some u → grows s m op r u = true
      let here (a : Nat) (locs : List Nat) (e : Elem) : Prop := e = .at_ a (locs.map Xl.at_)
      let sound (locs : List Nat) : Prop := ∀ q ∈ locs, badUnit s q = false
      let was (q : Nat) : Byte := (tfind op.old q).getD (memByte s q)
      let reads (locs : List Nat) : List Byte := if locs.all (fun q => (tfind op.old q).isSome) = true then locs.map (memByte s) else locs.map was
      let tileAt (k : Acc) (i : Nat) (locs : List Nat) : Prop := access s m (BitVec.ofInt 64 (op.tile + r.tileOff (j + i))) r.fty.size k = locs.map Xl.at_ ∧ ∀ q ∈ locs, absent q = false
      let leads (t : State) (o : CopyOp) : Prop := ∃ o', t.copyCtx ctx = { x with ops := o' :: rest } ∧
        { o' with turn := op.turn, turnAt := op.turnAt } = { o with turn := op.turn, turnAt := op.turnAt }
      let moves (P : State → Prop) (next : Nat) (more : List (Nat × Nat × Byte × BitVec 64)) : Prop := answers s (.engineTurn ctx) (fun t => P t ∧
        leads t { op with next := next, buf := op.buf ++ more } ∧
        (∀ k, k ≠ ctx → t.copyCtx k = s.copyCtx k) ∧
        { t with copy := s.copy, engineLast := s.engineLast, launches := s.launches, parts := s.parts, blocks := s.blocks, sets := s.sets } = s)
      let bytes (i a : Nat) (locs : List Nat) (v : List Byte) : List (Nat × Nat × Byte × BitVec 64) :=
        (locs.zip v).zipIdx.map (fun p => (j + i, p.1.1, p.1.2, BitVec.ofNat 64 (a + p.2)))
      let gives (more : List (Nat × Nat × Byte × BitVec 64)) : Prop :=
        (l.det = false → moves (fun t => t.sets = s.sets ∧ t.blocks = s.blocks) ((j + n) * r.fty.size) more) ∧
        (l.det = true → moves (fun t => t.blocks = s.blocks ∧
          let key := setKey l op.core op.serial op.block
          (∀ k, k ≠ key → tfind t.sets k = tfind s.sets k) ∧ (more = [] → t.sets = s.sets) ∧
          (more ≠ [] → ∃ y, tfind t.sets key = some y ∧ y.redgs = (tget {} s.sets key).redgs ∧
            (∀ k, k ∈ y.blocks ↔ k = op.block ∨ k ∈ (tget {} s.sets key).blocks) ∧
            (∀ q, (∀ z ∈ more, z.2.1 ≠ q) → tfind y.bytes q = tfind (tget {} s.sets key).bytes q) ∧
            ∀ (i : Nat) z, more[i]? = some z → (∀ k w, i < k → more[k]? = some w → w.2.1 ≠ z.2.1) →
              ∃ d, tfind y.bytes z.2.1 = some d ∧ d.val = z.2.2.1 ∧ d.copy = some { ctx := ctx, num := op.num, pc := op.pc, pt := op.pt })) ((j + n) * r.fty.size) [])
      let ends (code value : Nat) : Prop := answers s (.engineTurn ctx) (fun t => ∃ o f, (t.copyCtx ctx).ops = o :: rest ∧ o.failed = true ∧
        (t.copyCtx ctx).failed = x.failed ++ [f] ∧ f.num = op.num ∧ f.code = code ∧ f.value = value ∧ f.serial = op.serial ∧ f.observed = false ∧
        (∀ q, memByte t q = memByte s q) ∧ t.hist = s.hist ∧ t.waves = s.waves ∧ t.sets = s.sets)
      (∀ (lo dlo : Nat → List Nat) (ad : Nat → Nat), whole → serves → op.kind = 0 ∨ op.kind = 2 →
        (∀ i, i < n → elemOf s m op.old r (j + i) .load = .out ∨ (here (ad i) (lo i) (elemOf s m op.old r (j + i) .load) ∧ sound (lo i))) →
        let v (i : Nat) : List Byte := if elemOf s m op.old r (j + i) .load = .out then r.fillBytes
          else leBytes (convElem r r.tty r.fty (ofLeBytes (reads (lo i)))) r.fty.size
        (op.kind = 0 → moves (fun t => t.sets = s.sets ∧ ∃ b', t.block op.serial op.block = some b' ∧
          { b' with scratch := b.scratch, fe := b.fe, late := b.late } = b ∧ (∀ i, i < n → tgets 0 b'.scratch (at_ i) r.fty.size = v i) ∧
          ∀ q, (∀ i, i < n → q < at_ i ∨ at_ i + r.fty.size ≤ q) → tget 0 b'.scratch q = tget 0 b.scratch q) ((j + n) * r.fty.size) []) ∧
        (op.kind = 2 → (∀ i, i < n → tileAt .store i (dlo i)) → gives ((List.range n).flatMap (fun i => bytes i (at_ i) (dlo i) (v i))))) ∧
      (∀ (lo slo : Nat → List Nat) (ad : Nat → Nat), whole → serves → op.kind = 1 ∨ op.kind = 3 →
        (∀ i, i < n → elemOf s m op.old r (j + i) .store = .out ∨ here (ad i) (lo i) (elemOf s m op.old r (j + i) .store)) →
        (op.kind = 3 → ∀ i, i < n → elemOf s m op.old r (j + i) .store ≠ .out → tileAt .load i (slo i) ∧ sound (slo i)) →
        let src (i : Nat) : List Byte := if op.kind = 1 then tgets 0 b.scratch (at_ i) r.fty.size else reads (slo i)
        gives ((List.range n).flatMap (fun i => if elemOf s m op.old r (j + i) .store = .out then []
          else bytes i (ad i) (lo i) (leBytes (convElem r r.fty r.tty (ofLeBytes (src i))) r.tty.size)))) ∧
      (∀ u, op.rem = [] → headUnit op = some u → grows s m op r u = false →
        let mine := op.buf.filter (fun z => z.2.1 / 32 == u)
        let full : Prop := ∀ i, i < 32 → ∃ z ∈ mine, z.2.1 = 32 * u + i
        (lockedAt s (32 * u) = false → full ∨ badUnit s (32 * u) = false → s.migrations = [] → (∀ a d, redir s a = redir s d → a = d) →
          answers s (.engineTurn ctx) (fun t => t.hpt = s.hpt + 1 ∧
            (∃ old, leads t { op with buf := op.buf.filter (fun z => z.2.1 / 32 != u), old := old } ∧
              (∀ z ∈ mine, tfind old z.2.1 = some (was z.2.1)) ∧ ∀ q, (∀ z ∈ mine, z.2.1 ≠ q) → tfind old q = tfind op.old q) ∧
            (∀ q, (∀ z ∈ mine, z.2.1 ≠ q) → memByte t q = memByte s q) ∧
            (∀ (i : Nat) z, mine[i]? = some z → (∀ k w, i < k → mine[k]? = some w → w.2.1 ≠ z.2.1) → memByte t z.2.1 = z.2.2.1) ∧
            t.waves = s.waves ∧ t.blocks = s.blocks ∧ t.sets = s.sets)) ∧
        (lockedAt s (32 * u) = false → ¬ full → badUnit s (32 * u) = true → ∀ z, mine.head? = some z → ends 6 z.2.2.2.toNat) ∧
        (lockedAt s (32 * u) = true → ∀ z, mine.head? = some z → ends 2 z.2.2.2.toNat)) ∧
      (op.rem = [] → op.buf = [] → op.next = j * r.fty.size → j < r.count →
        let load : Prop := op.kind = 0 ∨ op.kind = 2
        let k : Acc := if op.kind = 0 ∨ op.kind = 2 then .load else .store
        (∀ c v, elemOf s m op.old r j k = .bad c v → ends c v) ∧
        (load → ∀ a locs, here a locs (elemOf s m op.old r j .load) → ¬ sound locs → ends 6 a)) ∧
      ((∃ q ∈ op.rem, q.got = none) → (∀ u, headUnit op = some u → grows s m op r u = true) →
        answers s (.engineTurn ctx) (fun t => leads t op ∧ (∀ k, k ≠ ctx → t.copyCtx k = s.copyCtx k) ∧
          { t with engineLast := s.engineLast, copy := s.copy } = s)))

/-! ### The host (12_quotation.md, 25_outside.md) -/

/-- R224, R234, R236, R237, R317, R377, R378, R387: the oldest doorbell of a partition is answered with one record that waits for the
ring: QUOTE by the request's own serial, with what the Nose answers the descriptor at its address: an offer that stays open, and that follows the host's writes before its doorbell, or a refusal (RESET, RESOURCE while a self-test runs);
ACCEPT by the first of CLOSED, STALE, BALANCE and ACCEPTED that holds, the last taking EBOUND from the balance, moving the
generation and giving up migrations onto pages that it locks; DECLINE by CLOSED; a malformed window by MALFORMED. RING_RECORD_WRITE writes the oldest record to the slot of HEAD.

R225, R226, R229 to R232, R234, R235, R290, R315, Table 12-2: what the Nose answers a request. A descriptor that cannot be read or breaks Table
12-1, and a kernel record that cannot be read or is malformed, are refused REQUEST with no PC; code beyond 131,072 words or beyond
its image SIZE; a word that decodes to nothing ILLEGAL at a word no later. An offer is made only where every check holds: the request's
shape is its own, every word of the code is legal, no word of Table 12-3 stands in a deterministic kernel, the allotment and the
cohorts keep their limits, no floor above the one that the partition's clusters can hold, a partition that takes requests, and a
placement within the slots, the scratchpad and the 2^62 of the bounds, on cores that the partition owns and that have the features.
The model's own choices in it: log entries 45, 46, 49, 50, 52, 53, 59, 83, 84, 85, 98, 99. -/
def Obligations.HostRequests : Prop :=
  (
    ∀ (s : State) (part win : Nat),
      let q := s.part part
      (∀ b rest, q.bells = b :: rest → b.win = win →
        let posts (t : State) (kind : Nat) (bytes : List Byte) : Prop := (t.part part).bells = rest ∧
          (t.part part).held = q.held ++ [{ kind := kind, bytes := bytes, tag := b.tag, vec := vQUOTE }]
        let answered (t : State) (result : Nat) : Prop := posts t 4 (leBytes b.arg0 8 ++ [BitVec.ofNat 8 result, 0, 0, 0, 0, 0, 0, 0])
        let but (t : State) (id : Nat) : Prop := (t.part part).offers = q.offers.filter (fun x => x.serial != id)
        (b.does = 1 → answers s (.quote part win) (fun t =>
          let n : Nat := s.lastSerial + 1
          let a : Answer := quoteAnswer { s.modPart part (fun q => { q with bells := rest }) with lastSerial := n } part n b
          posts t 1 (a.record n) ∧ t.lastSerial = n ∧ (b.inReset = true → a = .refused 0x0C noPc) ∧
          (b.inReset = false → s.selfTest = true → a = .refused rRESOURCE noPc) ∧
          (b.inReset = false → s.selfTest = false →
            let z := nose { s.modPart part (fun q => { q with bells := rest }) with lastSerial := n } part n b.tag (BitVec.ofNat 64 b.arg0)
            (∀ r o, z = .refused r o → a = .refused r o) ∧ (∀ o, z = .offered o → a = .offered { o with hpt := b.hpt })) ∧
          (∀ r o, a = .refused r o → (t.part part).offers = q.offers) ∧
          (∀ o, a = .offered o → (t.part part).offers = q.offers ++ [o] ∧ o.hpt = b.hpt ∧ o.serial = n ∧ o.gen = s.gen ∧ o.part = part) ∧
          { t with parts := s.parts, lastSerial := s.lastSerial } = s)) ∧
        (b.does = 2 → (∀ o ∈ q.offers, o.serial ≠ b.arg0) → answers s (.accept part win) (fun t => answered t 1 ∧ { t with parts := s.parts } = s)) ∧
        (b.does = 2 → ∀ o, q.offers.find? (fun x => x.serial == b.arg0) = some o →
          ((b.arg1 ≠ s.gen ∨ o.gen ≠ s.gen) → answers s (.accept part win) (fun t => answered t 2 ∧ but t o.serial ∧ { t with parts := s.parts } = s)) ∧
          (b.arg1 = s.gen → o.gen = s.gen → q.balance < o.ebound →
            answers s (.accept part win) (fun t => answered t 3 ∧ (t.part part).offers = q.offers ∧ { t with parts := s.parts } = s)) ∧
          (b.arg1 = s.gen → o.gen = s.gen → (o.ebound : Int) ≤ q.balance → o.part = part → answers s (.accept part win) (fun t =>
            answered t 4 ∧ but t o.serial ∧ (t.part part).balance = q.balance - o.ebound ∧ t.gen = s.gen + 1 ∧
            (∃ l, t.launch o.serial = some l ∧ l.offer = o ∧ l.st = .accepted ∧ l.traps = [] ∧ l.done = 0) ∧
            (∀ c ∈ o.cores, ∀ r, (t.cluster (clusterOf c)).target = some r → floorOf t (clusterOf c) ≤ r) ∧
            (∀ n, n ≠ o.serial → ∀ l, s.launch n = some l → ∃ l', t.launch n = some l' ∧
              { l' with events := l.events, nevents := l.nevents, spans := l.spans } = l) ∧
            (∀ g, g ∈ t.migrations ↔ g ∈ s.migrations ∧ lockedPage t (pageAt t g.new_) = false) ∧
            { t with parts := s.parts, launches := s.launches, clusters := s.clusters, gen := s.gen, migrations := s.migrations } = s))) ∧
        (b.does = 3 → answers s (.decline part win) (fun t => answered t 1 ∧ but t b.arg0 ∧ { t with parts := s.parts } = s)) ∧
        (b.does = 5 → answers s (.malformed part win) (fun t => answered t 5 ∧ (t.part part).offers = q.offers ∧ { t with parts := s.parts } = s)) ∧
        (b.does ≠ 1 → idles s (.quote part win)) ∧ (b.does ≠ 2 → idles s (.accept part win))) ∧
      (∀ r rest, q.held = r :: rest →
        (q.ringslots = 0 ∨ q.head - q.tail = q.ringslots → idles s (.ringRecordWrite part)) ∧
        (q.ringslots ≠ 0 → q.head - q.tail ≠ q.ringslots →
          let a : Nat := q.ringbase.toNat + 2048 * (q.head.toNat % q.ringslots.toNat)
          answers s (.ringRecordWrite part) (fun t => (t.part part).held = rest ∧ (t.part part).head = q.head + 1 ∧
            (t.part part).irqs = (if r.vec < 6 then r.vec :: q.irqs else q.irqs) ∧
            tgets 0 t.hostMem (a + 16) r.bytes.length = r.bytes ∧ tgets 0 t.hostMem a 1 = [BitVec.ofNat 8 r.kind] ∧
            tgets 0 t.hostMem (a + 1) 1 = [BitVec.ofNat 8 (1 + q.head.toNat / q.ringslots.toNat % 2)] ∧
            tgets 0 t.hostMem (a + 2) 2 = leBytes r.bytes.length 2 ∧ tgets 0 t.hostMem (a + 8) 8 = leBytes r.tag.toNat 8 ∧
            (∀ j, j < a ∨ a + 16 + r.bytes.length ≤ j → tget 0 t.hostMem j = tget 0 s.hostMem j) ∧
            { t with parts := s.parts, hostMem := s.hostMem } = s)))) ∧
  (
    ∀ (s : State) (part n : Nat) (tag addr : BitVec 64),
      let m := (s.part part).map
      let a : Answer := nose s part n tag addr
      let no (r : Nat) : Prop := a = .refused r noPc
      (addr.toNat % 256 ≠ 0 → no rREQUEST) ∧ (readDev s m addr 256 = none → no rREQUEST) ∧
      (∀ d, addr.toNat % 256 = 0 → readDev s m addr 256 = some d →
        let k : Ask := askOf d
        (field d 0 8 % 128 ≠ 0 ∨ field d 0x0C 4 = 0 ∨ field d 0x10 1 = 0 ∨ 64 < field d 0x10 1 ∨ 16 < field d 0x11 1 ∨ 2 < field d 0x12 1 ∨
          1 < field d 0x13 1 ∨ 20 < field d 0x14 1 ∨ 192 < field d 0x18 4 ∨ field d 0x16 2 ≠ 0 ∨ field d 0xC0 64 ≠ 0 ∨
          (field d 0x12 1 = 1 ∧ field d 0x1C 4 < 65536) → no rREQUEST) ∧
        (askOk d k = false → no rREQUEST) ∧ (mapped s m k.image = false → no rREQUEST) ∧ (readDev s m k.krec k.kreclen = none → no rREQUEST) ∧
        (∀ kb, askOk d k = true → mapped s m k.image = true → readDev s m k.krec k.kreclen = some kb →
          (readRecord kb = none → no rREQUEST) ∧
          (∀ r, readRecord kb = some r →
            (131072 < r.k.codeLen ∨ k.imglen < 8 * r.k.codeLen → no rSIZE) ∧ (readDev s m k.image k.imglen = none → no rSIZE) ∧
            (∀ img, r.k.codeLen ≤ 131072 → 8 * r.k.codeLen ≤ k.imglen → readDev s m k.image k.imglen = some img →
              let ws := wordsOf r.k.codeLen img
              (∀ j w, ws[j]? = some w → decode w = none → ∃ p, p ≤ j ∧ a = .refused rILLEGAL (8 * p)) ∧
              (∀ o, a = .offered o →
                (∀ w ∈ ws, (decode w).isSome = true) ∧ o.serial = n ∧ o.part = part ∧ o.gen = s.gen ∧ o.tag = tag ∧ o.klass = k.klass ∧
                o.nblock = k.nblock ∧ o.waves = k.waves ∧ o.image = k.image ∧ o.imglen = k.imglen ∧ o.params = k.params ∧
                o.allot = (if k.allot = 0 then r.k.regs / 16 else k.allot) ∧ k.allot ≤ r.k.regs / 16 ∧
                o.kernel.det = (r.k.det || k.flags = 1) ∧ o.g2400 = hasSecondTier s m ∧ o.hAtomics = hasRemote m ∧
                (o.kernel.det = true → ∀ w ∈ ws, ∀ i, decode w = some i → match i with
                  | .atg _ _ => False | .casg _ => False | .ldg home _ => home = false | .rvarr _ _ _ rlx _ _ => rlx = false
                  | .rvtest _ _ _ => False | .tlread _ _ _ => False | .swqry _ _ _ _ => False | .redg _ x => x.ty ≠ .f32 | _ => True) ∧
                (∀ c ∈ o.kernel.accords, c.base + 16 * c.count ≤ o.kernel.scratch) ∧ (∀ c ∈ o.kernel.cohorts, ∀ x ∈ c.ranges,
                  x.2 < o.nblock ∧ (o.kernel.cohorts.filter (fun e => e.has x.1)).length ≤ 4) ∧
                o.floor = (if k.floor = 0 then floorCap s part else k.floor) ∧ o.floor ≤ floorCap s part ∧
                (s.part part).ctrl.getLsbD 0 = true ∧ (s.part part).breaking = false ∧ o.q ≤ 2 ^ 62 ∧ o.ebound ≤ 2 ^ 62 ∧ 1 ≤ o.r ∧
                (∀ sl, sl < 4 → o.r * slotWaves o.waves sl ≤ 16) ∧ o.scratch = o.r * roundScratch o.kernel.scratch ∧ o.scratch ≤ 1572864 ∧
                (k.cores ≠ 0 → o.cores.length ≤ k.cores) ∧ (o.kernel.det = true → o.kernel.hasMatrix = true → o.r = 1) ∧
                (∀ c ∈ o.cores, c < 192 ∧ (s.part part).clusters.getLsbD (clusterOf c) = true ∧ hasFeats s c o.feats = true ∧
                  s.lostQuads.contains (quadOf c) = false ∧ (o.klass = 0 → ∀ l ∈ s.launches, l.2.offer.cores.contains c = false))))))))

/-- R178, R181, R285, R286, R369, R376, R377, R379, R380, R382: what each write of the host or the board leaves: TAIL moves within the
records written; a ring register or a partition's configuration is refused while it is in use; a commit of the staged mapping
takes effect at once when it is an addition or no launch is there, and otherwise waits; FORCE takes effect now; a grant joins its
balance or overflows, and a virtual function is answered REFUSED; a doorbell keeps the window as it stands. Nothing acts on a
partition 16 or above.

R376, R379, R380, Tables 25-1, 25-3, 25-4: what reading a register returns, little-endian, and that it changes nothing else; a reserved byte
reads 0, and a read of a partition's STATUS clears its bit 10.
The model's own choices in it: log entries 36, 37, 43, 90. -/
def Obligations.HostRegisters : Prop :=
  (
    ∀ (s : State) (part : Nat) (v : BitVec 64) (v32 : BitVec 32),
      let q := s.part part
      let sets (i : Instr) (q' : Part) : Prop := answers s i (fun t => t.part part = q' ∧ { t with parts := s.parts } = s)
      let live : Prop := ∃ p ∈ s.launches, p.2.offer.part = part
      (16 ≤ part → (∀ base reg off data, idles s (.tailWrite part v32) ∧ idles s (.ringSet part base v) ∧ idles s (.partitionConfigWrite part reg v) ∧
        idles s (.commit part) ∧ idles s (.force part) ∧ idles s (.registerWrite false part off data))) ∧
      (part < 16 →
      ((q.head - v32).toNat ≤ (q.head - q.tail).toNat → sets (.tailWrite part v32) { q with tail := v32, status := 0 }) ∧
      ((q.head - q.tail).toNat < (q.head - v32).toNat → sets (.tailWrite part v32) { q with status := 2 }) ∧
      (∀ base, (q.head ≠ q.tail ∨ live) → sets (.ringSet part base v) { q with status := 1 }) ∧
      (q.head = q.tail → ¬ live →
        (v.toNat % 4096 = 0 → sets (.ringSet part true v) { q with ringbase := v, head := 0, tail := 0, status := 0 }) ∧
        (v.toNat % 4096 ≠ 0 → sets (.ringSet part true v) { q with status := 2 }) ∧
        (∀ k, 1 ≤ k → k ≤ 12 → v = BitVec.ofNat 64 (2 ^ k) →
          sets (.ringSet part false v) { q with ringslots := BitVec.ofNat 32 (2 ^ k), head := 0, tail := 0, status := 0 })) ∧
      (∀ reg, live → sets (.partitionConfigWrite part reg v) { q with status := 1 }) ∧
      (∀ reg, ¬ live → configured s part reg v = none → sets (.partitionConfigWrite part reg v) { q with status := 2 }) ∧
      (∀ reg q', ¬ live → configured s part reg v = some q' → answers s (.partitionConfigWrite part reg v) (fun t =>
        t.part part = { q with ctrl := q'.ctrl, clusters := q'.clusters, quota := q'.quota, hotbase := q'.hotbase, hotcount := q'.hotcount, status := 0 } ∧
        (q' = q → t.gen = s.gen) ∧ (q'.clusters ≠ q.clusters ∨ q'.quota ≠ q.quota → t.gen = s.gen + 1) ∧
        t.waves = s.waves ∧ t.launches = s.launches ∧ t.hostMem = s.hostMem)) ∧
      (q.staged.ok = false → sets (.commit part) { q with status := 3 } ∧ sets (.force part) { q with status := 3 }) ∧
      (let kept : Part := { q with map := q.next.prune s, heldMap := none, status := 0 }
       let fresh : Part := { q with map := ({ q.next with held := [] } : Mapping).prune s, heldMap := none, status := 0 }
       let broken : Prop := isAddition s part q.map q.next = false
       let breaks (i : Instr) : Prop := answers s i (fun t => t.part part = fresh ∧ t.gen = s.gen + 1 ∧ { t with parts := s.parts, gen := s.gen } = s)
       let forced : Prop := answers s (.force part) (fun t => (t.part part).map.ranges = q.staged.ranges ∧ (t.part part).map.ptroot = q.staged.ptroot ∧
         (t.part part).map.hwins = q.staged.hwins ∧ (t.part part).map.held = [] ∧ (t.part part).heldMap = none ∧ (t.part part).status = 0)
       q.staged.ok = true →
        (¬ broken → sets (.commit part) kept ∧ (q.map.held = [] → sets (.force part) kept) ∧
          (q.map.held ≠ [] → ¬ live → breaks (.force part)) ∧ (q.map.held ≠ [] → live → forced)) ∧
        (broken → (¬ live → breaks (.commit part) ∧ breaks (.force part)) ∧
          (live → sets (.commit part) { q with heldMap := some q.next, status := 4 } ∧ forced))) ∧
      (q.breaking = true → ¬ live → answers s (.breakingChangeApply part) (fun t =>
        t.part part = { q with map := ({ q.heldMap.getD q.map with held := [] } : Mapping).prune s, heldMap := none } ∧ t.gen = s.gen + 1 ∧
          { t with parts := s.parts, gen := s.gen } = s)) ∧
      (q.breaking = false ∨ live → idles s (.breakingChangeApply part)) ∧
      (∀ amount low, part < 16 → amount ≤ 2 ^ 62 → low < 2 ^ 64 →
        let cmd : List Byte := leBytes part 1 ++ leBytes 0 7 ++ leBytes amount 8 ++ leBytes low 8 ++ leBytes 0 8
        (q.balance + amount ≤ 2 ^ 62 → answers s (.energyGrant .physicalFunction cmd) (fun t => (t.part part).balance = q.balance + amount ∧
          (t.part part).lowmark = (if low = 2 ^ 64 - 1 then q.lowmark else BitVec.ofNat 64 low) ∧ t.grantStat = 1 ∧ t.grants = s.grants + 1 ∧
          { t with parts := s.parts, grantStat := s.grantStat, grants := s.grants } = s)) ∧
        ((2 : Int) ^ 62 < q.balance + amount → answers s (.energyGrant .board cmd) (fun t => t.mgmt = { kind := 1, a := 2, value := 0 } :: s.mgmt ∧
          { t with mgmt := s.mgmt } = s)) ∧ exec (.energyGrant .virtualFunction cmd) s = .next { s with vfGrant := 3 }) ∧
      (∀ w o data, w < 16 → o ≤ 7 → 7 < o + data.length → o + data.length ≤ 64 →
        answers s (.registerWrite false part (64 * w + o) data) (fun t => ∃ b, (t.part part).bells = q.bells ++ [b] ∧ b.win = w ∧ b.inReset = q.resetting ∧ b.hpt = s.hpt ∧
          (∀ j, j < 64 → b.bytes[j]? = some (if o ≤ j ∧ j < o + data.length then data.getD (j - o) 0 else tget 0 q.win (64 * w + j))) ∧
          { t with parts := s.parts } = s))) ∧
      exec (.transportFlagWrite v) s = .next { s with transport := v.getLsbD 0 } ∧
      answers s (.routingEntryWrite v32) (fun t => tget 0 t.routes (s.rtindex.toNat % 2 ^ 21) = (v32 &&& 0x1FFFFF) ∧
        (∀ k, k ≠ s.rtindex.toNat % 2 ^ 21 → tget 0 t.routes k = tget 0 s.routes k) ∧ t.waves = s.waves ∧ t.mem = s.mem) ∧
      (∀ d, exec (.registerWrite true part 0x20028 (leBytes d 8)) s = .next { s with transport := d.testBit 0 })) ∧
  (
    ∀ (s : State) (part : Nat), part < 16 →
      let q := s.part part
      let reads (pf : Bool) (off : Nat) (bs : List Byte) : Prop :=
        exec (.statusRead ⟨pf, part, off, bs.length⟩) s = .next { s with hostReads := (off, 0, bs) :: s.hostReads }
      let b : Nat := 0x2000 * part
      reads false 0x1000 (leBytes q.ringbase.toNat 8) ∧ reads false 0x1008 (leBytes q.ringslots.toNat 4) ∧
      reads false 0x100C (leBytes q.tail.toNat 4) ∧ reads false 0x1010 (leBytes q.head.toNat 4) ∧ reads false 0x1014 (leBytes 0 4) ∧
      (∀ w, w < 16 → reads false (64 * w) (tgets 0 q.win (64 * w) 64)) ∧
      reads true b (leBytes q.ctrl.toNat 8) ∧ reads true (b + 0x08) (leBytes q.clusters.toNat 4) ∧ reads true (b + 0x0C) (leBytes q.quota.toNat 4) ∧
      reads true (b + 0x10) (leBytes q.staged.ptroot.toNat 8) ∧ reads true (b + 0x18) (leBytes q.hotbase.toNat 8) ∧
      reads true (b + 0x20) (leBytes q.hotcount.toNat 4) ∧ reads true (b + 0x28) (leBytes (BitVec.ofInt 64 q.balance).toNat 8) ∧
      reads true (b + 0x30) (leBytes q.lowmark.toNat 8) ∧ reads true (b + 0x40) (leBytes 0 8) ∧ reads true (b + 0x48) (leBytes 0 8) ∧
      (∀ e, e < 64 → let x : RangeEnt := tget {} q.staged.ranges e
        reads true (b + 0x800 + 32 * e) (leBytes x.w0.toNat 8 ++ leBytes x.w1.toNat 8 ++ leBytes x.w2.toNat 8 ++ leBytes x.w3.toNat 8)) ∧
      reads true 0x20020 (leBytes (s.grantStat + 256 * s.grants.toNat) 8) ∧ reads true 0x20028 (leBytes s.transport.toNat 8) ∧
      reads true 0x20030 (leBytes s.gen 8) ∧ reads true 0x20038 (leBytes s.house 8) ∧ reads true 0x20040 (leBytes s.rtindex.toNat 4) ∧
      answers s (.statusRead ⟨true, part, b + 0x38, 8⟩) (fun t => t.part part = { q with discarded := false } ∧ t.hostReads = (b + 0x38, 0,
        leBytes (q.status + 256 * q.resetting.toNat + 512 * q.breaking.toNat + 1024 * q.discarded.toNat) 8) :: s.hostReads ∧
        (∀ p, p ≠ part → t.part p = s.part p) ∧ { t with parts := s.parts, hostReads := s.hostReads } = s))

/-- R176, R181, R348, R371, R372, R394: a reset closes the partition's offers, frees its claim entries and marks the partition until
RESET_DONE raises its interrupt, after the records of the launches that it ended; a function-level reset also clears the mapping, the windows and the ring. The host's writes reach home
memory, each 32-byte unit one event, or are discarded whole with STATUS bit 10 and a notice; its reads return home bytes or an
error. A write into a partition's page tables that breaks translations waits behind the bytes in force while the partition has a
launch, and moves the generation where it has none.
The model's own choices in it: log entries 1, 27, 38. -/
def Obligations.ResetsAndHostAccess : Prop :=
  ∀ (s : State) (part addr : Nat) (data : List Byte), tsorted s.claims = true →
    let q := s.part part
    let quiet (t : State) : Prop := (t.part part).resetting = true ∧ (t.part part).offers = [] ∧
      ∀ e, (t.claim e).st ≠ .free → (t.claim e).part ≠ part
    (16 ≤ part → idles s (.reset part) ∧ idles s (.functionLevelReset part) ∧ idles s (.hostWrite part addr data) ∧
      ∀ len, idles s (.hostRead part addr len)) ∧
    (part < 16 → answers s (.reset part) (fun t => quiet t ∧ (t.part part).status = 0)) ∧
    (part < 16 → answers s (.functionLevelReset part) (fun t => quiet t ∧ (t.part part).map = {} ∧ (t.part part).staged = {} ∧ (t.part part).heldMap = none ∧
      (t.part part).win = [] ∧ (t.part part).bells = [] ∧ (t.part part).ringslots = 0 ∧ (t.part part).head = 0 ∧ (t.part part).tail = 0)) ∧
    (let ends : Prop := ∃ r ∈ q.held, r.kind = 2 ∨ r.kind = 3
     (q.resetting = true → ¬ ends → answers s (.resetDone part) (fun t => t.part part = { q with resetting := false, irqs := vRESET :: q.irqs } ∧
      { t with parts := s.parts } = s)) ∧
    (q.resetting = false ∨ ends → idles s (.resetDone part))) ∧
    (part < 16 → data ≠ [] → addr % 32 + data.length ≤ 32 →
      let xl (k : Acc) := translate s q.map (BitVec.ofNat 64 addr) k
      let discards (c : Nat) : Prop := answers s (.hostWrite part addr data) (fun t => t.part part = { q with discarded := true } ∧
        t.mgmt = { kind := 2, a := c, value := BitVec.ofNat 64 addr } :: s.mgmt ∧ { t with parts := s.parts, mgmt := s.mgmt } = s)
      let fails (status : Nat) : Prop := exec (.hostRead part addr data.length) s = .next { s with hostReads := (addr, status, []) :: s.hostReads }
      let tables (p : Nat) (loc : Nat) : Bool :=
        anyTable s (s.part p).map ((List.range data.length).map (fun i => loc + i)) 4 (s.part p).map.ptroot.toNat
      let writes (loc : Nat) (P : State → Prop) : Prop := s.migrations = [] → (∀ a d, redir s a = redir s d → a = d) →
        answers s (.hostWrite part addr data) (fun t => t.hpt = s.hpt + 1 ∧ (∀ i x, data[i]? = some x → memByte t (loc + i) = x) ∧
          (∀ a, (a < loc ∨ loc + data.length ≤ a) → memByte t a = memByte s a) ∧ P t)
      (∀ loc, xl .store = .at_ loc →
        (absent loc = true → discards cXLATE) ∧ (absent loc = false → lockedAt s loc = true → discards cPROT) ∧
        (absent loc = false → lockedAt s loc = false → badUnit s loc = true → data.length < 32 → discards cUNCORR) ∧
        (absent loc = false → lockedAt s loc = false → badUnit s loc = false →
          ((∀ x ∈ s.parts, tables x.1 loc = false) → writes loc (fun t => { t with mem := s.mem, hist := s.hist, bad := s.bad } = s)) ∧
          (∀ p, (∀ x ∈ s.parts, tables x.1 loc = true ↔ x.1 = p) → (∃ y, s.parts.filter (fun x => x.1 == p) = [y]) → writes loc (fun t =>
            let m := (s.part p).map
            let n : Mapping := { m with held := m.held.filter (fun b => !((List.range data.length).map (fun i => loc + i)).contains b.1) }
            let u : State := { t with parts := s.parts, gen := s.gen }
            let kept : Bool := treeKept s u m n 4 0 m.ptroot.toNat (.table m.ptroot.toNat) && pricingKept s u p m n
            { t with mem := s.mem, hist := s.hist, bad := s.bad, parts := s.parts, gen := s.gen } = s ∧
            (kept = true → t.gen = s.gen ∧ (t.part p).map.held = n.held) ∧
            (kept = false → (¬ ∃ l ∈ s.launches, l.2.offer.part = p) → t.gen = s.gen + 1 ∧ (t.part p).map.held = n.held) ∧
            (kept = false → (∃ l ∈ s.launches, l.2.offer.part = p) → t.gen = s.gen ∧ ∀ i, i < data.length → memByte t (loc + i) ≠ memByte s (loc + i) →
              tfind m.held (loc + i) = none → tfind (t.part p).map.held (loc + i) = some (memByte s (loc + i))))))) ∧
      (∀ c a, xl .store = .bad c a → discards c) ∧ (∀ d x, xl .store = .remote d x → discards cPROT) ∧
      (∀ loc, xl .load = .at_ loc → absent loc = false → badUnit s loc = false →
        exec (.hostRead part addr data.length) s = .next { s with
          hostReads := (addr, 0, (List.range data.length).map (fun i => memByte s (loc + i))) :: s.hostReads }) ∧
      (∀ loc, xl .load = .at_ loc → absent loc = false → badUnit s loc = true → exec (.hostRead part addr data.length) s = .next { s with
          hostReads := (addr, 2, []) :: s.hostReads, mgmt := { kind := 3, a := 0, value := BitVec.ofNat 64 addr } :: s.mgmt }) ∧
      (∀ loc, xl .load = .at_ loc → absent loc = true → fails 1) ∧
      (xl .load = .bad cXLATE aCALLER → fails 1) ∧ (xl .load = .bad cPROT aCALLER → fails 2))

/-! ### Scheduling (17_scheduling.md, 16_energy.md, 23_faults_partitions.md) -/

/-- R15, R92, R223, R230, R297 to R299, R304, R317, R318: the lowest unstarted block of a die starts on a core that can take it, its waves at offset 0
with every lane active and the launch parameters in `s0` up, their view no earlier than the host's writes before the request; a cohort group starts together. A die that has run dry asks, and is handed
the highest-indexed half of the other's blocks. A saved block resumes on the first core that can hold it, registers kept, the
core's cycles for it counted; what is saved of a cohort group resumes together.
The model's own choices in it: log entries 35, 89. -/
def Obligations.PlacementAndStealing : Prop :=
  ∀ (s : State) (serial die core : Nat) (l : Launch), s.launch serial = some l → die < 2 →
    (∀ lo hi rest, l.own die = Item.range lo hi :: rest → l.live = true → dieOf core = die → roomToStart s serial core l = true → turnAllows s serial l core = true →
      lostBelow s serial l lo = none → noneSavedBelow s serial [(lo, core)] = true → affinityOk l.offer [(lo, core)] = true →
      answers s (.blockPlace serial die [core]) (fun t =>
        (∃ b, t.block serial lo = some b ∧ b.core = core ∧ b.place = .resident ∧ b.startDie = die ∧ b.scratch = [] ∧ b.fe = [] ∧
          b.queues = [] ∧ b.points = [] ∧ b.relaunchable = true ∧ b.preempts = 0) ∧
        (∃ v, tfind t.views (setKey l core serial lo) = some v ∧ v.seen = [] ∧ l.offer.hpt ≤ v.start) ∧
        (∀ k, k < l.offer.waves → ∃ w, t.wave ⟨serial, lo, k⟩ = some w ∧ w.width = l.offer.kernel.width ∧ w.b = none ∧ w.stack = [] ∧
          w.a = some { path := { pc := 0, mask := allLanes l.offer.kernel.width, join := none, parked := false } } ∧
          (∀ r, w.readS r = (l.offer.params.take 16).getD r 0) ∧ (∀ r i, w.readV r i = 0) ∧ (∀ r, r ≠ 0 → w.readM r = 0)) ∧
        (∃ l', t.launch serial = some l' ∧ l'.st = .running ∧ l'.done = l.done ∧ l'.traps = l.traps ∧
          l'.own die = (if lo < hi then Item.range (lo + 1) hi :: rest else rest) ∧ l'.own (1 - die) = l.own (1 - die)) ∧
        (∀ k, k ≠ bkey serial lo → tfind t.blocks k = tfind s.blocks k) ∧ t.mem = s.mem ∧ t.hist = s.hist ∧ t.parts = s.parts)) ∧
    (∀ ms rest cores u, l.own die = Item.group ms :: rest → l.live = true → cores.length = ms.length → ms.Nodup →
      lostBelow s serial l (ms.headD 0) = none → (∃ c ∈ cores, turnAllows s serial l c = true) → noneSavedBelow s serial (ms.zip cores) = true → affinityOk l.offer (ms.zip cores) = true →
      startAll serial (ms.zip cores) s = some u →
      answers s (.blockPlace serial die cores) (fun t => (∀ x : Nat × Nat, x ∈ ms.zip cores → ∃ b, t.block serial x.1 = some b ∧
          b.core = x.2 ∧ b.place = .resident ∧ b.startDie = dieOf x.2 ∧ b.scratch = []) ∧
        (∃ l', t.launch serial = some l' ∧ l'.own die = rest) ∧ t.mem = s.mem)) ∧
    (l.own die = [] → idles s (.blockPlace serial die [core]) ∧
      (l.live = true → l.stealAsk = none → die ∉ l.stealWait → dieOf core = die → canTakeOne s serial l core = true →
        answers s (.stealMessage serial die) (fun t => t.launch serial = some { l with stealAsk := some die } ∧
          (∀ n, n ≠ serial → t.launch n = s.launch n) ∧ { t with launches := s.launches } = s))) ∧
    (l.own die ≠ [] → idles s (.stealMessage serial die)) ∧
    (l.stealAsk ≠ some (1 - die) → idles s (.stealAnswer serial die)) ∧
    (l.stealAsk = some (1 - die) →
      let total (is : List Item) : Nat := (is.map Item.count).sum
      answers s (.stealAnswer serial die) (fun t => ∃ l' given, t.launch serial = some l' ∧ l'.stealAsk = none ∧
        l'.own (1 - die) = l.own (1 - die) ++ given ∧ total given = total (l.own die) / 2 ∧
        total (l'.own die) + total given = total (l.own die) ∧ (total given = 0 → (1 - die) ∈ l'.stealWait) ∧
        (∀ lo hi, l.own die = [Item.range lo hi] → lo < hi → given = [Item.range (hi + 1 - (hi + 1 - lo) / 2) hi] ∧
          l'.own die = [Item.range lo (hi - (hi + 1 - lo) / 2)]) ∧
        { t with launches := s.launches } = s)) ∧
    (∀ block b, block < 2 ^ 32 → s.block serial block = some b → b.place = .saved → groupCohorts l.offer.kernel block = [] → l.live = true →
      (List.range 192).find? (fun c => turnAllows s serial l c && placeFor s l block b c && roomOn s serial l c) = some core →
      resumeOrder s serial block l b = true → lostBelow s serial l block = none →
      answers s (.resume serial block [core]) (fun t => t.block serial block = some { b with place := .resident, core := core } ∧
        (∀ x : WaveId × Wave, x ∈ wavesOf s serial block → (∀ y ∈ wavesOf s serial block, y.1 = x.1 → y = x) →
          t.wave x.1 = some { x.2 with resident := some s.tick }) ∧
        (∃ l' u, t.launch serial = some l' ∧ tfind l'.use core = some u ∧
          u.acc = ((tfind l.use core).map (fun u => u.acc)).getD 0 + saveCycles l.offer) ∧
        (∃ v, tfind t.views (setKey l core serial block) = some v ∧ v.seen = [] ∧ l.offer.hpt ≤ v.start) ∧
        (∀ k, k ≠ bkey serial block → tfind t.blocks k = tfind s.blocks k) ∧ t.mem = s.mem ∧ t.hist = s.hist)) ∧
    (∀ block b at_, block < 2 ^ 32 → s.block serial block = some b → b.place = .saved → l.live = true →
      (∀ m ∈ savedOf s serial block l.offer.kernel, block ≤ m) → resumeOrder s serial block l b = true → lostBelow s serial l block = none →
      resumePlan s serial l block (turnAllows s serial l) = some at_ →
      answers s (.resume serial block (at_.map (fun p => p.2))) (fun t => t.mem = s.mem ∧
        at_.map (fun p => p.1) = savedOf s serial block l.offer.kernel ∧
        ∀ p ∈ at_, ∃ x, s.block serial p.1 = some x ∧ t.block serial p.1 = some { x with place := .resident, core := p.2 }))

/-- R301, R302, R305, R307: the turn of a shared core ends when the quantum is spent and another launch has a block ready, each block
of the core then draining with one pre-emption more; with no other it starts anew. A drained block whose stores are out is saved with
the members of its group that are resident, registers kept; until then it publishes them. A waiting block gives way to a lower one. Suspension and its end are
reported in records.
The model's own choices in it: log entries 28, 34, 35, 74, 89, 91. -/
def Obligations.PreemptionAndSuspension : Prop :=
  ∀ (s : State) (serial core : Nat) (l : Launch), s.launch serial = some l →
    (∀ since, tfind s.turns core = some (serial, since) → l.offer.klass = 1 → l.offer.quantum ≤ cum core s.tick - cum core since →
      let ready (n : Nat) : Prop := n ≠ serial ∧ ∃ o, (n, o) ∈ sharers s core ∧ hasReady s n o core = true
      ((∀ n, ¬ ready n) → exec (.quantumEnd core) s = .next { s with turns := tput s.turns core (serial, s.tick) }) ∧
      (∀ n, ready n → l.offer.kernel.cohorts = [] → (∀ m b, s.block serial m = some b → b.preempts < l.offer.k) →
        answers s (.quantumEnd core) (fun t => tfind t.turns core = none ∧ tget 0 t.lastServed core = serial ∧
          (∀ m b, m < 2 ^ 32 → s.block serial m = some b → b.place = .resident → b.core = core →
            t.block serial m = some (if b.draining then b else { b with draining := true, preempts := b.preempts + 1 })) ∧
          (∀ k m, k ≠ serial → m < 2 ^ 32 → t.block k m = s.block k m) ∧ t.waves = s.waves ∧ t.mem = s.mem))) ∧
    (∀ since, tfind s.turns core = some (serial, since) → l.offer.klass = 1 → cum core s.tick - cum core since < l.offer.quantum →
      hasReady s serial l core = true → idles s (.quantumEnd core)) ∧
    (∀ block,
      let g : List (Nat × Block) := residentOf s serial block l.offer.kernel
      g ≠ [] → (∀ p ∈ g, p.2.draining = true ∧ blockSettled s serial p.1 p.2 = true) →
      ((∀ p ∈ g, pubsOf s (setKey l p.2.core serial p.1) = [] ∧
          (tget {} s.sets (setKey l p.2.core serial p.1)).bytes = [] ∧ (tget {} s.sets (setKey l p.2.core serial p.1)).redgs = [] ∧
          (∀ f ∈ s.farReds, f.copy = none → f.serial = serial → f.block ≠ p.1) ∧
          (∀ x ∈ blocksOf s serial, x.2.place = .saved ∨ x.2.place = .lost → p.1 ≤ x.1) ∧ (∀ die, ∀ it ∈ l.own die, p.1 ≤ it.low)) →
        answers s (.preempt serial block) (fun t => t.mem = s.mem ∧ ∀ p ∈ g,
          t.block serial p.1 = some { p.2 with place := .saved, draining := false } ∧
          (∀ y : WaveId × Wave, y ∈ wavesOf s serial p.1 → (∀ z ∈ wavesOf s serial p.1, z.1 = y.1 → z = y) →
            t.wave y.1 = some { y.2 with cycAcc := y.2.cyc p.2.core s.tick, resident := none, yielded := false }))) ∧
      (∀ b, g = [(block, b)] → (tget {} s.sets (setKey l b.core serial block)).bytes ≠ [] →
        answers s (.preempt serial block) (fun t => t.waves = s.waves ∧
          (∃ b', t.block serial block = some b' ∧ { b' with relaunchable := b.relaunchable } = { b with phase := b.phase + 1 }) ∧
          (∃ p, t.pubs = s.pubs ++ [p] ∧ p.set = tget {} s.sets (setKey l b.core serial block) ∧ p.serial = serial) ∧
          tfind t.sets (setKey l b.core serial block) = none ∧ t.mem = s.mem))) ∧
    (∀ waiter lower w b, s.block serial waiter = some w → s.block serial lower = some b → l.live = true → l.offer.klass ≠ 0 →
      groupOf l.offer.kernel waiter = [waiter] → b.place = .saved → wantsRoom s serial l lower = true →
      w.place = .resident → w.draining = false → lower < waiter → inWait s serial waiter w = true →
      (∃ m y, m ∈ savedOf s serial lower l.offer.kernel ∧ s.block serial m = some y ∧ placeFor s l m y w.core = true) →
      (∀ x : Nat × Block, x ∈ blocksOf s serial → x.1 ≤ waiter ∨ inWait s serial x.1 x.2 = false) →
      answers s (.swap serial waiter lower) (fun t => t.block serial waiter = some { w with draining := true } ∧
        (∀ k, k ≠ bkey serial waiter → tfind t.blocks k = tfind s.blocks k) ∧ { t with blocks := s.blocks } = s)) ∧
    (
      let posts (t : State) (rkind : Nat) (value : BitVec 64) : Prop := ∃ r tr, (t.part l.offer.part).held = (s.part l.offer.part).held ++ [r] ∧
        r.kind = 3 ∧ r.vec = vFAULT ∧ r.bytes = faultRecord serial rkind tr ∧ tr.code = cFEATURE ∧ tr.attr = aMACHINE ∧ tr.value = value
      (l.st ≠ .suspended → l.traps = [] → stuck s serial l = true → answers s (.suspend serial) (fun t =>
        t.launch serial = some { l with st := .suspended } ∧ posts t 2 (l.offer.feats &&& ~~~ l.offer.cores.foldl (fun m c => m ||| s.feat c) 0) ∧
        { t with launches := s.launches, parts := s.parts } = s)) ∧
      (l.st = .suspended → stuck s serial l = false → answers s (.suspensionEnd serial) (fun t =>
        t.launch serial = some { l with st := .running } ∧ posts t 3 0 ∧ { t with launches := s.launches, parts := s.parts } = s)) ∧
      (stuck s serial l = false → idles s (.suspend serial)) ∧ (stuck s serial l = true → idles s (.suspensionEnd serial)))

/-- R96, R238, R239, R245, R293 to R295, R305, R363, R365, R374, R375: a block retires when its waves have and nothing it issued is under
way; a launch is complete when every block has retired and every publication is performed, its unused joules returning to the balance;
the first trap that reached the fault logic ends a launch with a fault record and a completion record. A lost quadrant loses its cores'
features and blocks; a lost block that may run again starts afresh on the lowest core that can hold it.
The model's own choices in it: log entries 17, 32, 33, 35, 55, 58, 69. -/
def Obligations.RetirementAndFaults : Prop :=
  ∀ (s : State) (serial : Nat) (l : Launch), s.launch serial = some l →
    (∀ block b, s.block serial block = some b → b.place = .resident →
      (∀ x : WaveId × Wave, x ∈ wavesOf s serial block → x.2.retiredWave = true ∧ x.2.quiet = true) →
      copiesDone s serial block (fun _ => true) = true → runsDone s serial block = true → matrixDone s serial block = true →
      (∀ x ∈ blocksOf s serial, x.2.place = .saved ∨ x.2.place = .lost → block ≤ x.1) → (∀ die, ∀ it ∈ l.own die, block ≤ it.low) →
      answers s (.blockRetire serial block) (fun t =>
        (∃ b', t.block serial block = some b' ∧ b'.place = .retired ∧ b'.scratch = [] ∧ b'.queues = [] ∧ b'.points = []) ∧
        (∃ l', t.launch serial = some l' ∧ l'.done = l.done + 1 ∧ l'.traps = l.traps ++ retireTraps s serial block l b) ∧
        (∀ k, tfind t.waves k = if k / 128 = bkey serial block then none else tfind s.waves k) ∧
        (∀ k, k ≠ bkey serial block → tfind t.blocks k = tfind s.blocks k) ∧ t.mem = s.mem ∧ t.hist = s.hist)) ∧
    (l.offer.nblock ≤ l.done → l.traps = [] → (∀ p ∈ s.pubs, p.serial ≠ serial) → (∀ f ∈ s.farReds, f.serial ≠ serial) →
      (∀ tr rest, unseenFails s serial = tr :: rest → answers s (.launchCompletion serial) (fun t =>
        t.launch serial = some { l with traps := [tr] } ∧ { t with launches := s.launches } = s)) ∧
      (unseenFails s serial = [] → answers s (.launchCompletion serial) (fun t => t.launch serial = none ∧
        (∃ r, (t.part l.offer.part).held = (s.part l.offer.part).held ++ [r] ∧ r.kind = 2 ∧ r.vec = vDONE ∧ r.tag = 0 ∧
          r.bytes.take 8 = leBytes serial 8 ∧ r.bytes[8]? = some 1 ∧ (r.bytes.drop 24).take 8 = leBytes (energyUsed s serial l) 8 ∧
          (energyUsed s serial l ≤ l.offer.ebound → (r.bytes.drop 32).take 16 =
            leBytes (l.offer.ebound - energyUsed s serial l) 8 ++ leBytes (ceilDiv l.above nJ) 8)) ∧
        (∀ n, n ≠ serial → t.launch n = s.launch n) ∧ (∀ k, k / 128 / 2 ^ 32 = serial → tfind t.waves k = none) ∧
        (energyUsed s serial l ≤ l.offer.ebound →
          (s.part l.offer.part).balance + (l.offer.ebound - energyUsed s serial l : Nat) ≤ 2 ^ 62 →
          (t.part l.offer.part).balance = (s.part l.offer.part).balance + (l.offer.ebound - energyUsed s serial l : Nat)) ∧
        t.mem = s.mem))) ∧
    (l.done < l.offer.nblock → idles s (.launchCompletion serial)) ∧
    (l.traps = [] → idles s (.launchFault serial)) ∧
    (∀ tr rest, l.traps = tr :: rest → answers s (.launchFault serial) (fun t => t.launch serial = none ∧
      (∃ r, (t.part l.offer.part).held = (s.part l.offer.part).held ++
          [{ kind := 3, bytes := faultRecord serial 1 tr, tag := 0, vec := vNONE }, r] ∧ r.kind = 2 ∧ r.vec = vFAULT ∧ r.tag = 0 ∧
        r.bytes.take 8 = leBytes serial 8 ∧ r.bytes[8]? = some 2 ∧ r.bytes[12]? = some (BitVec.ofNat 8 tr.code)) ∧
      (∀ k, k / 2 ^ 32 = serial → tfind t.blocks k = none) ∧ (∀ k, k / 128 / 2 ^ 32 = serial → tfind t.waves k = none) ∧
      (∀ p ∈ t.pubs, p.serial ≠ serial))) ∧
    (∀ q, q < 8 → q ∉ s.lostQuads → answers s (.quadrantShutdown q) (fun t => t.lostQuads = insertNat q s.lostQuads ∧ t.gen = s.gen + 1 ∧
      (∀ c, t.feat c = if quadOf c = q then 0 else s.feat c) ∧ t.mem = s.mem ∧ t.parts = s.parts ∧
      (∀ c i, t.bslot c i = if quadOf (c + i / 8) = q then {} else s.bslot c i) ∧
      (∀ c, c < 192 → quadOf c = q → s.feat c ≠ 0 → ({ kind := 8, a := c, value := 0 } : Mgmt) ∈ t.mgmt) ∧
      (∀ n b, n < 2 ^ 32 → s.block serial n = some b → b.place = .resident → quadOf b.core = q →
        (∃ b', t.block serial n = some b' ∧ b'.place = .lost ∧ b'.relaunchable = b.relaunchable ∧ b'.lostAt = s.tick ∧ b'.lostQ = q) ∧
        (∀ k, k / 128 = bkey serial n → tfind t.waves k = none) ∧ tfind t.sets (setKey l b.core serial n) = none ∧
        (b.relaunchable = false → ∃ l' tr, t.launch serial = some l' ∧ tr ∈ l'.traps ∧ tr.code = cQUADLOSS ∧ tr.block = n ∧
          tr.value = BitVec.ofNat 64 q)))) ∧
    (∀ block b core, s.block serial block = some b → b.place = .lost → b.relaunchable = true → l.live = true →
      (∀ x : Nat × Block, x ∈ blocksOf s serial → x.2.place = .lost → x.2.lostAt = b.lostAt → block ≤ x.1) →
      (List.range 192).find? (fun c => canRelaunch s serial l block b c && turnAllows s serial l c) = some core →
      (∀ m ∈ groupOf l.offer.kernel block, ∀ x, s.block serial m = some x → x.place ≠ .saved ∧ x.draining = false) →
      answers s (.relaunch serial block core) (fun t =>
        (∃ b', t.block serial block = some b' ∧ b'.core = core ∧ b'.place = .resident ∧ b'.startDie = b.startDie ∧ b'.scratch = [] ∧
          b'.preempts = b.preempts) ∧
        (∀ k, k < l.offer.waves → ∃ w, t.wave ⟨serial, block, k⟩ = some w ∧
          w.a = some { path := { pc := 0, mask := allLanes l.offer.kernel.width, join := none, parked := false } } ∧
          (∀ r, w.readS r = (l.offer.params.take 16).getD r 0) ∧ (∀ r i, w.readV r i = 0)) ∧
        (∀ k, k ≠ bkey serial block → tfind t.blocks k = tfind s.blocks k) ∧ t.mem = s.mem))

/-! ### Power and clocks (16_energy.md, 25_outside.md) -/

/-- R280, R282, R283, R288, R289: a legal request of the host or the board stands, and the cluster ramps toward it or the highest floor above it: at
once, by a new target of a ramp in that direction, or after the ramp. A step upward raises the voltage by 10 mV until it is that of
the next 0.1 GHz, and then the frequency; one downward takes the frequency first, and a target that a new floor has passed is the floor. A window whose pair is out of balance by more
than a tenth throttles the heavier cluster, or where its clock is at its floor shunts the lighter; a balanced one releases both and sets the bias. A throttle
takes no clock below the highest floor.
The model's own choices in it: log entries 12, 13, 31, 73. -/
def Obligations.ClocksAndBlender : Prop :=
  ∀ (s : State) (cluster f : Nat),
    let k := s.cluster cluster
    let sets (i : Instr) (k' : Cluster) : Prop := answers s i (fun t => t.cluster cluster = k' ∧
      (∀ j, j ≠ cluster → t.cluster j = s.cluster j) ∧ { t with clusters := s.clusters } = s)
    (∀ src : FreqSource, cluster < 32 → 12 ≤ f → f ≤ 25 →
      let goal : Nat := max (floorOf s cluster) f
      let asked : Nat := if src = .blender then k.request else f
      let falls (r : Nat) : Prop := r < k.freq ∨ r = k.freq ∧ 550 + 10 * k.freq < k.mv
      (k.pending = none → k.target = none →
        sets (.frequencyRequest src cluster f) { k with request := asked, target := if goal = k.freq then none else some goal }) ∧
      (∀ r, k.pending = none → k.target = some r → (k.freq < r ∧ k.freq < goal ∨ falls r ∧ goal < k.freq) →
        sets (.frequencyRequest src cluster f) { k with request := asked, target := some goal }) ∧
      (∀ r, k.pending = none → k.target = some r → ¬ (k.freq < r ∧ k.freq < goal ∨ falls r ∧ goal < k.freq) →
        sets (.frequencyRequest src cluster f) { k with request := asked, pending := some goal }) ∧
      (k.pending ≠ none → sets (.frequencyRequest src cluster f) { k with request := asked, pending := some goal })) ∧
    (∀ src : FreqSource, (f < 12 ∨ 25 < f) → idles s (.frequencyRequest src cluster f)) ∧
    (32 ≤ cluster → idles s (.rampStep cluster)) ∧
    (let floor : Nat := floorOf s cluster
     let volts (n : Nat) : Nat := 550 + 10 * n
     let clock (c : Cluster) : Option Nat := if c.stretched = none then none else some (10 * floor)
     let low (c : Cluster) : Option Nat := c.fell.filter (fun f => f < 10 * floor)
     let leaves (c : Cluster) : Prop := cluster < 32 → answers s (.rampStep cluster) (fun t =>
       (∃ e, t.cluster cluster = { c with throttle := min c.throttle (c.freq - floor), stretched := clock c, fell := low c, episodes := e }) ∧
       (∀ j, j ≠ cluster → t.cluster j = s.cluster j) ∧ (t.gen = s.gen ∨ t.gen = s.gen + 1) ∧
       { t with clusters := s.clusters, launches := s.launches, gen := s.gen } = s)
     (∀ g, k.target = some g → g < floor → floor < k.freq → volts k.freq ≤ k.mv → cluster < 32 →
       answers s (.rampStep cluster) (fun t => (t.cluster cluster).target = some floor)) ∧
     ((∀ g, k.target = some g ∨ k.pending = some g → floor ≤ g) →
     (k.target = none → leaves k) ∧
     (∀ g, k.target = some g → k.freq < g →
       (k.mv < volts (k.freq + 1) → leaves { k with mv := k.mv + 10 }) ∧
       (volts (k.freq + 1) ≤ k.mv → k.freq + 1 < g → leaves { k with freq := k.freq + 1 }) ∧
       (volts (k.freq + 1) = k.mv → k.freq + 1 = g → k.pending = none → leaves { k with freq := g, target := none }) ∧
       (∀ p, volts (k.freq + 1) = k.mv → k.freq + 1 = g → k.pending = some p →
         leaves { k with freq := g, pending := none, target := if p = g then none else some p })) ∧
     (∀ g, k.target = some g → g < k.freq →
       (k.mv = volts k.freq → leaves { k with freq := k.freq - 1 }) ∧ (volts k.freq < k.mv → leaves { k with mv := k.mv - 10 })) ∧
     (k.target = some k.freq →
       (volts k.freq + 10 < k.mv → leaves { k with mv := k.mv - 10 }) ∧
       (k.mv = volts k.freq + 10 → k.pending = none → leaves { k with mv := volts k.freq, target := none }) ∧
       (∀ p, k.mv = volts k.freq + 10 → k.pending = some p →
         leaves { k with mv := volts k.freq, pending := none, target := if p = k.freq then none else some p }) ∧
       (k.mv = volts k.freq → k.pending = none → leaves { k with target := none })))) ∧
    (∀ pair, 16 ≤ pair → idles s (.blenderWindow pair)) ∧
    (∀ pair heavy light, pair < 16 → (heavy = 2 * pair ∧ light = 2 * pair + 1 ∨ heavy = 2 * pair + 1 ∧ light = 2 * pair) →
      let h := s.cluster heavy
      let g := s.cluster light
      let a : Nat := (h.charge - h.windowFrom).toNat
      let b : Nat := (g.charge - g.windowFrom).toNat
      let clk : Nat := min (10 * (h.freq - h.throttle)) (min (h.stretched.getD 1000) (h.fell.getD 1000))
      (b < a ∨ b = a ∧ heavy = 2 * pair) → answers s (.blenderWindow pair) (fun t =>
        (a < 10 * (a - b) → 10 * floorOf s heavy < clk → (∃ e, t.cluster heavy =
            { h with windowFrom := h.charge, bias := none, throttle := h.throttle + 1, episodes := e }) ∧
          t.cluster light = { g with windowFrom := g.charge, bias := none } ∧ t.house = s.house) ∧
        (a < 10 * (a - b) → clk ≤ 10 * floorOf s heavy → t.cluster heavy = { h with windowFrom := h.charge, bias := none } ∧
          t.cluster light = { g with windowFrom := g.charge, bias := none, shunt := true } ∧ t.house = s.house - Config.shuntDraw s.tick) ∧
        (10 * (a - b) ≤ a →
          t.cluster heavy = { h with windowFrom := h.charge, bias := some true, throttle := h.throttle - 1, shunt := false } ∧
          t.cluster light = { g with windowFrom := g.charge, bias := some false, throttle := g.throttle - 1, shunt := false } ∧ t.house = s.house) ∧
        (∀ j, j ≠ heavy → j ≠ light → t.cluster j = s.cluster j) ∧ (t.gen = s.gen ∨ t.gen = s.gen + 1) ∧
        { t with clusters := s.clusters, house := s.house, launches := s.launches, gen := s.gen } = s))

/-- R290 to R292, R385: a droop, or the loss of the reference clock, stretches each cluster's clock to its floor; an excursion
beyond the specification is an event of every launch, and blames the supply for the episodes under way; a clock below a launch's floor
opens an episode with its event and deepens it, and one back at the floor ends it; the supply's and the reference's return end what they caused, the supply's
leaving the clusters at their floors while the reference is lost. The
generation moves exactly when the floors offered do.
The model's own choices in it: log entries 12, 31. -/
def Obligations.SupplyEvents : Prop :=
  ∀ (s : State),
    let gens (t : State) : Prop := ((∀ p, p < 16 → floorCap s p = floorCap t p) → t.gen = s.gen) ∧
      ((∃ p, p < 16 ∧ floorCap s p ≠ floorCap t p) → t.gen = s.gen + 1)
    let rides (t : State) : Prop := ∀ k,
      let c := s.cluster k
      t.cluster k = if k < 32 then { c with stretched := some (10 * floorOf s k) } else c
    (∀ percent, answers s (.droop percent) (fun t => t.droop = 480 * percent ∧ rides t ∧ gens t ∧
      { t with droop := s.droop, clusters := s.clusters, gen := s.gen } = s)) ∧
    answers s .referenceClockLoss (fun t => t.refClock = false ∧ rides t ∧ { t with refClock := s.refClock, clusters := s.clusters } = s) ∧
    (∀ mv, answers s (.supplyExcursion mv) (fun t => t.beyond = some (max (s.beyond.getD 0) mv) ∧ gens t ∧ t.clusters = s.clusters ∧
      { t with beyond := s.beyond, launches := s.launches, gen := s.gen } = s ∧
      (∀ n l, s.launch n = some l → ∃ l', t.launch n = some l' ∧ l'.offer = l.offer ∧ l'.traps = l.traps ∧
        (s.beyond = none → l'.nevents = l.nevents + 1 ∧ l'.spans = l.spans ++ [(5, s.tick, none)] ∧
          (l.events.length < 64 → ∃ e, l'.events.getLast? = some e ∧ e.kind = 5 ∧ e.attr = aSUPPLY ∧ e.value = BitVec.ofNat 64 mv)) ∧
        (s.beyond ≠ none → l'.nevents = l.nevents ∧ ∀ k e, l.excursionAt = some k → l.events[k]? = some e →
          ∃ e', l'.events[k]? = some e' ∧ e'.value = if e.value.toNat < mv then BitVec.ofNat 64 mv else e.value) ∧
        (∀ k ix e, k < 32 → (n, ix) ∈ (s.cluster k).episodes → l.events[ix]? = some e →
          ∃ e', l'.events[ix]? = some e' ∧ e'.attr = aSUPPLY ∧ e'.kind = e.kind)))) ∧
    (∀ cluster f100, 32 ≤ cluster → idles s (.clockBelowFloor cluster f100)) ∧
    (∀ cluster f100, cluster < 32 → answers s (.clockBelowFloor cluster f100) (fun t =>
      let low : Bool := f100 < 10 * floorOf s cluster
      let clk : Nat := min (10 * ((s.cluster cluster).freq - (s.cluster cluster).throttle))
        (min ((s.cluster cluster).stretched.getD 1000) (if low = true then f100 else 1000))
      let below (l : Launch) : Prop := clk < 10 * l.offer.floor ∧ clk < 10 * (s.cluster cluster).freq
      (t.cluster cluster).fell = (if low = true then some f100 else none) ∧ (t.cluster cluster).stretched = (s.cluster cluster).stretched ∧ (t.cluster cluster).freq = (s.cluster cluster).freq ∧
      (∀ j, j ≠ cluster → t.cluster j = s.cluster j) ∧ { t with clusters := s.clusters, launches := s.launches } = s ∧
      (∀ n l, s.launch n = some l → s.launches.filter (fun x => x.1 == n) = [(n, l)] → l.offer.cores.any (fun c => clusterOf c == cluster) = true →
        ∃ l', t.launch n = some l' ∧ l'.offer = l.offer ∧
          ((∀ ep ∈ (s.cluster cluster).episodes, ep.1 ≠ n) →
            (below l → l'.nevents = l.nevents + 1 ∧ (n, l.nevents) ∈ (t.cluster cluster).episodes ∧
              (l.events.length < 64 → ∃ e, l'.events = l.events ++ [e] ∧ e.kind = 4 ∧ e.value = BitVec.ofNat 64 clk ∧
                e.attr = if s.beyond.isSome then aSUPPLY else aMACHINE)) ∧
            (¬ below l → l' = l)) ∧
          (∀ ep, (s.cluster cluster).episodes.find? (fun ep => ep.1 == n) = some ep →
            l'.nevents = l.nevents ∧
            (clk < 10 * l.offer.floor → ∀ e, l.events[ep.2]? = some e →
              l'.events[ep.2]? = some (if clk < e.value.toNat then { e with value := BitVec.ofNat 64 clk } else e)) ∧
            (10 * l.offer.floor ≤ clk → l'.events = l.events ∧ ∀ x ∈ (t.cluster cluster).episodes, x.1 ≠ n))))) ∧
    answers s .supplyReturn (fun t => t.droop = 0 ∧ t.beyond = none ∧ gens t ∧
      (s.refClock = true → ∀ k, k < 32 → (t.cluster k).stretched = none ∧ (t.cluster k).fell = none ∧ (t.cluster k).freq = (s.cluster k).freq) ∧
      (s.refClock = false → ∀ k, k < 32 → (t.cluster k).stretched = some (10 * floorOf s k) ∧ (t.cluster k).fell = none ∧
        (t.cluster k).freq = (s.cluster k).freq) ∧
      (∀ n l, s.launch n = some l → ∃ l', t.launch n = some l' ∧ l'.offer = l.offer ∧ l'.traps = l.traps ∧
        ∀ x ∈ l'.spans, x.1 = 5 → x.2.2 ≠ none) ∧
      { t with droop := s.droop, beyond := s.beyond, clusters := s.clusters, launches := s.launches, gen := s.gen } = s) ∧
    answers s .referenceClockReturn (fun t => t.refClock = true ∧
      (s.droop = 0 → s.beyond = none → ∀ k, k < 32 → (t.cluster k).stretched = none ∧ (t.cluster k).fell = none ∧ (t.cluster k).freq = (s.cluster k).freq) ∧
      ((s.droop ≠ 0 ∨ s.beyond ≠ none) → t.clusters = s.clusters ∧ t.launches = s.launches) ∧
      { t with refClock := s.refClock, clusters := s.clusters, launches := s.launches } = s)

/-! ### Paging, power-up and self-test (09_device_memory.md, 25_outside.md) -/

/-- R174, R176, R182 to R184, R244: a page that an accepted launch locks is locked at the place that a migration takes it to as well; a migration starts where the page and its target exist, are not locked and are in no use; each line
copy carries 128 bytes, and reports the uncorrectable errors that it meets by a device address that names them; the switch makes every later access of the page read
the new place. A scan of the hot-page tracker sends pages back while frames are short, and then starts migrations of the
chosen pages into free frames and clears the counts. An error found by scrubbing marks its unit and is reported by device
address; one that was corrected is counted and reported.
The model's own choices in it: log entries 58, 59, 60, 61. -/
def Obligations.PagingSteps : Prop :=
  ∀ (s : State) (page part : Nat),
    (∀ g loc, g ∈ s.migrations → g.new_ = redir s loc / 65536 → lockedFrame s (16 * pageAt s g.old + redir s loc % 65536 / 4096) = true →
      lockedAt s loc = true) ∧
    (∀ target,
      let may : Prop := absentPage page = false ∧ moving s page = false ∧ indirect s page = false ∧ openPage s target = true ∧ page ≠ target
      (may → exec (.migrationStart page target) s = .next { s with
        migrations := s.migrations ++ [{ old := page, new_ := target, done := [], part := 16, hot := false }] }) ∧
      (¬ may → idles s (.migrationStart page target))) ∧
    (∀ g, s.migrations.find? (fun g => g.old == page) = some g →
      (∀ i, (List.range 512).find? (fun i => !g.done.contains i) = some i → answers s (.migrationLineCopy page) (fun t =>
        (∀ a, tget 0 t.mem a = if g.new_ * 65536 + 128 * i ≤ a ∧ a < g.new_ * 65536 + 128 * i + 128
          then tget 0 s.mem (g.old * 65536 + 128 * i + (a - (g.new_ * 65536 + 128 * i))) else tget 0 s.mem a) ∧
        t.migrations.find? (fun g => g.old == page) = some { g with done := insertNat i g.done } ∧
        (∀ j, j < 4 → 2048 * g.old + 4 * i + j ∈ s.bad →
          let place : Nat := 65536 * g.old + 128 * i + 32 * j
          (match s.parts.findSome? (fun q => q.2.map.nameOf { s with mem := t.mem, migrations := t.migrations } place) with
            | some va => ({ kind := 3, a := 0, value := BitVec.ofNat 64 va } : Mgmt)
            | none => { kind := 3, a := 1, value := BitVec.ofNat 64 place }) ∈ t.mgmt) ∧
        ((∀ j, j < 4 → 2048 * g.old + 4 * i + j ∉ s.bad) → t.mgmt = s.mgmt) ∧
        { t with mem := s.mem, migrations := s.migrations, mgmt := s.mgmt } = s)) ∧
      ((∀ i, i < 512 → i ∈ g.done) → idles s (.migrationLineCopy page) ∧ (pageAt s g.old ≠ pageAt s g.new_ → answers s (.migrationSwitch page) (fun t =>
        (∀ j, j < 65536 → memByte t (pageAt s g.old * 65536 + j) = tget 0 s.mem (g.new_ * 65536 + j)) ∧
        (∀ n, n ≠ pageAt s g.old → n ≠ pageAt s g.new_ → tfind t.moved n = tfind s.moved n) ∧ (∀ h ∈ t.migrations, h.old ≠ page) ∧
        (∀ i, i < 2048 → g.old * 2048 + i ∈ s.bad → g.new_ * 2048 + i ∈ t.bad) ∧
        (g.hot = false → t.hot = s.hot ∧ ∀ p, (t.part p).map.ranges = (s.part p).map.ranges ∧ (t.part p).map.ptroot = (s.part p).map.ptroot ∧
          (∀ o ∈ (s.part p).map.switched, (if o.2.2 / 16 = g.old then (o.1, o.2.1, 16 * g.new_ + o.2.2 % 16) else o) ∈ (t.part p).map.switched) ∧
          (∀ m, (s.part p).heldMap = some m → ∃ m', (t.part p).heldMap = some m' ∧ m'.ranges = m.ranges ∧ m'.ptroot = m.ptroot ∧ m'.held = [] ∧
            ∀ o ∈ m.switched, (if o.2.2 / 16 = g.old then (o.1, o.2.1, 16 * g.new_ + o.2.2 % 16) else o) ∈ m'.switched)) ∧
        (g.hot = true → t.parts = s.parts ∧ (2 ^ 25 ≤ g.new_ → t.hot = tdel s.hot g.new_) ∧ (g.new_ < 2 ^ 25 → t.hot = tput s.hot g.old g.new_)) ∧
        { t with migrations := s.migrations, moved := s.moved, bad := s.bad, parts := s.parts, hot := s.hot } = s))) ∧
      (∀ i, i < 512 → i ∉ g.done → idles s (.migrationSwitch page))) ∧
    (s.migrations.find? (fun g => g.old == page) = none → idles s (.migrationLineCopy page) ∧ idles s (.migrationSwitch page)) ∧
    (∀ order : List Nat,
      let q := s.part part
      let held := heldHot s q
      let free := freeFrames s q
      let due : Prop := q.ctrl.getLsbD 2 = true ∧ 2 ^ 24 ≤ q.accesses ∧ hotChoice s q order = true ∧ order.length ≤ free.length + held.length
      (¬ due → idles s (.hotPageScan part order)) ∧
      (due → order.length ≤ free.length →
        answers s (.hotPageScan part order) (fun t => t.part part = { q with hotCount := [], accesses := 0 } ∧
          (∃ gs : List Migration, t.migrations = s.migrations ++ gs ∧ gs.map (fun g => g.old) = order ∧
            ∀ g ∈ gs, g.new_ ∈ free ∧ g.done = [] ∧ g.part = part ∧ g.hot = true) ∧
          { t with parts := s.parts, migrations := s.migrations } = s)) ∧
      (due → free.length < order.length →
        answers s (.hotPageScan part order) (fun t => { t with migrations := s.migrations } = s ∧
          ∃ gs : List Migration, t.migrations = s.migrations ++ gs ∧
            gs.length = min ((held.filter (fun m => !moving s m.2)).length) (order.length - free.length - (held.filter (fun m => moving s m.2)).length) ∧
            ∀ g ∈ gs, (g.new_, g.old) ∈ held ∧ moving s g.old = false ∧ g.done = [] ∧ g.part = part ∧ g.hot = true ∧
              ∀ m ∈ held, moving s m.2 = false → (∀ h ∈ gs, h.old ≠ m.2) → tget 0 q.hotCount g.new_ ≤ tget 0 q.hotCount m.1))) ∧
    (∀ unit addr, answers s (.scrubError (.uncorrected unit) part addr) (fun t => (∀ u, u ∈ t.bad ↔ u = unit ∨ u ∈ s.bad) ∧
      t.mgmt = (if unitAt s part addr = some unit then [{ kind := 3, a := 0, value := BitVec.ofNat 64 addr }] else []) ++ s.mgmt ∧
      { t with bad := s.bad, mgmt := s.mgmt } = s)) ∧
    (∀ stack addr, (40 ≤ stack → idles s (.scrubError (.corrected stack) part addr)) ∧
      (stack < 40 → answers s (.scrubError (.corrected stack) part addr) (fun t => tget 0 t.corrected stack = tget 0 s.corrected stack + 1 ∧
        (∀ k, k ≠ stack → tget 0 t.corrected k = tget 0 s.corrected k) ∧
        t.mgmt = { kind := 7, a := stack, value := BitVec.ofNat 64 (tget 0 s.corrected stack + 1) } :: s.mgmt ∧
        { t with corrected := s.corrected, mgmt := s.mgmt } = s)))

/-- R375, R387 to R389: power-up leaves no launch, no wave, no mapping and no memory of before, with its clusters at their floors while the reference is lost or
the supply droops, and runs the self-test when the transport flag or the line asks for it; the self-test's end fences failing units and rails, takes failing ports down and records the result with every
enabled partition and over the management path, with the feature masks that changed and the memory that failed; an attestation record covers the nonce of its request and is signed.
The model's own choices in it: log entries 7, 31, 55, 56, 57, 58. -/
def Obligations.PowerUpAndSelfTest : Prop :=
  ∀ (s : State),
    (∀ low, answers s (.powerUp low) (fun t => t.selfTest = (low || s.transport) ∧ t.transport = false ∧ t.powerUps = s.powerUps + 1 ∧
      t.lastSerial = s.lastSerial ∧ t.launches = [] ∧ t.blocks = [] ∧ t.waves = [] ∧ t.parts = [] ∧ t.mem = [] ∧ t.claims = [] ∧
      t.gen = 0 ∧ t.house = 0 ∧ t.hostMem = s.hostMem ∧ (∀ c, t.feat c = fullFeatures) ∧
      ∀ k, k < 32 → (t.cluster k).freq = 12 ∧ (t.cluster k).fell = none ∧
        (t.cluster k).stretched = if s.refClock = false ∨ s.droop ≠ 0 then some (10 * floorOf t k) else none)) ∧
    (∀ masks rails hbm ports lpddr corrected,
      let i := Instr.selfTestEnd masks rails hbm ports lpddr corrected
      (s.selfTest = false → idles s i) ∧
      (s.selfTest = true → answers s i (fun t => t.selfTest = false ∧
        (∀ c, c < 192 → rails.getLsbD (quadOf c) = true → t.feat c = 0) ∧
        (∀ c b, c < 192 → b < 64 → rails.getLsbD (quadOf c) = false →
          (t.feat c).getLsbD b = ((s.feat c).getLsbD b && !masks.any (fun m => m.1 == c && m.2.getLsbD b))) ∧
        t.gen = (if (List.range 192).all (fun c => t.feat c == s.feat c) = true then s.gen else s.gen + 1) ∧
        (∀ p, p < 16 → (t.port p).up = if ports.getLsbD p = true then false else (s.port p).up) ∧
        t.selfRecord.take 8 = leBytes s.powerUps 8 ∧
        (∃ d : BitVec 16, (t.selfRecord.drop 42).take 2 = leBytes d.toNat 2 ∧ ∀ p, p < 16 → d.getLsbD p = (ports.getLsbD p || !(s.port p).up)) ∧
        (∃ m ∈ t.mgmt, m.kind = 5 ∧ m.a = (t.selfRecord.getD 8 0).toNat) ∧
        (∀ c, c < 192 → t.feat c ≠ s.feat c → ({ kind := 8, a := c, value := t.feat c } : Mgmt) ∈ t.mgmt) ∧
        (hbm ≠ 0 ∨ lpddr ≠ 0 → ({ kind := 9, a := hbm.toNat, value := BitVec.ofNat 64 lpddr.toNat } : Mgmt) ∈ t.mgmt) ∧
        (∀ p, (t.part p).held = (s.part p).held ++ if p < 16 ∧ (s.part p).ctrl.getLsbD 0 = true
          then [{ kind := 5, bytes := t.selfRecord, tag := 0, vec := vSELFTEST }] else []) ∧
        t.waves = s.waves ∧ t.launches = s.launches ∧ t.mem = s.mem))) ∧
    (∀ nonce : List Byte, (nonce.length ≠ 32 → idles s (.attestationRequest nonce)) ∧
      (nonce.length = 32 → answers s (.attestationRequest nonce) (fun t => (∃ b, t.attest = (b ++ leBytes (Config.attestSign b).toNat 29792) :: s.attest ∧
        b.length = 1624 + 32 * Config.firmwareDigests.length ∧ b.take 40 = leBytes Config.partNumber.toNat 8 ++ leBytes Config.keyDigest.toNat 32 ∧
        b.drop (b.length - 32) = nonce) ∧ t.mgmt = { kind := 6, a := 0, value := 0 } :: s.mgmt ∧ { t with attest := s.attest, mgmt := s.mgmt } = s)))

/-! ### The fabric (25_outside.md) -/

/-- R381, R382: a flit that arrives in sequence at a port that is up is taken once, whatever its kind; one out of sequence gives only its
acknowledgement; one for another device goes on with HOPS less one, or is dropped and counted at HOPS 0. The device serves
what is meant for it: a read with the bytes of its mapping or a STATUS, a write, an atomic record, each answered to its source; an answer
completes what waits for it, and one with an error for bytes that a copy staged fails that copy (R256). LINK frees the replay buffer up to its acknowledgement and gives credits; a flit out of sequence gives none.
The model's own choices in it: log entries 8, 24, 27, 39. -/
def Obligations.FlitsArrive : Prop :=
  ∀ (s : State) (port : Nat) (f : Flit),
    let p := s.port port
    port < 16 → p.up = true → p.retraining = false →
      let got (t : State) : Prop := (t.port port).rxSeq = p.rxSeq + 1
      let sends (t : State) (dev kind vc : Nat) (payload : List Byte) : Prop := ∃ place g, g ∈ (t.port place).waiting ++ (t.port place).sent ∧
        g.dest = BitVec.ofNat 21 dev ∧ g.kind = BitVec.ofNat 3 kind ∧ g.vc = BitVec.ofNat 2 vc ∧ g.payload = padTo payloadLen payload
      let own : Prop := f.dest = Config.deviceNumber ∧ f.seq = p.rxSeq
      (∀ (i : Instr) (k : Nat), (i, k) ∈ [(Instr.areq port f, 1), (.arsp port f, 2), (.rreq port f, 3), (.rdata port f, 4), (.wdata port f, 5),
          (.wack port f, 6)] →
        (f.kind.toNat ≠ k → idles s i) ∧
        (f.kind.toNat = k → f.seq ≠ p.rxSeq → answers s i (fun t => (t.port port).rxSeq = p.rxSeq ∧
          (p.waiting = [] → (t.port port).cred0 = p.cred0 ∧ (t.port port).cred1 = p.cred1) ∧ { t with ports := s.ports } = s)) ∧
        (f.kind.toNat = k → f.seq = p.rxSeq → f.dest ≠ Config.deviceNumber → f.hops ≠ 0 → answers s i (fun t => got t ∧
          { t with ports := s.ports } = s ∧ ∃ place g, g ∈ (t.port place).waiting ++ (t.port place).sent ∧ g.dest = f.dest ∧
            g.kind = f.kind ∧ g.hops = f.hops - 1 ∧ g.payload = f.payload)) ∧
        (f.kind.toNat = k → f.seq = p.rxSeq → f.dest ≠ Config.deviceNumber → f.hops = 0 → answers s i (fun t => got t ∧
          t.mgmt = { kind := 4, a := f.dest.toNat, value := 0 } :: s.mgmt ∧ { t with ports := s.ports, mgmt := s.mgmt } = s))) ∧
      (f.kind = 0 → p.waiting = [] → answers s (.link port f) (fun t =>
        (let now : List Nat := p.crcAt.filter (fun x => p.window + 1 < x + 2 ^ 24)
         { t.port port with replay := p.replay } =
           { p with cred0 := p.cred0 + 8 * f.cred0.toNat, cred1 := p.cred1 + 8 * f.cred1.toNat, window := p.window + 1, crcAt := now }) ∧
        (∀ pre g post, p.replay = pre ++ g :: post → g.seq = f.ackSeq → (∀ x ∈ pre, x.seq ≠ f.ackSeq) → (t.port port).replay = post) ∧
        ((∀ g ∈ p.replay, g.seq ≠ f.ackSeq) → (t.port port).replay = p.replay) ∧ { t with ports := s.ports } = s)) ∧
      (f.kind = 3 → own → answers s (.rreq port f) (fun t => got t ∧ { t with ports := s.ports } = s ∧
        let n : Nat := payNat f 16 2
        (servedBy s (paySrc f) = none → sends t (paySrc f) 4 1 (rdataPayload (payTag f) 2 [])) ∧
        (∀ m, servedBy s (paySrc f) = some m → n ≠ 0 → n ≤ 224 →
          (∀ e, serveAccess s m (payNat f 8 8) n .load = .inl e → sends t (paySrc f) 4 1 (rdataPayload (payTag f) e [])) ∧
          (∀ locs, serveAccess s m (payNat f 8 8) n .load = .inr locs → locs.any (badUnit s) = false →
            sends t (paySrc f) 4 1 (rdataPayload (payTag f) 0 (locs.map (memByte s))))))) ∧
      (f.kind = 5 → own → answers s (.wdata port f) (fun t => got t ∧ t.waves = s.waves ∧ t.parts = s.parts ∧
        let n : Nat := payNat f 16 2
        ((servedBy s (paySrc f) = none ∨ n = 0 ∨ 208 < n) → t.mem = s.mem ∧ sends t (paySrc f) 6 1 (srcTag (payTag f) ++ leBytes 2 1)) ∧
        (∀ m, servedBy s (paySrc f) = some m → n ≠ 0 → n ≤ 208 →
          (∀ e, serveAccess s m (payNat f 8 8) n .store = .inl e → t.mem = s.mem ∧ sends t (paySrc f) 6 1 (srcTag (payTag f) ++ leBytes e 1)) ∧
          (∀ locs, serveAccess s m (payNat f 8 8) n .store = .inr locs → (∀ a ∈ locs, badUnit s a = false) → locs.Nodup → s.moved = [] → s.migrations = [] →
            n + 32 ≤ f.payload.length →
            (∀ (j a : Nat) (x : Byte), locs[j]? = some a → (payBytes f 32 n)[j]? = some x → memByte t a = x) ∧
            (∀ a, a ∉ locs → memByte t a = memByte s a) ∧ sends t (paySrc f) 6 1 (srcTag (payTag f) ++ leBytes 0 1))))) ∧
      (f.kind = 1 → own → answers s (.areq port f) (fun t => got t ∧ t.waves = s.waves ∧ t.parts = s.parts ∧
        (∀ e, areqChecks s f = .inl e → t.mem = s.mem ∧ t.hist = s.hist ∧ sends t (paySrc f) 2 1 (arspPayload (payTag f) e [])) ∧
        (∀ ty locs b c, areqChecks s f = .inr (ty, [(locs, b, c)]) → locs.Nodup → locs.length = ty.size → s.moved = [] → s.migrations = [] →
          let old : Nat := ofLeBytes (locs.map (memByte s))
          t.hpt = s.hpt + 1 ∧
          (∀ x, atomNew (payNat f 8 1 % 16) ty old b c = some x → locs.map (memByte t) = leBytes x ty.size) ∧
          (atomNew (payNat f 8 1 % 16) ty old b c = none → ∀ a, memByte t a = memByte s a) ∧
          (∀ a, a ∉ locs → memByte t a = memByte s a) ∧
          sends t (paySrc f) 2 1 (arspPayload (payTag f) 0 (if (payNat f 10 1).testBit 0 = true then [old] else []))))) ∧
      (f.kind = 2 → own → answers s (.arsp port f) (fun t => got t ∧ t.mem = s.mem ∧ t.parts = s.parts ∧
        t.farReds = s.farReds.filter (fun r => !(r.dev == paySrc f && r.tag == payTag f)) ∧
        (∀ w, hasRemoteReq w (paySrc f) (payTag f) = false → ∀ k, tfind s.waves k = some w → s.waves.filter (fun x => x.1 == k) = [(k, w)] →
          tfind t.waves k = some w) ∧
        (∀ (id : WaveId) (w : Wave) (r : Req) (slot : Nat) (ty : Ty) (scal : Bool) (d : Nat), id.wave < 128 → id.block < 2 ^ 32 →
          s.waves.filter (fun x => x.1 == wkey id) = [(wkey id, w)] →
          w.reqs.filter (fun q => match q.kind with | .remote v g _ _ _ _ => v == paySrc f && g == payTag f | _ => false) = [r] →
          r.kind = .remote (paySrc f) (payTag f) slot ty scal (some d) → payNat f 8 1 = 0 →
          ∃ w', t.wave id = some w' ∧ hasRemoteReq w' (paySrc f) (payTag f) = false ∧ { w' with reqs := w.reqs, pend := w.pend } = w ∧
            w'.pend = w.pend.map (fun x => if x.tag = r.tag then { x with writes := x.writes ++ typeWrites ty scal d r.lane (payNat f (16 + 8 * slot) 8), ready := x.ready || !w'.reqs.any (fun q => q.tag == r.tag) } else x)))) ∧
      (∀ (i : Instr) (k : Nat) (data : List Byte), (i, k, data) ∈ [(Instr.rdata port f, 4, payBytes f 16 (payNat f 10 2)), (.wack port f, 6, [])] →
        f.kind.toNat = k → own → (k = 6 → ∀ r ∈ s.farReds, r.dev = paySrc f → r.tag = payTag f → payNat f 8 1 = 0 ∨ r.copy = none) →
        answers s i (fun t => got t ∧
          { t with ports := s.ports, copy := s.copy, farReds := s.farReds, launches := s.launches, latches := s.latches } = s ∧
          (k = 4 → t.farReds = s.farReds) ∧ (k = 6 → t.farReds = s.farReds.filter (fun r => !(r.dev == paySrc f && r.tag == payTag f))) ∧
          (k = 4 ∨ payNat f 8 1 = 0 → t.launches = s.launches ∧ t.latches = s.latches) ∧
          ∀ (ctx a b : Nat) (o : CopyOp) (r : RemRun), (s.copyCtx ctx).ops[a]? = some o → o.rem[b]? = some r →
            ∃ o', (t.copyCtx ctx).ops[a]? = some o' ∧ { o' with rem := o.rem } = o ∧
              o'.rem[b]? = some (if r.dev = paySrc f ∧ r.tag = payTag f ∧ r.got = none then { r with got := some (payNat f 8 1, data) } else r))) ∧
      (f.kind = 6 → own → ∀ r c, s.farReds.filter (fun r => r.dev == paySrc f && r.tag == payTag f) = [r] → r.copy = some c → payNat f 8 1 ≠ 0 →
        answers s (.wack port f) (fun t => got t ∧ t.farReds = s.farReds.filter (fun r => !(r.dev == paySrc f && r.tag == payTag f)) ∧
          (∃ x ∈ (t.copyCtx c.ctx).failed, x.num = c.num ∧ x.code = errOfStatus (payNat f 8 1) ∧ x.serial = r.serial ∧ x.pc = c.pc ∧
            x.value = r.addr.toNat) ∧
          (∀ n l, s.launch n = some l → ∃ l', t.launch n = some l' ∧ l'.traps = l.traps) ∧ t.waves = s.waves ∧ t.mem = s.mem))

/-- R381, R383, R384: a failed or reserved flit is counted and not taken, and more than 16 failed ones of the last 2^24 start a
retraining; the oldest unacknowledged flit can be sent again; a port that retrains sends and takes nothing, resumes from its oldest
unacknowledged flit, tries again after a failure, and is down after four in a row, its flits following other ports; a retraining past
its allowance is an event of each launch whose words it stalls.
The model's own choices in it: log entries 24, 40, 41. -/
def Obligations.PortsRetrain : Prop :=
  ∀ (s : State) (port : Nat) (f : Flit),
    let p := s.port port
    let sets (i : Instr) (q : Port) : Prop := answers s i (fun t => t.port port = q ∧ (∀ k, k ≠ port → t.port k = s.port k) ∧ { t with ports := s.ports } = s)
    let trains (q : Port) : Port := { q with retraining := true, since := s.tick, overdue := false, late := [], window := 0, crcAt := [] }
    let last : List Nat := ((p.window + 1) :: p.crcAt).filter (fun x => p.window + 1 < x + 2 ^ 24)
    let counted : Port := { p with window := p.window + 1, crc := p.crc + 1, crcAt := last }
    let counts (i : Instr) : Prop := (last.length ≤ 16 ∨ p.up = false ∨ p.retraining = true → sets i counted) ∧
      (16 < last.length → p.up = true → p.retraining = false → sets i (trains counted))
    port < 16 →
      counts (.crcFailure port) ∧
      (p.up = true → p.retraining = false →
        (f.kind = 7 → counts (.reservedFlit port f)) ∧ (f.kind ≠ 7 → idles s (.reservedFlit port f)) ∧
        (∀ g rest, p.replay = g :: rest → sets (.flitReplay port) { p with sent := p.sent ++ [g] }) ∧
        (p.replay = [] → idles s (.flitReplay port)) ∧ sets (.retrainStart port) (trains p) ∧
        idles s (.retrainEnd port true) ∧ idles s (.retrainAllowanceExpiry port)) ∧
      (p.retraining = true →
        (∀ i ∈ [Instr.areq port f, .arsp port f, .rreq port f, .rdata port f, .wdata port f, .wack port f, .link port f, .reservedFlit port f,
          .flitReplay port, .retrainStart port], idles s i) ∧
        (p.waiting = [] → answers s (.retrainEnd port true) (fun t =>
          t.port port = { p with retraining := false, overdue := false, late := [], fails := 0, sent := p.sent ++ p.replay } ∧
          (∀ k, k ≠ port → t.port k = s.port k) ∧ { t with ports := s.ports, launches := s.launches } = s)) ∧
        (p.fails < 3 → answers s (.retrainEnd port false) (fun t =>
          t.port port = { p with overdue := false, late := [], fails := p.fails + 1, since := s.tick } ∧
          (∀ k, k ≠ port → t.port k = s.port k) ∧ { t with ports := s.ports, launches := s.launches } = s)) ∧
        (3 ≤ p.fails → answers s (.retrainEnd port false) (fun t => (t.port port).up = false ∧ (t.port port).retraining = false ∧
          (t.port port).replay = [] ∧ (t.port port).waiting = [] ∧ (t.port port).overdue = true ∧
          (t.port port).lateAt = (if p.overdue = true then p.lateAt else s.tick) ∧
          (∀ g ∈ p.replay ++ p.waiting, ∃ k h, k ≠ port ∧ h ∈ (t.port k).waiting ++ (t.port k).sent ∧ h.dest = g.dest ∧ h.payload = g.payload) ∧
          { t with ports := s.ports } = s)) ∧
        (p.overdue = true → idles s (.retrainAllowanceExpiry port)) ∧
        (p.overdue = false → answers s (.retrainAllowanceExpiry port) (fun t => (t.port port).overdue = true ∧ (t.port port).lateAt = s.tick ∧
          (∀ k, k ≠ port → t.port k = s.port k) ∧ { t with ports := s.ports, launches := s.launches } = s ∧
          ∀ n l, s.launches.filter (fun x => x.1 == n) = [(n, l)] → s.launch n = some l →
            (stalledOn s port n = [] → t.launch n = some l) ∧
            (∀ x rest, stalledOn s port n = x :: rest → ∃ l', t.launch n = some l' ∧ l'.nevents = l.nevents + 1 ∧ l'.traps = l.traps ∧
              (n, l.nevents, x.1) ∈ (t.port port).late ∧
              (l.events.length < 64 → l'.events = l.events ++ [{ kind := 8, attr := aMACHINE, core := x.1, pc := x.2, value := 0 }])))))

/-! ### The machine: decoding, the step, the invariant, reset -/

/-- R34 to R52: every well-formed instruction word has a word, with every operand at every value that its encoding admits, and that word
decodes to the instruction; the rows that are no instruction words have none; and a word that decodes is the word of the well-formed
instruction that it decodes to. -/
def Obligations.DecodeUndoesEncode : Prop :=
  (∀ i : Instr, i.wellFormed = true → i.isWord = true → ∃ w, encode i = some w ∧ decode w = some i) ∧
  (∀ i : Instr, i.isWord = false → encode i = none) ∧
  (∀ (i : Instr) (w : BitVec 64), i.wellFormed = true → encode i = some w → decode w = some i) ∧
  (∀ (i : Instr) (w : BitVec 64), decode w = some i → i.wellFormed = true ∧ encode i = some w)

/-- Words that the spec writes out decode to the instructions they stand for, a reserved field that is not zero to none (R37, R60). -/
def Obligations.DecodesSpecWords : Prop :=
  decode 0x0300040408010002 = some (.iaddc { h := { pn := false, pm := 0, la := 0 }, form := .vec, ty := .n64, dst := 4, sa := 4, sb := 8, sc := 1, keep := 0 }) ∧
  decode 0x1700050302000041 = some (.bfx { h := { pn := false, pm := 0, la := 0 }, form := .bcast, ty := .i32, dst := 5, sa := 3, sb := 2, sc := 0, keep := 0 }) ∧
  decode 0x1900010001000801 = some (.icmp .lt { h := { pn := false, pm := 0, la := 0 }, form := .vec, ty := .i32, dst := 1, sa := 0, sb := 1, sc := 0, keep := 0 }) ∧
  decode 0x4000010000000008 = some (.movi { pn := false, pm := 0, la := 0 } 1 false false 8) ∧
  decode 0x40000911FFFFFFFF = some (.movi { pn := false, pm := 0, la := 0 } 9 true true 0xFFFFFFFF) ∧
  decode 0x1C00020001000082 = some (.nhash { h := { pn := false, pm := 0, la := 0 }, form := .scal, ty := .n64, dst := 2, sa := 0, sb := 1, sc := 0, keep := 0 }) ∧
  decode 0x1C00020001010082 = none ∧ decode 0x0000000000000000 = none

/-- R34, R55, R61, R88 to R90, R113, R211, R280, R384: the next move of the schedule is made. A path that its slot may choose, whose eight
bytes decode to `i`, runs `i`; the accounting around it counts the word and its quanta and touches no register, no memory and no
program counter, and the reuse latch gives the word the values that it holds. A path that may not be chosen does nothing; an event row is run as
it stands; with no move left the clock alone goes on. After the move each waiting path notes whether what it waits for has come
about, and each launch that a fabric port stalls is noted: nothing else.
The model's own choices in it: log entries 2, 16, 28, 72, 73. -/
def Obligations.StepRunsDecoded : Prop :=
  ∀ (s : State) (rest : List Move),
    let s0 : State := s.begin_ rest
    let noted (o : Host.Outcome State Fault Refusal) : Host.Outcome State Fault Refusal := match o with
      | .next t => .next (noteStalls (noteWaits t))
      | .fault e => .fault e
      | .refused e => .refused e
    (∀ (id : WaveId) (slotB : Bool) (c : Ctx) (bytes : List Byte) (i : Instr), s.agenda = .issue id slotB :: rest →
      s0.ctxAt id slotB = some c → c.chosen s0 = true → fetch s0 c = some bytes → decodeBytes bytes = some i →
      (∀ t, exec i (s0.chosenFor c i) = .next t → step s = noted (.next (account c i t))) ∧
      (∀ e, exec i (s0.chosenFor c i) = .fault e → step s = .fault e) ∧
      (∀ e, exec i (s0.chosenFor c i) = .refused e → step s = .refused e)) ∧
    (∀ (c : Ctx) (i : Instr) (u : State), s0.ctxAt c.id c.slotB = some c → c.id.wave < 128 → c.id.block < 2 ^ 32 →
      let slot : Nat := 4 * c.b.core + slotOf c.id
      u = s0.chosenFor c i → u.cur = (c.id, c.slotB) ∧ { u with waves := s.waves, cur := s.cur } = { s0 with waves := s.waves, cur := s.cur } ∧
        ∃ w, u.wave c.id = some w ∧ { w with v := c.w.v, s := c.w.s } = c.w ∧
          ((∀ x ∈ tget [] s.latches slot, x.wave = wkey c.id → x.vals = c.w.lanesOf x.reg x.scal) → c.w.width ≤ 64 →
            (∀ r l, l < 64 → w.readV r l = c.w.readV r l) ∧ ∀ r, w.readS r = c.w.readS r)) ∧
    (∀ (c : Ctx) (i : Instr) (t : State),
      (∀ x, t.wave c.id = some x → ∃ y, (account c i t).wave c.id = some y ∧ y.retired = x.retired + 1 ∧ y.charge = x.charge + chargeOf c i ∧
        y.slot c.slotB = (x.slot c.slotB).map (fun z => { z with retry := false }) ∧ y.slot (!c.slotB) = x.slot (!c.slotB) ∧
        { y with retired := x.retired, charge := x.charge, yielded := x.yielded, passed := x.passed, a := x.a, b := x.b } = x) ∧
      (∀ k x, k ≠ wkey c.id → tfind t.waves k = some x → ∃ y, tfind (account c i t).waves k = some y ∧ { y with yielded := x.yielded } = x) ∧
      { account c i t with waves := t.waves, blocks := t.blocks, launches := t.launches, clusters := t.clusters, latches := t.latches, served := t.served } = t) ∧
    (∀ t : State, { noteStalls (noteWaits t) with waves := t.waves, ports := t.ports, launches := t.launches } = t ∧
      (∀ k x, tfind t.waves k = some x → ∃ y, tfind (noteStalls (noteWaits t)).waves k = some y ∧ { y with a := x.a, b := x.b, spq := x.spq } = x) ∧
      (∀ n l, t.launch n = some l → ∃ y, (noteStalls (noteWaits t)).launch n = some y ∧
        { y with events := l.events, nevents := l.nevents, spans := l.spans } = l)) ∧
    (∀ (id : WaveId) (slotB : Bool), s.agenda = .issue id slotB :: rest →
      (∀ c, s0.ctxAt id slotB = some c → c.chosen s0 = false) → step s = noted (.next s0)) ∧
    (∀ i, s.agenda = .event i :: rest → step s = if encode i = none then noted (exec i s0) else noted (.next s0)) ∧
    (s.agenda = [] → step s = noted (.next { s with tick := s.tick + 1 }))

/-- Whatever state a step starts in, device memory and host memory keep their canonical form and the claim table lists each entry once: equal
memories stay equal data. The form is the model's own (log entry 1). -/
def Obligations.StepKeepsInvariant : Prop :=
  ∀ (s t : State), Inv s → step s = .next t → Inv t

/-- R34, R235, R288, R346, R375, R388: right after reset the invariant holds, no launch, block or wave exists, every core has every feature,
every claim entry is FREE, no partition has a ring or an offer, every port is up, and every cluster stands at 1.2 GHz and 0.67 V; bytes
never written read as zero (log entry 1).
The model's own choices in it: log entry 15. -/
def Obligations.ResetState : Prop :=
  Inv State.reset ∧ State.reset.launches = [] ∧ State.reset.blocks = [] ∧ State.reset.waves = [] ∧
  (∀ c, State.reset.feat c = 0x3FFFF) ∧ (∀ e, (State.reset.claim e).st = .free) ∧
  (∀ p, (State.reset.part p).ringslots = 0 ∧ (State.reset.part p).offers = [] ∧ (State.reset.part p).balance = 0 ∧ (State.reset.part p).ctrl = 0) ∧
  (∀ p, (State.reset.port p).up = true) ∧ (∀ k, (State.reset.cluster k).freq = 12 ∧ (State.reset.cluster k).mv = 670) ∧
  (∀ a, memByte State.reset a = 0) ∧ State.reset.powerUps = 1 ∧ State.reset.lastSerial = 0 ∧ State.reset.gen = 0
end

