-- ==== Sys2Proof/Laws/Maps.lean ====
section
/-! SUPPORT. The laws of finite maps: a read after a write, every other key left alone, the canonical form kept. -/

namespace Sys2Proof.Machine

variable {α : Type}

@[simp] theorem tfind_nil (k : Nat) : tfind ([] : Tab α) k = none := rfl

@[simp] theorem tfind_tput_same (t : Tab α) (k : Nat) (v : α) : tfind (tput t k v) k = some v := by
  induction t with
  | nil => simp [tput, tfind]
  | cons p t ih =>
    obtain ⟨j, u⟩ := p
    simp only [tput]
    split_ifs with h1 h2
    · simp [tfind]
    · simp [tfind]
    · simp [tfind, Ne.symm h2, ih]

theorem tfind_tput_other (t : Tab α) {k j : Nat} (v : α) (h : j ≠ k) : tfind (tput t k v) j = tfind t j := by
  induction t with
  | nil => simp [tput, tfind, Ne.symm h]
  | cons p t ih =>
    obtain ⟨i, u⟩ := p
    simp only [tput]
    split_ifs with h1 h2
    · simp [tfind, Ne.symm h]
    · subst h2; simp [tfind, Ne.symm h]
    · simp only [tfind]; split_ifs <;> simp [ih]

@[simp] theorem tfind_tdel_same (t : Tab α) (k : Nat) : tfind (tdel t k) k = none := by
  induction t with
  | nil => rfl
  | cons p t ih =>
    obtain ⟨i, u⟩ := p
    simp only [tdel, List.filter_cons] at ih ⊢
    split_ifs with h
    · simp only [tfind]
      split_ifs with e
      · exact absurd e (by simpa using h)
      · exact ih
    · exact ih

theorem tfind_tdel_other (t : Tab α) {k j : Nat} (h : j ≠ k) : tfind (tdel t k) j = tfind t j := by
  induction t with
  | nil => rfl
  | cons p t ih =>
    obtain ⟨i, u⟩ := p
    simp only [tdel, List.filter_cons] at ih ⊢
    split_ifs with e
    · simp only [tfind]; split_ifs <;> simp [ih]
    · have : i = k := by simpa using e
      subst this
      simp only [tfind, if_neg (Ne.symm h)]
      exact ih

@[simp] theorem tget_tput_same (d : α) (t : Tab α) (k : Nat) (v : α) : tget d (tput t k v) k = v := by simp [tget]

theorem tget_tput_other (d : α) (t : Tab α) {k j : Nat} (v : α) (h : j ≠ k) : tget d (tput t k v) j = tget d t j := by
  simp [tget, tfind_tput_other t v h]

/-- A read after a write to the same key. -/
@[simp] theorem tget_tset_same [DecidableEq α] (d : α) (t : Tab α) (k : Nat) (v : α) : tget d (tset d t k v) k = v := by
  unfold tset; split_ifs with h <;> simp [tget, h]

/-- A write leaves every other key alone. -/
theorem tget_tset_other [DecidableEq α] (d : α) (t : Tab α) {k j : Nat} (v : α) (h : j ≠ k) :
    tget d (tset d t k v) j = tget d t j := by
  unfold tset; split_ifs
  · simp [tget, tfind_tdel_other t h]
  · exact tget_tput_other d t v h

theorem tget_tset [DecidableEq α] (d : α) (t : Tab α) (k j : Nat) (v : α) :
    tget d (tset d t k v) j = if j = k then v else tget d t j := by
  split_ifs with h
  · subst h; simp
  · exact tget_tset_other d t v h

theorem tget_tput (d : α) (t : Tab α) (k j : Nat) (v : α) : tget d (tput t k v) j = if j = k then v else tget d t j := by
  split_ifs with h
  · subst h; simp
  · exact tget_tput_other d t v h

/-- A run of values reads back at its keys; every other key is left alone. -/
theorem tget_tputs [DecidableEq α] (d : α) (vs : List α) (t : Tab α) (k j : Nat) :
    tget d (tputs d t k vs) j = if k ≤ j ∧ j < k + vs.length then vs.getD (j - k) d else tget d t j := by
  induction vs generalizing t k with
  | nil => simp only [tputs, List.length_nil]; rw [if_neg]; omega
  | cons v vs ih =>
    simp only [tputs, ih, List.length_cons]
    by_cases h : k + 1 ≤ j ∧ j < k + 1 + vs.length
    · rw [if_pos h, if_pos (by omega)]
      have : j - k = (j - (k + 1)) + 1 := by omega
      rw [this]; simp
    · rw [if_neg h, tget_tset]
      by_cases e : j = k
      · subst e; simp
      · rw [if_neg e, if_neg (by omega)]

/-! ### The canonical form -/

theorem keysAbove_mono {i k : Nat} {t : Tab α} (h : i ≤ k) (a : keysAbove k t = true) : keysAbove i t = true := by
  simp only [keysAbove, List.all_eq_true, decide_eq_true_eq] at *
  intro p hp; exact lt_of_le_of_lt h (a p hp)

theorem keysAbove_tput {i k : Nat} {v : α} {t : Tab α} (h : i < k) (a : keysAbove i t = true) : keysAbove i (tput t k v) = true := by
  induction t with
  | nil => simp [tput, keysAbove, h]
  | cons p t ih =>
    obtain ⟨j, u⟩ := p
    simp only [keysAbove, List.all_cons, Bool.and_eq_true, decide_eq_true_eq] at a ih ⊢
    simp only [tput]
    split_ifs with h1 h2
    · simp only [List.all_cons, Bool.and_eq_true, decide_eq_true_eq]; exact ⟨h, a⟩
    · simp only [List.all_cons, Bool.and_eq_true, decide_eq_true_eq]; exact ⟨h, a.2⟩
    · simp only [List.all_cons, Bool.and_eq_true, decide_eq_true_eq]; exact ⟨a.1, ih a.2⟩

theorem tsorted_tput {t : Tab α} (k : Nat) (v : α) (h : tsorted t = true) : tsorted (tput t k v) = true := by
  induction t with
  | nil => simp [tput, tsorted, keysAbove]
  | cons p t ih =>
    obtain ⟨j, u⟩ := p
    have hs : keysAbove j t = true ∧ tsorted t = true := by simpa [tsorted] using h
    simp only [tput]
    split_ifs with h1 h2
    · simp only [tsorted, Bool.and_eq_true]
      refine ⟨?_, hs.1, hs.2⟩
      simp only [keysAbove, List.all_cons, Bool.and_eq_true, decide_eq_true_eq]
      exact ⟨h1, by simpa [keysAbove] using keysAbove_mono (le_of_lt h1) hs.1⟩
    · subst h2; simp [tsorted, hs.1, hs.2]
    · simp only [tsorted, Bool.and_eq_true]
      exact ⟨keysAbove_tput (by omega) hs.1, ih hs.2⟩

theorem tsorted_tdel {t : Tab α} (k : Nat) (h : tsorted t = true) : tsorted (tdel t k) = true := by
  induction t with
  | nil => rfl
  | cons p t ih =>
    obtain ⟨j, u⟩ := p
    have hs : keysAbove j t = true ∧ tsorted t = true := by simpa [tsorted] using h
    simp only [tdel, List.filter_cons] at ih ⊢
    split_ifs
    · simp only [tsorted, Bool.and_eq_true]
      refine ⟨?_, ih hs.2⟩
      have := hs.1
      simp only [keysAbove, List.all_eq_true, decide_eq_true_eq] at this ⊢
      intro q hq; exact this q (List.mem_of_mem_filter hq)
    · exact ih hs.2

theorem mem_tput {t : Tab α} {k : Nat} {v : α} {p : Nat × α} (h : p ∈ tput t k v) : p = (k, v) ∨ p ∈ t := by
  induction t with
  | nil => simpa [tput] using h
  | cons q t ih =>
    obtain ⟨j, u⟩ := q
    simp only [tput] at h
    split_ifs at h with h1 h2
    · simpa using h
    · rcases List.mem_cons.mp h with e | e
      · exact .inl e
      · exact .inr (List.mem_cons_of_mem _ e)
    · rcases List.mem_cons.mp h with e | e
      · exact .inr (e ▸ List.mem_cons_self)
      · exact (ih e).imp id (List.mem_cons_of_mem _)

/-- The canonical form is kept by every write of one key. -/
theorem tcanon_tset [DecidableEq α] {d : α} {t : Tab α} (k : Nat) (v : α) (h : tcanon d t = true) : tcanon d (tset d t k v) = true := by
  simp only [tcanon, Bool.and_eq_true, List.all_eq_true, decide_eq_true_eq] at *
  unfold tset
  split_ifs with e
  · exact ⟨tsorted_tdel k h.1, fun p hp => h.2 p (List.mem_of_mem_filter hp)⟩
  · refine ⟨tsorted_tput k v h.1, fun p hp => ?_⟩
    rcases mem_tput hp with r | r
    · subst r; exact e
    · exact h.2 p r

/-- The canonical form is kept by a run of writes. -/
theorem tcanon_tputs [DecidableEq α] {d : α} {t : Tab α} (k : Nat) (vs : List α) (h : tcanon d t = true) :
    tcanon d (tputs d t k vs) = true := by
  induction vs generalizing t k with
  | nil => exact h
  | cons v vs ih => exact ih (k + 1) (tcanon_tset k v h)

/-- A change of a listed entry. -/
theorem tmod_of_find {t : Tab α} {k : Nat} {v : α} (f : α → α) (h : tfind t k = some v) : tmod t k f = tput t k (f v) := by
  simp [tmod, h]

theorem tmod_of_none {t : Tab α} {k : Nat} (f : α → α) (h : tfind t k = none) : tmod t k f = t := by simp [tmod, h]

/-! ### Bytes -/

@[simp] theorem leBytes_length (n k : Nat) : (leBytes n k).length = k := by
  induction k generalizing n with
  | zero => rfl
  | succ k ih => simp [leBytes, ih]

/-- Bytes written and read back. -/
theorem ofLeBytes_leBytes (n k : Nat) : ofLeBytes (leBytes n k) = n % 256 ^ k := by
  induction k generalizing n with
  | zero => simp [leBytes, ofLeBytes, Nat.mod_one]
  | succ k ih =>
    have h : n % 256 ^ (k + 1) = n % 256 + 256 * (n / 256 % 256 ^ k) := by
      rw [pow_succ, Nat.mul_comm (256 ^ k) 256, Nat.mod_mul]
    simp only [leBytes, ofLeBytes, ih, BitVec.toNat_ofNat, h, Nat.reducePow]

end Sys2Proof.Machine
end

