-- ==== Sys2Proof/Laws/Issue.lean ====
section
/-! SUPPORT. The laws of issuing a word: what the cursor names, what moving past a word leaves, how register writes read
back. -/

namespace Sys2Proof.Machine

/-! ### The cursor -/

theorem ctxAt_spec {s : State} {id : WaveId} {b : Bool} {c : Ctx} (h : s.ctxAt id b = some c) :
    c.id = id ∧ c.slotB = b ∧ s.wave id = some c.w ∧ s.block id.serial id.block = some c.b ∧ s.launch id.serial = some c.l ∧
      c.w.slot b = some c.sl := by
  unfold State.ctxAt at h
  split at h
  · rename_i w bl l hw hb hl
    simp only [Option.map_eq_some_iff] at h
    obtain ⟨sl, hs, rfl⟩ := h
    exact ⟨rfl, rfl, hw, hb, hl, hs⟩
  · cases h

/-- The wave, block, launch and slot that the cursor names are those of the state. -/
theorem issuer_spec {s : State} {c : Ctx} (h : s.issuer = some c) :
    s.wave c.id = some c.w ∧ s.block c.id.serial c.id.block = some c.b ∧ s.launch c.id.serial = some c.l ∧
      c.w.slot c.slotB = some c.sl := by
  obtain ⟨rfl', rfl'', hw, hb, hl, hs⟩ := ctxAt_spec h
  rw [rfl', rfl'']; exact ⟨hw, hb, hl, hs⟩

/-- A word executes for the path at the cursor. -/
theorem issue_of {s : State} {c : Ctx} (h : s.issuer = some c) (f : Ctx → State) : issue s f = .next (f c) := by
  simp [issue, h]

theorem issueOut_of {s : State} {c : Ctx} (h : s.issuer = some c) (f : Ctx → Out) : issueOut s f = f c := by
  simp [issueOut, h]

theorem modWave_of {s : State} {id : WaveId} {w : Wave} (h : s.wave id = some w) (f : Wave → Wave) :
    s.modWave id f = s.setWave id (f w) := by
  simp only [State.modWave, State.setWave]
  rw [tmod_of_find f h]

theorem modBlock_of {s : State} {n b : Nat} {x : Block} (h : s.block n b = some x) (f : Block → Block) :
    s.modBlock n b f = { s with blocks := tput s.blocks (bkey n b) (f x) } := by
  simp only [State.modBlock]; rw [tmod_of_find f h]

theorem modLaunch_of {s : State} {n : Nat} {x : Launch} (h : s.launch n = some x) (f : Launch → Launch) :
    s.modLaunch n f = { s with launches := tput s.launches n (f x) } := by
  simp only [State.modLaunch]; rw [tmod_of_find f h]

@[simp] theorem wave_setWave (s : State) (id : WaveId) (w : Wave) : (s.setWave id w).wave id = some w := by
  simp [State.wave, State.setWave]

/-- Moving past a word rewrites the issuing wave alone. -/
theorem done_of {s : State} {c : Ctx} (h : s.issuer = some c) (f : Wave → Wave) :
    c.done s f = s.setWave c.id ((f c.w).advance c.slotB) := modWave_of (issuer_spec h).1 _

/-! ### Registers -/

theorem readV_writeV (w : Wave) (r l r' l' : Nat) (x : Word) (hl : l < 64) (hl' : l' < 64) :
    (w.writeV r l x).readV r' l' = if r' = r ∧ l' = l then x else w.readV r' l' := by
  simp only [Wave.readV, Wave.writeV, tget_tset]
  have : (64 * r' + l' = 64 * r + l) ↔ (r' = r ∧ l' = l) := by omega
  simp only [this]

theorem readS_writeS (w : Wave) (r r' : Nat) (x : DWord) :
    (w.writeS r x).readS r' = if r' = r then x else w.readS r' := by
  simp [Wave.readS, Wave.writeS, tget_tset]

@[simp] theorem writeV_readS (w : Wave) (r l r' : Nat) (x : Word) : (w.writeV r l x).readS r' = w.readS r' := rfl
@[simp] theorem writeV_readM (w : Wave) (r l r' : Nat) (x : Word) : (w.writeV r l x).readM r' = w.readM r' := rfl
@[simp] theorem writeS_readV (w : Wave) (r r' l : Nat) (x : DWord) : (w.writeS r x).readV r' l = w.readV r' l := rfl
@[simp] theorem writeS_readM (w : Wave) (r r' : Nat) (x : DWord) : (w.writeS r x).readM r' = w.readM r' := rfl
@[simp] theorem writeM_readV (w : Wave) (r r' l : Nat) (on x : Mask) : (w.writeM r on x).readV r' l = w.readV r' l := by
  unfold Wave.writeM; split <;> rfl
@[simp] theorem writeM_readS (w : Wave) (r r' : Nat) (on x : Mask) : (w.writeM r on x).readS r' = w.readS r' := by
  unfold Wave.writeM; split <;> rfl
@[simp] theorem writeM_width (w : Wave) (r : Nat) (on x : Mask) : (w.writeM r on x).width = w.width := by
  unfold Wave.writeM; split <;> rfl

theorem allLanes_bit (n l : Nat) (hl : l < n) (h64 : l < 64) : (allLanes n).getLsbD l = true := by
  simp only [allLanes, BitVec.getLsbD_ofNat, h64, decide_true, Bool.true_and]
  rw [Nat.testBit_two_pow_sub_one]; simpa using hl

/-- A write of the bits of `on` of a mask register, read back at a lane of the wave. -/
theorem readM_writeM (w : Wave) (r r' l : Nat) (on x : Mask) (hl : l < w.width) (h64 : l < 64) :
    ((w.writeM r on x).readM r').getLsbD l =
      if r' = r ∧ r' ≠ 0 ∧ on.getLsbD l = true then x.getLsbD l else (w.readM r').getLsbD l := by
  by_cases h0 : r = 0
  · subst h0
    simp only [Wave.writeM, if_true]
    rw [if_neg]; rintro ⟨a, b, _⟩; exact b a
  · by_cases h0' : r' = 0
    · subst h0'
      rw [if_neg (by simp)]
      simp [Wave.readM, Wave.writeM, h0]
    · by_cases e : r' = r
      · subst e
        simp only [Wave.writeM, if_neg h0, Wave.readM, tget_tset_same, BitVec.getLsbD_and, BitVec.getLsbD_or,
          BitVec.getLsbD_not, allLanes_bit w.width l hl h64, h64, decide_true, Bool.true_and, Bool.and_true]
        cases h : on.getLsbD l <;> simp [h0']
      · simp only [Wave.writeM, if_neg h0, Wave.readM, if_neg h0', tget_tset_other _ _ _ e, e, false_and, if_false]

@[simp] theorem applyWrites_nil (w : Wave) : w.applyWrites [] = w := rfl
@[simp] theorem applyWrites_cons (w : Wave) (x : RegWrite) (xs : List RegWrite) :
    w.applyWrites (x :: xs) = (w.applyWrite x).applyWrites xs := rfl
@[simp] theorem applyWrite_v (w : Wave) (r l : Nat) (x : Word) : w.applyWrite (.v r l x) = w.writeV r l x := rfl
@[simp] theorem applyWrite_s (w : Wave) (r : Nat) (x : DWord) : w.applyWrite (.s r x) = w.writeS r x := rfl
@[simp] theorem applyWrite_m (w : Wave) (r : Nat) (on x : Mask) : w.applyWrite (.m r on x) = w.writeM r on x := rfl
theorem applyWrites_append (w : Wave) (xs ys : List RegWrite) : w.applyWrites (xs ++ ys) = (w.applyWrites xs).applyWrites ys := by
  simp [Wave.applyWrites]

/-- The wave with the registers of another. -/
def Wave.withRegs (w : Wave) (u : Wave) : Wave := { w with v := u.v, s := u.s, m := u.m }

theorem applyWrite_withRegs (w u : Wave) (x : RegWrite) : (w.applyWrite x).withRegs u = w.withRegs u := by
  cases x <;> simp only [Wave.applyWrite, Wave.writeV, Wave.writeS, Wave.writeM, Wave.withRegs]
  split <;> rfl

/-- Register writes change registers only. -/
theorem applyWrites_withRegs (w u : Wave) (xs : List RegWrite) : (w.applyWrites xs).withRegs u = w.withRegs u := by
  induction xs generalizing w with
  | nil => rfl
  | cons x xs ih => rw [applyWrites_cons, ih, applyWrite_withRegs]

theorem advance_withRegs (w u : Wave) (b : Bool) : (w.advance b).withRegs u = (w.withRegs u).advance b := by
  cases b <;> rfl

theorem withRegs_self (w : Wave) : w.withRegs w = w := rfl

/-- A word that writes registers leaves everything else of its wave as moving past it does. -/
theorem past_write (c : Ctx) (xs : List RegWrite) : c.past ((c.w.applyWrites xs).advance c.slotB) := by
  show ((c.w.applyWrites xs).advance c.slotB).withRegs c.w = _
  rw [advance_withRegs, applyWrites_withRegs, withRegs_self]

@[simp] theorem advance_readV (w : Wave) (b : Bool) (r l : Nat) : (w.advance b).readV r l = w.readV r l := by cases b <;> rfl
@[simp] theorem advance_readS (w : Wave) (b : Bool) (r : Nat) : (w.advance b).readS r = w.readS r := by cases b <;> rfl
@[simp] theorem advance_readM (w : Wave) (b : Bool) (r : Nat) : (w.advance b).readM r = w.readM r := by cases b <;> rfl
@[simp] theorem advance_width (w : Wave) (b : Bool) : (w.advance b).width = w.width := by cases b <;> rfl

@[simp] theorem applyWrites_width (w : Wave) (xs : List RegWrite) : (w.applyWrites xs).width = w.width := by
  induction xs generalizing w with
  | nil => rfl
  | cons x xs ih =>
    rw [applyWrites_cons, ih]
    cases x <;> simp [Wave.applyWrite, Wave.writeV, Wave.writeS]

theorem lanesOf_lt {w : Nat} {m : Mask} {l : Nat} (h : l ∈ lanesOf w m) : l < 64 := by
  simp only [lanesOf, List.mem_filter] at h
  by_contra hc
  have := BitVec.getLsbD_of_ge m l (by omega)
  simp [this] at h

theorem mem_lanesOf {w : Nat} {m : Mask} {l : Nat} : l ∈ lanesOf w m ↔ l < w ∧ m.getLsbD l = true := by
  simp [lanesOf]

theorem maskOf_bit (ls : List Nat) (l : Nat) (h : l < 64) : (maskOf ls).getLsbD l = decide (l ∈ ls) := by
  have key : ∀ (m : Mask), (ls.foldl (fun m l => m ||| (1#64 <<< l)) m).getLsbD l = (m.getLsbD l || decide (l ∈ ls)) := by
    induction ls with
    | nil => intro m; simp
    | cons a t ih =>
      intro m
      rw [List.foldl_cons, ih]
      simp only [BitVec.getLsbD_or, List.mem_cons, BitVec.getLsbD_shiftLeft, h, decide_true, Bool.true_and, BitVec.getLsbD_one,
        Nat.ofNat_pos]
      by_cases e : l = a
      · subst e; simp
      · by_cases g : l < a
        · simp [g, e]
        · have : ¬ (l - a = 0) := by omega
          simp [e, this, g]
  simpa [maskOf] using key 0#64

/-! ### The writes of a lane word -/

theorem typeWrites_scal (t : Ty) (d l n : Nat) : typeWrites t true d l n = [.s d (extend t n)] := by simp [typeWrites]

/-- Vector writes leave scalar and mask registers alone. -/
theorem vecWrites_readS (w : Wave) (ls : List Nat) (t : Ty) (d : Nat) (x : Nat → Nat) (r : Nat) :
    (w.applyWrites (ls.flatMap (fun l => typeWrites t false d l (x l)))).readS r = w.readS r := by
  induction ls generalizing w with
  | nil => rfl
  | cons a ls ih =>
    rw [List.flatMap_cons, applyWrites_append, ih]
    cases h : t.wide <;> simp [typeWrites, h, Wave.applyWrite]

theorem vecWrites_readM (w : Wave) (ls : List Nat) (t : Ty) (d : Nat) (x : Nat → Nat) (r : Nat) :
    (w.applyWrites (ls.flatMap (fun l => typeWrites t false d l (x l)))).readM r = w.readM r := by
  induction ls generalizing w with
  | nil => rfl
  | cons a ls ih =>
    rw [List.flatMap_cons, applyWrites_append, ih]
    cases h : t.wide <;> simp [typeWrites, h, Wave.applyWrite]

/-- Vector writes read back lane by lane. -/
theorem vecWrites_readV (w : Wave) (ls : List Nat) (t : Ty) (d : Nat) (x : Nat → Nat) (hls : ∀ l ∈ ls, l < 64) (r l : Nat) (hl : l < 64) :
    (w.applyWrites (ls.flatMap (fun l => typeWrites t false d l (x l)))).readV r l =
      if l ∈ ls ∧ r = d then (extend t (x l)).extractLsb' 0 32
      else if l ∈ ls ∧ t.wide = true ∧ r = d + 1 then (extend t (x l)).extractLsb' 32 32
      else w.readV r l := by
  induction ls generalizing w with
  | nil => simp
  | cons a ls ih =>
    have ha : a < 64 := hls a (by simp)
    rw [List.flatMap_cons, applyWrites_append, ih _ (fun m hm => hls m (by simp [hm]))]
    by_cases hm : l ∈ ls
    · simp only [hm, true_and, List.mem_cons, or_true]
      split_ifs with h1 h2
      · rfl
      · rfl
      · cases h : t.wide
        · simp [typeWrites, h, Wave.applyWrite, readV_writeV _ _ _ _ _ _ ha hl, h1]
        · have : r ≠ d + 1 := fun e => h2 ⟨h, e⟩
          simp [typeWrites, h, Wave.applyWrite, readV_writeV _ _ _ _ _ _ ha hl, h1, this]
    · simp only [hm, false_and, if_false, List.mem_cons, or_false]
      by_cases e : l = a
      · subst e
        cases h : t.wide
        · simp [typeWrites, h, readV_writeV _ _ _ _ _ _ ha hl]
        · by_cases e1 : r = d
          · subst e1; simp [typeWrites, h, readV_writeV _ _ _ _ _ _ ha hl]
          · by_cases e2 : r = d + 1
            · subst e2; simp [typeWrites, h, readV_writeV _ _ _ _ _ _ ha hl]
            · simp [typeWrites, h, readV_writeV _ _ _ _ _ _ ha hl, e1, e2]
      · cases h : t.wide <;> simp [typeWrites, h, readV_writeV _ _ _ _ _ _ ha hl, e]

theorem turns_scal (c : Ctx) (r : Lane) (h : r.form = .scal) : c.turns r = if c.any r.h then [0] else [] := by simp [Ctx.turns, h]
theorem turns_vec (c : Ctx) (r : Lane) (h : r.form ≠ .scal) : c.turns r = c.lanes r.h := by
  simp only [Ctx.turns]; rw [if_neg]; simpa using h

/-- What a class A lane word leaves: the values of its turns in DST and nothing else. -/
theorem wroteLane_of (c : Ctx) (r : Lane) (t : Ty) (x : Nat → Nat) :
    c.wroteLane ((c.w.applyWrites ((c.turns r).flatMap (fun l => typeWrites t (r.form == .scal) r.dst.toNat l (x l)))).advance c.slotB) r t x := by
  refine ⟨past_write _ _, ?_, ?_⟩
  · intro m
    rw [advance_readM]
    by_cases h : r.form = .scal
    · rw [turns_scal c r h, h]
      cases c.any r.h <;> simp [typeWrites_scal, Wave.applyWrite]
    · have e : (r.form == .scal) = false := by simpa using h
      rw [e, vecWrites_readM]
  · by_cases h : r.form = .scal
    · rw [if_pos h, turns_scal c r h, h]
      constructor
      · intro a l hl
        cases c.any r.h <;> simp [typeWrites_scal, Wave.applyWrite]
      · intro a
        cases c.any r.h <;> simp [typeWrites_scal, Wave.applyWrite, readS_writeS]
    · have e : (r.form == .scal) = false := by simpa using h
      rw [if_neg h, e, turns_vec c r h]
      constructor
      · intro a; rw [advance_readS, vecWrites_readS]
      · intro a l hl
        rw [advance_readV]
        exact vecWrites_readV c.w (c.lanes r.h) t r.dst.toNat x (fun m hm => lanesOf_lt (w := c.w.width) (m := c.eff r.h) hm) a l hl

/-- What a word that writes one mask register leaves. -/
theorem wroteM_of (c : Ctx) (d : Nat) (on x : Mask) :
    let w := (c.w.applyWrites [.m d on x]).advance c.slotB
    c.past w ∧ c.sameV w ∧ c.sameS w ∧ c.wroteM w d on (fun l => x.getLsbD l) := by
  refine ⟨past_write _ _, ?_, ?_, ?_⟩
  · intro r l _; simp [Wave.applyWrite]
  · intro r; simp [Wave.applyWrite]
  · intro r l hl h64
    simp only [advance_readM, applyWrites_cons, applyWrites_nil, Wave.applyWrite]
    exact readM_writeM _ _ _ _ _ _ hl h64

/-! ### What the two drivers of register words do -/

/-- A class A word changes the issuing wave alone, by its writes. -/
theorem leavesWave_write {s : State} {c : Ctx} {i : Instr} {ws : List RegWrite} {P : Wave → Prop} (h : s.issuer = some c)
    (he : exec i s = .next (c.write s ws)) (hp : P ((c.w.applyWrites ws).advance c.slotB)) : leavesWave c s i P :=
  ⟨_, he.trans (congrArg _ (done_of h _)), hp⟩

theorem leavesWave_done {s : State} {c : Ctx} {i : Instr} {f : Wave → Wave} {P : Wave → Prop} (h : s.issuer = some c)
    (he : exec i s = .next (c.done s f)) (hp : P ((f c.w).advance c.slotB)) : leavesWave c s i P :=
  ⟨_, he.trans (congrArg _ (done_of h _)), hp⟩

theorem passes_of {s : State} {c : Ctx} {i : Instr} (h : s.issuer = some c) (he : exec i s = .next (c.done s id)) : passes c s i :=
  he.trans (congrArg _ (done_of h _))

/-- A class S word queues its writes. -/
theorem latersWave_later {s : State} {c : Ctx} {i : Instr} {dst : List Reg} {ws : List RegWrite} {P : Wave → Prop}
    (h : s.issuer = some c) (he : exec i s = .next (c.later s dst ws)) (hp : P ((c.w.applyWrites ws).advance c.slotB)) :
    latersWave c s i dst P := by
  refine ⟨ws, he.trans (congrArg _ ?_), hp⟩
  rw [Ctx.later, done_of h]

/-- The values of a vector word's lanes in one register or pair, and nothing else. -/
theorem vecOnly_of (c : Ctx) (d : Nat) (t : Ty) (ls : List Nat) (x : Nat → Nat) (hls : ∀ l ∈ ls, l < 64) :
    c.vecOnly ((c.w.applyWrites (ls.flatMap (fun l => typeWrites t false d l (x l)))).advance c.slotB) d t.wide ls (fun l => extend t (x l)) := by
  refine ⟨past_write _ _, ?_, ?_, ?_⟩
  · intro r; rw [advance_readS, vecWrites_readS]
  · intro r; rw [advance_readM, vecWrites_readM]
  · intro r l hl; rw [advance_readV]; exact vecWrites_readV c.w ls t d x hls r l hl

theorem lanes_lt (c : Ctx) (h : Hdr) : ∀ l ∈ c.lanes h, l < 64 := fun _ hl => lanesOf_lt (w := c.w.width) (m := c.eff h) hl

theorem scalOnly_of (c : Ctx) (d : Nat) (on : Bool) (x : BitVec 64) :
    c.scalOnly ((c.w.applyWrites (if on then [.s d x] else [])).advance c.slotB) d on x := by
  refine ⟨past_write _ _, ?_, ?_, ?_⟩
  · intro r l _; cases on <;> simp
  · intro r; cases on <;> simp
  · intro r; cases on <;> simp [readS_writeS]

theorem maskOnly_of (c : Ctx) (d : Nat) (on x : Mask) (p : Nat → Bool)
    (hp : ∀ l, l < c.w.width → l < 64 → on.getLsbD l = true → x.getLsbD l = p l) :
    c.maskOnly ((c.w.applyWrites [.m d on x]).advance c.slotB) d on p := by
  obtain ⟨h1, h2, h3, h4⟩ := wroteM_of c d on x
  refine ⟨h1, h2, h3, fun r l hl h64 => ?_⟩
  rw [h4 r l hl h64]
  by_cases e : r = d ∧ r ≠ 0 ∧ on.getLsbD l = true
  · rw [if_pos e, if_pos e]; exact hp l hl h64 e.2.2
  · rw [if_neg e, if_neg e]

end Sys2Proof.Machine
end

