-- ==== Sys2Proof/Laws/State.lean ====
section
/-! SUPPORT. Each named update of the state changes one field: one lemma per field per update, true by definition. -/

namespace Sys2Proof.Machine

variable (s : State)

/-! ### setWave -/

@[simp] theorem State.setWave_tick (w : WaveId) (x : Wave) : (s.setWave w x).tick = s.tick := rfl
@[simp] theorem State.setWave_agenda (w : WaveId) (x : Wave) : (s.setWave w x).agenda = s.agenda := rfl
@[simp] theorem State.setWave_cur (w : WaveId) (x : Wave) : (s.setWave w x).cur = s.cur := rfl
@[simp] theorem State.setWave_seq (w : WaveId) (x : Wave) : (s.setWave w x).seq = s.seq := rfl
@[simp] theorem State.setWave_free (w : WaveId) (x : Wave) : (s.setWave w x).free = s.free := rfl
@[simp] theorem State.setWave_mem (w : WaveId) (x : Wave) : (s.setWave w x).mem = s.mem := rfl
@[simp] theorem State.setWave_hist (w : WaveId) (x : Wave) : (s.setWave w x).hist = s.hist := rfl
@[simp] theorem State.setWave_bad (w : WaveId) (x : Wave) : (s.setWave w x).bad = s.bad := rfl
@[simp] theorem State.setWave_hostMem (w : WaveId) (x : Wave) : (s.setWave w x).hostMem = s.hostMem := rfl
@[simp] theorem State.setWave_moved (w : WaveId) (x : Wave) : (s.setWave w x).moved = s.moved := rfl
@[simp] theorem State.setWave_vfGrant (w : WaveId) (x : Wave) : (s.setWave w x).vfGrant = s.vfGrant := rfl
@[simp] theorem State.setWave_hot (w : WaveId) (x : Wave) : (s.setWave w x).hot = s.hot := rfl
@[simp] theorem State.setWave_corrected (w : WaveId) (x : Wave) : (s.setWave w x).corrected = s.corrected := rfl
@[simp] theorem State.setWave_migrations (w : WaveId) (x : Wave) : (s.setWave w x).migrations = s.migrations := rfl
@[simp] theorem State.setWave_sets (w : WaveId) (x : Wave) : (s.setWave w x).sets = s.sets := rfl
@[simp] theorem State.setWave_pubs (w : WaveId) (x : Wave) : (s.setWave w x).pubs = s.pubs := rfl
@[simp] theorem State.setWave_pubPt (w : WaveId) (x : Wave) : (s.setWave w x).pubPt = s.pubPt := rfl
@[simp] theorem State.setWave_views (w : WaveId) (x : Wave) : (s.setWave w x).views = s.views := rfl
@[simp] theorem State.setWave_launches (w : WaveId) (x : Wave) : (s.setWave w x).launches = s.launches := rfl
@[simp] theorem State.setWave_blocks (w : WaveId) (x : Wave) : (s.setWave w x).blocks = s.blocks := rfl
@[simp] theorem State.setWave_copy (w : WaveId) (x : Wave) : (s.setWave w x).copy = s.copy := rfl
@[simp] theorem State.setWave_engineLast (w : WaveId) (x : Wave) : (s.setWave w x).engineLast = s.engineLast := rfl
@[simp] theorem State.setWave_bslots (w : WaveId) (x : Wave) : (s.setWave w x).bslots = s.bslots := rfl
@[simp] theorem State.setWave_sweeps (w : WaveId) (x : Wave) : (s.setWave w x).sweeps = s.sweeps := rfl
@[simp] theorem State.setWave_claims (w : WaveId) (x : Wave) : (s.setWave w x).claims = s.claims := rfl
@[simp] theorem State.setWave_hands (w : WaveId) (x : Wave) : (s.setWave w x).hands = s.hands := rfl
@[simp] theorem State.setWave_parts (w : WaveId) (x : Wave) : (s.setWave w x).parts = s.parts := rfl
@[simp] theorem State.setWave_clusters (w : WaveId) (x : Wave) : (s.setWave w x).clusters = s.clusters := rfl
@[simp] theorem State.setWave_feats (w : WaveId) (x : Wave) : (s.setWave w x).feats = s.feats := rfl
@[simp] theorem State.setWave_lostQuads (w : WaveId) (x : Wave) : (s.setWave w x).lostQuads = s.lostQuads := rfl
@[simp] theorem State.setWave_ports (w : WaveId) (x : Wave) : (s.setWave w x).ports = s.ports := rfl
@[simp] theorem State.setWave_routes (w : WaveId) (x : Wave) : (s.setWave w x).routes = s.routes := rfl
@[simp] theorem State.setWave_rtindex (w : WaveId) (x : Wave) : (s.setWave w x).rtindex = s.rtindex := rfl
@[simp] theorem State.setWave_flitTags (w : WaveId) (x : Wave) : (s.setWave w x).flitTags = s.flitTags := rfl
@[simp] theorem State.setWave_farReds (w : WaveId) (x : Wave) : (s.setWave w x).farReds = s.farReds := rfl
@[simp] theorem State.setWave_latches (w : WaveId) (x : Wave) : (s.setWave w x).latches = s.latches := rfl
@[simp] theorem State.setWave_served (w : WaveId) (x : Wave) : (s.setWave w x).served = s.served := rfl
@[simp] theorem State.setWave_gen (w : WaveId) (x : Wave) : (s.setWave w x).gen = s.gen := rfl
@[simp] theorem State.setWave_house (w : WaveId) (x : Wave) : (s.setWave w x).house = s.house := rfl
@[simp] theorem State.setWave_lastSerial (w : WaveId) (x : Wave) : (s.setWave w x).lastSerial = s.lastSerial := rfl
@[simp] theorem State.setWave_grantStat (w : WaveId) (x : Wave) : (s.setWave w x).grantStat = s.grantStat := rfl
@[simp] theorem State.setWave_grants (w : WaveId) (x : Wave) : (s.setWave w x).grants = s.grants := rfl
@[simp] theorem State.setWave_grantRegs (w : WaveId) (x : Wave) : (s.setWave w x).grantRegs = s.grantRegs := rfl
@[simp] theorem State.setWave_transport (w : WaveId) (x : Wave) : (s.setWave w x).transport = s.transport := rfl
@[simp] theorem State.setWave_selfTest (w : WaveId) (x : Wave) : (s.setWave w x).selfTest = s.selfTest := rfl
@[simp] theorem State.setWave_powerUps (w : WaveId) (x : Wave) : (s.setWave w x).powerUps = s.powerUps := rfl
@[simp] theorem State.setWave_droop (w : WaveId) (x : Wave) : (s.setWave w x).droop = s.droop := rfl
@[simp] theorem State.setWave_beyond (w : WaveId) (x : Wave) : (s.setWave w x).beyond = s.beyond := rfl
@[simp] theorem State.setWave_refClock (w : WaveId) (x : Wave) : (s.setWave w x).refClock = s.refClock := rfl
@[simp] theorem State.setWave_mgmt (w : WaveId) (x : Wave) : (s.setWave w x).mgmt = s.mgmt := rfl
@[simp] theorem State.setWave_attest (w : WaveId) (x : Wave) : (s.setWave w x).attest = s.attest := rfl
@[simp] theorem State.setWave_hostReads (w : WaveId) (x : Wave) : (s.setWave w x).hostReads = s.hostReads := rfl
@[simp] theorem State.setWave_turns (w : WaveId) (x : Wave) : (s.setWave w x).turns = s.turns := rfl
@[simp] theorem State.setWave_lastServed (w : WaveId) (x : Wave) : (s.setWave w x).lastServed = s.lastServed := rfl
@[simp] theorem State.setWave_selfRecord (w : WaveId) (x : Wave) : (s.setWave w x).selfRecord = s.selfRecord := rfl

/-! ### modWave -/

@[simp] theorem State.modWave_tick (w : WaveId) (f : Wave → Wave) : (s.modWave w f).tick = s.tick := rfl
@[simp] theorem State.modWave_agenda (w : WaveId) (f : Wave → Wave) : (s.modWave w f).agenda = s.agenda := rfl
@[simp] theorem State.modWave_cur (w : WaveId) (f : Wave → Wave) : (s.modWave w f).cur = s.cur := rfl
@[simp] theorem State.modWave_seq (w : WaveId) (f : Wave → Wave) : (s.modWave w f).seq = s.seq := rfl
@[simp] theorem State.modWave_free (w : WaveId) (f : Wave → Wave) : (s.modWave w f).free = s.free := rfl
@[simp] theorem State.modWave_mem (w : WaveId) (f : Wave → Wave) : (s.modWave w f).mem = s.mem := rfl
@[simp] theorem State.modWave_hist (w : WaveId) (f : Wave → Wave) : (s.modWave w f).hist = s.hist := rfl
@[simp] theorem State.modWave_bad (w : WaveId) (f : Wave → Wave) : (s.modWave w f).bad = s.bad := rfl
@[simp] theorem State.modWave_hostMem (w : WaveId) (f : Wave → Wave) : (s.modWave w f).hostMem = s.hostMem := rfl
@[simp] theorem State.modWave_moved (w : WaveId) (f : Wave → Wave) : (s.modWave w f).moved = s.moved := rfl
@[simp] theorem State.modWave_vfGrant (w : WaveId) (f : Wave → Wave) : (s.modWave w f).vfGrant = s.vfGrant := rfl
@[simp] theorem State.modWave_hot (w : WaveId) (f : Wave → Wave) : (s.modWave w f).hot = s.hot := rfl
@[simp] theorem State.modWave_corrected (w : WaveId) (f : Wave → Wave) : (s.modWave w f).corrected = s.corrected := rfl
@[simp] theorem State.modWave_migrations (w : WaveId) (f : Wave → Wave) : (s.modWave w f).migrations = s.migrations := rfl
@[simp] theorem State.modWave_sets (w : WaveId) (f : Wave → Wave) : (s.modWave w f).sets = s.sets := rfl
@[simp] theorem State.modWave_pubs (w : WaveId) (f : Wave → Wave) : (s.modWave w f).pubs = s.pubs := rfl
@[simp] theorem State.modWave_pubPt (w : WaveId) (f : Wave → Wave) : (s.modWave w f).pubPt = s.pubPt := rfl
@[simp] theorem State.modWave_views (w : WaveId) (f : Wave → Wave) : (s.modWave w f).views = s.views := rfl
@[simp] theorem State.modWave_launches (w : WaveId) (f : Wave → Wave) : (s.modWave w f).launches = s.launches := rfl
@[simp] theorem State.modWave_blocks (w : WaveId) (f : Wave → Wave) : (s.modWave w f).blocks = s.blocks := rfl
@[simp] theorem State.modWave_copy (w : WaveId) (f : Wave → Wave) : (s.modWave w f).copy = s.copy := rfl
@[simp] theorem State.modWave_engineLast (w : WaveId) (f : Wave → Wave) : (s.modWave w f).engineLast = s.engineLast := rfl
@[simp] theorem State.modWave_bslots (w : WaveId) (f : Wave → Wave) : (s.modWave w f).bslots = s.bslots := rfl
@[simp] theorem State.modWave_sweeps (w : WaveId) (f : Wave → Wave) : (s.modWave w f).sweeps = s.sweeps := rfl
@[simp] theorem State.modWave_claims (w : WaveId) (f : Wave → Wave) : (s.modWave w f).claims = s.claims := rfl
@[simp] theorem State.modWave_hands (w : WaveId) (f : Wave → Wave) : (s.modWave w f).hands = s.hands := rfl
@[simp] theorem State.modWave_parts (w : WaveId) (f : Wave → Wave) : (s.modWave w f).parts = s.parts := rfl
@[simp] theorem State.modWave_clusters (w : WaveId) (f : Wave → Wave) : (s.modWave w f).clusters = s.clusters := rfl
@[simp] theorem State.modWave_feats (w : WaveId) (f : Wave → Wave) : (s.modWave w f).feats = s.feats := rfl
@[simp] theorem State.modWave_lostQuads (w : WaveId) (f : Wave → Wave) : (s.modWave w f).lostQuads = s.lostQuads := rfl
@[simp] theorem State.modWave_ports (w : WaveId) (f : Wave → Wave) : (s.modWave w f).ports = s.ports := rfl
@[simp] theorem State.modWave_routes (w : WaveId) (f : Wave → Wave) : (s.modWave w f).routes = s.routes := rfl
@[simp] theorem State.modWave_rtindex (w : WaveId) (f : Wave → Wave) : (s.modWave w f).rtindex = s.rtindex := rfl
@[simp] theorem State.modWave_flitTags (w : WaveId) (f : Wave → Wave) : (s.modWave w f).flitTags = s.flitTags := rfl
@[simp] theorem State.modWave_farReds (w : WaveId) (f : Wave → Wave) : (s.modWave w f).farReds = s.farReds := rfl
@[simp] theorem State.modWave_latches (w : WaveId) (f : Wave → Wave) : (s.modWave w f).latches = s.latches := rfl
@[simp] theorem State.modWave_served (w : WaveId) (f : Wave → Wave) : (s.modWave w f).served = s.served := rfl
@[simp] theorem State.modWave_gen (w : WaveId) (f : Wave → Wave) : (s.modWave w f).gen = s.gen := rfl
@[simp] theorem State.modWave_house (w : WaveId) (f : Wave → Wave) : (s.modWave w f).house = s.house := rfl
@[simp] theorem State.modWave_lastSerial (w : WaveId) (f : Wave → Wave) : (s.modWave w f).lastSerial = s.lastSerial := rfl
@[simp] theorem State.modWave_grantStat (w : WaveId) (f : Wave → Wave) : (s.modWave w f).grantStat = s.grantStat := rfl
@[simp] theorem State.modWave_grants (w : WaveId) (f : Wave → Wave) : (s.modWave w f).grants = s.grants := rfl
@[simp] theorem State.modWave_grantRegs (w : WaveId) (f : Wave → Wave) : (s.modWave w f).grantRegs = s.grantRegs := rfl
@[simp] theorem State.modWave_transport (w : WaveId) (f : Wave → Wave) : (s.modWave w f).transport = s.transport := rfl
@[simp] theorem State.modWave_selfTest (w : WaveId) (f : Wave → Wave) : (s.modWave w f).selfTest = s.selfTest := rfl
@[simp] theorem State.modWave_powerUps (w : WaveId) (f : Wave → Wave) : (s.modWave w f).powerUps = s.powerUps := rfl
@[simp] theorem State.modWave_droop (w : WaveId) (f : Wave → Wave) : (s.modWave w f).droop = s.droop := rfl
@[simp] theorem State.modWave_beyond (w : WaveId) (f : Wave → Wave) : (s.modWave w f).beyond = s.beyond := rfl
@[simp] theorem State.modWave_refClock (w : WaveId) (f : Wave → Wave) : (s.modWave w f).refClock = s.refClock := rfl
@[simp] theorem State.modWave_mgmt (w : WaveId) (f : Wave → Wave) : (s.modWave w f).mgmt = s.mgmt := rfl
@[simp] theorem State.modWave_attest (w : WaveId) (f : Wave → Wave) : (s.modWave w f).attest = s.attest := rfl
@[simp] theorem State.modWave_hostReads (w : WaveId) (f : Wave → Wave) : (s.modWave w f).hostReads = s.hostReads := rfl
@[simp] theorem State.modWave_turns (w : WaveId) (f : Wave → Wave) : (s.modWave w f).turns = s.turns := rfl
@[simp] theorem State.modWave_lastServed (w : WaveId) (f : Wave → Wave) : (s.modWave w f).lastServed = s.lastServed := rfl
@[simp] theorem State.modWave_selfRecord (w : WaveId) (f : Wave → Wave) : (s.modWave w f).selfRecord = s.selfRecord := rfl

/-! ### modBlock -/

@[simp] theorem State.modBlock_tick (n b : Nat) (f : Block → Block) : (s.modBlock n b f).tick = s.tick := rfl
@[simp] theorem State.modBlock_agenda (n b : Nat) (f : Block → Block) : (s.modBlock n b f).agenda = s.agenda := rfl
@[simp] theorem State.modBlock_cur (n b : Nat) (f : Block → Block) : (s.modBlock n b f).cur = s.cur := rfl
@[simp] theorem State.modBlock_seq (n b : Nat) (f : Block → Block) : (s.modBlock n b f).seq = s.seq := rfl
@[simp] theorem State.modBlock_free (n b : Nat) (f : Block → Block) : (s.modBlock n b f).free = s.free := rfl
@[simp] theorem State.modBlock_mem (n b : Nat) (f : Block → Block) : (s.modBlock n b f).mem = s.mem := rfl
@[simp] theorem State.modBlock_hist (n b : Nat) (f : Block → Block) : (s.modBlock n b f).hist = s.hist := rfl
@[simp] theorem State.modBlock_bad (n b : Nat) (f : Block → Block) : (s.modBlock n b f).bad = s.bad := rfl
@[simp] theorem State.modBlock_hostMem (n b : Nat) (f : Block → Block) : (s.modBlock n b f).hostMem = s.hostMem := rfl
@[simp] theorem State.modBlock_moved (n b : Nat) (f : Block → Block) : (s.modBlock n b f).moved = s.moved := rfl
@[simp] theorem State.modBlock_vfGrant (n b : Nat) (f : Block → Block) : (s.modBlock n b f).vfGrant = s.vfGrant := rfl
@[simp] theorem State.modBlock_hot (n b : Nat) (f : Block → Block) : (s.modBlock n b f).hot = s.hot := rfl
@[simp] theorem State.modBlock_corrected (n b : Nat) (f : Block → Block) : (s.modBlock n b f).corrected = s.corrected := rfl
@[simp] theorem State.modBlock_migrations (n b : Nat) (f : Block → Block) : (s.modBlock n b f).migrations = s.migrations := rfl
@[simp] theorem State.modBlock_sets (n b : Nat) (f : Block → Block) : (s.modBlock n b f).sets = s.sets := rfl
@[simp] theorem State.modBlock_pubs (n b : Nat) (f : Block → Block) : (s.modBlock n b f).pubs = s.pubs := rfl
@[simp] theorem State.modBlock_pubPt (n b : Nat) (f : Block → Block) : (s.modBlock n b f).pubPt = s.pubPt := rfl
@[simp] theorem State.modBlock_views (n b : Nat) (f : Block → Block) : (s.modBlock n b f).views = s.views := rfl
@[simp] theorem State.modBlock_launches (n b : Nat) (f : Block → Block) : (s.modBlock n b f).launches = s.launches := rfl
@[simp] theorem State.modBlock_waves (n b : Nat) (f : Block → Block) : (s.modBlock n b f).waves = s.waves := rfl
@[simp] theorem State.modBlock_copy (n b : Nat) (f : Block → Block) : (s.modBlock n b f).copy = s.copy := rfl
@[simp] theorem State.modBlock_engineLast (n b : Nat) (f : Block → Block) : (s.modBlock n b f).engineLast = s.engineLast := rfl
@[simp] theorem State.modBlock_bslots (n b : Nat) (f : Block → Block) : (s.modBlock n b f).bslots = s.bslots := rfl
@[simp] theorem State.modBlock_sweeps (n b : Nat) (f : Block → Block) : (s.modBlock n b f).sweeps = s.sweeps := rfl
@[simp] theorem State.modBlock_claims (n b : Nat) (f : Block → Block) : (s.modBlock n b f).claims = s.claims := rfl
@[simp] theorem State.modBlock_hands (n b : Nat) (f : Block → Block) : (s.modBlock n b f).hands = s.hands := rfl
@[simp] theorem State.modBlock_parts (n b : Nat) (f : Block → Block) : (s.modBlock n b f).parts = s.parts := rfl
@[simp] theorem State.modBlock_clusters (n b : Nat) (f : Block → Block) : (s.modBlock n b f).clusters = s.clusters := rfl
@[simp] theorem State.modBlock_feats (n b : Nat) (f : Block → Block) : (s.modBlock n b f).feats = s.feats := rfl
@[simp] theorem State.modBlock_lostQuads (n b : Nat) (f : Block → Block) : (s.modBlock n b f).lostQuads = s.lostQuads := rfl
@[simp] theorem State.modBlock_ports (n b : Nat) (f : Block → Block) : (s.modBlock n b f).ports = s.ports := rfl
@[simp] theorem State.modBlock_routes (n b : Nat) (f : Block → Block) : (s.modBlock n b f).routes = s.routes := rfl
@[simp] theorem State.modBlock_rtindex (n b : Nat) (f : Block → Block) : (s.modBlock n b f).rtindex = s.rtindex := rfl
@[simp] theorem State.modBlock_flitTags (n b : Nat) (f : Block → Block) : (s.modBlock n b f).flitTags = s.flitTags := rfl
@[simp] theorem State.modBlock_farReds (n b : Nat) (f : Block → Block) : (s.modBlock n b f).farReds = s.farReds := rfl
@[simp] theorem State.modBlock_latches (n b : Nat) (f : Block → Block) : (s.modBlock n b f).latches = s.latches := rfl
@[simp] theorem State.modBlock_served (n b : Nat) (f : Block → Block) : (s.modBlock n b f).served = s.served := rfl
@[simp] theorem State.modBlock_gen (n b : Nat) (f : Block → Block) : (s.modBlock n b f).gen = s.gen := rfl
@[simp] theorem State.modBlock_house (n b : Nat) (f : Block → Block) : (s.modBlock n b f).house = s.house := rfl
@[simp] theorem State.modBlock_lastSerial (n b : Nat) (f : Block → Block) : (s.modBlock n b f).lastSerial = s.lastSerial := rfl
@[simp] theorem State.modBlock_grantStat (n b : Nat) (f : Block → Block) : (s.modBlock n b f).grantStat = s.grantStat := rfl
@[simp] theorem State.modBlock_grants (n b : Nat) (f : Block → Block) : (s.modBlock n b f).grants = s.grants := rfl
@[simp] theorem State.modBlock_grantRegs (n b : Nat) (f : Block → Block) : (s.modBlock n b f).grantRegs = s.grantRegs := rfl
@[simp] theorem State.modBlock_transport (n b : Nat) (f : Block → Block) : (s.modBlock n b f).transport = s.transport := rfl
@[simp] theorem State.modBlock_selfTest (n b : Nat) (f : Block → Block) : (s.modBlock n b f).selfTest = s.selfTest := rfl
@[simp] theorem State.modBlock_powerUps (n b : Nat) (f : Block → Block) : (s.modBlock n b f).powerUps = s.powerUps := rfl
@[simp] theorem State.modBlock_droop (n b : Nat) (f : Block → Block) : (s.modBlock n b f).droop = s.droop := rfl
@[simp] theorem State.modBlock_beyond (n b : Nat) (f : Block → Block) : (s.modBlock n b f).beyond = s.beyond := rfl
@[simp] theorem State.modBlock_refClock (n b : Nat) (f : Block → Block) : (s.modBlock n b f).refClock = s.refClock := rfl
@[simp] theorem State.modBlock_mgmt (n b : Nat) (f : Block → Block) : (s.modBlock n b f).mgmt = s.mgmt := rfl
@[simp] theorem State.modBlock_attest (n b : Nat) (f : Block → Block) : (s.modBlock n b f).attest = s.attest := rfl
@[simp] theorem State.modBlock_hostReads (n b : Nat) (f : Block → Block) : (s.modBlock n b f).hostReads = s.hostReads := rfl
@[simp] theorem State.modBlock_turns (n b : Nat) (f : Block → Block) : (s.modBlock n b f).turns = s.turns := rfl
@[simp] theorem State.modBlock_lastServed (n b : Nat) (f : Block → Block) : (s.modBlock n b f).lastServed = s.lastServed := rfl
@[simp] theorem State.modBlock_selfRecord (n b : Nat) (f : Block → Block) : (s.modBlock n b f).selfRecord = s.selfRecord := rfl

/-! ### modLaunch -/

@[simp] theorem State.modLaunch_tick (n : Nat) (f : Launch → Launch) : (s.modLaunch n f).tick = s.tick := rfl
@[simp] theorem State.modLaunch_agenda (n : Nat) (f : Launch → Launch) : (s.modLaunch n f).agenda = s.agenda := rfl
@[simp] theorem State.modLaunch_cur (n : Nat) (f : Launch → Launch) : (s.modLaunch n f).cur = s.cur := rfl
@[simp] theorem State.modLaunch_seq (n : Nat) (f : Launch → Launch) : (s.modLaunch n f).seq = s.seq := rfl
@[simp] theorem State.modLaunch_free (n : Nat) (f : Launch → Launch) : (s.modLaunch n f).free = s.free := rfl
@[simp] theorem State.modLaunch_mem (n : Nat) (f : Launch → Launch) : (s.modLaunch n f).mem = s.mem := rfl
@[simp] theorem State.modLaunch_hist (n : Nat) (f : Launch → Launch) : (s.modLaunch n f).hist = s.hist := rfl
@[simp] theorem State.modLaunch_bad (n : Nat) (f : Launch → Launch) : (s.modLaunch n f).bad = s.bad := rfl
@[simp] theorem State.modLaunch_hostMem (n : Nat) (f : Launch → Launch) : (s.modLaunch n f).hostMem = s.hostMem := rfl
@[simp] theorem State.modLaunch_moved (n : Nat) (f : Launch → Launch) : (s.modLaunch n f).moved = s.moved := rfl
@[simp] theorem State.modLaunch_vfGrant (n : Nat) (f : Launch → Launch) : (s.modLaunch n f).vfGrant = s.vfGrant := rfl
@[simp] theorem State.modLaunch_hot (n : Nat) (f : Launch → Launch) : (s.modLaunch n f).hot = s.hot := rfl
@[simp] theorem State.modLaunch_corrected (n : Nat) (f : Launch → Launch) : (s.modLaunch n f).corrected = s.corrected := rfl
@[simp] theorem State.modLaunch_migrations (n : Nat) (f : Launch → Launch) : (s.modLaunch n f).migrations = s.migrations := rfl
@[simp] theorem State.modLaunch_sets (n : Nat) (f : Launch → Launch) : (s.modLaunch n f).sets = s.sets := rfl
@[simp] theorem State.modLaunch_pubs (n : Nat) (f : Launch → Launch) : (s.modLaunch n f).pubs = s.pubs := rfl
@[simp] theorem State.modLaunch_pubPt (n : Nat) (f : Launch → Launch) : (s.modLaunch n f).pubPt = s.pubPt := rfl
@[simp] theorem State.modLaunch_views (n : Nat) (f : Launch → Launch) : (s.modLaunch n f).views = s.views := rfl
@[simp] theorem State.modLaunch_blocks (n : Nat) (f : Launch → Launch) : (s.modLaunch n f).blocks = s.blocks := rfl
@[simp] theorem State.modLaunch_waves (n : Nat) (f : Launch → Launch) : (s.modLaunch n f).waves = s.waves := rfl
@[simp] theorem State.modLaunch_copy (n : Nat) (f : Launch → Launch) : (s.modLaunch n f).copy = s.copy := rfl
@[simp] theorem State.modLaunch_engineLast (n : Nat) (f : Launch → Launch) : (s.modLaunch n f).engineLast = s.engineLast := rfl
@[simp] theorem State.modLaunch_bslots (n : Nat) (f : Launch → Launch) : (s.modLaunch n f).bslots = s.bslots := rfl
@[simp] theorem State.modLaunch_sweeps (n : Nat) (f : Launch → Launch) : (s.modLaunch n f).sweeps = s.sweeps := rfl
@[simp] theorem State.modLaunch_claims (n : Nat) (f : Launch → Launch) : (s.modLaunch n f).claims = s.claims := rfl
@[simp] theorem State.modLaunch_hands (n : Nat) (f : Launch → Launch) : (s.modLaunch n f).hands = s.hands := rfl
@[simp] theorem State.modLaunch_parts (n : Nat) (f : Launch → Launch) : (s.modLaunch n f).parts = s.parts := rfl
@[simp] theorem State.modLaunch_clusters (n : Nat) (f : Launch → Launch) : (s.modLaunch n f).clusters = s.clusters := rfl
@[simp] theorem State.modLaunch_feats (n : Nat) (f : Launch → Launch) : (s.modLaunch n f).feats = s.feats := rfl
@[simp] theorem State.modLaunch_lostQuads (n : Nat) (f : Launch → Launch) : (s.modLaunch n f).lostQuads = s.lostQuads := rfl
@[simp] theorem State.modLaunch_ports (n : Nat) (f : Launch → Launch) : (s.modLaunch n f).ports = s.ports := rfl
@[simp] theorem State.modLaunch_routes (n : Nat) (f : Launch → Launch) : (s.modLaunch n f).routes = s.routes := rfl
@[simp] theorem State.modLaunch_rtindex (n : Nat) (f : Launch → Launch) : (s.modLaunch n f).rtindex = s.rtindex := rfl
@[simp] theorem State.modLaunch_flitTags (n : Nat) (f : Launch → Launch) : (s.modLaunch n f).flitTags = s.flitTags := rfl
@[simp] theorem State.modLaunch_farReds (n : Nat) (f : Launch → Launch) : (s.modLaunch n f).farReds = s.farReds := rfl
@[simp] theorem State.modLaunch_latches (n : Nat) (f : Launch → Launch) : (s.modLaunch n f).latches = s.latches := rfl
@[simp] theorem State.modLaunch_served (n : Nat) (f : Launch → Launch) : (s.modLaunch n f).served = s.served := rfl
@[simp] theorem State.modLaunch_gen (n : Nat) (f : Launch → Launch) : (s.modLaunch n f).gen = s.gen := rfl
@[simp] theorem State.modLaunch_house (n : Nat) (f : Launch → Launch) : (s.modLaunch n f).house = s.house := rfl
@[simp] theorem State.modLaunch_lastSerial (n : Nat) (f : Launch → Launch) : (s.modLaunch n f).lastSerial = s.lastSerial := rfl
@[simp] theorem State.modLaunch_grantStat (n : Nat) (f : Launch → Launch) : (s.modLaunch n f).grantStat = s.grantStat := rfl
@[simp] theorem State.modLaunch_grants (n : Nat) (f : Launch → Launch) : (s.modLaunch n f).grants = s.grants := rfl
@[simp] theorem State.modLaunch_grantRegs (n : Nat) (f : Launch → Launch) : (s.modLaunch n f).grantRegs = s.grantRegs := rfl
@[simp] theorem State.modLaunch_transport (n : Nat) (f : Launch → Launch) : (s.modLaunch n f).transport = s.transport := rfl
@[simp] theorem State.modLaunch_selfTest (n : Nat) (f : Launch → Launch) : (s.modLaunch n f).selfTest = s.selfTest := rfl
@[simp] theorem State.modLaunch_powerUps (n : Nat) (f : Launch → Launch) : (s.modLaunch n f).powerUps = s.powerUps := rfl
@[simp] theorem State.modLaunch_droop (n : Nat) (f : Launch → Launch) : (s.modLaunch n f).droop = s.droop := rfl
@[simp] theorem State.modLaunch_beyond (n : Nat) (f : Launch → Launch) : (s.modLaunch n f).beyond = s.beyond := rfl
@[simp] theorem State.modLaunch_refClock (n : Nat) (f : Launch → Launch) : (s.modLaunch n f).refClock = s.refClock := rfl
@[simp] theorem State.modLaunch_mgmt (n : Nat) (f : Launch → Launch) : (s.modLaunch n f).mgmt = s.mgmt := rfl
@[simp] theorem State.modLaunch_attest (n : Nat) (f : Launch → Launch) : (s.modLaunch n f).attest = s.attest := rfl
@[simp] theorem State.modLaunch_hostReads (n : Nat) (f : Launch → Launch) : (s.modLaunch n f).hostReads = s.hostReads := rfl
@[simp] theorem State.modLaunch_turns (n : Nat) (f : Launch → Launch) : (s.modLaunch n f).turns = s.turns := rfl
@[simp] theorem State.modLaunch_lastServed (n : Nat) (f : Launch → Launch) : (s.modLaunch n f).lastServed = s.lastServed := rfl
@[simp] theorem State.modLaunch_selfRecord (n : Nat) (f : Launch → Launch) : (s.modLaunch n f).selfRecord = s.selfRecord := rfl

/-! ### modPart -/

@[simp] theorem State.modPart_tick (p : Nat) (f : Part → Part) : (s.modPart p f).tick = s.tick := rfl
@[simp] theorem State.modPart_agenda (p : Nat) (f : Part → Part) : (s.modPart p f).agenda = s.agenda := rfl
@[simp] theorem State.modPart_cur (p : Nat) (f : Part → Part) : (s.modPart p f).cur = s.cur := rfl
@[simp] theorem State.modPart_seq (p : Nat) (f : Part → Part) : (s.modPart p f).seq = s.seq := rfl
@[simp] theorem State.modPart_free (p : Nat) (f : Part → Part) : (s.modPart p f).free = s.free := rfl
@[simp] theorem State.modPart_mem (p : Nat) (f : Part → Part) : (s.modPart p f).mem = s.mem := rfl
@[simp] theorem State.modPart_hist (p : Nat) (f : Part → Part) : (s.modPart p f).hist = s.hist := rfl
@[simp] theorem State.modPart_bad (p : Nat) (f : Part → Part) : (s.modPart p f).bad = s.bad := rfl
@[simp] theorem State.modPart_hostMem (p : Nat) (f : Part → Part) : (s.modPart p f).hostMem = s.hostMem := rfl
@[simp] theorem State.modPart_moved (p : Nat) (f : Part → Part) : (s.modPart p f).moved = s.moved := rfl
@[simp] theorem State.modPart_vfGrant (p : Nat) (f : Part → Part) : (s.modPart p f).vfGrant = s.vfGrant := rfl
@[simp] theorem State.modPart_hot (p : Nat) (f : Part → Part) : (s.modPart p f).hot = s.hot := rfl
@[simp] theorem State.modPart_corrected (p : Nat) (f : Part → Part) : (s.modPart p f).corrected = s.corrected := rfl
@[simp] theorem State.modPart_migrations (p : Nat) (f : Part → Part) : (s.modPart p f).migrations = s.migrations := rfl
@[simp] theorem State.modPart_sets (p : Nat) (f : Part → Part) : (s.modPart p f).sets = s.sets := rfl
@[simp] theorem State.modPart_pubs (p : Nat) (f : Part → Part) : (s.modPart p f).pubs = s.pubs := rfl
@[simp] theorem State.modPart_pubPt (p : Nat) (f : Part → Part) : (s.modPart p f).pubPt = s.pubPt := rfl
@[simp] theorem State.modPart_views (p : Nat) (f : Part → Part) : (s.modPart p f).views = s.views := rfl
@[simp] theorem State.modPart_launches (p : Nat) (f : Part → Part) : (s.modPart p f).launches = s.launches := rfl
@[simp] theorem State.modPart_blocks (p : Nat) (f : Part → Part) : (s.modPart p f).blocks = s.blocks := rfl
@[simp] theorem State.modPart_waves (p : Nat) (f : Part → Part) : (s.modPart p f).waves = s.waves := rfl
@[simp] theorem State.modPart_copy (p : Nat) (f : Part → Part) : (s.modPart p f).copy = s.copy := rfl
@[simp] theorem State.modPart_engineLast (p : Nat) (f : Part → Part) : (s.modPart p f).engineLast = s.engineLast := rfl
@[simp] theorem State.modPart_bslots (p : Nat) (f : Part → Part) : (s.modPart p f).bslots = s.bslots := rfl
@[simp] theorem State.modPart_sweeps (p : Nat) (f : Part → Part) : (s.modPart p f).sweeps = s.sweeps := rfl
@[simp] theorem State.modPart_claims (p : Nat) (f : Part → Part) : (s.modPart p f).claims = s.claims := rfl
@[simp] theorem State.modPart_hands (p : Nat) (f : Part → Part) : (s.modPart p f).hands = s.hands := rfl
@[simp] theorem State.modPart_clusters (p : Nat) (f : Part → Part) : (s.modPart p f).clusters = s.clusters := rfl
@[simp] theorem State.modPart_feats (p : Nat) (f : Part → Part) : (s.modPart p f).feats = s.feats := rfl
@[simp] theorem State.modPart_lostQuads (p : Nat) (f : Part → Part) : (s.modPart p f).lostQuads = s.lostQuads := rfl
@[simp] theorem State.modPart_ports (p : Nat) (f : Part → Part) : (s.modPart p f).ports = s.ports := rfl
@[simp] theorem State.modPart_routes (p : Nat) (f : Part → Part) : (s.modPart p f).routes = s.routes := rfl
@[simp] theorem State.modPart_rtindex (p : Nat) (f : Part → Part) : (s.modPart p f).rtindex = s.rtindex := rfl
@[simp] theorem State.modPart_flitTags (p : Nat) (f : Part → Part) : (s.modPart p f).flitTags = s.flitTags := rfl
@[simp] theorem State.modPart_farReds (p : Nat) (f : Part → Part) : (s.modPart p f).farReds = s.farReds := rfl
@[simp] theorem State.modPart_latches (p : Nat) (f : Part → Part) : (s.modPart p f).latches = s.latches := rfl
@[simp] theorem State.modPart_served (p : Nat) (f : Part → Part) : (s.modPart p f).served = s.served := rfl
@[simp] theorem State.modPart_gen (p : Nat) (f : Part → Part) : (s.modPart p f).gen = s.gen := rfl
@[simp] theorem State.modPart_house (p : Nat) (f : Part → Part) : (s.modPart p f).house = s.house := rfl
@[simp] theorem State.modPart_lastSerial (p : Nat) (f : Part → Part) : (s.modPart p f).lastSerial = s.lastSerial := rfl
@[simp] theorem State.modPart_grantStat (p : Nat) (f : Part → Part) : (s.modPart p f).grantStat = s.grantStat := rfl
@[simp] theorem State.modPart_grants (p : Nat) (f : Part → Part) : (s.modPart p f).grants = s.grants := rfl
@[simp] theorem State.modPart_grantRegs (p : Nat) (f : Part → Part) : (s.modPart p f).grantRegs = s.grantRegs := rfl
@[simp] theorem State.modPart_transport (p : Nat) (f : Part → Part) : (s.modPart p f).transport = s.transport := rfl
@[simp] theorem State.modPart_selfTest (p : Nat) (f : Part → Part) : (s.modPart p f).selfTest = s.selfTest := rfl
@[simp] theorem State.modPart_powerUps (p : Nat) (f : Part → Part) : (s.modPart p f).powerUps = s.powerUps := rfl
@[simp] theorem State.modPart_droop (p : Nat) (f : Part → Part) : (s.modPart p f).droop = s.droop := rfl
@[simp] theorem State.modPart_beyond (p : Nat) (f : Part → Part) : (s.modPart p f).beyond = s.beyond := rfl
@[simp] theorem State.modPart_refClock (p : Nat) (f : Part → Part) : (s.modPart p f).refClock = s.refClock := rfl
@[simp] theorem State.modPart_mgmt (p : Nat) (f : Part → Part) : (s.modPart p f).mgmt = s.mgmt := rfl
@[simp] theorem State.modPart_attest (p : Nat) (f : Part → Part) : (s.modPart p f).attest = s.attest := rfl
@[simp] theorem State.modPart_hostReads (p : Nat) (f : Part → Part) : (s.modPart p f).hostReads = s.hostReads := rfl
@[simp] theorem State.modPart_turns (p : Nat) (f : Part → Part) : (s.modPart p f).turns = s.turns := rfl
@[simp] theorem State.modPart_lastServed (p : Nat) (f : Part → Part) : (s.modPart p f).lastServed = s.lastServed := rfl
@[simp] theorem State.modPart_selfRecord (p : Nat) (f : Part → Part) : (s.modPart p f).selfRecord = s.selfRecord := rfl

/-! ### modCluster -/

@[simp] theorem State.modCluster_tick (c : Nat) (f : Cluster → Cluster) : (s.modCluster c f).tick = s.tick := rfl
@[simp] theorem State.modCluster_agenda (c : Nat) (f : Cluster → Cluster) : (s.modCluster c f).agenda = s.agenda := rfl
@[simp] theorem State.modCluster_cur (c : Nat) (f : Cluster → Cluster) : (s.modCluster c f).cur = s.cur := rfl
@[simp] theorem State.modCluster_seq (c : Nat) (f : Cluster → Cluster) : (s.modCluster c f).seq = s.seq := rfl
@[simp] theorem State.modCluster_free (c : Nat) (f : Cluster → Cluster) : (s.modCluster c f).free = s.free := rfl
@[simp] theorem State.modCluster_mem (c : Nat) (f : Cluster → Cluster) : (s.modCluster c f).mem = s.mem := rfl
@[simp] theorem State.modCluster_hist (c : Nat) (f : Cluster → Cluster) : (s.modCluster c f).hist = s.hist := rfl
@[simp] theorem State.modCluster_bad (c : Nat) (f : Cluster → Cluster) : (s.modCluster c f).bad = s.bad := rfl
@[simp] theorem State.modCluster_hostMem (c : Nat) (f : Cluster → Cluster) : (s.modCluster c f).hostMem = s.hostMem := rfl
@[simp] theorem State.modCluster_moved (c : Nat) (f : Cluster → Cluster) : (s.modCluster c f).moved = s.moved := rfl
@[simp] theorem State.modCluster_vfGrant (c : Nat) (f : Cluster → Cluster) : (s.modCluster c f).vfGrant = s.vfGrant := rfl
@[simp] theorem State.modCluster_hot (c : Nat) (f : Cluster → Cluster) : (s.modCluster c f).hot = s.hot := rfl
@[simp] theorem State.modCluster_corrected (c : Nat) (f : Cluster → Cluster) : (s.modCluster c f).corrected = s.corrected := rfl
@[simp] theorem State.modCluster_migrations (c : Nat) (f : Cluster → Cluster) : (s.modCluster c f).migrations = s.migrations := rfl
@[simp] theorem State.modCluster_sets (c : Nat) (f : Cluster → Cluster) : (s.modCluster c f).sets = s.sets := rfl
@[simp] theorem State.modCluster_pubs (c : Nat) (f : Cluster → Cluster) : (s.modCluster c f).pubs = s.pubs := rfl
@[simp] theorem State.modCluster_pubPt (c : Nat) (f : Cluster → Cluster) : (s.modCluster c f).pubPt = s.pubPt := rfl
@[simp] theorem State.modCluster_views (c : Nat) (f : Cluster → Cluster) : (s.modCluster c f).views = s.views := rfl
@[simp] theorem State.modCluster_launches (c : Nat) (f : Cluster → Cluster) : (s.modCluster c f).launches = s.launches := rfl
@[simp] theorem State.modCluster_blocks (c : Nat) (f : Cluster → Cluster) : (s.modCluster c f).blocks = s.blocks := rfl
@[simp] theorem State.modCluster_waves (c : Nat) (f : Cluster → Cluster) : (s.modCluster c f).waves = s.waves := rfl
@[simp] theorem State.modCluster_copy (c : Nat) (f : Cluster → Cluster) : (s.modCluster c f).copy = s.copy := rfl
@[simp] theorem State.modCluster_engineLast (c : Nat) (f : Cluster → Cluster) : (s.modCluster c f).engineLast = s.engineLast := rfl
@[simp] theorem State.modCluster_bslots (c : Nat) (f : Cluster → Cluster) : (s.modCluster c f).bslots = s.bslots := rfl
@[simp] theorem State.modCluster_sweeps (c : Nat) (f : Cluster → Cluster) : (s.modCluster c f).sweeps = s.sweeps := rfl
@[simp] theorem State.modCluster_claims (c : Nat) (f : Cluster → Cluster) : (s.modCluster c f).claims = s.claims := rfl
@[simp] theorem State.modCluster_hands (c : Nat) (f : Cluster → Cluster) : (s.modCluster c f).hands = s.hands := rfl
@[simp] theorem State.modCluster_parts (c : Nat) (f : Cluster → Cluster) : (s.modCluster c f).parts = s.parts := rfl
@[simp] theorem State.modCluster_feats (c : Nat) (f : Cluster → Cluster) : (s.modCluster c f).feats = s.feats := rfl
@[simp] theorem State.modCluster_lostQuads (c : Nat) (f : Cluster → Cluster) : (s.modCluster c f).lostQuads = s.lostQuads := rfl
@[simp] theorem State.modCluster_ports (c : Nat) (f : Cluster → Cluster) : (s.modCluster c f).ports = s.ports := rfl
@[simp] theorem State.modCluster_routes (c : Nat) (f : Cluster → Cluster) : (s.modCluster c f).routes = s.routes := rfl
@[simp] theorem State.modCluster_rtindex (c : Nat) (f : Cluster → Cluster) : (s.modCluster c f).rtindex = s.rtindex := rfl
@[simp] theorem State.modCluster_flitTags (c : Nat) (f : Cluster → Cluster) : (s.modCluster c f).flitTags = s.flitTags := rfl
@[simp] theorem State.modCluster_farReds (c : Nat) (f : Cluster → Cluster) : (s.modCluster c f).farReds = s.farReds := rfl
@[simp] theorem State.modCluster_latches (c : Nat) (f : Cluster → Cluster) : (s.modCluster c f).latches = s.latches := rfl
@[simp] theorem State.modCluster_served (c : Nat) (f : Cluster → Cluster) : (s.modCluster c f).served = s.served := rfl
@[simp] theorem State.modCluster_gen (c : Nat) (f : Cluster → Cluster) : (s.modCluster c f).gen = s.gen := rfl
@[simp] theorem State.modCluster_house (c : Nat) (f : Cluster → Cluster) : (s.modCluster c f).house = s.house := rfl
@[simp] theorem State.modCluster_lastSerial (c : Nat) (f : Cluster → Cluster) : (s.modCluster c f).lastSerial = s.lastSerial := rfl
@[simp] theorem State.modCluster_grantStat (c : Nat) (f : Cluster → Cluster) : (s.modCluster c f).grantStat = s.grantStat := rfl
@[simp] theorem State.modCluster_grants (c : Nat) (f : Cluster → Cluster) : (s.modCluster c f).grants = s.grants := rfl
@[simp] theorem State.modCluster_grantRegs (c : Nat) (f : Cluster → Cluster) : (s.modCluster c f).grantRegs = s.grantRegs := rfl
@[simp] theorem State.modCluster_transport (c : Nat) (f : Cluster → Cluster) : (s.modCluster c f).transport = s.transport := rfl
@[simp] theorem State.modCluster_selfTest (c : Nat) (f : Cluster → Cluster) : (s.modCluster c f).selfTest = s.selfTest := rfl
@[simp] theorem State.modCluster_powerUps (c : Nat) (f : Cluster → Cluster) : (s.modCluster c f).powerUps = s.powerUps := rfl
@[simp] theorem State.modCluster_droop (c : Nat) (f : Cluster → Cluster) : (s.modCluster c f).droop = s.droop := rfl
@[simp] theorem State.modCluster_beyond (c : Nat) (f : Cluster → Cluster) : (s.modCluster c f).beyond = s.beyond := rfl
@[simp] theorem State.modCluster_refClock (c : Nat) (f : Cluster → Cluster) : (s.modCluster c f).refClock = s.refClock := rfl
@[simp] theorem State.modCluster_mgmt (c : Nat) (f : Cluster → Cluster) : (s.modCluster c f).mgmt = s.mgmt := rfl
@[simp] theorem State.modCluster_attest (c : Nat) (f : Cluster → Cluster) : (s.modCluster c f).attest = s.attest := rfl
@[simp] theorem State.modCluster_hostReads (c : Nat) (f : Cluster → Cluster) : (s.modCluster c f).hostReads = s.hostReads := rfl
@[simp] theorem State.modCluster_turns (c : Nat) (f : Cluster → Cluster) : (s.modCluster c f).turns = s.turns := rfl
@[simp] theorem State.modCluster_lastServed (c : Nat) (f : Cluster → Cluster) : (s.modCluster c f).lastServed = s.lastServed := rfl
@[simp] theorem State.modCluster_selfRecord (c : Nat) (f : Cluster → Cluster) : (s.modCluster c f).selfRecord = s.selfRecord := rfl

/-! ### modCopy -/

@[simp] theorem State.modCopy_tick (c : Nat) (f : CopyCtx → CopyCtx) : (s.modCopy c f).tick = s.tick := rfl
@[simp] theorem State.modCopy_agenda (c : Nat) (f : CopyCtx → CopyCtx) : (s.modCopy c f).agenda = s.agenda := rfl
@[simp] theorem State.modCopy_cur (c : Nat) (f : CopyCtx → CopyCtx) : (s.modCopy c f).cur = s.cur := rfl
@[simp] theorem State.modCopy_seq (c : Nat) (f : CopyCtx → CopyCtx) : (s.modCopy c f).seq = s.seq := rfl
@[simp] theorem State.modCopy_free (c : Nat) (f : CopyCtx → CopyCtx) : (s.modCopy c f).free = s.free := rfl
@[simp] theorem State.modCopy_mem (c : Nat) (f : CopyCtx → CopyCtx) : (s.modCopy c f).mem = s.mem := rfl
@[simp] theorem State.modCopy_hist (c : Nat) (f : CopyCtx → CopyCtx) : (s.modCopy c f).hist = s.hist := rfl
@[simp] theorem State.modCopy_bad (c : Nat) (f : CopyCtx → CopyCtx) : (s.modCopy c f).bad = s.bad := rfl
@[simp] theorem State.modCopy_hostMem (c : Nat) (f : CopyCtx → CopyCtx) : (s.modCopy c f).hostMem = s.hostMem := rfl
@[simp] theorem State.modCopy_moved (c : Nat) (f : CopyCtx → CopyCtx) : (s.modCopy c f).moved = s.moved := rfl
@[simp] theorem State.modCopy_vfGrant (c : Nat) (f : CopyCtx → CopyCtx) : (s.modCopy c f).vfGrant = s.vfGrant := rfl
@[simp] theorem State.modCopy_hot (c : Nat) (f : CopyCtx → CopyCtx) : (s.modCopy c f).hot = s.hot := rfl
@[simp] theorem State.modCopy_corrected (c : Nat) (f : CopyCtx → CopyCtx) : (s.modCopy c f).corrected = s.corrected := rfl
@[simp] theorem State.modCopy_migrations (c : Nat) (f : CopyCtx → CopyCtx) : (s.modCopy c f).migrations = s.migrations := rfl
@[simp] theorem State.modCopy_sets (c : Nat) (f : CopyCtx → CopyCtx) : (s.modCopy c f).sets = s.sets := rfl
@[simp] theorem State.modCopy_pubs (c : Nat) (f : CopyCtx → CopyCtx) : (s.modCopy c f).pubs = s.pubs := rfl
@[simp] theorem State.modCopy_pubPt (c : Nat) (f : CopyCtx → CopyCtx) : (s.modCopy c f).pubPt = s.pubPt := rfl
@[simp] theorem State.modCopy_views (c : Nat) (f : CopyCtx → CopyCtx) : (s.modCopy c f).views = s.views := rfl
@[simp] theorem State.modCopy_launches (c : Nat) (f : CopyCtx → CopyCtx) : (s.modCopy c f).launches = s.launches := rfl
@[simp] theorem State.modCopy_blocks (c : Nat) (f : CopyCtx → CopyCtx) : (s.modCopy c f).blocks = s.blocks := rfl
@[simp] theorem State.modCopy_waves (c : Nat) (f : CopyCtx → CopyCtx) : (s.modCopy c f).waves = s.waves := rfl
@[simp] theorem State.modCopy_engineLast (c : Nat) (f : CopyCtx → CopyCtx) : (s.modCopy c f).engineLast = s.engineLast := rfl
@[simp] theorem State.modCopy_bslots (c : Nat) (f : CopyCtx → CopyCtx) : (s.modCopy c f).bslots = s.bslots := rfl
@[simp] theorem State.modCopy_sweeps (c : Nat) (f : CopyCtx → CopyCtx) : (s.modCopy c f).sweeps = s.sweeps := rfl
@[simp] theorem State.modCopy_claims (c : Nat) (f : CopyCtx → CopyCtx) : (s.modCopy c f).claims = s.claims := rfl
@[simp] theorem State.modCopy_hands (c : Nat) (f : CopyCtx → CopyCtx) : (s.modCopy c f).hands = s.hands := rfl
@[simp] theorem State.modCopy_parts (c : Nat) (f : CopyCtx → CopyCtx) : (s.modCopy c f).parts = s.parts := rfl
@[simp] theorem State.modCopy_clusters (c : Nat) (f : CopyCtx → CopyCtx) : (s.modCopy c f).clusters = s.clusters := rfl
@[simp] theorem State.modCopy_feats (c : Nat) (f : CopyCtx → CopyCtx) : (s.modCopy c f).feats = s.feats := rfl
@[simp] theorem State.modCopy_lostQuads (c : Nat) (f : CopyCtx → CopyCtx) : (s.modCopy c f).lostQuads = s.lostQuads := rfl
@[simp] theorem State.modCopy_ports (c : Nat) (f : CopyCtx → CopyCtx) : (s.modCopy c f).ports = s.ports := rfl
@[simp] theorem State.modCopy_routes (c : Nat) (f : CopyCtx → CopyCtx) : (s.modCopy c f).routes = s.routes := rfl
@[simp] theorem State.modCopy_rtindex (c : Nat) (f : CopyCtx → CopyCtx) : (s.modCopy c f).rtindex = s.rtindex := rfl
@[simp] theorem State.modCopy_flitTags (c : Nat) (f : CopyCtx → CopyCtx) : (s.modCopy c f).flitTags = s.flitTags := rfl
@[simp] theorem State.modCopy_farReds (c : Nat) (f : CopyCtx → CopyCtx) : (s.modCopy c f).farReds = s.farReds := rfl
@[simp] theorem State.modCopy_latches (c : Nat) (f : CopyCtx → CopyCtx) : (s.modCopy c f).latches = s.latches := rfl
@[simp] theorem State.modCopy_served (c : Nat) (f : CopyCtx → CopyCtx) : (s.modCopy c f).served = s.served := rfl
@[simp] theorem State.modCopy_gen (c : Nat) (f : CopyCtx → CopyCtx) : (s.modCopy c f).gen = s.gen := rfl
@[simp] theorem State.modCopy_house (c : Nat) (f : CopyCtx → CopyCtx) : (s.modCopy c f).house = s.house := rfl
@[simp] theorem State.modCopy_lastSerial (c : Nat) (f : CopyCtx → CopyCtx) : (s.modCopy c f).lastSerial = s.lastSerial := rfl
@[simp] theorem State.modCopy_grantStat (c : Nat) (f : CopyCtx → CopyCtx) : (s.modCopy c f).grantStat = s.grantStat := rfl
@[simp] theorem State.modCopy_grants (c : Nat) (f : CopyCtx → CopyCtx) : (s.modCopy c f).grants = s.grants := rfl
@[simp] theorem State.modCopy_grantRegs (c : Nat) (f : CopyCtx → CopyCtx) : (s.modCopy c f).grantRegs = s.grantRegs := rfl
@[simp] theorem State.modCopy_transport (c : Nat) (f : CopyCtx → CopyCtx) : (s.modCopy c f).transport = s.transport := rfl
@[simp] theorem State.modCopy_selfTest (c : Nat) (f : CopyCtx → CopyCtx) : (s.modCopy c f).selfTest = s.selfTest := rfl
@[simp] theorem State.modCopy_powerUps (c : Nat) (f : CopyCtx → CopyCtx) : (s.modCopy c f).powerUps = s.powerUps := rfl
@[simp] theorem State.modCopy_droop (c : Nat) (f : CopyCtx → CopyCtx) : (s.modCopy c f).droop = s.droop := rfl
@[simp] theorem State.modCopy_beyond (c : Nat) (f : CopyCtx → CopyCtx) : (s.modCopy c f).beyond = s.beyond := rfl
@[simp] theorem State.modCopy_refClock (c : Nat) (f : CopyCtx → CopyCtx) : (s.modCopy c f).refClock = s.refClock := rfl
@[simp] theorem State.modCopy_mgmt (c : Nat) (f : CopyCtx → CopyCtx) : (s.modCopy c f).mgmt = s.mgmt := rfl
@[simp] theorem State.modCopy_attest (c : Nat) (f : CopyCtx → CopyCtx) : (s.modCopy c f).attest = s.attest := rfl
@[simp] theorem State.modCopy_hostReads (c : Nat) (f : CopyCtx → CopyCtx) : (s.modCopy c f).hostReads = s.hostReads := rfl
@[simp] theorem State.modCopy_turns (c : Nat) (f : CopyCtx → CopyCtx) : (s.modCopy c f).turns = s.turns := rfl
@[simp] theorem State.modCopy_lastServed (c : Nat) (f : CopyCtx → CopyCtx) : (s.modCopy c f).lastServed = s.lastServed := rfl
@[simp] theorem State.modCopy_selfRecord (c : Nat) (f : CopyCtx → CopyCtx) : (s.modCopy c f).selfRecord = s.selfRecord := rfl

/-! ### modSweep -/

@[simp] theorem State.modSweep_tick (c : Nat) (f : SweepCtx → SweepCtx) : (s.modSweep c f).tick = s.tick := rfl
@[simp] theorem State.modSweep_agenda (c : Nat) (f : SweepCtx → SweepCtx) : (s.modSweep c f).agenda = s.agenda := rfl
@[simp] theorem State.modSweep_cur (c : Nat) (f : SweepCtx → SweepCtx) : (s.modSweep c f).cur = s.cur := rfl
@[simp] theorem State.modSweep_seq (c : Nat) (f : SweepCtx → SweepCtx) : (s.modSweep c f).seq = s.seq := rfl
@[simp] theorem State.modSweep_free (c : Nat) (f : SweepCtx → SweepCtx) : (s.modSweep c f).free = s.free := rfl
@[simp] theorem State.modSweep_mem (c : Nat) (f : SweepCtx → SweepCtx) : (s.modSweep c f).mem = s.mem := rfl
@[simp] theorem State.modSweep_hist (c : Nat) (f : SweepCtx → SweepCtx) : (s.modSweep c f).hist = s.hist := rfl
@[simp] theorem State.modSweep_bad (c : Nat) (f : SweepCtx → SweepCtx) : (s.modSweep c f).bad = s.bad := rfl
@[simp] theorem State.modSweep_hostMem (c : Nat) (f : SweepCtx → SweepCtx) : (s.modSweep c f).hostMem = s.hostMem := rfl
@[simp] theorem State.modSweep_moved (c : Nat) (f : SweepCtx → SweepCtx) : (s.modSweep c f).moved = s.moved := rfl
@[simp] theorem State.modSweep_vfGrant (c : Nat) (f : SweepCtx → SweepCtx) : (s.modSweep c f).vfGrant = s.vfGrant := rfl
@[simp] theorem State.modSweep_hot (c : Nat) (f : SweepCtx → SweepCtx) : (s.modSweep c f).hot = s.hot := rfl
@[simp] theorem State.modSweep_corrected (c : Nat) (f : SweepCtx → SweepCtx) : (s.modSweep c f).corrected = s.corrected := rfl
@[simp] theorem State.modSweep_migrations (c : Nat) (f : SweepCtx → SweepCtx) : (s.modSweep c f).migrations = s.migrations := rfl
@[simp] theorem State.modSweep_sets (c : Nat) (f : SweepCtx → SweepCtx) : (s.modSweep c f).sets = s.sets := rfl
@[simp] theorem State.modSweep_pubs (c : Nat) (f : SweepCtx → SweepCtx) : (s.modSweep c f).pubs = s.pubs := rfl
@[simp] theorem State.modSweep_pubPt (c : Nat) (f : SweepCtx → SweepCtx) : (s.modSweep c f).pubPt = s.pubPt := rfl
@[simp] theorem State.modSweep_views (c : Nat) (f : SweepCtx → SweepCtx) : (s.modSweep c f).views = s.views := rfl
@[simp] theorem State.modSweep_launches (c : Nat) (f : SweepCtx → SweepCtx) : (s.modSweep c f).launches = s.launches := rfl
@[simp] theorem State.modSweep_blocks (c : Nat) (f : SweepCtx → SweepCtx) : (s.modSweep c f).blocks = s.blocks := rfl
@[simp] theorem State.modSweep_waves (c : Nat) (f : SweepCtx → SweepCtx) : (s.modSweep c f).waves = s.waves := rfl
@[simp] theorem State.modSweep_copy (c : Nat) (f : SweepCtx → SweepCtx) : (s.modSweep c f).copy = s.copy := rfl
@[simp] theorem State.modSweep_engineLast (c : Nat) (f : SweepCtx → SweepCtx) : (s.modSweep c f).engineLast = s.engineLast := rfl
@[simp] theorem State.modSweep_bslots (c : Nat) (f : SweepCtx → SweepCtx) : (s.modSweep c f).bslots = s.bslots := rfl
@[simp] theorem State.modSweep_claims (c : Nat) (f : SweepCtx → SweepCtx) : (s.modSweep c f).claims = s.claims := rfl
@[simp] theorem State.modSweep_hands (c : Nat) (f : SweepCtx → SweepCtx) : (s.modSweep c f).hands = s.hands := rfl
@[simp] theorem State.modSweep_parts (c : Nat) (f : SweepCtx → SweepCtx) : (s.modSweep c f).parts = s.parts := rfl
@[simp] theorem State.modSweep_clusters (c : Nat) (f : SweepCtx → SweepCtx) : (s.modSweep c f).clusters = s.clusters := rfl
@[simp] theorem State.modSweep_feats (c : Nat) (f : SweepCtx → SweepCtx) : (s.modSweep c f).feats = s.feats := rfl
@[simp] theorem State.modSweep_lostQuads (c : Nat) (f : SweepCtx → SweepCtx) : (s.modSweep c f).lostQuads = s.lostQuads := rfl
@[simp] theorem State.modSweep_ports (c : Nat) (f : SweepCtx → SweepCtx) : (s.modSweep c f).ports = s.ports := rfl
@[simp] theorem State.modSweep_routes (c : Nat) (f : SweepCtx → SweepCtx) : (s.modSweep c f).routes = s.routes := rfl
@[simp] theorem State.modSweep_rtindex (c : Nat) (f : SweepCtx → SweepCtx) : (s.modSweep c f).rtindex = s.rtindex := rfl
@[simp] theorem State.modSweep_flitTags (c : Nat) (f : SweepCtx → SweepCtx) : (s.modSweep c f).flitTags = s.flitTags := rfl
@[simp] theorem State.modSweep_farReds (c : Nat) (f : SweepCtx → SweepCtx) : (s.modSweep c f).farReds = s.farReds := rfl
@[simp] theorem State.modSweep_latches (c : Nat) (f : SweepCtx → SweepCtx) : (s.modSweep c f).latches = s.latches := rfl
@[simp] theorem State.modSweep_served (c : Nat) (f : SweepCtx → SweepCtx) : (s.modSweep c f).served = s.served := rfl
@[simp] theorem State.modSweep_gen (c : Nat) (f : SweepCtx → SweepCtx) : (s.modSweep c f).gen = s.gen := rfl
@[simp] theorem State.modSweep_house (c : Nat) (f : SweepCtx → SweepCtx) : (s.modSweep c f).house = s.house := rfl
@[simp] theorem State.modSweep_lastSerial (c : Nat) (f : SweepCtx → SweepCtx) : (s.modSweep c f).lastSerial = s.lastSerial := rfl
@[simp] theorem State.modSweep_grantStat (c : Nat) (f : SweepCtx → SweepCtx) : (s.modSweep c f).grantStat = s.grantStat := rfl
@[simp] theorem State.modSweep_grants (c : Nat) (f : SweepCtx → SweepCtx) : (s.modSweep c f).grants = s.grants := rfl
@[simp] theorem State.modSweep_grantRegs (c : Nat) (f : SweepCtx → SweepCtx) : (s.modSweep c f).grantRegs = s.grantRegs := rfl
@[simp] theorem State.modSweep_transport (c : Nat) (f : SweepCtx → SweepCtx) : (s.modSweep c f).transport = s.transport := rfl
@[simp] theorem State.modSweep_selfTest (c : Nat) (f : SweepCtx → SweepCtx) : (s.modSweep c f).selfTest = s.selfTest := rfl
@[simp] theorem State.modSweep_powerUps (c : Nat) (f : SweepCtx → SweepCtx) : (s.modSweep c f).powerUps = s.powerUps := rfl
@[simp] theorem State.modSweep_droop (c : Nat) (f : SweepCtx → SweepCtx) : (s.modSweep c f).droop = s.droop := rfl
@[simp] theorem State.modSweep_beyond (c : Nat) (f : SweepCtx → SweepCtx) : (s.modSweep c f).beyond = s.beyond := rfl
@[simp] theorem State.modSweep_refClock (c : Nat) (f : SweepCtx → SweepCtx) : (s.modSweep c f).refClock = s.refClock := rfl
@[simp] theorem State.modSweep_mgmt (c : Nat) (f : SweepCtx → SweepCtx) : (s.modSweep c f).mgmt = s.mgmt := rfl
@[simp] theorem State.modSweep_attest (c : Nat) (f : SweepCtx → SweepCtx) : (s.modSweep c f).attest = s.attest := rfl
@[simp] theorem State.modSweep_hostReads (c : Nat) (f : SweepCtx → SweepCtx) : (s.modSweep c f).hostReads = s.hostReads := rfl
@[simp] theorem State.modSweep_turns (c : Nat) (f : SweepCtx → SweepCtx) : (s.modSweep c f).turns = s.turns := rfl
@[simp] theorem State.modSweep_lastServed (c : Nat) (f : SweepCtx → SweepCtx) : (s.modSweep c f).lastServed = s.lastServed := rfl
@[simp] theorem State.modSweep_selfRecord (c : Nat) (f : SweepCtx → SweepCtx) : (s.modSweep c f).selfRecord = s.selfRecord := rfl

/-! ### modBSlot -/

@[simp] theorem State.modBSlot_tick (c b : Nat) (f : BSlot → BSlot) : (s.modBSlot c b f).tick = s.tick := rfl
@[simp] theorem State.modBSlot_agenda (c b : Nat) (f : BSlot → BSlot) : (s.modBSlot c b f).agenda = s.agenda := rfl
@[simp] theorem State.modBSlot_cur (c b : Nat) (f : BSlot → BSlot) : (s.modBSlot c b f).cur = s.cur := rfl
@[simp] theorem State.modBSlot_seq (c b : Nat) (f : BSlot → BSlot) : (s.modBSlot c b f).seq = s.seq := rfl
@[simp] theorem State.modBSlot_free (c b : Nat) (f : BSlot → BSlot) : (s.modBSlot c b f).free = s.free := rfl
@[simp] theorem State.modBSlot_mem (c b : Nat) (f : BSlot → BSlot) : (s.modBSlot c b f).mem = s.mem := rfl
@[simp] theorem State.modBSlot_hist (c b : Nat) (f : BSlot → BSlot) : (s.modBSlot c b f).hist = s.hist := rfl
@[simp] theorem State.modBSlot_bad (c b : Nat) (f : BSlot → BSlot) : (s.modBSlot c b f).bad = s.bad := rfl
@[simp] theorem State.modBSlot_hostMem (c b : Nat) (f : BSlot → BSlot) : (s.modBSlot c b f).hostMem = s.hostMem := rfl
@[simp] theorem State.modBSlot_moved (c b : Nat) (f : BSlot → BSlot) : (s.modBSlot c b f).moved = s.moved := rfl
@[simp] theorem State.modBSlot_vfGrant (c b : Nat) (f : BSlot → BSlot) : (s.modBSlot c b f).vfGrant = s.vfGrant := rfl
@[simp] theorem State.modBSlot_hot (c b : Nat) (f : BSlot → BSlot) : (s.modBSlot c b f).hot = s.hot := rfl
@[simp] theorem State.modBSlot_corrected (c b : Nat) (f : BSlot → BSlot) : (s.modBSlot c b f).corrected = s.corrected := rfl
@[simp] theorem State.modBSlot_migrations (c b : Nat) (f : BSlot → BSlot) : (s.modBSlot c b f).migrations = s.migrations := rfl
@[simp] theorem State.modBSlot_sets (c b : Nat) (f : BSlot → BSlot) : (s.modBSlot c b f).sets = s.sets := rfl
@[simp] theorem State.modBSlot_pubs (c b : Nat) (f : BSlot → BSlot) : (s.modBSlot c b f).pubs = s.pubs := rfl
@[simp] theorem State.modBSlot_pubPt (c b : Nat) (f : BSlot → BSlot) : (s.modBSlot c b f).pubPt = s.pubPt := rfl
@[simp] theorem State.modBSlot_views (c b : Nat) (f : BSlot → BSlot) : (s.modBSlot c b f).views = s.views := rfl
@[simp] theorem State.modBSlot_launches (c b : Nat) (f : BSlot → BSlot) : (s.modBSlot c b f).launches = s.launches := rfl
@[simp] theorem State.modBSlot_blocks (c b : Nat) (f : BSlot → BSlot) : (s.modBSlot c b f).blocks = s.blocks := rfl
@[simp] theorem State.modBSlot_waves (c b : Nat) (f : BSlot → BSlot) : (s.modBSlot c b f).waves = s.waves := rfl
@[simp] theorem State.modBSlot_copy (c b : Nat) (f : BSlot → BSlot) : (s.modBSlot c b f).copy = s.copy := rfl
@[simp] theorem State.modBSlot_engineLast (c b : Nat) (f : BSlot → BSlot) : (s.modBSlot c b f).engineLast = s.engineLast := rfl
@[simp] theorem State.modBSlot_sweeps (c b : Nat) (f : BSlot → BSlot) : (s.modBSlot c b f).sweeps = s.sweeps := rfl
@[simp] theorem State.modBSlot_claims (c b : Nat) (f : BSlot → BSlot) : (s.modBSlot c b f).claims = s.claims := rfl
@[simp] theorem State.modBSlot_hands (c b : Nat) (f : BSlot → BSlot) : (s.modBSlot c b f).hands = s.hands := rfl
@[simp] theorem State.modBSlot_parts (c b : Nat) (f : BSlot → BSlot) : (s.modBSlot c b f).parts = s.parts := rfl
@[simp] theorem State.modBSlot_clusters (c b : Nat) (f : BSlot → BSlot) : (s.modBSlot c b f).clusters = s.clusters := rfl
@[simp] theorem State.modBSlot_feats (c b : Nat) (f : BSlot → BSlot) : (s.modBSlot c b f).feats = s.feats := rfl
@[simp] theorem State.modBSlot_lostQuads (c b : Nat) (f : BSlot → BSlot) : (s.modBSlot c b f).lostQuads = s.lostQuads := rfl
@[simp] theorem State.modBSlot_ports (c b : Nat) (f : BSlot → BSlot) : (s.modBSlot c b f).ports = s.ports := rfl
@[simp] theorem State.modBSlot_routes (c b : Nat) (f : BSlot → BSlot) : (s.modBSlot c b f).routes = s.routes := rfl
@[simp] theorem State.modBSlot_rtindex (c b : Nat) (f : BSlot → BSlot) : (s.modBSlot c b f).rtindex = s.rtindex := rfl
@[simp] theorem State.modBSlot_flitTags (c b : Nat) (f : BSlot → BSlot) : (s.modBSlot c b f).flitTags = s.flitTags := rfl
@[simp] theorem State.modBSlot_farReds (c b : Nat) (f : BSlot → BSlot) : (s.modBSlot c b f).farReds = s.farReds := rfl
@[simp] theorem State.modBSlot_latches (c b : Nat) (f : BSlot → BSlot) : (s.modBSlot c b f).latches = s.latches := rfl
@[simp] theorem State.modBSlot_served (c b : Nat) (f : BSlot → BSlot) : (s.modBSlot c b f).served = s.served := rfl
@[simp] theorem State.modBSlot_gen (c b : Nat) (f : BSlot → BSlot) : (s.modBSlot c b f).gen = s.gen := rfl
@[simp] theorem State.modBSlot_house (c b : Nat) (f : BSlot → BSlot) : (s.modBSlot c b f).house = s.house := rfl
@[simp] theorem State.modBSlot_lastSerial (c b : Nat) (f : BSlot → BSlot) : (s.modBSlot c b f).lastSerial = s.lastSerial := rfl
@[simp] theorem State.modBSlot_grantStat (c b : Nat) (f : BSlot → BSlot) : (s.modBSlot c b f).grantStat = s.grantStat := rfl
@[simp] theorem State.modBSlot_grants (c b : Nat) (f : BSlot → BSlot) : (s.modBSlot c b f).grants = s.grants := rfl
@[simp] theorem State.modBSlot_grantRegs (c b : Nat) (f : BSlot → BSlot) : (s.modBSlot c b f).grantRegs = s.grantRegs := rfl
@[simp] theorem State.modBSlot_transport (c b : Nat) (f : BSlot → BSlot) : (s.modBSlot c b f).transport = s.transport := rfl
@[simp] theorem State.modBSlot_selfTest (c b : Nat) (f : BSlot → BSlot) : (s.modBSlot c b f).selfTest = s.selfTest := rfl
@[simp] theorem State.modBSlot_powerUps (c b : Nat) (f : BSlot → BSlot) : (s.modBSlot c b f).powerUps = s.powerUps := rfl
@[simp] theorem State.modBSlot_droop (c b : Nat) (f : BSlot → BSlot) : (s.modBSlot c b f).droop = s.droop := rfl
@[simp] theorem State.modBSlot_beyond (c b : Nat) (f : BSlot → BSlot) : (s.modBSlot c b f).beyond = s.beyond := rfl
@[simp] theorem State.modBSlot_refClock (c b : Nat) (f : BSlot → BSlot) : (s.modBSlot c b f).refClock = s.refClock := rfl
@[simp] theorem State.modBSlot_mgmt (c b : Nat) (f : BSlot → BSlot) : (s.modBSlot c b f).mgmt = s.mgmt := rfl
@[simp] theorem State.modBSlot_attest (c b : Nat) (f : BSlot → BSlot) : (s.modBSlot c b f).attest = s.attest := rfl
@[simp] theorem State.modBSlot_hostReads (c b : Nat) (f : BSlot → BSlot) : (s.modBSlot c b f).hostReads = s.hostReads := rfl
@[simp] theorem State.modBSlot_turns (c b : Nat) (f : BSlot → BSlot) : (s.modBSlot c b f).turns = s.turns := rfl
@[simp] theorem State.modBSlot_lastServed (c b : Nat) (f : BSlot → BSlot) : (s.modBSlot c b f).lastServed = s.lastServed := rfl
@[simp] theorem State.modBSlot_selfRecord (c b : Nat) (f : BSlot → BSlot) : (s.modBSlot c b f).selfRecord = s.selfRecord := rfl

/-! ### modPort -/

@[simp] theorem State.modPort_tick (p : Nat) (f : Port → Port) : (s.modPort p f).tick = s.tick := rfl
@[simp] theorem State.modPort_agenda (p : Nat) (f : Port → Port) : (s.modPort p f).agenda = s.agenda := rfl
@[simp] theorem State.modPort_cur (p : Nat) (f : Port → Port) : (s.modPort p f).cur = s.cur := rfl
@[simp] theorem State.modPort_seq (p : Nat) (f : Port → Port) : (s.modPort p f).seq = s.seq := rfl
@[simp] theorem State.modPort_free (p : Nat) (f : Port → Port) : (s.modPort p f).free = s.free := rfl
@[simp] theorem State.modPort_mem (p : Nat) (f : Port → Port) : (s.modPort p f).mem = s.mem := rfl
@[simp] theorem State.modPort_hist (p : Nat) (f : Port → Port) : (s.modPort p f).hist = s.hist := rfl
@[simp] theorem State.modPort_bad (p : Nat) (f : Port → Port) : (s.modPort p f).bad = s.bad := rfl
@[simp] theorem State.modPort_hostMem (p : Nat) (f : Port → Port) : (s.modPort p f).hostMem = s.hostMem := rfl
@[simp] theorem State.modPort_moved (p : Nat) (f : Port → Port) : (s.modPort p f).moved = s.moved := rfl
@[simp] theorem State.modPort_vfGrant (p : Nat) (f : Port → Port) : (s.modPort p f).vfGrant = s.vfGrant := rfl
@[simp] theorem State.modPort_hot (p : Nat) (f : Port → Port) : (s.modPort p f).hot = s.hot := rfl
@[simp] theorem State.modPort_corrected (p : Nat) (f : Port → Port) : (s.modPort p f).corrected = s.corrected := rfl
@[simp] theorem State.modPort_migrations (p : Nat) (f : Port → Port) : (s.modPort p f).migrations = s.migrations := rfl
@[simp] theorem State.modPort_sets (p : Nat) (f : Port → Port) : (s.modPort p f).sets = s.sets := rfl
@[simp] theorem State.modPort_pubs (p : Nat) (f : Port → Port) : (s.modPort p f).pubs = s.pubs := rfl
@[simp] theorem State.modPort_pubPt (p : Nat) (f : Port → Port) : (s.modPort p f).pubPt = s.pubPt := rfl
@[simp] theorem State.modPort_views (p : Nat) (f : Port → Port) : (s.modPort p f).views = s.views := rfl
@[simp] theorem State.modPort_launches (p : Nat) (f : Port → Port) : (s.modPort p f).launches = s.launches := rfl
@[simp] theorem State.modPort_blocks (p : Nat) (f : Port → Port) : (s.modPort p f).blocks = s.blocks := rfl
@[simp] theorem State.modPort_waves (p : Nat) (f : Port → Port) : (s.modPort p f).waves = s.waves := rfl
@[simp] theorem State.modPort_copy (p : Nat) (f : Port → Port) : (s.modPort p f).copy = s.copy := rfl
@[simp] theorem State.modPort_engineLast (p : Nat) (f : Port → Port) : (s.modPort p f).engineLast = s.engineLast := rfl
@[simp] theorem State.modPort_bslots (p : Nat) (f : Port → Port) : (s.modPort p f).bslots = s.bslots := rfl
@[simp] theorem State.modPort_sweeps (p : Nat) (f : Port → Port) : (s.modPort p f).sweeps = s.sweeps := rfl
@[simp] theorem State.modPort_claims (p : Nat) (f : Port → Port) : (s.modPort p f).claims = s.claims := rfl
@[simp] theorem State.modPort_hands (p : Nat) (f : Port → Port) : (s.modPort p f).hands = s.hands := rfl
@[simp] theorem State.modPort_parts (p : Nat) (f : Port → Port) : (s.modPort p f).parts = s.parts := rfl
@[simp] theorem State.modPort_clusters (p : Nat) (f : Port → Port) : (s.modPort p f).clusters = s.clusters := rfl
@[simp] theorem State.modPort_feats (p : Nat) (f : Port → Port) : (s.modPort p f).feats = s.feats := rfl
@[simp] theorem State.modPort_lostQuads (p : Nat) (f : Port → Port) : (s.modPort p f).lostQuads = s.lostQuads := rfl
@[simp] theorem State.modPort_routes (p : Nat) (f : Port → Port) : (s.modPort p f).routes = s.routes := rfl
@[simp] theorem State.modPort_rtindex (p : Nat) (f : Port → Port) : (s.modPort p f).rtindex = s.rtindex := rfl
@[simp] theorem State.modPort_flitTags (p : Nat) (f : Port → Port) : (s.modPort p f).flitTags = s.flitTags := rfl
@[simp] theorem State.modPort_farReds (p : Nat) (f : Port → Port) : (s.modPort p f).farReds = s.farReds := rfl
@[simp] theorem State.modPort_latches (p : Nat) (f : Port → Port) : (s.modPort p f).latches = s.latches := rfl
@[simp] theorem State.modPort_served (p : Nat) (f : Port → Port) : (s.modPort p f).served = s.served := rfl
@[simp] theorem State.modPort_gen (p : Nat) (f : Port → Port) : (s.modPort p f).gen = s.gen := rfl
@[simp] theorem State.modPort_house (p : Nat) (f : Port → Port) : (s.modPort p f).house = s.house := rfl
@[simp] theorem State.modPort_lastSerial (p : Nat) (f : Port → Port) : (s.modPort p f).lastSerial = s.lastSerial := rfl
@[simp] theorem State.modPort_grantStat (p : Nat) (f : Port → Port) : (s.modPort p f).grantStat = s.grantStat := rfl
@[simp] theorem State.modPort_grants (p : Nat) (f : Port → Port) : (s.modPort p f).grants = s.grants := rfl
@[simp] theorem State.modPort_grantRegs (p : Nat) (f : Port → Port) : (s.modPort p f).grantRegs = s.grantRegs := rfl
@[simp] theorem State.modPort_transport (p : Nat) (f : Port → Port) : (s.modPort p f).transport = s.transport := rfl
@[simp] theorem State.modPort_selfTest (p : Nat) (f : Port → Port) : (s.modPort p f).selfTest = s.selfTest := rfl
@[simp] theorem State.modPort_powerUps (p : Nat) (f : Port → Port) : (s.modPort p f).powerUps = s.powerUps := rfl
@[simp] theorem State.modPort_droop (p : Nat) (f : Port → Port) : (s.modPort p f).droop = s.droop := rfl
@[simp] theorem State.modPort_beyond (p : Nat) (f : Port → Port) : (s.modPort p f).beyond = s.beyond := rfl
@[simp] theorem State.modPort_refClock (p : Nat) (f : Port → Port) : (s.modPort p f).refClock = s.refClock := rfl
@[simp] theorem State.modPort_mgmt (p : Nat) (f : Port → Port) : (s.modPort p f).mgmt = s.mgmt := rfl
@[simp] theorem State.modPort_attest (p : Nat) (f : Port → Port) : (s.modPort p f).attest = s.attest := rfl
@[simp] theorem State.modPort_hostReads (p : Nat) (f : Port → Port) : (s.modPort p f).hostReads = s.hostReads := rfl
@[simp] theorem State.modPort_turns (p : Nat) (f : Port → Port) : (s.modPort p f).turns = s.turns := rfl
@[simp] theorem State.modPort_lastServed (p : Nat) (f : Port → Port) : (s.modPort p f).lastServed = s.lastServed := rfl
@[simp] theorem State.modPort_selfRecord (p : Nat) (f : Port → Port) : (s.modPort p f).selfRecord = s.selfRecord := rfl

/-! ### setClaim -/

@[simp] theorem State.setClaim_tick (e : Nat) (c : Claim) : (s.setClaim e c).tick = s.tick := rfl
@[simp] theorem State.setClaim_agenda (e : Nat) (c : Claim) : (s.setClaim e c).agenda = s.agenda := rfl
@[simp] theorem State.setClaim_cur (e : Nat) (c : Claim) : (s.setClaim e c).cur = s.cur := rfl
@[simp] theorem State.setClaim_seq (e : Nat) (c : Claim) : (s.setClaim e c).seq = s.seq := rfl
@[simp] theorem State.setClaim_free (e : Nat) (c : Claim) : (s.setClaim e c).free = s.free := rfl
@[simp] theorem State.setClaim_mem (e : Nat) (c : Claim) : (s.setClaim e c).mem = s.mem := rfl
@[simp] theorem State.setClaim_hist (e : Nat) (c : Claim) : (s.setClaim e c).hist = s.hist := rfl
@[simp] theorem State.setClaim_bad (e : Nat) (c : Claim) : (s.setClaim e c).bad = s.bad := rfl
@[simp] theorem State.setClaim_hostMem (e : Nat) (c : Claim) : (s.setClaim e c).hostMem = s.hostMem := rfl
@[simp] theorem State.setClaim_moved (e : Nat) (c : Claim) : (s.setClaim e c).moved = s.moved := rfl
@[simp] theorem State.setClaim_vfGrant (e : Nat) (c : Claim) : (s.setClaim e c).vfGrant = s.vfGrant := rfl
@[simp] theorem State.setClaim_hot (e : Nat) (c : Claim) : (s.setClaim e c).hot = s.hot := rfl
@[simp] theorem State.setClaim_corrected (e : Nat) (c : Claim) : (s.setClaim e c).corrected = s.corrected := rfl
@[simp] theorem State.setClaim_migrations (e : Nat) (c : Claim) : (s.setClaim e c).migrations = s.migrations := rfl
@[simp] theorem State.setClaim_sets (e : Nat) (c : Claim) : (s.setClaim e c).sets = s.sets := rfl
@[simp] theorem State.setClaim_pubs (e : Nat) (c : Claim) : (s.setClaim e c).pubs = s.pubs := rfl
@[simp] theorem State.setClaim_pubPt (e : Nat) (c : Claim) : (s.setClaim e c).pubPt = s.pubPt := rfl
@[simp] theorem State.setClaim_views (e : Nat) (c : Claim) : (s.setClaim e c).views = s.views := rfl
@[simp] theorem State.setClaim_launches (e : Nat) (c : Claim) : (s.setClaim e c).launches = s.launches := rfl
@[simp] theorem State.setClaim_blocks (e : Nat) (c : Claim) : (s.setClaim e c).blocks = s.blocks := rfl
@[simp] theorem State.setClaim_waves (e : Nat) (c : Claim) : (s.setClaim e c).waves = s.waves := rfl
@[simp] theorem State.setClaim_copy (e : Nat) (c : Claim) : (s.setClaim e c).copy = s.copy := rfl
@[simp] theorem State.setClaim_engineLast (e : Nat) (c : Claim) : (s.setClaim e c).engineLast = s.engineLast := rfl
@[simp] theorem State.setClaim_bslots (e : Nat) (c : Claim) : (s.setClaim e c).bslots = s.bslots := rfl
@[simp] theorem State.setClaim_sweeps (e : Nat) (c : Claim) : (s.setClaim e c).sweeps = s.sweeps := rfl
@[simp] theorem State.setClaim_hands (e : Nat) (c : Claim) : (s.setClaim e c).hands = s.hands := rfl
@[simp] theorem State.setClaim_parts (e : Nat) (c : Claim) : (s.setClaim e c).parts = s.parts := rfl
@[simp] theorem State.setClaim_clusters (e : Nat) (c : Claim) : (s.setClaim e c).clusters = s.clusters := rfl
@[simp] theorem State.setClaim_feats (e : Nat) (c : Claim) : (s.setClaim e c).feats = s.feats := rfl
@[simp] theorem State.setClaim_lostQuads (e : Nat) (c : Claim) : (s.setClaim e c).lostQuads = s.lostQuads := rfl
@[simp] theorem State.setClaim_ports (e : Nat) (c : Claim) : (s.setClaim e c).ports = s.ports := rfl
@[simp] theorem State.setClaim_routes (e : Nat) (c : Claim) : (s.setClaim e c).routes = s.routes := rfl
@[simp] theorem State.setClaim_rtindex (e : Nat) (c : Claim) : (s.setClaim e c).rtindex = s.rtindex := rfl
@[simp] theorem State.setClaim_flitTags (e : Nat) (c : Claim) : (s.setClaim e c).flitTags = s.flitTags := rfl
@[simp] theorem State.setClaim_farReds (e : Nat) (c : Claim) : (s.setClaim e c).farReds = s.farReds := rfl
@[simp] theorem State.setClaim_latches (e : Nat) (c : Claim) : (s.setClaim e c).latches = s.latches := rfl
@[simp] theorem State.setClaim_served (e : Nat) (c : Claim) : (s.setClaim e c).served = s.served := rfl
@[simp] theorem State.setClaim_gen (e : Nat) (c : Claim) : (s.setClaim e c).gen = s.gen := rfl
@[simp] theorem State.setClaim_house (e : Nat) (c : Claim) : (s.setClaim e c).house = s.house := rfl
@[simp] theorem State.setClaim_lastSerial (e : Nat) (c : Claim) : (s.setClaim e c).lastSerial = s.lastSerial := rfl
@[simp] theorem State.setClaim_grantStat (e : Nat) (c : Claim) : (s.setClaim e c).grantStat = s.grantStat := rfl
@[simp] theorem State.setClaim_grants (e : Nat) (c : Claim) : (s.setClaim e c).grants = s.grants := rfl
@[simp] theorem State.setClaim_grantRegs (e : Nat) (c : Claim) : (s.setClaim e c).grantRegs = s.grantRegs := rfl
@[simp] theorem State.setClaim_transport (e : Nat) (c : Claim) : (s.setClaim e c).transport = s.transport := rfl
@[simp] theorem State.setClaim_selfTest (e : Nat) (c : Claim) : (s.setClaim e c).selfTest = s.selfTest := rfl
@[simp] theorem State.setClaim_powerUps (e : Nat) (c : Claim) : (s.setClaim e c).powerUps = s.powerUps := rfl
@[simp] theorem State.setClaim_droop (e : Nat) (c : Claim) : (s.setClaim e c).droop = s.droop := rfl
@[simp] theorem State.setClaim_beyond (e : Nat) (c : Claim) : (s.setClaim e c).beyond = s.beyond := rfl
@[simp] theorem State.setClaim_refClock (e : Nat) (c : Claim) : (s.setClaim e c).refClock = s.refClock := rfl
@[simp] theorem State.setClaim_mgmt (e : Nat) (c : Claim) : (s.setClaim e c).mgmt = s.mgmt := rfl
@[simp] theorem State.setClaim_attest (e : Nat) (c : Claim) : (s.setClaim e c).attest = s.attest := rfl
@[simp] theorem State.setClaim_hostReads (e : Nat) (c : Claim) : (s.setClaim e c).hostReads = s.hostReads := rfl
@[simp] theorem State.setClaim_turns (e : Nat) (c : Claim) : (s.setClaim e c).turns = s.turns := rfl
@[simp] theorem State.setClaim_lastServed (e : Nat) (c : Claim) : (s.setClaim e c).lastServed = s.lastServed := rfl
@[simp] theorem State.setClaim_selfRecord (e : Nat) (c : Claim) : (s.setClaim e c).selfRecord = s.selfRecord := rfl

end Sys2Proof.Machine
end

