-- ==== Sys2Proof/Laws/Memory.lean ====
section
/-! SUPPORT. Every memory operation keeps the canonical form; the claim table stays sorted; the state after reset has both. -/

namespace Sys2Proof.Machine

theorem wf_tset {m : List Host.Cell} (a : Nat) (x : Byte) (h : Memory.wf m = true) : Memory.wf (tset 0 m a x) = true := tcanon_tset a x h
theorem wf_tputs {m : List Host.Cell} (a : Nat) (xs : List Byte) (h : Memory.wf m = true) : Memory.wf (tputs 0 m a xs) = true := by
  induction xs generalizing m a with
  | nil => exact h
  | cons x xs ih => exact ih _ (wf_tset a x h)

/-- Reports to the management path change nothing else. -/
theorem tellUnits_mem (us : List Nat) (s : State) : (us.foldl tellUnit s).mem = s.mem := by
  induction us generalizing s with
  | nil => rfl
  | cons u us ih =>
    refine (ih (tellUnit s u)).trans ?_
    simp only [tellUnit, report]
    split <;> rfl

theorem wf_copyLine {s : State} (g : Migration) (line : Nat) (h : Memory.wf s.mem = true) : Memory.wf (copyLine s g line).mem = true := by
  simp only [copyLine, tellUnits_mem]
  exact wf_tputs _ _ h

theorem wf_writeByte {s : State} (loc : Nat) (x : Byte) (h : Memory.wf s.mem = true) : Memory.wf (writeByte s loc x).mem = true := by
  simp only [writeByte]
  split
  · exact wf_copyLine (s := { s with mem := tset 0 s.mem (redir s loc) x }) _ _ (wf_tset _ _ h)
  · exact wf_tset _ _ h

theorem wf_writeBytes {s : State} (bs : List (Nat × Byte)) (h : Memory.wf s.mem = true) : Memory.wf (writeBytes s bs).mem = true := by
  induction bs generalizing s with
  | nil => exact h
  | cons b bs ih => exact ih (s := writeByte s b.1 b.2) (wf_writeByte _ _ h)

theorem wf_homeWrite {s : State} (bs : List (Nat × Byte)) (h : Memory.wf s.mem = true) : Memory.wf (homeWrite s bs).mem = true :=
  wf_writeBytes bs h

/-- A migration's last step renames places and moves no byte. -/
theorem switchPage_mem (s : State) (g : Migration) : (switchPage s g).mem = s.mem := by
  simp only [switchPage, swapPlaces]
  split <;> rfl

theorem wf_migrateWhole {s : State} (g : Migration) (h : Memory.wf s.mem = true) : Memory.wf (migrateWhole s g).mem = true := by
  have lines : ∀ (is : List Nat) (s : State), Memory.wf s.mem = true →
      Memory.wf (is.foldl (fun s i => copyLine s g i) s).mem = true := by
    intro is
    induction is with
    | nil => exact fun _ h => h
    | cons i is ih => exact fun s h => ih _ (wf_copyLine g i h)
  rw [migrateWhole, switchPage_mem]
  exact lines _ _ h

theorem wf_hostPut {s : State} (a : Nat) (bs : List Byte) (h : Memory.wf s.hostMem = true) : Memory.wf (hostPut s a bs).hostMem = true :=
  wf_tputs _ _ h

theorem wf_placeProgram {s : State} (bs : List Byte) (h : Memory.wf s.mem = true) : Memory.wf (placeProgram s bs).mem = true := wf_tputs _ _ h

/-- A line's copy changes memory, the migration's bitmap and the reports, nothing else. -/
theorem copyLine_rest (s : State) (g : Migration) (line : Nat) :
    { copyLine s g line with mem := s.mem, migrations := s.migrations, mgmt := s.mgmt } = s := by
  have tell : ∀ (us : List Nat) (t : State),
      { us.foldl tellUnit t with mem := s.mem, migrations := s.migrations, mgmt := s.mgmt } = { t with mem := s.mem, migrations := s.migrations, mgmt := s.mgmt } := by
    intro us
    induction us with
    | nil => exact fun _ => rfl
    | cons u us ih =>
      intro t
      refine (ih (tellUnit t u)).trans ?_
      simp only [tellUnit, report]
      split <;> rfl
  simp only [copyLine, tell]

/-- Device-memory writes touch neither the host's memory nor the claim table. -/
theorem writeByte_rest (s : State) (loc : Nat) (x : Byte) :
    { writeByte s loc x with mem := s.mem, migrations := s.migrations, mgmt := s.mgmt } = s := by
  simp only [writeByte]
  split
  · exact congrArg (fun t : State => { t with mem := s.mem }) (copyLine_rest { s with mem := tset 0 s.mem (redir s loc) x } _ _)
  · rfl

theorem sorted_setClaim {s : State} (e : Nat) (c : Claim) (h : tsorted s.claims = true) : tsorted (s.setClaim e c).claims = true := by
  simp only [State.setClaim, tset]
  split
  · exact tsorted_tdel _ h
  · exact tsorted_tput _ _ h

/-- What leaves the three tables alone keeps the invariant. -/
theorem inv_congr {s t : State} (h : Inv s) (hm : t.mem = s.mem) (hh : t.hostMem = s.hostMem) (hc : t.claims = s.claims) : Inv t := by
  unfold Inv at *; rw [hm, hh, hc]; exact h

theorem reset_wf : Memory.wf State.reset.mem = true ∧ Memory.wf State.reset.hostMem = true := ⟨rfl, rfl⟩
theorem reset_inv : Inv State.reset := ⟨rfl, rfl, rfl⟩

end Sys2Proof.Machine
end

