-- ==== Sys2Proof/Laws/Ops.lean ====
section
/-! SUPPORT. What each shared operation leaves: a trap, a queued scratchpad word, a request, a wait, a served word, a frame of
home memory. -/

namespace Sys2Proof.Machine

theorem slot_setSlot (w : Wave) (b : Bool) (x : Option Slot) : (w.setSlot b x).slot b = x := by cases b <;> rfl
theorem slot_setSlot_other (w : Wave) (b : Bool) (x : Option Slot) : (w.setSlot b x).slot (!b) = w.slot (!b) := by cases b <;> rfl
theorem setSlot_regs (w : Wave) (b : Bool) (x : Option Slot) : { w.setSlot b x with a := w.a, b := w.b } = w := by cases b <;> rfl

theorem otherWaves_put (s : State) (id : WaveId) (w : Wave) (t : State) (h : t.waves = tput s.waves (wkey id) w) : otherWaves s t id := by
  intro k hk; rw [h, tfind_tput_other _ _ hk]

/-- TAKING A TRAP leaves exactly what `trapped` says (R363, R365). -/
theorem takeTrap_trapped {s : State} {c : Ctx} (h : s.issuer = some c) (tr : Trap) (hpc : tr.pc = c.sl.path.pc.toNat)
    (hb : tr.block = c.id.block) (hc : tr.core = c.b.core) :
    c.trapped s (takeTrap c s tr) tr.code tr.attr tr.construct tr.lanes tr.value := by
  obtain ⟨hw, _, hl, hs⟩ := issuer_spec h
  have hl' : (dropLatch (s.setWave c.id (c.w.setSlot c.slotB (some { c.sl with hold := .trapped })))
      (4 * c.b.core + slotOf c.id)).launch c.id.serial = some c.l := hl
  have e : takeTrap c s tr = { dropLatch (s.setWave c.id (c.w.setSlot c.slotB (some { c.sl with hold := .trapped })))
      (4 * c.b.core + slotOf c.id) with launches := tput s.launches c.id.serial { c.l with traps := c.l.traps ++ [tr] } } := by
    simp only [takeTrap, recordTrap]
    rw [modWave_of hw, hs, Option.map_some]
    exact modLaunch_of hl' _
  rw [e]
  refine ⟨c.w.setSlot c.slotB (some { c.sl with hold := .trapped }), { c.l with traps := c.l.traps ++ [tr] }, tr, ?_, ?_,
    setSlot_regs _ _ _, slot_setSlot _ _ _, slot_setSlot_other _ _ _, rfl, rfl, rfl, rfl, rfl, hpc, hb, hc, rfl, rfl, ?_, rfl⟩
  · exact wave_setWave s c.id _
  · simp [State.launch]
  · exact otherWaves_put s c.id _ _ rfl

theorem raise_trapped {s : State} {c : Ctx} (h : s.issuer = some c) (code attr construct : Nat) (lanes : Mask) (value : BitVec 64) :
    c.trapped s (raise c s code attr construct lanes value) code attr construct lanes value :=
  takeTrap_trapped h (mkTrap c code attr construct lanes value) rfl rfl rfl

/-- Bytes counted, or touches recorded, for a launch that the state holds. -/
theorem addBytes_of {s : State} {n : Nat} {l : Launch} (h : s.launch n = some l) (tier k : Nat) :
    addBytes s n tier k = { s with launches := tput s.launches n { l with ebytes := tset 0 l.ebytes tier (tget 0 l.ebytes tier + k) } } :=
  modLaunch_of h _

/-- A scratchpad word that enters its wave's queue (R154). -/
theorem spIssue_queued {s s1 : State} {c : Ctx} {l : Launch} (hw : s.wave c.id = some c.w)
    (e : { s1 with launches := s.launches } = s) (hl : s1.launch c.id.serial = some l)
    (hq : { l with touches := c.l.touches } = c.l) (k : SpKind) (dst : List Reg) (pk : PendKind) (limit : Nat) (eff : Mask) :
    c.queued s (spIssue c s1 k dst pk limit eff) k dst limit eff := by
  have ht : s1.tick = s.tick := by rw [← e]
  have hws : s1.waves = s.waves := by rw [← e]
  have hw1 : s1.wave c.id = some c.w := by simpa [State.wave, hws] using hw
  simp only [spIssue, Ctx.done, modWave_of hw1]
  refine ⟨_, ⟨s1.tick, s1.tick, c.sl.path.pc, c.w.cyc c.b.core s1.tick, s1.tick, limit, eff, k, none, [], none⟩, l, pk, wave_setWave _ _ _, ?_, rfl, rfl, rfl, rfl, by rw [ht], rfl, rfl, rfl, ?_, ?_, hl, hq, ?_, ?_⟩
  · cases dst <;> cases c.slotB <;> rfl
  · cases dst <;> cases c.slotB <;> simp [Wave.advance, Wave.setSlot, addPend]
  · cases dst <;> cases c.slotB <;> rfl
  · exact otherWaves_put s c.id _ _ (by rw [← hws]; rfl)
  · rw [← e]; rfl

/-- The word at the head of a queue is served (R154). -/
theorem served_spDone (x : Wave) (op : SpOp) (ws : List RegWrite) :
    served x op ws ({ x with spq := x.spq.tail }.pendWrite op.tag ws true) := by
  refine ⟨rfl, ?_⟩
  simp [Wave.pendWrite]

theorem spHead_spec {s : State} {id : WaveId} {x : Wave} {b : Block} {op : SpOp} (h : spHead s id = some (x, b, op)) :
    s.wave id = some x ∧ s.block id.serial id.block = some b ∧ b.place = .resident ∧ x.spDead = false := by
  unfold spHead at h
  split at h
  · rename_i w b' hw hb
    split at h
    · split at h
      · rename_i hc
        injection h with h; injection h with h1 h2; injection h2 with h2 h3
        subst h1 h2
        exact ⟨hw, hb, by simpa using (Bool.and_eq_true_iff.mp hc).1⟩
      · cases h
    · cases h
  · cases h

/-! ### Core cycles -/

theorem cum_step (core n : Nat) : cum core n ≤ cum core (n + 1) := by simp only [cum]; omega

theorem cum_mono (core : Nat) {m n : Nat} (h : m ≤ n) : cum core m ≤ cum core n := by
  induction h with
  | refl => exact le_rfl
  | step _ ih => exact ih.trans (cum_step core _)

/-- A clock does not stand still for ever: `n` cycles pass in `n * (cyclePeriod core + 1)` steps. -/
theorem cum_reaches (core n : Nat) : n ≤ cum core (n * (Config.cyclePeriod core + 1)) := by
  induction n with
  | zero => exact Nat.zero_le _
  | succ n ih =>
    have e : (n + 1) * (Config.cyclePeriod core + 1) = n * (Config.cyclePeriod core + 1) + Config.cyclePeriod core + 1 := by ring
    have h := cum_mono core (Nat.le_add_right (n * (Config.cyclePeriod core + 1)) (Config.cyclePeriod core))
    have hm : ((n * (Config.cyclePeriod core + 1) + Config.cyclePeriod core) + 1) % (Config.cyclePeriod core + 1) = 0 := by
      rw [← e]; exact Nat.mul_mod_left _ _
    rw [e]
    simp only [cum, hm, if_true]
    omega

/-! ### The operations that several rules share -/

/-- R318: a plan gives every block, in their order, a core. -/
theorem plan_blocks {step : State → Nat → Nat → State} {ok : State → Nat → Nat → Bool} {lead : Nat → Bool} :
    ∀ {led : Bool} {bs : List Nat} {s : State} {at_ : List (Nat × Nat)}, plan step ok lead led bs s = some at_ → at_.map (fun p => p.1) = bs
  | led, [], s, at_, h => by cases led <;> simp [plan] at h; simp [← h]
  | led, b :: bs, s, at_, h => by
    obtain ⟨c, -, hc⟩ := List.exists_of_findSome?_eq_some h
    split at hc
    · obtain ⟨r, hr, rfl⟩ := Option.map_eq_some_iff.mp hc
      simp [plan_blocks hr]
    · cases hc

/-- R318: and one of them is a core that leads, where none had led before. -/
theorem plan_leads {step : State → Nat → Nat → State} {ok : State → Nat → Nat → Bool} {lead : Nat → Bool} :
    ∀ {led : Bool} {bs : List Nat} {s : State} {at_ : List (Nat × Nat)}, plan step ok lead led bs s = some at_ →
      led = true ∨ ∃ p ∈ at_, lead p.2 = true
  | led, [], s, at_, h => by cases led <;> simp [plan] at h; simp
  | led, b :: bs, s, at_, h => by
    obtain ⟨c, -, hc⟩ := List.exists_of_findSome?_eq_some h
    split at hc
    · obtain ⟨r, hr, rfl⟩ := Option.map_eq_some_iff.mp hc
      rcases plan_leads hr with h | ⟨p, hp, hl⟩
      · rcases Bool.or_eq_true_iff.mp h with h | h
        · exact .inl h
        · exact .inr ⟨(b, c), by simp, h⟩
      · exact .inr ⟨p, by simp [hp], hl⟩
    · cases hc

/-- R258: a read over bytes that the copy has written has every byte. -/
@[simp] theorem readWhole_length (s : State) (old : Tab Byte) (locs : List Nat) : (readWhole s old locs).length = locs.length := by
  unfold readWhole; split <;> simp

/-- R258: a copy that has written nothing reads memory as it is. -/
@[simp] theorem readWhole_nil (s : State) (locs : List Nat) : readWhole s [] locs = locs.map (memByte s) := by
  unfold readWhole; split <;> simp [tfind]

/-- R200: a view keeps what it has read. -/
@[simp] theorem viewKeeps_seen (v : View) (hpt : Nat) (x : Tab SByte) : (viewKeeps v hpt x).seen = v.seen := by
  unfold viewKeeps
  induction x generalizing v with
  | nil => rfl
  | cons b x ih => simp only [List.foldl_cons]; rw [ih]; split <;> rfl

/-- R182, R244: a migration that is kept goes to no locked page. -/
theorem keepLocked_mem {s : State} {g : Migration} : g ∈ (keepLocked s).migrations ↔ g ∈ s.migrations ∧ lockedPage s (pageAt s g.new_) = false := by
  simp [keepLocked]

end Sys2Proof.Machine
end

