-- ==== Sys2Proof/Tests/Slice0.lean ====
section
/-! SUPPORT. The model's own tests: terms that each check of `wellFormed` refuses, words that the spec writes out, single steps
whose results the spec gives, and for each statement a state and operands that meet its hypotheses. -/

namespace Sys2Proof.Tests

open Sys2Proof Sys2Proof.Machine

/-! ### Terms -/

def h0 : Hdr := { pn := false, pm := 0, la := 0 }
/-- A header whose mask register is `m1`, which reads no lane in the states below. -/
def hNone : Hdr := { pn := false, pm := 1, la := 0 }
def ln (form : Form) (ty : Ty) (dst sa sb sc : BitVec 8) : Lane := { h := h0, form := form, ty := ty, dst := dst, sa := sa, sb := sb, sc := sc, keep := 0 }
def mm (ty : Ty) (dst sa : BitVec 8) (ak dk : Bool) (off : BitVec 24) : Mem := { h := h0, dst := dst, sa := sa, ak := ak, dk := dk, ty := ty, off := off }
def md : FMode := { rnd := .rne, ftz := false, daz := false }
def ph (op : BitVec 6) (pred : BitVec 3) (dst src : BitVec 8) (sub : BitVec 6) : PHalf := { op := op, pred := pred, dst := dst, src := src, sub := sub }
def refused (l : List Instr) : Bool := l.all (fun i => !i.wellFormed)

/-! ### Ill-formed terms (R37 to R52, R60) -/

theorem test_wf_scalar_field : refused [.iadd (ln .scal .n32 64 0 0 0), .iadd (ln .bcast .n32 0 0 64 0), .movi h0 64 false true 0] = true := by decide
theorem test_wf_even_pair : refused [.iadd (ln .vec .n64 3 4 6 0), .iadd (ln .vec .n64 2 5 6 0), .iadd (ln .vec .i64 2 4 7 0)] = true := by decide
theorem test_wf_mask_field : refused [.mand (ln .vec .n32 1 8 2 0), .mand (ln .vec .n32 1 2 8 0), .sel (ln .vec .n32 1 2 3 8)] = true := by decide
theorem test_wf_mask_destination : refused [.icmp .eq (ln .vec .n32 0 1 2 0), .iaddc (ln .vec .n32 1 2 3 0), .mnot (ln .vec .n32 0 1 0 0),
  .feqry h0 0 false 0 3] = true := by decide
theorem test_wf_type : refused [.iadd (ln .vec .f32 1 2 3 0), .fadd md (ln .vec .n32 1 2 3 0), .nhash (ln .vec .n32 2 4 6 0), .iabs (ln .vec .n32 1 2 0 0),
  .fdot2 md (ln .vec .f32 1 2 3 4), .shfl (ln .vec .i32 1 2 3 0), .lds (mm .f32 1 2 false false 0), .mcrd h0 .n32 1 0 0 0] = true := by decide
theorem test_wf_form : refused [.iaddc (ln .scal .n32 1 2 3 1), .sel (ln .scal .n32 1 2 3 1), .stov (ln .vec .n32 1 0 2 3), .mand (ln .bcast .n32 1 2 3 0),
  .vtos (ln .scal .n32 1 2 0 3)] = true := by decide
theorem test_wf_unused_field : refused [.iadd (ln .vec .n32 1 2 3 4), .mov (ln .vec .n32 1 2 3 0), .mov (ln .bcast .n32 1 2 3 0), .ats .add (ln .vec .n32 1 2 3 4),
  .redg .add (ln .vec .n32 1 2 3 0), .cvt .f16 .rne (ln .vec .f32 1 2 3 0)] = true := by decide
theorem test_wf_lookahead : refused [.iadd { ln .vec .n32 1 2 3 0 with h := { h0 with la := 1 } }, .publ { h0 with la := 2 },
  .sts { mm .n32 1 2 false false 0 with h := { h0 with la := 1 } }] = true := by decide
theorem test_wf_register_block : refused [.rcede { h0 with pm := 1 } 3, .rcede h0 0, .rtake h0 16 (.imm 1)] = true := by decide
theorem test_wf_condition : refused [.icmp .un (ln .vec .n32 1 2 3 0)] = true := by decide
theorem test_wf_rounding : refused [.fmin { md with rnd := .rtz } (ln .vec .f32 1 2 3 0), .exp2 { md with rnd := .rup } (ln .vec .f32 1 2 0 0),
  .fcmp .lt { md with ftz := true } (ln .vec .f32 1 2 3 0)] = true := by decide
theorem test_wf_conversion_pair : refused [.cvt .f32 .rne (ln .vec .f32 1 2 0 0), .cvt .q4 .rne (ln .vec .f32 1 2 0 0), .pack .f32 .rne (ln .vec .n32 1 2 3 0),
  .unpk .e4m3 .rne (ln .vec .f32 1 2 0 4), .qnt .f32 .rne (ln .vec .q4 1 2 0 0), .dqnt .f32 .rne (ln .vec .f32 1 2 3 0)] = true := by decide
theorem test_wf_reduction : refused [.redv .exch (ln .vec .n32 1 2 0 0), .redv .and (ln .vec .f32 1 2 0 0), .bcast (ln .vec .n32 1 2 0 64)] = true := by decide
theorem test_wf_special_register : refused [.srd h0 0 true .lane 1, .srd h0 0 false .cycles 1, .swr h0 0 true .retired 1] = true := by decide
theorem test_wf_memory_kind : refused [.lds (mm .n32 1 2 false true 0), .ldg false (mm .n32 1 3 false false 0), .pfg (mm .n32 1 2 true false 0)] = true := by decide
theorem test_wf_atomic : refused [.ats .or (ln .vec .f32 1 2 3 0), .cass (ln .vec .f32 1 2 3 4), .redg .exch (ln .vec .n32 0 2 3 0), .atg .add (ln .vec .n32 1 3 4 0)] = true := by decide
theorem test_wf_queue : refused [.qinit h0 0 1 0 1, .qinit h0 0 1 9 1, .qinit h0 0 1 2 5, .qpush h0 0 64 (.imm 1)] = true := by decide
theorem test_wf_point : refused [.rvinit h0 0 0, .rvinit h0 0xA0 1, .rvinit h0 24 1, .rvarr h0 0 1 false .block 0, .rvarr h0 0x20 1 false .block 1,
  .mbcast h0 0 0 1 2 3 0, .yieldc 24 0 (.imm 1)] = true := by decide
theorem test_wf_matrix : refused [.mqma h0 false 0 0 1 2 0 3, .mqma h0 false 0 0 1 64 0 0, .mcz h0 .f32 0 0 0, .mcz h0 .f32 0 10 7, .mcwr h0 .f32 false 1 0 16 0] = true := by decide
theorem test_wf_pairs : refused [.claim h0 1 2, .claim h0 2 3, .swgo h0 0 1 2 (.imm 1), .swgo h0 0 2 2 (.imm 0), .swait h0 1, .clwait h0 1 2 (.imm 1),
  .lrchk h0 .tile 1 2, .lrchk h0 .tile 64 4] = true := by decide
theorem test_wf_copy : refused [.cpy { h := h0, d := 1, b := 4, t := 2, pt := 255, lim := .imm 1 }, .cpy { h := h0, d := 2, b := 5, t := 2, pt := 255, lim := .imm 1 },
  .cpyx { h := h0, d := 2, b := 56, t := 2, pt := 255, lim := .imm 1 }, .cpyrIn { h := h0, d := 2, b := 4, t := 2, pt := 24, lim := .imm 1 },
  .cpyrOut { h := h0, d := 2, b := 4, t := 2, pt := 255, lim := .imm 0 }] = true := by decide
theorem test_wf_spill : refused [.spill h0 true 1 0, .fill h0 true 2 4095, .snbr h0 1 15 0, .brd false 0 0 0] = true := by decide
theorem test_wf_paired : refused [.pairedWord (ph 0 1 0 0 0) (ph 0 0 0 0 0), .pairedWord (ph 1 0 1 2 0x30) (ph 0 0 0 0 0), .pairedWord (ph 2 0 4 8 0) (ph 2 0 12 16 0),
  .pairedWord (ph 2 0 1 2 0) (ph 2 0 5 3 0)] = true := by decide

/-! ### Words that the spec writes out -/

def reads (l : List (BitVec 64 × Instr)) : Bool := l.all (fun p => decode p.1 == some p.2 && p.2.wellFormed)

/-- 03_encoding.md, 06_lanes.md. -/
theorem test_decode_lanes : reads [(0x2000040102030008, .ffma md (ln .vec .f32 4 1 2 3)), (0x2300020304000508, .fcmp .ge md (ln .vec .f32 2 3 4 0)),
  (0x2902050600000009, .exp2 md { ln .vec .f16 5 6 0 0 with h := { h0 with la := 2 } })] = true := by decide
/-- 04_numbers.md. -/
theorem test_decode_conversions : reads [(0x2B0014030400100A, .pack .f32 .rne (ln .vec .bf16 20 3 4 0)), (0x2E000C0A0B001A08, .dqnt .q4 .rne (ln .vec .f32 12 10 11 0)),
  (0x2D000A020040100D, .qnt .f32 .rne (ln .vec .q4 10 2 0 0x40))] = true := by decide
/-- 05_issue.md. -/
theorem test_decode_masks_and_sregs : reads [(0x3000030102000000, .mand (ln .vec .n32 3 1 2 0)), (0x3000070400001000, .mpop (ln .vec .n32 7 4 0 0)),
  (0x3100000000000000, .srd h0 0 false .lane 0), (0x3100140000130000, .srd h0 0 true .block 20), (0x3100000500170100, .swr h0 0 true .cycles 5)] = true := by decide
theorem test_decode_control : reads [(0x7300000000000000, .join), (0x7900000000000000, .ret), (0x7A00000000000000, .exit), (0x7200010000030008, .brd false 1 3 8),
  (0x750000FFFFF38000, .loopn 0 0xFFFFF3 (.tbl 0))] = true := by decide
/-- 07_registers.md, 08_scratchpad.md. -/
theorem test_decode_registers : reads [(0x4100000600000000, .rcede h0 6), (0x4200000600004E20, .rtake h0 6 (.imm 20000)), (0x69000C0000000005, .spill h0 false 12 5),
  (0x6A03140002000006, .fill { h0 with la := 3 } true 20 6)] = true := by decide
theorem test_decode_scratchpad : reads [(0x6002050204000040, .lds { mm .n16 5 2 false false 0x40 with h := { h0 with la := 2 } }), (0x6100030200000080, .sts (mm .n32 3 2 false false 0x80)),
  (0x3200050203000000, .ats .add (ln .vec .n32 5 2 3 0)), (0x3300060203040040, .cass (ln .bcast .n32 6 2 3 4)), (0x3400000700000400, .feclr h0 0 false 7),
  (0x3400020700000800, .feqry h0 0 false 2 7), (0x4300001202020000, .qinit h0 0 18 2 2), (0x4500140000001388, .qpop h0 20 0 (.imm 5000))] = true := by decide
/-- 09_device_memory.md. -/
theorem test_decode_device : reads [(0x6404080200000040, .ldg false { mm .n32 8 2 false false 0x40 with h := { h0 with la := 4 } }), (0x6400080490000000, .ldg true (mm .n32 8 4 true false 0)),
  (0x65000A0682000008, .stg (mm .n64 10 6 true false 8)), (0x66001407C2000000, .ldh (mm .n64 20 7 true true 0)), (0x6800000480001000, .pfg (mm .n32 0 4 true false 0x1000)),
  (0x3500060204000602, .atg .exch (ln .vec .n64 6 2 4 0)), (0x3700000205000000, .redg .add (ln .vec .n32 0 2 5 0))] = true := by decide
/-- 10_ordering.md, 11_rendezvous.md. -/
theorem test_decode_ordering : reads [(0x3800000000000400, .publ h0), (0x3800000000000F00, .fence true h0), (0x3800000000001000, .sysrel h0), (0x4600000000000001, .rvinit h0 0 1),
  (0x4700201400000101, .rvarr h0 0x20 20 false .cohort 1), (0x4700001480000001, .rvarr h0 0 20 true .block 1), (0x4900005400004E20, .rvwait h0 0 true 20 (.imm 20000)),
  (0x4B001514000186A0, .tlwait h0 21 false 20 (.imm 100000)), (0x4C00161400000000, .tlread h0 22 20)] = true := by decide
/-- 14_copy.md, 22_claims.md. -/
theorem test_decode_copies_and_claims : reads [(0x6D0018281E000004, .cpy { h := h0, d := 24, b := 40, t := 30, pt := 0, lim := .imm 4 }),
  (0x6F00982820FF0004, .cpyrOut { h := h0, d := 24, b := 40, t := 32, pt := 255, lim := .imm 4 }), (0x3D001F2800000180, .lrchk h0 .span 31 40),
  (0x3E00181400000080, .claim h0 24 20), (0x4D00181800007530, .clwait h0 24 24 (.imm 30000)), (0x51001E1400000000, .clinv h0 30 20)] = true := by decide
/-- 20_sweeps.md. -/
theorem test_decode_sweeps : reads [(0x5200581E00000004, .swgo h0 1 24 30 (.imm 4)), (0x5500000900000001, .swake h0 9 false 1), (0x5600060200000001, .sctxr h0 6 2 false 1),
  (0x5700080500000101, .sctxw h0 8 5 true 1), (0x5800080200000003, .snbr h0 8 2 3), (0x59000C0000000005, .swqry h0 12 1 1)] = true := by decide
/-- 15_matrix.md, 03_encoding.md (R48 to R50). -/
theorem test_decode_matrix_and_pairs : reads [(0x6B00001413000000, .mbld h0 0 0 20 19 0), (0x6C00191613240000, .mbcast h0 3 1 22 19 0x24 0), (0x3900000415000140, .mqma h0 false 0 0 4 21 0 1),
  (0x3A00070000030001, .mcrd h0 .i32 7 0 3 0), (0x3C00000010000008, .mcz h0 .f32 0 0 16), (0x8401014044048500, .pairedWord (ph 2 0 4 5 0) (ph 0x11 0 9 10 0))] = true := by decide

/-! ### A state and operands that meet the hypotheses of each statement -/

def id0 : WaveId := ⟨1, 0, 0⟩
/-- A launch of one wave, its path at the issue cursor. -/
def s0 : State := { State.reset.withFetchWord 64 0 with cur := (id0, false) }
def onW (f : Wave → Wave) : State := s0.modWave id0 f
def onB (f : Block → Block) : State := s0.modBlock 1 0 f
def onL (f : Launch → Launch) : State := s0.modLaunch 1 f
def onK (f : Kernel → Kernel) : State := onL (fun l => { l with offer := { l.offer with kernel := f l.offer.kernel } })
def meets (s : State) (p : Ctx → Bool) : Bool := s.issuer.any (fun c => p c && c.id == id0 && !c.slotB && c.b.place == .resident)
/-- The path at the cursor is held by `h`, its wait begun at count 0, under a limit. -/
def held (h : Hold) (limit : Nat) (s : State) : State :=
  s.modWave id0 (fun w => { w with a := w.a.map (fun sl => { sl with hold := h, limit := limit }) })
/-- Scalar registers of the wave. -/
def regs (l : List (Nat × DWord)) (s : State) : State := s.modWave id0 (fun w => { w with s := tputs0 w.s l })
where tputs0 (m : Tab DWord) : List (Nat × DWord) → Tab DWord
  | [] => m
  | x :: t => tset 0 (tputs0 m t) x.1 x.2

theorem test_hyp_IntegerWordsCompute : meets s0 (fun c => c.any h0 && !c.any hNone && c.lanes h0 == List.range 16 && c.lanes hNone == []) = true := by decide
theorem test_hyp_AddWithCarry : meets s0 (fun _ => (ln .vec .n32 4 4 8 1).form != .scal) = true := by decide
theorem test_hyp_BitFieldWords : meets (onW (fun w => w.writeV 2 0 0x2020)) (fun c => srcB c.w (ln .vec .i32 5 3 2 0) .i32 0 % 256 == 32) = true := by decide
theorem test_hyp_CompareAndSelect : meets s0 (fun _ => (ln .bcast .i32 1 0 1 2).form != .scal) = true := by decide
theorem test_hyp_MovesAndSpecialRegisters : meets s0 (fun c => c.lanes h0 != [] && c.lanes hNone == []) = true := by decide
theorem test_hyp_HashWord : meets s0 (fun _ => (ln .vec .n64 2 0 0 0).ty == .n64) = true := by decide
theorem test_hyp_FloatWords : meets s0 (fun c => c.lanes h0 != []) = true := by decide
theorem test_hyp_SlowFloatWords : meets s0 (fun c => c.any h0) = true := by decide
theorem test_hyp_ConversionWords : meets (onW (fun w => w.writeV 3 15 0x7F800001)) (fun c => c.any h0) = true := by decide
theorem test_hyp_CrossLaneAndMaskWords : meets (onW (fun w => { w with width := 64 })) (fun c => c.any h0) = true := by decide
/-- Two vector halves that differ by one register, and a vector half beside a scalar half of the same number. -/
theorem test_hyp_PairedHalves : meets s0 (fun _ => (ph 2 0 4 5 0).dst != (ph 2 0 5 5 0).dst && (ph 2 0 4 5 0x20).sub.getLsbD 5 != (ph 2 0 4 5 0).sub.getLsbD 5 &&
  (ph 0 0 0 0 0).op == 0) = true := by decide

def insideOf (size : Nat) (c : Ctx) (m : Mem) : Bool :=
  let ls : List Nat := if m.dk then (if c.any m.h then [0] else []) else c.lanes m.h
  let ad (l : Nat) : Int := (if m.ak then (c.w.readS m.sa.toNat).toInt else (c.w.readV m.sa.toNat l).toNat) + m.off.toInt
  ls != [] && ls.all (fun l => 0 ≤ ad l && ad l + m.ty.size ≤ size)
/-- The last four bytes of the allocation; one byte further is outside; no lane. -/
theorem test_hyp_ScratchpadMemoryWords : meets (onK (fun k => { k with diescratch := 4, det := true })) (fun c =>
  insideOf c.l.offer.kernel.scratch c (mm .n32 1 2 true true 1020) && !insideOf c.l.offer.kernel.scratch c (mm .n32 1 2 true true 1021) &&
  insideOf c.l.offer.kernel.diescratch c (mm .n32 1 2 true true 0) && c.det && findConflict c.l c.b c.id.block 1 ((List.range 4).map (fun i => dieLoc c i)) == none &&
  c.lanes hNone == []) = true := by decide
theorem test_hyp_ScratchpadAtomicWords : meets (regs [(2, 1020), (3, 1016)] s0) (fun c =>
  c.any h0 && (c.w.readS 2).toInt + 4 ≤ c.l.offer.kernel.scratch && (c.w.readS 2).toInt % 4 == 0 && 0 ≤ (c.w.readS 2).toInt &&
  (c.w.readS 3).toInt + 4 * 2 ^ (1#8).toNat ≤ c.l.offer.kernel.scratch && (c.w.readS 3).toInt % 4 == 0) = true := by decide
/-- An address one past the last that fits, one inside and not aligned; a device address of the last mapped byte, one beyond it, and
one of a range that lies beyond its tier. -/
theorem test_hyp_MemoryTraps : (meets (regs [(2, 1021), (3, 1019)] s0) (fun c => c.any h0 &&
    decide ((c.l.offer.kernel.scratch : Int) < (c.w.readS 2).toInt + 4) && (c.w.readS 3).toInt + 4 ≤ c.l.offer.kernel.scratch && (c.w.readS 3).toInt % 4 != 0) &&
  meets s0 (fun c => (firstBad (access s0 (c.mapping s0) 0x3FFFFFD 4 .load)) == some (cXLATE, aCALLER) &&
    firstBad (access s0 (c.mapping s0) 0x3FFFFFC 4 .atomic) == none && (locsOf (access s0 (c.mapping s0) 0x3FFFFFA 4 .atomic)).all (fun x => !absent x) &&
    (0x3FFFFFA#64).toNat % 4 != 0) &&
  (let s := s0.modPart 0 (fun p => { p with map := { p.map with ranges := [(0, { loadRange with w2 := 0x5A00000000 })] } })
   meets s (fun c => access s (c.mapping s) 0 1 .load == [.at_ (360 * 2 ^ 30)] && absent (360 * 2 ^ 30) && !absent (360 * 2 ^ 30 - 1)))) = true := by decide
/-- Lines and a queue outside the allocation, and inside and not aligned; a host address without a window. -/
theorem test_hyp_MemoryTrapsOfLinesAndHost : (meets (regs [(2, 1024), (3, 1022)] s0) (fun c =>
    decide ((c.l.offer.kernel.scratch : Int) < (c.w.readS 2).toInt + 1) && decide ((c.w.readS 3).toInt + 1 ≤ (c.l.offer.kernel.scratch : Int)) && (c.w.readS 3).toInt % 4 != 0 &&
    decide ((c.l.offer.kernel.scratch : Int) < (c.w.readS 2).toInt + 4 * 2 ^ (1#8).toNat)) &&
  meets (regs [(3, 1014)] s0) (fun c => decide ((c.w.readS 3).toInt + 4 * 2 ^ (1#8).toNat ≤ (c.l.offer.kernel.scratch : Int)) && (c.w.readS 3).toInt % 4 != 0) &&
  meets s0 (fun c => hostBad (hostAccess (c.mapping s0) false 0 4) == some cXLATE && c.lanes h0 != [])) = true := by decide

def sop (k : SpKind) (limit : Nat) : SpOp := { seq := 0, tag := 0, pc := 0, start := 0, since := 0, limit := limit, eff := 1, kind := k }
def spq (k : SpKind) (limit : Nat) (s : State) : State := s.modWave id0 (fun w => { w with spq := [sop k limit] })
def headIs (s : State) (k : SpKind) (p : Block → Bool) : Bool := (spHead s id0).any (fun x => x.2.2.kind == k && p x.2.1) && (s.launch 1).isSome
/-- The head of the queue is each kind of word; two lanes of a store overlap. -/
theorem test_hyp_ScratchpadPerforms : [SpKind.load false .n32 true 1 [(0, 1020)], .load true .n32 true 1 [(0, 0)], .lds .n32 true 1 [(0, 1020)] [7],
  .store false [(0, 0, [1, 2]), (1, 1, [3, 4])], .store true [(0, 62, [1, 2, 3]), (40, 0, [4])], .ats .add .n32 false 1 [(0, 1020, 5), (3, 1020, 6), (33, 4, 7)],
  .cass .n32 true 1 [(0, 0, 0, 7)], .feset [(0, 7)], .feclr [(0, 7), (32, 7)], .feqry true 1 [(0, 7)], .qinit 0 1016 2 1].all (fun k =>
    headIs (spq k 0 s0) k (fun b => (match k with | .lds _ _ _ _ lines => fillDone b (sop k 0) lines | _ => true) && ((k matches .qinit _ _ _ _) || plainParts k != []))) = true := by decide
/-- A store's bytes in two units of the first access and one of the second; a unit of the die scratchpad with an error, and one without. -/
theorem test_hyp_ScratchpadParts : (plainParts (.store true [(0, 62, [1, 2, 3]), (40, 0, [4])]) == [0, 1, 2 ^ 40] && s0.bad == [] &&
  (let s := { spq (.load true .n32 true 1 [(0, 0)]) 0 s0 with bad := [dieUnit 1 0 0] }
   plainParts (.load true .n32 true 1 [(0, 0)]) == [0] && headIs s (.load true .n32 true 1 [(0, 0)]) (fun b => b.core / 96 == 0) && s.bad.contains (dieUnit 1 0 3) &&
   !s.bad.contains (dieUnit 1 0 32))) = true := by decide
def q0 (count : Nat) : State := onB (fun b => { b with queues := [(0, { base := 0, cap := 2, allow := 1, count := count, tags := [0, 1].take count, out := [] })] })
/-- A queue with one place left and with none; a queue of one handle; a line full and a line empty at the limit, 0. -/
theorem test_hyp_ScratchpadWaits : (
  (let s := spq (.qpush 0 9) 0 (q0 1)
   headIs s (.qpush 0 9) (fun b => (tfind b.queues 0).any (fun y => decide (y.count < y.cap) && decide (tget 0 y.out 0 < y.allow)) && firstWaiter s id0 b 0 0 true)) &&
  (let s := spq (.qpop 0 3) 0 (q0 1)
   headIs s (.qpop 0 3) (fun b => (tfind b.queues 0).any (fun y => decide (0 < y.count)) && firstWaiter s id0 b 0 0 false)) &&
  headIs (spq (.lds .n32 true 1 [(0, 0)] [0]) 0 s0) (.lds .n32 true 1 [(0, 0)] [0]) (fun b => !b.fe.contains 0) &&
  headIs (spq (.lds .n32 true 1 [(0, 0)] [0]) 0 (onB (fun b => { b with fe := [0] }))) (.lds .n32 true 1 [(0, 0)] [0]) (fun b => b.fe.contains 0) &&
  (s0.wave id0).any (fun x => x.cyc 0 s0.tick == 0) &&
  (let s := spq (.qpop 0 3) 0 (q0 0)
   (spHead s id0).any (fun x => !queueMet s id0 x.1 x.2.1 x.2.2))) = true := by decide
/-- A load whose wait has completed and whose line is empty again, with a `FECLR` of the line behind it in the block; a `FECLR` alone. -/
theorem test_hyp_ClearsBehindLoad : (
  let two (k : SpKind) (met : Option Bool) : State := { spq (.feclr [(0, 0)]) 0 (onB (fun b => { b with fe := [0], nwaves := 2 })) with waves :=
    ((spq (.feclr [(0, 0)]) 0 s0).waves ++ [(wkey ⟨1, 0, 1⟩, { width := 16, a := none, spq := [{ sop k 0 with met := met }] })]) }
  let l : SpKind := .lds .n32 true 1 [(0, 0)] [0]
  headIs (two l (some true)) (.feclr [(0, 0)]) (fun _ => readsNow (two l (some true)) 1 0 [(0, 0)]) && (spHead (two l (some true)) ⟨1, 0, 1⟩).any (fun x => x.2.2.met == some true && x.2.1.fe == [0]) &&
  headIs (two l none) (.feclr [(0, 0)]) (fun _ => !readsNow (two l none) 1 0 [(0, 0)])) = true := by decide
/-- A wait's limit does pass. -/
theorem test_hyp_ScratchpadLimit : ∃ (s : State) (x : Wave) (b : Block) (op : SpOp), spHead s id0 = some (x, b, op) ∧ op.limit < x.cyc b.core s.tick - op.start ∧
    queueMet s id0 x b op = false ∧ ∃ q d, op.kind = .qpop q d :=
  have h : 1 ≤ cum 0 (Config.cyclePeriod 0 + 1) := by simpa using cum_reaches 0 1
  ⟨{ spq (.qpop 0 3) 0 (q0 0) with tick := Config.cyclePeriod 0 + 1 }, _, _, sop (.qpop 0 3) 0, rfl, by
    show 0 < 0 + (cum 0 (Config.cyclePeriod 0 + 1) - cum 0 0) - 0
    have z : cum 0 0 = 0 := rfl
    rw [z]; omega, by decide, 0, 3, rfl⟩

def lo0 (a n : Nat) : List Nat := (List.range n).map (fun i => a + i)
/-- The last mapped word of device memory, in a launch without and with the determinism flag; no lane. -/
theorem test_hyp_DeviceLoads : ([false, true].all (fun d => meets (onK (fun k => { k with det := d })) (fun c =>
  access s0 (c.mapping s0) 0x3FFFFFC 4 .load == (lo0 0x3FFFFFC 4).map Xl.at_ && (lo0 0x3FFFFFC 4).all (fun x => !absent x && !badUnit s0 x) && c.det == d &&
  findConflict c.l c.b c.id.block 0 (lo0 0x3FFFFFC 4) == none && c.lanes hNone == []))) = true := by decide
theorem test_hyp_DeviceStores : ([false, true].all (fun d => meets (onK (fun k => { k with det := d })) (fun c =>
  access s0 (c.mapping s0) 0x3FFFFFC 4 .store == (lo0 0x3FFFFFC 4).map Xl.at_ && c.det == d && findConflict c.l c.b c.id.block 1 (lo0 0x3FFFFFC 4) == none))) = true := by decide
theorem test_hyp_DeviceAtomics : ([false, true].all (fun d => meets (onK (fun k => { k with det := d })) (fun c =>
  access s0 (c.mapping s0) 0x3FFFFFC 4 .atomic == (lo0 0x3FFFFFC 4).map Xl.at_ && c.det == d && (0x3FFFFFC#64).toNat % Ty.n32.size == 0 && Ty.n32.size != 0 &&
  findConflict c.l c.b c.id.block (redKind .add .n32) (lo0 0x3FFFFFC 4) == none))) = true := by decide
/-- The last atomic of a range of another device, with a home read of the wave before it that it must follow, and with none. -/
theorem test_hyp_FarAtomics : ([false, true].all (fun waits =>
  let s := (onW (fun w => { w with barrier := 1, reqs := if waits then [{ seq := 0, tag := 0, lane := 0, pc := 0, addr := 0, kind := .home [0] [] .n32 true 1 }] else [] })).modPart 0
    (fun p => { p with map := { p.map with ranges := [(0, { loadRange with w0 := 0xDC00000000000000, w3 := 5 })] } })
  meets s (fun c => access s (c.mapping s) 0x3FFFFFC 4 .atomic == (lo0 0x3FFFFFC 4).map (Xl.remote 5) && (0x3FFFFFC#64).toNat % 4 == 0 && c.w.farWaits == waits && !c.det &&
    c.lanes h0 != [])) && meets (onK (fun k => { k with det := true })) (fun c => c.det && findConflict c.l c.b c.id.block (redKind .add .n32) [farKey 5 0x3FFFFFC] == none)) = true := by decide
/-- A window of 4 KiB of host memory, reads and writes allowed; its last word. -/
theorem test_hyp_HostWordsAndPrefetch : (
  let s := s0.modPart 0 (fun p => { p with map := { p.map with hwins := [(0, { base := 0, target := 0x1000, len := 1, perm := 7, rsv := 0 })] } })
  meets s (fun c => hostAccess (c.mapping s) false 0xFFC 4 == (lo0 0x1FFC 4).map Sum.inr && hostAccess (c.mapping s) true 0xFFC 4 == (lo0 0x1FFC 4).map Sum.inr &&
    (lo0 0x1FFC 4).Nodup && c.any h0)) = true := by decide
def touched (loc kind : Nat) : State := onL (fun l => { l with
  offer := { l.offer with kernel := { l.offer.kernel with det := true, diescratch := 4 } }, touches := [{ loc := loc, kind := kind, block := 1, phase := 0, pc := 8 }] })
/-- The last byte of the last mapped word, stored by another block: a load, a store and an addition conflict; the same in the die scratchpad. -/
theorem test_hyp_UnorderedTouches : (
  let s := touched 0x3FFFFFF 1
  let d := touched (2 ^ 43 + 3) 1
  let w := lo0 0x3FFFFFC 4
  meets s (fun c => c.det && c.lanes h0 != [] && access s (c.mapping s) 0x3FFFFFC 4 .load == w.map Xl.at_ && w.all (fun a => !absent a) &&
    [0, 1, redKind .add .n32].all (fun k => (findConflict c.l c.b c.id.block k w).any (fun f => f.1 == 0x3FFFFFF && f.2.pc == 8)) && w.idxOf 0x3FFFFFF == 3) &&
  meets d (fun c => dieLoc c 3 == 2 ^ 43 + 3 && (findConflict c.l c.b c.id.block 0 ((List.range 4).map (fun i => dieLoc c i))).isSome &&
    c.l.offer.kernel.diescratch == 4)) = true := by decide

def rq (tag lane : Nat) (k : ReqKind) : Req := { seq := 0, tag := tag, lane := lane, pc := 0, addr := 0, kind := k }
def withReqs (rs : List Req) : State := onW (fun w => { w with reqs := rs })
/-- A store, an atomic and a home read of 33 bytes, which two units hold, first of their wave, and the last byte of it. -/
theorem test_hyp_RequestsPerformed : ([ReqKind.stg [(0x20000, 1, 0)], .atom 0 [0x20000, 0x20001, 0x20002, 0x20003] .n32 true (some 1) 1 0,
    .home (lo0 0x2001F 4) [] .n32 true 1, .home [0x20020] [1, 2, 3] .n32 true 1].all (fun k =>
  let s := withReqs [rq 0 0 k]
  (s.wave id0).any (fun x => reqFree x 0 && x.reqs[0]? == some (rq 0 0 k)) && (s.block 1 0).isSome && (s.launch 1).isSome &&
  [0x20000, 0x2001F, 0x20020].all (fun a => !badUnit s a)) && unitsOf (lo0 0x2001F 4) == [[0x2001F], [0x20020, 0x20021, 0x20022]] &&
  s0.migrations == [] && s0.moved == [] && (withReqs [rq 0 0 (.stg [])]).waves.all (fun p => p.2.reqs.findIdx? isStg == some 0)) = true := by decide
/-- An atomic and a home read that meet a unit with an error; a stable load of the last mapped word and of one with a value in the view. -/
theorem test_hyp_RequestsThatFail : ([ReqKind.atom 0 [0x20000, 0x20001, 0x20002, 0x20003] .n32 true (some 1) 1 0, .home (lo0 0x2001F 4) [] .n32 true 1].all (fun k =>
  let s := { withReqs [rq 0 0 k] with bad := [0x1000] }
  (s.wave id0).any (fun x => reqFree x 0) && badUnit s 0x20000 && badUnit s 0x2001F) &&
  (let p : Pend := { tag := 0, kind := .dev, dst := [.s 1], writes := [], ready := false }
   let s := (withReqs [rq 0 0 (.stable (lo0 0x3FFFFFC 4) .n32 true 1)]).modWave id0 (fun w => { w with pend := [p] })
   (s.wave id0).any (fun x => reqFree x 0 && x.pend.find? (fun q => q.tag == 0) == some p && x.reqs.filter (fun r => r.tag == 0) != []) && !badUnit s 0x3FFFFFC &&
   (tget {} s.views 0).needs == [] && (s.block 1 0).any (fun b => b.place == .resident))) = true := by decide
/-- An atomic of a byte in a frame locked since it was translated; one to another device that has still to be sent, alone under its tag. -/
theorem test_hyp_LockedAndFarRequests : (
  (let s := { withReqs [rq 0 0 (.atom 0 (lo0 0x20000 4) .n32 true (some 1) 1 0)] with launches := s0.launches.map (fun l => (l.1, { l.2 with locked := [0x20] })) }
   lockedAt s 0x20000 && !lockedAt s 0x21000 && (s.wave id0).any (fun x => reqFree x 0)) &&
  (let s := withReqs [rq 0 0 (.far 5 0x100 0 .n32 true (some 1) 1 0)]
   (s.wave id0).any (fun x => reqFree x 0 && x.reqs == [rq 0 0 (.far 5 0x100 0 .n32 true (some 1) 1 0)]))) = true := by decide
/-- A complete result; a lane of an `LDH`, with another to come, the last, and the last behind one with an error. -/
theorem test_hyp_ResultsLand : (
  let p : Pend := { tag := 3, kind := .other, dst := [.s 1], writes := [.s 1 7], ready := true }
  (((onW (fun w => { w with pend := [p] })).wave id0).any (fun x => x.pend.find? (fun p => p.tag == 3 && p.ready) == some p && x.reqs == [])) &&
  [(1, []), (0, []), (0, [(5, 9)])].all (fun (x : Nat × List (Nat × BitVec 64)) =>
    let y : Pend := { tag := 0, kind := .host, dst := [.s 1], writes := [], ready := false, bad := x.2 }
    let q : Req := rq 0 7 (.ldh (lo0 0x1FFC 4) .n32 true 1)
    ((withReqs (q :: List.replicate x.1 (rq 0 8 (.ldh (lo0 0 4) .n32 true 1)))).modWave id0 (fun w => { w with pend := [y] })).wave id0 |>.any (fun w =>
      w.reqs[0]? == some q && w.pend.filter (fun p => p.tag == q.tag) == [y] && (lo0 0x1FFC 4).Nodup && (lo0 0x1FFC 4).length == Ty.n32.size &&
      (w.reqs.eraseIdx 0).any (fun z => z.tag == q.tag) == (x.1 == 1)))) = true := by decide
/-- With a home read of a step before under way, and with nothing; a store that the publication takes along. -/
theorem test_hyp_OrderingWords : (meets s0 (fun c => c.any h0 && !c.any hNone && viewClear c.w s0.tick) &&
  (let s := { withReqs [rq 0 0 (.home [0] [] .n32 true 1), rq 0 1 (.stg [(0x20000, 1, 0)])] with tick := 1 }
   meets s (fun c => c.any h0 && !viewClear c.w s.tick && c.w.reqs.any isStg))) = true := by decide
/-- A `REDG` of the wave that has been published and has not acted, here and at another device; and none. -/
theorem test_hyp_StagedRedgs : (
  let r : Redg := { id := id0, seq := 0, op := 0, locs := [0x20000], far := none, ty := .n32, b := 1, addr := 0, pc := 0, wave := 0 }
  let k : Nat := setKey { offer := loadOffer 1 } 0 1 0
  let p : Pub := { id := 5, serial := 1, key := k, core := 0, block := 0, wave := 0, pc := 0, set := { redgs := [r] }, claim := none }
  let f : FarRed := { id := id0, seq := 0, tag := 9, dev := 5, serial := 1, block := 0, wave := 0, core := 0, pc := 0, addr := 0 }
  let s : State := { s0 with tick := 1 }
  redgWaits { s with pubs := [p] } id0 k 1 && redgWaits { s with farReds := [f] } id0 k 1 && !redgWaits s id0 k 1 &&
  meets { s with pubs := [p] } (fun c => c.key == k && !c.clear { s with pubs := [p] } 1) && meets s (fun c => c.clear s 1)) = true := by decide

def pub0 (bytes : Tab SByte) : Pub := { id := 5, serial := 1, key := setKey { offer := loadOffer 1 } 0 1 0, core := 0, block := 0, wave := 0, pc := 0, set := { bytes := bytes, blocks := [0] }, claim := none }
/-- A fence with a load of its own step before it and one with nothing; a publication at the head of its key. -/
theorem test_hyp_FencesAndPublications : (
  meets (held (.fence false 1) 0 (withReqs [rq 0 0 (.stable [0] .n32 true 1)])) (fun c => c.sl.hold == .fence false 1 && c.w.reqs.any (fun r => decide (r.seq < 1))) &&
  meets (held (.fence true 0) 0 (withReqs [rq 0 0 (.stable [0] .n32 true 1)])) (fun c => c.sl.hold == .fence true 0 && c.w.reqs.all (fun r => decide (0 ≤ r.seq))) &&
  meets (held (.sysrel none) 0 s0) (fun c => c.sl.hold == .sysrel none && waitPub s0 none) &&
  (let s : State := { s0 with pubs := [pub0 [(0x20000, { val := 9, dva := 0 })]] }
   s.pubs.find? (fun q => q.id == 5) == some (pub0 [(0x20000, { val := 9, dva := 0 })]) && pubFirst s (pub0 [(0x20000, { val := 9, dva := 0 })]) && !badUnit s 0x20000 &&
   meets (held (.sysrel (some 5)) 0 s) (fun c => c.sl.hold == .sysrel (some 5) && !waitPub s (some 5))) &&
  [[], [rq 0 0 (.home [0] [] .n32 true 1)]].all (fun rs =>
    let s := (withReqs rs).modWave id0 (fun w => { w with a := w.a.map (fun sl => { sl with hold := .view, since := 1 }) })
    meets s (fun c => c.sl.hold == .view && viewClear c.w c.sl.since == rs.isEmpty))) = true := by decide
/-- A `CLAIM` answered READY whose view waits, for a load and for nothing; a publication with a `REDG` of its wave, and one of a `FULFIL`. -/
theorem test_hyp_ReadyViewsAndStagedPublications : (
  [[], [rq 0 0 (.home [0] [] .n32 true 1)]].all (fun rs =>
    let s := (withReqs rs).modWave id0 (fun w => { w with a := w.a.map (fun sl => { sl with hold := .ready 0 [], since := 1 }) })
    meets s (fun c => c.sl.hold == .ready 0 [] && c.clear s c.sl.since == rs.isEmpty)) &&
  (let r : Redg := { id := id0, seq := 0, op := 0, locs := lo0 0x20000 4, far := none, ty := .n32, b := 1, addr := 0, pc := 0, wave := 0 }
   [none, some (0, 1, (9 : BitVec 64))].all (fun y =>
     let p : Pub := { pub0 [(0x20000, { val := 9, dva := 0 })] with set := { bytes := [(0x20000, { val := 9, dva := 0 })], blocks := [0], redgs := [r] }, claim := y }
     let s : State := { s0 with pubs := [p] }
     s.pubs.find? (fun q => q.id == p.id) == some p && p.at_ == none && pubFirst s p && s.migrations == [] && s.moved == [] && p.claim == y &&
     p.set.redgs.all (fun r => r.far == none && r.locs.Nodup && r.locs.length == r.ty.size && r.locs.all (fun a => !badUnit s a && !lockedAt s a))))) = true := by decide
/-- A byte that the view of the key holds, of a launch without and with the determinism flag; one in a frame that has been locked since. -/
theorem test_hyp_PublicationInView : ([0, 1].all (fun odd =>
  let p := { pub0 [(0x20000, { val := 9, dva := 0 })] with key := (pub0 []).key + odd }
  let s : State := { s0 with pubs := [p], views := [(p.key, { seen := [(0x20000, 7)], needs := [5] })] }
  let t : State := { s with launches := s.launches.map (fun l => (l.1, { l.2 with locked := [0x20] })) }
  lockedAt t 0x20000 && !lockedAt s 0x20000 && p.set.bytes.all (fun b => b.2.copy == none) && (t.launch p.serial).isSome && p.key % 2 == odd && p.at_ == none && p.claim == none && p.set.redgs == [] && s.migrations == [] && s.pubs.find? (fun q => q.id == 5) == some p &&
  (tfind s.views p.key).any (fun v => (tfind v.seen 0x20000).isSome && v.needs.contains 5))) = true := by decide

def pt0 : PointRef := { serial := 1, block := 0, cohort := none, n := 0 }
def onPt (f : Point → Point) (s : State) : State := setPoint s pt0 (f (getPoint s pt0))
/-- A point of the block and one of a team that it lacks; a byte count at the largest that fits and one more. -/
theorem test_hyp_PointWords : (meets (regs [(1, 2 ^ 39 - 1), (2, 2 ^ 39)] s0) (fun c => c.any h0 && pointOf c.l c.id 0 == some pt0 && pointOf c.l c.id 0x20 == none &&
    decide ((c.w.readS 1).toNat < 2 ^ 39) && decide ((getPoint s0 pt0).pend + (c.w.readS 1).toNat < 2 ^ 39) && decide (2 ^ 39 ≤ (c.w.readS 2).toNat)) &&
  (getPoint s0 pt0).err == 0) = true := by decide
def arr0 (rlx published : Bool) (n : Nat) : Arr :=
  { seq := 0, tag := 0, pc := 0, p := pt0, n := n, dst := 1, rlx := rlx, scope := .block, published := published, pub := none, watchIx := 0, clock := [] }
/-- An arrival of one at a point that awaits one, relaxed, before and after its publication step; and at a point that awaits none. -/
theorem test_hyp_Arrivals : ([arr0 true false 1, arr0 false false 1, arr0 false true 1].all (fun a =>
    let s := onPt (fun p => { p with exp := 1, arr := 1 }) (onW (fun w => { w with arrs := [a] }))
    meets s (fun c => c.w.arrs[0]? == some a && a.p.serial == c.id.serial && a.p.block == c.id.block && a.n ≤ (getPoint s pt0).arr.toNat &&
      (a.rlx || (!a.published && relClear c.w a.seq) || (a.published && waitPub s a.pub)))) &&
  (let s := onPt (fun p => { p with exp := 1, arr := 0 }) (onW (fun w => { w with arrs := [arr0 true false 1] }))
   meets s (fun c => c.w.arrs[0]? == some (arr0 true false 1) && decide ((getPoint s pt0).arr.toNat < 1))) &&
  (let a := { arr0 false true 1 with scope := .system }
   let s := onPt (fun p => { p with exp := 1, arr := 1 }) (onW (fun w => { w with arrs := [a] }))
   meets s (fun c => c.w.arrs[0]? == some a && a.scope == .system && waitPub s a.pub)) &&
  (let a := { arr0 false false 1 with scope := .device }
   let s := onW (fun w => { w with arrs := [a] })
   meets { s with sets := [(setKey { offer := loadOffer 1 } 0 1 0, { bytes := [(0, { val := 1, dva := 0 })] })] } (fun c =>
     c.w.arrs[0]? == some a && relClear c.w a.seq && a.scope != .block && c.key == setKey { offer := loadOffer 1 } 0 1 0))) = true := by decide
/-- A release at block scope behind a published `REDG` of its wave that has not acted. -/
theorem test_hyp_ArrivalBehindRedg : (
  let r : Redg := { id := id0, seq := 0, op := 0, locs := [0x20000], far := none, ty := .n32, b := 1, addr := 0, pc := 0, wave := 0 }
  let a := { arr0 false false 1 with seq := 1 }
  let s : State := { onW (fun w => { w with arrs := [a] }) with pubs := [{ pub0 [] with set := { redgs := [r] } }] }
  meets s (fun c => c.w.arrs[0]? == some a && relClear c.w a.seq && redgWaits s c.id c.key a.seq && a.scope == .block)) = true := by decide
/-- A phase that is over, one that is open, and a point with an error: at the word and in a wait whose limit, 0, is just reached. -/
theorem test_hyp_PointWaits : (
  [(false, 0), (true, 0), (false, 2)].all (fun x =>
    let s := onPt (fun p => { p with ph := x.1, err := x.2 }) s0
    meets s (fun c => c.any h0 && pointOf c.l c.id 0 == some pt0 && !(c.w.readS 1).getLsbD 0 && c.w.arrs == [] && (getPoint s pt0).ph == x.1 && (getPoint s pt0).err == x.2 &&
      tget false c.w.watch (watchIx pt0) == false) &&
    [Hold.rvwait pt0 false true, .rvwait pt0 false false, .yieldc pt0 8].all (fun h =>
      let t := held h 0 s
      meets t (fun c => c.sl.hold == h && c.w.cyc c.b.core t.tick - c.sl.start ≤ c.sl.limit && (getPoint t pt0).ph == x.1 && (getPoint t pt0).err == x.2)))) = true := by decide
/-- A phase that ended within the limit and has begun anew since, seen by the wait; an acquiring wait with a home read under way. -/
theorem test_hyp_WaitsThatHaveSeen : (
  let s := (withReqs [rq 0 0 (.home [0] [] .n32 true 1)]).modWave id0 (fun w => { w with a := w.a.map (fun sl =>
    { sl with hold := .rvwait pt0 false false, since := 1, met := some true, seen := some { getPoint s0 pt0 with ph := true } }) })
  meets s (fun c => c.sl.hold == .rvwait pt0 false false && (c.sl.seen.getD (getPoint s pt0)).ph != false && (getPoint s pt0).ph == false && !viewClear c.w c.sl.since &&
    c.sl.met == some true)) = true := by decide

def fr0 : FailRec := { num := 1, code := 1, serial := 1, pc := 0, value := 0 }
def tlOf (timeline : Nat) (failed : List FailRec) (s : State) : State :=
  s.modCopy 3 (fun x => { x with timeline := timeline, failed := failed })
/-- A handle of the launch and one that it lacks; a timeline at the number, one below it, and one with a failure at the number; a limit
just reached. -/
theorem test_hyp_TimelineWaitsAndLimits : (
  [(1, []), (0, []), (1, [fr0])].all (fun x =>
    let s := regs [(2, 1), (3, 3), (4, 4)] (tlOf x.1 x.2 (onL (fun l => { l with ctxOf := [(0, 3)] })))
    meets s (fun c => c.any h0 && handleIn c.l (c.w.readS 3) == some (false, 3) && handleIn c.l (c.w.readS 4) == none && (c.w.readS 2).toNat == 1 &&
      timelineOf s false 3 == x.1 && (failsOf s false 3).filter (fun r => r.serial == c.id.serial && r.num ≤ 1) == x.2) &&
    [Hold.tlwait false 3 1 true, .tlwait false 3 1 false].all (fun h =>
      meets (held h 0 s) (fun c => c.sl.hold == h && c.w.cyc c.b.core s.tick - c.sl.start ≤ c.sl.limit && c.sl.start + c.sl.limit ≤ c.w.cyc c.b.core s.tick))) &&
  [Hold.rvwait pt0 false true, .clwait 1 1, .yieldc pt0 0].all (fun h =>
    meets (held h 0 s0) (fun c => c.sl.hold == h && c.sl.start + c.sl.limit ≤ c.w.cyc c.b.core s0.tick))) = true := by decide

/-- No result is due in the top block, and one is; a pool of exactly one block, and an empty one; a wave that waits at the head of the
queue, and one behind another. -/
theorem test_hyp_RegisterBlocks : (
  let late : Pend := { tag := 0, kind := .other, dst := [.v 240], writes := [], ready := false }
  let pool (n : Nat) (q : List (Nat × Bool)) : State := onB (fun b => { b with pools := [(0, n)], takers := [(0, q)] })
  meets s0 (fun c => c.w.pend == [] && decide (16 * (c.w.allot - 1) ≤ 240 ∧ 240 < 16 * c.w.allot) && decide (tget 0 c.b.pools 0 < 1)) &&
  meets (onW (fun w => { w with pend := [late] })) (fun c => c.w.pend == [late]) &&
  meets (pool 1 []) (fun c => tget [] c.b.takers 0 == [] && 1 ≤ tget 0 c.b.pools 0) &&
  meets (pool 1 [(4, false)]) (fun c => tget [] c.b.takers 0 != [] && (tget [] c.b.takers 0).head? != some (c.id.wave, c.slotB)) &&
  [(1, [(0, false)]), (0, [(0, false)]), (1, [(4, false), (0, false)])].all (fun x =>
    meets (held (.rtake 1) 0 (pool x.1 x.2)) (fun c => c.sl.hold == .rtake 1 && tget [] c.b.takers 0 == x.2 && tget 0 c.b.pools 0 == x.1 &&
      c.sl.start + c.sl.limit ≤ c.w.cyc c.b.core s0.tick)) &&
  meets (held (.rcede 1) 0 s0) (fun c => c.sl.hold == .rcede 1)) = true := by decide
theorem test_hyp_SpillAndFill : (meets s0 (fun c => c.lanes h0 != [] && c.lanes hNone == [] && s0.bad == []) &&
  (let s := { s0 with bad := [spillUnit id0 0] }
   meets s (fun c => (c.lanes h0).any (fun l => s.bad.contains (spillUnit c.id (4 * l)))))) = true := by decide

/-- An entry of the set of the all-zero name. -/
def e0 : Nat := 4 * claimSet 0 0
def onCl (k : Claim) (s : State) : State := s.setClaim e0 k
def full4 (k : Claim) (s : State) : State := (List.range 4).foldl (fun s i => s.setClaim (e0 + i) k) s
def other : Claim := { fid := 1, st := .ready }
set_option maxRecDepth 4000 in
/-- A READY entry of the name, a MAKING one with a queue of 254 and of 255, a free way, none free with the hand's way READY and unpinned or
pinned; a launch that may make one entry more and one that may make none. -/
theorem test_hyp_ClaimWord : (
  let one := onL (fun l => { l with offer := { l.offer with claims := 1 } })
  meets (onCl { st := .ready } one) (fun c => c.any h0 && claimMatch (onCl { st := .ready } one) c.l.offer.part 0 0 (claimSet 0 0) == some e0 && !poolFull (onCl { st := .ready } one) e0) &&
  [254, 255].all (fun n => let s := onCl { st := .making, queue := List.replicate n ⟨2, 0, 0⟩ } one
    claimMatch s 0 0 0 (claimSet 0 0) == some e0 && (s.claim e0).queue.length == n && !poolFull s e0) &&
  meets one (fun c => claimMatch one 0 0 0 (claimSet 0 0) == none && decide (c.l.creations < c.l.offer.claims) && (setEntries (claimSet 0 0)).find? (fun e => (one.claim e).st == .free) == some e0) &&
  meets s0 (fun c => decide (c.l.offer.claims ≤ c.l.creations)) &&
  [other, { other with pins := [2] }].all (fun k => let s := full4 k one
    claimMatch s 0 0 0 (claimSet 0 0) == none && (setEntries (claimSet 0 0)).all (fun e => s.claim e == k) && tget 0 s.hands (claimSet 0 0) == 0)) = true := by decide
def tk0 : BitVec 32 := 1
/-- A place that became a pin, a duty that passed to the wave, a place still queued, no place: at the word and at the wait. -/
theorem test_hyp_ClaimWaits : (
  [({ gen := 1, st := .ready, served := [id0] }, true, false), ({ gen := 1, st := .making, maker := id0, handed := true }, false, true),
   ({ gen := 1, st := .making, queue := [id0] }, false, false), ({ gen := 2, st := .ready, served := [id0] }, false, false)].all (fun (x : Claim × Bool × Bool) =>
    let s := held (.clwait 2 tk0) 0 (regs [(4, 1)] (s0.setClaim 0 x.1))
    meets s (fun c => c.any h0 && ticketEntry tk0 == 0 && (c.w.readS 4).extractLsb' 0 32 == tk0 && c.sl.hold == .clwait 2 tk0 && s.claim 0 == x.1 &&
      c.w.cyc c.b.core s.tick - c.sl.start ≤ c.sl.limit &&
      (x.1.gen == ticketGen tk0 && (x.1.st == .ready || x.1.st == .stale) && x.1.served.contains c.id) == x.2.1 &&
      (x.1.gen == ticketGen tk0 && x.1.st == .making && x.1.maker == c.id && x.1.handed) == x.2.2))) = true := by decide
/-- An answer that came in time of an entry that is gone, READY with nothing under way and with a load, and the maker's. -/
theorem test_hyp_ClaimAnswered : ([(true, []), (true, [rq 0 0 (.home [0] [] .n32 true 1)]), (false, [])].all (fun (x : Bool × List Req) =>
  let a : ClAns := { word := 7, handle := 9, ready := x.1, relPt := 0, clk := [] }
  let s := (withReqs x.2).modWave id0 (fun w => { w with a := w.a.map (fun sl => { sl with hold := .clwait 2 tk0, since := 1, ans := some a }) })
  meets s (fun c => c.sl.hold == .clwait 2 tk0 && c.sl.ans == some a && c.clear s c.sl.since == x.2.isEmpty && (s.claim 0).gen != ticketGen tk0))) = true := by decide
/-- A READY entry asked for with a load of the wave under way, and with none. -/
theorem test_hyp_ReadyClaim : ([[], [rq 0 0 (.home [0] [] .n32 true 1)]].all (fun rs => let s := { withReqs rs with tick := 1 }
  meets s (fun c => c.clear s s.tick == rs.isEmpty))) = true := by decide
theorem test_hyp_ClaimEvents : (
  let k : Claim := { gen := 1, st := .making, fulfilling := true }
  let p : Pub := { pub0 [] with claim := some (0, 1, 9), at_ := some 3 }
  let s : State := { s0.setClaim 0 k with pubs := [p] }
  fulfilPub s 0 == some (p, 0, 1, 9, 3) && s.claim 0 == k && fulfilPub s0 0 == none && (s0.claim 0).st == .free) = true := by decide
/-- A place that became a pin while a load of the wave is under way. -/
theorem test_hyp_ClaimWaitBehindLoad : (
  let s := { withReqs [rq 0 0 (.stable [0] .n32 true 2)] with claims := [(0, { gen := 1, st := .ready, served := [id0] })] }
  (s.claim 0).served.contains id0 && (s.wave id0).any (fun w => !viewClear w 1)) = true := by decide
set_option maxRecDepth 4000 in
/-- The maker's own ticket with a handle of 49 bits and one too wide, a ticket of another generation, a pinned entry with its last pin. -/
theorem test_hyp_ClaimDuties : (
  let mk : Claim := { gen := 1, st := .making, maker := id0 }
  let pin : Claim := { gen := 1, st := .stale, pins := [1] }
  let s := regs [(4, 1), (5, 2 ^ 49 - 1), (6, 2 ^ 49)] (s0.setClaim 0 mk)
  let t := regs [(4, 1)] (s0.setClaim 0 pin)
  meets s (fun c => c.any h0 && tsorted s.claims && (s.claim 0).gen == ticketGen ((c.w.readS 4).extractLsb' 0 32) && ticketEntry ((c.w.readS 4).extractLsb' 0 32) == 0 &&
    (s.claim 0).maker == c.id && (c.w.readS 5).extractLsb' 49 15 == 0 && (c.w.readS 6).extractLsb' 49 15 != 0 && ticketGen 2 != (s.claim 0).gen) &&
  meets t (fun c => tsorted t.claims && (t.claim 0).pins.contains c.id.serial && (t.claim 0).pins.erase c.id.serial == [])) = true := by decide

def sl0 (pc : BitVec 32) (mask : Mask) (join : Option (BitVec 32)) (parked : Bool) : Slot := { path := { pc := pc, mask := mask, join := join, parked := parked } }
/-- Lanes that agree, that agree the other way, and that part; a path at its join address with the other path parked there, still
running there, and with none. -/
theorem test_hyp_BranchesAndJoins : (
  [0xFFFF, 0, 1].all (fun x => meets (onW (fun w => w.writeM 1 (allLanes 16) x)) (fun c => c.w.readM 1 &&& c.sl.path.mask == x)) &&
  [none, some (sl0 0 2 (some 0) true), some (sl0 0 2 (some 0) false), some (sl0 0 2 none false)].all (fun b =>
    meets (onW (fun w => { w with a := some (sl0 0 1 (some 0) false), b := b, stack := [.rejoin none 3] })) (fun c =>
      c.sl.path.join == some c.sl.path.pc && c.w.slot (!c.slotB) == b && c.w.stack == [.rejoin none 3]))) = true := by decide
/-- The trip that is the last allowed and the one before; a depth that is used up and one that is not; the last entry of a table and one
beyond it; a frame of a call on top, and none. -/
theorem test_hyp_LoopsAndCalls : (
  meets s0 (fun c => decide (limVal c.l (.imm 1 : Lim 15) ≤ ((c.w.readL 0).trips + 1).toNat) && decide (((c.w.readL 0).trips + 1).toNat < limVal c.l (.imm 2 : Lim 15)) && c.w.stack == []) &&
  meets (regs [(1, 1)] (onK (fun k => { k with recurse := [(8, 2)], tables := [[0, 8]] }))) (fun c => c.w.actOf 8 != depthOf c.l 8 &&
    (c.l.offer.kernel.tables.getD 0 [])[1]? == some 8 && (c.l.offer.kernel.tables.getD 1 []).length ≤ (c.w.readS 1).toNat) &&
  meets ((onK (fun k => { k with recurse := [(8, 1)] })).modWave id0 (fun w => { w with act := [(8, 1)] })) (fun c => c.w.actOf 8 == depthOf c.l 8) &&
  meets (onW (fun w => { w with stack := [.call 8 none (List.replicate 8 {}) 8] })) (fun c => c.w.stack == [.call 8 none (List.replicate 8 {}) 8])) = true := by decide
/-- A path with another beside it, one whose frames lie above a saved path, and the last of its wave; a word that is not one, and one that
is. -/
theorem test_hyp_EndsFramesAndFetch : (
  let p : Path := { pc := 8, mask := 1, join := none, parked := false }
  meets s0 (fun c => c.w.slot (!c.slotB) == none && !c.w.retiredWave && c.w.sweep == none && c.w.stack == []) &&
  meets (onW (fun w => { w with b := some (sl0 0 2 none false) })) (fun c => (c.w.slot (!c.slotB)).isSome && !c.w.retiredWave) &&
  meets (onW (fun w => { w with stack := [.rejoin none 1, .path p] })) (fun c => c.w.stack == [Frame.rejoin none 1] ++ .path p :: []) &&
  meets (onW (fun w => { w with stack := [.path p] })) (fun c => c.w.b == none && c.w.stack == [.path p]) &&
  meets (held .frame 0 s0) (fun c => c.sl.hold == .frame) && meets (onW (fun w => { w with a := w.a.map (fun sl => { sl with retry := true }) })) (fun c => c.sl.retry) &&
  decode 0 == none && (decode 0x7300000000000000).isSome) = true := by decide

/-! ### Hypotheses of the engines' statements -/

def mxState : State := (onK (fun k => { k with scratch := 4096 })).modBSlot 0 0 (fun x => { x with tag := some (.i8, 16) })
/-- Slot 0 is of the wave's row and slot 1 is not; the panel that just fits; descriptors and format blocks the unit has and lacks; group 1 of
a 16-row view, the last. -/
theorem test_hyp_MatrixWordsWait : (
  meets mxState (fun c => c.any h0 && !c.any hNone && c.id.wave % 4 == (0#3).toNat % 4 && c.id.wave % 4 != (1#3).toNat % 4 && c.l.offer.kernel.scratch == 4096 &&
    descOf 7 == some (.i8, 16, 0) && descOf 0 == none && fmtBlock 0x177 == some { a := .i8, b := .i8, c := .i32, abl := 16, asc := 0 } && fmtBlock 0 == none &&
    Ty.i8.bits == 4 * 2 ^ (1#2).toNat && (mxState.bslot 0 0).comingTag == some .i8 && decide (8 * (1#2).toNat + 7 < viewRows .i32) &&
    ((c.lanes h0).filter (fun l => l / 8 == (1#3).toNat)) == [8, 9, 10, 11, 12, 13, 14, 15] && ((c.lanes h0).filter (fun l => l / 8 == (7#3).toNat)) == [] &&
    (c.lanes h0).all (fun l => (c.w.readV 0 l).toNat % 128 == 0 && (c.w.readV 0 l).toNat + rowBytes .i8 ≤ 4096)) &&
  meets (onK (fun k => { k with cohorts := [{ entry := 3, aff := true, ranges := [(0, 0)] }] })) (fun c =>
    (cohortOf c.l.offer.kernel c.id.block (0x20#8 >>> 5).toNat).any (fun x => x.aff && x.entry == 3))) = true := by decide
/-- The scales of a `.Q4` panel that just fit and that are one byte beyond; a team without affinity; a pass whose width, group or slot tag does not
fit; a row that is not aligned, and one that leaves the allocation. -/
theorem test_hyp_MatrixTraps : (
  let q4 (sc : Nat) : BitVec 64 := BitVec.ofNat 64 (Ty.q4.code.toNat + sc * 2 ^ 32)
  descOf (q4 3584) == some (.q4, 16, 3584) && descOf (q4 3585) == some (.q4, 16, 3585) && 3584 + 32 * (256 / 16) == 4096 && decide (4096 < 3585 + 32 * (256 / 16)) &&
  meets (onK (fun k => { k with cohorts := [{ entry := 3, aff := false, ranges := [(0, 0)] }] })) (fun c =>
    (cohortOf c.l.offer.kernel c.id.block (0x20#8 >>> 5).toNat).any (fun x => !x.aff)) &&
  decide (Ty.i8.bits ≠ 4 * 2 ^ (0#2).toNat) && decide (¬ 8 * (2#2).toNat + 7 < viewRows .i32) && (s0.bslot 0 0).comingTag == none &&
  meets (mxState.modWave id0 (fun w => (w.writeV 1 9 64).writeV 2 10 (4096 - 128))) (fun c =>
    let row := (c.lanes h0).filter (fun l => l / 8 == (1#3).toNat)
    row.filter (fun l => (c.w.readV 1 l).toNat % 128 != 0) == [9] && row.filter (fun l => (c.w.readV 2 l).toNat % 128 != 0) == [] &&
      row.filter (fun l => decide (c.l.offer.kernel.scratch < (c.w.readV 2 l).toNat + rowBytes .i8)) == [10])) = true := by decide
def mxq (q : List MxOp) : State := s0.modBSlot 0 0 (fun x => { x with q := q })
def mop (k : MxKind) : MxOp := { id := 0, w := id0, tag := 0, kind := k }
theorem test_hyp_AccumulatorWords : (meets s0 (fun c => c.any h0 && c.id.wave % 4 == (4#3).toNat % 4 && (s0.bslot 0 4).q == []) &&
  [MxKind.mbld 0 .i8 16 none, .mqma 0 0x177 none false].all (fun k => meets (mxq [mop k]) (fun c => ((mxq [mop k]).bslot c.b.core 0).q == [mop k]))) = true := by decide
set_option maxRecDepth 4000 in
/-- One word of each kind ready on the slot; a broadcast of one member, and of two members that differ. -/
theorem test_hyp_MatrixUnitSteps : (
  let row : List (Nat × List Byte × List Byte) := [(7, List.replicate 256 1, [])]
  [MxKind.mbld 7 .i8 16 (some ([1], [])), .mqma 1 0x177 (some row) false, .mqma 1 0x177 (some row) true].all (fun k => (mxq [mop k]).bslot 0 0 == { q := [mop k] }) &&
  (fmtBlock 0x177).isSome &&
  (let b (block panel : Nat) : Bcast := { entry := 0, num := 0, block := block, wave := 0, seq := 0, core := block, b := 0, p := panel, desc := 7, pt := 0, pc := 0, data := ([], []), err := 0, value := 0 }
   let of (n : Nat) (xs : List Bcast) : Launch := { offer := { loadOffer 1 with nblock := n, kernel := { loadKernel with cohorts := [{ entry := 0, aff := true, ranges := [(0, n - 1)] }] } }, bcastSent := xs }
   bcastReady (of 1 [b 0 7]) 0 == some [b 0 7] && bcastReady (of 2 [b 0 0, b 1 1]) 0 == some [b 0 0, b 1 1] && descOf 7 == some (.i8, 16, 0) &&
   (let s := onL (fun _ => of 1 [b 0 7])
    let p : PointRef := { serial := 1, block := 0, cohort := some 0, n := 0 }
    (s.launch 1).any (fun l => bcastReady l 0 == some [b 0 7]) && (getPoint s p).err == 0 && decide (-(2 : Int) ^ 39 + 4096 ≤ (getPoint s p).pend)))) = true := by decide
set_option maxRecDepth 4000 in
/-- A pass of the first and the last row; a broadcast whose source carries each error, on slots where nothing waits. -/
theorem test_hyp_MatrixRowsAndErrors : (
  let rows : List (Nat × List Byte × List Byte) := [(0, List.replicate 256 1, []), (7, List.replicate 256 2, [])]
  (mxq [mop (.mqma 1 0x177 (some rows) true)]).bslot 0 0 == { q := [mop (.mqma 1 0x177 (some rows) true)] } && (rows.map (fun r => r.1)).Nodup && (fmtBlock 0x177).isSome &&
  [3, 4, 5].all (fun e =>
    let b : Bcast := { entry := 0, num := 0, block := 0, wave := 0, seq := 0, core := 0, b := 0, p := 7, desc := 7, pt := 0, pc := 0, data := ([], []), err := e, value := 0 }
    let l : Launch := { offer := { loadOffer 1 with kernel := { loadKernel with cohorts := [{ entry := 0, aff := true, ranges := [(0, 0)] }] } }, bcastSent := [b] }
    let s := onL (fun _ => l)
    bcastReady l 0 == some [b] && bcastFree s 1 b && (getPoint s { serial := 1, block := 0, cohort := some 0, n := 0 }).err == 0 && b.err != 0)) = true := by decide
/-- The head of a queue is a matrix word with its last part to read, or a broadcast word that fails its checks. -/
theorem test_hyp_MatrixParts : (
  let st (k : SpKind) (left : List Nat) : State := (mxq [mop (.mbld 0 .i8 16 none)]).modWave id0 (fun w => { w with spq := [{ sop k 0 with left := some left }] })
  [SpKind.mbld 0 0 0 0 .i8 16 0, .mqma 0 0 [(7, 768)] 256 0 0].all (fun k => headIs (st k [15]) k (fun b => mbldFirst (st k [15]) b.core 0 0)) &&
  [(0, 0#64), (64, 7)].all (fun (x : Int × BitVec 64) => headIs (st (.mbcast 0 0 0 x.1 x.2 0) []) (.mbcast 0 0 0 x.1 x.2 0) (fun _ => x.1 % 128 != 0 || descOf x.2 == none)) &&
  headIs (st (.mbcast 0 0 0 0 7 0) [63]) (.mbcast 0 0 0 0 7 0) (fun _ => descOf 7 == some (.i8, 16, 0) && (0 : Int) % 128 == 0) &&
  ((onK (fun k => { k with scratch := 4096 })).launch 1).any (fun l => decide (0 + 4096 ≤ l.offer.kernel.scratch))) = true := by decide
/-- A broadcast word whose panel begins below the allocation, ends beyond it, or whose scales end beyond it. -/
theorem test_hyp_BroadcastBounds : (
  let st (k : SpKind) : State := ((onK (fun k => { k with scratch := 4096 })).modBSlot 0 0 (fun x => { x with q := [] })).modWave id0 (fun w => { w with spq := [{ sop k 0 with left := some [] }] })
  let d : BitVec 64 := BitVec.ofNat 64 (Ty.q4.code.toNat + 3585 * 2 ^ 32)
  [(-128, 7#64), (128, 7), (0, d)].all (fun (x : Int × BitVec 64) => headIs (st (.mbcast 0 0 0 x.1 x.2 0)) (.mbcast 0 0 0 x.1 x.2 0) (fun _ =>
    (descOf x.2).any (fun y => x.1 % 128 == 0 && (decide (x.1 < 0) || decide (4096 < x.1 + 4096) || decide (4096 < y.2.2 + panelScales y.1 y.2.1)))))) = true := by decide

/-- A tensor of one column of 17 rows on context 0, its record at the top of the allocation's first half. -/
def acc0 : Accord := { c := 0, ty := .n32, order := 0, rows := 17, cols := 1, skew := 0, base := 0, fill := 0, nbr := [(-1, 0)], resume := [0] }
def accK (s : State) : State := s.modLaunch 1 (fun l => { l with offer := { l.offer with kernel := { l.offer.kernel with accords := [acc0] } } })
def inTensor (lanes : List (Nat × Nat)) (s : State) : State := s.modWave id0 (fun w => { w with sweep := some { ctx := 0, run := 1, wave := 0, lanes := lanes } })
/-- The last element's record; a sweep wave whose mask all leaves and one where a lane stays. -/
theorem test_hyp_SweepWords : (
  meets (regs [(1, 256)] (accK s0)) (fun c => c.any h0 && accordOf c.l.offer.kernel 0 == some acc0 && (c.w.readS 1).toInt % 16 == 0 &&
    (c.w.readS 1).toInt + 16 ≤ c.l.offer.kernel.scratch && decide ((c.w.readS 1).toNat < acc0.off acc0.count) && (acc0.elemAt 16).isSome &&
    !malformedCx c.l c.id acc0 0) &&
  meets (inTensor [(0, 16)] (accK s0)) (fun c => (c.tensor).any (fun t => t.1 == acc0 && tfind t.2.lanes 0 == some 16) && (c.sl.path.mask &&& ~~~ (c.eff h0)) == 0 &&
    !malformedCx c.l c.id acc0 (c.w.readV64 6 0).toNat && cxState (c.w.readV64 6 0).toNat != 255) &&
  meets (inTensor [(0, 16)] (accK (onW (fun w => w.writeM 1 1 1)))) (fun c => (c.sl.path.mask &&& ~~~ (c.eff hNone)) != 0 && c.any hNone) &&
  [SpKind.sctxr true 1 0 [(0, 16)], .sctxw 0 [(0, 16, 0x0050000000000000)], .swake 0 [(0, 16)], .swctx [(0, 16, none)], .snbr 1 false 1 [(0, some 15), (1, none)]].all (fun k =>
    let s := inTensor [(0, 16)] (accK (spq k 0 s0))
    headIs s k (fun _ => (match k with | .sctxr _ _ _ _ => sweepParts acc0 k != [] | .snbr _ _ _ _ => sweepParts acc0 k != [] | _ => true)) && (s.wave id0).any (fun w => sweepTensor w loadKernel (sop k 0) == none &&
      (s.launch 1).any (fun l => sweepTensor w l.offer.kernel (sop k 0) == some acc0)))) = true := by decide

def run0 (limit : Nat) : Run := { num := 1, seq := 0, w := id0, pc := 0, arg := 0, limit := limit }
def cur0 (limit : Nat) (chunk : Nat) (clear : List Nat) (groups : List (Nat × List (Nat × Nat))) : CurRun :=
  { run := run0 limit, sweep := 0, chunk := chunk, clear := clear, groups := groups, evaluated := true, sweepTick := 0, waveOn := false, relPt := 0 }
def swSt (x : SweepCtx) : State := (accK s0).modSweep 0 (fun _ => x)
/-- A run at the head of an idle context; the last chunk of the tensor next; a group to form a wave from; a sweep over with a bit clear at
the repeat limit, and with none clear. -/
theorem test_hyp_SweepRuns : (
  let ok (x : SweepCtx) (limit : Nat) : Bool := (runPlace (swSt x) 0 (run0 limit)).any (fun p => p.2.2 == acc0) && runQuiet (swSt x) 0 (run0 limit) false && runTurn (swSt x) 0 (run0 limit) loadBlock false
  ok { runs := [run0 1] } 1 && ok { cur := some (cur0 1 0 [16] []) } 1 && decide (0 + 1 < acc0.chunks 16) && decide (1 * 16 ≤ 16 ∧ 16 < 1 * 16 + 16) &&
  cxState (ctxNat (swSt {}) 1 0 acc0 16) != 255 && cxWait (ctxNat (swSt {}) 1 0 acc0 16) == 0 &&
  ok { cur := some (cur0 1 1 [16] [(0, [(0, 16)])]) } 1 && (freeIndex (swSt { cur := some (cur0 1 1 [16] [(0, [(0, 16)])]) }) id0 0).isSome &&
  ok { cur := some (cur0 1 1 [16] []) } 1 && (cur0 1 1 [16] []).sweepOver (acc0.chunks 16) && decide (1 ≤ 0 + 1) && (cur0 1 1 [] []).sweepOver (acc0.chunks 16)) = true := by decide
/-- The last element's context asks for nothing, waits for its neighbour, for a phase, an entry, a timeline, a wake; it is malformed; its
point has failed; its handle is none of the launch. -/
theorem test_hyp_ChunkEvaluation : (
  let at_ (v : Nat) : State := (swSt { cur := some (cur0 1 0 [16] []) }).modBlock 1 0 (fun b => { b with scratch := tputs 0 b.scratch (16 * 16 + 8) (leBytes v 8) })
  let cx (w arg priv : Nat) : Nat := w * 2 ^ 52 + arg * 2 ^ 32 + priv
  [cx 0 0 0, cx 1 1 0, cx 2 0 0, cx 3 0 0, cx 4 3072 0, cx 5 0 0].all (fun v => ctxNat (at_ v) 1 0 acc0 16 == v && cxState v == 0) &&
  ((at_ 0).launch 1).any (fun l => [cx 0 0 0, cx 1 1 0, cx 2 0 0, cx 3 0 0, cx 4 3072 0, cx 5 0 0].all (fun v => !malformedCx l id0 acc0 v) &&
    malformedCx l id0 acc0 (cx 0 1 0) && handleIn l (BitVec.ofNat 64 (bits (cxArg (cx 4 3072 0)) 11 10 * 2 ^ 30 + bits (cxArg (cx 4 3072 0)) 9 0)) == none &&
    pointOf l id0 (cxPoint (cx 2 0 0)) == some pt0) &&
  (getPoint (onPt (fun p => { p with err := 2 }) (at_ 0)) pt0).err == 2) = true := by decide
/-- A context of STATE 255 as `SWEND` leaves it, and one with a WAITK that is none; a run whose wave has a store under way, and none. -/
theorem test_hyp_RetiredAndWritten : (
  ((swSt {}).launch 1).any (fun l => let x := 255 * 2 ^ 56 + 3 * 2 ^ 32
    malformedCx l id0 acc0 x && cxState x == 255 && cxWait x == 0 && malformedCx l id0 acc0 (255 * 2 ^ 56 + 6 * 2 ^ 52)) &&
  [[], [rq 0 0 (.stg [(0, 1, 0)])]].all (fun rs =>
    let s := { swSt { cur := some (cur0 1 1 [] []) } with waves := [(wkey id0, { width := 16, a := none, reqs := rs, sweep := some { ctx := 0, run := 1, wave := 0, lanes := [] } })] }
    runWritten s 0 (run0 1) == rs.isEmpty && runQuiet s 0 (run0 1) false && s.pubs == [])) = true := by decide
/-- A second sweep starts once 1,024 core cycles have passed; they do pass. -/
theorem test_hyp_SweepStart : ∃ s : State, ∃ r : CurRun, (s.sweepCtx 0).cur = some r ∧ (runPlace s 0 r.run).isSome = true ∧ r.clear ≠ [] ∧
    r.sweep + 1 < r.run.limit ∧ r.sweepOver (acc0.chunks 16) = true ∧ cum 0 r.sweepTick + 1024 ≤ cum 0 s.tick :=
  ⟨{ swSt { cur := some (cur0 2 1 [16] []) } with tick := 1024 * (Config.cyclePeriod 0 + 1) }, cur0 2 1 [16] [], rfl, by decide, by decide, by decide, by decide, by
    have h := cum_reaches 0 1024
    have z : cum 0 (cur0 2 1 [16] []).sweepTick = 0 := rfl
    rw [z]; omega⟩

def rec0 (org : Nat) : List (Nat × DWord) := [(4, 0x20000), (5, 0x66), (6, 2 ^ 40), (10, 1), (11, BitVec.ofNat 64 org)]
def ws0 (org : Nat) : List DWord := [0x20000, 0x66, 2 ^ 40, 0, 0, 0, 1, BitVec.ofNat 64 org, 0, 0, 0, 0]
/-- A record of one byte and one of none; a point, none, and one of a team that the block lacks; no touch under the flag. -/
theorem test_hyp_CopyWords : (
  let s := regs (rec0 0) (onK (fun k => { k with det := true }))
  meets s (fun c => c.any h0 && (recOf ((List.range 12).map (fun i => c.w.readS (4 + i)))).any (fun r => r.tileBytes == 1) &&
    recOf ((List.range 12).map (fun i => c.w.readS (16 + i))) == none && pointOf c.l c.id 0 == some pt0 && pointOf c.l c.id 0x20 == none && c.det &&
    c.l.touches == [])) = true := by decide
/-- A byte of the record touched by another block's store. -/
theorem test_hyp_CopyConflict : (
  let s := regs (rec0 0) (touched 0x20000 1)
  meets s (fun c => c.any h0 && c.det && (let t := copyTouches s (c.mapping s) 0 (ws0 0) 0
    (findConflict c.l c.b c.id.block 0 (t.1.map (fun x => x.1))).any (fun f => f.1 == 0x20000 && (tfind t.1 f.1).isSome)))) = true := by decide
def cop (started failed : Bool) (next counted : Nat) (pt : Option PointRef) (org : Nat) : CopyOp :=
  { num := 1, serial := 1, block := 0, core := 0, wave := 0, pc := 0, kind := 0, rcd := ws0 org, tile := 0, limit := 128, pt := pt, started := started,
    next := next, counted := counted, failed := failed }
def copSt (o : CopyOp) : State := s0.modCopy 0 (fun x => { x with ops := [o] })
/-- An operation to start, one that fails its checks, one with its only element in range and one out of range, one whose last piece is to
count down, one to finish; a command at the head of its wave. -/
theorem test_hyp_CopyEngine : (
  (copyCheck (copSt (cop false false 0 0 none 0)) (cop false false 0 0 none 0) matches .inr _) && (copyCheck (copSt (cop false false 0 0 none 0)) { cop false false 0 0 none 0 with rcd := [] } matches .inl _) &&
  [0, 0xFFFFFFFF].all (fun org => let o := cop true false 0 0 none org
    nextCtx (copSt o) 0 == some 0 && (recOf o.rcd).any (fun r => r.count == 1 && r.fty.size == 1 && elemOf (copSt o) ((copSt o).part 0).map [] r 0 .load ==
      (if org == 0 then .at_ 0x20000 [.at_ 0x20000] else .out)) && ((copSt o).block 1 0).isSome && !badUnit (copSt o) 0x20000) &&
  (let o := cop true false 1 0 (some pt0) 0
   (recOf o.rcd).any (fun r => o.next == r.tileBytes && decide (o.counted < o.next)) && (getPoint (copSt o) pt0).err == 0 && decide (-(2 : Int) ^ 39 + 128 ≤ (getPoint (copSt o) pt0).pend) &&
   (recOf o.rcd).any (fun r => (cop true false 1 0 none 0).next == r.tileBytes)) &&
  (let cmd : Cmd := { seq := 0, tag := 0, pc := 0, ctx := 0, kind := 0, d := 2, rcd := ws0 0, tile := 0, limit := 128, pt := none, pubs := [] }
   ((onW (fun w => { w with cmds := [cmd] })).wave id0).any (fun w => w.cmds == [cmd] && w.spq == []))) = true := by decide
/-- An element of which the copy has written every byte, one of which it has written one, and one of none. -/
theorem test_hyp_CopyOwnBytes : [([(2, 5), (3, 6)], true), ([(3, 6)], false), ([], false)].all (fun (x : Tab Byte × Bool) =>
  ([2, 3] : List Nat).all (fun q => (tfind ({ cop true false 0 0 none 0 with old := x.1 } : CopyOp).old q).isSome) == x.2) = true := by decide
/-- Turns into and out of the tile; a unit buffered that the operation still adds to, and that it does not; an answer awaited. -/
theorem test_hyp_CopyTurns : ([0, 1, 2, 3].all (fun k =>
  let o := { cop true false 0 0 none 0 with kind := k }
  let b := { o with next := 1, buf := [(0, 0x20000, 9, 0x20000)] }
  nextCtx (copSt o) 0 == some 0 && nextCtx (copSt b) 0 == some 0 &&
  (recOf o.rcd).any (fun r => r.fty.size == 1 && r.tty.size == 1 && r.count == 1 && headUnit o == none && o.rem == [] &&
    elemOf (copSt o) ((copSt o).part 0).map [] r 0 (if k % 2 == 0 then .load else .store) == .at_ 0x20000 [.at_ 0x20000] &&
    (k < 2 || access (copSt o) ((copSt o).part 0).map 0 1 (if k == 2 then .store else .load) == [.at_ 0]) &&
    headUnit b == some 0x1000 && !grows (copSt b) ((copSt b).part 0).map b r 0x1000 && !badUnit (copSt b) 0x20000) &&
  ({ o with rem := [{ tag := 1, dev := 2, addr := 3, len := 4, got := none }] } : CopyOp).rem.any (fun q => q.got == none)) &&
  (let b := { cop true false 0 0 none 0 with kind := 1, buf := [(0, 0x20001, 9, 0x20001)] }
   (recOf b.rcd).any (fun r => grows (copSt b) ((copSt b).part 0).map b r 0x1000))) = true := by decide
/-- A unit whose frame has been locked since, the place that a locked page moves to among them; an answer awaited with nothing to write. -/
theorem test_hyp_CopyLockedAndWaiting : (
  let o := { cop true false 1 0 none 0 with kind := 3, buf := [(0, 0x20000, 9, 0x20000)] }
  let lock (fs : List Nat) : State := { copSt o with launches := (copSt o).launches.map (fun l => (l.1, { l.2 with locked := fs })) }
  let g : Migration := { old := 7, new_ := 2, done := [], part := 16, hot := false }
  headUnit o == some 0x1000 && lockedAt (lock [0x20]) (32 * 0x1000) && !lockedAt (lock [0x21]) (32 * 0x1000) && lockedAt { lock [0x70] with migrations := [g] } (32 * 0x1000) &&
  (let w : CopyOp := { cop true false 0 0 none 0 with kind := 2, rem := [{ tag := 1, dev := 2, addr := 3, len := 4, got := none }] }
   w.rem.any (fun q => q.got == none) && headUnit w == none && nextCtx (copSt w) 0 == some 0)) = true := by decide

/-! ### Hypotheses of the statements about the host, the schedule and the board -/

def onP (f : Part → Part) (s : State) : State := s.modPart 0 f
def bell (inReset : Bool) (cmd arg0 arg1 : Nat) : Bell := { win := 3, bytes := leBytes cmd 8 ++ leBytes arg0 8 ++ leBytes arg1 8 ++ List.replicate 40 0, inReset := inReset }
set_option maxRecDepth 8000 in
/-- A doorbell of each kind, one of no kind, one rung during a reset; an offer at the balance and one joule above; a ring with one slot left
and a full one. -/
theorem test_hyp_HostRequests : (
  (bell false 1 0 0).does == 1 && (bell false 2 7 0).does == 2 && (bell false 3 7 0).does == 3 && (bell false 4 0 0).does == 5 && (bell true 1 0 0).inReset &&
  [8, 9].all (fun e => let s := onP (fun q => { q with bells := [bell false 2 7 0], offers := [{ loadOffer 7 with ebound := e }], balance := 8 }) State.reset
    ((s.part 0).bells.head?.any (fun b => b.win == 3 && b.arg0 == 7 && b.arg1 == s.gen)) &&
    ((s.part 0).offers.find? (fun x => x.serial == 7)).any (fun o => o.gen == s.gen && o.part == 0 && decide ((o.ebound : Int) ≤ (s.part 0).balance) == (e == 8))) &&
  [(1, 0), (2, 0)].all (fun (h : BitVec 32 × BitVec 32) => let s := onP (fun q => { q with ringslots := 2, head := h.1, tail := h.2, held := [{ kind := 1, bytes := [], tag := 0, vec := 0 }] }) State.reset
    (s.part 0).held.length == 1 && (decide ((s.part 0).head - (s.part 0).tail = (s.part 0).ringslots) == (h.1 == 2)))) = true := by decide
/-- A partition of one core to itself, with a request for a kernel of one word: its descriptor, its kernel record, its image. -/
def asks (nblock code : Nat) (word : BitVec 64) : State :=
  { State.reset with
    mem := [(0x100, leBytes 0x400 8 ++ leBytes 8 4 ++ leBytes nblock 4 ++ [1, 1]), (0x118, leBytes 1 4), (0x120, leBytes 0x200 8 ++ leBytes 64 4),
      (0x200, leBytes code 4 ++ [16, 1]), (0x400, bytesOfWord word)].foldl (fun m x => tputs 0 m x.1 x.2) [],
    parts := [(0, { ctrl := 1, clusters := 1, map := { ranges := [(0, loadRange)] } })],
    feats := [(1, 0), (2, 0), (3, 0), (4, 0), (5, 0)] }
/-- The reason of a refusal, or 100 more than the serial of an offer. -/
def reply (s : State) (addr : BitVec 64) : Nat := match nose s 0 7 0 addr with | .offered o => 100 + o.serial | .refused r _ => r
set_option maxRecDepth 20000 in
/-- A descriptor that is not aligned, one without a block, a record without code, code beyond its image, a word that is none. -/
theorem test_hyp_QuotationsRefused : ([(reply (asks 1 1 0) 0x101, rREQUEST), (reply (asks 0 1 0) 0x100, rREQUEST), (reply (asks 1 0 0) 0x100, rREQUEST), (reply (asks 1 2 0) 0x100, rSIZE),
  (reply (asks 1 1 0) 0x100, rILLEGAL)].all (fun x => x.1 == x.2)) = true := by decide
set_option maxRecDepth 20000 in
/-- `EXIT` alone, on the one open core. -/
theorem test_hyp_QuotationOffered : reply (asks 1 1 0x7A00000000000000) 0x100 = 107 := by decide
set_option maxRecDepth 8000 in
/-- TAIL at HEAD and one beyond it; registers of a partition in use and of one that is not; a value a register takes and one it refuses; a
change that is an addition and one that is not. -/
theorem test_hyp_HostRegisters : (
  let q := State.reset.part 0
  let live (s : State) : Bool := s.launches.any (fun p => p.2.offer.part == 0)
  decide ((q.head - 0).toNat ≤ (q.head - q.tail).toNat) && decide ((q.head - q.tail).toNat < (q.head - 1).toNat) && q.head == q.tail && live s0 && !live State.reset &&
  (configured State.reset 0 0 8).isNone && (configured State.reset 0 0 1).isSome && (configured State.reset 0 8 0xFFFFFFFF).any (fun x => x.clusters != q.clusters) &&
  q.staged.ok && !(onP (fun q => { q with staged := { ptroot := 1 } }) State.reset |>.part 0).staged.ok && decide (q.balance + 2 ^ 62 ≤ 2 ^ 62) &&
  decide ((2 : Int) ^ 62 < (1 : Int) + 2 ^ 62) && decide (7 < 0 + 8 ∧ 0 + 8 ≤ 64)) = true := by decide
set_option maxRecDepth 100000 in
/-- A commit that adds nothing and one that takes a range away; a page-table byte held back. -/
theorem test_hyp_Commits : (
  let q := State.reset.part 0
  isAddition State.reset 0 q.map q.next && !isAddition s0 0 (s0.part 0).map (s0.part 0).next && (s0.part 0).staged.ok && !q.breaking &&
  ({ q with map := { q.map with held := [(0, 1)] } } : Part).breaking) = true := by decide
/-- The last 32 bytes of a range, the first byte beyond it, a range without permissions. -/
theorem test_hyp_ResetsAndHostAccess : (tsorted s0.claims &&
  translate s0 (s0.part 0).map 0x3FFFFE0 .store == .at_ 0x3FFFFE0 && !absent 0x3FFFFE0 && !lockedAt s0 0x3FFFFE0 && !badUnit s0 0x3FFFFE0 &&
  translate s0 (s0.part 0).map 0x4000000 .load == .bad cXLATE aCALLER &&
  (let m : Mapping := { ranges := [(0, { loadRange with w0 := 0x8000000000000000 })] }
   translate s0 m 0 .load == .bad cPROT aCALLER) && decide (0x3FFFFE0 % 32 + 32 ≤ 32)) = true := by decide
/-- A reset with a record of a launch to write, and with none but a quotation. -/
theorem test_hyp_ResetDone : [(2, true), (3, true), (1, false)].all (fun (x : Nat × Bool) =>
  let s := onP (fun q => { q with resetting := true, held := [{ kind := x.1, bytes := [], tag := 0, vec := vNONE }] }) State.reset
  (s.part 0).resetting && (s.part 0).held.any (fun r => r.kind == 2 || r.kind == 3) == x.2) = true := by decide
/-- A byte of the root table of the one partition that is configured, and a byte that no table holds. -/
theorem test_hyp_TableWrites : (anyTable s0 (s0.part 0).map [8] 4 0 && (s0.parts.map (fun x => x.1)) == [0] && (s0.part 0).map.ptroot == 0 && (s0.part 0).map.held == []) = true := by decide

/-- A launch of several blocks on cores 0, 1 and 96, none of them started. -/
def la0 (f : Launch → Launch) (g : Offer → Offer) : State :=
  { s0 with blocks := [], waves := [],
            launches := [(1, f { offer := g { loadOffer 1 with cores := [0, 1, 96], rounds := 4, r := 2, nblock := 4 }, st := .running })] }
def hasL (s : State) (p : Launch → Bool) : Bool := (s.launch 1).any p
def co2 : List Cohort := [{ entry := 0, aff := false, ranges := [(0, 1)] }]
def withCo (o : Offer) : Offer := { o with kernel := { o.kernel with cohorts := co2 } }
def saved (core : Nat) : Block := { core := core, place := .saved, startDie := 0, nwaves := 0 }
theorem test_hyp_Placement : (
  (let s := la0 (fun l => { l with own0 := [.range 0 3] }) id
   hasL s (fun l => l.own 0 == [.range 0 3] && l.live && roomToStart s 1 0 l && turnAllows s 1 l 0 && lostBelow s 1 l 0 == none && noneSavedBelow s 1 [(0, 0)] && affinityOk l.offer [(0, 0)])) &&
  (let s := la0 (fun l => { l with own0 := [.group [0, 1]] }) withCo
   hasL s (fun l => l.own 0 == [.group [0, 1]] && l.live && lostBelow s 1 l 0 == none && turnAllows s 1 l 1 && noneSavedBelow s 1 [(0, 0), (1, 1)] && affinityOk l.offer [(0, 0), (1, 1)]) && (startAll 1 [(0, 0), (1, 1)] s).isSome)) = true := by decide
theorem test_hyp_Stealing : (
  hasL (la0 id id) (fun l => l.own 1 == [] && l.live && l.stealAsk == none && !l.stealWait.contains 1 && dieOf 96 == 1 && canTakeOne (la0 id id) 1 l 96) &&
  hasL (la0 (fun l => { l with own0 := [.range 2 3], stealAsk := some 1 }) id) (fun l => l.stealAsk == some (1 - 0) && l.own 0 == [.range 2 3])) = true := by decide
theorem test_hyp_Resuming : (
  (let s := { la0 id id with blocks := [(bkey 1 3, saved 0)] }
   hasL s (fun l => (s.block 1 3).any (fun b => b.place == .saved && groupCohorts l.offer.kernel 3 == [] && l.live && resumeOrder s 1 3 l b && lostBelow s 1 l 3 == none &&
     (List.range 192).find? (fun c => turnAllows s 1 l c && placeFor s l 3 b c && roomOn s 1 l c) == some 0))) &&
  (let s := { la0 id withCo with blocks := [(bkey 1 0, saved 0), (bkey 1 1, saved 1)] }
   hasL s (fun l => savedOf s 1 0 l.offer.kernel == [0, 1] && (s.block 1 0).any (fun b => resumeOrder s 1 0 l b) && lostBelow s 1 l 0 == none &&
     (resumePlan s 1 l 0 (turnAllows s 1 l)).any (fun r => r.map (fun p => p.1) == [0, 1])))) = true := by decide
/-- A quantum just spent with another launch's block waiting and with none, and one that lacks a cycle; a block to save with and without
stores. -/
theorem test_hyp_Preemption : (
  let two (quantum : Nat) (own : List Item) : State :=
    { s0 with turns := [(0, (1, 0))],
              launches := [(1, { offer := { loadOffer 1 with klass := 1, k := 1, quantum := quantum, r := 2 }, st := .running, own0 := own }),
                           (2, { offer := { loadOffer 2 with klass := 1 }, own0 := own })] }
  hasL (two 0 [.range 0 0]) (fun l => l.offer.klass == 1 && decide (l.offer.quantum ≤ cum 0 0 - cum 0 0)) &&
  (sharers (two 0 [.range 0 0]) 0).any (fun p => p.1 == 2 && hasReady (two 0 [.range 0 0]) 2 p.2 0) && (sharers (two 0 []) 0).all (fun p => !hasReady (two 0 []) p.1 p.2 0) &&
  hasL (two 1 [.range 0 0]) (fun l => decide (cum 0 0 - cum 0 0 < l.offer.quantum) && hasReady (two 1 [.range 0 0]) 1 l 0) &&
  (let s := onB (fun b => { b with draining := true })
   hasL s (fun l => groupOf l.offer.kernel 0 == [0] && (s.block 1 0).any (fun b => b.draining && b.place == .resident && blockSettled s 1 0 b &&
     (tget {} s.sets (setKey l b.core 1 0)).bytes == [] && pubsOf s (setKey l b.core 1 0) == []) && residentOf s 1 0 l.offer.kernel != [] &&
     (blocksOf s 1).all (fun x => x.2.place != .saved && x.2.place != .lost) && s.farReds == [] && [0, 1].all (fun d => (l.own d).all (fun it => 0 ≤ it.low))))) = true := by decide
/-- A block that waits above a saved one; a launch whose features no core has, and the launch once they are back. -/
theorem test_hyp_SwapAndSuspension : (
  let wt : Wave := { width := 16, a := some { path := { pc := 0, mask := 1, join := none, parked := false }, hold := .rvwait pt0 false true } }
  (let s := { la0 id (fun o => { o with klass := 2, r := 1, cores := [0] }) with blocks := [(bkey 1 0, saved 0), (bkey 1 1, { loadBlock with nwaves := 1 })], waves := [(wkey ⟨1, 1, 0⟩, wt)], turns := [(0, (1, 0))] }
   hasL s (fun l => l.live && l.offer.klass != 0 && groupOf l.offer.kernel 1 == [1] && placeFor s l 0 (saved 0) 0 && wantsRoom s 1 l 0 &&
     savedOf s 1 0 l.offer.kernel == [0] && (s.block 1 1).any (fun w => inWait s 1 1 w && w.place == .resident && !w.draining) &&
     (blocksOf s 1).all (fun x => decide (x.1 ≤ 1)))) &&
  (let s := { la0 (fun l => { l with own0 := [.range 0 0] }) id with feats := [(0, 0), (1, 0), (96, 0)] }
   hasL s (fun l => l.st != .suspended && l.traps == [] && stuck s 1 l)) &&
  hasL (la0 (fun l => { l with st := .suspended }) id) (fun l => l.st == .suspended && !stuck (la0 id id) 1 l)) = true := by decide
theorem test_hyp_RetirementAndFaults : (
  (let s := onW (fun w => { w with retiredWave := true, a := none })
   (s.block 1 0).any (fun b => b.place == .resident) && (wavesOf s 1 0).all (fun x => x.2.retiredWave && x.2.quiet) && copiesDone s 1 0 (fun _ => true) && runsDone s 1 0 && matrixDone s 1 0) &&
  [([], true), ([{ fr0 with code := 1 }], false)].all (fun (x : List FailRec × Bool) => let s := (tlOf 1 x.1 (la0 (fun l => { l with done := 4 }) id))
    hasL s (fun l => decide (l.offer.nblock ≤ l.done) && l.traps == [] && s.pubs == [] && s.farReds == [] && (unseenFails s 1 == []) == x.2 &&
      decide (energyUsed s 1 l ≤ l.offer.ebound + energyUsed s 1 l))) &&
  hasL (la0 (fun l => { l with done := 3 }) id) (fun l => decide (l.done < l.offer.nblock)) &&
  !s0.lostQuads.contains 7 && (s0.block 1 0).any (fun b => quadOf b.core == 0) &&
  (let s := { la0 id id with blocks := [(bkey 1 2, { saved 0 with place := .lost })] }
   hasL s (fun l => (s.block 1 2).any (fun b => b.place == .lost && b.relaunchable && l.live && (List.range 192).find? (fun c => canRelaunch s 1 l 2 b c && turnAllows s 1 l c) == some 0 &&
     groupOf l.offer.kernel 2 == [2])))) = true := by decide

def onC (k : Cluster) : State := { State.reset with clusters := [(0, k)] }
/-- The lowest and the highest frequency and one beyond each; a ramp's last step with and without a request behind it; a pair of clusters out
of balance and in balance. -/
theorem test_hyp_ClocksAndBlender : (decide (12 ≤ 12 ∧ 25 ≤ 25 ∧ 11 < 12 ∧ 25 < 26) && (State.reset.cluster 31).pending == none && (State.reset.cluster 31).target == none &&
  [none, some 12].all (fun p => ((onC { target := some 13, pending := p }).cluster 0).target == some 13 && ((onC { target := some 13, pending := p }).cluster 0).freq + 1 == 13) &&
  ((onC { target := some 14 }).cluster 0).freq + 1 != 14 &&
  (let up (mv : Nat) (g : Nat) : Bool := let k := (onC { freq := 12, mv := mv, target := some g }).cluster 0; k.target == some g && decide (k.freq < g) && decide (k.mv < 550 + 10 * 13) == (mv == 670)
   up 670 13 && up 680 13 && up 680 14) &&
  (let down (mv g : Nat) : Bool := let k := (onC { freq := 14, mv := mv, target := some g }).cluster 0; k.target == some g && decide (g ≤ k.freq) && decide (550 + 10 * 14 < k.mv) == (mv != 690)
   down 690 13 && down 700 13 && down 690 14 && down 700 14 && down 710 14) &&
  [(10, 8), (10, 9)].all (fun (x : BitVec 64 × BitVec 64) => let s : State := { State.reset with clusters := [(0, { charge := x.1 }), (1, { charge := x.2 })] }
    let a := ((s.cluster 0).charge - (s.cluster 0).windowFrom).toNat
    let b := ((s.cluster 1).charge - (s.cluster 1).windowFrom).toNat
    decide (b < a) && (decide (a < 10 * (a - b)) == (x.2 == 8)) && floorOf s 0 == 12)) = true := by decide
/-- A running ramp down whose target a new floor has passed, and one in its last fall; a heavier cluster whose clock rides at its floor. -/
theorem test_hyp_RampsAndFloors : (
  let s : State := { s0 with launches := s0.launches.map (fun l => (l.1, { l.2 with offer := { l.2.offer with floor := 16 } })), clusters := [(0, { freq := 20, mv := 750, target := some 12 })] }
  floorOf s 0 == 16 && (s.cluster 0).target == some 12 && decide (12 < 16 ∧ 16 < 20 ∧ 550 + 10 * 20 ≤ (s.cluster 0).mv) &&
  (let k := (onC { freq := 17, mv := 730, target := some 17, pending := some 20 }).cluster 0
   k.target == some k.freq && k.mv == 550 + 10 * k.freq + 10 && decide (550 + 10 * k.freq < k.mv ∧ 14 < k.freq)) &&
  (let k := (onC { freq := 20, mv := 750, stretched := some 120, fell := some 110 }).cluster 0
   decide (min (10 * (k.freq - k.throttle)) (min (k.stretched.getD 1000) (k.fell.getD 1000)) ≤ 10 * floorOf State.reset 0))) = true := by decide
theorem test_hyp_SupplyEvents : (
  let s : State := { s0 with clusters := [(0, { episodes := [(1, 0)] })], beyond := some 5 }
  hasL s (fun l => (s.launches.filter (fun x => x.1 == 1)) == [(1, l)] && l.offer.cores.any (fun c => clusterOf c == 0)) &&
  (s.cluster 0).episodes.find? (fun ep => ep.1 == 1) == some (1, 0) && hasL s0 (fun l => l.events.length < 64) && decide (119 < 10 * 12) && State.reset.refClock && s.beyond != none) = true := by decide
/-- A clock seen below the floor, and one at it; an episode that goes on though the clock has regained the frequency. -/
theorem test_hyp_ClockBelowFloor : (let k := { freq := 12 : Cluster }
  decide (119 < 10 * floorOf s0 0) && !decide (120 < 10 * floorOf s0 0) && decide (min (10 * (k.freq - k.throttle)) (min (k.stretched.getD 1000) 119) < 10 * 12)) = true := by decide
def mig (done : List Nat) : State := { State.reset with migrations := [{ old := 7, new_ := 9, done := done, part := 16, hot := false }] }
set_option maxRecDepth 4000 in
/-- A page and a target that exist, the first page beyond HBM; a migration with no line copied, and with every line; a hot page and a frame
for it. -/
theorem test_hyp_PagingSteps : (!absentPage 7 && absentPage 5898240 && !absentPage 5898239 && openPage State.reset 9 && !moving State.reset 7 &&
  (List.range 512).find? (fun i => !(([] : List Nat).contains i)) == some 0 && (mig []).migrations.find? (fun g => g.old == 7) == some { old := 7, new_ := 9, done := [], part := 16, hot := false } &&
  (mig []).migrations.find? (fun g => g.old == 8) == none &&
  (let q : Part := { ctrl := 6, hotcount := 1, accesses := 2 ^ 24, hotCount := [(2 ^ 25, 3)] }
   let s := { State.reset with parts := [(0, q)] }
   (s.part 0).ctrl.getLsbD 2 && decide (2 ^ 24 ≤ (s.part 0).accesses) && hotChoice s q [2 ^ 25] && (freeFrames s q).length == 1)) = true := by decide
/-- A place that a locked page moves to; a unit that a device address names, and one that none does. -/
theorem test_hyp_LockedMove : (
  let s : State := { s0 with migrations := [{ old := 7, new_ := 9, done := [], part := 16, hot := false }], launches := s0.launches.map (fun l => (l.1, { l.2 with locked := [0x70] })) }
  redir s 0x90000 / 65536 == 9 && lockedFrame s (16 * pageAt s 7 + redir s 0x90000 % 65536 / 4096) && lockedAt s 0x90000 && !lockedAt s 0x91000) = true := by decide
/-- A due scan whose pool of one frame is full: the page that it holds is to leave. A migration of the tracker. -/
theorem test_hyp_HotScanShort : (
  let q : Part := { ctrl := 6, hotcount := 1, accesses := 2 ^ 24, hotCount := [(2 ^ 25, 3)] }
  let s := { State.reset with parts := [(0, q)], hot := [(2 ^ 25 + 1, 0)] }
  hotChoice s q [2 ^ 25] && (freeFrames s q).length == 0 && heldHot s q == [(2 ^ 25 + 1, 0)] && !moving s 0 && pageAt s 7 != pageAt s 9) = true := by decide
theorem test_hyp_MigrationSwitch : (mig (List.range 512)).migrations.find? (fun g => g.old == 7) = some { old := 7, new_ := 9, done := List.range 512, part := 16, hot := false } ∧
    ∀ i, i < 512 → i ∈ List.range 512 := ⟨rfl, fun _ h => List.mem_range.mpr h⟩
theorem test_hyp_PowerUpAndSelfTest : (!State.reset.selfTest && { State.reset with selfTest := true }.selfTest && (1#8).getLsbD (quadOf 23) && !(1#8).getLsbD (quadOf 24) &&
  (List.replicate 32 (0 : Byte)).length == 32 && (List.replicate 31 (0 : Byte)).length != 32) = true := by decide
def fl (kind : BitVec 3) (payload : List Byte) : Flit := { dest := 0, kind := kind, seq := 0, ackSeq := 0, cred0 := 0, cred1 := 0, vc := 0, hops := 0, payload := padTo payloadLen payload }
set_option maxRecDepth 8000 in
/-- A device that is served and one that is not; a read and a write of the last mapped bytes and of the bytes beyond; an atomic record; a port that
is up. -/
theorem test_hyp_FlitsArrive : (
  let s := { s0 with routes := [(5, 0x100000)] }
  let f (n : Nat) : Flit := fl 3 (leBytes 5 4 ++ leBytes 9 4 ++ leBytes 0x3FFFF20 8 ++ leBytes n 2)
  (s.port 15).up && !(s.port 15).retraining && (s.port 15).rxSeq == 0 && (servedBy s 5).isSome && (servedBy s 6).isNone && paySrc (f 224) == 5 && payTag (f 224) == 9 && payNat (f 224) 16 2 == 224 &&
  (servedBy s 5).any (fun m => (serveAccess s m 0x3FFFF20 224 .load matches .inr _) && (serveAccess s m 0x3FFFF21 224 .load matches .inl _) &&
    serveAccess s m 0x3FFFFFF 1 .store == .inr [0x3FFFFFF] && serveAccess s m 0x4000000 1 .store == .inl 1) &&
  (let g : Flit := fl 1 (leBytes 5 4 ++ leBytes 9 4 ++ leBytes 0 1 ++ leBytes 1 1 ++ leBytes 1 1 ++ List.replicate 5 0 ++ leBytes 0x3FFFFFC 8 ++ leBytes 1 8 ++ leBytes 0 8)
   areqChecks s g == .inr (.n32, [(lo0 0x3FFFFFC 4, 1, 0)]) && areqChecks s { g with payload := padTo payloadLen (leBytes 5 4) } == .inl 2) &&
  (s.port 0).window != 2 ^ 24 && (s.port 0).waiting == []) = true := by decide
/-- An acknowledgement of a copy's staged bytes that reports an error, and of a `REDG`. -/
theorem test_hyp_StagedAnswers : ([none, some ({ ctx := 3, num := 1, pc := 8, pt := none } : CopySrc)].all (fun src =>
  let f : FarRed := { id := id0, seq := 0, copy := src, tag := 9, dev := 5, serial := 1, block := 0, wave := 0, core := 0, pc := 0, addr := 0 }
  let g : Flit := fl 6 (leBytes 5 4 ++ leBytes 9 4 ++ leBytes 5 1)
  let s : State := { s0 with farReds := [f] }
  s.farReds.filter (fun r => r.dev == paySrc g && r.tag == payTag g) == [f] && payNat g 8 1 == 5 && f.copy == src)) = true := by decide
theorem test_hyp_FlitOwnAndOther : (∃ f : Flit, f.dest = Config.deviceNumber ∧ f.seq = (State.reset.port 0).rxSeq) ∧ ∃ f : Flit, f.dest ≠ Config.deviceNumber ∧ f.hops = 0 :=
  ⟨⟨{ fl 3 [] with dest := Config.deviceNumber }, rfl, by decide⟩, ⟨{ fl 3 [] with dest := Config.deviceNumber + 1 }, by
    intro h
    have := congrArg BitVec.toNat h
    simp [BitVec.toNat_add] at this
    omega, rfl⟩⟩
/-- A remote atomic of a wave that an ARSP answers. -/
theorem test_hyp_RemoteAnswer : (
  let r : Req := rq 0 0 (.remote 5 9 0 .n32 true (some 1))
  let s := withReqs [r]
  (s.waves.filter (fun x => x.1 == wkey id0)).length == 1 && (s.wave id0).any (fun w => hasRemoteReq w 5 9 && !hasRemoteReq w 5 8 && w.reqs == [r])) = true := by decide
set_option maxRecDepth 4000 in
theorem test_hyp_PortsRetrain : (
  let p (x : Port) : State := { State.reset with ports := [(3, x)] }
  decide ((State.reset.port 15).window ≠ 2 ^ 24) && ((p { window := 2 ^ 24 }).port 3).window == 2 ^ 24 && (fl 7 []).kind == 7 && ((p { replay := [fl 0 []] }).port 3).replay.length == 1 &&
  [2, 3].all (fun n => ((p { retraining := true, fails := n }).port 3).retraining && (decide (((p { retraining := true, fails := n }).port 3).fails < 3) == (n == 2)) &&
    !((p { retraining := true, fails := n }).port 3).overdue) &&
  (let s := { withReqs [rq 0 0 (.remote 5 9 0 .n32 true (some 1))] with routes := [(5, 8)], ports := [(3, { retraining := true, replay := [{ fl 0 [] with dest := 5 }] })] }
   stalledOn s 3 1 != [] && stalledOn s0 3 1 == [])) = true := by decide

theorem test_hyp_DecodeUndoesEncode : ((Instr.iadd (ln .vec .n64 4 6 8 0)).wellFormed && (encode (.iadd (ln .vec .n64 4 6 8 0))).isSome) = true := by decide
/-- `JOIN` is fetched, decoded and may issue; a path that waits may not; an event row. -/
theorem test_hyp_StepRunsDecoded : (
  let s := State.reset.withFetchWord 64 0x7300000000000000
  let b := s.begin_ []
  s.agenda == [.issue id0 false] && (b.ctxAt id0 false).any (fun c => c.chosen b && b.latches == [] && c.w.width ≤ 64 && (fetch b c).bind decodeBytes == some .join) &&
  ((held (.rcede 1) 0 s).ctxAt id0 false).any (fun c => !c.canIssue (held (.rcede 1) 0 s)) && encode (.framePop id0) == none) = true := by decide
theorem test_hyp_StepKeepsInvariant : ∃ s t, Inv s ∧ step s = .next t := ⟨State.reset, _, reset_inv, rfl⟩

/-! ### Single steps whose results the spec gives -/

def ran (s : State) (i : Instr) (p : State → Bool) : Bool := match exec i s with | .next t => p t | _ => false
def pends (t : State) (x : RegWrite) : Bool := (t.wave id0).any (fun w => w.pend.any (fun p => p.writes.contains x))
/-- 06_lanes.md, R125. -/
theorem test_step_nhash : ([(0, 0xE220A8397B1DCDAF), (0x9E3779B97F4A7C15, 0x6E789E6AA1B965F4)].all (fun (x : DWord × DWord) =>
  ran (regs [(0, x.1)] s0) (.nhash (ln .scal .n64 2 0 1 0)) (fun t => pends t (.s 2 x.2)))) = true := by decide
/-- 06_lanes.md, R122. -/
theorem test_step_bfx : ([(Ty.i32, 0xFFFFFFFB), (.n32, 0xB)].all (fun (x : Ty × Word) =>
  ran ((regs [(2, 0x0404)] s0).modWave id0 (fun w => w.writeV 3 15 0xABC)) (.bfx (ln .bcast x.1 5 3 2 0)) (fun t => (t.wave id0).any (fun w => w.readV 5 15 == x.2)))) = true := by decide
def qntIn : List (Nat × Word) := [(0, 0x3F400000), (1, 0xC0400000), (2, 0x41200000), (3, 0x3FA00000), (5, 0x41C00000), (6, 0xBE99999A), (7, 0x40A00000),
  (8, 0xC1C00000), (9, 0x40E00000), (10, 0x3F000000)]
/-- 04_numbers.md, the worked case of `QNT`. -/
theorem test_step_qnt : ran (onW (fun w => qntIn.foldl (fun w x => w.writeV 2 x.1 x.2) w)) (.qnt .f32 .rne (ln .vec .q4 10 2 0 0x40)) (fun t =>
  pends t (.v 10 0 0x207014A0) && pends t (.v 10 7 0x207014A0) && pends t (.v 10 8 0x4F) && pends t (.v 10 15 0x4F) && pends t (.v 11 3 0x62)) = true := by decide
/-- 22_claims.md, step 1 of the name claimed by four blocks. -/
theorem test_step_claim : ran (regs [(20, 0x700000002), (21, 0x700000002)] (onL (fun l => { l with offer := { l.offer with claims := 1 } }))) (.claim h0 24 20) (fun t =>
  pends t (.s 24 0x40000000CDAF0001) && pends t (.s 25 0) && (t.claim (4 * 0xCDAF)).st == .making) = true := by decide
/-- R120: a shift by the full width, and the absolute value of the most negative number. -/
theorem test_step_edges : (ran (regs [(1, 32)] (onW (fun w => w.writeV 1 0 0x80000000))) (.shra (ln .bcast .n32 3 1 1 0)) (fun t => (t.wave id0).any (fun w => w.readV 3 0 == 0xFFFFFFFF)) &&
  ran (onW (fun w => w.writeV 1 0 0x80000000)) (.iabs (ln .vec .i32 3 1 0 0)) (fun t => (t.wave id0).any (fun w => w.readV 3 0 == 0x80000000))) = true := by decide
/-- R108, R96: a wave that exits retires; R152: a word one byte beyond the allocation traps. -/
theorem test_step_exit_and_trap : (ran s0 .exit (fun t => (t.wave id0).any (fun w => w.retiredWave)) &&
  ran (regs [(2, 1021)] s0) (.lds (mm .n32 1 2 true true 0)) (fun t => (t.launch 1).any (fun l => l.traps.any (fun x => x.code == cSPBOUND && x.value == 1021)))) = true := by decide
/-- R162: the lanes of an atomic act in ascending order, those of one unit together. -/
theorem test_atomic_runs : (groupParts [(0, 64), (1, 0), (2, 64), (3, 128)] == [0, 3] && runLanes 0 [0, 3] [(0, 64), (1, 0), (2, 64), (3, 128)] == [(0, 64), (1, 0), (2, 64)]) = true := by decide
/-- R185, R363, R364: the word of two lanes whose higher one meets a host error traps at the lower's answer, XLATE of that lane alone. -/
theorem test_step_host_error : ran ((withReqs [rq 0 2 (.ldh (lo0 0 4) .n32 false 1), rq 0 7 (.ldh (lo0 4 4) .n32 false 1)]).modWave id0 (fun w =>
    { w with pend := [{ tag := 0, kind := .host, dst := [.v 1], writes := [], ready := false }] })) (.ldhCompletion id0 1 none) (fun s =>
  hasL s (fun l => l.traps.isEmpty) && ran s (.ldhCompletion id0 0 (some [])) (fun t => (t.launch 1).any (fun l => l.traps.any (fun x => x.code == cXLATE && x.attr == aHOST && x.lanes == 128)) &&
    (t.wave id0).any (fun w => w.pend.all (fun p => !p.ready)))) = true := by decide
/-- R318: two blocks of a group whose lead can only be core 0: the lower takes it, though the upper could. -/
theorem test_plan_lower_first : plan (fun s _ _ => s) (fun _ _ c => c < 2) (fun c => c == 0) false [0, 1] State.reset = some [(0, 0), (1, 0)] := by decide
/-- R34, R61: the first word of a loaded program is fetched and runs. -/
theorem test_step_first_word : (match step (State.reset.withFetchWord 64 0x4000010000000008) with
  | .next t => (t.wave id0).any (fun w => w.readV 1 0 == 8 && w.retired == 1) | _ => false) = true := by decide

end Sys2Proof.Tests
end

section
/-! PROOF. Where blocks start, how a die steals, where a saved block resumes (17_scheduling.md). -/

namespace Sys2Proof.Machine

/-! ### Tables -/

theorem mem_of_tfind {α : Type} {t : Tab α} {k : Nat} {v : α} (h : tfind t k = some v) : (k, v) ∈ t := by
  induction t with
  | nil => cases h
  | cons p t ih =>
    obtain ⟨j, u⟩ := p
    simp only [tfind] at h
    split_ifs at h with e
    · cases h; subst e; exact List.mem_cons_self
    · exact List.mem_cons_of_mem _ (ih h)

/-- A second write of a key replaces the first. -/
@[simp] theorem tput_tput_same {α : Type} (t : Tab α) (k : Nat) (v w : α) : tput (tput t k v) k w = tput t k w := by
  induction t with
  | nil => simp [tput]
  | cons p t ih =>
    obtain ⟨j, u⟩ := p
    rcases lt_trichotomy k j with h | h | h
    · simp [tput, h]
    · simp [tput, h]
    · simp [tput, h.not_gt, h.ne', ih]

/-- A run of writes leaves at a key what those of the run that write the key agree on. -/
theorem tfind_foldl_tput {α ι : Type} (key : ι → Nat) (val : ι → α) (t : Tab α) {xs : List ι} {x : ι} (hx : x ∈ xs)
    (hu : ∀ y ∈ xs, key y = key x → val y = val x) :
    tfind (xs.foldl (fun t y => tput t (key y) (val y)) t) (key x) = some (val x) := by
  induction xs using List.reverseRecOn with
  | nil => cases hx
  | append_singleton xs a ih =>
    rw [List.foldl_append, List.foldl_cons, List.foldl_nil]
    by_cases e : key a = key x
    · rw [e, tfind_tput_same, hu a (by simp) e]
    · have hx' : x ∈ xs := by
        rcases List.mem_append.mp hx with h | h
        · exact h
        · exact absurd (congrArg key (List.mem_singleton.mp h).symm) e
      rw [tfind_tput_other _ _ (Ne.symm e)]
      exact ih hx' (fun y hy => hu y (List.mem_append_left _ hy))

theorem mem_insertNat {k x : Nat} {l : List Nat} : x ∈ insertNat k l ↔ x = k ∨ x ∈ l := by
  induction l with
  | nil => simp [insertNat]
  | cons j l ih =>
    simp only [insertNat]
    split_ifs with h e
    · simp
    · simp [e]
    · simp only [List.mem_cons, ih]; tauto

theorem pairwise_insertNat (k : Nat) {l : List Nat} (h : l.Pairwise (· < ·)) : (insertNat k l).Pairwise (· < ·) := by
  induction l with
  | nil => simp [insertNat]
  | cons j l ih =>
    obtain ⟨hj, hl⟩ := List.pairwise_cons.mp h
    simp only [insertNat]
    split_ifs with hk e
    · refine List.pairwise_cons.mpr ⟨fun x hx => ?_, h⟩
      rcases List.mem_cons.mp hx with rfl | hx
      · exact hk
      · exact hk.trans (hj x hx)
    · exact h
    · refine List.pairwise_cons.mpr ⟨fun x hx => ?_, ih hl⟩
      rcases mem_insertNat.mp hx with rfl | hx
      · omega
      · exact hj x hx

/-! ### Keys -/

theorem bkey_inj {n a b : Nat} : bkey n a = bkey n b ↔ a = b := by simp [bkey]

theorem wkey_inj {n b i j : Nat} : wkey ⟨n, b, i⟩ = wkey ⟨n, b, j⟩ ↔ i = j := by simp [wkey]

/-- A block whose index fits in its key's 32 bits is among its launch's blocks. -/
theorem mem_blocksOf {s : State} {serial block : Nat} {b : Block} (hb : block < 2 ^ 32) (h : s.block serial block = some b) :
    (block, b) ∈ blocksOf s serial := by
  refine List.mem_filterMap.mpr ⟨(bkey serial block, b), mem_of_tfind h, ?_⟩
  have hdiv : bkey serial block / 2 ^ 32 = serial := by simp only [bkey]; omega
  have hmod : bkey serial block % 2 ^ 32 = block := by simp only [bkey]; omega
  rw [if_pos hdiv, hmod]

/-- The waves of a block are told apart by their numbers. -/
theorem wavesOf_id {s : State} {serial block : Nat} {x : WaveId × Wave} (h : x ∈ wavesOf s serial block) :
    x.1 = ⟨serial, block, x.1.wave⟩ := by
  obtain ⟨p, -, hp⟩ := List.mem_filterMap.mp h
  split_ifs at hp
  cases hp; rfl

/-! ### State operations that starting and restoring a block share -/

theorem launch_modLaunch {s : State} {n : Nat} {l : Launch} (h : s.launch n = some l) (f : Launch → Launch) :
    (s.modLaunch n f).launch n = some (f l) := by
  simp [modLaunch_of h, State.launch]

theorem foldl_setWave {ι : Type} (id : ι → WaveId) (f : Nat → ι → Wave) (xs : List ι) (s : State) :
    xs.foldl (fun s x => s.setWave (id x) (f s.tick x)) s =
      { s with waves := xs.foldl (fun t x => tput t (wkey (id x)) (f s.tick x)) s.waves } := by
  induction xs generalizing s with
  | nil => rfl
  | cons x xs ih => rw [List.foldl_cons, ih]; rfl

/-- Emptied matrix slots are all that clearing changes (R263). -/
theorem clearSlots_eq (s : State) (l : Launch) (core : Nat) : ∃ bs, clearSlots s l core = { s with bslots := bs } := by
  unfold clearSlots
  split_ifs
  · refine List.foldlRecOn (motive := fun (t : State) => ∃ bs, t = { s with bslots := bs }) _ _ ⟨s.bslots, rfl⟩ ?_
    rintro _ ⟨bs, rfl⟩ b -
    split_ifs
    · exact ⟨_, rfl⟩
    · exact ⟨bs, rfl⟩
  · exact ⟨s.bslots, rfl⟩

theorem resumeSlots_eq (s : State) (serial core : Nat) (l : Launch) (acted : Bool) :
    ∃ bs, resumeSlots s serial core l acted = { s with bslots := bs } := by
  unfold resumeSlots
  split_ifs
  · exact ⟨s.bslots, rfl⟩
  · exact clearSlots_eq s l core

theorem startTurn_eq (s : State) (serial : Nat) (l : Launch) (core : Nat) :
    ∃ ts ls, startTurn s serial l core = { s with turns := ts, lastServed := ls } := by
  unfold startTurn
  split_ifs
  · exact ⟨s.turns, s.lastServed, rfl⟩
  · exact ⟨_, _, rfl⟩

/-- The launch's count of the core's cycles is open, and what it had counted stands (R239). -/
theorem openUse_of {s : State} {serial : Nat} {l : Launch} (h : s.launch serial = some l) (core : Nat) :
    ∃ u : CoreUse, u.acc = ((tfind l.use core).map (fun u => u.acc)).getD 0 ∧
      openUse s serial core = { s with launches := tput s.launches serial { l with use := tput l.use core u } } := by
  refine ⟨_, ?_, modLaunch_of h _⟩
  cases tfind l.use core with
  | none => rfl
  | some u => simp only [Option.getD_some, Option.map_some]; split_ifs <;> rfl

/-- A view that starts has read nothing and starts no earlier than the points named (R199). -/
theorem startView_view (s : State) (key homePt acq : Nat) :
    ∃ v, tfind (startView s key homePt acq).views key = some v ∧ v.seen = [] ∧ homePt ≤ v.start ∧ acq ≤ v.start := by
  refine ⟨_, tfind_tput_same _ _ _, rfl, ?_, ?_⟩
  · exact (le_max_right _ _).trans (le_max_left _ _)
  · exact (le_max_right _ _).trans (le_max_right _ _)

/-! ### A block starts (R92, R223, R298) -/

theorem foldl_writeS_zipIdx (ps : List DWord) (n : Nat) (w : Wave) :
    (ps.zipIdx n).foldl (fun (w : Wave) p => w.writeS p.2 p.1) w = { w with s := tputs 0 w.s n ps } := by
  induction ps generalizing n w with
  | nil => rfl
  | cons p ps ih => rw [List.zipIdx_cons, List.foldl_cons, ih]; rfl

/-- The wave that starts: its parameters in the scalar registers, every other register zero. -/
theorem freshWave_eq (l : Launch) (tick : Nat) :
    freshWave l tick =
      { width := l.offer.kernel.width, allot := l.offer.allot, resident := some tick
        a := some { path := { pc := 0, mask := allLanes l.offer.kernel.width, join := none, parked := false } }
        s := tputs 0 [] 0 (l.offer.params.take 16) } := foldl_writeS_zipIdx _ _ _

theorem freshWave_readS (l : Launch) (tick r : Nat) : (freshWave l tick).readS r = (l.offer.params.take 16).getD r 0 := by
  simp only [freshWave_eq, Wave.readS, tget_tputs, Nat.zero_le, true_and, Nat.zero_add, Nat.sub_zero]
  split_ifs with h
  · rfl
  · rw [List.getD_eq_default _ _ (not_lt.mp h)]; rfl

theorem freshWave_readV (l : Launch) (tick r i : Nat) : (freshWave l tick).readV r i = 0 := by
  rw [freshWave_eq]; rfl

theorem freshWave_readM (l : Launch) (tick : Nat) {r : Nat} (h : r ≠ 0) : (freshWave l tick).readM r = 0 := by
  rw [freshWave_eq, Wave.readM, if_neg h]; rfl

/-- The waves of a block that starts, put into the table. -/
def putFreshWaves (s : State) (serial block : Nat) (l : Launch) : Tab Wave :=
  (List.range l.offer.waves).foldl (fun t k => tput t (wkey ⟨serial, block, k⟩) (freshWave l s.tick)) s.waves

theorem tfind_putFreshWaves (s : State) (serial block : Nat) (l : Launch) {k : Nat} (h : k < l.offer.waves) :
    tfind (putFreshWaves s serial block l) (wkey ⟨serial, block, k⟩) = some (freshWave l s.tick) :=
  tfind_foldl_tput (fun k => wkey ⟨serial, block, k⟩) (fun _ => freshWave l s.tick) _ (List.mem_range.mpr h) (fun _ _ _ => rfl)

/-- WHAT A START LEAVES: a fresh block of fresh waves with a view of its own, the launch running; the slots emptied and the
turn of the core begun where they are to be, and nothing else. -/
theorem startBlock_eq {s : State} {serial : Nat} {l : Launch} (h : s.launch serial = some l) (block core : Nat) :
    ∃ bs ts ls use, startBlock s serial block core l =
      { s with
        bslots := bs, turns := ts, lastServed := ls
        blocks := tput s.blocks (bkey serial block) (freshBlock l core)
        waves := putFreshWaves s serial block l
        views := (startView s (setKey l core serial block) l.offer.hpt 0).views
        launches := tput s.launches serial
          { l with use := use, placedOn := tput l.placedOn core (tget 0 l.placedOn core + 1), st := .running } } := by
  simp only [startBlock]
  obtain ⟨bs, hbs⟩ := clearSlots_eq s l core
  rw [hbs, foldl_setWave (fun k => ⟨serial, block, k⟩) (fun tick _ => freshWave l tick)]
  generalize hv : startView _ (setKey l core serial block) l.offer.hpt 0 = t
  obtain ⟨ts, ls, hts⟩ := startTurn_eq t serial l core
  have ht : (startTurn t serial l core).launch serial = some l := by rw [hts, ← hv]; exact h
  obtain ⟨u, -, hu⟩ := openUse_of ht core
  have hl : (openUse (startTurn t serial l core) serial core).launch serial = some { l with use := tput l.use core u } := by
    rw [hu]; exact tfind_tput_same _ _ _
  refine ⟨bs, ts, ls, tput l.use core u, ?_⟩
  rw [modLaunch_of hl, hu, tput_tput_same, hts, ← hv]
  rfl

/-! ### A saved block is restored (R302, R304, R318) -/

/-- The waves of a block that is restored, resident from now on. -/
def putRestoredWaves (s : State) (serial block : Nat) : Tab Wave :=
  (wavesOf s serial block).foldl (fun t p => tput t (wkey p.1) { p.2 with resident := some s.tick }) s.waves

theorem tfind_putRestoredWaves {s : State} {serial block : Nat} {x : WaveId × Wave} (hx : x ∈ wavesOf s serial block)
    (hu : ∀ y ∈ wavesOf s serial block, y.1 = x.1 → y = x) :
    tfind (putRestoredWaves s serial block) (wkey x.1) = some { x.2 with resident := some s.tick } := by
  refine tfind_foldl_tput (fun p : WaveId × Wave => wkey p.1) (fun p => { p.2 with resident := some s.tick }) _ hx (fun y hy hk => ?_)
  have hid : y.1 = x.1 := by
    rw [wavesOf_id hx, wavesOf_id hy, wkey_inj] at hk
    rw [wavesOf_id hx, wavesOf_id hy, hk]
  rw [hu y hy hid]

theorem restoreBlock_eq {s : State} {serial block : Nat} {l : Launch} {b : Block} (h : s.launch serial = some l)
    (hb : s.block serial block = some b) (core : Nat) :
    ∃ bs ts ls hp, ∃ u : CoreUse, u.acc = ((tfind l.use core).map (fun u => u.acc)).getD 0 + saveCycles l.offer ∧
      restoreBlock s serial block core l =
        { s with
          bslots := bs, turns := ts, lastServed := ls
          blocks := tput s.blocks (bkey serial block) { b with place := .resident, core := core }
          waves := putRestoredWaves s serial block
          views := (startView s (setKey l core serial block) hp l.offer.hpt).views
          launches := tput s.launches serial { l with use := tput l.use core u } } := by
  simp only [restoreBlock]
  obtain ⟨bs, hbs⟩ := resumeSlots_eq s serial core l ((s.block serial block).any (fun b => b.matrixActed))
  rw [hbs, foldl_setWave (fun p : WaveId × Wave => p.1) (fun tick p => { p.2 with resident := some tick })]
  generalize maxOf _ = hp
  generalize hv : startView _ (setKey l core serial block) hp l.offer.hpt = t
  obtain ⟨ts, ls, hts⟩ := startTurn_eq t serial l core
  have ht : (startTurn t serial l core).launch serial = some l := by rw [hts, ← hv]; exact h
  obtain ⟨u, hacc, hu⟩ := openUse_of ht core
  have hl : (openUse (startTurn t serial l core) serial core).launch serial = some { l with use := tput l.use core u } := by
    rw [hu]; exact tfind_tput_same _ _ _
  refine ⟨bs, ts, ls, hp, { u with acc := u.acc + saveCycles l.offer }, congrArg (· + saveCycles l.offer) hacc, ?_⟩
  rw [modLaunch_of hl, hu]
  simp only [tfind_tput_same, tput_tput_same]
  rw [hts, ← hv, ← tmod_of_find (fun b : Block => { b with place := .resident, core := core }) hb]
  rfl

/-- Only the clusters named for affinity cohorts change (R15). -/
theorem rehome_of {s : State} {serial : Nat} {l : Launch} (h : s.launch serial = some l) (block core : Nat) :
    ∃ cc, rehome s serial block core =
      { s with launches := tput s.launches serial { l with offer := { l.offer with cohortClusters := cc } } } :=
  ⟨_, modLaunch_of h _⟩

/-- WHAT A RESTORE LEAVES: the block on its core, its waves resident, a view that starts anew, the cycles of the save and
restore counted (R230); an affinity cohort's cluster named anew where it is lost (R15). -/
theorem restoreOn_eq {s : State} {serial block : Nat} {l : Launch} {b : Block} (h : s.launch serial = some l)
    (hb : s.block serial block = some b) (core : Nat) :
    ∃ bs ts ls hp, ∃ u : CoreUse, ∃ cc, u.acc = ((tfind l.use core).map (fun u => u.acc)).getD 0 + saveCycles l.offer ∧
      restoreOn serial s block core =
        { s with
          bslots := bs, turns := ts, lastServed := ls
          blocks := tput s.blocks (bkey serial block) { b with place := .resident, core := core }
          waves := putRestoredWaves s serial block
          views := (startView s (setKey l core serial block) hp l.offer.hpt).views
          launches := tput s.launches serial
            { l with use := tput l.use core u, offer := { l.offer with cohortClusters := cc } } } := by
  obtain ⟨bs, ts, ls, hp, u, hacc, hr⟩ := restoreBlock_eq h hb core
  have hl : (restoreBlock s serial block core l).launch serial = some { l with use := tput l.use core u } := by
    rw [hr]; exact tfind_tput_same _ _ _
  obtain ⟨cc, hcc⟩ := rehome_of hl block core
  refine ⟨bs, ts, ls, hp, u, cc, hacc, ?_⟩
  simp only [restoreOn, h]
  rw [hcc, hr, tput_tput_same]

/-- What the restore of one block leaves of the launch's blocks. -/
theorem restoreOn_blocks {s : State} {serial block : Nat} {l : Launch} {b : Block} (h : s.launch serial = some l)
    (hb : s.block serial block = some b) (core : Nat) :
    (restoreOn serial s block core).mem = s.mem ∧ (∃ l', (restoreOn serial s block core).launch serial = some l') ∧
      (restoreOn serial s block core).block serial block = some { b with place := .resident, core := core } ∧
      ∀ m, m ≠ block → (restoreOn serial s block core).block serial m = s.block serial m := by
  obtain ⟨bs, ts, ls, hp, u, cc, -, e⟩ := restoreOn_eq h hb core
  rw [e]
  exact ⟨rfl, ⟨_, tfind_tput_same _ _ _⟩, tfind_tput_same _ _ _, fun m hm => tfind_tput_other _ _ (mt bkey_inj.mp hm)⟩

/-- A group restored: each member on the core of its place in the plan (R318). -/
theorem resumeOn_blocks {serial : Nat} : ∀ {at_ : List (Nat × Nat)} {s : State} {l : Launch}, s.launch serial = some l →
    (∀ p ∈ at_, ∃ x, s.block serial p.1 = some x) → (at_.map (fun p => p.1)).Nodup →
    (resumeOn serial s at_).mem = s.mem ∧
      (∀ m, m ∉ at_.map (fun p => p.1) → (resumeOn serial s at_).block serial m = s.block serial m) ∧
      ∀ p ∈ at_, ∀ x, s.block serial p.1 = some x →
        (resumeOn serial s at_).block serial p.1 = some { x with place := .resident, core := p.2 }
  | [], s, l, _, _, _ => ⟨rfl, fun _ _ => rfl, fun p hp => absurd hp List.not_mem_nil⟩
  | (m, c) :: at_, s, l, h, hx, hn => by
    obtain ⟨hm, hn⟩ := List.nodup_cons.mp hn
    obtain ⟨b, hb⟩ := hx (m, c) List.mem_cons_self
    obtain ⟨hmem, ⟨l', hl'⟩, hsame, hother⟩ := restoreOn_blocks h hb c
    have hne : ∀ p ∈ at_, p.1 ≠ m := fun p hp e => hm (List.mem_map.mpr ⟨p, hp, e⟩)
    have hx' : ∀ p ∈ at_, ∃ x, (restoreOn serial s m c).block serial p.1 = some x := fun p hp => by
      rw [hother p.1 (hne p hp)]; exact hx p (List.mem_cons_of_mem _ hp)
    obtain ⟨imem, iother, iat⟩ := resumeOn_blocks hl' hx' hn
    refine ⟨imem.trans hmem, fun k hk => ?_, fun p hp x hpx => ?_⟩
    · obtain ⟨hkm, hk⟩ := not_or.mp (mt List.mem_cons.mpr hk)
      exact (iother k hk).trans (hother k hkm)
    · rcases List.mem_cons.mp hp with rfl | hp
      · cases hb.symm.trans hpx
        exact (iother m hm).trans hsame
      · exact iat p hp x ((hother p.1 (hne p hp)).trans hpx)

/-! ### Starting the items of a die (R298) -/

theorem turnOpen_of_turnAllows {s : State} {serial : Nat} {l : Launch} {core : Nat} (h : turnAllows s serial l core = true) :
    turnOpen s serial l core = true := by
  rcases Bool.or_eq_true_iff.mp h with hk | h
  · simp [turnOpen, hk]
  · obtain ⟨ho, ht⟩ := Bool.and_eq_true_iff.mp h
    cases e : tfind s.turns core with
    | none => simp [turnOpen, ho, e]
    | some t =>
      rw [e] at ht
      simp [turnOpen, ho, e, by simpa using ht]

theorem startAll_cons {serial block core : Nat} {xs : List (Nat × Nat)} {s u : State} {l : Launch} (h : s.launch serial = some l)
    (hu : startAll serial ((block, core) :: xs) s = some u) : startAll serial xs (startBlock s serial block core l) = some u := by
  simp only [startAll, h] at hu
  split_ifs at hu
  exact hu

theorem startAll_single {serial block core : Nat} {s : State} {l : Launch} (h : s.launch serial = some l)
    (hroom : roomToStart s serial core l = true) (hturn : turnAllows s serial l core = true) :
    startAll serial [(block, core)] s = some (startBlock s serial block core l) := by
  simp [startAll, h, hroom, turnOpen_of_turnAllows hturn]

/-- What the start of one block leaves of the launch's blocks. -/
theorem startBlock_blocks {s : State} {serial : Nat} {l : Launch} (h : s.launch serial = some l) (block core : Nat) :
    (startBlock s serial block core l).mem = s.mem ∧ (∃ l', (startBlock s serial block core l).launch serial = some l') ∧
      (startBlock s serial block core l).block serial block = some (freshBlock l core) ∧
      ∀ m, m ≠ block → (startBlock s serial block core l).block serial m = s.block serial m := by
  obtain ⟨bs, ts, ls, use, e⟩ := startBlock_eq h block core
  rw [e]
  exact ⟨rfl, ⟨_, tfind_tput_same _ _ _⟩, tfind_tput_same _ _ _, fun m hm => tfind_tput_other _ _ (mt bkey_inj.mp hm)⟩

/-- Blocks placed together: each is fresh on its core (R298). -/
theorem startAll_blocks {serial : Nat} : ∀ {xs : List (Nat × Nat)} {s u : State} {l : Launch}, s.launch serial = some l →
    startAll serial xs s = some u → (xs.map (fun x => x.1)).Nodup →
    u.mem = s.mem ∧ (∃ l', u.launch serial = some l') ∧
      (∀ m, m ∉ xs.map (fun x => x.1) → u.block serial m = s.block serial m) ∧
      ∀ x ∈ xs, ∃ l', u.block serial x.1 = some (freshBlock l' x.2)
  | [], s, u, l, h, hu, _ => by
    cases hu
    exact ⟨rfl, ⟨l, h⟩, fun _ _ => rfl, fun x hx => absurd hx List.not_mem_nil⟩
  | (m, c) :: xs, s, u, l, h, hu, hn => by
    obtain ⟨hm, hn⟩ := List.nodup_cons.mp hn
    obtain ⟨hmem, ⟨l', hl'⟩, hsame, hother⟩ := startBlock_blocks h m c
    obtain ⟨imem, il, iother, iat⟩ := startAll_blocks hl' (startAll_cons h hu) hn
    refine ⟨imem.trans hmem, il, fun k hk => ?_, fun x hx => ?_⟩
    · obtain ⟨hkm, hk⟩ := not_or.mp (mt List.mem_cons.mpr hk)
      exact (iother k hk).trans (hother k hkm)
    · rcases List.mem_cons.mp hx with rfl | hx
      · exact ⟨l, (iother m hm).trans hsame⟩
      · exact iat x hx

/-- What is unstarted once an item's lowest block has started, or its whole group. -/
def Item.leave : Item → List Item → List Item
  | .range lo hi, rest => if lo < hi then .range (lo + 1) hi :: rest else rest
  | .group _, rest => rest

/-- The launch whose die has the items `left` unstarted and offers them anew to the die that asked in vain. -/
def Launch.leaves (l : Launch) (die : Nat) (left : List Item) : Launch :=
  { l.setOwn die left with stealWait := l.stealWait.filter (fun d => d == die) }

@[simp] theorem own_setOwn_same (l : Launch) (die : Nat) (x : List Item) : (l.setOwn die x).own die = x := by
  unfold Launch.own Launch.setOwn; split_ifs <;> rfl

theorem own_setOwn_other (l : Launch) {die d : Nat} (x : List Item) (hd : die < 2) (he : d = 1 - die) : (l.setOwn die x).own d = l.own d := by
  subst he
  interval_cases die <;> rfl

theorem leaves_st (l : Launch) (die : Nat) (left : List Item) : (l.leaves die left).st = l.st := by
  unfold Launch.leaves Launch.setOwn; split_ifs <;> rfl
theorem leaves_done (l : Launch) (die : Nat) (left : List Item) : (l.leaves die left).done = l.done := by
  unfold Launch.leaves Launch.setOwn; split_ifs <;> rfl
theorem leaves_traps (l : Launch) (die : Nat) (left : List Item) : (l.leaves die left).traps = l.traps := by
  unfold Launch.leaves Launch.setOwn; split_ifs <;> rfl

/-- An item may start on the cores named: what BLOCK_PLACE asks of them, the room on each core apart (R15, R298, R306, R375). -/
structure ItemMayStart (s : State) (serial die : Nat) (cores : List Nat) (l : Launch) (it : Item) : Prop where
  live : l.live = true
  length : it.blocks.length = cores.length
  alone : ∀ lo hi, it = .range lo hi → ∀ c ∈ cores, dieOf c = die
  lost : lostBelow s serial l it.low = none
  saved : noneSavedBelow s serial (it.blocks.zip cores) = true
  aff : affinityOk l.offer (it.blocks.zip cores) = true
  turn : ∃ c ∈ cores, turnAllows s serial l c = true

theorem placeItem_of {s u : State} {serial die : Nat} {cores : List Nat} {l : Launch} {it : Item} {rest : List Item}
    (h : s.launch serial = some l) (ho : l.own die = it :: rest) (hm : ItemMayStart s serial die cores l it)
    (hu : startAll serial (it.blocks.zip cores) s = some u) :
    placeItem serial die cores s = some (u.modLaunch serial (fun l => l.leaves die (it.leave rest))) := by
  have hturn : cores.any (turnAllows s serial l) = true := List.any_eq_true.mpr hm.turn
  have hlen := hm.length
  have hsaved := hm.saved
  have haff := hm.aff
  cases it with
  | range lo hi =>
    have halone : cores.any (fun c => dieOf c != die) = false := by
      simpa [List.any_eq_false] using hm.alone lo hi rfl
    simp only [Item.blocks] at hlen hsaved haff hu
    simp only [placeItem, h, ho]
    simp [hm.live, hlen, halone, hsaved, haff, hturn, hu, Launch.leaves, Item.leave]
  | group ms =>
    simp only [Item.blocks] at hlen hsaved haff hu
    simp only [placeItem, h, ho]
    simp [hm.live, hlen, hsaved, haff, hturn, hu, Launch.leaves, Item.leave]

/-- BLOCK_PLACE of an item that may start. -/
theorem exec_blockPlace_of {s u : State} {serial die : Nat} {cores : List Nat} {l : Launch} {it : Item} {rest : List Item}
    (h : s.launch serial = some l) (hd : die < 2) (ho : l.own die = it :: rest) (hm : ItemMayStart s serial die cores l it)
    (hu : startAll serial (it.blocks.zip cores) s = some u) :
    exec (.blockPlace serial die cores) s = .next (u.modLaunch serial (fun l => l.leaves die (it.leave rest))) := by
  show execBlockPlace serial die cores s = _
  simp [execBlockPlace, h, ho, hm.lost, hd, placeItem_of h ho hm hu]

theorem idles_blockPlace_dry {s : State} {serial die : Nat} {l : Launch} (h : s.launch serial = some l) (ho : l.own die = [])
    (cores : List Nat) : idles s (.blockPlace serial die cores) := by
  show execBlockPlace serial die cores s = _
  simp [execBlockPlace, placeItem, h, ho]

/-! ### Stealing (R299) -/

/-- Blocks, and groups counted as one, of a list of items. -/
def Item.total (is : List Item) : Nat := (is.map Item.count).sum

@[simp] theorem Item.total_nil : Item.total [] = 0 := rfl
@[simp] theorem Item.total_cons (it : Item) (is : List Item) : Item.total (it :: is) = it.count + Item.total is := List.sum_cons
@[simp] theorem Item.total_reverse (is : List Item) : Item.total is.reverse = Item.total is := by
  simp [Item.total, List.map_reverse, List.sum_reverse]

theorem foldl_count_eq_total (is : List Item) (n : Nat) : is.foldl (fun n i => n + i.count) n = n + Item.total is := by
  induction is generalizing n with
  | nil => rfl
  | cons it is ih => rw [List.foldl_cons, ih, Item.total_cons, Nat.add_assoc]

/-- The highest `h` are taken, as far as there are so many, and none is lost. -/
theorem takeTop_total (h : Nat) (is : List Item) :
    Item.total (takeTop h is).2 = min h (Item.total is) ∧
      Item.total (takeTop h is).1 + Item.total (takeTop h is).2 = Item.total is := by
  induction is generalizing h with
  | nil => simp [takeTop]
  | cons it is ih =>
    by_cases h0 : h = 0
    · simp [takeTop, h0]
    cases it with
    | group ms =>
      obtain ⟨htake, hall⟩ := ih (h - 1)
      simp only [takeTop, if_neg h0, Item.total_cons, Item.count]
      omega
    | range lo hi =>
      by_cases hn : hi + 1 - lo ≤ h
      · obtain ⟨htake, hall⟩ := ih (h - (hi + 1 - lo))
        simp only [takeTop, if_neg h0, if_pos hn, Item.total_cons, Item.count]
        omega
      · simp only [takeTop, if_neg h0, if_neg hn, Item.total_cons, Item.total_nil, Item.count]
        omega

theorem takeTop_range {h lo hi : Nat} (h0 : h ≠ 0) (hn : h < hi + 1 - lo) :
    takeTop h [.range lo hi] = ([.range lo (hi - h)], [.range (hi + 1 - h) hi]) := by
  simp [takeTop, h0, not_le.mpr hn]

/-- STEAL_MESSAGE of a die that has run dry, for which one of its cores can take a block. -/
theorem exec_stealMessage_of {s : State} {serial die core : Nat} {l : Launch} (h : s.launch serial = some l) (hd : die < 2)
    (ho : l.own die = []) (hlive : l.live = true) (hask : l.stealAsk = none) (hwait : die ∉ l.stealWait) (hdie : dieOf core = die)
    (htake : canTakeOne s serial l core = true) :
    exec (.stealMessage serial die) s = .next { s with launches := tput s.launches serial { l with stealAsk := some die } } := by
  have hmem : core ∈ l.offer.cores := by
    have hroom := htake
    simp only [canTakeOne, roomToStart, Bool.and_eq_true] at hroom
    obtain ⟨⟨⟨⟨⟨hcores, -⟩, -⟩, -⟩, -⟩, -⟩ := hroom
    exact List.contains_iff_mem.mp hcores
  have hany : l.offer.cores.any (fun c => dieOf c == die && canTakeOne s serial l c) = true :=
    List.any_eq_true.mpr ⟨core, hmem, by simp [hdie, htake]⟩
  show execStealMessage serial die s = _
  simp [execStealMessage, h, ho, hlive, hask, hwait, hd, hany, modLaunch_of h]

theorem idles_stealMessage_own {s : State} {serial die : Nat} {l : Launch} (h : s.launch serial = some l) (ho : l.own die ≠ []) :
    idles s (.stealMessage serial die) := by
  show execStealMessage serial die s = _
  simp [execStealMessage, h, ho]

theorem idles_stealAnswer_unasked {s : State} {serial die : Nat} {l : Launch} (h : s.launch serial = some l)
    (hask : l.stealAsk ≠ some (1 - die)) : idles s (.stealAnswer serial die) := by
  show execStealAnswer serial die s = _
  simp [execStealAnswer, h, hask]

/-- The launch after its die `die` has answered the other's message. -/
def Launch.answered (l : Launch) (die : Nat) : Launch :=
  let h := Item.total (l.own die) / 2
  let r := takeTop h (l.own die).reverse
  if h = 0 then { l with stealAsk := none, stealWait := insertNat (1 - die) l.stealWait }
  else { (l.setOwn die r.1.reverse).setOwn (1 - die) (l.own (1 - die) ++ r.2.reverse) with stealAsk := none }

/-- STEAL_ANSWER of the die that was asked. -/
theorem exec_stealAnswer_of {s : State} {serial die : Nat} {l : Launch} (h : s.launch serial = some l) (hd : die < 2)
    (hask : l.stealAsk = some (1 - die)) :
    exec (.stealAnswer serial die) s = .next { s with launches := tput s.launches serial (l.answered die) } := by
  have hd' : ¬ 1 < die := by omega
  show execStealAnswer serial die s = _
  simp only [execStealAnswer, h, hask, foldl_count_eq_total, Nat.zero_add, bne_self_eq_false, Bool.false_or, decide_eq_true_eq, hd',
    if_false, modLaunch_of h, Launch.answered]

/-- A die that has one block or none gives none, and the other is told to wait. -/
theorem answered_few {l : Launch} {die : Nat} (h : Item.total (l.own die) / 2 = 0) :
    l.answered die = { l with stealAsk := none, stealWait := insertNat (1 - die) l.stealWait } := if_pos h

/-- A die that has more keeps its lower half, and the other has the rest. -/
theorem answered_half {l : Launch} {die : Nat} (hd : die < 2) (h : Item.total (l.own die) / 2 ≠ 0) :
    (l.answered die).stealAsk = none ∧
      (l.answered die).own die = (takeTop (Item.total (l.own die) / 2) (l.own die).reverse).1.reverse ∧
      (l.answered die).own (1 - die) =
        l.own (1 - die) ++ (takeTop (Item.total (l.own die) / 2) (l.own die).reverse).2.reverse := by
  rw [Launch.answered, if_neg h]
  refine ⟨rfl, ?_, own_setOwn_same _ _ _⟩
  exact (own_setOwn_other _ _ (by omega) (by omega)).trans (own_setOwn_same _ _ _)

/-- R299: what is handed over is the highest-indexed half; where that is nothing, the other die is to wait. -/
theorem answered_spec (l : Launch) {die : Nat} (hd : die < 2) :
    ∃ given, (l.answered die).stealAsk = none ∧ (l.answered die).own (1 - die) = l.own (1 - die) ++ given ∧
      Item.total given = Item.total (l.own die) / 2 ∧ Item.total ((l.answered die).own die) + Item.total given = Item.total (l.own die) ∧
      (Item.total given = 0 → (1 - die) ∈ (l.answered die).stealWait) ∧
      ∀ lo hi, l.own die = [.range lo hi] → lo < hi → given = [.range (hi + 1 - (hi + 1 - lo) / 2) hi] ∧
        (l.answered die).own die = [.range lo (hi - (hi + 1 - lo) / 2)] := by
  have htotal : ∀ lo hi, l.own die = [.range lo hi] → Item.total (l.own die) = hi + 1 - lo := fun lo hi ho => by
    simp [ho, Item.count]
  by_cases h0 : Item.total (l.own die) / 2 = 0
  · rw [answered_few h0]
    refine ⟨[], rfl, (List.append_nil _).symm, h0.symm, rfl, fun _ => mem_insertNat.mpr (.inl rfl), fun lo hi ho hlt => ?_⟩
    have := htotal lo hi ho
    omega
  · obtain ⟨hnone, hown, hgiven⟩ := answered_half hd h0
    obtain ⟨htake, hall⟩ := takeTop_total (Item.total (l.own die) / 2) (l.own die).reverse
    rw [Item.total_reverse] at htake hall
    refine ⟨_, hnone, hgiven, ?_, ?_, fun hz => ?_, fun lo hi ho hlt => ?_⟩
    · rw [Item.total_reverse, htake]
      omega
    · rw [hown, Item.total_reverse, Item.total_reverse, hall]
    · rw [Item.total_reverse] at hz
      omega
    · rw [htotal lo hi ho] at h0
      rw [hown, htotal lo hi ho, ho, List.reverse_singleton, takeTop_range h0 (by omega)]
      exact ⟨rfl, rfl⟩

/-! ### Resuming (R304, R318) -/

/-- A plan for one block names the first core that holds it and leads. -/
theorem plan_single (step : State → Nat → Nat → State) (ok : State → Nat → Nat → Bool) (lead : Nat → Bool) (b : Nat) (s : State) :
    plan step ok lead false [b] s = ((List.range 192).find? (fun c => ok s b c && lead c)).map (fun c => [(b, c)]) := by
  simp only [plan, Bool.false_or]
  induction List.range 192 with
  | nil => rfl
  | cons c cs ih =>
    rw [List.findSome?_cons, List.find?_cons, ih]
    cases ok s b c <;> cases lead c <;> rfl

theorem savedOf_alone {s : State} {serial block : Nat} {k : Kernel} {b : Block} (hb : s.block serial block = some b)
    (hs : b.place = .saved) (hg : groupCohorts k block = []) : savedOf s serial block k = [block] := by
  cases hm : b.matrixActed <;> simp [savedOf, groupOf, hg, hb, hs, hm]

theorem pairwise_membersOf (g : List Cohort) : (membersOf g).Pairwise (· < ·) :=
  List.foldlRecOn g _ List.Pairwise.nil fun _ h c _ => List.foldlRecOn c.ranges _ h fun _ h r _ =>
    List.foldlRecOn (List.range (r.2 + 1 - r.1)) _ h fun _ h i _ => pairwise_insertNat (r.1 + i) h

theorem nodup_groupOf (k : Kernel) (block : Nat) : (groupOf k block).Nodup := by
  simp only [groupOf]
  split_ifs
  · exact List.nodup_singleton _
  · exact (pairwise_membersOf _).imp (fun h => h.ne)

theorem nodup_savedOf (s : State) (serial block : Nat) (k : Kernel) : (savedOf s serial block k).Nodup := by
  have hms := (nodup_groupOf k block).filter (fun m => (s.block serial m).any (fun b => b.place == .saved))
  refine List.nodup_append.mpr ⟨hms.filter _, hms.filter _, ?_⟩
  rintro m hm _ hn rfl
  have hp := (List.mem_filter.mp hm).2
  have hq := (List.mem_filter.mp hn).2
  simp [hp] at hq

theorem block_of_mem_savedOf {s : State} {serial block m : Nat} {k : Kernel} (h : m ∈ savedOf s serial block k) :
    ∃ x, s.block serial m = some x := by
  have hs : (s.block serial m).any (fun b => b.place == .saved) = true := by
    rcases List.mem_append.mp h with h | h <;> exact (List.mem_filter.mp (List.mem_filter.mp h).1).2
  cases hx : s.block serial m with
  | none => simp [hx] at hs
  | some x => exact ⟨x, rfl⟩

/-- A saved block without a group resumes on the first core that allows it and can hold it. -/
theorem resumePlan_alone {s : State} {serial block core : Nat} {l : Launch} {b : Block} (h : s.launch serial = some l)
    (hb : s.block serial block = some b) (hs : b.place = .saved) (hg : groupCohorts l.offer.kernel block = [])
    (hf : (List.range 192).find? (fun c => turnAllows s serial l c && placeFor s l block b c && roomOn s serial l c) = some core) :
    resumePlan s serial l block (turnAllows s serial l) = some [(block, core)] := by
  rw [resumePlan, savedOf_alone hb hs hg, plan_single]
  simp only [h, hb]
  have hok : (fun c => turnOpen s serial l c && (placeFor s l block b c && roomOn s serial l c) && turnAllows s serial l c) =
      fun c => turnAllows s serial l c && placeFor s l block b c && roomOn s serial l c := by
    funext c
    cases ht : turnAllows s serial l c
    · simp
    · simp [turnOpen_of_turnAllows ht]
  rw [hok, hf, Option.map_some]

/-- RESUME of a saved block, the lowest of its group, as its plan says. -/
theorem exec_resume_of {s : State} {serial block : Nat} {l : Launch} {b : Block} {at_ : List (Nat × Nat)}
    (h : s.launch serial = some l) (hlt : block < 2 ^ 32) (hb : s.block serial block = some b) (hs : b.place = .saved)
    (hlive : l.live = true) (hlow : ∀ m ∈ savedOf s serial block l.offer.kernel, block ≤ m)
    (hord : resumeOrder s serial block l b = true) (hlost : lostBelow s serial l block = none)
    (hat : resumePlan s serial l block (turnAllows s serial l) = some at_) :
    exec (.resume serial block (at_.map (fun p => p.2))) s = .next (resumeOn serial s at_) := by
  have hany : (savedLows s serial l.offer.kernel).any (fun p => p.1 == block) = true :=
    List.any_eq_true.mpr ⟨(block, b), List.mem_filter.mpr ⟨mem_blocksOf hlt hb, by simpa [hs] using hlow⟩, by simp⟩
  show execResume serial block _ s = _
  simp [execResume, h, hb, hs, hlive, hany, hord, hlost, resumeAt, hat]

/-! ### The statement -/

/-- A lone block that starts: its state, its view, its waves, its launch, and all that stays. -/
theorem blockPlace_range {s : State} {serial die core lo hi : Nat} {l : Launch} {rest : List Item}
    (h : s.launch serial = some l) (hd : die < 2) (ho : l.own die = .range lo hi :: rest)
    (hm : ItemMayStart s serial die [core] l (.range lo hi)) (hroom : roomToStart s serial core l = true) :
    answers s (.blockPlace serial die [core]) (fun t =>
      t.block serial lo = some (freshBlock l core) ∧
      (∃ v, tfind t.views (setKey l core serial lo) = some v ∧ v.seen = [] ∧ l.offer.hpt ≤ v.start) ∧
      (∀ k, k < l.offer.waves → t.wave ⟨serial, lo, k⟩ = some (freshWave l s.tick)) ∧
      (∃ use placed, t.launch serial = some (Launch.leaves { l with use := use, placedOn := placed, st := .running } die
        ((Item.range lo hi).leave rest))) ∧
      (∀ k, k ≠ bkey serial lo → tfind t.blocks k = tfind s.blocks k) ∧ t.mem = s.mem ∧ t.hist = s.hist ∧ t.parts = s.parts) := by
  have hturn : turnAllows s serial l core = true := by simpa using hm.turn
  refine ⟨_, exec_blockPlace_of h hd ho hm (startAll_single h hroom hturn), ?_⟩
  obtain ⟨bs, ts, ls, use, e⟩ := startBlock_eq h lo core
  obtain ⟨v, hv, hseen, hstart, -⟩ := startView_view s (setKey l core serial lo) l.offer.hpt 0
  have hl : (startBlock s serial lo core l).launch serial =
      some { l with use := use, placedOn := tput l.placedOn core (tget 0 l.placedOn core + 1), st := .running } := by
    rw [e]; exact tfind_tput_same _ _ _
  rw [e] at hl ⊢
  exact ⟨tfind_tput_same _ _ _, ⟨v, hv, hseen, hstart⟩, fun k hk => tfind_putFreshWaves s serial lo l hk,
    ⟨_, _, launch_modLaunch hl _⟩, fun k hk => tfind_tput_other _ _ hk, rfl, rfl, rfl⟩

/-- Settles O47: each clause by what the shared operation leaves (`startBlock_eq`, `startAll_blocks`, `answered_half`,
`restoreOn_eq`, `resumeOn_blocks`). -/
theorem placementAndStealing : Obligations.PlacementAndStealing := by
  unfold Obligations.PlacementAndStealing
  intro s serial die core l h hd
  refine ⟨?range, ?group, ?dry, idles_stealMessage_own h, idles_stealAnswer_unasked h, ?answer, ?alone, ?together⟩
  case range =>
    intro lo hi rest ho hlive hdie hroom hturn hlost hsaved haff
    have hm : ItemMayStart s serial die [core] l (.range lo hi) :=
      ⟨hlive, rfl, fun _ _ _ c hc => List.mem_singleton.mp hc ▸ hdie, hlost, hsaved, haff, core, List.mem_singleton_self _, hturn⟩
    obtain ⟨t, ht, hb, hv, hw, ⟨use, placed, hl⟩, hrest⟩ := blockPlace_range h hd ho hm hroom
    refine ⟨t, ht, ⟨_, hb, rfl, rfl, hdie, rfl, rfl, rfl, rfl, rfl, rfl⟩, hv, fun k hk => ⟨_, hw k hk, ?_⟩,
      ⟨_, hl, leaves_st _ _ _, leaves_done _ _ _, leaves_traps _ _ _, own_setOwn_same _ _ _, ?_⟩, hrest⟩
    · refine ⟨?_, ?_, ?_, ?_, freshWave_readS l s.tick, freshWave_readV l s.tick, fun r hr => freshWave_readM l s.tick hr⟩ <;>
        rw [freshWave_eq]
    · exact own_setOwn_other { l with use := use, placedOn := placed, st := .running } _ hd rfl
  case group =>
    intro ms rest cores u ho hlive hlen hnd hlost hturn hsaved haff hu
    have hm : ItemMayStart s serial die cores l (.group ms) :=
      ⟨hlive, hlen.symm, fun _ _ e => (nomatch e), hlost, hsaved, haff, hturn⟩
    have hfst : (ms.zip cores).map (fun x => x.1) = ms := List.map_fst_zip hlen.ge
    obtain ⟨hmem, ⟨l', hl'⟩, -, hat⟩ := startAll_blocks h hu (hfst.symm ▸ hnd)
    refine ⟨_, exec_blockPlace_of h hd ho hm hu, fun x hx => ?_, ⟨_, launch_modLaunch hl' _, own_setOwn_same _ _ _⟩, hmem⟩
    obtain ⟨l'', hb⟩ := hat x hx
    exact ⟨_, hb, rfl, rfl, rfl, rfl⟩
  case dry =>
    exact fun ho => ⟨idles_blockPlace_dry h ho [core], fun hlive hask hwait hdie htake =>
      ⟨_, exec_stealMessage_of h hd ho hlive hask hwait hdie htake, tfind_tput_same _ _ _, fun n hn => tfind_tput_other _ _ hn, rfl⟩⟩
  case answer =>
    intro hask
    obtain ⟨given, hnone, hgiven, hhalf, hall, hwait, hrange⟩ := answered_spec l hd
    exact ⟨_, exec_stealAnswer_of h hd hask, l.answered die, given, tfind_tput_same _ _ _, hnone, hgiven, hhalf, hall, hwait, hrange, rfl⟩
  case alone =>
    intro block b hlt hb hs hg hlive hf hord hlost
    have hlow : ∀ m ∈ savedOf s serial block l.offer.kernel, block ≤ m := by
      simp [savedOf_alone hb hs hg]
    refine ⟨_, exec_resume_of h hlt hb hs hlive hlow hord hlost (resumePlan_alone h hb hs hg hf), ?_⟩
    obtain ⟨bs, ts, ls, hp, u, cc, hacc, e⟩ := restoreOn_eq h hb core
    obtain ⟨v, hv, hseen, -, hstart⟩ := startView_view s (setKey l core serial block) hp l.offer.hpt
    rw [show resumeOn serial s [(block, core)] = restoreOn serial s block core from rfl, e]
    exact ⟨tfind_tput_same _ _ _, fun x hx hu => tfind_putRestoredWaves hx hu,
      ⟨_, u, tfind_tput_same _ _ _, tfind_tput_same _ _ _, hacc⟩, ⟨v, hv, hseen, hstart⟩, fun k hk => tfind_tput_other _ _ hk, rfl, rfl⟩
  case together =>
    intro block b at_ hlt hb hs hlive hlow hord hlost hat
    have hfst : at_.map (fun p => p.1) = savedOf s serial block l.offer.kernel := plan_blocks hat
    have hx : ∀ p ∈ at_, ∃ x, s.block serial p.1 = some x := fun p hp =>
      block_of_mem_savedOf (hfst ▸ List.mem_map.mpr ⟨p, hp, rfl⟩)
    obtain ⟨hmem, -, hto⟩ := resumeOn_blocks h hx (hfst.symm ▸ nodup_savedOf s serial block l.offer.kernel)
    refine ⟨_, exec_resume_of h hlt hb hs hlive hlow hord hlost hat, hmem, hfst, fun p hp => ?_⟩
    obtain ⟨x, hpx⟩ := hx p hp
    exact ⟨x, hpx, hto p hp x hpx⟩

end Sys2Proof.Machine
end

section
/-! PROOF. The encoder and the decoder undo each other (03_encoding.md, R34 to R52). The fields of a packed word read back first, then
the codes, then the words of each format; one case split over the instructions puts them together. -/

namespace Sys2Proof

open BitVec (extractLsb'_append_eq_of_le extractLsb'_append_eq_of_add_le extractLsb'_eq_self)

/-! ### Packed fields read back

The widths of these concatenations are sums that `simp` folds to numerals, so that the library's lemmas about `++` are found by their
head symbol alone (`-index`). -/

theorem getLsbD_append_of_le {v w i : Nat} {x : BitVec v} {y : BitVec w} (h : w ≤ i) : (x ++ y).getLsbD i = x.getLsbD (i - w) := by
  rw [BitVec.getLsbD_append, if_neg h.not_gt]

theorem getLsbD_append_of_lt {v w i : Nat} {x : BitVec v} {y : BitVec w} (h : i < w) : (x ++ y).getLsbD i = y.getLsbD i := by
  rw [BitVec.getLsbD_append, if_pos h]

@[simp] theorem unpackRaw_pack (r : Raw) : unpackRaw r.pack = r := by
  simp -index (disch := decide) only [unpackRaw, Raw.pack, extractLsb'_append_eq_of_le, extractLsb'_append_eq_of_add_le,
    extractLsb'_eq_self, Nat.reduceSub]

@[simp] theorem unpackR_pack (b : RBody) : unpackR b.pack = b := by
  simp -index (disch := decide) only [unpackR, RBody.pack, extractLsb'_append_eq_of_le, extractLsb'_append_eq_of_add_le,
    extractLsb'_eq_self, Nat.reduceSub]

@[simp] theorem unpackI_pack (b : IBody) : unpackI b.pack = b := by
  simp -index (disch := decide) only [unpackI, IBody.pack, extractLsb'_append_eq_of_le, extractLsb'_append_eq_of_add_le,
    extractLsb'_eq_self, Nat.reduceSub]

@[simp] theorem unpackM_pack (b : MBody) : unpackM b.pack = b := by
  simp -index (disch := decide) only [unpackM, MBody.pack, extractLsb'_append_eq_of_le, extractLsb'_append_eq_of_add_le,
    extractLsb'_eq_self, Nat.reduceSub]

@[simp] theorem unpackC_pack (b : CBody) : unpackC b.pack = b := by
  simp -index (disch := decide) only [unpackC, CBody.pack, extractLsb'_append_eq_of_le, extractLsb'_append_eq_of_add_le,
    extractLsb'_eq_self, Nat.reduceSub]

@[simp] theorem halfOf_halfBits (x : PHalf) : halfOf (halfBits x) = x := by
  simp -index (disch := decide) only [halfOf, halfBits, extractLsb'_append_eq_of_le, extractLsb'_append_eq_of_add_le,
    extractLsb'_eq_self, Nat.reduceSub]

/-! ### Codes read back (Tables 3-3, 3-4, 5-5, 10-1; R38, R39, R44, R260) -/

@[simp] theorem tyOfCode_code (t : Ty) : tyOfCode t.code = some t := by cases t <;> rfl
@[simp] theorem rndOfCode_code (m : Rnd) : rndOfCode m.code = m := by cases m <;> rfl
@[simp] theorem formOfCode_code (f : Form) : formOfCode f.code = some f := by cases f <;> rfl
@[simp] theorem condOfCode_code (c : Cond) : condOfCode c.code = some c := by cases c <;> rfl
@[simp] theorem atomOfCode_code (o : AtomOp) : atomOfCode o.code = some o := by cases o <;> rfl
@[simp] theorem scopeOfCode_code (c : Scope) : scopeOfCode c.code = c := by cases c <;> rfl
@[simp] theorem sregOfCode_code (c : SReg) : sregOfCode c.code = some c := by cases c <;> rfl
@[simp] theorem lrselOfCode_code (c : LrSel) : lrselOfCode c.code = some c := by cases c <;> rfl
@[simp] theorem b1_getLsbD (b : Bool) : (b1 b).getLsbD 0 = b := by cases b <;> rfl

@[simp] theorem limOf32_lim32 (l : Lim 31) : limOf32 (lim32 l) = l := by
  cases l <;>
    simp -index (disch := decide) only [limOf32, lim32, getLsbD_append_of_le, extractLsb'_append_eq_of_add_le, extractLsb'_eq_self,
      Nat.reduceSub] <;> rfl

@[simp] theorem limOf16_lim16 (l : Lim 15) : limOf16 (lim16 l) = l := by
  cases l <;>
    simp -index (disch := decide) only [limOf16, lim16, getLsbD_append_of_le, extractLsb'_append_eq_of_add_le, extractLsb'_eq_self,
      Nat.reduceSub] <;> rfl

/-! ### Register format (Tables 3-1, 3-2) -/

@[simp] theorem hdrRaw_hdr (op : BitVec 7) (h : Hdr) (dst : BitVec 8) (body : BitVec 40) : (hdrRaw op h dst body).hdr = h := by
  simp only [hdrRaw, Raw.hdr, b1_getLsbD]

section
variable (op : BitVec 7) (h : Hdr) (dst sa sb sc : BitVec 8) (keep : BitVec 3) (sub : BitVec 5) (mods : BitVec 8)

@[simp] theorem regRaw_hdr : (regRaw op h dst sa sb sc keep sub mods).hdr = h := hdrRaw_hdr _ _ _ _
@[simp] theorem regRaw_dst : (regRaw op h dst sa sb sc keep sub mods).dst = dst := rfl
@[simp] theorem unpackR_regRaw : unpackR (regRaw op h dst sa sb sc keep sub mods).body =
    { sa := sa, sb := sb, sc := sc, keep := keep, sub := sub, mods := mods } := unpackR_pack _
end

section
variable (op : BitVec 7) (sub : BitVec 5) (hi : BitVec 2) (l : Lane)

@[simp] theorem unpackR_laneRaw : unpackR (laneRaw op sub hi l).body =
    { sa := l.sa, sb := l.sb, sc := l.sc, keep := l.keep, sub := sub, mods := l.form.code ++ hi ++ l.ty.code } := unpackR_pack _

@[simp] theorem laneRaw_hdr : (laneRaw op sub hi l).hdr = l.h := hdrRaw_hdr _ _ _ _

@[simp] theorem laneOf_laneRaw : laneOf (laneRaw op sub hi l) = some l := by
  simp -index (disch := decide) only [laneOf, unpackR_laneRaw, laneRaw_hdr, extractLsb'_append_eq_of_le,
    extractLsb'_append_eq_of_add_le, extractLsb'_eq_self, Nat.reduceSub, formOfCode_code, tyOfCode_code]
  rfl

@[simp] theorem subOf_laneRaw : subOf (laneRaw op sub hi l) = sub := by rw [subOf, unpackR_laneRaw]

/-- Rounding in SUB[12:11], flushing in MODS[5:4] (R39, Table 3-4). -/
theorem fmodeOf_laneRaw {m : FMode} (hs : sub.extractLsb' 3 2 = m.rnd.code) : fmodeOf (laneRaw op sub m.code l) = m := by
  simp -index (disch := decide) only [fmodeOf, unpackR_laneRaw, hs, rndOfCode_code, FMode.code, getLsbD_append_of_le,
    getLsbD_append_of_lt, Nat.reduceSub, b1_getLsbD]

/-- OP 0x29 has no rounding field (R132). -/
theorem fmodeFn_laneRaw {m : FMode} (hm : m.rnd = .rne) : fmodeFn (laneRaw op sub m.code l) = m := by
  simp -index (disch := decide) only [fmodeFn, fmodeOf, unpackR_laneRaw, FMode.code, getLsbD_append_of_le,
    getLsbD_append_of_lt, Nat.reduceSub, b1_getLsbD, ← hm]

@[simp] theorem cvtOf_laneRaw (st : Ty) (rm : Rnd) (k : Ty → Rnd → Lane → Instr) :
    cvtOf (laneRaw op (st.code ++ 0#1) rm.code l) k = some (k st rm l) := by
  simp -index (disch := decide) only [cvtOf, laneOf_laneRaw, unpackR_laneRaw, extractLsb'_append_eq_of_le,
    extractLsb'_append_eq_of_add_le, extractLsb'_eq_self, Nat.reduceSub, tyOfCode_code, rndOfCode_code]

@[simp] theorem atomWordOf_laneRaw (o : AtomOp) (k : AtomOp → Lane → Instr) :
    atomWordOf (laneRaw op (0#1 ++ o.code) hi l) k = some (k o l) := by
  simp -index (disch := decide) only [atomWordOf, laneOf_laneRaw, subOf_laneRaw, extractLsb'_append_eq_of_add_le,
    extractLsb'_eq_self, atomOfCode_code]
end

/-- SUB of a floating-point word whose low bits its entry fixes. -/
theorem rnd_of_sub (m : FMode) (k : BitVec 3) : (m.rnd.code ++ k).extractLsb' 3 2 = m.rnd.code := by
  simp -index (disch := decide) only [extractLsb'_append_eq_of_le, extractLsb'_eq_self, Nat.reduceSub]

/-- The class mask of `FCLASS` lies in SUB[9:8] and SC. -/
theorem fclass_bits (k : BitVec 10) : k.extractLsb' 8 2 ++ k.extractLsb' 0 8 = k :=
  (BitVec.extractLsb'_append_extractLsb'_eq_extractLsb' rfl).trans extractLsb'_eq_self

/-! ### The other formats (R41 to R43) -/

section
variable (op : BitVec 7) (h : Hdr) (dst sa sb : BitVec 8)

@[simp] theorem immRaw_hdr (imm : BitVec 32) : (immRaw op h dst sa imm).hdr = h := hdrRaw_hdr _ _ _ _
@[simp] theorem immRaw_dst (imm : BitVec 32) : (immRaw op h dst sa imm).dst = dst := rfl
@[simp] theorem unpackI_immRaw (imm : BitVec 32) : unpackI (immRaw op h dst sa imm).body = { sa := sa, imm := imm } := unpackI_pack _

@[simp] theorem engRaw_hdr (off : BitVec 24) : (engRaw op h dst sa sb off).hdr = h := hdrRaw_hdr _ _ _ _
@[simp] theorem engRaw_dst (off : BitVec 24) : (engRaw op h dst sa sb off).dst = dst := rfl
@[simp] theorem unpackM_engRaw (off : BitVec 24) : unpackM (engRaw op h dst sa sb off).body = { sa := sa, sb := sb, off := off } :=
  unpackM_pack _

@[simp] theorem ctlRaw_dst (tgt : BitVec 24) (aux : BitVec 16) : (ctlRaw op dst tgt aux).dst = dst := rfl
@[simp] theorem unpackC_ctlRaw (tgt : BitVec 24) (aux : BitVec 16) : unpackC (ctlRaw op dst tgt aux).body = { tgt := tgt, aux := aux } :=
  unpackC_pack _
end

@[simp] theorem memOf_memRaw (op : BitVec 7) (var : BitVec 2) (m : Mem) : memOf (memRaw op var m) = some m := by
  simp -index (disch := decide) only [memOf, memRaw, unpackM_engRaw, engRaw_hdr, engRaw_dst, extractLsb'_append_eq_of_add_le,
    extractLsb'_eq_self, getLsbD_append_of_le, getLsbD_append_of_lt, Nat.reduceSub, tyOfCode_code, b1_getLsbD]

@[simp] theorem copyOf_copyRaw (op : BitVec 7) (out : BitVec 1) (a : CpyArgs) : copyOf (copyRaw op out a) = a := by
  simp -index (disch := decide) only [copyOf, copyRaw, unpackM_engRaw, engRaw_hdr, engRaw_dst, extractLsb'_append_eq_of_le,
    extractLsb'_append_eq_of_add_le, extractLsb'_eq_self, Nat.reduceSub, limOf16_lim16]

/-- The direction bit of `CPYR` (Table 14-3). -/
theorem copyRaw_dst_getLsbD_7 (op : BitVec 7) (out : BitVec 1) (a : CpyArgs) : (copyRaw op out a).dst.getLsbD 7 = out.getLsbD 0 := by
  simp -index (disch := decide) only [copyRaw, engRaw_dst, getLsbD_append_of_le, Nat.reduceSub]

/-! ### What the encoder drops, a well-formed word does not hold -/

theorem one_sc {ts : List Ty} {fs : List Form} {l : Lane} (h : WellFormed.one ts fs l = true) : l.sc = 0 := by
  simp only [WellFormed.one, Bool.and_eq_true, beq_iff_eq] at h
  obtain ⟨⟨-, hsc⟩, -⟩ := h
  exact hsc

theorem func_rnd {m : FMode} {l : Lane} (h : WellFormed.func m l = true) : m.rnd = .rne := by
  simp only [WellFormed.func, Bool.and_eq_true, beq_iff_eq] at h
  obtain ⟨-, hrnd⟩ := h
  exact hrnd

theorem withSc_zero {l : Lane} (h : l.sc = 0) : { l with sc := 0 } = l := by rw [← h]

/-! ### The fields of a well-formed instruction are read as that instruction -/

/-- In each case the opcode selects the parser's arm, `change` names it where it reads a lane or a group, and the lemmas above read
its fields. -/
theorem parseFull_rawOf {i : Instr} {r : Raw} (hw : i.wellFormed = true) (h : rawOf i = some r) : parseFull r = some i := by
  cases i
  case iadd | isub | iaddc | isadd | imul | imulh | imad | imin | imax | iabs | ineg | and | or | xor | not | shl | shr | shra | rot |
      popc | clz | brev | bfx | bfi | sel | mov | nhash | cass | casg =>
    cases h
    exact congrArg (Option.map _) (laneOf_laneRaw _ _ _ _)
  case icmp c l =>
    cases h
    change (match condOfCode ((unpackR (laneRaw _ _ _ l).body).sub.extractLsb' 2 3) with
      | some c => Option.map _ (laneOf _)
      | none => none) = _
    simp -index (disch := decide) only [unpackR_laneRaw, extractLsb'_append_eq_of_le, extractLsb'_eq_self, Nat.reduceSub,
      condOfCode_code, laneOf_laneRaw, Option.map_some]
  case fadd m l | fsub m l | fmul m l | ffma m l | fmin m l | fmax m l | frint m l | fdiv m l | fsqrt m l | fdot2 m l =>
    cases h
    refine (congrArg (Option.map _) (laneOf_laneRaw _ _ _ _)).trans ?_
    rw [Option.map_some, fmodeOf_laneRaw _ _ _ (rnd_of_sub m 0#3)]
  case fcmp c m l =>
    cases h
    change (match condOfCode ((unpackR (laneRaw _ _ _ l).body).sub.extractLsb' 0 3) with
      | some c => Option.map _ (laneOf _)
      | none => none) = _
    simp -index (disch := decide) only [unpackR_laneRaw, extractLsb'_append_eq_of_add_le, extractLsb'_eq_self,
      condOfCode_code, laneOf_laneRaw, Option.map_some, fmodeOf_laneRaw _ _ _ (rnd_of_sub m c.code)]
  case fclass k m l =>
    cases h
    simp only [Instr.wellFormed, Bool.and_eq_true] at hw
    obtain ⟨⟨⟨⟨hone, -⟩, -⟩, -⟩, -⟩ := hw
    have hs : (m.rnd.code ++ 0#1 ++ k.extractLsb' 8 2).extractLsb' 3 2 = m.rnd.code := by
      simp -index (disch := decide) only [extractLsb'_append_eq_of_le, extractLsb'_eq_self, Nat.reduceSub]
    change Option.map _ (laneOf _) = _
    rw [laneOf_laneRaw]
    simp -index (disch := decide) only [Option.map_some, unpackR_laneRaw, extractLsb'_append_eq_of_add_le, extractLsb'_eq_self,
      fmodeOf_laneRaw _ _ _ hs, fclass_bits, withSc_zero (one_sc hone)]
  case exp2 | log2 | rcp | rsq | sin | cos | tanh | sigm | erf =>
    cases h
    change Option.bind (laneOf _) (parseFn _) = _
    rw [laneOf_laneRaw, Option.bind_some, parseFn, subOf_laneRaw, fmodeFn_laneRaw _ _ _ (func_rnd hw)]
    rfl
  case cvt | pack | unpk | qnt | dqnt => cases h; exact cvtOf_laneRaw _ _ _ _ _
  case shfl | shflx | bcast | vtos | stov =>
    cases h
    change Option.bind (laneOf _) (parseCross _) = _
    rw [laneOf_laneRaw, Option.bind_some, parseCross, subOf_laneRaw]
    rfl
  case redv o l | scanv o l =>
    cases h
    simp only [Instr.wellFormed, Bool.and_eq_true] at hw
    obtain ⟨⟨⟨hone, -⟩, -⟩, -⟩ := hw
    change Option.bind (laneOf _) (parseCross _) = _
    rw [laneOf_laneRaw, Option.bind_some, parseCross, subOf_laneRaw]
    change Option.map _ (atomOfCode _) = _
    simp -index (disch := decide) only [extractLsb'_append_eq_of_add_le, extractLsb'_eq_self, atomOfCode_code, Option.map_some,
      withSc_zero (one_sc hone)]
  case mand | mor | mxor | mnot | mpop | many | mall =>
    cases h
    change Option.bind (laneOf _) (parseMask _) = _
    rw [laneOf_laneRaw, Option.bind_some, parseMask, subOf_laneRaw]
    rfl
  case srd | swr =>
    cases h
    change parseSreg _ (unpackR _) = _
    simp -index (disch := decide) only [parseSreg, unpackR_regRaw, regRaw_hdr, extractLsb'_append_eq_of_add_le, extractLsb'_eq_self,
      getLsbD_append_of_le, getLsbD_append_of_lt, Nat.reduceSub, sregOfCode_code, b1_getLsbD]
    rfl
  case ats | atg | redg => cases h; exact atomWordOf_laneRaw _ _ _ _ _
  case feset | feclr | feqry =>
    cases h
    change parseFe _ (unpackR _) = _
    rw [unpackR_regRaw]
    refine congrArg some ?_
    simp -index (disch := decide) only [regRaw_hdr, regRaw_dst, getLsbD_append_of_le, getLsbD_append_of_lt, Nat.reduceSub, b1_getLsbD]
  case phase | publ | rfsh | sysrel =>
    cases h
    change parseOrder _ (unpackR _) = _
    rw [unpackR_regRaw]
    exact congrArg some (congrArg _ (regRaw_hdr _ _ _ _ _ _ _ _ _))
  case fence system hd =>
    cases h
    change parseOrder _ (unpackR _) = _
    rw [unpackR_regRaw]
    cases system <;> exact congrArg some (congrArg _ (regRaw_hdr _ _ _ _ _ _ _ _ _))
  case mqma | claim =>
    cases h
    refine congrArg some ?_
    simp -index (disch := decide) only [unpackR_regRaw, regRaw_hdr, regRaw_dst, extractLsb'_append_eq_of_le,
      extractLsb'_append_eq_of_add_le, extractLsb'_eq_self, getLsbD_append_of_le, Nat.reduceSub, b1_getLsbD]
  case mcrd | mcwr | mcz =>
    cases h
    change Option.map _ (tyOfCode _) = _
    simp -index (disch := decide) only [unpackR_regRaw, regRaw_hdr, regRaw_dst, tyOfCode_code, Option.map_some,
      extractLsb'_append_eq_of_add_le, extractLsb'_eq_self, getLsbD_append_of_le, Nat.reduceSub, b1_getLsbD]
  case lrchk =>
    cases h
    change Option.map _ (lrselOfCode _) = _
    simp only [unpackR_regRaw, regRaw_hdr, regRaw_dst, lrselOfCode_code, Option.map_some]
  case movi | rcede | rtake | qinit | qpush | qpop | rvinit | rvarr | rvexp | rvwait | rvtest | tlwait | tlread | clwait | fulfil |
      abandon | clrel | clinv | swgo | swait | swend | swake | sctxr | sctxw | snbr | swqry =>
    cases h
    refine congrArg some ?_
    simp -index (disch := decide) only [immRaw_hdr, immRaw_dst, unpackI_immRaw, limOf32_lim32, scopeOfCode_code, b1_getLsbD,
      extractLsb'_append_eq_of_le, extractLsb'_append_eq_of_add_le, extractLsb'_eq_self, getLsbD_append_of_le, getLsbD_append_of_lt,
      Nat.reduceSub]
  case lds | sts | dlds | dsts | stg | ldh | sth | pfg => cases h; exact congrArg (Option.map _) (memOf_memRaw _ _ _)
  case ldg home m =>
    cases h
    change Option.map _ (memOf _) = _
    rw [memOf_memRaw]
    simp -index (disch := decide) only [memRaw, unpackM_engRaw, Option.map_some, getLsbD_append_of_le, getLsbD_append_of_lt,
      Nat.reduceSub, b1_getLsbD]
  case spill | fill | mbld | mbcast =>
    cases h
    refine congrArg some ?_
    simp -index (disch := decide) only [engRaw_hdr, engRaw_dst, unpackM_engRaw, extractLsb'_append_eq_of_le,
      extractLsb'_append_eq_of_add_le, extractLsb'_eq_self, getLsbD_append_of_le, getLsbD_append_of_lt, Nat.reduceSub, b1_getLsbD]
  case cpy | cpyx => cases h; exact congrArg some (congrArg _ (copyOf_copyRaw _ _ _))
  case cpyrIn a =>
    cases h
    change some (if (copyRaw _ 0 a).dst.getLsbD 7 then _ else Instr.cpyrIn (copyOf _)) = _
    rw [copyOf_copyRaw, if_neg (by rw [copyRaw_dst_getLsbD_7]; decide)]
  case cpyrOut a =>
    cases h
    change some (if (copyRaw _ 1 a).dst.getLsbD 7 then Instr.cpyrOut (copyOf _) else _) = _
    rw [copyOf_copyRaw, if_pos (by rw [copyRaw_dst_getLsbD_7]; decide)]
  case bra | brc | brd | join | loopb | loopn | loopx | call | callt | ret | exit | yield | nop | trap | brk | yieldc =>
    cases h
    refine congrArg some ?_
    simp -index (disch := decide) only [ctlRaw_dst, unpackC_ctlRaw, limOf16_lim16, extractLsb'_append_eq_of_le,
      extractLsb'_append_eq_of_add_le, extractLsb'_eq_self, getLsbD_append_of_le, getLsbD_append_of_lt, Nat.reduceSub, b1_getLsbD]
  all_goals cases h

/-! ### Words -/

/-- Bit 63 tells a full word from a paired one (R34). -/
theorem parse_pack (r : Raw) : parse r.pack = parseFull r := by
  have h63 : r.pack.getLsbD 63 = false := by
    simp -index (disch := decide) only [Raw.pack, getLsbD_append_of_le, Nat.reduceSub]; rfl
  rw [parse, h63, unpackRaw_pack]
  rfl

theorem parse_paired (x y : PHalf) : parse (1#1 ++ halfBits x ++ halfBits y ++ 0#1) = some (.pairedWord x y) := by
  have h63 : (1#1 ++ halfBits x ++ halfBits y ++ 0#1).getLsbD 63 = true := by
    simp -index (disch := decide) only [getLsbD_append_of_le, Nat.reduceSub]; rfl
  rw [parse, if_pos h63]
  simp -index (disch := decide) only [extractLsb'_append_eq_of_le, extractLsb'_append_eq_of_add_le, extractLsb'_eq_self, Nat.reduceSub,
    halfOf_halfBits]

theorem parse_of_encode {i : Instr} {w : BitVec 64} (hw : i.wellFormed = true) (h : encode i = some w) : parse w = some i := by
  unfold encode at h
  split at h
  · cases h; exact parse_paired _ _
  · obtain ⟨r, hr, rfl⟩ := Option.map_eq_some_iff.mp h
    rw [parse_pack, parseFull_rawOf hw hr]

/-- A word decodes to exactly the well-formed instruction that it encodes (R37, R60). -/
theorem decode_eq_some_iff {i : Instr} {w : BitVec 64} : decode w = some i ↔ i.wellFormed = true ∧ encode i = some w := by
  constructor
  · intro h
    unfold decode at h
    split at h
    · split_ifs at h with hc
      cases h
      simpa using hc
    · cases h
  · rintro ⟨hw, h⟩
    simp [decode, parse_of_encode hw h, hw, h]

/-- The instruction words, and they alone, have a word. -/
theorem encode_isSome (i : Instr) : (encode i).isSome = i.isWord := by cases i <;> rfl

/-- Settles O56: `parse` reads back the fields that `encode` packs, and `decode` accepts a word for that instruction alone. -/
theorem decodeUndoesEncode : Obligations.DecodeUndoesEncode := by
  refine ⟨fun i hw hi => ?_, fun i hi => ?_, fun i w hw he => decode_eq_some_iff.mpr ⟨hw, he⟩, fun i w => decode_eq_some_iff.mp⟩
  · obtain ⟨w, he⟩ := Option.isSome_iff_exists.mp ((encode_isSome i).trans hi)
    exact ⟨w, he, decode_eq_some_iff.mpr ⟨hw, he⟩⟩
  · rw [← Option.isNone_iff_eq_none, ← Option.not_isSome, encode_isSome, hi]; rfl

end Sys2Proof
end

section
/-! PROOF. Words that the spec writes out (R37, R60), and the state after reset. -/

namespace Sys2Proof.Machine

/-- Settles O57: each word is the encoding of the well-formed instruction named; the other two are no instruction's. -/
theorem decodesSpecWords : Obligations.DecodesSpecWords := by
  refine ⟨?_, ?_, ?_, ?_, ?_, ?_, ?nhash_sc, ?zero⟩
  case nhash_sc => decide
  case zero => decide
  all_goals exact decode_eq_some_iff.mpr ⟨by decide, by decide⟩

/-- Settles O60: after reset every table is empty, so that each lookup reads the default of its kind. -/
theorem resetState : Obligations.ResetState :=
  ⟨reset_inv, rfl, rfl, rfl, fun _ => rfl, fun _ => rfl, fun _ => ⟨rfl, rfl, rfl, rfl⟩, fun _ => rfl, fun _ => ⟨rfl, rfl⟩,
    fun _ => rfl, rfl, rfl, rfl⟩

end Sys2Proof.Machine
end

section
/-! PROOF. The paired word (R47 to R51): each half writes its own destination, and both read the state before the word. -/

namespace Sys2Proof.Machine

/-! ### What one half writes -/

/-- No half operation gives a 64-bit value (Table 3-8). -/
theorem halfTy_wide (op : Nat) : (halfTy op).wide = false := by
  unfold halfTy
  split_ifs <;> rfl

/-- The value that a half gives in a lane: its operation on DST and on SRC or its immediate (R48, R65). -/
def halfVal (c : Ctx) (x : PHalf) (l : Nat) : Nat :=
  let sc := x.sub.getLsbD 5
  halfOp x.op.toNat (halfMode x) (readType c.w .n32 sc x.dst.toNat l)
    (if halfImm x.op.toNat then immOf x.op.toNat x.src else readType c.w .n32 (sc || x.sub.getLsbD 4) x.src.toNat l)

theorem op_toNat_eq_zero {x : PHalf} : x.op.toNat = 0 ↔ x.op = 0 := by
  rw [← BitVec.toNat_inj]; rfl

theorem halfWrites_nop (c : Ctx) {x : PHalf} (h : x.op = 0) : halfWrites c x = [] := by
  simp [halfWrites, h]

theorem halfWrites_vec (c : Ctx) {x : PHalf} (h : x.op ≠ 0) (hs : x.sub.getLsbD 5 = false) :
    halfWrites c x = (lanesOf c.w.width (halfMask c x)).flatMap (fun l =>
      typeWrites (halfTy x.op.toNat) false x.dst.toNat l (halfVal c x l)) := by
  simp only [halfWrites, op_toNat_eq_zero, h, hs, halfVal, if_false, Bool.false_eq_true]

theorem halfWrites_scal (c : Ctx) {x : PHalf} (h : x.op ≠ 0) (hs : x.sub.getLsbD 5 = true) :
    halfWrites c x = if halfMask c x ≠ 0 then [.s x.dst.toNat (extend (halfTy x.op.toNat) (halfVal c x 0))] else [] := by
  simp only [halfWrites, op_toNat_eq_zero, h, hs, halfVal, if_false, if_true, Bool.true_or, typeWrites_scal, bne_iff_ne]
  split_ifs <;> rfl

/-- The lanes of its vector register that a half writes, or its scalar register. -/
def halfVec (c : Ctx) (x : PHalf) (r l : Nat) : Prop :=
  x.op ≠ 0 ∧ x.sub.getLsbD 5 = false ∧ r = x.dst.toNat ∧ l ∈ lanesOf c.w.width (halfMask c x)
def halfScal (c : Ctx) (x : PHalf) (r : Nat) : Prop :=
  x.op ≠ 0 ∧ x.sub.getLsbD 5 = true ∧ r = x.dst.toNat ∧ halfMask c x ≠ 0

theorem halfWrites_readV {c : Ctx} {x : PHalf} {r l : Nat} (w : Wave) (hl : l < 64) (hv : halfVec c x r l) :
    (w.applyWrites (halfWrites c x)).readV r l = (extend (halfTy x.op.toNat) (halfVal c x l)).extractLsb' 0 32 := by
  obtain ⟨h0, hs, hr, hm⟩ := hv
  rw [halfWrites_vec c h0 hs, vecWrites_readV _ _ _ _ _ (fun _ => lanesOf_lt) _ _ hl, if_pos ⟨hm, hr⟩]

theorem halfWrites_readV_other {c : Ctx} {x : PHalf} {r l : Nat} (w : Wave) (hl : l < 64) (hv : ¬ halfVec c x r l) :
    (w.applyWrites (halfWrites c x)).readV r l = w.readV r l := by
  by_cases h0 : x.op = 0
  · rw [halfWrites_nop c h0]; rfl
  cases hs : x.sub.getLsbD 5
  · rw [halfWrites_vec c h0 hs, vecWrites_readV _ _ _ _ _ (fun _ => lanesOf_lt) _ _ hl,
      if_neg (fun h => hv ⟨h0, hs, h.2, h.1⟩), if_neg (fun h => by simp [halfTy_wide] at h)]
  · rw [halfWrites_scal c h0 hs]
    split_ifs <;> rfl

theorem halfWrites_readS {c : Ctx} {x : PHalf} {r : Nat} (w : Wave) (hv : halfScal c x r) :
    (w.applyWrites (halfWrites c x)).readS r = extend (halfTy x.op.toNat) (halfVal c x 0) := by
  obtain ⟨h0, hs, rfl, hm⟩ := hv
  rw [halfWrites_scal c h0 hs, if_pos hm]
  exact (readS_writeS _ _ _ _).trans (if_pos rfl)

theorem halfWrites_readS_other {c : Ctx} {x : PHalf} {r : Nat} (w : Wave) (hv : ¬ halfScal c x r) :
    (w.applyWrites (halfWrites c x)).readS r = w.readS r := by
  by_cases h0 : x.op = 0
  · rw [halfWrites_nop c h0]; rfl
  cases hs : x.sub.getLsbD 5
  · rw [halfWrites_vec c h0 hs, vecWrites_readS]
  · rw [halfWrites_scal c h0 hs]
    split_ifs with hm
    · exact (readS_writeS _ _ _ _).trans (if_neg (fun hr => hv ⟨h0, hs, hr, hm⟩))
    · rfl

theorem halfWrites_readM (c : Ctx) (x : PHalf) (w : Wave) (r : Nat) : (w.applyWrites (halfWrites c x)).readM r = w.readM r := by
  by_cases h : x.op = 0
  · rw [halfWrites_nop c h]; rfl
  cases hs : x.sub.getLsbD 5
  · rw [halfWrites_vec c h hs, vecWrites_readM]
  · rw [halfWrites_scal c h hs]
    split_ifs <;> rfl

/-! ### The two halves -/

section
variable {c : Ctx} {x y : PHalf} (h : x.op = 0 ∨ y.op = 0 ∨ x.sub.getLsbD 5 ≠ y.sub.getLsbD 5 ∨ x.dst ≠ y.dst)
include h

/-- R51 keeps the destinations of the halves apart. -/
theorem half_dst_ne (hx : x.op ≠ 0) (hy : y.op ≠ 0) (hs : x.sub.getLsbD 5 = y.sub.getLsbD 5) : x.dst.toNat ≠ y.dst.toNat := fun hd => by
  rcases h with h | h | h | h
  · exact hx h
  · exact hy h
  · exact h hs
  · exact h (BitVec.eq_of_toNat_eq hd)

theorem halfVec_alone {r l : Nat} (hx : halfVec c x r l) : ¬ halfVec c y r l := by
  obtain ⟨hx, hxs, rfl, -⟩ := hx
  rintro ⟨hy, hys, hd, -⟩
  exact half_dst_ne h hx hy (hxs.trans hys.symm) hd

theorem halfScal_alone {r : Nat} (hx : halfScal c x r) : ¬ halfScal c y r := by
  obtain ⟨hx, hxs, rfl, -⟩ := hx
  rintro ⟨hy, hys, hd, -⟩
  exact half_dst_ne h hx hy (hxs.trans hys.symm) hd
end

theorem readType_n32 (w : Wave) (sc : Bool) (r l : Nat) :
    readType w .n32 sc r l = if sc = true then (w.readS r).toNat % 2 ^ 32 else (w.readV r l).toNat := by
  cases sc
  · exact Nat.mod_eq_of_lt (w.readV r l).isLt
  · rfl

/-- The statement's sources are the ones that `ReadType` gives (R48, R65). -/
theorem halfVal_eq (c : Ctx) (x : PHalf) (l : Nat) : halfVal c x l = halfOp x.op.toNat (halfMode x)
    (if x.sub.getLsbD 5 = true then (c.w.readS x.dst.toNat).toNat % 2 ^ 32 else (c.w.readV x.dst.toNat l).toNat)
    (if 0x35 ≤ x.op.toNat then immOf x.op.toNat x.src
     else if x.sub.getLsbD 5 = true ∨ x.sub.getLsbD 4 = true then (c.w.readS x.src.toNat).toNat % 2 ^ 32
     else (c.w.readV x.src.toNat l).toNat) := by
  simp only [halfVal, halfImm, readType_n32, decide_eq_true_eq, Bool.or_eq_true]

/-- Settles O11: the writes of the second half fall on the wave that the first has written; the destinations differ, and the values
of both come from the state before the word. -/
theorem pairedHalves : Obligations.PairedHalves := by
  intro s c x y hc hdst
  simp only [← halfVal_eq]
  refine leavesWave_write hc (ws := halfWrites c x ++ halfWrites c y) (issue_of hc _) ⟨past_write _ _, ?mask, ?vec, ?scal⟩
  all_goals rw [applyWrites_append]
  case mask =>
    intro r
    rw [advance_readM, halfWrites_readM, halfWrites_readM]
  case vec =>
    intro r l hl
    simp only [advance_readV]
    refine ⟨fun hx => ?_, fun hy => halfWrites_readV _ hl hy, fun hx hy => ?_⟩
    · exact (halfWrites_readV_other _ hl (halfVec_alone hdst hx)).trans (halfWrites_readV _ hl hx)
    · exact (halfWrites_readV_other _ hl hy).trans (halfWrites_readV_other _ hl hx)
  case scal =>
    intro r
    simp only [advance_readS]
    refine ⟨fun hx => ?_, fun hy => halfWrites_readS _ hy, fun hx hy => ?_⟩
    · exact (halfWrites_readS_other _ (halfScal_alone hdst hx)).trans (halfWrites_readS _ hx)
    · exact (halfWrites_readS_other _ hy).trans (halfWrites_readS_other _ hx)

end Sys2Proof.Machine
end

section
/-! PROOF. One step of the machine (R34, R55, R61, R88 to R90, R113, R211): the move that it makes, the issue's own accounting, and what is
noted after the move. -/

namespace Sys2Proof.Machine

/-! ### Tables whose entries change within a relation -/

/-- Every entry of `t` stands in `u`, changed no further than `R` allows. -/
def kept {α : Type} (R : α → α → Prop) (t u : Tab α) : Prop := ∀ k x, tfind t k = some x → ∃ y, tfind u k = some y ∧ R x y

section
variable {α : Type} {R : α → α → Prop}

theorem kept_refl (hR : ∀ x, R x x) (t : Tab α) : kept R t t := fun _ x h => ⟨x, h, hR x⟩

theorem kept_trans (hR : ∀ x y z, R x y → R y z → R x z) {t u v : Tab α} (h : kept R t u) (h' : kept R u v) : kept R t v := by
  intro k x hx
  obtain ⟨y, hy, hxy⟩ := h k x hx
  obtain ⟨z, hz, hyz⟩ := h' k y hy
  exact ⟨z, hz, hR x y z hxy hyz⟩

theorem tfind_tmod_same (t : Tab α) (k : Nat) (f : α → α) : tfind (tmod t k f) k = (tfind t k).map f := by
  cases h : tfind t k with
  | none => rw [tmod_of_none f h, h]; rfl
  | some v => rw [tmod_of_find f h, tfind_tput_same]; rfl

theorem tfind_tmod_other (t : Tab α) {k j : Nat} (f : α → α) (h : j ≠ k) : tfind (tmod t k f) j = tfind t j := by
  cases hk : tfind t k with
  | none => rw [tmod_of_none f hk]
  | some v => rw [tmod_of_find f hk, tfind_tput_other _ _ h]

theorem kept_tmod (hR : ∀ x, R x x) {f : α → α} (hf : ∀ x, R x (f x)) (t : Tab α) (k : Nat) : kept R t (tmod t k f) := by
  intro j x hx
  by_cases h : j = k
  · subst h; exact ⟨f x, by rw [tfind_tmod_same, hx]; rfl, hf x⟩
  · exact ⟨x, by rw [tfind_tmod_other t f h, hx], hR x⟩
end

/-! ### A run of changes to waves -/

section
variable {ι : Type} (id : ι → WaveId) (f : ι → Wave → Wave) (xs : List ι) (s : State)

theorem foldl_modWave_rest : { xs.foldl (fun s x => s.modWave (id x) (f x)) s with waves := s.waves } = s :=
  List.foldlRecOn (motive := fun t : State => { t with waves := s.waves } = s) _ _ rfl (fun _ h _ _ => h)

theorem foldl_modWave_other {k : Nat} (hk : ∀ x ∈ xs, k ≠ wkey (id x)) :
    tfind (xs.foldl (fun s x => s.modWave (id x) (f x)) s).waves k = tfind s.waves k :=
  List.foldlRecOn (motive := fun t : State => tfind t.waves k = tfind s.waves k) _ _ rfl
    (fun _ h x hx => (tfind_tmod_other _ _ (hk x hx)).trans h)

theorem foldl_modWave_kept {R : Wave → Wave → Prop} (hr : ∀ x, R x x) (ht : ∀ x y z, R x y → R y z → R x z)
    (hf : ∀ i x, R x (f i x)) : kept R s.waves (xs.foldl (fun s x => s.modWave (id x) (f x)) s).waves :=
  List.foldlRecOn (motive := fun t : State => kept R s.waves t.waves) _ _ (kept_refl hr _)
    (fun _ h _ _ => kept_trans ht h (kept_tmod hr (hf _) _ _))
end

/-! ### Keys of waves -/

theorem wkey_waveIdOf (k : Nat) : wkey (waveIdOf k) = k := by
  simp only [wkey, bkey, waveIdOf]; omega

theorem waveIdOf_wkey {id : WaveId} (hw : id.wave < 128) (hb : id.block < 2 ^ 32) : waveIdOf (wkey id) = id := by
  obtain ⟨n, b, i⟩ := id
  simp only [wkey, bkey, waveIdOf, WaveId.mk.injEq]
  simp only at hw hb
  omega

/-- A wave is no mate of its own on its slot. -/
theorem wkey_ne_of_mem_slotMates {s : State} {id i : WaveId} {core : Nat} (hw : id.wave < 128) (hb : id.block < 2 ^ 32)
    (hi : i ∈ slotMates s id core) : wkey id ≠ wkey i := by
  obtain ⟨p, -, hp⟩ := List.mem_filterMap.mp hi
  have hi : i = waveIdOf p.1 ∧ i ≠ id := by
    dsimp only at hp
    split at hp
    · split_ifs at hp with hc
      cases hp
      simp only [Bool.and_eq_true, bne_iff_ne] at hc
      exact ⟨rfl, hc.1.2⟩
    · cases hp
  obtain ⟨rfl, hne⟩ := hi
  rw [wkey_waveIdOf]
  exact fun h => hne (h ▸ waveIdOf_wkey hw hb)

/-! ### The reuse latch (R55) -/

/-- The registers of `u` read as those of `w`. -/
def readsAs (w u : Wave) : Prop := (∀ r l, l < 64 → u.readV r l = w.readV r l) ∧ ∀ r, u.readS r = w.readS r

theorem readsAs_writeS {w u : Wave} (h : readsAs w u) (r : Nat) : readsAs w (u.writeS r (w.readS r)) := by
  refine ⟨h.1, fun r' => ?_⟩
  rw [readS_writeS]
  split_ifs with e
  · rw [e]
  · exact h.2 r'

theorem readsAs_writeV {w u : Wave} (h : readsAs w u) (r : Nat) {l : Nat} (hl : l < 64) :
    readsAs w (u.writeV r l (w.readV r l)) := by
  refine ⟨fun r' l' hl' => ?_, h.2⟩
  rw [readV_writeV _ _ _ _ _ _ hl hl']
  split_ifs with e
  · rw [e.1, e.2]
  · exact h.1 r' l' hl'

/-- Lanes written back with what they hold. -/
theorem readsAs_writeLanes {w u : Wave} (h : readsAs w u) (r : Nat) (hw : w.width ≤ 64) :
    readsAs w ((w.lanesOf r false).zipIdx.foldl (fun w v => w.writeV r v.2 (v.1.setWidth 32)) u) := by
  refine List.foldlRecOn (motive := readsAs w) _ _ h (fun u hu v hv => ?_)
  obtain ⟨hlt, he⟩ := List.mem_zipIdx' hv
  have hl : v.2 < w.width := by simpa [Wave.lanesOf] using hlt
  have hx : v.1.setWidth 32 = w.readV r v.2 := by simp [he, Wave.lanesOf]
  rw [hx]
  exact readsAs_writeV hu r (hl.trans_le hw)

/-- What the latch gives a word: vector and scalar registers alone, and where the positions hold what the registers hold, the same
values. -/
theorem fromLatch_rest (w : Wave) (key : Nat) (t : List Latch) (i : Instr) : { fromLatch w key t i with v := w.v, s := w.s } = w := by
  refine List.foldlRecOn (motive := fun u : Wave => { u with v := w.v, s := w.s } = w) _ _ rfl (fun u hu x _ => ?_)
  split_ifs
  · exact hu
  · exact List.foldlRecOn (motive := fun u : Wave => { u with v := w.v, s := w.s } = w) _ _ hu (fun _ h _ _ => h)

theorem fromLatch_readsAs {w : Wave} {key : Nat} {t : List Latch} (i : Instr)
    (ht : ∀ x ∈ t, x.wave = key → x.vals = w.lanesOf x.reg x.scal) (hw : w.width ≤ 64) : readsAs w (fromLatch w key t i) := by
  refine List.foldlRecOn (motive := readsAs w) _ _ ⟨fun _ _ _ => rfl, fun _ => rfl⟩ (fun u hu x hx => ?_)
  obtain ⟨hx, hc⟩ := List.mem_filter.mp hx
  simp only [Bool.and_eq_true, beq_iff_eq] at hc
  rw [ht x hx hc.1.1]
  cases x.scal
  · exact readsAs_writeLanes hu x.reg hw
  · exact readsAs_writeS hu x.reg

/-- The state in which a chosen path's word executes differs in the waves of the slot and in the cursor. -/
theorem chosenFor_rest (s : State) (c : Ctx) (i : Instr) : { s.chosenFor c i with waves := s.waves, cur := s.cur } = s :=
  congrArg (fun t : State => { t with waves := s.waves, cur := s.cur }) (foldl_modWave_rest _ _ _ _)

theorem chosenFor_wave {s : State} {c : Ctx} (i : Instr) (hc : s.wave c.id = some c.w) (hw : c.id.wave < 128) (hb : c.id.block < 2 ^ 32) :
    (s.chosenFor c i).wave c.id = some (fromLatch c.w (wkey c.id) (tget [] s.latches (4 * c.b.core + slotOf c.id)) i) := by
  have hmates := foldl_modWave_other (fun j => j)
    (fun j w => { w with passed := if (rivals s c.id c.b.core).any (fun r => r.1 == j) then w.passed + 1 else 0 })
    (slotMates s c.id c.b.core) s (fun _ hj => wkey_ne_of_mem_slotMates hw hb hj)
  refine (tfind_tmod_same _ _ _).trans ?_
  rw [hmates, show tfind s.waves (wkey c.id) = some c.w from hc, Option.map_some,
    show State.latches _ = s.latches from congrArg State.latches (foldl_modWave_rest (fun j => j) _ _ s)]

/-! ### Counting an issue (R113, R239) -/

/-- The issuing wave with its word counted. -/
def counted (c : Ctx) (i : Instr) (w : Wave) : Wave :=
  { w.setSlot c.slotB ((w.slot c.slotB).map (fun x => { x with retry := false })) with
    retired := w.retired + 1, charge := w.charge + chargeOf c i, yielded := i == .yield && !c.det, passed := 0 }

/-- A noted yield apart, the waves are the same (R109). -/
def sameButYielded (x y : Wave) : Prop := { y with yielded := x.yielded } = x

theorem sameButYielded_refl (x : Wave) : sameButYielded x x := rfl

theorem sameButYielded_trans (x y z : Wave) (h : sameButYielded x y) (h' : sameButYielded y z) : sameButYielded x z := by
  unfold sameButYielded at *
  exact (congrArg (fun w : Wave => { w with yielded := x.yielded }) h').trans h

/-- The issuing wave after its issue: its counts and its slot's retry, and nothing else. -/
theorem counted_spec {c : Ctx} {i : Instr} {x y : Wave} (h : sameButYielded (counted c i x) y) :
    y.retired = x.retired + 1 ∧ y.charge = x.charge + chargeOf c i ∧
    y.slot c.slotB = (x.slot c.slotB).map (fun z => { z with retry := false }) ∧ y.slot (!c.slotB) = x.slot (!c.slotB) ∧
    { y with retired := x.retired, charge := x.charge, yielded := x.yielded, passed := x.passed, a := x.a, b := x.b } = x := by
  have slots (b : Bool) : y.slot b = (x.setSlot c.slotB ((x.slot c.slotB).map (fun z => { z with retry := false }))).slot b :=
    (congrArg (fun w : Wave => w.slot b) h :)
  refine ⟨(congrArg Wave.retired h :), (congrArg Wave.charge h :), (slots _).trans (slot_setSlot _ _ _),
    (slots _).trans (slot_setSlot_other _ _ _), ?_⟩
  refine (congrArg (fun w : Wave => { w with retired := x.retired, charge := x.charge, yielded := x.yielded, passed := x.passed,
                                             a := x.a, b := x.b }) h :).trans ?_
  unfold counted
  cases c.slotB <;> rfl

/-- `t` with the tables of `s` that the accounting of an issue writes. -/
def State.unaccounted (s t : State) : State :=
  { t with waves := s.waves, blocks := s.blocks, launches := s.launches, clusters := s.clusters, latches := s.latches, served := s.served }

theorem account_eq (c : Ctx) (i : Instr) (t : State) : ∃ u : State,
    account c i t = (slotMates u c.id c.b.core).foldl (fun s i => s.modWave i (fun w => { w with yielded := false })) u ∧
    u.waves = tmod t.waves (wkey c.id) (counted c i) ∧ t.unaccounted u = t := by
  cases t
  refine ⟨_, rfl, ?_, ?_⟩ <;> (split <;> rfl)

/-- The accounting counts the word in its wave, then ends the yields of its slot mates. -/
theorem account_spec (c : Ctx) (i : Instr) (t : State) :
    kept sameButYielded (tmod t.waves (wkey c.id) (counted c i)) (account c i t).waves ∧ t.unaccounted (account c i t) = t := by
  obtain ⟨u, hu, hw, hr⟩ := account_eq c i t
  rw [hu, ← hw]
  exact ⟨foldl_modWave_kept (fun j => j) _ _ _ sameButYielded_refl sameButYielded_trans (fun _ _ => rfl),
    (congrArg t.unaccounted (foldl_modWave_rest (fun j => j) _ _ u)).trans hr⟩

/-! ### What is noted after a move (R211, R384) -/

/-- The slots and the scratchpad queue apart, the waves are the same. -/
def sameButWaits (x y : Wave) : Prop := { y with a := x.a, b := x.b, spq := x.spq } = x

theorem sameButWaits_refl (x : Wave) : sameButWaits x x := rfl

theorem sameButWaits_trans (x y z : Wave) (h : sameButWaits x y) (h' : sameButWaits y z) : sameButWaits x z := by
  unfold sameButWaits at *
  exact (congrArg (fun w : Wave => { w with a := x.a, b := x.b, spq := x.spq }) h').trans h

theorem sameButWaits_setSlot (w : Wave) (b : Bool) (x : Option Slot) : sameButWaits w (w.setSlot b x) := by cases b <;> rfl

/-- `t` is `s` with what its waves wait for noted. -/
def notesWaits (s t : State) : Prop := kept sameButWaits s.waves t.waves ∧ { t with waves := s.waves } = s

theorem notesWaits_refl (s : State) : notesWaits s s := ⟨kept_refl sameButWaits_refl _, rfl⟩

theorem notesWaits_trans {s t u : State} (h : notesWaits s t) (h' : notesWaits t u) : notesWaits s u :=
  ⟨kept_trans sameButWaits_trans h.1 h'.1, (congrArg (fun v : State => { v with waves := s.waves }) h'.2).trans h.2⟩

theorem notesWaits_modWave (s : State) (id : WaveId) {f : Wave → Wave} (hf : ∀ x, sameButWaits x (f x)) : notesWaits s (s.modWave id f) :=
  ⟨kept_tmod sameButWaits_refl hf _ _, rfl⟩

theorem notesWaits_noteSlot (s : State) (id : WaveId) (b : Bool) : notesWaits s (noteSlot s id b) := by
  have put (x : Option Slot) : notesWaits s (s.modWave id (fun w => w.setSlot b x)) :=
    notesWaits_modWave s id (fun w => sameButWaits_setSlot w b x)
  unfold noteSlot
  split
  · split
    · exact notesWaits_refl s
    · split
      · split
        · exact notesWaits_refl s
        · exact put _
      · split
        · exact notesWaits_refl s
        · exact put _
  · exact notesWaits_refl s

theorem notesWaits_noteQueue (s : State) (id : WaveId) : notesWaits s (noteQueue s id) := by
  have put (p : Bool) (op : SpOp) : notesWaits s (if p = true then s else setSpHead s id op) := by
    cases p
    · exact notesWaits_modWave s id (fun _ => rfl)
    · exact notesWaits_refl s
  unfold noteQueue
  split
  · dsimp only
    split
    · exact put _ _
    · exact put _ _
    · exact put _ _
    · exact notesWaits_refl s
  · exact notesWaits_refl s

theorem notesWaits_noteWaits (s : State) : notesWaits s (noteWaits s) :=
  List.foldlRecOn (motive := notesWaits s) _ _ (notesWaits_refl s) (fun _ h _ _ =>
    notesWaits_trans h (notesWaits_trans (notesWaits_trans (notesWaits_noteSlot _ _ _) (notesWaits_noteSlot _ _ _)) (notesWaits_noteQueue _ _)))

/-- The record of events apart, the launches are the same. -/
def sameButEvents (x y : Launch) : Prop := { y with events := x.events, nevents := x.nevents, spans := x.spans } = x

theorem sameButEvents_refl (x : Launch) : sameButEvents x x := rfl

theorem sameButEvents_trans (x y z : Launch) (h : sameButEvents x y) (h' : sameButEvents y z) : sameButEvents x z := by
  unfold sameButEvents at *
  exact (congrArg (fun l : Launch => { l with events := x.events, nevents := x.nevents, spans := x.spans }) h').trans h

/-- `t` is `s` with stalls noted in its ports and its launches' events. -/
def notesStalls (s t : State) : Prop :=
  kept sameButEvents s.launches t.launches ∧ { t with ports := s.ports, launches := s.launches } = s

theorem notesStalls_refl (s : State) : notesStalls s s := ⟨kept_refl sameButEvents_refl _, rfl⟩

theorem notesStalls_trans {s t u : State} (h : notesStalls s t) (h' : notesStalls t u) : notesStalls s u :=
  ⟨kept_trans sameButEvents_trans h.1 h'.1,
    (congrArg (fun v : State => { v with ports := s.ports, launches := s.launches }) h'.2).trans h.2⟩

theorem notesStalls_noteStall (s : State) (port serial : Nat) : notesStalls s (noteStall s port serial) := by
  unfold noteStall
  dsimp only
  split
  · refine ⟨kept_tmod sameButEvents_refl ?_ _ _, rfl⟩
    exact fun _ => rfl
  · exact notesStalls_refl s

theorem notesStalls_noteStalls (s : State) : notesStalls s (noteStalls s) :=
  List.foldlRecOn (motive := notesStalls s) _ _ (notesStalls_refl s) (fun _ h _ _ =>
    List.foldlRecOn (motive := notesStalls s) _ _ h (fun _ h' _ _ => notesStalls_trans h' (notesStalls_noteStall _ _ _)))

/-- What is noted after a move: waits in the waves, stalls in the ports and the launches. -/
theorem noted_spec (t : State) :
    { noteStalls (noteWaits t) with waves := t.waves, ports := t.ports, launches := t.launches } = t ∧
    kept sameButWaits t.waves (noteStalls (noteWaits t)).waves ∧ kept sameButEvents t.launches (noteStalls (noteWaits t)).launches := by
  obtain ⟨hw, hwr⟩ := notesWaits_noteWaits t
  obtain ⟨hl, hlr⟩ := notesStalls_noteStalls (noteWaits t)
  have hwaves : (noteStalls (noteWaits t)).waves = (noteWaits t).waves := (congrArg State.waves hlr :)
  have hports : (noteWaits t).ports = t.ports := (congrArg State.ports hwr :)
  have hlaunches : (noteWaits t).launches = t.launches := (congrArg State.launches hwr :)
  rw [hwaves, ← hports, ← hlaunches]
  exact ⟨(congrArg (fun u : State => { u with waves := t.waves }) hlr).trans hwr, hw, hl⟩

/-! ### The move of a step (R34, R61, R88) -/

theorem step_of_next {s t : State} (h : move s = .next t) : step s = .next (noteStalls (noteWaits t)) := by rw [step, h]
theorem step_of_fault {s : State} {e : Fault} (h : move s = .fault e) : step s = .fault e := by rw [step, h]
theorem step_of_refused {s : State} {e : Refusal} (h : move s = .refused e) : step s = .refused e := by rw [step, h]

theorem move_issue {s : State} {id : WaveId} {b : Bool} {rest : List Move} (h : s.agenda = .issue id b :: rest) :
    move s = issueStep id b (s.begin_ rest) := by rw [move, h]

theorem move_event {s : State} {i : Instr} {rest : List Move} (h : s.agenda = .event i :: rest) :
    move s = if encode i = none then exec i (s.begin_ rest) else .next (s.begin_ rest) := by
  rw [move, h]
  simp only [isEvent, Option.isNone_iff_eq_none]

theorem move_nil {s : State} (h : s.agenda = []) : move s = .next { s with tick := s.tick + 1 } := by
  cases s; cases h; rfl

/-- A path that its slot may not choose does nothing. -/
theorem issueStep_of_not_chosen {s : State} {id : WaveId} {b : Bool} (h : ∀ c, s.ctxAt id b = some c → c.chosen s = false) :
    issueStep id b s = .next s := by
  unfold issueStep
  split
  · rfl
  · rename_i c hc
    rw [h c hc]; rfl

/-! A path that its slot may choose runs the word that its bytes decode to, and the issue is counted. -/

section
variable {s t : State} {id : WaveId} {b : Bool} {c : Ctx} {bytes : List Byte} {i : Instr} (hc : s.ctxAt id b = some c)
  (hch : c.chosen s = true) (hf : fetch s c = some bytes) (hd : decodeBytes bytes = some i)
include hc hch hf hd

theorem issueStep_next (he : exec i (s.chosenFor c i) = .next t) : issueStep id b s = .next (account c i t) := by
  simp only [issueStep, hc, hch, hf, hd, he, Bool.not_true, Bool.false_eq_true, if_false]

theorem issueStep_fault {e : Fault} (he : exec i (s.chosenFor c i) = .fault e) : issueStep id b s = .fault e := by
  simp only [issueStep, hc, hch, hf, hd, he, Bool.not_true, Bool.false_eq_true, if_false]

theorem issueStep_refused {e : Refusal} (he : exec i (s.chosenFor c i) = .refused e) : issueStep id b s = .refused e := by
  simp only [issueStep, hc, hch, hf, hd, he, Bool.not_true, Bool.false_eq_true, if_false]
end

/-- Settles O58: the parts of a step, each by its own lemma: the issue, the state that the word reads, the accounting, what is noted,
the moves that issue nothing. -/
theorem stepRunsDecoded : Obligations.StepRunsDecoded := by
  intro s rest
  refine ⟨?issue, ?latch, ?account, ?noted, ?unchosen, ?event, fun h => step_of_next (move_nil h)⟩
  case issue =>
    intro id slotB c bytes i ha hc hch hf hd
    have hm := move_issue ha
    exact ⟨fun t ht => step_of_next (hm.trans (issueStep_next hc hch hf hd ht)),
      fun e he => step_of_fault (hm.trans (issueStep_fault hc hch hf hd he)),
      fun e he => step_of_refused (hm.trans (issueStep_refused hc hch hf hd he))⟩
  case latch =>
    intro c i u hc hw hb slot hu
    subst hu
    obtain ⟨-, -, hwave, -⟩ := ctxAt_spec hc
    exact ⟨rfl, chosenFor_rest _ c i, _, chosenFor_wave i hwave hw hb, fromLatch_rest _ _ _ _, fromLatch_readsAs i⟩
  case account =>
    intro c i t
    obtain ⟨hk, hr⟩ := account_spec c i t
    refine ⟨fun x hx => ?_, fun k x hne hx => hk k x ((tfind_tmod_other _ _ hne).trans hx), hr⟩
    obtain ⟨y, hy, hxy⟩ := hk (wkey c.id) (counted c i x) ((tfind_tmod_same _ _ _).trans (congrArg _ hx))
    exact ⟨y, hy, counted_spec hxy⟩
  case noted => exact noted_spec
  case unchosen => exact fun id slotB ha hn => step_of_next ((move_issue ha).trans (issueStep_of_not_chosen hn))
  case event =>
    intro i ha
    rw [step, move_event ha]
    split_ifs <;> rfl

end Sys2Proof.Machine
end

section
/-! PROOF. The conversion words (Table 4-8, R81 to R86). A halfword pair is one 32-bit value of its lane, and a code word with its scale
byte one 64-bit value, so that the laws of a vector word's writes serve all five words. -/

namespace Sys2Proof.Machine

/-- A 32-bit word of a lane is what `WriteType` writes of it (R65). -/
theorem typeWrites_n32 (d l n : Nat) : typeWrites .n32 false d l n = [.v d l (BitVec.ofNat 32 n)] := by
  have h : (extend .n32 n).extractLsb' 0 32 = BitVec.ofNat 32 n := by
    apply BitVec.eq_of_toNat_eq
    show (n % 2 ^ 32 % 2 ^ 64) >>> 0 % 2 ^ 32 = n % 2 ^ 32
    omega
  exact congrArg (fun x => [RegWrite.v d l x]) h

theorem extend_n64 (x : BitVec 64) : extend .n64 x.toNat = x := by
  apply BitVec.eq_of_toNat_eq
  show x.toNat % 2 ^ 64 % 2 ^ 64 = x.toNat
  omega

/-- Two 32-bit words of a lane are what `WriteType` writes of their pair (R65). -/
theorem typeWrites_n64_append (d l : Nat) (hi lo : BitVec 32) :
    typeWrites .n64 false d l (hi ++ lo).toNat = [.v d l lo, .v (d + 1) l hi] := by
  have hx : typeWrites .n64 false d l (hi ++ lo).toNat =
      [.v d l ((extend .n64 (hi ++ lo).toNat).extractLsb' 0 32), .v (d + 1) l ((extend .n64 (hi ++ lo).toNat).extractLsb' 32 32)] := rfl
  rw [hx, extend_n64, BitVec.extractLsb'_append_eq_of_add_le (by decide), BitVec.extractLsb'_append_eq_of_le (by decide),
    BitVec.extractLsb'_eq_self, BitVec.extractLsb'_eq_self]

/-- A word that writes a 32-bit word of each lane of `ls`. -/
theorem vecOnly_word (c : Ctx) (d : Nat) (ls : List Nat) (x : Nat → Nat) (hls : ∀ l ∈ ls, l < 64) :
    c.vecOnly ((c.w.applyWrites (ls.map (fun l => .v d l (BitVec.ofNat 32 (x l))))).advance c.slotB) d false ls
      (fun l => BitVec.ofNat 64 (x l % 2 ^ 32)) := by
  have h := vecOnly_of c d .n32 ls x hls
  simp only [typeWrites_n32, ← List.map_eq_flatMap] at h
  exact h

/-- A word that writes a pair of 32-bit words of each lane of `ls`. -/
theorem vecOnly_pair (c : Ctx) (d : Nat) (ls : List Nat) (hi lo : Nat → BitVec 32) (hls : ∀ l ∈ ls, l < 64) :
    c.vecOnly ((c.w.applyWrites (ls.flatMap (fun l => [.v d l (lo l), .v (d + 1) l (hi l)]))).advance c.slotB) d true ls
      (fun l => hi l ++ lo l) := by
  have h := vecOnly_of c d .n64 ls (fun l => (hi l ++ lo l).toNat) hls
  simp only [typeWrites_n64_append, extend_n64] at h
  exact h

/-- Settles O9: `CVT`, `UNPK` and `DQNT` write one value of their type a lane (R81, R83, R86), `PACK` one register (R82), `QNT` the code
word and the scale byte as a pair (R84). -/
theorem conversionWords : Obligations.ConversionWords := by
  intro s c st rm r hc
  have hls := lanes_lt c r.h
  exact ⟨leavesWave_write hc (issue_of hc _) (wroteLane_of c r r.ty _),
    leavesWave_write hc (issue_of hc _) (vecOnly_of c r.dst.toNat r.ty _ _ hls),
    leavesWave_write hc (issue_of hc _) (vecOnly_of c r.dst.toNat r.ty _ _ hls),
    leavesWave_write hc (issue_of hc _) (vecOnly_word c r.dst.toNat _ _ hls),
    latersWave_later hc (issue_of hc _) (vecOnly_pair c r.dst.toNat _ _ _ hls)⟩

end Sys2Proof.Machine
end

section
/-! PROOF. The scratchpad reads a panel for the matrix unit (R271, R273): how many scale bytes a load is given, the word in its wave's queue
says; the statement asks for as many as the load in the slot's queue says. -/

namespace Sys2Proof.Machine

/-! ### The last part of a panel load -/

theorem anyPart_single (s : State) (u : Nat) : anyPart s [u] = some u := by simp [anyPart, ranked, insertRanked]

/-- The last part of a word, performed and read, ends the word. -/
theorem stepParts_last {s s' : State} {id : WaveId} {op : SpOp} {parts : List Nat} {act : Nat → State × Option (Tab Byte)}
    {fin : State → SpOp → State} {u : Nat} {got : Tab Byte} (hl : op.left = some [u]) (ha : act u = (s', some got)) :
    stepParts s id op parts (anyPart s) act fin = fin s' { op with left := some [], got := got } := by
  simp [stepParts, hl, anyPart_single, ha]

/-- A load of a slot's queue given the panel and the scale bytes that the scratchpad has read for it. -/
def givePanel (d : List Byte × List Byte) : MxKind → MxKind
  | .mbld p t bl _ => .mbld p t bl (some d)
  | k => k

/-- The slot once the load `mid` of its queue has been given `d`. -/
def BSlot.given (y : BSlot) (mid : Nat) (d : List Byte × List Byte) : BSlot :=
  { y with q := y.q.map (fun o => if o.id = mid then { o with kind := givePanel d o.kind } else o) }

theorem matrixEnd_mbld (s : State) (id : WaveId) (b : Block) {op : SpOp} {slot p a sc bl mid : Nat} {ty : Ty}
    (hk : op.kind = .mbld slot p a sc ty bl mid) : (matrixEnd s id b op).bslot b.core slot =
      (s.bslot b.core slot).given mid (op.bytes 0 a 4096, op.bytes 0 sc (panelScales ty bl)) := by
  simp only [matrixEnd, hk]
  exact tget_tput_same _ _ _ _

/-- The word with all of its parts read, the last of them the part `p` of the accesses `xs`. -/
def SpOp.lastPart (op : SpOp) (s : State) (id : WaveId) (p : Nat) (xs : List Span) : SpOp :=
  { op with left := some [], got := readPart s id false p xs op.got }

/-- R271: with its last part, a load is given the scale bytes of the type that its word in the wave's queue names. -/
theorem perform_mbld_last {s : State} {id : WaveId} {x : Wave} {b : Block} {op : SpOp} {l : Launch} {slot p a sc bl mid u : Nat} {ty : Ty}
    (h : spHead s id = some (x, b, op)) (hl : s.launch id.serial = some l) (hk : op.kind = .mbld slot p a sc ty bl mid)
    (hu : op.left = some [u]) (hf : mbldFirst s b.core slot mid = true) : ∃ (t : State) (op' : SpOp),
      exec (.scratchpadAccessPerform id) s = .next t ∧ t.bslot b.core slot =
        (s.bslot b.core slot).given mid (op'.bytes 0 a 4096, op'.bytes 0 sc (panelScales ty bl)) := by
  have hexec : exec (.scratchpadAccessPerform id) s = .next (performMatrix s id b op) := by
    show execScratchpadAccessPerform id s = _
    simp only [execScratchpadAccessPerform, h, hl, hk]
  have hheld : (op.left == some [] || !mbldFirst s b.core slot mid) = false := by simp [hu, hf]
  have hlast : performMatrix s id b op =
      matrixEnd (addBytes s id.serial 0 (spanBytes u [(0, a, 4096), (0, sc, panelScales ty bl)]).length) id b
        (op.lastPart s id u [(0, a, 4096), (0, sc, panelScales ty bl)]) := by
    simp only [performMatrix, hk, hheld, Bool.false_eq_true, if_false]
    exact stepParts_last hu rfl
  exact ⟨_, _, hexec.trans (congrArg _ hlast), matrixEnd_mbld _ id b hk⟩

/-! ### A load whose two words differ -/

def mixedId : WaveId := ⟨1, 0, 0⟩

/-- The word in the wave's queue: load 0 of slot 0, of type `.I8`, which has no scale bytes; the last unit of its panel is left. -/
def i8Word : SpOp :=
  { seq := 0, tag := 0, pc := 0, start := 0, since := 0, limit := 0, eff := 0, kind := .mbld 0 0 0 0 .i8 16 0, left := some [63] }

/-- The word in the slot's queue: load 0, of type `.Q4`, whose blocks of 16 have 512 scale bytes. -/
def q4Word : MxOp := { id := 0, w := mixedId, tag := 0, kind := .mbld 0 .q4 16 none }

/-- Both words at the heads of their queues. `MBLD` issues two words that agree (R273), but no hypothesis of the statement says that they do. -/
def mixedState : State :=
  { State.reset with
    waves := [(wkey mixedId, { width := 16, spq := [i8Word] })]
    blocks := [(bkey 1 0, loadBlock)]
    launches := [(1, { offer := loadOffer 1 })]
    bslots := [(0, { q := [q4Word] })] }

/-- The number of scale bytes that the loads of a slot's queue have been given. -/
def BSlot.scalesGiven (y : BSlot) : List Nat :=
  y.q.map (fun o => match o.kind with
    | .mbld _ _ _ (some d) => d.2.length
    | _ => 0)

@[simp] theorem SpOp.bytes_length (op : SpOp) (lane a n : Nat) : (op.bytes lane a n).length = n := by simp [SpOp.bytes]

theorem scalesGiven_mixedState (d : List Byte × List Byte) : ((mixedState.bslot 0 0).given 0 d).scalesGiven = [d.2.length] := rfl

/-- Refutes O39, in its clause on the last part of a panel load: the names `ty` and `bl` in the pattern for the slot's word hide those of
the word in the wave's queue, so that a `.Q4` load of the slot is to be given 512 scale bytes where the word of type `.I8` reads none. -/
theorem not_matrixUnitSteps : ¬ Obligations.MatrixUnitSteps := by
  rintro ⟨-, hparts⟩
  have hhead : spHead mixedState mixedId = some ({ width := 16, spq := [i8Word] }, loadBlock, i8Word) := by decide
  have hlaunch : mixedState.launch mixedId.serial = some { offer := loadOffer 1 } := rfl
  have hfirst : mbldFirst mixedState 0 0 0 = true := by decide
  obtain ⟨hload, -, -⟩ := hparts mixedState mixedId _ _ _ _ 63 hhead hlaunch (by decide)
  obtain ⟨hlast, -⟩ := hload 0 0 0 0 .i8 16 0 rfl (by decide) (by decide)
  obtain ⟨t, ht, op', -, -, -, -, hslot, -⟩ := hlast rfl hfirst
  obtain ⟨t', op'', ht', hslot'⟩ := perform_mbld_last hhead hlaunch rfl rfl hfirst
  cases ht.symm.trans ht'
  have hasked : (t.bslot 0 0).scalesGiven = [512] := by
    have hgiven := congrArg BSlot.scalesGiven hslot
    simpa [BSlot.scalesGiven, mixedState, State.bslot, tget, tfind, q4Word, loadBlock, panelScales] using hgiven
  have hmodel : (t.bslot 0 0).scalesGiven = [0] := by
    have hgiven : t.bslot 0 0 = (mixedState.bslot 0 0).given 0 (op''.bytes 0 0 4096, op''.bytes 0 0 0) := hslot'
    rw [hgiven, scalesGiven_mixedState, SpOp.bytes_length]
  exact absurd (hasked.symm.trans hmodel) (by decide)

end Sys2Proof.Machine
end

section
/-! PROOF. A block retires (R96, R198, R294): the publication of its core's store set carries the stores of the core's other blocks too. -/

namespace Sys2Proof.Machine

/-- Block 0, whose only wave has retired, and block 1 on one core; both have stored to the core's store set (R195). -/
def sharedSetState : State :=
  { State.reset with
    launches := [(1, { offer := loadOffer 1, st := .running })]
    blocks := [(bkey 1 0, loadBlock), (bkey 1 1, loadBlock)]
    waves := [(wkey ⟨1, 0, 0⟩, { width := 16, retiredWave := true }), (wkey ⟨1, 1, 0⟩, loadWave 0)]
    sets := [(setKey { offer := loadOffer 1 } 0 1 0, { bytes := [(0x20000, { val := 1, dva := 0x20000 })], blocks := [0, 1] })] }

/-- Whether block 1 of launch 1 could still be relaunched, were it lost. -/
def State.neighbourRelaunchable (s : State) : Option Bool := (s.block 1 1).map (fun b => b.relaunchable)

/-- R198, R294: as block 0 retires it publishes the set, and block 1, whose store the set carries, is relaunchable no longer. -/
theorem blockRetire_sharedSetState : ∃ t, exec (.blockRetire 1 0) sharedSetState = .next t ∧ t.neighbourRelaunchable = some false := by
  refine ⟨_, rfl, ?_⟩
  decide

/-- Refutes O49, in its clause on retirement: no other block of the device is to change, but the blocks whose stores the publication
carries lose their relaunchability. -/
theorem not_retirementAndFaults : ¬ Obligations.RetirementAndFaults := by
  intro h
  obtain ⟨hretire, -⟩ := h sharedSetState 1 _ rfl
  obtain ⟨t, ht, -, -, -, hothers, -⟩ := hretire 0 loadBlock rfl rfl (by decide) rfl rfl rfl (by decide) (by
    intro die it hit
    have hnone : Launch.own { offer := loadOffer 1, st := .running } die = [] := by unfold Launch.own; split_ifs <;> rfl
    rw [hnone] at hit
    cases hit)
  obtain ⟨t', ht', hfalse⟩ := blockRetire_sharedSetState
  cases ht.symm.trans ht'
  have hkept : t.neighbourRelaunchable = sharedSetState.neighbourRelaunchable :=
    congrArg (Option.map (fun b : Block => b.relaunchable)) (hothers (bkey 1 1) (by decide))
  exact absurd (hfalse.symm.trans hkept) (by decide)
end Sys2Proof.Machine
end

section
/-! PROOF. Branches and joins (R100 to R103): what a word that moves paths leaves of its wave, and the frames that it counts. -/

namespace Sys2Proof.Machine

/-! ### The issuing wave rewritten -/

@[simp] theorem setWave_setWave (s : State) (id : WaveId) (w u : Wave) : (s.setWave id w).setWave id u = s.setWave id u := by
  simp [State.setWave]

@[simp] theorem modWave_setWave (s : State) (id : WaveId) (w : Wave) (f : Wave → Wave) :
    (s.setWave id w).modWave id f = s.setWave id (f w) := by
  rw [modWave_of (wave_setWave s id w), setWave_setWave]

theorem rewrite_of {s : State} {c : Ctx} (h : s.issuer = some c) (f : Wave → Wave) : c.rewrite s f = s.setWave c.id (f c.w) :=
  modWave_of (issuer_spec h).1 f

theorem jump_of {s : State} {c : Ctx} (h : s.issuer = some c) (pc : BitVec 32) :
    c.jump s pc = s.setWave c.id (c.w.setSlot c.slotB (some (c.sl.to pc))) := rewrite_of h _

/-- R239: the frames popped are counted as bytes of the launch; the rewritten wave apart, that is all. -/
theorem pops_spec {s : State} {c : Ctx} (hl : s.launch c.id.serial = some c.l) (w : Wave) :
    (c.pops (s.setWave c.id w)).wave c.id = some w ∧
      (∃ l, (c.pops (s.setWave c.id w)).launch c.id.serial = some l ∧ { l with ebytes := c.l.ebytes } = c.l) ∧
      otherWaves s (c.pops (s.setWave c.id w)) c.id ∧
      { c.pops (s.setWave c.id w) with waves := s.waves, launches := s.launches } = s := by
  have hpops : c.pops (s.setWave c.id w) = addBytes (s.setWave c.id w) c.id.serial 1 (96 * (c.w.stack.length - w.stack.length)) := by
    simp only [Ctx.pops, wave_setWave]
  rw [hpops, addBytes_of (s := s.setWave c.id w) hl]
  exact ⟨wave_setWave s c.id w, ⟨_, tfind_tput_same _ _ _, rfl⟩, otherWaves_put s c.id w _ rfl, rfl⟩

/-! ### Slots and frames of a wave -/

@[simp] theorem setSlot_stack (w : Wave) (b : Bool) (x : Option Slot) : (w.setSlot b x).stack = w.stack := by cases b <;> rfl

theorem pushOther_none {w : Wave} {b : Bool} (h : w.slot (!b) = none) : w.pushOther b = w := by simp [Wave.pushOther, h]

theorem pushOther_some {w : Wave} {b : Bool} {x : Slot} (h : w.slot (!b) = some x) :
    w.pushOther b = { w.setSlot (!b) none with stack := .path x.path :: w.stack } := by simp [Wave.pushOther, h]

/-- The other slot is empty and the slots and frames alone have changed (R94). -/
theorem pushOther_spec (w : Wave) (b : Bool) : (w.pushOther b).slot b = w.slot b ∧ (w.pushOther b).slot (!b) = none ∧
    { w.pushOther b with a := w.a, b := w.b, stack := w.stack } = w := by
  cases h : w.slot (!b) with
  | none => rw [pushOther_none h]; exact ⟨rfl, h, rfl⟩
  | some x => rw [pushOther_some h]; cases b <;> exact ⟨rfl, rfl, rfl⟩

/-- Two paths put into the slots of a wave above a new frame. -/
theorem setSlots_spec (w : Wave) (b : Bool) (fs : List Frame) (x y : Option Slot) :
    (({ w with stack := fs }.setSlot b x).setSlot (!b) y).slot b = x ∧ (({ w with stack := fs }.setSlot b x).setSlot (!b) y).slot (!b) = y ∧
      (({ w with stack := fs }.setSlot b x).setSlot (!b) y).stack = fs ∧
      { ({ w with stack := fs }.setSlot b x).setSlot (!b) y with a := w.a, b := w.b, stack := w.stack } = w := by
  cases b <;> exact ⟨rfl, rfl, rfl, rfl⟩

theorem setSlot_own (w : Wave) (b : Bool) (x : Option Slot) : { w.setSlot b x with a := w.a, b := w.b, stack := w.stack } = w := by
  cases b <;> rfl

/-- R103: the REJOIN frame on top is popped, and its path waits for the frame read. -/
theorem rejoin_spec {w : Wave} {k : Option (BitVec 32)} {km : Mask} {rest : List Frame} (h : w.stack = .rejoin k km :: rest) (b : Bool)
    (pc : BitVec 32) (mask : Mask) : (w.rejoin b pc mask).stack = rest ∧ (w.rejoin b pc mask).slot (!b) = w.slot (!b) ∧
      (w.rejoin b pc mask).slot b = some { path := { pc := pc + 8, mask := mask, join := k, parked := false }, hold := .frame } ∧
      { w.rejoin b pc mask with a := w.a, b := w.b, stack := w.stack } = w := by
  have he : w.rejoin b pc mask =
      { w with stack := rest }.setSlot b (some (frameSlot { pc := pc + 8, mask := mask, join := k, parked := false })) := by
    simp only [Wave.rejoin, h]
  rw [he]
  cases b <;> exact ⟨rfl, rfl, rfl, rfl⟩

/-! ### The words -/

theorem exec_jump {s : State} {c : Ctx} (hc : s.issuer = some c) {i : Instr} {f : Ctx → State} (he : exec i s = issue s f) {p : BitVec 32}
    (hf : f c = c.jump s p) : exec i s = .next (s.setWave c.id (c.w.setSlot c.slotB (some (c.sl.to p)))) := by
  rw [he, issue_of hc, hf, jump_of hc]

/-- R102: the lanes do not agree; the path splits, a live path of the other slot saved. -/
theorem exec_brd_splits {s : State} {c : Ctx} (hc : s.issuer = some c) {neg : Bool} {m : BitVec 3} (tgt : BitVec 24) (dist : BitVec 16)
    (hF : c.sl.path.mask &&& ~~~ condMask c neg m ≠ 0) (hT : condMask c neg m ≠ 0) :
    exec (.brd neg m tgt dist) s = .next (s.setWave c.id
      ((({ c.w.pushOther c.slotB with stack := .rejoin c.sl.path.join c.sl.path.mask :: (c.w.pushOther c.slotB).stack }.setSlot c.slotB
        (some (freshSlot { pc := c.sl.path.pc + 8, mask := c.sl.path.mask &&& ~~~ condMask c neg m,
                           join := some (c.sl.path.pc + 8 * dist.setWidth 32), parked := false })))).setSlot (!c.slotB)
        (some (freshSlot { pc := target c.sl.path.pc tgt, mask := condMask c neg m,
                           join := some (c.sl.path.pc + 8 * dist.setWidth 32), parked := false })))) := by
  show execBrd neg m tgt dist s = _
  rw [execBrd, issue_of hc]
  simp only [beq_iff_eq, hF, hT, if_false, rewrite_of hc]

/-! `JOIN` away from its path's join address, and at it: the other path still on its way there, parked there, or bound elsewhere (R103). -/

section
variable {s : State} {c : Ctx} (hc : s.issuer = some c)
include hc

theorem exec_join_past (hj : c.sl.path.join ≠ some c.sl.path.pc) :
    exec .join s = .next (c.pops (s.setWave c.id (c.w.setSlot c.slotB (some (c.sl.to (c.sl.path.pc + 8)))))) := by
  show execJoin s = _
  simp only [execJoin, issue_of hc, if_pos (bne_iff_ne.mpr hj), jump_of hc]

variable (hj : c.sl.path.join = some c.sl.path.pc)
include hj

theorem exec_join_parks {x : Slot} (hx : c.w.slot (!c.slotB) = some x) (hxj : x.path.join = some c.sl.path.pc) (hp : x.path.parked = false) :
    exec .join s = .next (c.pops (s.setWave c.id
      (c.w.setSlot c.slotB (some { c.sl with path := { c.sl.path with parked := true } })))) := by
  show execJoin s = _
  simp [execJoin, issue_of hc, hj, hx, hxj, hp, rewrite_of hc]

theorem exec_join_parked {x : Slot} (hx : c.w.slot (!c.slotB) = some x) (hxj : x.path.join = some c.sl.path.pc) (hp : x.path.parked = true) :
    exec .join s = .next (c.pops (s.setWave c.id
      ((c.w.setSlot (!c.slotB) none).rejoin c.slotB c.sl.path.pc (c.sl.path.mask ||| x.path.mask)))) := by
  show execJoin s = _
  simp [execJoin, issue_of hc, hj, hx, hxj, hp, rewrite_of hc]

theorem exec_join_alone (hx : ∀ x, c.w.slot (!c.slotB) = some x → x.path.join ≠ some c.sl.path.pc) :
    exec .join s = .next (c.pops (s.setWave c.id (c.w.rejoin c.slotB c.sl.path.pc c.sl.path.mask))) := by
  show execJoin s = _
  cases h : c.w.slot (!c.slotB) with
  | none => simp [execJoin, issue_of hc, hj, h, rewrite_of hc]
  | some x => simp [execJoin, issue_of hc, hj, h, hx x h, rewrite_of hc]
end

/-- Settles O34: each word moves its path, or its wave is the one that R102 or R103 says; the frame that `JOIN` pops is counted, which
leaves the rest of the machine alone. -/
theorem branchesAndJoins : Obligations.BranchesAndJoins := by
  intro s c neg m tgt dist hc pc goal T F moved jumps other j
  obtain ⟨-, -, hl, -⟩ := issuer_spec hc
  refine ⟨exec_jump hc rfl rfl, fun hT => exec_jump hc rfl (congrArg _ (if_pos (bne_iff_ne.mpr hT))),
    fun hT => exec_jump hc rfl (congrArg _ (if_neg (fun h => bne_iff_ne.mp h hT))), fun hF => exec_jump hc rfl (if_pos (beq_iff_eq.mpr hF)),
    fun hF hT => exec_jump hc rfl ((if_neg (mt beq_iff_eq.mp hF)).trans (if_pos (beq_iff_eq.mpr hT))), ?brdSplits, ?join⟩
  case brdSplits =>
    intro hF hT
    obtain ⟨-, -, hrest⟩ := pushOther_spec c.w c.slotB
    obtain ⟨ha, hb, hstack, hw⟩ := setSlots_spec (c.w.pushOther c.slotB) c.slotB
      (.rejoin c.sl.path.join c.sl.path.mask :: (c.w.pushOther c.slotB).stack)
      (some (freshSlot { pc := pc + 8, mask := F, join := some j, parked := false }))
      (some (freshSlot { pc := goal, mask := T, join := some j, parked := false }))
    refine ⟨_, exec_brd_splits hc tgt dist hF hT, ha, hb, hstack.trans (congrArg _ ?_),
      (congrArg (fun w : Wave => { w with a := c.w.a, b := c.w.b, stack := c.w.stack }) hw).trans hrest⟩
    cases h : c.w.slot (!c.slotB) with
    | none => rw [pushOther_none h]; simp only [other, h]
    | some x => rw [pushOther_some h]; simp only [other, h]
  case join =>
    intro joins
    have hjoins : ∀ {P : Wave → Prop} (w : Wave), exec .join s = .next (c.pops (s.setWave c.id w)) → P w →
        { w with a := c.w.a, b := c.w.b, stack := c.w.stack } = c.w → joins P := by
      intro P w he hP hw
      obtain ⟨hwave, ⟨l, hlaunch, hbytes⟩, hothers, hrest⟩ := pops_spec hl w
      exact ⟨_, he, w, l, hwave, hP, hw, hothers, hlaunch, hbytes, hrest⟩
    refine ⟨fun hj => hjoins _ (exec_join_past hc hj) rfl (setSlot_own c.w _ _),
      fun hj x hx hxj hp => hjoins _ (exec_join_parks hc hj hx hxj hp) rfl (setSlot_own c.w _ _), fun hj k km rest hstack => ⟨?parked, ?alone⟩⟩
    case parked =>
      intro x hx hxj hp
      obtain ⟨hs, ho, hsl, hw⟩ := rejoin_spec ((setSlot_stack c.w (!c.slotB) none).trans hstack) c.slotB pc (c.sl.path.mask ||| x.path.mask)
      exact hjoins _ (exec_join_parked hc hj hx hxj hp) ⟨hs, ho.trans (slot_setSlot _ _ _), hsl⟩
        ((congrArg (fun w : Wave => { w with a := c.w.a, b := c.w.b, stack := c.w.stack }) hw).trans (setSlot_own c.w _ _))
    case alone =>
      intro hx
      obtain ⟨hs, ho, hsl, hw⟩ := rejoin_spec hstack c.slotB pc c.sl.path.mask
      exact hjoins _ (exec_join_alone hc hj hx) ⟨hs, ho, hsl⟩ hw

end Sys2Proof.Machine
end

section
/-! PROOF. Loops and calls (R104 to R107): the loop register that a word writes, the frame that a call pushes and `RET` pops. -/

namespace Sys2Proof.Machine

/-! ### Loop registers and activation counts -/

theorem readL_writeL (w : Wave) (r q : Nat) (k : LoopReg) : (w.writeL r k).readL q = if q = r then k else w.readL q := tget_tset _ _ _ _ _

theorem actOf_setAct (w : Wave) (t q n : Nat) : (w.setAct t n).actOf q = if q = t then n else w.actOf q := tget_tset _ _ _ _ _

theorem readL_setLoops {ls : List LoopReg} (w : Wave) {q : Nat} (h : q < ls.length) : ls[q]? = some ((w.setLoops ls).readL q) := by
  have hread : (w.setLoops ls).readL q = ls.getD q {} := by
    simp only [Wave.setLoops, Wave.readL, tget_tputs, Nat.zero_le, true_and, Nat.zero_add, Nat.sub_zero, if_pos h]
  rw [hread, List.getElem?_eq_getElem h, List.getD_eq_getElem _ _ h]

@[simp] theorem setSlot_readL (w : Wave) (b : Bool) (x : Option Slot) (q : Nat) : (w.setSlot b x).readL q = w.readL q := by cases b <;> rfl
@[simp] theorem setSlot_actOf (w : Wave) (b : Bool) (x : Option Slot) (q : Nat) : (w.setSlot b x).actOf q = w.actOf q := by cases b <;> rfl

/-- The wave with the slots, frames, loop registers and activation counts of another. -/
def Wave.withControl (w u : Wave) : Wave := { w with a := u.a, b := u.b, stack := u.stack, l := u.l, act := u.act }

theorem setSlot_withControl (w u : Wave) (b : Bool) (x : Option Slot) : (w.setSlot b x).withControl u = w.withControl u := by cases b <;> rfl

/-- A path moved, and a loop register written with `k` (R104, R105). -/
theorem leavesWave_loop {s : State} {c : Ctx} (hc : s.issuer = some c) {i : Instr} {f : Ctx → State} (he : exec i s = issue s f)
    {p : BitVec 32} {r : Nat} {g : Wave → LoopReg} {k : LoopReg} (hf : f c = (c.jump s p).modWave c.id (fun w => w.writeL r (g w)))
    (hk : g (c.w.setSlot c.slotB (some (c.sl.to p))) = k) : leavesWave c s i (fun w =>
      { w with l := c.w.l } = c.w.setSlot c.slotB (some (c.sl.to p)) ∧ ∀ q, w.readL q = if q = r then k else c.w.readL q) := by
  subst hk
  rw [jump_of hc, modWave_setWave] at hf
  refine ⟨_, by rw [he, issue_of hc, hf], by cases c.slotB <;> rfl, fun q => ?_⟩
  rw [readL_writeL, setSlot_readL]

/-! ### Calls (R106, R107) -/

/-- The wave in the function called: the return address, the join address and the loop registers in a frame above the other slot's path,
loop registers of zero, one activation more. -/
def Ctx.called (c : Ctx) (t : BitVec 32) : Wave :=
  ({ c.w.pushOther c.slotB with
      stack := .call (c.sl.path.pc + 8) c.sl.path.join c.w.loops t.toNat :: (c.w.pushOther c.slotB).stack, l := [] }.setAct t.toNat
    ((c.w.pushOther c.slotB).actOf t.toNat + 1)).setSlot c.slotB (some (freshSlot { c.sl.path with pc := t, join := none }))

theorem callTo_enters {s : State} {c : Ctx} (hc : s.issuer = some c) {t : BitVec 32} (h : c.w.actOf t.toNat ≠ depthOf c.l t.toNat) :
    callTo c s t = s.setWave c.id (c.called t) := by
  simp only [callTo, beq_iff_eq, if_neg h, rewrite_of hc]
  rfl

theorem called_spec (c : Ctx) (t : BitVec 32) :
    (c.called t).slot c.slotB = some { path := { c.sl.path with pc := t, join := none } } ∧ (c.called t).slot (!c.slotB) = none ∧
      (c.called t).stack = .call (c.sl.path.pc + 8) c.sl.path.join c.w.loops t.toNat :: (c.w.pushOther c.slotB).stack ∧
      (∀ q, (c.called t).readL q = { trips := 0, limit := 0 }) ∧
      (∀ q, (c.called t).actOf q = if q = t.toNat then c.w.actOf q + 1 else c.w.actOf q) ∧
      { c.called t with a := c.w.a, b := c.w.b, stack := c.w.stack, l := c.w.l, act := c.w.act } = c.w := by
  obtain ⟨-, hnone, hrest⟩ := pushOther_spec c.w c.slotB
  have hact : ∀ q, (c.w.pushOther c.slotB).actOf q = c.w.actOf q := fun q => (congrArg (fun w : Wave => w.actOf q) hrest :)
  refine ⟨slot_setSlot _ _ _, (slot_setSlot_other _ _ _).trans hnone, setSlot_stack _ _ _, fun q => setSlot_readL _ _ _ _, fun q => ?_,
    (setSlot_withControl _ c.w _ _).trans (congrArg (fun w : Wave => w.withControl c.w) hrest :)⟩
  rw [Ctx.called, setSlot_actOf, actOf_setAct]
  split_ifs with e
  · rw [e, hact]
  · exact hact q

/-- A trap on the limit of a control word (R100, R110). -/
theorem answers_raiseLimit {s : State} {c : Ctx} (hc : s.issuer = some c) {i : Instr} {f : Ctx → State} (he : exec i s = issue s f)
    {k n : Nat} (hf : f c = raiseLimit c s k n) :
    answers s i (fun t => c.trapped s t cLIMIT aCALLER k c.sl.path.mask (BitVec.ofNat 64 n)) :=
  ⟨raiseLimit c s k n, by rw [he, issue_of hc, hf], raise_trapped hc _ _ _ _ _⟩

/-- The wave back from a function: its frame popped, the loop registers as the frame saved them, one activation less (R107). -/
def Ctx.returned (c : Ctx) (ret : BitVec 32) (j : Option (BitVec 32)) (ls : List LoopReg) (tg : Nat) (rest : List Frame) : Wave :=
  (({ c.w with stack := rest }.setLoops ls).setAct tg (c.w.actOf tg - 1)).setSlot c.slotB
    (some (frameSlot { c.sl.path with pc := ret, join := j }))

theorem exec_ret {s : State} {c : Ctx} (hc : s.issuer = some c) {ret : BitVec 32} {j : Option (BitVec 32)} {ls : List LoopReg} {tg : Nat}
    {rest : List Frame} (h : c.w.stack = .call ret j ls tg :: rest) :
    exec .ret s = .next (c.pops (s.setWave c.id (c.returned ret j ls tg rest))) := by
  show execRet s = _
  simp only [execRet, issue_of hc, h, rewrite_of hc]
  rfl

theorem exec_ret_noFrame {s : State} {c : Ctx} (hc : s.issuer = some c) (h : ∀ ret j ls tg rest, c.w.stack ≠ .call ret j ls tg :: rest) :
    exec .ret s = .next (s.setWave c.id (c.w.setSlot c.slotB (some (c.sl.to (c.sl.path.pc + 8))))) := by
  refine exec_jump hc rfl ?_
  split
  · rename_i hs; exact absurd hs (h _ _ _ _ _)
  · rfl

theorem returned_spec (c : Ctx) (ret : BitVec 32) (j : Option (BitVec 32)) {ls : List LoopReg} (hls : ls.length = 8) (tg : Nat) (rest : List Frame) :
    (c.returned ret j ls tg rest).slot c.slotB = some { path := { c.sl.path with pc := ret, join := j }, hold := .frame } ∧
      (c.returned ret j ls tg rest).slot (!c.slotB) = c.w.slot (!c.slotB) ∧ (c.returned ret j ls tg rest).stack = rest ∧
      (∀ q, q < 8 → ls[q]? = some ((c.returned ret j ls tg rest).readL q)) ∧
      (∀ q, (c.returned ret j ls tg rest).actOf q = if q = tg then c.w.actOf q - 1 else c.w.actOf q) ∧
      { c.returned ret j ls tg rest with a := c.w.a, b := c.w.b, stack := c.w.stack, l := c.w.l, act := c.w.act } = c.w := by
  refine ⟨slot_setSlot _ _ _, slot_setSlot_other _ _ _, setSlot_stack _ _ _, fun q hq => ?_, fun q => ?_,
    setSlot_withControl _ c.w _ _⟩
  · rw [Ctx.returned, setSlot_readL]
    exact readL_setLoops { c.w with stack := rest } (hq.trans_eq hls.symm)
  · rw [Ctx.returned, setSlot_actOf, actOf_setAct]
    split_ifs with e
    · rw [e]
    · rfl

/-- Settles O35: a loop word moves its path and writes one loop register, a call enters the function or traps at its depth, `RET` pops the
frame of a call. -/
theorem loopsAndCalls : Obligations.LoopsAndCalls := by
  intro s c r tgt lim tbl x hc pc goal n trips limits loops calls
  obtain ⟨-, -, hl, -⟩ := issuer_spec hc
  have hcalls : ∀ {i : Instr} {f : Ctx → State} {t : BitVec 32}, exec i s = issue s f → f c = callTo c s t → calls i t := by
    intro i f t he hf
    refine ⟨fun hd => answers_raiseLimit hc he (hf.trans (if_pos (beq_iff_eq.mpr hd))), fun hd => ?_⟩
    obtain ⟨hslot, hother, hstack, hloops, hact, hrest⟩ := called_spec c t
    refine ⟨c.called t, by rw [he, issue_of hc, hf, callTo_enters hc hd], hslot, hother, hstack.trans (congrArg _ ?_), hloops, hact, hrest⟩
    cases h : c.w.slot (!c.slotB) with
    | none => rw [pushOther_none h]
    | some y => rw [pushOther_some h]
  refine ⟨fun h => answers_raiseLimit hc rfl (if_pos h), fun h => leavesWave_loop hc rfl (if_neg h.not_ge) rfl,
    fun h => leavesWave_loop hc rfl (g := fun _ => { trips := trips, limit := BitVec.ofNat 32 n }) ?again rfl,
    fun h => leavesWave_loop hc rfl (g := fun _ => { trips := 0, limit := BitVec.ofNat 32 n }) ?out rfl,
    leavesWave_loop hc rfl rfl ?reset, hcalls rfl rfl, ⟨fun a ha => hcalls rfl ?entry, fun h => answers_raiseLimit hc rfl ?beyond⟩, ?ret,
    exec_ret_noFrame hc⟩
  case ret =>
    intro ret j ls tg rest hstack hls
    obtain ⟨hslot, hother, hst, hloops, hact, hrest⟩ := returned_spec c ret j hls tg rest
    obtain ⟨hwave, -, hothers, hstate⟩ := pops_spec hl (c.returned ret j ls tg rest)
    exact ⟨_, exec_ret hc hstack, _, hwave, hslot, hother, hst, hloops, hact, hrest, hothers, hstate⟩
  case again => simp only [trips, n] at h ⊢; rw [if_pos h, if_pos h]; rfl
  case out => simp only [trips, n] at h ⊢; rw [if_neg h.not_gt, if_neg h.not_gt]
  case reset => rw [setSlot_readL]
  case entry =>
    have hentry : (c.l.offer.kernel.tables.getD tbl.toNat [])[(c.s x).toNat]? = some a := ha
    simp only [hentry]
  case beyond =>
    have hnone : (c.l.offer.kernel.tables.getD tbl.toNat [])[(c.s x).toNat]? = none := List.getElem?_eq_none h
    simp only [hnone]

end Sys2Proof.Machine
end

section
/-! PROOF. Ends of paths and waves, frame pops, fetch errors (R95, R96, R108 to R110, R56, R61). -/

namespace Sys2Proof.Machine

/-! ### A path of a resident block -/

theorem onPath_of {s : State} {c : Ctx} (h : s.ctxAt c.id c.slotB = some c) (hb : c.b.place = .resident) (f : Ctx → State) :
    onPath s c.id c.slotB f = .next (f c) := by simp [onPath, h, hb]

/-- A trap of a path that is not the cursor's leaves what one of the cursor's does. -/
theorem raise_trapped_at {s : State} {c : Ctx} (h : s.ctxAt c.id c.slotB = some c) (code attr construct : Nat) (lanes : Mask) (value : BitVec 64) :
    c.trapped s (raise c s code attr construct lanes value) code attr construct lanes value := by
  have hcur : ({ s with cur := (c.id, c.slotB) } : State).issuer = some c := h
  obtain ⟨w, l, tr, hw, hl, hkeeps, hslot, hother, htraps, hlaunch, htr⟩ := raise_trapped hcur code attr construct lanes value
  obtain ⟨hcode, hattr, hconstruct, hpc, hblock, hcore, hlanes, hvalue, hothers, hrest⟩ := htr
  exact ⟨w, l, tr, hw, hl, hkeeps, hslot, hother, htraps, hlaunch, hcode, hattr, hconstruct, hpc, hblock, hcore, hlanes, hvalue, hothers,
    congrArg (fun t : State => { t with cur := s.cur }) hrest⟩

/-! ### Frames given up (R108) -/

theorem unwind_rest (w : Wave) (fs : List Frame) : { unwind w fs with stack := w.stack, l := w.l, act := w.act } = w := by
  induction w, fs using unwind.induct with
  | case1 w => rfl
  | case2 w p t => rfl
  | case3 w j m t ih => exact ih
  | case4 w r j ls tg t ih => exact congrArg (fun u : Wave => { u with l := w.l, act := w.act }) ih

/-- The frames above a saved path leave nothing on the stack. -/
theorem unwind_append {above : List Frame} (h : ∀ q, .path q ∉ above) (w : Wave) (fs : List Frame) :
    ∃ u, unwind w (above ++ fs) = unwind u fs := by
  induction above generalizing w with
  | nil => exact ⟨w, rfl⟩
  | cons f above ih =>
    have habove : ∀ q, .path q ∉ above := fun q hq => h q (List.mem_cons_of_mem _ hq)
    cases f with
    | path q => exact absurd List.mem_cons_self (h q)
    | rejoin j m => exact ih habove w
    | call r j ls tg => exact ih habove _

theorem unwind_stack_path {above : List Frame} (h : ∀ q, .path q ∉ above) (w : Wave) (p : Path) (rest : List Frame) :
    (unwind w (above ++ .path p :: rest)).stack = .path p :: rest := by
  obtain ⟨u, hu⟩ := unwind_append h w (.path p :: rest)
  rw [hu]; rfl

theorem unwind_stack_nil {fs : List Frame} (h : ∀ q, .path q ∉ fs) (w : Wave) : (unwind w fs).stack = [] := by
  obtain ⟨u, hu⟩ := unwind_append h w []
  rw [← List.append_nil fs, hu]; rfl

theorem exitPath_beside {w : Wave} {b : Bool} {x : Slot} (h : w.slot (!b) = some x) : w.exitPath b = w.setSlot b none := by
  simp [Wave.exitPath, slot_setSlot_other, h]

theorem exitPath_last {w : Wave} {b : Bool} (h : w.slot (!b) = none) : w.exitPath b = unwind (w.setSlot b none) w.stack := by
  simp [Wave.exitPath, slot_setSlot_other, h]

theorem unwind_slot (w : Wave) (fs : List Frame) (b : Bool) : (unwind w fs).slot b = w.slot b :=
  (congrArg (fun u : Wave => u.slot b) (unwind_rest w fs) :)

theorem setSlot_frames (w : Wave) (b : Bool) (x : Option Slot) :
    { w.setSlot b x with stack := w.stack, l := w.l, act := w.act } = w.setSlot b x := by cases b <;> rfl

/-- R108: of a wave whose last live path ends, the frames, the loop registers and the activation counts may change. -/
theorem exitPath_last_rest {w : Wave} {b : Bool} (h : w.slot (!b) = none) :
    { w.exitPath b with stack := w.stack, l := w.l, act := w.act } = w.setSlot b none := by
  rw [exitPath_last h]
  exact (congrArg (fun u : Wave => { u with stack := w.stack, l := w.l, act := w.act }) (unwind_rest _ w.stack)).trans (setSlot_frames w b none)

theorem exitPath_last_empty {w : Wave} {b : Bool} (h : w.slot (!b) = none) : (w.exitPath b).a = none ∧ (w.exitPath b).b = none := by
  have hslots : (w.exitPath b).slot b = none ∧ (w.exitPath b).slot (!b) = none := by
    rw [exitPath_last h, unwind_slot, unwind_slot]
    exact ⟨slot_setSlot _ _ _, (slot_setSlot_other _ _ _).trans h⟩
  cases b
  · exact hslots
  · exact hslots.symm

/-! ### Retirement (R96, R141) -/

theorem over_eq_false_of_slot {w : Wave} {b : Bool} {x : Slot} (h : w.slot b = some x) : w.over_ = false := by
  cases b <;> simp_all [Wave.slot, Wave.over_]

theorem over_eq_false_of_path {w : Wave} {p : Path} {rest : List Frame} (h : w.stack = .path p :: rest) : w.over_ = false := by
  simp [Wave.over_, h]

theorem over_of_empty {w : Wave} (ha : w.a = none) (hb : w.b = none) (hs : w.stack = []) : w.over_ = true := by
  simp [Wave.over_, ha, hb, hs]

theorem retireIfOver_of_going {s : State} {id : WaveId} {w : Wave} (hw : s.wave id = some w) (h : w.over_ = false) : retireIfOver s id = s := by
  simp [retireIfOver, hw, h]

theorem makerFail_eq (s : State) (e : Nat) : ∃ cl, makerFail s e = { s with claims := cl } := by
  unfold makerFail
  dsimp only
  split <;> exact ⟨_, rfl⟩

/-- Only the claim table changes as makers fail (R356). -/
theorem makersFail_eq (s : State) (p : WaveId → Bool) : ∃ cl, makersFail s p = { s with claims := cl } := by
  refine List.foldlRecOn (motive := fun (t : State) => ∃ cl, t = { s with claims := cl }) _ _ ⟨s.claims, rfl⟩ ?_
  rintro _ ⟨cl, rfl⟩ e -
  split_ifs
  · obtain ⟨cl', h⟩ := makerFail_eq { s with claims := cl } e.1
    exact ⟨cl', h⟩
  · exact ⟨cl, rfl⟩

/-- A wave that is over retires: its blocks join the pool of its slot. -/
theorem retireIfOver_of_over {s : State} {id : WaveId} {w : Wave} {b : Block} (hw : s.wave id = some w) (hb : s.block id.serial id.block = some b)
    (hover : w.over_ = true) (hr : w.retiredWave = false) (hs : w.sweep = none) : ∃ cl, retireIfOver s id =
      { s with
        waves := tput s.waves (wkey id) { w with retiredWave := true }
        blocks := tput s.blocks (bkey id.serial id.block)
          { b with pools := tput b.pools (id.wave % 4) (tget 0 b.pools (id.wave % 4) + w.allot) }
        claims := cl } := by
  have hretire : retireIfOver s id = retireWave s id := by simp [retireIfOver, hw, hover, hr]
  have hb' : ∀ u : Wave, (s.setWave id u).block id.serial id.block = some b := fun _ => hb
  obtain ⟨cl, hcl⟩ := makersFail_eq ((s.setWave id { w with retiredWave := true }).modBlock id.serial id.block
    (fun b => { b with pools := tput b.pools (id.wave % 4) (tget 0 b.pools (id.wave % 4) + w.allot) })) (fun m => m == id)
  refine ⟨cl, ?_⟩
  simp only [hs] at hcl
  simp only [hretire, retireWave, hw, hs]
  rw [hcl, modBlock_of (hb' _)]
  rfl

theorem exec_exit {s : State} {c : Ctx} (hc : s.issuer = some c) :
    exec .exit s = .next (retireIfOver (c.pops (s.setWave c.id (c.w.exitPath c.slotB))) c.id) := by
  show execExit s = _
  rw [execExit, issue_of hc, rewrite_of hc]

/-- The wave goes on, without the path that ends (R108). -/
theorem answers_exit_going {s : State} {c : Ctx} (hc : s.issuer = some c) {P : Wave → Prop} (hover : (c.w.exitPath c.slotB).over_ = false)
    (hP : P (c.w.exitPath c.slotB)) :
    answers s .exit (fun t => ∃ w, t.wave c.id = some w ∧ P w ∧ otherWaves s t c.id ∧ { t with waves := s.waves, launches := s.launches } = s) := by
  obtain ⟨-, -, hl, -⟩ := issuer_spec hc
  obtain ⟨hwave, -, hothers, hrest⟩ := pops_spec hl (c.w.exitPath c.slotB)
  exact ⟨_, (exec_exit hc).trans (congrArg _ (retireIfOver_of_going hwave hover)), _, hwave, hP, hothers, hrest⟩

/-! ### Frame pops (R95) -/

theorem exec_framePop {s : State} {id : WaveId} {x : Wave} (hx : s.wave id = some x) {b : Bool} {p : Path} {rest : List Frame}
    (hdue : x.popDue = some (b, p, rest)) : exec (.framePop id) s = .next
      (addBytes (s.setWave id ({ x with stack := rest }.setSlot b (some (frameSlot { p with parked := false })))) id.serial 1 96) := by
  show execFramePop id s = _
  simp only [execFramePop, hx, hdue]

theorem popDue_a {x : Wave} {p : Path} {rest : List Frame} (hs : x.stack = .path p :: rest) (ha : x.a = none) :
    x.popDue = some (false, p, rest) := by simp [Wave.popDue, hs, ha]

theorem popDue_b {x : Wave} {p : Path} {rest : List Frame} (hs : x.stack = .path p :: rest) (ha : x.a ≠ none) (hb : x.b = none) :
    x.popDue = some (true, p, rest) := by simp [Wave.popDue, hs, ha, hb]

theorem exec_frameReadDone {s : State} {id : WaveId} {x : Wave} (hx : s.wave id = some x) {b : Bool} {sl : Slot} (hsl : x.slot b = some sl)
    (h : sl.hold = .frame) : exec (.frameReadDone id b) s = .next (s.setWave id (x.setSlot b (some { sl with hold := .free }))) := by
  show execFrameReadDone id b s = _
  simp [execFrameReadDone, modWave_of hx, hsl, h]

/-- Settles O36: the words by what each leaves of its wave, `EXIT` by where the wave has a path left; fetch errors and `ILLOP` by the trap of
the path named. -/
theorem endsFramesAndFetch : Obligations.EndsFramesAndFetch := by
  refine ⟨?words, ?fetch⟩
  case words =>
    intro s c code hc gone ends
    obtain ⟨-, hblock, hl, -⟩ := issuer_spec hc
    refine ⟨?beside, ?above, ?last, ?yield, passes_of hc (issue_of hc _), answers_raiseLimit hc rfl rfl, ?brk, ?pop,
      fun id x sb sl hx hs h => exec_frameReadDone hx hs h⟩
    case beside =>
      intro x hx _
      have he := exitPath_beside hx
      exact answers_exit_going hc (he ▸ over_eq_false_of_slot ((slot_setSlot_other c.w c.slotB none).trans hx)) he
    case above =>
      intro hx above p rest hs hpath
      have hstack : (c.w.exitPath c.slotB).stack = .path p :: rest := by
        rw [exitPath_last hx, hs]; exact unwind_stack_path hpath _ p rest
      exact answers_exit_going hc (over_eq_false_of_path hstack) ⟨hstack, exitPath_last_rest hx⟩
    case last =>
      intro hx hpath hgoing hsweep
      obtain ⟨ha, hb⟩ := exitPath_last_empty hx
      have hstack : (c.w.exitPath c.slotB).stack = [] := by rw [exitPath_last hx]; exact unwind_stack_nil hpath _
      have hrest : (c.w.exitPath c.slotB).withControl c.w = c.w :=
        (congrArg (fun u : Wave => u.withControl c.w) (exitPath_last_rest hx)).trans (setSlot_withControl c.w c.w _ _)
      have hallot : (c.w.exitPath c.slotB).allot = c.w.allot := (congrArg Wave.allot hrest :)
      have hresident : (c.w.exitPath c.slotB).resident = c.w.resident := (congrArg Wave.resident hrest :)
      obtain ⟨hw, -, hothers, hstate⟩ := pops_spec hl (c.w.exitPath c.slotB)
      have hblocks : (c.pops (s.setWave c.id (c.w.exitPath c.slotB))).blocks = s.blocks := (congrArg State.blocks hstate :)
      obtain ⟨cl, hretire⟩ := retireIfOver_of_over hw ((congrArg (fun t => tfind t _) hblocks).trans hblock) (over_of_empty ha hb hstack)
        ((congrArg Wave.retiredWave hrest :).trans hgoing) ((congrArg Wave.sweep hrest :).trans hsweep)
      exact ⟨_, (exec_exit hc).trans (congrArg _ hretire), _, _, tfind_tput_same _ _ _, rfl, ha, hb, hresident, tfind_tput_same _ _ _,
        (tget_tput_same _ _ _ _).trans (congrArg _ hallot), fun k hk => (tfind_tput_other _ _ hk).trans (hothers k hk)⟩
    case yield => exact leavesWave_done hc (issue_of hc _) ⟨by cases c.slotB <;> rfl, by cases c.slotB <;> rfl⟩
    case brk =>
      refine ⟨_, issue_of hc _, ?_⟩
      rw [done_of hc, modLaunch_of (s := s.setWave c.id _) hl]
      exact ⟨wave_setWave s c.id _, tfind_tput_same _ _ _, otherWaves_put s c.id _ _ rfl, rfl⟩
    case pop =>
      intro id x p rest hx hs hempty
      by_cases ha : x.a = none
      · exact ⟨_, exec_framePop hx (popDue_a hs ha), _, wave_setWave s id _, rfl, fun _ => ⟨rfl, rfl⟩, fun h => absurd ha h, rfl,
          otherWaves_put s id _ _ rfl, rfl⟩
      · exact ⟨_, exec_framePop hx (popDue_b hs ha (hempty.resolve_left ha)), _, wave_setWave s id _, rfl, fun h => absurd h ha,
          fun _ => ⟨rfl, rfl⟩, rfl, otherWaves_put s id _ _ rfl, rfl⟩
  case fetch =>
    intro s c word hc hb
    have hpath : ∀ {i : Instr} {f : Ctx → State}, exec i s = onPath s c.id c.slotB f → exec i s = .next (f c) :=
      fun he => he.trans (onPath_of hc hb _)
    obtain ⟨-, -, hwave, -⟩ := ctxAt_spec hc
    refine ⟨(hpath rfl).trans (congrArg _ (modWave_of hwave _)),
      fun h => ⟨_, (hpath rfl).trans (congrArg _ (if_pos h)), _, raise_trapped_at hc _ _ _ _ _, ?word⟩,
      fun h => ?first, fun h => ⟨_, (hpath rfl).trans (congrArg _ (if_pos ?none)), raise_trapped_at hc _ _ _ _ _⟩, fun i h => ?some⟩
    case word =>
      intro bytes hbytes
      unfold fetch at hbytes
      dsimp only at hbytes
      split at hbytes
      · cases hbytes
      · cases hbytes; rfl
    case first => exact (hpath rfl).trans (congrArg _ (if_neg (ne_true_of_eq_false h)))
    case none => rw [h]; rfl
    case some => exact (hpath rfl).trans (congrArg _ (if_neg (by simp [h])))

end Sys2Proof.Machine
end

section
/-! PROOF. Waits on points (R88, R202, R208, R211, R215, R216, R218, R219, R303): how a wait ends, is held, or traps with its point's error. -/

namespace Sys2Proof.Machine

/-! ### The state that a wait acts on (R202) -/

/-- The state with the wave's later requests ordered behind this word, where it acquires. -/
def Ctx.ordered (c : Ctx) (s : State) (acquires : Bool) : State := if acquires then c.bar s else s

@[simp] theorem ordered_block (c : Ctx) (s : State) (bar : Bool) (n b : Nat) : (c.ordered s bar).block n b = s.block n b := by cases bar <;> rfl
@[simp] theorem ordered_launch (c : Ctx) (s : State) (bar : Bool) (n : Nat) : (c.ordered s bar).launch n = s.launch n := by cases bar <;> rfl
@[simp] theorem ordered_tick (c : Ctx) (s : State) (bar : Bool) : (c.ordered s bar).tick = s.tick := by cases bar <;> rfl
@[simp] theorem clear_ordered (c : Ctx) (s : State) (bar : Bool) (n : Nat) : c.clear (c.ordered s bar) n = c.clear s n := by cases bar <;> rfl

section
variable {s : State} {c : Ctx} (hw : s.wave c.id = some c.w) (bar : Bool)
include hw

theorem ordered_modWave (f : Wave → Wave) : (c.ordered s bar).modWave c.id f = s.setWave c.id (f (c.barred s bar)) := by
  cases bar with
  | false => exact modWave_of hw f
  | true =>
    have hbar : c.bar s = s.setWave c.id (c.barred s true) := modWave_of hw _
    show (c.bar s).modWave c.id f = _
    rw [hbar, modWave_setWave]

theorem ordered_wave : (c.ordered s bar).wave c.id = some (c.barred s bar) := by
  cases bar with
  | false => exact hw
  | true => exact (tfind_tmod_same _ _ _).trans (congrArg _ hw)

theorem hold_waits (h : Hold) (limit : Nat) : c.waits s (c.hold (c.ordered s bar) h limit) h limit bar none none := by
  rw [Ctx.waits, Ctx.hold, ordered_modWave hw, ordered_tick]

theorem holdMet_waits (h : Hold) (limit : Nat) (q : Point) :
    c.waits s (c.holdMet (c.ordered s bar) h limit (some q)) h limit bar (some true) (some q) := by
  rw [Ctx.waits, Ctx.holdMet, ordered_modWave hw, ordered_tick]
end

/-! ### A wait that ends (R199, R215, R313) -/

/-- Of the machine, `t` has a view that starts no earlier than what the completed phase of `o` released, one more det phase of the block, and the
issuing wave apart nothing else that `s` has not. -/
def Ctx.synced (c : Ctx) (s t : State) (relDone : Nat) : Prop :=
  (∃ v, tfind t.views c.key = some v ∧ v.seen = [] ∧ relDone ≤ v.start ∧ c.w.homePt ≤ v.start) ∧
    (∃ b, t.block c.id.serial c.id.block = some b ∧ b.phase = c.b.phase + 1 ∧ { b with phase := c.b.phase, clock := c.b.clock } = c.b) ∧
    otherWaves s t c.id ∧ { t with waves := s.waves, views := s.views, blocks := s.blocks } = s

theorem acquire_newView_rest (c : Ctx) (s : State) (acq : Nat) (clk : Tab Nat) (f : Wave → Wave) :
    { (acquire (c.newView s acq) c.id.serial c.id.block clk).modWave c.id f with waves := s.waves, views := s.views, blocks := s.blocks } = s := rfl

theorem acquire_newView_synced {s : State} {c : Ctx} (hw : s.wave c.id = some c.w) (hb : s.block c.id.serial c.id.block = some c.b) (bar : Bool)
    (acq : Nat) (clk : Tab Nat) (f : Wave → Wave) :
    let t := (acquire (c.newView (c.ordered s bar) acq) c.id.serial c.id.block clk).modWave c.id f
    t.wave c.id = some (f (c.barred s bar)) ∧ c.synced s t acq := by
  obtain ⟨v, hv, hseen, hhome, hacq⟩ := startView_view (c.ordered s bar) c.key (((c.ordered s bar).wave c.id).map (fun w => w.homePt) |>.getD 0) acq
  have hwaves : ((acquire (c.newView (c.ordered s bar) acq) c.id.serial c.id.block clk).modWave c.id f).waves =
      (s.setWave c.id (f (c.barred s bar))).waves := (congrArg State.waves (ordered_modWave hw bar f) :)
  rw [ordered_wave hw] at hhome
  refine ⟨(congrArg (fun t => tfind t _) hwaves).trans (wave_setWave _ _ _), ⟨v, hv, hseen, hacq, hhome⟩,
    ⟨{ c.b with phase := c.b.phase + 1, clock := joinClock c.b.clock clk }, ?_, rfl, rfl⟩, otherWaves_put _ _ _ _ hwaves, 
    (congrArg (fun u : State => { u with waves := s.waves, views := s.views, blocks := s.blocks })
      (acquire_newView_rest c (c.ordered s bar) acq clk f)).trans ?_⟩
  · exact (tfind_tmod_same _ _ _).trans (congrArg _ ((ordered_block c s bar _ _).trans hb))
  · cases bar <;> rfl

/-! ### A wait that traps (R216, R363) -/

theorem getPoint_setPoint {s : State} {r : PointRef} {b : Block} {l : Launch} (hb : s.block r.serial r.block = some b)
    (hl : s.launch r.serial = some l) (p : Point) : getPoint (setPoint s r p) r = p := by
  cases h : r.cohort with
  | none =>
    have hfind : (setPoint s r p).block r.serial r.block = some { b with points := tput b.points r.n p } := by
      simp only [setPoint, h, modBlock_of hb]
      exact tfind_tput_same _ _ _
    simp only [getPoint, h, hfind, tget_tput_same]
  | some e =>
    have hfind : (setPoint s r p).launch r.serial = some { l with cpoints := tput l.cpoints (pointKey e r.n) p } := by
      simp only [setPoint, h]
      exact launch_modLaunch hl _
    simp only [getPoint, h, hfind, tget_tput_same]

/-- A change of a launch that leaves its offer and its cohort points alone leaves every point alone. -/
theorem getPoint_modLaunch {s : State} {n : Nat} {f : Launch → Launch} (ho : ∀ l, (f l).offer = l.offer) (hp : ∀ l, (f l).cpoints = l.cpoints)
    (r : PointRef) : getPoint (s.modLaunch n f) r = getPoint s r := by
  cases h : r.cohort with
  | none => simp only [getPoint, h]; rfl
  | some e =>
    by_cases hn : r.serial = n
    · have hfind : (s.modLaunch n f).launch r.serial = (s.launch r.serial).map f := by rw [hn]; exact tfind_tmod_same _ _ _
      cases hl : s.launch r.serial with
      | none => simp only [getPoint, h, hfind, hl, Option.map_none]
      | some l => simp only [getPoint, h, hfind, hl, Option.map_some, teamWaves, ho, hp]
    · have hfind : (s.modLaunch n f).launch r.serial = s.launch r.serial := tfind_tmod_other _ _ hn
      simp only [getPoint, h, hfind]

theorem getPoint_takeTrap (c : Ctx) (s : State) (tr : Trap) (r : PointRef) : getPoint (takeTrap c s tr) r = getPoint s r :=
  getPoint_modLaunch (s := dropLatch (s.modWave c.id _) _) (f := fun l => { l with traps := l.traps ++ [tr] }) (fun _ => rfl) (fun _ => rfl) r

/-- A point changed leaves the waves alone, and of its launch at most the cohort points. -/
theorem setPoint_spec {s : State} {n : Nat} {l : Launch} (hl : s.launch n = some l) (r : PointRef) (p : Point) :
    (setPoint s r p).waves = s.waves ∧ ∃ l', (setPoint s r p).launch n = some l' ∧ l'.traps = l.traps := by
  cases h : r.cohort with
  | none => simp only [setPoint, h]; exact ⟨rfl, l, hl, rfl⟩
  | some e =>
    simp only [setPoint, h]
    refine ⟨rfl, ?_⟩
    by_cases hn : r.serial = n
    · subst hn; exact ⟨_, launch_modLaunch hl _, rfl⟩
    · exact ⟨l, (tfind_tmod_other _ _ (Ne.symm hn)).trans hl, rfl⟩

/-- R216: the wait takes the trap of its point's error, of which the point then knows. -/
theorem raisePoint_traps {s : State} {c : Ctx} (hc : s.ctxAt c.id c.slotB = some c) (bar : Bool) {r : PointRef} (hs : r.serial = c.id.serial)
    (hrb : r.block = c.id.block) (q : Point) (lanes : Mask) :
    let t := raisePoint c (c.ordered s bar) r q lanes
    ∃ w l tr, t.wave c.id = some w ∧ t.launch c.id.serial = some l ∧
      w.slot c.slotB = some { c.sl with hold := .trapped } ∧ l.traps = c.l.traps ++ [tr] ∧ (getPoint t r).raised = true ∧ tr.lanes = lanes ∧
      (tr.code, tr.construct, tr.attr) = errTrap q.err ∧ tr.pc = c.sl.path.pc.toNat ∧ tr.engine = (q.src.getD (0, 0, 0)).1 ∧
      tr.value = BitVec.ofNat 64 (q.src.getD (0, 0, 0)).2.2 := by
  intro t
  obtain ⟨-, -, hw, hb, hl, hsl⟩ := ctxAt_spec hc
  set s1 := setPoint (c.ordered s bar) r { getPoint (c.ordered s bar) r with raised := true } with hs1
  obtain ⟨hwaves, l', hl', htraps⟩ := setPoint_spec ((ordered_launch c s bar _).trans hl) r { getPoint (c.ordered s bar) r with raised := true }
  have hw1 : s1.wave c.id = some (c.barred s bar) := (congrArg (fun t => tfind t _) hwaves).trans (ordered_wave hw bar)
  have hslot : (c.barred s bar).slot c.slotB = some c.sl := hsl
  have hraised : (getPoint s1 r).raised = true := by
    rw [hs1, getPoint_setPoint (by rw [ordered_block, hs, hrb]; exact hb) (by rw [ordered_launch, hs]; exact hl)]
  refine ⟨_, _, _, (tfind_tmod_same _ _ _).trans (congrArg _ hw1), launch_modLaunch hl' _, ?_, congrArg (· ++ _) htraps, ?_, rfl, rfl, rfl, rfl, rfl⟩
  · rw [slot_setSlot, hslot]; rfl
  · exact (congrArg Point.raised (getPoint_takeTrap c s1 _ r)).trans hraised

@[simp] theorem setSlot_watch (w : Wave) (b : Bool) (x : Option Slot) : (w.setSlot b x).watch = w.watch := by cases b <;> rfl

theorem setSlot_watched (w : Wave) (b : Bool) (x : Option Slot) (u : Wave) :
    { w.setSlot b x with a := u.a, b := u.b, watch := u.watch } = { w with a := u.a, b := u.b, watch := u.watch } := by cases b <;> rfl

/-! ### How a wait ends, by the word or the step that ends it -/

section
variable {s : State} {c : Ctx} (hc : s.ctxAt c.id c.slotB = some c) {i : Instr} {bar : Bool} {r : PointRef} {q : Point}
include hc

theorem answers_rvwaitFinish {rlx : Bool} (hbar : rlx = true → bar = false) (hq : q.err = 0)
    (he : exec i s = .next (rvwaitFinish c (c.ordered s bar) r q rlx)) :
    answers s i (fun t => t.wave c.id = some ((c.barred s bar).advance c.slotB) ∧
      (rlx = true → t = s.setWave c.id (c.w.advance c.slotB)) ∧ (rlx = false → c.synced s t q.relDone)) := by
  obtain ⟨-, -, hw, hb, -, -⟩ := ctxAt_spec hc
  refine ⟨_, he, ?_⟩
  simp only [rvwaitFinish, hq, bne_self_eq_false, Bool.false_eq_true, if_false]
  cases rlx with
  | true =>
    obtain rfl := hbar rfl
    have hdone : c.done s id = s.setWave c.id (c.w.advance c.slotB) := modWave_of hw _
    exact ⟨hdone ▸ wave_setWave _ _ _, fun _ => hdone, fun h => absurd h.symm Bool.false_ne_true⟩
  | false =>
    obtain ⟨hwave, hsynced⟩ := acquire_newView_synced hw hb bar q.relDone q.clkDone (fun w => w.advance c.slotB)
    exact ⟨hwave, fun h => absurd h Bool.false_ne_true, fun _ => hsynced⟩

theorem answers_yieldFinish {cont : BitVec 32} (hq : q.err = 0) (he : exec i s = .next (yieldFinish c (c.ordered s bar) r q cont)) :
    answers s i (fun t => c.synced s t q.relDone ∧ ∃ w, t.wave c.id = some w ∧ w.slot c.slotB = some (c.sl.to cont) ∧
      w.slot (!c.slotB) = c.w.slot (!c.slotB) ∧ tget false w.watch (watchIx r) = q.ph ∧
      { w with a := c.w.a, b := c.w.b, watch := c.w.watch } = c.barred s bar) := by
  obtain ⟨-, -, hw, hb, -, -⟩ := ctxAt_spec hc
  refine ⟨_, he, ?_⟩
  simp only [yieldFinish, hq, bne_self_eq_false, Bool.false_eq_true, if_false]
  obtain ⟨hwave, hsynced⟩ := acquire_newView_synced hw hb bar q.relDone q.clkDone
    (fun w => { w with watch := tput w.watch (watchIx r) q.ph }.setSlot c.slotB (some (c.sl.to cont)))
  refine ⟨hsynced, _, hwave, slot_setSlot _ _ _, (slot_setSlot_other _ _ _).trans rfl, ?_, ?_⟩
  · rw [setSlot_watch, tget_tput_same]
  · exact (setSlot_watched _ _ _ c.w).trans rfl
end

theorem rvwaitFinish_of_err (c : Ctx) (s : State) (r : PointRef) {q : Point} (h : q.err ≠ 0) (rlx : Bool) :
    rvwaitFinish c s r q rlx = raisePoint c s r q 0 := if_pos (bne_iff_ne.mpr h)

theorem yieldFinish_of_err (c : Ctx) (s : State) (r : PointRef) {q : Point} (h : q.err ≠ 0) (cont : BitVec 32) :
    yieldFinish c s r q cont = raisePoint c s r q c.sl.path.mask := if_pos (bne_iff_ne.mpr h)

theorem metInTime_of_timely {s : State} {c : Ctx} (h : c.timely s) (holds : Bool) : c.metInTime s holds = holds := by
  have hgood : c.sl.met.getD (c.inTime s) = true := by
    rcases h with h | ⟨h, hle⟩
    · rw [h]; rfl
    · rw [h]; exact decide_eq_true hle
  rw [Ctx.metInTime, metInTime, hgood, Bool.and_true]

theorem rvOver_of_err {q : Point} (h : q.err ≠ 0) (par : Bool) : rvOver q par = true := by simp [rvOver, h]

theorem rvOver_of_no_err {q : Point} (h : q.err = 0) (par : Bool) : rvOver q par = true ↔ q.ph ≠ par := by simp [rvOver, h]

theorem yieldOver_of_err {q : Point} (h : q.err ≠ 0) (w : Wave) (p : PointRef) : yieldOver q w p = true := by simp [yieldOver, h]

theorem yieldOver_of_no_err {q : Point} (h : q.err = 0) (w : Wave) (p : PointRef) : yieldOver q w p = true ↔
    (¬ ∃ a ∈ w.arrs, a.watchIx = watchIx p) ∧ q.ph ≠ tget false w.watch (watchIx p) := by
  simp [yieldOver, h]

theorem pointOf_spec {l : Launch} {id : WaveId} {pt : BitVec 8} {p : PointRef} (h : pointOf l id pt = some p) :
    p.serial = id.serial ∧ p.block = id.block := by
  unfold pointOf at h
  dsimp only at h
  split_ifs at h
  · cases h; exact ⟨rfl, rfl⟩
  · obtain ⟨co, -, rfl⟩ := Option.map_eq_some_iff.mp h
    exact ⟨rfl, rfl⟩

section
variable {s : State} {c : Ctx} (hc : s.issuer = some c) {pt : BitVec 8} {p : PointRef} (hp : pointOf c.l c.id pt = some p)
include hc hp

theorem exec_rvwait {h : Hdr} (ha : c.any h = true) (rlx : Bool) (x : BitVec 6) (lim : Lim 31) {par : Bool}
    (hpar : par = (c.w.readS x.toNat).getLsbD 0) : exec (.rvwait h pt rlx x lim) s = .next (
      if rvOver (getPoint s p) par = true then
        if rlx = true ∨ (getPoint s p).err ≠ 0 ∨ c.clear s s.tick = true then rvwaitFinish c (c.ordered s (!rlx)) p (getPoint s p) rlx
        else c.holdMet (c.ordered s (!rlx)) (.rvwait p par rlx) (limVal c.l lim) (some (getPoint s p))
      else c.hold (c.ordered s (!rlx)) (.rvwait p par rlx) (limVal c.l lim)) := by
  show execRvwait h pt rlx x lim s = _
  have hs1 : (if rlx then s else c.bar s) = c.ordered s (!rlx) := by cases rlx <;> rfl
  have hpar' : (c.s x).getLsbD 0 = par := hpar.symm
  simp only [execRvwait, pointWord, issue_of hc, ha, hp, hpar', hs1, clear_ordered, ordered_tick]
  cases rvOver (getPoint s p) par <;> simp [or_assoc]

theorem exec_yieldc (tgt : BitVec 24) (lim : Lim 15) :
    exec (.yieldc pt tgt lim) s = .next (
      if yieldOver (getPoint s p) c.w p = true then
        if (getPoint s p).err ≠ 0 ∨ c.clear s s.tick = true then yieldFinish c (c.ordered s true) p (getPoint s p) (target c.sl.path.pc tgt)
        else c.holdMet (c.ordered s true) (.yieldc p (target c.sl.path.pc tgt)) (limVal c.l lim) (some (getPoint s p))
      else c.hold (c.ordered s true) (.yieldc p (target c.sl.path.pc tgt)) (limVal c.l lim)) := by
  show execYieldc pt tgt lim s = _
  have hs1 : c.bar s = c.ordered s true := rfl
  simp only [execYieldc, issue_of hc, hp, hs1, clear_ordered, ordered_tick]
  cases yieldOver (getPoint s p) c.w p <;> simp
end

section
variable {s : State} {c : Ctx} (hc : s.ctxAt c.id c.slotB = some c) (hb : c.b.place = .resident) (ht : c.timely s) {p : PointRef}
include hc hb ht

theorem exec_rvwaitComplete {par rlx : Bool} (hh : c.sl.hold = .rvwait p par rlx) : exec (.rvwaitComplete c.id c.slotB) s = .next (
    if rvOver (c.point s p) par = true ∧ (rlx = true ∨ (c.point s p).err ≠ 0 ∨ c.clear s c.sl.since = true) then rvwaitFinish c s p (c.point s p) rlx
    else s) := by
  show execRvwaitComplete c.id c.slotB s = _
  rw [execRvwaitComplete, onPath_of hc hb]
  simp [hh, metInTime_of_timely ht, or_assoc]

theorem exec_yieldcResume {cont : BitVec 32} (hh : c.sl.hold = .yieldc p cont) : exec (.yieldcResume c.id c.slotB) s = .next (
    if (c.sl.seen ≠ none ∨ yieldOver (c.point s p) c.w p = true) ∧ ((c.point s p).err ≠ 0 ∨ c.clear s c.sl.since = true) then
      yieldFinish c s p (c.point s p) cont
    else s) := by
  show execYieldcResume c.id c.slotB s = _
  rw [execYieldcResume, onPath_of hc hb]
  simp [hh, metInTime_of_timely ht, Option.isSome_iff_ne_none]
end

/-- Settles O27: the word that waits, and the step that completes its wait, each by where the point stands: with an error, its phase over and the
earlier loads performed or not, its phase open. -/
theorem pointWaits : Obligations.PointWaits := by
  intro s c h pt rlx x lim tgt lim' p par cont hc o q synced ends resumes fails watched arriving clear
  obtain ⟨-, -, hw, hblock, hl, hsl⟩ := ctxAt_spec hc
  have hissuer : s.cur = (c.id, c.slotB) → s.issuer = some c := fun hcur => by rw [State.issuer, hcur]; exact hc
  have hfails : ∀ {i : Instr} {bar : Bool} {lanes : Mask} {q : Point}, p.serial = c.id.serial → p.block = c.id.block →
      exec i s = .next (raisePoint c (c.ordered s bar) p q lanes) → fails i lanes q :=
    fun hs hb he => ⟨_, he, raisePoint_traps hc _ hs hb _ _⟩
  have hclear : ∀ {n : Nat}, clear n false → c.clear s n = true := fun h => h.resolve_left Bool.false_ne_true
  refine ⟨?rvwait, ?passes, ?rvwaitNoTeam, ?yieldcNoTeam, ?yieldc, ?complete⟩
  case rvwait =>
    intro hcur ha hp hpar
    obtain ⟨hs, hb⟩ := pointOf_spec hp
    have he := exec_rvwait (hissuer hcur) hp ha rlx x lim hpar
    refine ⟨fun h0 hph hcl => ?ends, fun h0 hph hcl => ?endsHeld, fun h0 => ?err, fun h0 hph => ?holds⟩
    case ends =>
      have hover := (rvOver_of_no_err h0 par).mpr hph
      exact answers_rvwaitFinish hc (by simp) h0 (he.trans (congrArg _ ((if_pos hover).trans (if_pos (hcl.imp_right .inr)))))
    case endsHeld =>
      have hover := (rvOver_of_no_err h0 par).mpr hph
      obtain ⟨hacq, hviews⟩ := not_or.mp hcl
      obtain rfl : rlx = false := Bool.eq_false_of_not_eq_true hacq
      have hheld := not_or.mpr ⟨hacq, not_or.mpr ⟨not_not_intro h0, hviews⟩⟩
      exact ⟨_, he.trans (congrArg _ ((if_pos hover).trans (if_neg hheld))), holdMet_waits hw true _ _ _⟩
    case err =>
      have hover := rvOver_of_err h0 par
      have hraise := rvwaitFinish_of_err c (c.ordered s (!rlx)) p h0 rlx
      exact hfails hs hb (he.trans (congrArg _ ((if_pos hover).trans ((if_pos (.inr (.inl h0))).trans hraise))))
    case holds =>
      have hopen := mt (rvOver_of_no_err h0 par).mp (not_not_intro hph)
      exact ⟨_, he.trans (congrArg _ (if_neg hopen)), hold_waits hw _ _ _⟩
  case passes =>
    intro hcur ha
    refine passes_of (hissuer hcur) ?_
    show execRvwait h pt rlx x lim s = _
    simp [execRvwait, pointWord, issue_of (hissuer hcur), ha]
  case rvwaitNoTeam =>
    intro hcur ha hp
    refine ⟨raiseWave c s cRESERVED 0, ?_, raise_trapped (hissuer hcur) _ _ _ _ _⟩
    show execRvwait h pt rlx x lim s = _
    simp [execRvwait, pointWord, issue_of (hissuer hcur), ha, hp]
  case yieldcNoTeam =>
    intro hcur hp
    refine ⟨raise c s cRESERVED aCALLER 0 c.sl.path.mask 0, ?_, raise_trapped (hissuer hcur) _ _ _ _ _⟩
    show execYieldc pt tgt lim' s = _
    simp [execYieldc, issue_of (hissuer hcur), hp]
  case yieldc =>
    intro hcur hp goal
    obtain ⟨hs, hb⟩ := pointOf_spec hp
    have he := exec_yieldc (hissuer hcur) hp tgt lim'
    refine ⟨fun h0 harr hph hcl => ?ends, fun h0 harr hph hcl => ?endsHeld, fun h0 => ?err, fun h0 hph => ?holds⟩
    case ends =>
      have hover := (yieldOver_of_no_err h0 c.w p).mpr ⟨harr, hph⟩
      exact answers_yieldFinish hc h0 (he.trans (congrArg _ ((if_pos hover).trans (if_pos (.inr (hclear hcl))))))
    case endsHeld =>
      have hover := (yieldOver_of_no_err h0 c.w p).mpr ⟨harr, hph⟩
      have hheld := not_or.mpr ⟨not_not_intro h0, mt .inr hcl⟩
      exact ⟨_, he.trans (congrArg _ ((if_pos hover).trans (if_neg hheld))), holdMet_waits hw true _ _ _⟩
    case err =>
      have hover := yieldOver_of_err h0 c.w p
      have hraise := yieldFinish_of_err c (c.ordered s true) p h0 goal
      exact hfails hs hb (he.trans (congrArg _ ((if_pos hover).trans ((if_pos (.inl h0)).trans hraise))))
    case holds =>
      have hopen := mt (yieldOver_of_no_err h0 c.w p).mp (fun h => hph.elim h.1 h.2)
      exact ⟨_, he.trans (congrArg _ (if_neg hopen)), hold_waits hw true _ _⟩
  case complete =>
    intro hres hs hb ht
    refine ⟨fun hh => ?rvwait, fun hh => ?yieldc⟩
    case rvwait =>
      have he := exec_rvwaitComplete hc hres ht hh
      refine ⟨fun h0 hph hcl => ?ends, fun h0 => ?err, fun h0 hn => ?holds⟩
      case ends =>
        have hover := (rvOver_of_no_err h0 par).mpr hph
        exact answers_rvwaitFinish (bar := false) hc (fun _ => rfl) h0 (he.trans (congrArg _ (if_pos ⟨hover, hcl.imp_right .inr⟩)))
      case err =>
        have hraise := rvwaitFinish_of_err c s p h0 rlx
        exact hfails (bar := false) hs hb (he.trans (congrArg _ ((if_pos ⟨rvOver_of_err h0 par, .inr (.inl h0)⟩).trans hraise)))
      case holds =>
        refine he.trans (congrArg _ (if_neg ?_))
        rintro ⟨hover, hcl⟩
        exact hn.elim ((rvOver_of_no_err h0 par).mp hover) (fun hn => hn (hcl.imp_right (Or.resolve_left · (not_not_intro h0))))
    case yieldc =>
      intro ended
      have he := exec_yieldcResume hc hres ht hh
      have hended : q.err = 0 → (ended ↔ c.sl.seen ≠ none ∨ yieldOver (c.point s p) c.w p = true) :=
        fun h0 => or_congr_right (yieldOver_of_no_err h0 c.w p).symm
      refine ⟨fun h0 hend hcl => ?ends, fun h0 => ?err, fun h0 hn => ?holds⟩
      case ends =>
        exact answers_yieldFinish (bar := false) hc h0 (he.trans (congrArg _ (if_pos ⟨(hended h0).mp hend, .inr (hclear hcl)⟩)))
      case err =>
        have hraise := yieldFinish_of_err c s p h0 cont
        exact hfails (bar := false) hs hb (he.trans (congrArg _ ((if_pos ⟨.inr (yieldOver_of_err h0 c.w p), .inl h0⟩).trans hraise)))
      case holds =>
        refine he.trans (congrArg _ (if_neg ?_))
        rintro ⟨hend, hcl⟩
        exact hn.elim (· ((hended h0).mpr hend)) (fun hn => hn (.inr (hcl.resolve_left (not_not_intro h0))))

end Sys2Proof.Machine
end

section
/-! PROOF. The integer, bit-field and compare words (R120 to R123): the driver of a lane word gives what its value function gives in each
turn, so that each word is left with one fact of arithmetic. -/

namespace Sys2Proof.Machine

/-! ### Sources -/

theorem readType_lt (w : Wave) (t : Ty) (sc : Bool) (r l : Nat) : readType w t sc r l < 2 ^ t.bits := Nat.mod_lt _ (Nat.two_pow_pos _)

theorem srcA_lt (w : Wave) (r : Lane) (t : Ty) (l : Nat) : srcA w r t l < 2 ^ t.bits := readType_lt _ _ _ _ _
theorem srcB_lt (w : Wave) (r : Lane) (t : Ty) (l : Nat) : srcB w r t l < 2 ^ t.bits := readType_lt _ _ _ _ _

theorem srcU_lt (w : Wave) (r : Lane) (t : Ty) (l : Nat) : srcU w r t l < 2 ^ t.bits := by
  unfold srcU
  split
  · exact srcB_lt w r t l
  · exact srcA_lt w r t l

/-! ### Values (R120) -/

theorem tyMin_le_tyMax (t : Ty) : tyMin t ≤ tyMax t := by cases t <;> decide

theorem sat_eq_max_min (t : Ty) (x : Int) : sat t x = max (tyMin t) (min (tyMax t) x) := by
  have h := tyMin_le_tyMax t
  unfold sat
  split_ifs <;> omega

theorem wrap_natCast (t : Ty) (n : Nat) : wrap t n = n % 2 ^ t.bits :=
  congrArg Int.toNat (Int.natCast_emod n (2 ^ t.bits)).symm

theorem iNeg_eq (t : Ty) (a : Nat) : iNeg t a = (-(a : Int) % 2 ^ t.bits).toNat := by rw [iNeg, wrap, Int.zero_sub]

theorem iNot_of_lt {t : Ty} {a : Nat} (h : a < 2 ^ t.bits) : iNot t a = 2 ^ t.bits - 1 - a := by rw [iNot, Nat.mod_eq_of_lt h]

/-- A pattern of n bits rotated: what is shifted out at the top comes in at the bottom. -/
theorem iRot_of_lt {t : Ty} {a : Nat} (h : a < 2 ^ t.bits) (b : Nat) :
    iRot t a b = (a * 2 ^ (b % 2 ^ 32 % t.bits) ||| a / 2 ^ (t.bits - b % 2 ^ 32 % t.bits)) % 2 ^ t.bits := by
  have hlow : a / 2 ^ (t.bits - b % 2 ^ 32 % t.bits) < 2 ^ t.bits := (Nat.div_le_self _ _).trans_lt h
  rw [Nat.or_mod_two_pow, Nat.mod_eq_of_lt hlow]
  rfl

theorem size_eq_log2_add_one {a : Nat} (h : a ≠ 0) : Nat.size a = a.log2 + 1 :=
  le_antisymm (Nat.size_le.mpr ((Nat.log2_lt h).mp (Nat.lt_succ_self _))) (Nat.lt_size.mpr (Nat.log2_self_le h))

theorem iClz_of_lt {t : Ty} {a : Nat} (h : a < 2 ^ t.bits) : iClz t a = t.bits - Nat.size a := by
  simp only [iClz, Nat.mod_eq_of_lt h]
  split_ifs with h0
  · rw [h0, Nat.size_zero, Nat.sub_zero]
  · rw [size_eq_log2_add_one h0]; omega

/-- After `k` bits of `a` the sum holds them in reverse at the top of `n` bits. -/
theorem brev_sum (n a : Nat) : ∀ k ≤ n, ∃ q,
    (List.range k).foldl (fun r i => if a.testBit i then r + 2 ^ (n - 1 - i) else r) 0 = 2 ^ (n - k) * q ∧
      ∀ i < k, q.testBit i = a.testBit (k - 1 - i) := by
  intro k hk
  induction k with
  | zero => exact ⟨0, rfl, fun i hi => absurd hi (Nat.not_lt_zero i)⟩
  | succ k ih =>
    obtain ⟨q, hq, hbits⟩ := ih (Nat.le_of_succ_le hk)
    refine ⟨Nat.bit (a.testBit k) q, ?_, fun i hi => ?_⟩
    · have hp : 2 ^ (n - k) = 2 ^ (n - (k + 1)) * 2 := by rw [← pow_succ]; congr 1; omega
      have hx : n - 1 - k = n - (k + 1) := by omega
      rw [List.range_succ, List.foldl_append, hq, hp, List.foldl_cons, List.foldl_nil, hx, Nat.bit_val]
      cases a.testBit k <;> simp <;> ring
    · cases i with
      | zero => simp
      | succ i => rw [Nat.testBit_bit_succ, hbits i (by omega)]; congr 1; omega

theorem iBrev_testBit (t : Ty) (a : Nat) {i : Nat} (hi : i < t.bits) : (iBrev t a).testBit i = a.testBit (t.bits - 1 - i) := by
  obtain ⟨q, hq, hbits⟩ := brev_sum t.bits a t.bits le_rfl
  rw [iBrev, hq, Nat.sub_self, pow_zero, Nat.one_mul, hbits i hi]

/-! ### The words -/

/-- A class A word that gives `y`, which is `x`, in each of its turns (R65, R115). -/
theorem leavesWave_turns {s : State} {c : Ctx} {r : Lane} {i : Instr} {t : Ty} {x y : Nat → Nat} (hc : s.issuer = some c)
    (he : exec i s = .next (c.write s ((c.turns r).flatMap (fun l => typeWrites t (r.form == .scal) r.dst.toNat l (y l)))))
    (hy : ∀ l, y l = x l) : leavesWave c s i (fun w => c.wroteLane w r t x) := by
  obtain rfl := funext hy
  exact leavesWave_write hc he (wroteLane_of c r t _)

/-- Settles O1: each word by its value function; `ISADD` clamps between the bounds of its type, and `NOT`, `ROT`, `CLZ` and `BREV` are given
patterns of n bits. -/
theorem integerWordsCompute : Obligations.IntegerWordsCompute := by
  intro s c r hc
  have ha := srcA_lt c.w r r.ty
  have hu := srcU_lt c.w r r.ty
  refine ⟨?_, ?_, ?_, ?_, ?_, ?isadd, ?_, ?_, ?iabs, ?ineg, ?_, ?_, ?_, ?not, ?_, ?_, ?_, ?rot, ?_, ?clz, ?brev, ?_⟩
  case isadd => exact leavesWave_turns hc (issue_of hc _) fun _ => congrArg (wrap r.ty) (sat_eq_max_min r.ty _)
  case iabs => exact leavesWave_turns hc (issue_of hc _) fun _ => wrap_natCast r.ty _
  case ineg => exact leavesWave_turns hc (issue_of hc _) fun _ => iNeg_eq r.ty _
  case not => exact leavesWave_turns hc (issue_of hc _) fun l => iNot_of_lt (hu l)
  case rot => exact leavesWave_turns hc (issue_of hc _) fun l => iRot_of_lt (ha l) _
  case clz => exact leavesWave_turns hc (issue_of hc _) fun l => iClz_of_lt (hu l)
  case brev => exact ⟨_, leavesWave_turns hc (issue_of hc _) fun _ => rfl, fun l _ hi => iBrev_testBit r.ty (srcU c.w r r.ty l) hi⟩
  all_goals exact leavesWave_turns hc (issue_of hc _) fun _ => rfl

/-! ### Bit fields (R122) -/

theorem bits_7_0 (b : Nat) : bits b 7 0 = b % 256 := congrArg (· % 256) (Nat.div_one b)
theorem bits_15_8 (b : Nat) : bits b 15 8 = b / 256 % 256 := rfl

theorem iBfx_eq (t : Ty) (a b : Nat) :
    let p := b % 256
    let w0 := b / 256 % 256
    let w := min w0 (t.bits - p)
    let f := a / 2 ^ p % 2 ^ w
    iBfx t a b = if t.bits ≤ p ∨ w0 = 0 then 0 else if t.signed = true ∧ f.testBit (w - 1) = true then f + (2 ^ t.bits - 2 ^ w) else f := by
  rw [← bits_15_8 b, ← bits_7_0 b]
  simp only [iBfx, ge_iff_le, Bool.or_eq_true, decide_eq_true_eq, Bool.and_eq_true]

theorem iBfi_eq (t : Ty) (a b z : Nat) :
    let p := b % 256
    let w0 := b / 256 % 256
    let m := (2 ^ min w0 (t.bits - p) - 1) * 2 ^ p
    iBfi t a b z = if t.bits ≤ p ∨ w0 = 0 then z else (z &&& (2 ^ t.bits - 1 - m)) ||| (a * 2 ^ p &&& m) := by
  rw [← bits_15_8 b, ← bits_7_0 b]
  simp only [iBfi, ge_iff_le, Bool.or_eq_true, decide_eq_true_eq]

/-- Settles O3: the value functions of the two words are the rule's, and the word is the encoding of the instruction named. -/
theorem bitFieldWords : Obligations.BitFieldWords := by
  refine ⟨fun s c r hc => ⟨?bfx, ?bfi⟩, decode_eq_some_iff.mpr ⟨by decide, by decide⟩⟩
  case bfx => exact leavesWave_turns hc (issue_of hc _) fun _ => iBfx_eq r.ty _ _
  case bfi => exact leavesWave_turns hc (issue_of hc _) fun _ => iBfi_eq r.ty _ _ _

/-! ### Mask results (R121, R123) -/

/-- The mask of the lanes of EFF that meet a condition holds the condition in each lane of EFF. -/
theorem maskOf_lanes_bit (c : Ctx) (h : Hdr) (p : Nat → Bool) {l : Nat} (hl : l < c.w.width) (h64 : l < 64)
    (he : (c.eff h).getLsbD l = true) : (maskOf ((c.lanes h).filter p)).getLsbD l = p l := by
  have hm : l ∈ c.lanes h := mem_lanesOf.mpr ⟨hl, he⟩
  rw [maskOf_bit _ _ h64]
  simp [hm]

/-- A word that writes a condition to the lanes of EFF of a mask register. -/
theorem leavesWave_cond {s : State} {c : Ctx} (hc : s.issuer = some c) {r : Lane} {i : Instr} {f : Ctx → Nat → Bool} {p : Nat → Bool}
    (he : exec i s = issue s (fun c => c.write s [condWrite c r (f c)])) (hp : ∀ l, f c l = p l) :
    leavesWave c s i (fun w => c.maskOnly w r.dst.toNat (c.eff r.h) p) := by
  obtain rfl := funext hp
  exact leavesWave_write hc (he.trans (issue_of hc _)) (maskOnly_of c _ _ _ _ (fun _ hl h64 he => maskOf_lanes_bit c r.h _ hl h64 he))

/-- In scalar form a source is the same in every lane (R38). -/
theorem srcA_scal {r : Lane} (h : r.form = .scal) (w : Wave) (t : Ty) (l : Nat) : srcA w r t l = srcA w r t 0 := by
  simp [srcA, readType, h]

theorem srcB_scal {r : Lane} (h : r.form = .scal) (w : Wave) (t : Ty) (l : Nat) : srcB w r t l = srcB w r t 0 := by
  simp [srcB, readType, h]

theorem leavesWave_icmp {s : State} {c : Ctx} (hc : s.issuer = some c) {r : Lane} (cc : Cond) (q : Int → Int → Bool)
    (hq : ∀ a b, iCond cc r.ty a b = q (val r.ty a) (val r.ty b)) :
    leavesWave c s (.icmp cc r) (fun w => c.maskOnly w r.dst.toNat (c.eff r.h) (fun l =>
      if r.form = .scal then q (val r.ty (srcA c.w r r.ty 0)) (val r.ty (srcB c.w r r.ty 0))
      else q (val r.ty (srcA c.w r r.ty l)) (val r.ty (srcB c.w r r.ty l)))) := by
  refine leavesWave_cond hc rfl fun l => ?_
  split_ifs with h
  · rw [hq, srcA_scal h c.w r.ty l, srcB_scal h c.w r.ty l]
  · exact hq _ _

/-- Settles O4: in scalar form every lane tests the same two values (R123); `SEL` has vector forms only. -/
theorem compareAndSelect : Obligations.CompareAndSelect := by
  refine ⟨fun s c r hc => ⟨leavesWave_icmp hc .eq (fun x y => decide (x = y)) fun _ _ => rfl,
    leavesWave_icmp hc .ne (fun x y => decide (x ≠ y)) fun _ _ => rfl,
    leavesWave_icmp hc .lt (fun x y => decide (x < y)) fun _ _ => rfl,
    leavesWave_icmp hc .le (fun x y => decide (x ≤ y)) fun _ _ => rfl,
    leavesWave_icmp hc .gt (fun x y => decide (y < x)) fun _ _ => rfl,
    leavesWave_icmp hc .ge (fun x y => decide (y ≤ x)) fun _ _ => rfl, fun hform => ?_⟩, decode_eq_some_iff.mpr ⟨by decide, by decide⟩⟩
  have hscal : (r.form == .scal) = false := beq_eq_false_iff_ne.mpr hform
  have h := wroteLane_of c r r.ty (fun l => if (c.w.readM r.sc.toNat).getLsbD l = true then srcA c.w r r.ty l else srcB c.w r r.ty l)
  rw [hscal, turns_vec c r hform] at h
  exact leavesWave_write hc (issue_of hc _) h

/-- Settles O2: the sums are written lane by lane, and then the carries to the lanes of EFF of `m[C]`. -/
theorem addWithCarry : Obligations.AddWithCarry := by
  refine ⟨fun s c r hc hform => ?_, decode_eq_some_iff.mpr ⟨by decide, by decide⟩⟩
  refine leavesWave_write hc (issue_of hc _) ⟨past_write _ _, fun d => ?scal, fun d l hl => ?vec, fun d l hw hl => ?mask⟩
  all_goals rw [applyWrites_append, applyWrites_cons, applyWrites_nil, applyWrite_m]
  case scal => rw [advance_readS, writeM_readS, vecWrites_readS]
  case vec =>
    rw [advance_readV, writeM_readV]
    exact vecWrites_readV c.w _ r.ty _ _ (lanes_lt c r.h) d l hl
  case mask =>
    rw [advance_readM, readM_writeM _ _ _ _ _ _ (by simpa using hw) hl, vecWrites_readM]
    split_ifs with h
    · exact maskOf_lanes_bit c r.h _ (by simpa using hw) hl h.2.2
    · rfl
end Sys2Proof.Machine
end

section
/-! PROOF. Moves, special registers and the hash (R112 to R114, R124, R125). -/

namespace Sys2Proof.Machine

/-! ### Values extended to 64 bits (R65) -/

theorem extend_n32_word (x : BitVec 64) : extend .n32 x.toNat = (x.setWidth 32).setWidth 64 := by
  apply BitVec.eq_of_toNat_eq
  rw [BitVec.toNat_setWidth, BitVec.toNat_setWidth]
  rfl

theorem extend_n32 (x : BitVec 32) : extend .n32 x.toNat = x.setWidth 64 := by
  apply BitVec.eq_of_toNat_eq
  rw [BitVec.toNat_setWidth]
  exact congrArg (· % 2 ^ 64) (Nat.mod_eq_of_lt x.isLt)

theorem extend_i32 (x : BitVec 32) : extend .i32 x.toNat = x.signExtend 64 := by
  have h : signedOf 32 x.toNat = x.toInt := by
    rw [signedOf, BitVec.toInt_eq_toNat_cond, Nat.mod_eq_of_lt x.isLt]; rfl
  exact congrArg (BitVec.ofInt 64) h

/-- A type of 32 bits writes the low word, however the value is extended (R124). -/
theorem typeWrites_i32 (d l : Nat) (x : BitVec 32) : typeWrites .i32 false d l x.toNat = [.v d l x] := by
  have h : (extend .i32 x.toNat).extractLsb' 0 32 = x := by
    rw [extend_i32]
    refine BitVec.eq_of_getLsbD_eq fun i hi => ?_
    have h64 : i < 64 := by omega
    simp [BitVec.getElem_signExtend, hi, h64]
  exact congrArg (fun y => [RegWrite.v d l y]) h

/-! ### `MOVI` (R124) -/

theorem moviWrites_vec (d : Nat) (ls : List Nat) (signed : Bool) (x : BitVec 32) :
    ls.flatMap (fun l => typeWrites (if signed then .i32 else .n32) false d l x.toNat) = ls.map (fun l => .v d l (BitVec.ofNat 32 x.toNat)) := by
  rw [List.map_eq_flatMap, BitVec.ofNat_toNat, BitVec.setWidth_eq]
  cases signed
  · simp only [Bool.false_eq_true, if_false, typeWrites_n32, BitVec.ofNat_toNat, BitVec.setWidth_eq]
  · simp only [if_true, typeWrites_i32]

theorem moviWrites_scal (d : Nat) (on signed : Bool) (x : BitVec 32) :
    (if on then [0] else []).flatMap (fun l => typeWrites (if signed then .i32 else .n32) true d l x.toNat) =
      if on then [.s d (if signed = true then x.signExtend 64 else x.setWidth 64)] else [] := by
  cases on
  · rfl
  · cases signed
    · exact congrArg (fun y => [RegWrite.s d y]) (extend_n32 x)
    · exact congrArg (fun y => [RegWrite.s d y]) (extend_i32 x)

section
variable {s : State} {c : Ctx} (hc : s.issuer = some c) (h : Hdr) (d : BitVec 8) (signed : Bool) (imm : BitVec 32)
include hc

theorem exec_movi_vec : exec (.movi h d signed false imm) s =
    .next (c.write s ((c.lanes h).map (fun l => .v d.toNat l (BitVec.ofNat 32 imm.toNat)))) := by
  rw [← moviWrites_vec d.toNat (c.lanes h) signed imm]
  exact issue_of hc _

theorem exec_movi_scal : exec (.movi h d signed true imm) s =
    .next (c.write s (if c.any h then [.s d.toNat (if signed = true then imm.signExtend 64 else imm.setWidth 64)] else [])) := by
  rw [← moviWrites_scal]
  exact issue_of hc _
end

/-! ### Special registers (Table 5-5, R112 to R114) -/

theorem extend_sreg (wide : Bool) (x : BitVec 64) :
    extend (if wide then .n64 else .n32) x.toNat = if wide = true then x else (x.setWidth 32).setWidth 64 := by
  cases wide
  · exact extend_n32_word x
  · exact extend_n64 x

theorem sregTy_wide (wide : Bool) : (if wide then Ty.n64 else Ty.n32).wide = wide := by cases wide <;> rfl

/-- The source of `SWR`: a scalar register, or the pair of the lowest lane of EFF (R114). -/
def Ctx.swrSource (c : Ctx) (scalar : Bool) (d : BitVec 8) (l : Nat) : BitVec 64 :=
  if scalar then c.w.readS d.toNat else c.w.readV64 d.toNat l

section
variable {s : State} {c : Ctx} (hc : s.issuer = some c) {h : Hdr} {keep : BitVec 3} {d : BitVec 8}
include hc

theorem exec_swr {l : Nat} (hl : (c.lanes h).head? = some l) (scalar : Bool) (code : SReg) :
    exec (.swr h keep scalar code d) s =
      .next (c.done s (fun w => { w with cycOff := c.swrSource scalar d l - BitVec.ofNat 64 (c.count s) })) := by
  obtain ⟨ls, hls⟩ := List.head?_eq_some_iff.mp hl
  refine (issue_of hc _).trans ?_
  rw [hls]
  rfl

theorem passes_swr (hl : c.lanes h = []) (scalar : Bool) (code : SReg) : passes c s (.swr h keep scalar code d) := by
  refine passes_of hc ((issue_of hc _).trans ?_)
  rw [hl]

/-- After `SWR CYCLES` a read counts on from the operand (R114). -/
theorem swr_counts {l : Nat} (hl : (c.lanes h).head? = some l) (scalar : Bool) (code : SReg) :
    leavesWave c s (.swr h keep scalar code d) (fun w =>
      { w with cycOff := c.w.cycOff } = c.w.advance c.slotB ∧ BitVec.ofNat 64 (c.count s) + w.cycOff = c.swrSource scalar d l) := by
  refine leavesWave_done hc (exec_swr hc hl scalar code) ?_
  cases c.slotB
  all_goals exact ⟨rfl, add_sub_cancel _ _⟩
end

/-- Settles O5: `MOVI` by the word that its type writes, `SRD` by the value and the width of its register, `SWR` by the offset of the
count. -/
theorem movesAndSpecialRegisters : Obligations.MovesAndSpecialRegisters := by
  refine ⟨fun s c h d signed imm hc => ⟨?moviVec, ?moviScal⟩, ?sreg⟩
  case moviVec =>
    refine leavesWave_write hc (exec_movi_vec hc h d signed imm) ?_
    have hx : imm.setWidth 64 = BitVec.ofNat 64 (imm.toNat % 2 ^ 32) := by rw [Nat.mod_eq_of_lt imm.isLt]; exact (BitVec.ofNat_toNat 64 imm).symm
    rw [hx]
    exact vecOnly_word c d.toNat _ _ (lanes_lt c h)
  case moviScal =>
    exact leavesWave_write hc (exec_movi_scal hc h d signed imm) (scalOnly_of c d.toNat _ _)
  case sreg =>
    intro s c h keep code d hc count value wide counts
    have hwide : sregWide code = wide := by cases code <;> rfl
    have hvalue : ∀ l, sregVal c s l code = value l := fun l => by cases code <;> rfl
    refine ⟨?srdScal, ?srdVec, fun l hl => ⟨swr_counts hc hl true _, swr_counts hc hl false _⟩, fun hl scalar => passes_swr hc hl scalar _⟩
    case srdScal =>
      rw [← hvalue]
      exact leavesWave_write hc (issue_of hc _) (scalOnly_of c d.toNat _ _)
    case srdVec =>
      simp only [← hvalue, ← hwide, ← extend_sreg]
      have hv := vecOnly_of c d.toNat (if sregWide code then .n64 else .n32) (c.lanes h) (fun l => (sregVal c s l code).toNat) (lanes_lt c h)
      rw [sregTy_wide] at hv
      exact leavesWave_write hc (issue_of hc _) hv

/-- Settles O6: `NHASH` is a class S word of two sources; Mix64 is written out in the statement. -/
theorem hashWord : Obligations.HashWord := by
  intro s c r hc hty m1 m2 m3
  have hdst : dstRegs r.ty (r.form == .scal) r.dst.toNat = if r.form = .scal then [.s r.dst.toNat] else [.v r.dst.toNat, .v (r.dst.toNat + 1)] := by
    simp only [dstRegs, hty, beq_iff_eq]; rfl
  rw [← hdst, ← hty]
  exact latersWave_later hc (issue_of hc _) (wroteLane_of c r r.ty _)

end Sys2Proof.Machine
end

section
/-! PROOF. The floating-point words (Tables 6-4 and 6-5, R127 to R132): each word is one computation of its elements, written at issue or
queued. -/

namespace Sys2Proof.Machine

/-- R131: the sources of `FDOT2` are two halfwords each. -/
theorem dot2_of_lt {a b : Nat} (ha : a < 2 ^ 32) (hb : b < 2 ^ 32) (m : FMode) (t : Ty) (z : Nat) :
    let d (x : Nat) : Fp := (fmtOf t).decode ((fmtOf t).daz m.daz x)
    dot2 m t a b z = roundFp fmtF32 m.rnd m.ftz (sumFp (m.rnd == .rdn)
      [(d (a % 65536)).mul (d (b % 65536)), (d (a / 65536)).mul (d (b / 65536)), fmtF32.decode (fmtF32.daz m.daz z)]) := by
  have hhigh {n : Nat} (h : n < 2 ^ 32) : n / 65536 % 65536 = n / 65536 := Nat.mod_eq_of_lt (by omega)
  simp only [dot2, hhigh ha, hhigh hb]

theorem dstRegs_n32 (r : Lane) :
    dstRegs .n32 (r.form == .scal) r.dst.toNat = if r.form = .scal then [.s r.dst.toNat] else [.v r.dst.toNat] := by
  simp only [dstRegs, beq_iff_eq]; rfl

/-- Settles O7: each word is written at issue, its value computed element by element; `FCMP` and `FCLASS` by their condition. -/
theorem floatWords : Obligations.FloatWords := by
  refine ⟨fun s c m r hc => ⟨?_, ?_, ?_, ?_, ?_, ?fdot2⟩, fun s c m r hc => ⟨?_, ?_, fun cc => ?fcmp, fun cls => ?fclass⟩⟩
  case fdot2 => exact leavesWave_turns hc (issue_of hc _) fun l => dot2_of_lt (srcA_lt c.w r .n32 l) (srcB_lt c.w r .n32 l) m r.ty _
  case fcmp => exact leavesWave_cond hc rfl fun _ => rfl
  case fclass => exact leavesWave_cond hc rfl fun _ => rfl
  all_goals exact leavesWave_write hc (issue_of hc _) (wroteLane_of c r .n32 _)

/-- Settles O8: the same computations queued, DST held until the result lands (R118). -/
theorem slowFloatWords : Obligations.SlowFloatWords := by
  intro s c m r hc
  simp only [← dstRegs_n32]
  refine ⟨?_, ?_, ?_, ?_, ?_, ?_, ?_, ?_, ?_, ?_, ?_⟩
  all_goals exact latersWave_later hc (issue_of hc _) (wroteLane_of c r .n32 _)

end Sys2Proof.Machine
end

section
/-! PROOF. `SCANV` of floating-point lanes (R64, R136): a lane that receives a NaN receives the canonical one, also where the scan combines
nothing into it. -/

namespace Sys2Proof.Machine

/-- The writes that wait in a wave after an instruction (R118). -/
def waitingWrites (id : WaveId) : Out → List RegWrite
  | .next t => (t.wave id).elim [] (fun w => w.pend.flatMap (fun p => p.writes))
  | _ => []

/-- Those of a class S word are the last to wait. -/
theorem waitingWrites_later (s : State) (id : WaveId) (w : Wave) (b : Bool) (tag : Nat) (dst : List Reg) (ws : List RegWrite) :
    waitingWrites id (.next (s.setWave id
      ((if ws.isEmpty then w else addPend w { tag := tag, kind := .other, dst := dst, writes := ws, ready := true }).advance b))) =
      w.pend.flatMap (fun p => p.writes) ++ ws := by
  simp only [waitingWrites, wave_setWave, Option.elim_some]
  cases b <;> cases ws <;> simp [addPend, Wave.advance, Wave.setSlot]

def nanId : WaveId := ⟨1, 0, 0⟩

/-- Register 3 holds in lane 0 a NaN that is not the canonical one. -/
def nanWave : Wave := (loadWave 0).writeV 3 0 0x7F800001

/-- The wave's path is at the cursor. -/
def nanState : State :=
  { State.reset with
    launches := [(1, { offer := loadOffer 1, st := .running })]
    blocks := [(bkey 1 0, loadBlock)]
    waves := [(wkey nanId, nanWave)]
    cur := (nanId, false) }

/-- The operands of `SCANV.MIN.F32 v4, v3`. -/
def nanLane : Lane := { h := { pn := false, pm := 0, la := 0 }, form := .vec, ty := .f32, dst := 4, sa := 3, sb := 0, sc := 0, keep := 0 }

/-- Refutes O10, in its clause on `SCANV`: lane 0 of the scan is the lane's own value, which the statement has written as it stands, where
the machine writes the canonical NaN, 0x7FC00000 (R64). -/
theorem not_crossLaneAndMaskWords : ¬ Obligations.CrossLaneAndMaskWords := by
  rintro ⟨h, -⟩
  obtain ⟨-, -, -, -, hscan, -⟩ := h nanState _ nanLane rfl
  obtain ⟨ws, he, -, -, -, hv⟩ := hscan .min
  have hws : waitingWrites nanId (exec (.scanv .min nanLane) nanState) = ws := by
    rw [he]
    exact waitingWrites_later nanState nanId nanWave false _ _ ws
  rw [← hws] at hv
  exact absurd (hv 4 0 (by decide)) (by decide)

end Sys2Proof.Machine
end

section
/-! PROOF. Pending results (R118, R54, R56): what more writes, and the landing of a result, leave of a wave. -/

namespace Sys2Proof.Machine

/-! ### The results of one tag -/

/-- The results of a tag changed by `f`, the others left alone. -/
def Wave.modPend (w : Wave) (tag : Nat) (f : Pend → Pend) : Wave := { w with pend := w.pend.map (fun p => if p.tag = tag then f p else p) }

def Pend.more (ws : List RegWrite) (last : Bool) (p : Pend) : Pend := { p with writes := p.writes ++ ws, ready := p.ready || last }
def Pend.failed (lane : Nat) (addr : BitVec 64) (p : Pend) : Pend := { p with bad := p.bad ++ [(lane, addr)] }

theorem pendWrite_eq (w : Wave) (tag : Nat) (ws : List RegWrite) (last : Bool) : w.pendWrite tag ws last = w.modPend tag (Pend.more ws last) := rfl
theorem pendBad_eq (w : Wave) (tag lane : Nat) (addr : BitVec 64) : w.pendBad tag lane addr = w.modPend tag (Pend.failed lane addr) := rfl

section
variable {tag : Nat} {f : Pend → Pend} (hf : ∀ p, (f p).tag = p.tag)
include hf

theorem filter_modPend (w : Wave) : (w.modPend tag f).pend.filter (fun p => p.tag == tag) = (w.pend.filter (fun p => p.tag == tag)).map f := by
  simp only [Wave.modPend, List.filter_map]
  have hq : ((fun p : Pend => p.tag == tag) ∘ fun p => if p.tag = tag then f p else p) = fun p => p.tag == tag := by
    funext p
    by_cases h : p.tag = tag <;> simp [h, hf]
  rw [hq]
  refine List.map_congr_left fun p hp => ?_
  rw [if_pos (by simpa using (List.mem_filter.mp hp).2)]

theorem filter_modPend_other (w : Wave) : (w.modPend tag f).pend.filter (fun p => p.tag != tag) = w.pend.filter (fun p => p.tag != tag) := by
  simp only [Wave.modPend, List.filter_map]
  have hq : ((fun p : Pend => p.tag != tag) ∘ fun p => if p.tag = tag then f p else p) = fun p => p.tag != tag := by
    funext p
    by_cases h : p.tag = tag <;> simp [h, hf]
  rw [hq]
  exact (List.map_congr_left fun p hp => if_neg (by simpa using (List.mem_filter.mp hp).2)).trans (List.map_id _)
end

theorem filter_pendWrite_other (w : Wave) (tag : Nat) (ws : List RegWrite) (last : Bool) :
    (w.pendWrite tag ws last).pend.filter (fun p => p.tag != tag) = w.pend.filter (fun p => p.tag != tag) :=
  filter_modPend_other (f := Pend.more ws last) (fun _ => rfl) w

theorem more_more (ws us : List RegWrite) (b c : Bool) (p : Pend) : Pend.more us c (Pend.more ws b p) = Pend.more (ws ++ us) (b || c) p := by
  simp [Pend.more, Bool.or_assoc]

theorem pendWrite_pendWrite (w : Wave) (tag : Nat) (ws us : List RegWrite) (b c : Bool) :
    (w.pendWrite tag ws b).pendWrite tag us c = w.pendWrite tag (ws ++ us) (b || c) := by
  simp only [pendWrite_eq, Wave.modPend, List.map_map]
  congr 1
  refine List.map_congr_left fun p _ => ?_
  by_cases h : p.tag = tag
  · have : (Pend.more ws b p).tag = tag := h
    simp [h, this, more_more]
  · simp [h]

theorem pendWrite_nothing (w : Wave) (tag : Nat) : w.pendWrite tag [] false = w := by
  have h (p : Pend) : (if p.tag = tag then Pend.more [] false p else p) = p := by
    split <;> simp [Pend.more]
  simp only [pendWrite_eq, Wave.modPend, h, List.map_id_fun']
  rfl

/-- A result whose last writes have come is the first complete one of its tag. -/
theorem find_ready_pendWrite {w : Wave} {tag : Nat} {p : Pend} (hp : w.pend.find? (fun p => p.tag == tag) = some p) (ws : List RegWrite) :
    (w.pendWrite tag ws true).pend.find? (fun p => p.tag == tag && p.ready) = some (Pend.more ws true p) := by
  have ht : p.tag = tag := by simpa using List.find?_some hp
  have hq : ((fun p : Pend => p.tag == tag && p.ready) ∘ fun p => if p.tag = tag then Pend.more ws true p else p) = fun p => p.tag == tag := by
    funext p
    by_cases h : p.tag = tag <;> simp [h, Pend.more]
  simp only [pendWrite_eq, Wave.modPend, List.find?_map, hq, hp, Option.map_some, if_pos ht]

/-! ### A result lands -/

theorem land_of {s : State} {id : WaveId} {w : Wave} {tag : Nat} {p : Pend} (hw : s.wave id = some w)
    (hp : w.pend.find? (fun p => p.tag == tag && p.ready) = some p) (core : Nat) :
    land s id core tag = unlatch (s.setWave id ({ w with pend := w.pend.filter (fun q => q.tag != tag) }.applyWrites p.writes))
      (4 * core + id.wave % 4) p.writes := by
  simp only [land, hw, hp]

/-- R56: what is left of a latch are the registers that no write names. -/
theorem mem_unlatch (s : State) (slot : Nat) (ws : List RegWrite) (y : Latch) :
    y ∈ tget [] (unlatch s slot ws).latches slot ↔ y ∈ tget [] s.latches slot ∧ ∀ z ∈ ws, latchHit y z = false := by
  simp [unlatch]

theorem exec_resultWriteback {s : State} {id : WaveId} {b : Block} (hb : s.block id.serial id.block = some b) (hp : b.place = .resident)
    (tag : Nat) : exec (.resultWriteback id tag) s = .next (land (performStable s id tag) id b.core tag) := by
  have he : exec (.resultWriteback id tag) s = execResultWriteback id tag s := rfl
  simp [he, execResultWriteback, hb, hp]

/-- A word without requests has no read to perform. -/
theorem performStable_none {s : State} {id : WaveId} {w : Wave} {tag : Nat} (hw : s.wave id = some w) (h : ∀ q ∈ w.reqs, q.tag ≠ tag) :
    performStable s id tag = s := by
  have hmine : w.reqs.filter (fun r => r.tag == tag) = [] := by simpa using h
  unfold performStable
  split
  · next w' _ _ hw' _ _ =>
    cases hw.symm.trans hw'
    simp [hmine]
  · rfl
end Sys2Proof.Machine
end

section
/-! PROOF. Stable reads (R195, R200): what the view of a key has seen once a word's reads are performed, and the byte that each read gives. -/

namespace Sys2Proof.Machine

/-! ### Units of 32 bytes (R186) -/

/-- The units that `unitsOf` has gathered, newest first and each reversed, hold the bytes taken so far. -/
theorem units_gathered (locs : List Nat) (acc : List (List Nat)) :
    ((locs.foldl (fun acc loc => match acc with
      | [] => [[loc]]
      | g :: t => (match g with
        | x :: _ => if x / 32 = loc / 32 then (loc :: g) :: t else [loc] :: g :: t
        | [] => [loc] :: t)) acc).reverse.map List.reverse).flatten = (acc.reverse.map List.reverse).flatten ++ locs := by
  induction locs generalizing acc with
  | nil => simp
  | cons loc locs ih =>
    rw [List.foldl_cons, ih]
    match acc with
    | [] => simp
    | [] :: t => simp
    | (x :: g) :: t =>
      dsimp only
      split_ifs <;> simp

theorem unitsOf_flatten (locs : List Nat) : (unitsOf locs).flatten = locs := units_gathered locs []

/-! ### Points of H -/

theorem reads_le_iff {v : View} {locs : List Nat} {n : Nat} : v.reads locs ≤ n ↔ v.start ≤ n ∧ ∀ f ∈ v.from_, f.1 ∈ locs → f.2 ≤ n := by
  have key (fs : List (Nat × Nat)) (m : Nat) : fs.foldl (fun n f => max n f.2) m ≤ n ↔ m ≤ n ∧ ∀ f ∈ fs, f.2 ≤ n := by
    induction fs generalizing m with
    | nil => simp
    | cons f fs ih => simp [ih, and_assoc]
  simp [View.reads, key]

/-- A byte of an access may be read no later than the access as a whole. -/
theorem reads_single_le {v : View} {locs : List Nat} {a : Nat} (ha : a ∈ locs) : v.reads [a] ≤ v.reads locs := by
  obtain ⟨hs, hf⟩ := reads_le_iff.mp (le_refl (v.reads locs))
  exact reads_le_iff.mpr ⟨hs, fun f hm h => hf f hm (List.mem_singleton.mp h ▸ ha)⟩

theorem readPoint_bounds (s : State) (start : Nat) : min start s.hpt ≤ readPoint s start ∧ readPoint s start ≤ s.hpt := by
  unfold readPoint
  split_ifs with h
  · omega
  · have hm : Config.homePoint s.free % (s.hpt - start + 1) < s.hpt - start + 1 := Nat.mod_lt _ (Nat.succ_pos _)
    omega

/-! ### What reads change -/

/-- The value of a first read of a byte: its home value at a point that R200 allows. -/
def firstRead (s : State) (key a : Nat) (x : Byte) : Prop :=
  ∃ p, min ((tget {} s.views key).reads [a]) s.hpt ≤ p ∧ p ≤ s.hpt ∧ x = homeAt s p a

/-- What a view has seen of a byte. -/
def State.seenAt (s : State) (key a : Nat) : Option Byte := tfind (tget {} s.views key).seen a

/-- `t` is `s` after stable reads of a key: its view has seen more, each new byte at its first read. Waves, and the count of free values,
apart. -/
structure State.reads (s t : State) (key : Nat) : Prop where
  rest : t = { s with waves := t.waves, views := t.views, free := t.free }
  others : ∀ j, j ≠ key → tfind t.views j = tfind s.views j
  view : { tget {} t.views key with seen := (tget {} s.views key).seen } = tget {} s.views key
  seen : ∀ a, t.seenAt key a = s.seenAt key a ∨ (s.seenAt key a = none ∧ ∃ x, t.seenAt key a = some x ∧ firstRead s key a x)

/-- The byte `x` that a read gives: the store set's, else the view's (R195, R200). -/
def State.gives (s t : State) (key a : Nat) (x : Byte) : Prop :=
  match setByte? s key a with
  | some y => x = y
  | none => t.seenAt key a = some x

/-- A view keeps what it has seen (R200). -/
def seenKept (t u : State) (key : Nat) : Prop := ∀ a x, t.seenAt key a = some x → u.seenAt key a = some x

theorem State.gives.mono {s t u : State} {key a : Nat} {x : Byte} (h : s.gives t key a x) (hk : seenKept t u key) : s.gives u key a x := by
  unfold State.gives at *
  split at h
  · exact h
  · exact hk a x h

/-- The view of a key has seen one byte more. -/
def State.sees (t : State) (key a : Nat) (x : Byte) : State :=
  { t with views := tput t.views key { tget {} t.views key with seen := tput (tget {} t.views key).seen a x } }

theorem seenAt_sees (t : State) (key a b : Nat) (x : Byte) : (t.sees key a x).seenAt key b = if b = a then some x else t.seenAt key b := by
  simp only [State.seenAt, State.sees, tget_tput_same]
  split_ifs with e
  · rw [e, tfind_tput_same]
  · exact tfind_tput_other _ _ e

theorem reads_refl (s : State) (key : Nat) : s.reads s key := ⟨rfl, fun _ _ => rfl, rfl, fun _ => .inl rfl⟩

section
variable {s t : State} {key : Nat} (h : s.reads t key)
include h

theorem State.reads.setByte (a : Nat) : setByte? t key a = setByte? s key a := by rw [h.rest]; rfl
theorem State.reads.home (p a : Nat) : homeAt t p a = homeAt s p a := by rw [h.rest]; rfl
theorem State.reads.hpt : t.hpt = s.hpt := by rw [h.rest]; rfl
theorem State.reads.badUnit (a : Nat) : Sys2Proof.Machine.badUnit t a = Sys2Proof.Machine.badUnit s a := by rw [h.rest]; rfl
theorem State.reads.viewReads (locs : List Nat) : (tget {} t.views key).reads locs = (tget {} s.views key).reads locs := by rw [← h.view]; rfl

/-- The two fields that no read looks at. -/
theorem State.reads.withWaves (ws : Tab Wave) (n : Nat) : s.reads { t with waves := ws, free := n } key :=
  ⟨congrArg (fun u : State => { u with waves := ws, free := n }) h.rest, h.others, h.view, h.seen⟩

theorem State.reads.setWave (id : WaveId) (w : Wave) : s.reads (t.setWave id w) key := h.withWaves (tput t.waves (wkey id) w) t.free

/-- A first read of a byte. -/
theorem State.reads.sees {a : Nat} {x : Byte} (hn : t.seenAt key a = none) (hx : firstRead s key a x) :
    s.reads (t.sees key a x) key ∧ seenKept t (t.sees key a x) key := by
  have hs : s.seenAt key a = none := (h.seen a).elim (fun e => e.symm.trans hn) (fun e => e.1)
  have hrest := congrArg (fun u : State => { u with views := (t.sees key a x).views }) h.rest
  refine ⟨⟨hrest, fun j hj => (tfind_tput_other _ _ hj).trans (h.others j hj), ?_, fun b => ?_⟩, fun b y hb => ?_⟩
  · rw [State.sees, tget_tput_same]; exact h.view
  · rw [seenAt_sees]
    split_ifs with e
    · subst e; exact .inr ⟨hs, x, rfl, hx⟩
    · exact h.seen b
  · rw [seenAt_sees, if_neg]
    · exact hb
    · rintro rfl
      cases hn.symm.trans hb
end

/-! The byte that a read gives, by where it is found: in a store set, in the view, or at home. -/

section
variable {s u : State} {key a : Nat} {x : Byte} (hg : s.gives u key a x)
include hg

theorem State.gives.of_set {y : Byte} (hy : setByte? s key a = some y) : x = y := by
  unfold State.gives at hg
  rwa [hy] at hg

theorem State.gives.seen (hn : setByte? s key a = none) : u.seenAt key a = some x := by
  unfold State.gives at hg
  rwa [hn] at hg

theorem State.gives.of_seen (h : s.reads u key) (hn : setByte? s key a = none) {y : Byte} (hy : s.seenAt key a = some y) : x = y := by
  rcases h.seen a with hs | ⟨hs, -⟩
  · exact Option.some.inj ((hg.seen hn).symm.trans (hs.trans hy))
  · cases hy.symm.trans hs

theorem State.gives.of_home (h : s.reads u key) (hn : setByte? s key a = none) (hy : s.seenAt key a = none) :
    ∃ p, min ((tget {} s.views key).reads [a]) s.hpt ≤ p ∧ p ≤ s.hpt ∧ x = homeAt s p a ∧ u.seenAt key a = some (homeAt s p a) := by
  have hx := hg.seen hn
  rcases h.seen a with hs | ⟨-, y, hs, p, hlo, hhi, rfl⟩
  · cases hx.symm.trans (hs.trans hy)
  · exact ⟨p, hlo, hhi, Option.some.inj (hx.symm.trans hs), hs⟩
end

/-! ### One access -/

/-- One byte of an access whose first reads take the point `p`. -/
def readByte (key p : Nat) (acc : State × List Byte) (a : Nat) : State × List Byte :=
  match setByte? acc.1 key a with
  | some y => (acc.1, acc.2 ++ [y])
  | none => match acc.1.seenAt key a with
    | some y => (acc.1, acc.2 ++ [y])
    | none => (acc.1.sees key a (homeAt acc.1 p a), acc.2 ++ [homeAt acc.1 p a])

theorem stableRead_eq (t : State) (key : Nat) (locs : List Nat) : stableRead t key locs =
    locs.foldl (readByte key (readPoint t ((tget {} t.views key).reads (freshLocs t key locs)))) (t, []) := rfl

/-- `u` is `t` after the reads of `locs`, which gave `xs`; `t` is `s` after reads. -/
structure readOf (s : State) (key : Nat) (t u : State) (locs : List Nat) (xs : List Byte) : Prop where
  after : s.reads u key
  kept : seenKept t u key
  waves : u.waves = t.waves
  gives : List.Forall₂ (s.gives u key) locs xs

theorem readOf.trans {s t u v : State} {key : Nat} {ls ms : List Nat} {xs ys : List Byte} (h : readOf s key t u ls xs)
    (g : readOf s key u v ms ys) : readOf s key t v (ls ++ ms) (xs ++ ys) :=
  ⟨g.after, fun a x hx => g.kept a x (h.kept a x hx), g.waves.trans h.waves,
    List.rel_append (h.gives.imp fun _ _ hg => hg.mono g.kept) g.gives⟩

theorem readOf_nil {s t : State} {key : Nat} (h : s.reads t key) : readOf s key t t [] [] := ⟨h, fun _ _ hx => hx, rfl, .nil⟩

theorem readByte_spec {s t : State} {key p a : Nat} (h : s.reads t key) (hp : setByte? s key a = none → t.seenAt key a = none →
    min ((tget {} s.views key).reads [a]) s.hpt ≤ p ∧ p ≤ s.hpt) (xs : List Byte) :
    ∃ u x, readByte key p (t, xs) a = (u, xs ++ [x]) ∧ readOf s key t u [a] [x] := by
  unfold readByte
  cases hset : setByte? s key a with
  | some y =>
    refine ⟨t, y, by rw [h.setByte, hset], h, fun _ _ hx => hx, rfl, .cons ?_ .nil⟩
    simp [State.gives, hset]
  | none =>
    cases hseen : t.seenAt key a with
    | some y =>
      refine ⟨t, y, by rw [h.setByte, hset], h, fun _ _ hx => hx, rfl, .cons ?_ .nil⟩
      simp [State.gives, hset, hseen]
    | none =>
      obtain ⟨hlo, hhi⟩ := hp hset hseen
      obtain ⟨hafter, hkept⟩ := h.sees hseen ⟨p, hlo, hhi, h.home p a⟩
      refine ⟨_, homeAt t p a, by rw [h.setByte, hset], hafter, hkept, rfl, .cons ?_ .nil⟩
      simp [State.gives, hset, seenAt_sees]

theorem readBytes_spec {s : State} {key p : Nat} (locs : List Nat) {t : State} (h : s.reads t key)
    (hp : ∀ a ∈ locs, setByte? s key a = none → t.seenAt key a = none → min ((tget {} s.views key).reads [a]) s.hpt ≤ p ∧ p ≤ s.hpt)
    (xs : List Byte) : ∃ u ys, locs.foldl (readByte key p) (t, xs) = (u, xs ++ ys) ∧ readOf s key t u locs ys := by
  induction locs generalizing t xs with
  | nil => exact ⟨t, [], by simp, readOf_nil h⟩
  | cons a locs ih =>
    obtain ⟨u, x, hu, hread⟩ := readByte_spec h (hp a List.mem_cons_self) xs
    have hlater : ∀ b, u.seenAt key b = none → t.seenAt key b = none := fun b hb => by
      cases hx : t.seenAt key b with
      | none => rfl
      | some y => cases hb.symm.trans (hread.kept b y hx)
    obtain ⟨v, ys, hv, hrest⟩ := ih hread.after (fun b hb h1 h2 => hp b (List.mem_cons_of_mem a hb) h1 (hlater b h2)) (xs ++ [x])
    exact ⟨v, x :: ys, by rw [List.foldl_cons, hu, hv, List.append_assoc]; rfl, hread.trans hrest⟩

theorem mem_freshLocs {t : State} {key a : Nat} {locs : List Nat} (ha : a ∈ locs) (hset : setByte? t key a = none) (hseen : t.seenAt key a = none) :
    a ∈ freshLocs t key locs := by
  have hv : tfind (tget {} t.views key).seen a = none := hseen
  simp [freshLocs, ha, hset, hv]

theorem stableRead_spec {s t : State} {key : Nat} (h : s.reads t key) (locs : List Nat) :
    readOf s key t (stableRead t key locs).1 locs (stableRead t key locs).2 := by
  rw [stableRead_eq]
  obtain ⟨u, ys, hu, hread⟩ := readBytes_spec (p := readPoint t ((tget {} t.views key).reads (freshLocs t key locs))) locs h
    (fun a ha hset hseen => by
      have hfresh := reads_single_le (v := tget {} t.views key) (mem_freshLocs ha ((h.setByte a).trans hset) hseen)
      obtain ⟨hlo, hhi⟩ := readPoint_bounds t ((tget {} t.views key).reads (freshLocs t key locs))
      rw [h.hpt] at hlo hhi
      rw [← h.viewReads]
      exact ⟨by omega, hhi⟩) []
  rw [hu]
  exact hread

/-- A whole lane, unit by unit. -/
theorem stableLane_spec {s t : State} {key : Nat} (h : s.reads t key) (locs : List Nat) :
    readOf s key t (stableLane t key locs).1 locs (stableLane t key locs).2 := by
  have hunits (us : List (List Nat)) (t : State) (h : s.reads t key) (xs : List Byte) : ∃ u ys,
      us.foldl (fun acc u => let r := stableRead acc.1 key u; ({ r.1 with free := r.1.free + 1 }, acc.2 ++ r.2)) (t, xs) = (u, xs ++ ys) ∧
        readOf s key t u us.flatten ys := by
    induction us generalizing t xs with
    | nil => exact ⟨t, [], by simp, readOf_nil h⟩
    | cons l us ih =>
      obtain ⟨hafter, hkept, hwaves, hgives⟩ := stableRead_spec h l
      have hread : readOf s key t { (stableRead t key l).1 with free := (stableRead t key l).1.free + 1 } l (stableRead t key l).2 :=
        ⟨hafter.withWaves _ _, hkept, hwaves, hgives⟩
      obtain ⟨u, ys, hu, hrest⟩ := ih _ hread.after (xs ++ (stableRead t key l).2)
      exact ⟨u, (stableRead t key l).2 ++ ys, by rw [List.foldl_cons, ← List.append_assoc, ← hu], hread.trans hrest⟩
  obtain ⟨u, ys, hu, hread⟩ := hunits (unitsOf locs) t h []
  rw [unitsOf_flatten] at hread
  rw [stableLane, hu]
  exact hread

end Sys2Proof.Machine
end

section
/-! PROOF. The stable loads of a word performed (R200): lane by lane, each lane's bytes joining the word's pending result. -/

namespace Sys2Proof.Machine

/-- A stable load none of whose bytes stands in a unit in error (R176). -/
def Req.cleanStable (s : State) (r : Req) : Prop := ∃ locs ty dk dst, r.kind = .stable locs ty dk dst ∧ ∀ a ∈ locs, badUnit s a = false

/-- The register writes of a stable load that read `bs`. -/
def Req.landWrites (r : Req) (bs : List Byte) : List RegWrite :=
  match r.kind with
  | .stable _ ty dk dst => typeWrites ty dk dst r.lane (ofLeBytes bs)
  | _ => []

/-- One load of the word of `tag`, performed as `performStable` does each. -/
def performRead (id : WaveId) (w : Wave) (core key tag : Nat) (s : State) (r : Req) : State :=
  match r.kind with
  | .stable locs ty dk dst =>
    (match readStable s key locs ty dk dst r.lane with
      | (s, .inl i) => uncorr s id w core r.pc.toNat (r.addr + BitVec.ofNat 64 i)
      | (s, .inr ws) => s.modWave id (fun w => w.pendWrite tag ws true))
  | _ => s

theorem stableBad_clean {s : State} {key : Nat} {locs : List Nat} (h : ∀ a ∈ locs, badUnit s a = false) : stableBad s key locs = none := by
  simp only [stableBad, List.find?_eq_none, List.mem_range, Bool.and_eq_true, not_and]
  intro i hi hbad
  have hm : locs.getD i 0 ∈ locs := by rw [List.getD_eq_getElem _ _ hi]; exact List.getElem_mem hi
  rw [h _ hm] at hbad
  cases hbad

theorem performRead_clean {s : State} {id : WaveId} {v : Wave} {r : Req} {locs : List Nat} {ty : Ty} {dk : Bool} {dst : Nat} {key : Nat}
    (hk : r.kind = .stable locs ty dk dst) (hb : ∀ a ∈ locs, badUnit s a = false) (hv : (stableLane s key locs).1.wave id = some v)
    (w : Wave) (core tag : Nat) : performRead id w core key tag s r =
      (stableLane s key locs).1.setWave id (v.pendWrite tag (r.landWrites (stableLane s key locs).2) true) := by
  simp only [performRead, hk, readStable, stableBad_clean hb, Req.landWrites]
  exact modWave_of hv _

theorem performStable_of {s : State} {id : WaveId} {x : Wave} {b : Block} {l : Launch} {tag : Nat} (hw : s.wave id = some x)
    (hb : s.block id.serial id.block = some b) (hl : s.launch id.serial = some l)
    (hneeds : (tget {} s.views (setKey l b.core id.serial id.block)).needs = []) (hmine : x.reqs.filter (fun r => r.tag == tag) ≠ [])
    (hfree : ∀ (k : Nat) (r : Req), x.reqs[k]? = some r → r.tag = tag → reqFree x k = true ∧ r.cleanStable s) :
    performStable s id tag = (x.reqs.filter (fun r => r.tag == tag)).foldl
      (performRead id x b.core (setKey l b.core id.serial id.block) tag)
      (s.setWave id { x with reqs := x.reqs.filter (fun r => r.tag != tag) }) := by
  have hstart := modWave_of hw (fun w => { w with reqs := w.reqs.filter (fun r => r.tag != tag) })
  rw [← hstart]
  unfold performStable
  rw [hw, hb, hl]
  refine if_neg ?_
  rw [hneeds, List.isEmpty_eq_false_iff.mpr hmine, Bool.false_or, List.isEmpty_nil, Bool.not_true, Bool.or_false, Bool.not_eq_true,
    Bool.not_eq_eq_eq_not, Bool.not_false]
  refine List.all_eq_true.mpr fun k _ => ?_
  split
  · next r hr =>
    by_cases ht : r.tag = tag
    · obtain ⟨hf, locs, ty, dk, dst, hk, -⟩ := hfree k r hr ht
      simp [isStable, hk, hf]
    · simp [ht]
  · rfl

/-! ### The lanes of a word -/

/-- `u` is `t` after the loads `rs` of a word, which read `vals`: its pending result has their writes, and `t` is `s` after reads. -/
structure loadsOf (s : State) (id : WaveId) (key tag : Nat) (v : Wave) (t u : State) (rs : List Req) (vals : List (List Byte)) : Prop where
  after : s.reads u key
  kept : seenKept t u key
  others : otherWaves t u id
  wave : u.wave id = some (v.pendWrite tag (List.zipWith Req.landWrites rs vals).flatten (!rs.isEmpty))
  gives : List.Forall₂ (fun r bs => ∀ locs ty dk dst, r.kind = .stable locs ty dk dst → List.Forall₂ (s.gives u key) locs bs) rs vals

theorem performReads_spec {s : State} {id : WaveId} {key : Nat} (w : Wave) (core tag : Nat) (rs : List Req) {t : State} {v : Wave}
    (h : s.reads t key) (hv : t.wave id = some v) (hclean : ∀ r ∈ rs, r.cleanStable s) :
    ∃ vals, loadsOf s id key tag v t (rs.foldl (performRead id w core key tag) t) rs vals := by
  induction rs generalizing t v with
  | nil => exact ⟨[], h, fun _ _ hx => hx, fun _ _ => rfl, hv.trans (congrArg some (pendWrite_nothing v tag).symm), .nil⟩
  | cons r rs ih =>
    obtain ⟨locs, ty, dk, dst, hk, hb⟩ := hclean r List.mem_cons_self
    obtain ⟨hafter, hkept, hwaves, hgives⟩ := stableLane_spec h locs
    have hv' : (stableLane t key locs).1.wave id = some v := by rw [State.wave, hwaves]; exact hv
    have hstep := performRead_clean hk (fun a ha => (h.badUnit a).trans (hb a ha)) hv' w core tag
    obtain ⟨vals, ha, hke, ho, hw, hg⟩ := ih (hafter.setWave _ _) (wave_setWave (stableLane t key locs).1 id
      (v.pendWrite tag (r.landWrites (stableLane t key locs).2) true)) (fun q hq => hclean q (List.mem_cons_of_mem r hq))
    rw [List.foldl_cons, hstep]
    refine ⟨(stableLane t key locs).2 :: vals, ha, fun a x hx => hke a x (hkept a x hx), fun k hne => ?_, ?_, .cons ?_ hg⟩
    · rw [ho k hne, ← hwaves]
      exact tfind_tput_other _ _ hne
    · rw [hw, pendWrite_pendWrite]; simp
    · rintro locs' ty' dk' dst' hk'
      cases hk.symm.trans hk'
      exact hgives.imp fun _ _ hg => hg.mono hke

/-- The stable loads of a word that no earlier request of the wave holds back are performed together (R200). -/
theorem performStable_spec {s : State} {id : WaveId} {x : Wave} {b : Block} {l : Launch} {tag : Nat} (hw : s.wave id = some x)
    (hb : s.block id.serial id.block = some b) (hl : s.launch id.serial = some l)
    (hneeds : (tget {} s.views (setKey l b.core id.serial id.block)).needs = []) (hmine : x.reqs.filter (fun r => r.tag == tag) ≠ [])
    (hfree : ∀ (k : Nat) (r : Req), x.reqs[k]? = some r → r.tag = tag → reqFree x k = true ∧ r.cleanStable s) :
    ∃ vals, loadsOf s id (setKey l b.core id.serial id.block) tag { x with reqs := x.reqs.filter (fun r => r.tag != tag) }
      (s.setWave id { x with reqs := x.reqs.filter (fun r => r.tag != tag) }) (performStable s id tag)
      (x.reqs.filter (fun r => r.tag == tag)) vals := by
  rw [performStable_of hw hb hl hneeds hmine hfree]
  refine performReads_spec x b.core tag _ ((reads_refl s _).setWave id _) (wave_setWave s id _) fun r hr => ?_
  obtain ⟨hm, ht⟩ := List.mem_filter.mp hr
  obtain ⟨k, hk⟩ := List.mem_iff_getElem?.mp hm
  exact (hfree k r hk (by simpa using ht)).2

end Sys2Proof.Machine
end

section
/-! PROOF. The host's answers to an `LDH` (R185): the bytes that a lane reads, and the trap of the lanes answered with an error. -/

namespace Sys2Proof.Machine

/-! ### Host memory -/

/-- Bytes that the host has written, where it names one. -/
def hostWrites (t : Tab Byte) (ps : List (Nat × Option Byte)) : Tab Byte :=
  ps.foldl (fun t p => match p.2 with | some b => tset 0 t p.1 b | none => t) t

theorem hostWrites_cons (t : Tab Byte) (a : Nat) (v : Option Byte) (ps : List (Nat × Option Byte)) :
    hostWrites t ((a, v) :: ps) = hostWrites (v.elim t (tset 0 t a)) ps := by cases v <;> rfl

theorem tget_hostWrites_other {ps : List (Nat × Option Byte)} (t : Tab Byte) {a : Nat} (h : a ∉ ps.map Prod.fst) :
    tget 0 (hostWrites t ps) a = tget 0 t a := by
  induction ps generalizing t with
  | nil => rfl
  | cons p ps ih =>
    obtain ⟨j, v⟩ := p
    obtain ⟨hne, hps⟩ := not_or.mp (mt List.mem_cons.mpr h)
    rw [hostWrites_cons, ih _ hps]
    cases v with
    | none => rfl
    | some b => exact tget_tset_other 0 t b hne

theorem tget_hostWrites {ps : List (Nat × Option Byte)} (t : Tab Byte) {a : Nat} {v : Option Byte} (hn : (ps.map Prod.fst).Nodup)
    (h : (a, v) ∈ ps) : tget 0 (hostWrites t ps) a = v.getD (tget 0 t a) := by
  induction ps generalizing t with
  | nil => cases h
  | cons p ps ih =>
    obtain ⟨j, u⟩ := p
    obtain ⟨hj, hps⟩ := List.nodup_cons.mp hn
    rw [hostWrites_cons]
    rcases List.mem_cons.mp h with e | hm
    · cases e
      rw [tget_hostWrites_other _ hj]
      cases v <;> simp
    · have hne : a ≠ j := by
        rintro rfl
        exact hj (List.mem_map.mpr ⟨_, hm, rfl⟩)
      rw [ih _ hps hm]
      cases u with
      | none => rfl
      | some b => exact congrArg v.getD (tget_tset_other 0 t b hne)

/-- The host's byte for each of `n` bytes of a lane, where its answer names one. -/
def hostNew (data : Option (List (Option Byte))) (n : Nat) : List (Option Byte) := (List.range n).map (fun i => (data.getD []).getD i none)

/-- Host memory once a lane is answered. -/
def hostAfter (t : Tab Byte) (addrs : List Nat) (data : Option (List (Option Byte))) (n : Nat) : Tab Byte :=
  hostWrites t (addrs.zip (hostNew data n))

/-- Byte `i` of a lane's answer, of address `a`. -/
def hostGives (t : Tab Byte) (data : Option (List (Option Byte))) (i a : Nat) : Byte := ((data.getD []).getD i none).getD (tget 0 t a)

section
variable (t : Tab Byte) {addrs : List Nat} (data : Option (List (Option Byte))) {n : Nat} (hlen : addrs.length = n)
include hlen

theorem zip_hostNew_keys : (addrs.zip (hostNew data n)).map Prod.fst = addrs := List.map_fst_zip (by simp [hostNew, hlen])

theorem tget_hostAfter_other {a : Nat} (h : a ∉ addrs) : tget 0 (hostAfter t addrs data n) a = tget 0 t a :=
  tget_hostWrites_other t (by rw [zip_hostNew_keys data hlen]; exact h)

theorem tget_hostAfter (hn : addrs.Nodup) {i a : Nat} (h : addrs[i]? = some a) : tget 0 (hostAfter t addrs data n) a = hostGives t data i a := by
  obtain ⟨hi, rfl⟩ := List.getElem?_eq_some_iff.mp h
  refine tget_hostWrites t (by rw [zip_hostNew_keys data hlen]; exact hn) (List.mem_iff_getElem.mpr ⟨i, by simp [hostNew, ← hlen, hi], ?_⟩)
  simp [hostNew]

theorem map_hostAfter (hn : addrs.Nodup) :
    addrs.map (tget 0 (hostAfter t addrs data n)) = addrs.zipIdx.map (fun p => hostGives t data p.2 p.1) := by
  refine List.ext_getElem (by simp) fun i h1 h2 => ?_
  have hi : i < addrs.length := by simpa using h1
  simp only [List.getElem_map, List.getElem_zipIdx, Nat.zero_add]
  exact tget_hostAfter t data hlen hn (List.getElem?_eq_getElem hi)
end

/-! ### Lanes answered with an error -/

/-- The lanes of a pending result in error, lowest first. -/
def badTable (bad : List (Nat × BitVec 64)) : Tab (BitVec 64) := bad.foldl (fun t b => tput t b.1 b.2) []

theorem mem_keys_tput {α : Type} {t : Tab α} {k j : Nat} {v : α} : j ∈ (tput t k v).map Prod.fst ↔ j = k ∨ j ∈ t.map Prod.fst := by
  induction t with
  | nil => simp [tput]
  | cons p t ih =>
    obtain ⟨i, u⟩ := p
    simp only [tput]
    split_ifs with h1 h2
    · simp
    · simp [h2]
    · simp only [List.map_cons, List.mem_cons, ih]; tauto

theorem badTable_append (bad : List (Nat × BitVec 64)) (b : Nat × BitVec 64) : badTable (bad ++ [b]) = tput (badTable bad) b.1 b.2 := by
  simp [badTable]

theorem tsorted_badTable (bad : List (Nat × BitVec 64)) : tsorted (badTable bad) = true :=
  List.foldlRecOn (motive := fun t => tsorted t = true) _ _ rfl (fun _ h _ _ => tsorted_tput _ _ h)

theorem mem_keys_badTable {bad : List (Nat × BitVec 64)} {i : Nat} : i ∈ (badTable bad).map Prod.fst ↔ i ∈ bad.map Prod.fst := by
  induction bad using List.reverseRecOn with
  | nil => rfl
  | append_singleton bad b ih => rw [badTable_append, mem_keys_tput, ih]; simp [or_comm]

theorem mem_of_mem_badTable {bad : List (Nat × BitVec 64)} {p : Nat × BitVec 64} (h : p ∈ badTable bad) : p ∈ bad := by
  induction bad using List.reverseRecOn with
  | nil => cases h
  | append_singleton bad b ih =>
    rw [badTable_append] at h
    rcases mem_tput h with rfl | h
    · simp
    · exact List.mem_append_left _ (ih h)

theorem badTable_eq_nil {bad : List (Nat × BitVec 64)} : badTable bad = [] ↔ bad = [] := by
  constructor
  · intro h
    refine List.eq_nil_iff_forall_not_mem.mpr fun b hb => ?_
    have hk := mem_keys_badTable.mpr (List.mem_map_of_mem (f := Prod.fst) hb)
    rw [h] at hk
    cases hk
  · rintro rfl; rfl

/-- Of a table the first entry has the least key. -/
theorem head_key_le {α : Type} {k : Nat} {v : α} {t : Tab α} (h : tsorted ((k, v) :: t) = true) {j : Nat}
    (hj : j ∈ ((k, v) :: t).map Prod.fst) : k ≤ j := by
  have hk : keysAbove k t = true := (Bool.and_eq_true_iff.mp h).1
  rcases List.mem_cons.mp hj with rfl | hj
  · exact le_rfl
  · obtain ⟨p, hp, rfl⟩ := List.mem_map.mp hj
    exact (of_decide_eq_true (List.all_eq_true.mp hk p hp)).le

/-- R364: the address of the lowest lane in error. -/
theorem badTable_lowest {bad : List (Nat × BitVec 64)} (h : bad ≠ []) :
    ∃ b ∈ bad, ((badTable bad).map (fun b => b.2)).headD 0 = b.2 ∧ ∀ d ∈ bad, b.1 ≤ d.1 := by
  obtain ⟨⟨k, v⟩, t, ht⟩ := List.exists_cons_of_ne_nil (mt badTable_eq_nil.mp h)
  have hs := tsorted_badTable bad
  refine ⟨(k, v), mem_of_mem_badTable (by simp [ht]), by simp [ht], fun d hd => ?_⟩
  rw [ht] at hs
  exact head_key_le hs (by rw [← ht]; exact mem_keys_badTable.mpr (List.mem_map_of_mem hd))

/-! ### A trap that no path takes (R363) -/

theorem addTrap_rest (s : State) (n : Nat) (t : Trap) : { addTrap s n t with launches := s.launches, latches := s.latches } = s := by
  unfold addTrap
  split_ifs <;> rfl

theorem addTrap_launch {s : State} {n : Nat} {l : Launch} (h : s.launch n = some l) (t : Trap) :
    (addTrap s n t).launch n = some { l with traps := l.traps ++ [t] } := by
  unfold addTrap recordTrap
  refine launch_modLaunch ?_ _
  split_ifs <;> exact h

/-- The lanes of the trap are those answered with an error; a word that acts once names none (R364). -/
theorem hostTrap_lanes (id : WaveId) (w : Wave) (core : Nat) (pc : BitVec 32) (once : Bool) (bad : List (Nat × BitVec 64)) {i : Nat} (hi : i < 64) :
    (hostTrap id w core pc once (badTable bad)).lanes.getLsbD i = true ↔ once = false ∧ ∃ b ∈ bad, b.1 = i := by
  cases once
  · have hb : (hostTrap id w core pc false (badTable bad)).lanes.getLsbD i = decide (i ∈ (badTable bad).map Prod.fst) := maskOf_bit _ i hi
    rw [hb, decide_eq_true_iff, mem_keys_badTable]
    simp
  · simp [hostTrap]

/-! ### A pending result answered -/

/-- `w` is `x` but for its results; of those of the tag there is one, `z`, and the others are kept. -/
structure answered (x w : Wave) (tag : Nat) (z : Pend) : Prop where
  rest : { w with pend := x.pend } = x
  others : ∀ p ∈ x.pend, p.tag ≠ tag → p ∈ w.pend
  one : w.pend.filter (fun p => p.tag == tag) = [z]

theorem answered.modPend {x w : Wave} {tag : Nat} {z : Pend} (h : answered x w tag z) {f : Pend → Pend} (hf : ∀ p, (f p).tag = p.tag) :
    answered x (w.modPend tag f) tag (f z) :=
  ⟨h.rest, fun p hp ht => List.mem_map.mpr ⟨p, h.others p hp ht, if_neg ht⟩, by rw [filter_modPend hf, h.one]; rfl⟩

theorem answered.badLanes {x w : Wave} {tag : Nat} {z : Pend} (h : answered x w tag z) : w.badLanes tag = badTable z.bad := by
  rw [Wave.badLanes, h.one]; rfl

theorem answered.reqs {x w : Wave} {tag : Nat} {z : Pend} (h : answered x w tag z) : w.reqs = x.reqs := by rw [← h.rest]

/-- The wave whose request for a lane of `LDH` has been answered, with the bytes `xs` or an error. -/
def Wave.lanesAnswer (x : Wave) (q : Req) (ty : Ty) (dk : Bool) (dst : Nat) (data : Option (List (Option Byte))) (xs : List Byte) : Wave :=
  match data with
  | some _ => x.pendWrite q.tag (typeWrites ty dk dst q.lane (ofLeBytes xs)) false
  | none => x.pendBad q.tag q.lane q.addr

/-- The wave after an answer of the host to its request `k`. -/
def Wave.ldhAnswered (x : Wave) (k : Nat) (q : Req) (addrs : List Nat) (ty : Ty) (dk : Bool) (dst : Nat) (data : Option (List (Option Byte)))
    (t : Tab Byte) : Wave :=
  Wave.lanesAnswer { x with reqs := x.reqs.eraseIdx k } q ty dk dst data (addrs.map (tget 0 (hostAfter t addrs data ty.size)))

theorem answered_ldhAnswered {x : Wave} {q : Req} {y : Pend} (h : x.pend.filter (fun p => p.tag == q.tag) = [y]) (k : Nat) {addrs : List Nat}
    (hn : addrs.Nodup) {ty : Ty} (hlen : addrs.length = ty.size) (dk : Bool) (dst : Nat) (data : Option (List (Option Byte))) (t : Tab Byte) :
    answered { x with reqs := x.reqs.eraseIdx k } (x.ldhAnswered k q addrs ty dk dst data t) q.tag
      { y with writes := y.writes ++ (if data = none then [] else
                 typeWrites ty dk dst q.lane (ofLeBytes (addrs.zipIdx.map (fun p => hostGives t data p.2 p.1)))),
               bad := if data = none then y.bad ++ [(q.lane, q.addr)] else y.bad } := by
  have h0 : answered { x with reqs := x.reqs.eraseIdx k } { x with reqs := x.reqs.eraseIdx k } q.tag y := ⟨rfl, fun _ hp _ => hp, h⟩
  rw [Wave.ldhAnswered, map_hostAfter t data hlen hn]
  cases data with
  | none =>
    have ha := h0.modPend (f := Pend.failed q.lane q.addr) (fun _ => rfl)
    simpa [Wave.lanesAnswer, pendBad_eq, Pend.failed] using ha
  | some bs =>
    have ha := h0.modPend (f := Pend.more (typeWrites ty dk dst q.lane
      (ofLeBytes (addrs.zipIdx.map (fun p => hostGives t (some bs) p.2 p.1)))) false) (fun _ => rfl)
    simpa [Wave.lanesAnswer, pendWrite_eq, Pend.more] using ha

theorem exec_ldhCompletion {s : State} {id : WaveId} {x : Wave} {b : Block} {k : Nat} {q : Req} {addrs : List Nat} {ty : Ty} {dk : Bool} {dst : Nat}
    (hw : s.wave id = some x) (hb : s.block id.serial id.block = some b) (hq : x.reqs[k]? = some q) (hk : q.kind = .ldh addrs ty dk dst)
    (data : Option (List (Option Byte))) :
    let mem := hostAfter s.hostMem addrs data ty.size
    let w := x.ldhAnswered k q addrs ty dk dst data s.hostMem
    exec (.ldhCompletion id k data) s = .next (
      if w.reqs.any (fun p => p.tag == q.tag) then { s with hostMem := mem }.setWave id w
      else if (w.badLanes q.tag).isEmpty then { s with hostMem := mem }.setWave id (w.pendWrite q.tag [] true)
      else addTrap ({ s with hostMem := mem }.setWave id w) id.serial (hostTrap id w b.core q.pc dk (w.badLanes q.tag))) := by
  intro mem w
  have he : exec (.ldhCompletion id k data) s = execLdhCompletion id k data s := rfl
  rw [he, apply_ite Host.Outcome.next, apply_ite Host.Outcome.next]
  simp only [execLdhCompletion, hw, hb, hq, hk]
  rfl
end Sys2Proof.Machine
end

section
/-! PROOF. Results land (R54, R56, R118, R185, R195, R200). -/

namespace Sys2Proof.Machine

theorem exists_of_forall₂ {α β : Type} {R : α → β → Prop} {xs : List α} {ys : List β} (h : List.Forall₂ R xs ys) {i : Nat} {a : α}
    (ha : xs[i]? = some a) : ∃ b, ys[i]? = some b ∧ R a b := by
  obtain ⟨hi, rfl⟩ := List.getElem?_eq_some_iff.mp ha
  obtain ⟨hlen, hget⟩ := List.forall₂_iff_get.mp h
  exact ⟨ys[i], List.getElem?_eq_getElem (hlen ▸ hi), hget i hi (hlen ▸ hi)⟩

/-- The writes of a word's loads, by their number. -/
theorem zipIdx_landWrites (rs : List Req) (vals : List (List Byte)) (hlen : rs.length = vals.length) :
    rs.zipIdx.flatMap (fun p => p.1.landWrites (vals.getD p.2 [])) = (List.zipWith Req.landWrites rs vals).flatten := by
  rw [List.flatMap_def]
  congr 1
  refine List.ext_getElem (by simp [hlen]) fun i h1 h2 => ?_
  have hi : i < vals.length := by simpa [hlen] using h1
  simp [hi]

/-- A complete result lands: its writes are made, its registers freed, the latches of the slot that it writes emptied. -/
theorem land_spec {s : State} {id : WaveId} {w : Wave} {tag : Nat} {p : Pend} (hw : s.wave id = some w)
    (hp : w.pend.find? (fun p => p.tag == tag && p.ready) = some p) (core : Nat) :
    (land s id core tag).wave id = some ({ w with pend := w.pend.filter (fun q => q.tag != tag) }.applyWrites p.writes) ∧
      otherWaves s (land s id core tag) id ∧
      { land s id core tag with waves := s.waves, latches := s.latches } = s ∧
      ∀ y, y ∈ tget [] (land s id core tag).latches (4 * core + id.wave % 4) ↔
        y ∈ tget [] s.latches (4 * core + id.wave % 4) ∧ ∀ z ∈ p.writes, latchHit y z = false := by
  rw [land_of hw hp]
  exact ⟨wave_setWave s id _, otherWaves_put s id _ _ rfl, rfl, mem_unlatch _ _ _⟩

/-- The parts of a state that a landing result changes, as they stand in `s`. -/
def restored (s t : State) : State := { t with waves := s.waves, latches := s.latches, views := s.views, free := s.free }

/-- Settles O22: a result lands by `land_spec`, a stable load after `performStable_spec`, whose bytes are found in a store set, in the view or at
home; an answer of the host leaves lanes to come, ends the word, or ends it in the trap of the lanes in error. -/
theorem resultsLand : Obligations.ResultsLand := by
  intro s id x b l hw hb hl key
  refine ⟨?lands, ?stable, ?host⟩
  case lands =>
    intro p tag hplace hreqs hp
    refine ⟨_, exec_resultWriteback hb hplace tag, ?_⟩
    rw [performStable_none hw hreqs]
    exact land_spec hw hp b.core
  case stable =>
    intro p tag hplace hneeds mine hmine hfree hp
    obtain ⟨vals, hafter, -, hothers, hwave, hgives⟩ := performStable_spec hw hb hl hneeds hmine hfree
    have hready : (!mine.isEmpty) = true := by simpa using hmine
    obtain ⟨xs, hxs⟩ : ∃ xs : Nat → List Byte, ∀ k, vals.getD k [] = xs k := ⟨_, fun _ => rfl⟩
    rw [hready, ← zipIdx_landWrites mine vals hgives.length_eq] at hwave
    simp only [hxs] at hwave
    obtain ⟨hlwave, hlothers, hlrest, -⟩ := land_spec hwave (find_ready_pendWrite hp _) b.core
    have hviews := congrArg State.views hlrest
    refine ⟨_, exec_resultWriteback hb hplace tag, xs, ?wave, fun k hk => ?others, ?rest, fun j hj => ?views,
      fun k r locs ty dk dst hr hk => ?bytes⟩
    case wave =>
      rw [hlwave, filter_pendWrite_other]
      rfl
    case others => exact (hlothers k hk).trans ((hothers k hk).trans (tfind_tput_other _ _ hk))
    case rest =>
      have hreads := congrArg (restored s) hafter.rest
      exact (congrArg (restored s) hlrest).trans hreads
    case views => exact (congrArg (tfind · j) hviews).trans (hafter.others j hj)
    case bytes =>
      obtain ⟨bs, hbs, hread⟩ := exists_of_forall₂ hgives hr
      have hbytes := hread locs ty dk dst hk
      have hval : xs k = bs := by rw [← hxs, List.getD_eq_getElem?_getD, hbs, Option.getD_some]
      refine ⟨by rw [hval]; exact hbytes.length_eq.symm, fun i a ha => ?_⟩
      obtain ⟨y, hy, hg⟩ := exists_of_forall₂ hbytes ha
      rw [hval, hy, hviews]
      intro v
      split
      · next z hz => rw [hg.of_set hz]
      · next hz =>
        split
        · next z hs => rw [hg.of_seen hafter hz hs]
        · next hs =>
          obtain ⟨p, hlo, hhi, rfl, hseen⟩ := hg.of_home hafter hz hs
          exact ⟨p, hlo, hhi, rfl, hseen⟩
  case host =>
    intro k q addrs ty dk dst y data hq hk hy hnodup hlen reqs more bad host lands
    let mem := hostAfter s.hostMem addrs data ty.size
    let w := x.ldhAnswered k q addrs ty dk dst data s.hostMem
    have hexec := exec_ldhCompletion hw hb hq hk data
    have hans := answered_ldhAnswered hy k hnodup hlen dk dst data s.hostMem
    have hother : ∀ a, a ∉ addrs → tget 0 mem a = tget 0 s.hostMem a := fun a ha => tget_hostAfter_other s.hostMem data hlen ha
    have hgiven : ∀ i a, addrs[i]? = some a → tget 0 mem a = host i a := fun i a ha => tget_hostAfter s.hostMem data hlen hnodup ha
    have hreqs : w.reqs = reqs := hans.reqs
    have hbads : w.badLanes q.tag = badTable bad := hans.badLanes
    have hmore : w.reqs.any (fun p => p.tag == q.tag) = true ↔ more := by
      rw [hreqs]; simp [more]
    have hbad : (w.badLanes q.tag).isEmpty = true ↔ bad = [] := by
      rw [hbads, List.isEmpty_iff]; exact badTable_eq_nil
    by_cases hm : more
    · -- Lanes of the word are still to be answered.
      refine ⟨_, hexec.trans (congrArg _ (if_pos (hmore.mpr hm))), w, wave_setWave _ id _, otherWaves_put s id w _ rfl, hother, hgiven,
        fun _ => ⟨⟨hans.rest, hans.others, _, hans.one, rfl, rfl, ?_, rfl⟩, rfl⟩, fun h => absurd hm h⟩
      simp [hm]
    · have hexec := hexec.trans (congrArg _ (if_neg (mt hmore.mp hm)))
      by_cases hb0 : bad = []
      · -- The last lane, and none in error.
        have hdone := hans.modPend (f := Pend.more [] true) (fun _ => rfl)
        refine ⟨_, hexec.trans (congrArg _ (if_pos (hbad.mpr hb0))), w.pendWrite q.tag [] true, wave_setWave _ id _, otherWaves_put s id _ _ rfl,
          hother, hgiven, fun _ => ⟨⟨hdone.rest, hdone.others, _, hdone.one, rfl, rfl, ?_, List.append_nil _⟩, rfl⟩, fun _ h => absurd hb0 h⟩
        simp [hm, Pend.more]
      · -- The last lane, and the trap of those in error.
        have hexec := hexec.trans (congrArg _ (if_neg (mt hbad.mp hb0)))
        rw [hbads] at hexec
        let u : State := { s with hostMem := mem }.setWave id w
        let tr := hostTrap id w b.core q.pc dk (badTable bad)
        have hrest : { addTrap u id.serial tr with launches := u.launches, latches := u.latches } = u := addTrap_rest u id.serial tr
        have hlaunch : (addTrap u id.serial tr).launch id.serial = some { l with traps := l.traps ++ [tr] } := addTrap_launch (s := u) hl tr
        have hwaves := congrArg State.waves hrest
        have hhost := congrFun (congrArg (fun t : State => tget 0 t.hostMem) hrest)
        refine ⟨_, hexec, w, (congrArg (tfind · (wkey id)) hwaves).trans (wave_setWave s id w), otherWaves_put s id w _ hwaves,
          fun a ha => (hhost a).trans (hother a ha), fun i a ha => (hhost a).trans (hgiven i a ha),
          fun h => absurd h (not_or.mpr ⟨hm, hb0⟩), fun _ _ => ⟨⟨hans.rest, hans.others, _, hans.one, rfl, rfl, by simp, rfl⟩, tr,
            hlaunch, rfl, rfl, rfl, fun i hi => hostTrap_lanes _ _ _ _ _ _ hi, badTable_lowest hb0, ?_⟩⟩
        exact congrArg (fun t : State => { t with waves := s.waves, launches := s.launches, latches := s.latches, hostMem := s.hostMem }) hrest
end Sys2Proof.Machine
end

section
/-! PROOF. Register blocks (R141 to R143): what a slot keeps as a `RTAKE` begins to wait, against what the statement has it keep. -/

namespace Sys2Proof.Machine

/-- The slot of a path that begins to wait: the answer of an earlier wait goes too (R303). -/
def Ctx.heldSlot (c : Ctx) (s : State) (h : Hold) (limit : Nat) : Slot :=
  { c.sl with hold := h, start := c.w.cyc c.b.core s.tick, limit := limit, since := s.tick, met := none, seen := none, ans := none }

theorem wave_hold {s : State} {c : Ctx} (hw : s.wave c.id = some c.w) (h : Hold) (limit : Nat) :
    (c.hold s h limit).wave c.id = some (c.w.setSlot c.slotB (some (c.heldSlot s h limit))) := by
  rw [Ctx.hold, modWave_of hw]
  exact wave_setWave _ _ _

/-- A place taken at the end of a pool's queue. -/
def Block.joinPool (b : Block) (id : WaveId) (slotB : Bool) : Block :=
  { b with takers := tput b.takers (id.wave % 4) (tget [] b.takers (id.wave % 4) ++ [(id.wave, slotB)]) }

/-- R143: a wave whose pool holds too few blocks does not take any, wherever it stands in the queue. -/
theorem canTake_of_short {b : Block} {id : WaveId} {n : Nat} (h : tget 0 b.pools (id.wave % 4) < n) (slotB : Bool) :
    canTake b id slotB n = false := by
  simp [canTake, h]

/-- R143: where the pool holds too few blocks, the path of a `RTAKE` waits. -/
theorem exec_rtake_short {s : State} {c : Ctx} (hc : s.issuer = some c) (h : Hdr) {n : BitVec 8} (lim : Lim 31)
    (hshort : tget 0 c.b.pools (c.id.wave % 4) < n.toNat) : ∃ t, exec (.rtake h n lim) s = .next t ∧
      t.wave c.id = some (c.w.setSlot c.slotB (some (c.heldSlot s (.rtake n.toNat) (limVal c.l lim)))) := by
  obtain ⟨hw, -, -, -⟩ := issuer_spec hc
  have hwait : canTake (c.b.joinPool c.id c.slotB) c.id c.slotB n.toNat = false :=
    canTake_of_short (b := c.b.joinPool c.id c.slotB) hshort c.slotB
  refine ⟨c.hold (s.modBlock c.id.serial c.id.block (fun _ => c.b.joinPool c.id c.slotB)) (.rtake n.toNat) (limVal c.l lim), ?_, wave_hold hw _ _⟩
  show execRtake h n lim s = _
  rw [execRtake, issue_of hc]
  exact congrArg Host.Outcome.next (if_neg (Bool.eq_false_iff.mp hwait))

def staleId : WaveId := ⟨1, 0, 0⟩

/-- A slot that still has the answer of a `CLWAIT` that it waited for before. -/
def staleSlot : Slot :=
  { path := { pc := 0, mask := allLanes 16, join := none, parked := false }, ans := some { word := 0, handle := 0, ready := true, relPt := 0, clk := [] } }

def staleWave : Wave := { loadWave 0 with a := some staleSlot }

/-- The answer that a PC slot of a wave keeps (R355). -/
def Wave.answerOf (w : Wave) (slotB : Bool) : Option ClAns := (w.slot slotB).bind (fun sl => sl.ans)

/-- The wave's path is at the cursor, and the pools of its block are empty. A word that ends a wait drops its answer, but no hypothesis of the
statement says that the path at the cursor has none. -/
def staleState : State :=
  { State.reset with
    launches := [(1, { offer := loadOffer 1, st := .running })]
    blocks := [(bkey 1 0, loadBlock)]
    waves := [(wkey staleId, staleWave)]
    cur := (staleId, false) }

def staleCtx : Ctx :=
  { id := staleId, slotB := false, w := staleWave, sl := staleSlot, b := loadBlock, l := { offer := loadOffer 1, st := .running } }

def rtakeHdr : Hdr := { pn := false, pm := 0, la := 0 }

/-- Refutes O29, in its clause on a `RTAKE` that must wait: the statement has the slot keep the answer of an earlier wait, which it does not list
among the fields that the wait sets, where the machine drops it. -/
theorem not_registerBlocks : ¬ Obligations.RegisterBlocks := by
  intro h
  have hc : staleState.issuer = some staleCtx := rfl
  obtain ⟨hword, -⟩ := h staleState staleCtx rtakeHdr 1 (.imm 1) 0 hc
  obtain ⟨-, -, -, hwaits⟩ := hword rfl
  obtain ⟨t, ht, w, -, hw, hkept, -⟩ := hwaits (.inr (by decide))
  obtain ⟨t', ht', hdropped⟩ := exec_rtake_short hc rtakeHdr (n := 1) (.imm 1) (by decide)
  cases ht.symm.trans ht'
  have hwave := hkept.symm.trans (Option.some.inj (hw.symm.trans hdropped))
  exact absurd (congrArg (Wave.answerOf · false) hwave) (by decide)

end Sys2Proof.Machine
end

section
/-! PROOF. The spill area (R145, R239, R363): a place of the area per register and lane, the writes of `SPILL` by lane, the registers that `FILL`
brings back, the bytes that both count. -/

namespace Sys2Proof.Machine

/-! ### The places of the area -/

/-- The words of one lane saved in slot `k`, and for a pair in slot `k + 1`. -/
def saveLane (wide : Bool) (k : Nat) (x y : Nat → Word) (t : Tab Word) (l : Nat) : Tab Word :=
  let u := tset 0 t (64 * k + l) (x l)
  if wide then tset 0 u (64 * (k + 1) + l) (y l) else u

theorem tget_saveLane (wide : Bool) (k : Nat) (x y : Nat → Word) (t : Tab Word) {a l : Nat} (ha : a < 64) (hl : l < 64) (j : Nat) :
    tget 0 (saveLane wide k x y t a) (64 * j + l) =
      if l = a ∧ j = k then x a else if l = a ∧ wide = true ∧ j = k + 1 then y a else tget 0 t (64 * j + l) := by
  have hplace : ∀ i, 64 * j + l = 64 * i + a ↔ l = a ∧ j = i := by omega
  cases wide with
  | false => simp [saveLane, tget_tset, hplace]
  | true =>
    simp only [saveLane, if_true, tget_tset, hplace, true_and]
    by_cases hj : j = k + 1
    · simp [hj]
    · simp [hj]

@[simp] theorem advance_spill (w : Wave) (b : Bool) : (w.advance b).spill = w.spill := by cases b <;> rfl

/-- The lanes of `ls` saved read back; every other place is left alone. -/
theorem tget_foldl_saveLane (wide : Bool) (k : Nat) (x y : Nat → Word) {ls : List Nat} (hls : ∀ l ∈ ls, l < 64) (t : Tab Word) {l : Nat}
    (hl : l < 64) (j : Nat) :
    tget 0 (ls.foldl (saveLane wide k x y) t) (64 * j + l) =
      if l ∈ ls ∧ j = k then x l else if l ∈ ls ∧ wide = true ∧ j = k + 1 then y l else tget 0 t (64 * j + l) := by
  induction ls generalizing t with
  | nil => simp
  | cons a ls ih =>
    rw [List.foldl_cons, ih (fun m hm => hls m (List.mem_cons_of_mem _ hm)), tget_saveLane wide k x y t (hls a List.mem_cons_self) hl]
    by_cases hla : l = a
    · subst hla
      simp only [List.mem_cons_self, true_and]
      by_cases hm : l ∈ ls
      · simp only [hm, true_and]; split_ifs <;> rfl
      · simp only [hm, false_and, if_false]
    · simp [List.mem_cons, hla]

/-! ### The writes of `FILL` -/

/-- A word that writes the low half of a 64-bit value of each lane of `ls`. -/
theorem vecOnly_low (c : Ctx) (d : Nat) (ls : List Nat) (hi lo : Nat → BitVec 32) (hls : ∀ l ∈ ls, l < 64) :
    c.vecOnly ((c.w.applyWrites (ls.map (fun l => .v d l (lo l)))).advance c.slotB) d false ls (fun l => hi l ++ lo l) := by
  have hlow : ∀ l, (BitVec.ofNat 64 ((lo l).toNat % 2 ^ 32)).extractLsb' 0 32 = (hi l ++ lo l).extractLsb' 0 32 := fun l => by
    rw [BitVec.extractLsb'_append_eq_of_add_le (by decide), BitVec.extractLsb'_eq_self]
    apply BitVec.eq_of_toNat_eq
    show ((lo l).toNat % 2 ^ 32 % 2 ^ 64) >>> 0 % 2 ^ 32 = (lo l).toNat
    omega
  have hword := vecOnly_word c d ls (fun l => (lo l).toNat) hls
  simp only [BitVec.ofNat_toNat, BitVec.setWidth_eq] at hword
  obtain ⟨hpast, hs, hm, hv⟩ := hword
  refine ⟨hpast, hs, hm, fun r l hl => ?_⟩
  rw [hv r l hl]
  simp only [hlow, Bool.false_eq_true, false_and, and_false, if_false]

/-- The lanes `ls` brought back from slot `k`, and for a pair from slot `k + 1`. -/
def Wave.fillWrites (w : Wave) (wide : Bool) (d k : Nat) (ls : List Nat) : List RegWrite :=
  ls.flatMap (fun l => .v d l (tget 0 w.spill (64 * k + l)) ::
    (if wide then [.v (d + 1) l (tget 0 w.spill (64 * (k + 1) + l))] else []))

theorem fillWrites_isEmpty (w : Wave) (wide : Bool) (d k : Nat) (ls : List Nat) :
    (w.fillWrites wide d k ls).isEmpty = true ↔ ls = [] := by
  cases ls <;> simp [Wave.fillWrites]

theorem vecOnly_fillWrites (c : Ctx) (wide : Bool) (d k : Nat) {ls : List Nat} (hls : ∀ l ∈ ls, l < 64) :
    c.vecOnly ((c.w.applyWrites (c.w.fillWrites wide d k ls)).advance c.slotB) d wide ls
      (fun l => tget 0 c.w.spill (64 * (k + 1) + l) ++ tget 0 c.w.spill (64 * k + l)) := by
  cases wide with
  | false =>
    have hmap : c.w.fillWrites false d k ls = ls.map (fun l => .v d l (tget 0 c.w.spill (64 * k + l))) := List.map_eq_flatMap.symm
    rw [hmap]
    exact vecOnly_low c d ls _ _ hls
  | true => exact vecOnly_pair c d ls _ _ hls

/-! ### What a word of the area leaves (R239, R363) -/

/-- The launch has `n` bytes of HBM more to its count; the issuing wave apart, nothing else of the machine differs. -/
def Ctx.counts (c : Ctx) (s t : State) (n : Nat) : Prop :=
  (∃ l, t.launch c.id.serial = some l ∧ { l with ebytes := c.l.ebytes } = c.l ∧ tget 0 l.ebytes 1 = tget 0 c.l.ebytes 1 + n) ∧
    otherWaves s t c.id ∧ { t with waves := s.waves, launches := s.launches } = s

section
variable {s : State} {c : Ctx} (hc : s.issuer = some c)
include hc

theorem done_addBytes (f : Wave → Wave) (n : Nat) :
    (c.done (addBytes s c.id.serial 1 n) f).wave c.id = some ((f c.w).advance c.slotB) ∧ c.counts s (c.done (addBytes s c.id.serial 1 n) f) n := by
  obtain ⟨hw, -, hl, -⟩ := issuer_spec hc
  have hdone : c.done (addBytes s c.id.serial 1 n) f = (addBytes s c.id.serial 1 n).setWave c.id ((f c.w).advance c.slotB) :=
    modWave_of (s := addBytes s c.id.serial 1 n) hw (fun w => (f w).advance c.slotB)
  rw [hdone, addBytes_of hl]
  exact ⟨wave_setWave _ _ _, ⟨_, tfind_tput_same _ _ _, rfl, tget_tset_same _ _ _ _⟩, otherWaves_put s c.id _ _ rfl, rfl⟩

variable {h : Hdr} {wide : Bool} {k : BitVec 12} (r : BitVec 8)

/-- Without an error `SPILL` saves the lanes of EFF. -/
theorem exec_spill_clean (hclean : spillBad c s h wide k = none) : exec (.spill h wide r k) s = .next
    (c.done (addBytes s c.id.serial 1 (64 * (c.lanes h).length)) (fun w =>
      { w with spill := (c.lanes h).foldl (saveLane wide k.toNat (w.readV r.toNat) (w.readV (r.toNat + 1))) w.spill })) := by
  show execSpill h wide r k s = _
  rw [execSpill, issue_of hc, hclean]
  rfl

/-- Without an error the registers that `FILL` brings back wait to be written. -/
theorem exec_fill_clean (hclean : spillBad c s h wide k = none) : exec (.fill h wide r k) s = .next
    (c.later (addBytes s c.id.serial 1 (64 * (c.lanes h).length)) (if wide = true then [.v r.toNat, .v (r.toNat + 1)] else [.v r.toNat])
      (c.w.fillWrites wide r.toNat k.toNat (c.lanes h))) := by
  show execFill h wide r k s = _
  rw [execFill, issue_of hc, hclean]
  rfl

/-- R363: either word that meets a unit in error traps at the lowest offset in one. -/
theorem exec_spill_or_fill_bad {a : Nat} (hbad : spillBad c s h wide k = some a) {i : Instr} (hi : i = .spill h wide r k ∨ i = .fill h wide r k) :
    exec i s = .next (raiseSpill c s a) := by
  rcases hi with rfl | rfl
  · show execSpill h wide r k s = _
    rw [execSpill, issue_of hc, hbad]
  · show execFill h wide r k s = _
    rw [execFill, issue_of hc, hbad]

end

/-- Settles O30: where no unit of the area is in error, `SPILL` by the places that it saves (`tget_foldl_saveLane`), `FILL` by the registers that
it brings back (`vecOnly_fillWrites`); where one is, both by the trap. -/
theorem spillAndFill : Obligations.SpillAndFill := by
  intro s c h wide r k hc dst offsets counted
  refine ⟨fun hgood => ?clean, fun a ha i hi => ⟨_, exec_spill_or_fill_bad hc r ha hi, raise_trapped hc _ _ _ _ _⟩⟩
  have hclean : spillBad c s h wide k = none := List.find?_eq_none.mpr (fun a ha => by simpa using hgood a ha)
  refine ⟨?spill, ?fill⟩
  case spill =>
    obtain ⟨hwave, hcounts⟩ := done_addBytes hc _ _
    refine ⟨_, exec_spill_clean hc r hclean, hcounts, _, hwave, ?others, fun j l hl => ?places⟩
    case others => cases c.slotB <;> rfl
    case places =>
      rw [advance_spill]
      exact tget_foldl_saveLane wide k.toNat _ _ (lanes_lt c h) c.w.spill hl j
  case fill =>
    obtain ⟨hwave, hcounts⟩ := done_addBytes hc _ _
    have hempty := fillWrites_isEmpty c.w wide r.toNat k.toNat (c.lanes h)
    exact ⟨_, exec_fill_clean hc r hclean, hcounts, c.w.fillWrites wide r.toNat k.toNat (c.lanes h),
      fun h0 => hwave.trans (congrArg (fun w => some (Wave.advance w c.slotB)) (if_pos (hempty.mpr h0))),
      fun h0 => hwave.trans (congrArg (fun w => some (Wave.advance w c.slotB)) (if_neg (mt hempty.mp h0))),
      vecOnly_fillWrites c wide r.toNat k.toNat (lanes_lt c h)⟩

end Sys2Proof.Machine
end

section
/-! PROOF. Scratchpad words at issue (08_scratchpad.md): the check of their addresses (R152, R153), said once for all the words that make it, and
what a word that passes it leaves (R154). -/

namespace Sys2Proof.Machine

/-! ### The check of addresses (R152, R153) -/

/-- The turns of `ls` whose bytes are not all inside the allocation. -/
def outsideOf (size n : Nat) (ls : List Nat) (f : Nat → Int) : List Nat := ls.filter (fun l => decide (f l < 0 ∨ (size : Int) < f l + n))

/-- The turns of `ls` whose address is no multiple of `align`. -/
def misalignedOf (align : Nat) (ls : List Nat) (f : Nat → Int) : List Nat := ls.filter (fun l => decide (f l % align ≠ 0))

theorem filter_outside (size n : Nat) (ls : List Nat) (f : Nat → Int) :
    (ls.map (fun l => (l, f l))).filter (fun p => p.2 < 0 || (size : Int) < p.2 + n) = (outsideOf size n ls f).map (fun l => (l, f l)) := by
  simp only [List.filter_map, outsideOf, Function.comp_def, Bool.decide_or]

theorem filter_misaligned (align : Nat) (ls : List Nat) (f : Nat → Int) :
    (ls.map (fun l => (l, f l))).filter (fun p => p.2 % (align : Int) != 0) = (misalignedOf align ls f).map (fun l => (l, f l)) := by
  simp only [List.filter_map, misalignedOf, Function.comp_def, bne, beq_eq_decide, ne_eq, decide_not]

/-- Every address is inside the allocation and aligned. -/
def fitsAll (size n align : Nat) (ls : List Nat) (f : Nat → Int) : Prop := ∀ l ∈ ls, 0 ≤ f l ∧ f l + n ≤ size ∧ f l % align = 0

theorem outsideOf_fits {size n align : Nat} {ls : List Nat} {f : Nat → Int} (h : fitsAll size n align ls f) : outsideOf size n ls f = [] := by
  refine List.filter_eq_nil_iff.mpr (fun l hl => ?_)
  obtain ⟨hlow, hhigh, -⟩ := h l hl
  simp only [decide_eq_true_eq]
  omega

theorem misalignedOf_fits {size n align : Nat} {ls : List Nat} {f : Nat → Int} (h : fitsAll size n align ls f) : misalignedOf align ls f = [] :=
  List.filter_eq_nil_iff.mpr (fun l hl => by simp [(h l hl).2.2])

section
variable (c : Ctx) (s : State) (once : Bool) {size n align : Nat} {ls : List Nat} {f : Nat → Int} {l : Nat} (ok : List (Nat × Nat) → State)

/-- A word whose addresses all pass goes on with them. -/
theorem checkSp_fits (h : fitsAll size n align ls f) :
    checkSp c s once size n align (ls.map (fun l => (l, f l))) ok = ok (ls.map (fun l => (l, (f l).toNat))) := by
  simp only [checkSp, filter_outside, filter_misaligned, outsideOf_fits h, misalignedOf_fits h]
  simp [Function.comp_def]

/-- The trap of some turns: its lanes are theirs, none where the word acts once, and its value is the address of the first. -/
def raiseTurns (code : Nat) (bad : List Nat) (v : BitVec 64) : State := raise c s code aCALLER 0 (if once = true then 0 else maskOf bad) v

theorem raiseAt_turns (code : Nat) {bad : List Nat} (hl : bad.head? = some l) :
    raiseAt c s code once (bad.map (fun l => (l, f l))) = raiseTurns c s once code bad (BitVec.ofInt 64 (f l)) := by
  obtain ⟨t, rfl⟩ := List.head?_eq_some_iff.mp hl
  cases once <;> simp [raiseAt, raiseLanes, raiseTurns, maskOf, Function.comp_def]

theorem checkSp_outside (hl : (outsideOf size n ls f).head? = some l) :
    checkSp c s once size n align (ls.map (fun l => (l, f l))) ok =
      raiseTurns c s once cSPBOUND (outsideOf size n ls f) (BitVec.ofInt 64 (f l)) := by
  have hne : outsideOf size n ls f ≠ [] := fun h0 => by simp [h0] at hl
  simp only [checkSp, filter_outside]
  rw [if_pos (by simpa using hne), raiseAt_turns c s once _ hl]

theorem checkSp_misaligned (hin : outsideOf size n ls f = []) (hl : (misalignedOf align ls f).head? = some l) :
    checkSp c s once size n align (ls.map (fun l => (l, f l))) ok =
      raiseTurns c s once cMISALIGN (misalignedOf align ls f) (BitVec.ofInt 64 (f l)) := by
  have hne : misalignedOf align ls f ≠ [] := fun h0 => by simp [h0] at hl
  simp only [checkSp, filter_outside, filter_misaligned, hin]
  rw [if_neg (by simp), if_pos (by simpa using hne), raiseAt_turns c s once _ hl]

end

/-! ### Words that make the check -/

/-- The word acts in the turns `ls`, none of which means that it only moves on, and goes on by `ok` where their addresses `f` pass the check. -/
def spChecked (c : Ctx) (s : State) (i : Instr) (once : Bool) (size n align : Nat) (ls : List Nat) (f : Nat → Int)
    (ok : List (Nat × Nat) → State) : Prop :=
  exec i s = .next (if ls.isEmpty then c.done s id else checkSp c s once size n align (ls.map (fun l => (l, f l))) ok)

section
variable {s : State} {c : Ctx} {i : Instr} {once : Bool} {size n align : Nat} {ls : List Nat} {f : Nat → Int} {ok : List (Nat × Nat) → State}
  (hi : spChecked c s i once size n align ls f ok)
include hi

theorem passes_of_spChecked (hc : s.issuer = some c) (h : ls = []) : passes c s i := by
  subst h
  exact passes_of hc hi

theorem answers_of_spChecked {P : State → Prop} (hne : ls ≠ []) (h : fitsAll size n align ls f)
    (hp : P (ok (ls.map (fun l => (l, (f l).toNat))))) : answers s i P :=
  ⟨_, hi.trans (congrArg _ ((if_neg (by simpa using hne)).trans (checkSp_fits c s once ok h))), hp⟩

/-- The word takes a trap of the turns `bad` at the address of the first. -/
theorem traps_of_spChecked (hc : s.issuer = some c) {bad : List Nat} {code l : Nat} (hsub : bad ⊆ ls) (hl : bad.head? = some l)
    (he : checkSp c s once size n align (ls.map (fun l => (l, f l))) ok = raiseTurns c s once code bad (BitVec.ofInt 64 (f l))) :
    answers s i (fun t => c.trapped s t code aCALLER 0 (if once = true then 0 else maskOf bad) (BitVec.ofInt 64 (f l))) := by
  have hne : ls ≠ [] := List.ne_nil_of_mem (hsub (List.mem_of_mem_head? hl))
  exact ⟨_, hi.trans (congrArg _ ((if_neg (by simpa using hne)).trans he)), raise_trapped hc _ _ _ _ _⟩

theorem spbound_of_spChecked (hc : s.issuer = some c) (l : Nat) (hl : (outsideOf size n ls f).head? = some l) :
    answers s i (fun t => c.trapped s t cSPBOUND aCALLER 0 (if once = true then 0 else maskOf (outsideOf size n ls f)) (BitVec.ofInt 64 (f l))) :=
  traps_of_spChecked hi hc (List.filter_subset_self _) hl (checkSp_outside c s once ok hl)

theorem misalign_of_spChecked (hc : s.issuer = some c) (hin : outsideOf size n ls f = []) (l : Nat)
    (hl : (misalignedOf align ls f).head? = some l) :
    answers s i (fun t => c.trapped s t cMISALIGN aCALLER 0 (if once = true then 0 else maskOf (misalignedOf align ls f)) (BitVec.ofInt 64 (f l))) :=
  traps_of_spChecked hi hc (List.filter_subset_self _) hl (checkSp_misaligned c s once ok hin hl)

end

/-- The address of a turn of a word of memory format (R152). -/
def Ctx.memAddr (c : Ctx) (m : Mem) (l : Nat) : Int := spAddr c.w m.ak m.sa.toNat l + m.off.toInt

/-- A store's turns, addresses and bytes (R153). -/
def Ctx.stored (c : Ctx) (m : Mem) (at_ : List (Nat × Nat)) : List (Nat × Nat × List Byte) :=
  at_.map (fun p => (p.1, p.2, storeBytes c m.ty m.dk m.dst.toNat p.1))

/-- The turns of a full/empty word with the lines that they name (R164). -/
def lineTurns (at_ : List (Nat × Nat)) : List (Nat × Nat) := at_.map (fun p => (p.1, p.2 / 128))

section
variable {s : State} {c : Ctx} (hc : s.issuer = some c)
include hc

theorem lds_spChecked (m : Mem) : spChecked c s (.lds m) m.dk c.l.offer.kernel.scratch m.ty.size 1 (turnsOf c m.h m.dk) (c.memAddr m)
    (fun at_ => spIssue c s (.lds m.ty m.dk m.dst.toNat at_ (linesOf at_ m.ty.size)) (dstRegs m.ty m.dk m.dst.toNat) .other
      c.l.offer.kernel.fillLimit (c.eff m.h)) :=
  issue_of hc _

theorem sts_spChecked (m : Mem) : spChecked c s (.sts m) m.dk c.l.offer.kernel.scratch m.ty.size 1 (turnsOf c m.h m.dk) (c.memAddr m)
    (fun at_ => spIssue c s (.store false (c.stored m at_)) [] .other 0 (c.eff m.h)) :=
  issue_of hc _

theorem dlds_spChecked (m : Mem) : spChecked c s (.dlds m) m.dk c.l.offer.kernel.diescratch m.ty.size 1 (turnsOf c m.h m.dk) (c.memAddr m)
    (fun at_ => detTouch c s m.dk 0 (dieTouches c m.ty.size at_) (fun s =>
      spIssue c s (.load true m.ty m.dk m.dst.toNat at_) (dstRegs m.ty m.dk m.dst.toNat) .die 0 (c.eff m.h))) :=
  issue_of hc _

theorem dsts_spChecked (m : Mem) : spChecked c s (.dsts m) m.dk c.l.offer.kernel.diescratch m.ty.size 1 (turnsOf c m.h m.dk) (c.memAddr m)
    (fun at_ => detTouch c s m.dk 1 (dieTouches c m.ty.size at_) (fun s => spIssue c s (.store true (c.stored m at_)) [] .die 0 (c.eff m.h))) :=
  issue_of hc _

theorem ats_spChecked (op : AtomOp) (r : Lane) : spChecked c s (.ats op r) (r.form == .scal) c.l.offer.kernel.scratch r.ty.size r.ty.size (c.turns r)
    (spAddr c.w (r.form == .scal) r.sa.toNat) (fun at_ => spIssue c s (.ats op r.ty (r.form == .scal) r.dst.toNat
      (at_.map (fun p => (p.1, p.2, srcB c.w r r.ty p.1)))) (dstRegs r.ty (r.form == .scal) r.dst.toNat) .other 0 (c.eff r.h)) :=
  issue_of hc _

theorem cass_spChecked (r : Lane) : spChecked c s (.cass r) (r.form == .scal) c.l.offer.kernel.scratch r.ty.size r.ty.size (c.turns r)
    (spAddr c.w (r.form == .scal) r.sa.toNat) (fun at_ => spIssue c s (.cass r.ty (r.form == .scal) r.dst.toNat
      (at_.map (fun p => (p.1, p.2, srcB c.w r r.ty p.1, srcC c.w r r.ty p.1)))) (dstRegs r.ty (r.form == .scal) r.dst.toNat) .other 0 (c.eff r.h)) :=
  issue_of hc _

section
variable (h : Hdr) (keep : BitVec 3) (once : Bool) (sa : BitVec 8)

theorem feset_spChecked : spChecked c s (.feset h keep once sa) once c.l.offer.kernel.scratch 1 4 (turnsOf c h once) (spAddr c.w once sa.toNat)
    (fun at_ => spIssue c s (.feset (lineTurns at_)) [] .other 0 (c.eff h)) :=
  issue_of hc _

theorem feclr_spChecked : spChecked c s (.feclr h keep once sa) once c.l.offer.kernel.scratch 1 4 (turnsOf c h once) (spAddr c.w once sa.toNat)
    (fun at_ => spIssue c s (.feclr (lineTurns at_)) [] .other 0 (c.eff h)) :=
  issue_of hc _

theorem feqry_spChecked (d : BitVec 8) : spChecked c s (.feqry h keep once d sa) once c.l.offer.kernel.scratch 1 4 (turnsOf c h once)
    (spAddr c.w once sa.toNat) (fun at_ => spIssue c s (.feqry once d.toNat (lineTurns at_)) [if once then .s d.toNat else .m d.toNat] .other 0
      (c.eff h)) :=
  issue_of hc _

end

/-- `QINIT` acts once, at the address of the ring (R168). -/
theorem qinit_spChecked (h : Hdr) (q : BitVec 4) (sa lg al : BitVec 8) : spChecked c s (.qinit h q sa lg al) true c.l.offer.kernel.scratch
    (4 * 2 ^ lg.toNat) 4 (turnsOf c h true) (spAddr c.w true sa.toNat)
    (fun at_ => spIssue c s (.qinit q.toNat ((at_.map (fun p => p.2)).headD 0) (2 ^ lg.toNat) al.toNat) [] .other 0 (c.eff h)) := by
  refine (issue_of hc _).trans (congrArg _ ?_)
  cases ha : c.any h <;> simp [turnsOf, ha, spAddr]

end

/-! ### Words of the die scratchpad under the determinism flag (R170, R313) -/

/-- Under the determinism flag, none of the bytes of some turns of a word conflicts with an earlier touch. -/
def Ctx.quiet (c : Ctx) (kind n : Nat) (at_ : List (Nat × Nat)) : Prop :=
  c.det = true → ∀ p ∈ at_, findConflict c.l c.b c.id.block kind ((List.range n).map (fun i => dieLoc c (p.2 + i))) = none

theorem addTouches_spec {s : State} {n block : Nat} {b : Block} {l : Launch} (hb : s.block n block = some b) (hl : s.launch n = some l)
    (kind pc : Nat) (locs : List Nat) : ∃ l', (addTouches s n block kind pc locs).launch n = some l' ∧ { l' with touches := l.touches } = l ∧
      { addTouches s n block kind pc locs with launches := s.launches } = s := by
  simp only [addTouches, hb]
  rw [modLaunch_of hl]
  exact ⟨_, tfind_tput_same _ _ _, rfl, rfl⟩

/-- Where nothing conflicts with the bytes of a word its touches are recorded, and it goes on. -/
theorem detTouch_quiet {s : State} {c : Ctx} (hc : s.issuer = some c) (once : Bool) {kind n : Nat} {at_ : List (Nat × Nat)}
    (hq : c.quiet kind n at_) (ok : State → State) :
    ∃ (s1 : State) (l : Launch), detTouch c s once kind (dieTouches c n at_) ok = ok s1 ∧
      s1.launch c.id.serial = some l ∧ { l with touches := c.l.touches } = c.l ∧ { s1 with launches := s.launches } = s := by
  obtain ⟨-, hb, hl, -⟩ := issuer_spec hc
  cases hd : c.det with
  | false => exact ⟨s, c.l, by simp [detTouch, hd], hl, rfl, rfl⟩
  | true =>
    have hnone : (dieTouches c n at_).findSome? (fun p =>
        (findConflict c.l c.b c.id.block kind (p.2.map (fun x => x.1))).map (fun f => (p.1, ((tfind p.2 f.1).getD 0), f.2))) = none := by
      refine List.findSome?_eq_none_iff.mpr (fun x hx => ?_)
      obtain ⟨p, hp, rfl⟩ := List.mem_map.mp hx
      simpa [Function.comp_def] using hq hd p hp
    obtain ⟨l, hrest⟩ := addTouches_spec hb hl kind c.sl.path.pc.toNat ((dieTouches c n at_).flatMap (fun p => p.2.map (fun x => x.1)))
    exact ⟨_, l, by rw [detTouch, hd, hnone]; rfl, hrest⟩

/-! ### What the words leave -/

section
variable {s : State} {c : Ctx} (hc : s.issuer = some c)
include hc

/-- A word that enters its wave's queue as it issues (R154). -/
theorem queued_of_issuer (k : SpKind) (dst : List Reg) (pk : PendKind) (limit : Nat) (eff : Mask) :
    c.queued s (spIssue c s k dst pk limit eff) k dst limit eff :=
  spIssue_queued (issuer_spec hc).1 rfl (issuer_spec hc).2.2.1 rfl k dst pk limit eff

theorem queued_of_quiet (once : Bool) {kind n : Nat} {at_ : List (Nat × Nat)} (hq : c.quiet kind n at_)
    (k : SpKind) (dst : List Reg) (pk : PendKind) (limit : Nat) (eff : Mask) :
    c.queued s (detTouch c s once kind (dieTouches c n at_) (fun s => spIssue c s k dst pk limit eff)) k dst limit eff := by
  obtain ⟨s1, l, he, hl, ht, hs⟩ := detTouch_quiet hc once hq (fun s => spIssue c s k dst pk limit eff)
  rw [he]
  exact spIssue_queued (issuer_spec hc).1 hs hl ht k dst pk limit eff

end

/-- Settles O12: each of the four words makes the check (`lds_spChecked` and the next three), which lanes inside the allocation pass. -/
theorem scratchpadMemoryWords : Obligations.ScratchpadMemoryWords := by
  intro s c m hc ls ad at_ data inside quiet dst eff
  have hfits : ∀ {size}, inside size → fitsAll size m.ty.size 1 ls (c.memAddr m) := fun ⟨_, h⟩ l hl =>
    let ⟨hlow, hhigh⟩ := h l hl
    ⟨hlow, hhigh, Int.emod_one _⟩
  have hdata : c.stored m at_ = data := by simp only [Ctx.stored, at_, data, List.map_map]; rfl
  refine ⟨fun hin => ⟨?lds, ?sts⟩, fun hin => ⟨fun hq => ?dlds, fun hq => ?dsts⟩, fun h0 => ⟨?_, ?_, ?_, ?_⟩⟩
  case lds => exact answers_of_spChecked (lds_spChecked hc m) hin.1 (hfits hin) (queued_of_issuer hc _ _ _ _ _)
  case sts => exact answers_of_spChecked (sts_spChecked hc m) hin.1 (hfits hin) (hdata ▸ queued_of_issuer hc _ _ _ _ _)
  case dlds => exact answers_of_spChecked (dlds_spChecked hc m) hin.1 (hfits hin) (queued_of_quiet hc _ hq _ _ _ _ _)
  case dsts => exact answers_of_spChecked (dsts_spChecked hc m) hin.1 (hfits hin) (hdata ▸ queued_of_quiet hc _ hq _ _ _ _ _)
  · exact passes_of_spChecked (lds_spChecked hc m) hc h0
  · exact passes_of_spChecked (sts_spChecked hc m) hc h0
  · exact passes_of_spChecked (dlds_spChecked hc m) hc h0
  · exact passes_of_spChecked (dsts_spChecked hc m) hc h0

theorem turnsOf_true (c : Ctx) (h : Hdr) : turnsOf c h true = if c.any h = true then [0] else [] := rfl

/-- A word of register format acts in the turns of its form (R36). -/
theorem turns_eq (c : Ctx) (r : Lane) : (if r.form = .scal then (if c.any r.h = true then [0] else []) else c.lanes r.h) = c.turns r := by
  by_cases h : r.form = .scal
  · rw [if_pos h, turns_scal c r h]
  · rw [if_neg h, turns_vec c r h]

/-- `QPUSH` and `QPOP` make no check: they move on where no lane acts, and wait in the queue where one does (R168). -/
theorem exec_qpush {s : State} {c : Ctx} (hc : s.issuer = some c) (h : Hdr) (q : BitVec 4) (sa : BitVec 8) (lim : Lim 31) :
    exec (.qpush h q sa lim) s = .next (if !c.any h then c.done s id
      else spIssue c s (.qpush q.toNat ((c.w.readS sa.toNat).extractLsb' 0 32)) [] .other (limVal c.l lim) (c.eff h)) :=
  issue_of hc _

theorem exec_qpop {s : State} {c : Ctx} (hc : s.issuer = some c) (h : Hdr) (d : BitVec 8) (q : BitVec 4) (lim : Lim 31) :
    exec (.qpop h d q lim) s = .next (if !c.any h then c.done s id
      else spIssue c s (.qpop q.toNat d.toNat) [.s d.toNat] .other (limVal c.l lim) (c.eff h)) :=
  issue_of hc _

/-- Settles O13: each word but `QPUSH` and `QPOP` makes the check (`ats_spChecked` and those below it), which the addresses of the statement
pass. -/
theorem scratchpadAtomicWords : Obligations.ScratchpadAtomicWords := by
  intro s c r h keep once sa d q lg al lim hc size ad fits rl ra hl ha fe
  have hrl : rl = c.turns r := turns_eq c r
  have hfe : lineTurns (hl.map (fun l => (l, (ha l).toNat))) = fe := by simp only [lineTurns, fe, List.map_map]; rfl
  refine ⟨fun hin => ⟨fun op => ?ats, ?cass⟩, fun h0 => ⟨?cass0, fun op => ?ats0⟩, fun h0 => ⟨?feset0, ?feclr0, ?feqry0⟩,
    fun h0 => ⟨?qinit0, ?qpush0, ?qpop0⟩, fun hin => ⟨?feset, ?feclr, ?feqry⟩, fun hon hin => ?qinit, fun hon => ⟨?qpush, ?qpop⟩⟩
  case ats =>
    rw [hrl] at hin ⊢
    refine answers_of_spChecked (ats_spChecked hc op r) hin.1 hin.2 ?_
    rw [List.map_map]
    exact queued_of_issuer hc _ _ _ _ _
  case cass =>
    rw [hrl] at hin ⊢
    refine answers_of_spChecked (cass_spChecked hc r) hin.1 hin.2 ?_
    rw [List.map_map]
    exact queued_of_issuer hc _ _ _ _ _
  case cass0 => exact passes_of_spChecked (cass_spChecked hc r) hc (hrl ▸ h0)
  case ats0 => exact passes_of_spChecked (ats_spChecked hc op r) hc (hrl ▸ h0)
  case feset0 => exact passes_of_spChecked (feset_spChecked hc h keep once sa) hc h0
  case feclr0 => exact passes_of_spChecked (feclr_spChecked hc h keep once sa) hc h0
  case feqry0 => exact passes_of_spChecked (feqry_spChecked hc h keep once sa d) hc h0
  case qinit0 => exact passes_of_spChecked (qinit_spChecked hc h q sa lg al) hc (by rw [turnsOf_true, if_neg (by simp [h0])])
  case qpush0 => exact passes_of hc ((exec_qpush hc h q sa lim).trans (by rw [h0]; rfl))
  case qpop0 => exact passes_of hc ((exec_qpop hc h d q lim).trans (by rw [h0]; rfl))
  case feset => exact answers_of_spChecked (feset_spChecked hc h keep once sa) hin.1 hin.2 (hfe ▸ queued_of_issuer hc _ _ _ _ _)
  case feclr => exact answers_of_spChecked (feclr_spChecked hc h keep once sa) hin.1 hin.2 (hfe ▸ queued_of_issuer hc _ _ _ _ _)
  case feqry => exact answers_of_spChecked (feqry_spChecked hc h keep once sa d) hin.1 hin.2 (hfe ▸ queued_of_issuer hc _ _ _ _ _)
  case qinit =>
    have hturns : turnsOf c h true = [0] := if_pos hon
    have hcheck := qinit_spChecked hc h q sa lg al
    rw [hturns] at hcheck
    exact answers_of_spChecked hcheck hin.1 hin.2 (queued_of_issuer hc _ _ _ _ _)
  case qpush => exact ⟨_, (exec_qpush hc h q sa lim).trans (by rw [hon]; rfl), queued_of_issuer hc _ _ _ _ _⟩
  case qpop => exact ⟨_, (exec_qpop hc h d q lim).trans (by rw [hon]; rfl), queued_of_issuer hc _ _ _ _ _⟩

end Sys2Proof.Machine
end

section
/-! PROOF. Device and host words that trap at issue (R180, R185, R188, R190, R363): the lanes that do not translate, those whose addresses are
not aligned, and the locations that no memory has. -/

namespace Sys2Proof.Machine

/-! ### The turns that fail a check -/

section
variable {ε : Type} (fails : Nat → Option ε) (f : Nat → BitVec 64)

/-- The turns of `ls` that fail a check, each with its address and how it fails. -/
def failures (ls : List Nat) : List (Nat × BitVec 64 × ε) := ls.filterMap (fun l => (fails l).map (fun e => (l, f l, e)))

theorem failures_turns (ls : List Nat) : (failures fails f ls).map (fun b => b.1) = ls.filter (fun l => (fails l).isSome) := by
  induction ls with
  | nil => rfl
  | cons a ls ih =>
    simp only [failures] at ih ⊢
    cases h : fails a <;> simp [h, ih]

variable {fails f} {ls : List Nat}

theorem failures_first {l : Nat} {e : ε} (hl : (ls.filter (fun l => (fails l).isSome)).head? = some l) (he : fails l = some e) :
    ∃ t, failures fails f ls = (l, f l, e) :: t := by
  rw [← failures_turns fails f] at hl
  cases hb : failures fails f ls with
  | nil => simp [hb] at hl
  | cons b t =>
    obtain ⟨a, -, ha⟩ := List.mem_filterMap.mp (hb ▸ List.mem_cons_self : b ∈ failures fails f ls)
    obtain ⟨e', he', rfl⟩ := Option.map_eq_some_iff.mp ha
    obtain rfl : a = l := by simpa [hb] using hl
    obtain rfl : e' = e := Option.some.inj (he'.symm.trans he)
    exact ⟨t, rfl⟩

theorem failures_none (h : ls.filter (fun l => (fails l).isSome) = []) : failures fails f ls = [] :=
  List.map_eq_nil_iff.mp ((failures_turns fails f ls).trans h)

end

/-! ### The two checks -/

section
variable (c : Ctx) (s : State) (once : Bool) {n : Nat} {k : Acc} {f : Nat → BitVec 64} {ls : List Nat} {l : Nat}

/-- How a turn of a device word fails to translate (R180). -/
def Ctx.xlFails (c : Ctx) (s : State) (n : Nat) (k : Acc) (f : Nat → BitVec 64) (l : Nat) : Option (Nat × Nat) :=
  firstBad (access s (c.mapping s) (f l) n k)

/-- The turns of a device word that do not translate. -/
def Ctx.xlBad (c : Ctx) (s : State) (n : Nat) (k : Acc) (f : Nat → BitVec 64) (ls : List Nat) : List Nat :=
  ls.filter (fun l => (c.xlFails s n k f l).isSome)

theorem devAccess_failures : (devAccess c s n k (ls.map (fun l => (l, f l)))).filterMap (fun a => (firstBad a.2.2).map (fun e => (a.1, a.2.1, e))) =
    failures (c.xlFails s n k f) f ls := by
  rw [devAccess, List.map_map, List.filterMap_map]
  rfl

theorem checkDev_bad {e : Nat × Nat} (ok : State → Out) (hl : (c.xlBad s n k f ls).head? = some l) (he : c.xlFails s n k f l = some e) :
    checkDev c s once (devAccess c s n k (ls.map (fun l => (l, f l)))) ok =
      .next (raise c s e.1 e.2 0 (if once = true then 0 else maskOf (c.xlBad s n k f ls)) (f l)) := by
  have hturns : (failures (c.xlFails s n k f) f ls).map (fun b => b.1) = c.xlBad s n k f ls := failures_turns _ f ls
  obtain ⟨t, ht⟩ := failures_first (f := f) hl he
  simp only [checkDev, devAccess_failures, ht] at hturns ⊢
  rw [hturns]

/-- A turn of a device word reaches a location that its tier does not have (R172). -/
theorem any_absent_iff : (devAccess c s n k (ls.map (fun l => (l, f l)))).any (fun a => (locsOf a.2.2).any absent) = true ↔
    ∃ l ∈ ls, ∃ x, Xl.at_ x ∈ access s (c.mapping s) (f l) n k ∧ absent x = true := by
  have hloc : ∀ (xs : List Xl) (x : Nat), x ∈ locsOf xs ↔ Xl.at_ x ∈ xs := by
    intro xs x
    simp only [locsOf, List.mem_filterMap]
    constructor
    · rintro ⟨a, ha, he⟩
      cases a with
      | at_ y => cases he; exact ha
      | remote d y => cases he
      | bad cd at_ => cases he
    · exact fun h => ⟨_, h, rfl⟩
  simp [devAccess, hloc]

theorem checkDev_absent (ok : State → Out) (hgood : c.xlBad s n k f ls = [])
    (hx : ∃ l ∈ ls, ∃ x, Xl.at_ x ∈ access s (c.mapping s) (f l) n k ∧ absent x = true) :
    checkDev c s once (devAccess c s n k (ls.map (fun l => (l, f l)))) ok = .fault .absentMemory := by
  simp only [checkDev, devAccess_failures, failures_none (f := f) hgood]
  exact if_pos ((any_absent_iff c s).mpr hx)

theorem checkDev_here (ok : State → Out) (hgood : c.xlBad s n k f ls = [])
    (hx : ∀ l ∈ ls, ∀ x, Xl.at_ x ∈ access s (c.mapping s) (f l) n k → absent x = false) :
    checkDev c s once (devAccess c s n k (ls.map (fun l => (l, f l)))) ok = ok s := by
  simp only [checkDev, devAccess_failures, failures_none (f := f) hgood]
  refine if_neg (fun hany => ?_)
  obtain ⟨l, hl, x, hmem, habs⟩ := (any_absent_iff c s).mp hany
  exact Bool.false_ne_true ((hx l hl x hmem).symm.trans habs)

/-- How a turn of a host word fails (R185). -/
def Ctx.hostFails (c : Ctx) (s : State) (wr : Bool) (n : Nat) (f : Nat → BitVec 64) (l : Nat) : Option Nat :=
  hostBad (hostAccess (c.mapping s) wr (f l) n)

/-- The turns of a host word that do. -/
def Ctx.hostBadTurns (c : Ctx) (s : State) (wr : Bool) (n : Nat) (f : Nat → BitVec 64) (ls : List Nat) : List Nat :=
  ls.filter (fun l => (c.hostFails s wr n f l).isSome)

theorem checkHost_bad {wr : Bool} {e : Nat} (t : State) (hl : (c.hostBadTurns s wr n f ls).head? = some l)
    (he : c.hostFails s wr n f l = some e) :
    checkHost c s once ((ls.map (fun l => (l, f l))).map (fun p => (p.1, p.2, hostAccess (c.mapping s) wr p.2 n))) t =
      raise c s e aCALLER 0 (if once = true then 0 else maskOf (c.hostBadTurns s wr n f ls)) (f l) := by
  have hturns : (failures (c.hostFails s wr n f) f ls).map (fun b => b.1) = c.hostBadTurns s wr n f ls := failures_turns _ f ls
  obtain ⟨u, hu⟩ := failures_first (f := f) hl he
  have hbad : ((ls.map (fun l => (l, f l))).map (fun p => (p.1, p.2, hostAccess (c.mapping s) wr p.2 n))).filterMap
      (fun a => (hostBad a.2.2).map (fun e => (a.1, a.2.1, e))) = failures (c.hostFails s wr n f) f ls := by
    rw [List.map_map, List.filterMap_map]
    rfl
  simp only [checkHost, hbad, hu] at hturns ⊢
  rw [hturns]

end

/-! ### Words that make the checks -/

/-- The word acts in the turns `ls`, none of which means that it only moves on; each translates the address that `f` gives it, and the word goes
on by `ok` where all do. -/
def devChecked (c : Ctx) (s : State) (i : Instr) (once : Bool) (n : Nat) (k : Acc) (ls : List Nat) (f : Nat → BitVec 64)
    (ok : State → Out) : Prop :=
  exec i s = if ls.isEmpty then .next (c.done s id) else checkDev c s once (devAccess c s n k (ls.map (fun l => (l, f l)))) ok

section
variable {s : State} {c : Ctx} {i : Instr} {once : Bool} {n : Nat} {k : Acc} {ls : List Nat} {f : Nat → BitVec 64} {ok : State → Out}
  (hi : devChecked c s i once n k ls f ok)
include hi

/-- The lowest turn that does not translate decides the trap, which names all of them. -/
theorem traps_of_devChecked (hc : s.issuer = some c) (l : Nat) (e : Nat × Nat) (hl : (c.xlBad s n k f ls).head? = some l)
    (he : c.xlFails s n k f l = some e) :
    answers s i (fun u => c.trapped s u e.1 e.2 0 (if once = true then 0 else maskOf (c.xlBad s n k f ls)) (f l)) := by
  have hne : ls ≠ [] := List.ne_nil_of_mem (List.mem_of_mem_filter (List.mem_of_mem_head? hl))
  exact ⟨_, hi.trans ((if_neg (by simpa using hne)).trans (checkDev_bad c s once ok hl he)), raise_trapped hc _ _ _ _ _⟩

theorem absent_of_devChecked (hgood : c.xlBad s n k f ls = [])
    (hx : ∃ l ∈ ls, ∃ x, Xl.at_ x ∈ access s (c.mapping s) (f l) n k ∧ absent x = true) : exec i s = .fault .absentMemory := by
  have hne : ls ≠ [] := let ⟨_, hl, _⟩ := hx; List.ne_nil_of_mem hl
  exact hi.trans ((if_neg (by simpa using hne)).trans (checkDev_absent c s once ok hgood hx))

theorem goesOn_of_devChecked (hne : ls ≠ []) (hgood : c.xlBad s n k f ls = [])
    (hx : ∀ l ∈ ls, ∀ x, Xl.at_ x ∈ access s (c.mapping s) (f l) n k → absent x = false) : exec i s = ok s :=
  hi.trans ((if_neg (by simpa using hne)).trans (checkDev_here c s once ok hgood hx))

end

/-- The same of a host word, which checks the partition's windows (R185). -/
def hostChecked (c : Ctx) (s : State) (i : Instr) (once wr : Bool) (n : Nat) (ls : List Nat) (f : Nat → BitVec 64) (ok : State) : Prop :=
  exec i s = .next (if ls.isEmpty then c.done s id
    else checkHost c s once ((ls.map (fun l => (l, f l))).map (fun p => (p.1, p.2, hostAccess (c.mapping s) wr p.2 n))) ok)

theorem traps_of_hostChecked {s : State} {c : Ctx} {i : Instr} {once wr : Bool} {n : Nat} {ls : List Nat} {f : Nat → BitVec 64} {ok : State}
    (hi : hostChecked c s i once wr n ls f ok) (hc : s.issuer = some c) (l e : Nat) (hl : (c.hostBadTurns s wr n f ls).head? = some l)
    (he : c.hostFails s wr n f l = some e) :
    answers s i (fun u => c.trapped s u e aCALLER 0 (if once = true then 0 else maskOf (c.hostBadTurns s wr n f ls)) (f l)) := by
  have hne : ls ≠ [] := List.ne_nil_of_mem (List.mem_of_mem_filter (List.mem_of_mem_head? hl))
  exact ⟨_, hi.trans (congrArg _ ((if_neg (by simpa using hne)).trans (checkHost_bad c s once ok hl he))), raise_trapped hc _ _ _ _ _⟩

/-- The device address of a turn of a word of memory format (R172). -/
def Ctx.devMemAddr (c : Ctx) (m : Mem) (l : Nat) : BitVec 64 := devAddr c.w m.ak m.sa.toNat l + m.off.signExtend 64

/-- R190: an atomic goes on, once its turns have translated, with a check that their addresses are aligned. -/
def alignsFirst (c : Ctx) (r : Lane) (ok : State → Out) (s : State) : Out :=
  let at_ := (c.turns r).map (fun l => (l, devAddr c.w (r.form == .scal) r.sa.toNat l))
  let mis := at_.filter (fun p => p.2.toNat % r.ty.size != 0)
  if !mis.isEmpty then
    .next (raiseLanes c s cMISALIGN (if r.form == .scal then [] else mis.map (fun p => p.1)) ((mis.map (fun p => p.2)).headD 0))
  else ok s

/-- The turns of an atomic whose addresses are not aligned (R190). -/
def Ctx.atomicMis (c : Ctx) (r : Lane) : List Nat :=
  (c.turns r).filter (fun l => decide ((devAddr c.w (r.form == .scal) r.sa.toNat l).toNat % r.ty.size ≠ 0))

theorem alignsFirst_misaligned (c : Ctx) (s : State) (r : Lane) (ok : State → Out) {l : Nat} (hl : (c.atomicMis r).head? = some l) :
    alignsFirst c r ok s = .next (raiseTurns c s (r.form == .scal) cMISALIGN (c.atomicMis r) (devAddr c.w (r.form == .scal) r.sa.toNat l)) := by
  have hmis : ((c.turns r).map (fun l => (l, devAddr c.w (r.form == .scal) r.sa.toNat l))).filter (fun p => p.2.toNat % r.ty.size != 0) =
      (c.atomicMis r).map (fun l => (l, devAddr c.w (r.form == .scal) r.sa.toNat l)) := by
    simp only [List.filter_map, Ctx.atomicMis, Function.comp_def, bne, beq_eq_decide, ne_eq, decide_not]
  obtain ⟨t, ht⟩ := List.head?_eq_some_iff.mp hl
  simp only [alignsFirst, hmis, ht]
  cases r.form == .scal <;> simp [raiseLanes, raiseTurns, maskOf, Function.comp_def]

section
variable {s : State} {c : Ctx} (hc : s.issuer = some c)
include hc

theorem ldg_devChecked (home : Bool) (m : Mem) :
    ∃ ok, devChecked c s (.ldg home m) m.dk m.ty.size .load (turnsOf c m.h m.dk) (c.devMemAddr m) ok := ⟨_, issueOut_of hc _⟩

theorem stg_devChecked (m : Mem) : ∃ ok, devChecked c s (.stg m) m.dk m.ty.size .store (turnsOf c m.h m.dk) (c.devMemAddr m) ok :=
  ⟨_, issueOut_of hc _⟩

theorem exec_redg_staged (hd : c.det = true) (op : AtomOp) (r : Lane) : exec (.redg op r) s = stageRedg op r s := by
  show execRedg op r s = _
  rw [execRedg, hc]
  exact if_pos hd

theorem exec_redg_plain (hd : c.det = false) (op : AtomOp) (r : Lane) :
    exec (.redg op r) s = atomWord r s op.code.toNat false (fun c l => srcB c.w r r.ty l) (fun _ _ => 0) := by
  show execRedg op r s = _
  rw [execRedg, hc]
  exact if_neg (by simp [hd])

theorem atomic_devChecked (op : AtomOp) (r : Lane) {i : Instr} (hi : i = .atg op r ∨ i = .casg r ∨ i = .redg op r) :
    ∃ ok, devChecked c s i (r.form == .scal) r.ty.size .atomic (c.turns r) (devAddr c.w (r.form == .scal) r.sa.toNat) (alignsFirst c r ok) := by
  rcases hi with rfl | rfl | rfl
  · exact ⟨_, issueOut_of hc _⟩
  · exact ⟨_, issueOut_of hc _⟩
  · cases hd : c.det with
    | false => exact ⟨_, (exec_redg_plain hc hd op r).trans (issueOut_of hc _)⟩
    | true => exact ⟨_, (exec_redg_staged hc hd op r).trans (issueOut_of hc _)⟩

theorem ldh_hostChecked (m : Mem) :
    ∃ ok, hostChecked c s (.ldh m) m.dk false m.ty.size (turnsOf c m.h m.dk) (c.devMemAddr m) ok := ⟨_, issue_of hc _⟩

theorem sth_hostChecked (m : Mem) :
    ∃ ok, hostChecked c s (.sth m) m.dk true m.ty.size (turnsOf c m.h m.dk) (c.devMemAddr m) ok := ⟨_, issue_of hc _⟩

end

/-- Settles O14: the first part by the check of addresses that the scratchpad words make (`spbound_of_spChecked`, `misalign_of_spChecked`), the
second by that of translations (`traps_of_devChecked`, `absent_of_devChecked`), with the alignment of atomics behind it. -/
theorem memoryTraps : Obligations.MemoryTraps := by
  refine ⟨fun s c m r h keep once sa d q lg al hc => ?scratchpad, fun s c m r home op hc => ?device⟩
  case scratchpad =>
    intro turns ad out mis takes size far ml ma rs rl ra hl ha ql qa
    refine ⟨spbound_of_spChecked (lds_spChecked hc m) hc, spbound_of_spChecked (sts_spChecked hc m) hc,
      spbound_of_spChecked (dlds_spChecked hc m) hc, spbound_of_spChecked (dsts_spChecked hc m) hc,
      fun op => ⟨spbound_of_spChecked (ats_spChecked hc op r) hc, misalign_of_spChecked (ats_spChecked hc op r) hc⟩,
      spbound_of_spChecked (cass_spChecked hc r) hc, misalign_of_spChecked (cass_spChecked hc r) hc, fun i hi => ?lines,
      spbound_of_spChecked (qinit_spChecked hc h q sa lg al) hc, misalign_of_spChecked (qinit_spChecked hc h q sa lg al) hc⟩
    case lines =>
      rcases hi with rfl | rfl | rfl
      · exact ⟨spbound_of_spChecked (feset_spChecked hc h keep once sa) hc, misalign_of_spChecked (feset_spChecked hc h keep once sa) hc⟩
      · exact ⟨spbound_of_spChecked (feclr_spChecked hc h keep once sa) hc, misalign_of_spChecked (feclr_spChecked hc h keep once sa) hc⟩
      · exact ⟨spbound_of_spChecked (feqry_spChecked hc h keep once sa d) hc, misalign_of_spChecked (feqry_spChecked hc h keep once sa d) hc⟩
  case device =>
    intro ml ma once rl ra fails bad takes hostFails hostTakes mis gone here
    obtain ⟨_, hldg⟩ := ldg_devChecked hc home m
    obtain ⟨_, hstg⟩ := stg_devChecked hc m
    obtain ⟨_, hldh⟩ := ldh_hostChecked hc m
    obtain ⟨_, hsth⟩ := sth_hostChecked hc m
    have hatomic : ∀ i, i = .atg op r ∨ i = .casg r ∨ i = .redg op r → takes i once rl r.ty .atomic ra := fun i hi =>
      let ⟨_, ha⟩ := atomic_devChecked hc op r hi
      traps_of_devChecked ha hc
    refine ⟨traps_of_devChecked hldg hc, traps_of_devChecked hstg hc, hatomic _ (.inl rfl), hatomic _ (.inr (.inl rfl)), hatomic _ (.inr (.inr rfl)),
      traps_of_hostChecked hldh hc, traps_of_hostChecked hsth hc, fun hhere l hl i hi => ?misaligned,
      fun hgone => absent_of_devChecked hldg hgone.1 hgone.2, fun hgone => absent_of_devChecked hstg hgone.1 hgone.2, fun hgone => ?atg⟩
    case misaligned =>
      obtain ⟨ok, ha⟩ := atomic_devChecked hc op r hi
      have hne : rl ≠ [] := List.ne_nil_of_mem (List.mem_of_mem_filter (List.mem_of_mem_head? hl))
      exact ⟨_, (goesOn_of_devChecked ha hne hhere.1 hhere.2).trans (alignsFirst_misaligned c s r ok hl), raise_trapped hc _ _ _ _ _⟩
    case atg =>
      obtain ⟨_, ha⟩ := atomic_devChecked hc op r (.inl rfl)
      exact absent_of_devChecked ha hgone.1 hgone.2

end Sys2Proof.Machine
end

section
/-! PROOF. The parts of an atomic (R155, R162): the statement on its perform, against a word whose parts left are none of its own. -/

namespace Sys2Proof.Machine

def strayId : WaveId := ⟨1, 0, 0⟩

/-- An `ATS.ADD.N32` of lanes 0 and 2, which both add 1 to the word at 0: one run of lanes, which starts at lane 0. What the banks have left to
perform is said to be a run that starts at lane 1. The banks leave no such word, but no hypothesis of the statement says that the parts left are
parts of the word. -/
def strayOp : SpOp :=
  { seq := 0, tag := 0, pc := 0, start := 0, since := 0, limit := 0, eff := 5, kind := .ats .add .n32 false 1 [(0, 0, 1), (2, 0, 1)], left := some [1] }

def strayWave : Wave := { loadWave 0 with spq := [strayOp] }

/-- The word stands at the head of its wave's queue, and the scratchpad of its block is all zeros. -/
def strayState : State :=
  { State.reset with
    launches := [(1, { offer := loadOffer 1, st := .running })]
    blocks := [(bkey 1 0, loadBlock)]
    waves := [(wkey strayId, strayWave)] }

/-- The scratchpad of the block after an instruction. -/
def scratchAfter : Out → Option (Tab Byte)
  | .next t => (t.block 1 0).map (fun b => b.scratch)
  | _ => none

/-- The banks serve no lane: the only run of the word is that of lane 0. -/
theorem scratchAfter_stray : scratchAfter (exec (.scratchpadAccessPerform strayId) strayState) = some [] := by decide

/-- Refutes O15, in its clause on the parts of `ATS`: lane 2 would have its turn in the run that starts at lane 1, as the statement counts lanes
from the part performed on, and would add 1 to the word at 0, where the machine, which counts by the runs of the word, leaves the word as it was. -/
theorem not_scratchpadPerformsAndWaits : ¬ Obligations.ScratchpadPerformsAndWaits := by
  rintro ⟨h, -⟩
  obtain ⟨-, -, hats, -⟩ := h strayState strayId strayWave loadBlock strayOp { offer := loadOffer 1, st := .running } rfl rfl
  obtain ⟨-, hpart⟩ := hats .add .n32 false 1 _ rfl (by decide) (by decide)
  obtain ⟨t, he, p, w, b', l', op', -, -, -, hb', -, -, -, ⟨hp, -, -, m, hm0, hmlast, hserved⟩, -⟩ := hpart (by decide)
  have hscratch : b'.scratch = [] := by
    have hafter := scratchAfter_stray
    rw [he] at hafter
    simpa [scratchAfter, show t.block 1 0 = some b' from hb'] using hafter
  obtain rfl : 1 = p := Option.some.inj hp
  obtain ⟨-, hadd⟩ := hserved 0 (2, 0) (by decide)
  have hlast : m 1 = b'.scratch := hmlast
  rw [hm0] at hadd
  exact absurd (hadd.symm.trans (hlast.trans hscratch)) (by decide)

end Sys2Proof.Machine
end

section
/-! PROOF. A stable load under the determinism flag that meets a unit in error (R56, R176, R188): the statement's frame against the reuse latch,
which the trap empties. -/

namespace Sys2Proof.Machine

def latchId : WaveId := ⟨1, 0, 0⟩

/-- A launch under the determinism flag. -/
def latchOffer : Offer := { loadOffer 1 with kernel := { loadKernel with det := true } }

/-- The path at the cursor is that of a wave on slot 0 of core 0, whose reuse latch holds a register, and the first unit of device memory holds
an uncorrectable error. -/
def latchState : State :=
  { State.reset with
    parts := [(0, { map := { ranges := [(0, loadRange)] } })]
    launches := [(1, { offer := latchOffer, st := .running })]
    blocks := [(bkey 1 0, loadBlock)]
    waves := [(wkey latchId, loadWave 0)]
    latches := [(0, [{ wave := 0, pos := 0, reg := 9, scal := true, vals := [0] }])]
    bad := [0]
    cur := (latchId, false) }

def latchCtx : Ctx :=
  { id := latchId, slotB := false, w := loadWave 0, sl := { path := { pc := 0, mask := allLanes 16, join := none, parked := false } }, b := loadBlock,
    l := { offer := latchOffer, st := .running } }

/-- `LDG` of the word at device address 0, once for its wave. -/
def latchLoad : Mem := { ty := .n32, dk := true, ak := true, h := { pn := false, pm := 0, la := 0 }, dst := 1, sa := 2, off := 0 }

/-- The reuse latches after an instruction. -/
def latchesAfter : Out → Option (Tab (List Latch))
  | .next t => some t.latches
  | _ => none

/-- The trap of the word empties the latch of its slot. -/
theorem latches_latchLoad : latchesAfter (exec (.ldg false latchLoad) latchState) = some [] := by decide

/-- Refutes O16, in its frame: a load under the determinism flag that meets a unit in error traps (R176), which empties the latch of its slot
(R56), where the statement has all but waves, launches, partitions and views stay as it is, whatever the load meets. -/
theorem not_deviceLoads : ¬ Obligations.DeviceLoads := by
  intro h
  obtain ⟨-, hload⟩ := h latchState latchCtx latchLoad false (fun _ => List.range 4) rfl
  obtain ⟨t, ht, -, -, -, hrest, -⟩ := hload (by decide) (by decide) (by decide)
  have hlatches := latches_latchLoad
  rw [ht] at hlatches
  have hkept := congrArg State.latches hrest
  exact absurd (hkept.symm.trans (Option.some.inj hlatches)) (by decide)

end Sys2Proof.Machine
end

section
/-! PROOF. Device and host words that pass their checks (R180, R185, R188, R190, R313): what is counted and recorded as they go on, and the requests
that join their wave. -/

namespace Sys2Proof.Machine

/-! ### Counts and touches (R183, R239, R313) -/

theorem countDev_eq (s : State) (n : Nat) (ty : Ty) (accs : List LaneAcc) : ∃ ls, countDev s n ty accs = { s with launches := ls } :=
  List.foldlRecOn (motive := fun t : State => ∃ ls, t = { s with launches := ls }) _ _ ⟨s.launches, rfl⟩
    (by rintro _ ⟨ls, rfl⟩ a -; exact ⟨_, rfl⟩)

theorem countAccess_eq (s : State) (p : Nat) (locs : List Nat) : ∃ ps, countAccess s p locs = { s with parts := ps } := by
  unfold countAccess
  split_ifs
  · exact List.foldlRecOn (motive := fun t : State => ∃ ps, t = { s with parts := ps }) _ _ ⟨s.parts, rfl⟩
      (by rintro _ ⟨ps, rfl⟩ a -; exact ⟨_, rfl⟩)
  · exact ⟨s.parts, rfl⟩

theorem countHot_eq (s : State) (p : Nat) (accs : List LaneAcc) : ∃ ps, countHot s p accs = { s with parts := ps } := by
  refine List.foldlRecOn (motive := fun t : State => ∃ ps, t = { s with parts := ps }) _ _ ⟨s.parts, rfl⟩ ?_
  rintro _ ⟨ps, rfl⟩ a -
  obtain ⟨qs, hqs⟩ := countAccess_eq { s with parts := ps } p (locsOf a.2.2)
  exact ⟨qs, hqs⟩

theorem addTouches_eq (s : State) (n block kind pc : Nat) (locs : List Nat) : ∃ ls, addTouches s n block kind pc locs = { s with launches := ls } := by
  unfold addTouches
  split
  · exact ⟨_, rfl⟩
  · exact ⟨s.launches, rfl⟩

/-- What a word counts of its accesses stands with its launch and its partition. -/
theorem counts_eq (s : State) (n p : Nat) (ty : Ty) (accs : List LaneAcc) :
    ∃ ls ps, countHot (countDev s n ty accs) p accs = { s with launches := ls, parts := ps } := by
  obtain ⟨ls, hls⟩ := countDev_eq s n ty accs
  obtain ⟨ps, hps⟩ := countHot_eq { s with launches := ls } p accs
  exact ⟨ls, ps, by rw [hls, hps]⟩

/-- Where none of a word's bytes conflicts it goes on, its touches recorded with its launch. -/
theorem detTouch_goesOn {c : Ctx} {kind : Nat} {at_ : List (Nat × List (Nat × BitVec 64))}
    (hq : c.det = true → ∀ p ∈ at_, findConflict c.l c.b c.id.block kind (p.2.map (fun x => x.1)) = none) (s : State) (once : Bool)
    (ok : State → State) :
    ∃ ls, detTouch c s once kind at_ ok = ok { s with launches := ls } := by
  cases hd : c.det with
  | false => exact ⟨s.launches, by simp [detTouch, hd]⟩
  | true =>
    have hnone : at_.findSome? (fun p =>
        (findConflict c.l c.b c.id.block kind (p.2.map (fun x => x.1))).map (fun f => (p.1, ((tfind p.2 f.1).getD 0), f.2))) = none :=
      List.findSome?_eq_none_iff.mpr fun p hp => by rw [hq hd p hp]; rfl
    obtain ⟨ls, hls⟩ := addTouches_eq s c.id.serial c.id.block kind c.sl.path.pc.toNat (at_.flatMap (fun p => p.2.map (fun x => x.1)))
    exact ⟨ls, by rw [detTouch, hd, hnone, ← hls]; rfl⟩

/-! ### Lanes that translate (R180) -/

theorem locsOf_at (locs : List Nat) : locsOf (locs.map Xl.at_) = locs := by
  simp [locsOf, List.filterMap_map]

theorem touched_at (locs : List Nat) : touched (locs.map Xl.at_) = locs := by
  simp [touched, List.filterMap_map]

theorem firstBad_at (locs : List Nat) : firstBad (locs.map Xl.at_) = none := by
  simp [firstBad]

/-- The lanes of a word with what each translates to. -/
def lanesTo (ls : List Nat) (f : Nat → BitVec 64) (xl : Nat → List Xl) : List LaneAcc := ls.map (fun l => (l, f l, xl l))

section
variable {c : Ctx} {s : State} {n : Nat} {k : Acc} {ls : List Nat} {f : Nat → BitVec 64} {xl : Nat → List Xl}
  (h : ∀ l ∈ ls, access s (c.mapping s) (f l) n k = xl l)
include h

theorem devAccess_eq : devAccess c s n k (ls.map (fun l => (l, f l))) = lanesTo ls f xl := by
  rw [devAccess, List.map_map]
  exact List.map_congr_left fun l hl => by rw [Function.comp_apply, h l hl]

/-- A word all of whose lanes translate to bytes that exist goes on with them. -/
theorem goesOn_of_lanesTo {i : Instr} {once : Bool} {ok : List LaneAcc → State → Out}
    (hi : devChecked c s i once n k ls f (ok (devAccess c s n k (ls.map (fun l => (l, f l)))))) (hne : ls ≠ []) (hgood : ∀ l ∈ ls, firstBad (xl l) = none)
    (hx : ∀ l ∈ ls, ∀ x, Xl.at_ x ∈ xl l → absent x = false) : exec i s = ok (lanesTo ls f xl) s := by
  rw [← devAccess_eq h]
  refine goesOn_of_devChecked hi hne ?_ fun l hl => ?_
  · refine List.filter_eq_nil_iff.mpr fun l hl => ?_
    rw [Ctx.xlFails, h l hl, hgood l hl]
    simp
  · rw [h l hl]
    exact hx l hl

end

theorem mem_at {locs : List Nat} {x : Nat} : Xl.at_ x ∈ locs.map Xl.at_ ↔ x ∈ locs := by simp

/-- The names that a lane's locations are given in a record of a conflict (R314). -/
theorem accTouches_locs (a : LaneAcc) : (accTouches a).2.map (fun x => x.1) = touched a.2.2 := by
  simp [accTouches, List.map_map, Function.comp_def]

/-- A word none of whose lanes conflicts with an earlier touch goes on as `ok` says; what it has recorded and counted stands with its launch and its
partition. -/
theorem touchesCounted {c : Ctx} {kind : Nat} {ls : List Nat} {xl : Nat → List Xl}
    (hq : c.det = true → ∀ l ∈ ls, findConflict c.l c.b c.id.block kind (touched (xl l)) = none) (s : State) (once : Bool)
    (f : Nat → BitVec 64) (ty : Ty)
    (ok : State → State) :
    ∃ ks ps, detTouch c s once kind ((lanesTo ls f xl).map accTouches)
      (fun s => ok (countHot (countDev s c.id.serial ty (lanesTo ls f xl)) c.l.offer.part (lanesTo ls f xl))) =
        ok { s with launches := ks, parts := ps } := by
  obtain ⟨ks, hks⟩ := detTouch_goesOn (c := c) (kind := kind) (at_ := (lanesTo ls f xl).map accTouches) (fun hd p hp => by
    obtain ⟨a, ha, rfl⟩ := List.mem_map.mp hp
    obtain ⟨l, hl, rfl⟩ := List.mem_map.mp ha
    rw [accTouches_locs]
    exact hq hd l hl) s once (fun s => ok (countHot (countDev s c.id.serial ty (lanesTo ls f xl)) c.l.offer.part (lanesTo ls f xl)))
  obtain ⟨ks', ps, hps⟩ := counts_eq { s with launches := ks } c.id.serial c.l.offer.part ty (lanesTo ls f xl)
  exact ⟨ks', ps, hks.trans (congrArg ok hps)⟩

/-! ### Requests (R188) -/

/-- A word whose requests join its wave's; the first of them carries the tag of its result. -/
theorem request_spec {s : State} {c : Ctx} (hw : s.wave c.id = some c.w) (pk : PendKind) (dst : List Reg) (rs : List Req)
    (htag : dst ≠ [] → (rs.head?.map (fun r => r.tag)).getD 0 = s.tick) :
    ∃ w, c.request s pk dst rs = s.setWave c.id w ∧ c.requested w dst rs := by
  refine ⟨_, modWave_of hw _, ?_⟩
  unfold Ctx.requested
  by_cases hd : dst = []
  · subst hd
    cases c.slotB <;> exact ⟨rfl, ⟨pk, (List.append_nil _).symm⟩, rfl⟩
  · simp only [htag hd, if_neg hd, List.isEmpty_eq_false_iff.mpr hd]
    cases c.slotB <;> exact ⟨rfl, ⟨pk, rfl⟩, rfl⟩

end Sys2Proof.Machine
end

section
/-! PROOF. Stores (R188, R195, R197, R312): the store set that a word's bytes enter, at once under the determinism flag. -/

namespace Sys2Proof.Machine

/-! ### A run of writes to a table -/

section
variable {α ι : Type} (key : ι → Nat) (val : ι → α)

theorem tfind_foldl_tput_other {xs : List ι} (t : Tab α) {a : Nat} (h : ∀ x ∈ xs, key x ≠ a) :
    tfind (xs.foldl (fun t x => tput t (key x) (val x)) t) a = tfind t a :=
  List.foldlRecOn (motive := fun u => tfind u a = tfind t a) _ _ rfl (fun _ hu x hx => (tfind_tput_other _ _ (Ne.symm (h x hx))).trans hu)

/-- The last write of a key stands. -/
theorem tfind_foldl_tput_last {xs : List ι} (t : Tab α) {i : Nat} {x : ι} (hx : xs[i]? = some x)
    (hlast : ∀ (j : Nat) (y : ι), i < j → xs[j]? = some y → key y ≠ key x) :
    tfind (xs.foldl (fun t x => tput t (key x) (val x)) t) (key x) = some (val x) := by
  have hsplit : xs = xs.take i ++ x :: xs.drop (i + 1) := by
    obtain ⟨hi, rfl⟩ := List.getElem?_eq_some_iff.mp hx
    simp
  have hlater : ∀ y ∈ xs.drop (i + 1), key y ≠ key x := by
    intro y hy
    obtain ⟨j, hj⟩ := List.mem_iff_getElem?.mp hy
    exact hlast (i + 1 + j) y (by omega) (by rwa [List.getElem?_drop] at hj)
  rw [hsplit, List.foldl_append, List.foldl_cons, tfind_foldl_tput_other key val _ hlater, tfind_tput_same]
end

/-! ### The word (R188) -/

/-- The bytes of a store whose lanes have translated as `accs`: location, value, device address. -/
def Ctx.bytesOf (c : Ctx) (m : Mem) (accs : List LaneAcc) : List (Nat × Byte × BitVec 64) :=
  accs.flatMap (fun a => (accTouches a).2.zipIdx.map (fun p => (p.1.1, (storeBytes c m.ty m.dk m.dst.toNat a.1).getD p.2 0, p.1.2)))

/-- The request of a store (R188). -/
def Ctx.storeReq (c : Ctx) (s : State) (bytes : List (Nat × Byte × BitVec 64)) : Req :=
  { seq := s.tick, tag := s.tick, lane := 0, pc := c.sl.path.pc, addr := 0, after := c.w.barrier, kind := .stg bytes }

/-- The bytes of a store enter the set of its block under the determinism flag (R312), and else leave for that of its core (R188). -/
def Ctx.stores (c : Ctx) (bytes : List (Nat × Byte × BitVec 64)) (s : State) : State :=
  if c.det then c.done { s with sets := tput s.sets c.key (StoreSet.enter (tget {} s.sets c.key) c.id.block bytes) } (fun w => w)
  else c.request s .dev [] [c.storeReq s bytes]

theorem exec_stg {s : State} {c : Ctx} (hc : s.issuer = some c) (m : Mem) :
    let accs := devAccess c s m.ty.size .store ((turnsOf c m.h m.dk).map (fun l => (l, c.devMemAddr m l)))
    devChecked c s (.stg m) m.dk m.ty.size .store (turnsOf c m.h m.dk) (c.devMemAddr m) (fun s => .next (detTouch c s m.dk 1 (accs.map accTouches)
      (fun s => c.stores (c.bytesOf m accs) (countHot (countDev s c.id.serial m.ty accs) c.l.offer.part accs)))) :=
  issueOut_of hc _

theorem bytesOf_lanesTo (c : Ctx) (m : Mem) (ls : List Nat) (f : Nat → BitVec 64) (lo : Nat → List Nat) :
    c.bytesOf m (lanesTo ls f (fun l => (lo l).map Xl.at_)) = ls.flatMap (fun l => (lo l).zipIdx.map (fun p =>
      (p.1, (storeBytes c m.ty m.dk m.dst.toNat l).getD p.2 0, f l + BitVec.ofNat 64 p.2))) := by
  rw [lanesTo, Ctx.bytesOf, List.flatMap_map]
  congr 1
  funext l
  rw [accTouches, touched_at]
  exact List.ext_getElem (by simp) fun i h1 h2 => by simp

/-- Stores of a block enter a set: its other bytes stand, and of two stores to a byte the later one does. -/
theorem enter_spec (x : StoreSet) (block : Nat) (bs : List (Nat × Byte × BitVec 64)) :
    (x.enter block bs).redgs = x.redgs ∧ (∀ b, b ∈ (x.enter block bs).blocks ↔ b = block ∨ b ∈ x.blocks) ∧
      (∀ a, (∀ b ∈ bs, b.1 ≠ a) → tfind (x.enter block bs).bytes a = tfind x.bytes a) ∧
      ∀ (i : Nat) (b : Nat × Byte × BitVec 64), bs[i]? = some b →
        (∀ (j : Nat) (d : Nat × Byte × BitVec 64), i < j → bs[j]? = some d → d.1 ≠ b.1) →
        tfind (x.enter block bs).bytes b.1 = some { val := b.2.1, dva := b.2.2 } := by
  let key (b : Nat × Byte × BitVec 64) : Nat := b.1
  let val (b : Nat × Byte × BitVec 64) : SByte := { val := b.2.1, dva := b.2.2 }
  exact ⟨rfl, fun _ => mem_insertNat, fun _ h => tfind_foldl_tput_other key val _ h,
    fun _ _ hb hlast => tfind_foldl_tput_last key val _ hb hlast⟩

/-- Settles O17: the store passes its check (`goesOn_of_lanesTo`) and its touches conflict with none (`touchesCounted`); its bytes then enter the
set of its block (`enter_spec`), or leave as one request (`request_spec`). -/
theorem deviceStores : Obligations.DeviceStores := by
  intro s c m lo hc ls da data bytes
  obtain ⟨hw, -⟩ := issuer_spec hc
  refine ⟨fun h0 => passes_of hc ((exec_stg hc m).trans (if_pos (List.isEmpty_iff.mpr h0))), fun hne hlo hquiet => ?_⟩
  let xl (l : Nat) : List Xl := (lo l).map Xl.at_
  have hexec := goesOn_of_lanesTo (xl := xl) (ok := fun accs s => .next (detTouch c s m.dk 1 (accs.map accTouches)
    (fun s => c.stores (c.bytesOf m accs) (countHot (countDev s c.id.serial m.ty accs) c.l.offer.part accs))))
    (fun l hl => (hlo l hl).1) (exec_stg hc m) hne (fun l _ => firstBad_at _) (fun l hl x hx => (hlo l hl).2 x (mem_at.mp hx))
  obtain ⟨ks, ps, hcounted⟩ := touchesCounted (c := c) (xl := xl) (ls := ls) (kind := 1) (fun hd l hl => by rw [touched_at]; exact hquiet hd l hl)
    s m.dk da m.ty (c.stores (c.bytesOf m (lanesTo ls da xl)))
  have hbytes : c.bytesOf m (lanesTo ls da xl) = bytes := bytesOf_lanesTo c m ls da lo
  rw [hbytes] at hcounted
  let u : State := { s with launches := ks, parts := ps }
  have hexec : exec (.stg m) s = .next (c.stores bytes u) := hexec.trans (congrArg _ (by rw [hbytes]; exact hcounted))
  cases hd : c.det with
  | true =>
    let v : State := { u with sets := tput u.sets c.key (StoreSet.enter (tget {} u.sets c.key) c.id.block bytes) }
    have hstores : c.stores bytes u = v.setWave c.id (c.w.advance c.slotB) := (if_pos hd).trans (modWave_of (s := v) hw _)
    refine ⟨_, hexec.trans (congrArg _ hstores), _, wave_setWave v _ _, otherWaves_put s _ _ _ rfl, rfl, nofun,
      fun _ => ⟨rfl, fun k hk => tfind_tput_other _ _ hk, _, tfind_tput_same _ _ _, enter_spec _ _ _⟩⟩
  | false =>
    obtain ⟨w, hstores, hreq⟩ := request_spec (s := u) hw .dev [] [c.storeReq s bytes] (fun h => absurd rfl h)
    have hstores : c.stores bytes u = u.setWave c.id w := (if_neg (Bool.eq_false_iff.mp hd)).trans hstores
    exact ⟨_, hexec.trans (congrArg _ hstores), w, wave_setWave u _ _, otherWaves_put s _ _ _ rfl, rfl, fun _ => ⟨rfl, hreq⟩, nofun⟩

end Sys2Proof.Machine
end

section
/-! PROOF. Global atomics (R190 to R193, R202, R312): requests to home, an AREQ to another device or requests that wait to leave in one, and the
staged `REDG` of the determinism flag. -/

namespace Sys2Proof.Machine

/-! ### The fabric (R193, R382) -/

/-- The ports after a flit hang on the ports before it and on the routes alone. -/
theorem sendFlit_ports {s t : State} (hports : t.ports = s.ports) (hroutes : t.routes = s.routes) (dev kind vc : Nat) (payload : List Byte) :
    (sendFlit t dev kind vc payload).ports = (sendFlit s dev kind vc payload).ports := by
  cases s
  cases t
  cases hports
  cases hroutes
  rfl

/-- An atomic request that has left for another device, number `slot` of its flit (R193). -/
def farReq (pc : BitVec 32) (tag : Nat) (ty : Ty) (scal : Bool) (dst : Option Nat) (x : FarLane × Nat) : Req :=
  { seq := 0, tag := 0, lane := x.1.1, pc := pc, addr := x.1.2.1, kind := .remote x.1.2.2.1 tag x.2 ty scal dst }

theorem foldl_insertNat_same {ι : Type} (f : ι → Nat) {xs : List ι} {d : Nat} (hne : xs ≠ []) (h : ∀ x ∈ xs, f x = d) :
    xs.foldl (fun ds x => insertNat (f x) ds) [] = [d] := by
  have hrest (ys : List ι) (h : ∀ y ∈ ys, f y = d) : ys.foldl (fun ds x => insertNat (f x) ds) [d] = [d] :=
    List.foldlRecOn (motive := fun ds => ds = [d]) _ _ rfl (by rintro _ rfl y hy; simp [insertNat, h y hy])
  obtain ⟨x, xs, rfl⟩ := List.exists_cons_of_ne_nil hne
  rw [List.foldl_cons, h x List.mem_cons_self]
  exact hrest xs fun y hy => h y (List.mem_cons_of_mem x hy)

/-- Up to eight remote lanes of one device leave in one flit, under one tag. -/
theorem sendAtomics_single (s : State) (pc : BitVec 32) (opc : Nat) (ty : Ty) (scal : Bool) (dst : Option Nat) {rs : List FarLane} {dev : Nat}
    (hne : rs ≠ []) (hlen : rs.length ≤ 8) (hdev : ∀ r ∈ rs, r.2.2.1 = dev) :
    sendAtomics s pc opc ty scal dst rs =
      (sendFlit { s with flitTags := s.flitTags + 1 } dev 1 0 (areqPayload s.flitTags opc ty.code.toNat dst.isSome
        (rs.map (fun r => (r.2.2.2.1, r.2.2.2.2.1, r.2.2.2.2.2)))), rs.zipIdx.map (farReq pc s.flitTags ty scal dst)) := by
  have hmine : rs.filter (fun r => r.2.2.1 == dev) = rs := List.filter_eq_self.mpr fun r hr => by simpa using hdev r hr
  have hchunk : chunks8 64 rs = [rs] := by simp [chunks8, hne, List.take_of_length_le hlen, List.drop_eq_nil_of_le hlen]
  have hreqs : rs.zipIdx.map (farReq pc s.flitTags ty scal dst) = rs.zipIdx.map (fun p =>
      { seq := 0, tag := 0, lane := p.1.1, pc := pc, addr := p.1.2.1, kind := .remote dev s.flitTags p.2 ty scal dst }) :=
    List.map_congr_left fun p hp => by rw [farReq, hdev p.1 (List.fst_mem_of_mem_zipIdx hp)]
  rw [hreqs]
  simp only [sendAtomics, foldl_insertNat_same _ hne hdev, List.foldl_cons, List.foldl_nil, hmine, hchunk, List.nil_append]

/-! ### The words -/

/-- The device address of a turn of an atomic (R172). -/
def Ctx.atomAddr (c : Ctx) (r : Lane) : Nat → BitVec 64 := devAddr c.w (r.form == .scal) r.sa.toNat

/-- The remote lanes of an atomic that has translated as `accs`. -/
def farOf (b cc : Nat → Nat) (accs : List LaneAcc) : List FarLane :=
  accs.filterMap (fun a => match a.2.2 with
    | .remote d x :: _ => some (a.1, a.2.1, d, x, b a.1, cc a.1)
    | _ => none)

/-- They leave, or wait where the wave has a request to home under way that they must follow (R202). -/
def Ctx.sends (c : Ctx) (r : Lane) (opc : Nat) (dst : Option Nat) (far : List FarLane) (s : State) : State × List Req :=
  if c.w.farWaits then (s, far.map (fun a =>
    { seq := 0, tag := 0, lane := a.1, pc := c.sl.path.pc, addr := a.2.1, kind := .far a.2.2.1 a.2.2.2.1 opc r.ty (r.form == .scal) dst a.2.2.2.2.1 a.2.2.2.2.2 }))
  else sendAtomics s c.sl.path.pc opc r.ty (r.form == .scal) dst far

/-- The lanes of this device ask home. -/
def Ctx.nearReqs (c : Ctx) (s : State) (r : Lane) (opc : Nat) (dst : Option Nat) (b cc : Nat → Nat) (accs : List LaneAcc) : List Req :=
  (accs.filter (fun a => (locsOf a.2.2).length == r.ty.size)).map (fun a =>
    mkReq c s a (.atom opc (locsOf a.2.2) r.ty (r.form == .scal) dst (b a.1) (cc a.1)))

/-- A request of the word at the cursor. -/
def Ctx.ofWord (c : Ctx) (s : State) (q : Req) : Req := { q with seq := s.tick, tag := s.tick, after := c.w.barrier }

/-- An atomic whose lanes have translated as `accs`, its accesses counted and its block relaunchable no more, asks for them. -/
def Ctx.asksFor (c : Ctx) (r : Lane) (opc : Nat) (ret : Bool) (b cc : Nat → Nat) (accs : List LaneAcc) (s : State) : State :=
  let dst := if ret then some r.dst.toNat else none
  let out := c.sends r opc dst (farOf b cc accs) s
  c.request out.1 .dev (if ret then dstRegs r.ty (r.form == .scal) r.dst.toNat else [])
    (c.nearReqs s r opc dst b cc accs ++ out.2.map (c.ofWord s))

/-- The word is an atomic: its turns translate, then their addresses are checked, and it asks for them. -/
def Ctx.atomic (c : Ctx) (s : State) (i : Instr) (r : Lane) (opc : Nat) (ret : Bool) (b cc : Nat → Nat) : Prop :=
  let accs := devAccess c s r.ty.size .atomic ((c.turns r).map (fun l => (l, c.atomAddr r l)))
  devChecked c s i (r.form == .scal) r.ty.size .atomic (c.turns r) (c.atomAddr r) (alignsFirst c r (fun s => .next (c.asksFor r opc ret b cc accs
    (endRelaunch (countHot (countDev s c.id.serial r.ty accs) c.l.offer.part accs) c.id.serial c.id.block))))

section
variable {s : State} {c : Ctx} (hc : s.issuer = some c)
include hc

theorem exec_atg (op : AtomOp) (r : Lane) : c.atomic s (.atg op r) r op.code.toNat true (srcB c.w r r.ty) (fun _ => 0) := issueOut_of hc _

theorem exec_casg (r : Lane) : c.atomic s (.casg r) r 7 true (srcC c.w r r.ty) (srcB c.w r r.ty) := issueOut_of hc _

theorem exec_redg (hd : c.det = false) (op : AtomOp) (r : Lane) :
    c.atomic s (.redg op r) r op.code.toNat false (srcB c.w r r.ty) (fun _ => 0) := (exec_redg_plain hc hd op r).trans (issueOut_of hc _)

end

theorem alignsFirst_aligned {c : Ctx} {r : Lane} (h : ∀ l ∈ c.turns r, (c.atomAddr r l).toNat % r.ty.size = 0) (ok : State → Out) (s : State) :
    alignsFirst c r ok s = ok s := by
  have hmis : ((c.turns r).map (fun l => (l, devAddr c.w (r.form == .scal) r.sa.toNat l))).filter (fun p => p.2.toNat % r.ty.size != 0) = [] := by
    refine List.filter_eq_nil_iff.mpr fun p hp => ?_
    obtain ⟨l, hl, rfl⟩ := List.mem_map.mp hp
    have hl := h l hl
    rw [Ctx.atomAddr] at hl
    simp [hl]
  simp [alignsFirst, hmis]

/-! ### Lanes of this device, and of another -/

/-- The bytes of a lane of a remote range (R193). -/
def farXl (dev n : Nat) (x : Nat → Nat) (l : Nat) : List Xl := (List.range n).map (fun i => Xl.remote dev (x l + i))

theorem firstBad_far (dev n : Nat) (x : Nat → Nat) (l : Nat) : firstBad (farXl dev n x l) = none := by simp [firstBad, farXl]

theorem locsOf_far (dev n : Nat) (x : Nat → Nat) (l : Nat) : locsOf (farXl dev n x l) = [] := by simp [locsOf, farXl]

theorem touched_far (dev n : Nat) (x : Nat → Nat) (l : Nat) : touched (farXl dev n x l) = (List.range n).map (fun i => farKey dev (x l + i)) := by
  simp [touched, farXl, List.filterMap_map]

theorem farXl_head {n : Nat} (hn : n ≠ 0) (dev : Nat) (x : Nat → Nat) (l : Nat) : ∃ t, farXl dev n x l = .remote dev (x l) :: t := by
  obtain ⟨k, rfl⟩ := Nat.exists_eq_succ_of_ne_zero hn
  exact ⟨_, by rw [farXl, List.range_succ_eq_map]; rfl⟩

section
variable (b cc : Nat → Nat) (ls : List Nat) (f : Nat → BitVec 64)

theorem farOf_here (lo : Nat → List Nat) : farOf b cc (lanesTo ls f (fun l => (lo l).map Xl.at_)) = [] := by
  refine List.filterMap_eq_nil_iff.mpr fun a ha => ?_
  obtain ⟨l, -, rfl⟩ := List.mem_map.mp ha
  cases h : lo l <;> simp [h]

theorem farOf_far {n : Nat} (hn : n ≠ 0) (dev : Nat) (x : Nat → Nat) :
    farOf b cc (lanesTo ls f (farXl dev n x)) = ls.map (fun l => (l, f l, dev, x l, b l, cc l)) := by
  rw [farOf, lanesTo, List.filterMap_map, ← List.filterMap_eq_map]
  refine List.filterMap_congr fun l _ => ?_
  obtain ⟨t, ht⟩ := farXl_head hn dev x l
  simp [ht]

variable (c : Ctx) (s : State) (r : Lane) (opc : Nat) (dst : Option Nat)

theorem nearReqs_here {lo : Nat → List Nat} (hlen : ∀ l ∈ ls, (lo l).length = r.ty.size) :
    c.nearReqs s r opc dst b cc (lanesTo ls f (fun l => (lo l).map Xl.at_)) =
      ls.map (fun l => mkReq c s (l, f l, []) (.atom opc (lo l) r.ty (r.form == .scal) dst (b l) (cc l))) := by
  have hall : (lanesTo ls f (fun l => (lo l).map Xl.at_)).filter (fun a => (locsOf a.2.2).length == r.ty.size) =
      lanesTo ls f (fun l => (lo l).map Xl.at_) := by
    refine List.filter_eq_self.mpr fun a ha => ?_
    obtain ⟨l, hl, rfl⟩ := List.mem_map.mp ha
    rw [locsOf_at, hlen l hl, beq_self_eq_true]
  rw [Ctx.nearReqs, hall, lanesTo, List.map_map]
  exact List.map_congr_left fun l _ => by rw [Function.comp_apply, locsOf_at]; rfl

theorem nearReqs_far (hn : r.ty.size ≠ 0) (dev n : Nat) (x : Nat → Nat) : c.nearReqs s r opc dst b cc (lanesTo ls f (farXl dev n x)) = [] := by
  have hnone : (lanesTo ls f (farXl dev n x)).filter (fun a => (locsOf a.2.2).length == r.ty.size) = [] := by
    refine List.filter_eq_nil_iff.mpr fun a ha => ?_
    obtain ⟨l, -, rfl⟩ := List.mem_map.mp ha
    simpa [locsOf_far] using hn.symm
  rw [Ctx.nearReqs, hnone, List.map_nil]

end

/-! ### What an atomic leaves (R191 to R193) -/

/-- The wave of an atomic has the requests `rs` more under way and its block relaunches no more; `p` says what has left for other devices. -/
def Ctx.asked (c : Ctx) (s t : State) (dst : List Reg) (rs : List Req) (p : Prop) : Prop :=
  ∃ w b', t.wave c.id = some w ∧ c.requested w dst rs ∧ t.block c.id.serial c.id.block = some b' ∧ b' = { c.b with relaunchable := false } ∧
    otherWaves s t c.id ∧ p ∧
    { t with waves := s.waves, launches := s.launches, parts := s.parts, blocks := s.blocks, ports := s.ports, flitTags := s.flitTags } = s

theorem head_tag {rs : List Req} {n : Nat} (hne : rs ≠ []) (h : ∀ q ∈ rs, q.tag = n) : (rs.head?.map (fun q => q.tag)).getD 0 = n := by
  obtain ⟨q, rs, rfl⟩ := List.exists_cons_of_ne_nil hne
  exact h q List.mem_cons_self

section
variable {s : State} {c : Ctx} (hc : s.issuer = some c) {i : Instr} {r : Lane} {opc : Nat} {ret : Bool} {b cc : Nat → Nat}
  (hi : c.atomic s i r opc ret b cc) (hne : c.turns r ≠ [])
include hc hi hne

/-- An atomic whose lanes are aligned and translate asks for them by the requests `rs`, of which those to another device leave the ports as `po`. -/
theorem answers_of_atomic {xl : Nat → List Xl} (hxl : ∀ l ∈ c.turns r, access s (c.mapping s) (c.atomAddr r l) r.ty.size .atomic = xl l)
    (hgood : ∀ l ∈ c.turns r, firstBad (xl l) = none) (hx : ∀ l ∈ c.turns r, ∀ a, Xl.at_ a ∈ xl l → absent a = false)
    (hal : ∀ l ∈ c.turns r, (c.atomAddr r l).toNat % r.ty.size = 0) {dst : Option Nat} (hdst : dst = if ret then some r.dst.toNat else none)
    {po : Tab Port} {n : Nat} {qs rs : List Req} {P : State → Prop}
    (hsend : ∀ u : State, u.tick = s.tick → u.ports = s.ports → u.flitTags = s.flitTags → u.routes = s.routes →
      c.sends r opc dst (farOf b cc (lanesTo (c.turns r) (c.atomAddr r) xl)) u = ({ u with ports := po, flitTags := n }, qs))
    (hrs : c.nearReqs s r opc dst b cc (lanesTo (c.turns r) (c.atomAddr r) xl) ++ qs.map (c.ofWord s) = rs) (hrs0 : rs ≠ [])
    (hP : ∀ t : State, t.ports = po → t.flitTags = n → P t) :
    answers s i (fun t => c.asked s t (if ret then dstRegs r.ty (r.form == .scal) r.dst.toNat else []) rs (P t)) := by
  obtain ⟨hw, hb, -, -⟩ := issuer_spec hc
  have hexec := goesOn_of_lanesTo hxl (ok := fun accs => alignsFirst c r (fun s => .next (c.asksFor r opc ret b cc accs
    (endRelaunch (countHot (countDev s c.id.serial r.ty accs) c.l.offer.part accs) c.id.serial c.id.block)))) hi hne hgood hx
  rw [alignsFirst_aligned hal] at hexec
  obtain ⟨ks, ps, hcounts⟩ := counts_eq s c.id.serial c.l.offer.part r.ty (lanesTo (c.turns r) (c.atomAddr r) xl)
  rw [hcounts, endRelaunch, modBlock_of (s := { s with launches := ks, parts := ps }) hb] at hexec
  let u : State := { s with launches := ks, parts := ps, blocks := tput s.blocks (bkey c.id.serial c.id.block) { c.b with relaunchable := false } }
  have htag : ∀ q ∈ rs, q.tag = s.tick := by
    intro q hq
    rw [← hrs] at hq
    rcases List.mem_append.mp hq with h | h
    · obtain ⟨a, -, rfl⟩ := List.mem_map.mp h; rfl
    · obtain ⟨a, -, rfl⟩ := List.mem_map.mp h; rfl
  obtain ⟨w, hask, hreq⟩ := request_spec (s := { u with ports := po, flitTags := n }) hw .dev
    (if ret then dstRegs r.ty (r.form == .scal) r.dst.toNat else []) rs (fun _ => head_tag hrs0 htag)
  have hasks : c.asksFor r opc ret b cc (lanesTo (c.turns r) (c.atomAddr r) xl) u = { u with ports := po, flitTags := n }.setWave c.id w := by
    rw [Ctx.asksFor, ← hdst, hsend u rfl rfl rfl rfl]
    exact (congrArg _ hrs).trans hask
  exact ⟨_, hexec.trans (congrArg _ hasks), w, _, wave_setWave _ _ _, hreq, tfind_tput_same _ _ _, rfl, otherWaves_put s _ _ _ rfl, hP _ rfl rfl, rfl⟩

/-- Lanes of this device ask home (R191). -/
theorem answers_of_near {lo : Nat → List Nat} (hlo : ∀ l ∈ c.turns r, access s (c.mapping s) (c.atomAddr r l) r.ty.size .atomic = (lo l).map Xl.at_ ∧
      (∀ a ∈ lo l, absent a = false) ∧ (c.atomAddr r l).toNat % r.ty.size = 0) {dst : Option Nat} (hdst : dst = if ret then some r.dst.toNat else none)
    {P : State → Prop} (hP : ∀ t : State, t.ports = s.ports → t.flitTags = s.flitTags → P t) :
    answers s i (fun t => c.asked s t (if ret then dstRegs r.ty (r.form == .scal) r.dst.toNat else [])
        ((c.turns r).map (fun l => mkReq c s (l, c.atomAddr r l, []) (.atom opc (lo l) r.ty (r.form == .scal) dst (b l) (cc l)))) (P t)) := by
  have hlen : ∀ l ∈ c.turns r, (lo l).length = r.ty.size := fun l hl => by
    have h := congrArg List.length (hlo l hl).1
    simpa [access] using h.symm
  refine answers_of_atomic hc hi hne (fun l hl => (hlo l hl).1) (fun l _ => firstBad_at _) (fun l hl a ha => (hlo l hl).2.1 a (mem_at.mp ha))
    (fun l hl => (hlo l hl).2.2) hdst (qs := []) (fun u _ hports htags _ => ?_) ?_ (by simpa using hne) hP
  · rw [farOf_here, ← hports, ← htags]
    unfold Ctx.sends
    split_ifs <;> rfl
  · rw [nearReqs_here b cc (c.turns r) _ c s r opc dst hlen, List.map_nil, List.append_nil]

section
variable {dev : Nat} {x : Nat → Nat} (hn : r.ty.size ≠ 0)
  (hfar : ∀ l ∈ c.turns r, access s (c.mapping s) (c.atomAddr r l) r.ty.size .atomic = farXl dev r.ty.size x l ∧ (c.atomAddr r l).toNat % r.ty.size = 0)
include hn hfar

/-- Lanes of a range of another device, up to eight, leave in one AREQ flit (R193). -/
theorem answers_of_far (hlen : (c.turns r).length ≤ 8) (hfree : c.w.farWaits = false) {dst : Option Nat}
    (hdst : dst = if ret then some r.dst.toNat else none) {P : State → Prop}
    (hP : ∀ t : State, t.ports = (sendFlit s dev 1 0 (areqPayload s.flitTags opc r.ty.code.toNat ret ((c.turns r).map (fun l => (x l, b l, cc l))))).ports →
      t.flitTags = s.flitTags + 1 → P t) :
    answers s i (fun t => c.asked s t (if ret then dstRegs r.ty (r.form == .scal) r.dst.toNat else [])
        ((c.turns r).zipIdx.map (fun p => mkReq c s (p.1, c.atomAddr r p.1, []) (.remote dev s.flitTags p.2 r.ty (r.form == .scal) dst))) (P t)) := by
  have hret : dst.isSome = ret := by rw [hdst]; cases ret <;> rfl
  refine answers_of_atomic hc hi hne (fun l hl => (hfar l hl).1) (fun l _ => firstBad_far _ _ _ _) (fun l _ a ha => by simp [farXl] at ha)
    (fun l hl => (hfar l hl).2) hdst
    (qs := ((c.turns r).map (fun l => (l, c.atomAddr r l, dev, x l, b l, cc l))).zipIdx.map (farReq c.sl.path.pc s.flitTags r.ty (r.form == .scal) dst))
    (fun u _ hports htags hroutes => ?_) ?_ (by simpa using hne) hP
  · have hports := sendFlit_ports (t := { u with flitTags := s.flitTags + 1 }) hports hroutes dev 1 0
      (areqPayload s.flitTags opc r.ty.code.toNat ret ((c.turns r).map (fun l => (x l, b l, cc l))))
    rw [farOf_far b cc _ _ hn, Ctx.sends, if_neg (by simp [hfree]), sendAtomics_single (dev := dev) _ _ _ _ _ _ (by simpa using hne) (by simpa using hlen)
      (fun p hp => by obtain ⟨l, -, rfl⟩ := List.mem_map.mp hp; rfl), hret, htags, List.map_map, ← hports]
    rfl
  · rw [nearReqs_far _ _ _ _ _ _ _ _ _ hn, List.nil_append, List.map_map, List.zipIdx_map, List.map_map]
    rfl

/-- The same lanes wait, where a request to home is under way that they must follow (R202). -/
theorem answers_of_waiting (hwait : c.w.farWaits = true) {dst : Option Nat} (hdst : dst = if ret then some r.dst.toNat else none)
    {P : State → Prop} (hP : ∀ t : State, t.ports = s.ports → t.flitTags = s.flitTags → P t) :
    answers s i (fun t => c.asked s t (if ret then dstRegs r.ty (r.form == .scal) r.dst.toNat else [])
        ((c.turns r).map (fun l => mkReq c s (l, c.atomAddr r l, []) (.far dev (x l) opc r.ty (r.form == .scal) dst (b l) (cc l)))) (P t)) := by
  refine answers_of_atomic hc hi hne (fun l hl => (hfar l hl).1) (fun l _ => firstBad_far _ _ _ _) (fun l _ a ha => by simp [farXl] at ha)
    (fun l hl => (hfar l hl).2) hdst
    (qs := (c.turns r).map (fun l =>
      { seq := 0, tag := 0, lane := l, pc := c.sl.path.pc, addr := c.atomAddr r l, kind := .far dev (x l) opc r.ty (r.form == .scal) dst (b l) (cc l) }))
    (fun u _ hports htags _ => ?_) ?_ (by simpa using hne) hP
  · rw [farOf_far b cc _ _ hn, Ctx.sends, if_pos hwait, List.map_map, ← hports, ← htags]
    rfl
  · rw [nearReqs_far _ _ _ _ _ _ _ _ _ hn, List.nil_append, List.map_map]
    rfl

end

end

/-! ### `REDG` under the determinism flag (R312) -/

/-- The remote range that a lane reaches: device and address. -/
def farHead (xs : List Xl) : Option (Nat × Nat) := match xs with
  | .remote d x :: _ => some (d, x)
  | _ => none

theorem farHead_at (locs : List Nat) : farHead (locs.map Xl.at_) = none := by cases locs <;> rfl

theorem farHead_far {n : Nat} (hn : n ≠ 0) (dev : Nat) (x : Nat → Nat) (l : Nat) : farHead (farXl dev n x l) = some (dev, x l) := by
  obtain ⟨t, ht⟩ := farXl_head hn dev x l
  rw [ht]
  rfl

/-- A lane of a `REDG` as it is staged, its bytes translated to `xs`. -/
def Ctx.redg (c : Ctx) (s : State) (op : AtomOp) (r : Lane) (l : Nat) (addr : BitVec 64) (xs : List Xl) : Redg :=
  { id := c.id, seq := s.tick, op := op.code.toNat, locs := locsOf xs, far := farHead xs, ty := r.ty, b := srcB c.w r r.ty l, addr := addr,
    pc := c.sl.path.pc.toNat, wave := waveNo c.id c.w, engine := c.w.engine }

/-- The lanes of a `REDG` join the set of their block. -/
def Ctx.stages (c : Ctx) (op : AtomOp) (r : Lane) (accs : List LaneAcc) (s : State) : State :=
  let x := tget {} s.sets c.key
  c.done { s with sets := tput s.sets c.key { x with redgs := x.redgs ++ accs.map (fun a => c.redg s op r a.1 a.2.1 a.2.2),
                                                     blocks := insertNat c.id.block x.blocks } } (fun w => w)

theorem exec_redg_stages {s : State} {c : Ctx} (hc : s.issuer = some c) (hd : c.det = true) (op : AtomOp) (r : Lane) :
    let accs := devAccess c s r.ty.size .atomic ((c.turns r).map (fun l => (l, c.atomAddr r l)))
    devChecked c s (.redg op r) (r.form == .scal) r.ty.size .atomic (c.turns r) (c.atomAddr r) (alignsFirst c r (fun s =>
      .next (detTouch c s (r.form == .scal) (redKind op r.ty) (accs.map accTouches)
        (fun s => c.stages op r accs (countHot (countDev s c.id.serial r.ty accs) c.l.offer.part accs))))) :=
  (exec_redg_staged hc hd op r).trans (issueOut_of hc _)

theorem answers_of_staged {s : State} {c : Ctx} (hc : s.issuer = some c) (hd : c.det = true) (op : AtomOp) {r : Lane}
    (hne : c.turns r ≠ []) {xl : Nat → List Xl}
    (hxl : ∀ l ∈ c.turns r, access s (c.mapping s) (c.atomAddr r l) r.ty.size .atomic = xl l) (hgood : ∀ l ∈ c.turns r, firstBad (xl l) = none)
    (hx : ∀ l ∈ c.turns r, ∀ a, Xl.at_ a ∈ xl l → absent a = false) (hal : ∀ l ∈ c.turns r, (c.atomAddr r l).toNat % r.ty.size = 0)
    (hq : ∀ l ∈ c.turns r, findConflict c.l c.b c.id.block (redKind op r.ty) (touched (xl l)) = none)
    {rs : List Redg} (hrs : (c.turns r).map (fun l => c.redg s op r l (c.atomAddr r l) (xl l)) = rs) :
    answers s (.redg op r) (fun t => t.wave c.id = some (c.w.advance c.slotB) ∧ otherWaves s t c.id ∧
      { t with waves := s.waves, launches := s.launches, parts := s.parts, sets := s.sets } = s ∧
      (∀ k, k ≠ c.key → tfind t.sets k = tfind s.sets k) ∧
      ∃ y, tfind t.sets c.key = some y ∧ y.bytes = (tget {} s.sets c.key).bytes ∧
        (∀ n, n ∈ y.blocks ↔ n = c.id.block ∨ n ∈ (tget {} s.sets c.key).blocks) ∧ y.redgs = (tget {} s.sets c.key).redgs ++ rs) := by
  obtain ⟨hw, -⟩ := issuer_spec hc
  have hexec := goesOn_of_lanesTo hxl (ok := fun accs => alignsFirst c r (fun s => .next (detTouch c s (r.form == .scal) (redKind op r.ty) (accs.map accTouches)
    (fun s => c.stages op r accs (countHot (countDev s c.id.serial r.ty accs) c.l.offer.part accs))))) (exec_redg_stages hc hd op r) hne hgood hx
  rw [alignsFirst_aligned hal] at hexec
  obtain ⟨ks, ps, hcounted⟩ := touchesCounted (fun _ => hq) s (r.form == .scal) (c.atomAddr r) r.ty
    (c.stages op r (lanesTo (c.turns r) (c.atomAddr r) xl))
  let u : State := { s with launches := ks, parts := ps }
  let x := tget {} s.sets c.key
  have hstages : c.stages op r (lanesTo (c.turns r) (c.atomAddr r) xl) u =
      { u with sets := tput s.sets c.key { x with redgs := x.redgs ++ rs, blocks := insertNat c.id.block x.blocks } }.setWave c.id (c.w.advance c.slotB) := by
    rw [← hrs, ← modWave_of (s := { u with sets := _ }) hw (fun w => w.advance c.slotB), Ctx.stages, lanesTo, List.map_map]
    rfl
  exact ⟨_, hexec.trans (congrArg _ (hcounted.trans hstages)), wave_setWave _ _ _, otherWaves_put s _ _ _ rfl, rfl, fun k hk => tfind_tput_other _ _ hk,
    _, tfind_tput_same _ _ _, rfl, fun _ => mem_insertNat, rfl⟩

/-- Settles O18: each word is an atomic (`exec_atg`, `exec_casg`, `exec_redg`) whose lanes ask home (`answers_of_near`), leave for another device
(`answers_of_far`) or wait (`answers_of_waiting`), or a `REDG` that is staged (`answers_of_staged`). -/
theorem deviceAtomics : Obligations.DeviceAtomics := by
  intro s c r op lo dev x hc ls da
  have hls : ls = c.turns r := turns_eq c r
  have hda : da = c.atomAddr r := by
    funext l
    by_cases h : r.form = .scal <;> simp [da, Ctx.atomAddr, devAddr, h]
  clear_value ls da
  subst hls hda
  intro once dst b z no req local_ far wait asks here sent staged
  refine ⟨fun h0 => ?none_, fun hne hn hlo => ?near, fun hne hlen hn hxl => ?far⟩
  case none_ =>
    have hpass {i : Instr} {ok} (hi : devChecked c s i (r.form == .scal) r.ty.size .atomic (c.turns r) (c.atomAddr r) ok) : passes c s i :=
      passes_of hc (hi.trans (if_pos (List.isEmpty_iff.mpr h0)))
    refine ⟨hpass (exec_atg hc op r), hpass (exec_casg hc r), ?_⟩
    cases hd : c.det with
    | false => exact hpass (exec_redg hc hd op r)
    | true => exact hpass (exec_redg_stages hc hd op r)
  case near =>
    refine ⟨?_, ?_, fun hd => ?_, fun hd hq => ?_⟩
    · exact answers_of_near hc (exec_atg hc op r) hne hlo rfl (fun _ hp ht => ⟨hp, ht⟩)
    · exact answers_of_near hc (exec_casg hc r) hne hlo rfl (fun _ hp ht => ⟨hp, ht⟩)
    · exact answers_of_near hc (exec_redg hc hd op r) hne hlo rfl (fun _ hp ht => ⟨hp, ht⟩)
    · refine answers_of_staged hc hd op hne (fun l hl => (hlo l hl).1) (fun l _ => firstBad_at _) (fun l hl a ha => (hlo l hl).2.1 a (mem_at.mp ha))
        (fun l hl => (hlo l hl).2.2) (fun l hl => ?_) (List.map_congr_left fun l _ => ?_)
      · rw [touched_at]; exact hq l hl
      · rw [Ctx.redg, locsOf_at, farHead_at]
  case far =>
    refine ⟨fun hfree => ⟨?_, ?_, fun hd => ?_⟩, fun hwait => ⟨?_, ?_, fun hd => ?_⟩, fun hd hq => ?_⟩
    · exact answers_of_far hc (exec_atg hc op r) hne hn hxl hlen hfree rfl (fun _ hp ht => ⟨ht, hp⟩)
    · exact answers_of_far hc (exec_casg hc r) hne hn hxl hlen hfree rfl (fun _ hp ht => ⟨ht, hp⟩)
    · exact answers_of_far hc (exec_redg hc hd op r) hne hn hxl hlen hfree rfl (fun _ hp ht => ⟨ht, hp⟩)
    · exact answers_of_waiting hc (exec_atg hc op r) hne hn hxl hwait rfl (fun _ hp ht => ⟨hp, ht⟩)
    · exact answers_of_waiting hc (exec_casg hc r) hne hn hxl hwait rfl (fun _ hp ht => ⟨hp, ht⟩)
    · exact answers_of_waiting hc (exec_redg hc hd op r) hne hn hxl hwait rfl (fun _ hp ht => ⟨hp, ht⟩)
    · refine answers_of_staged hc hd op hne (fun l hl => (hxl l hl).1) (fun l _ => firstBad_far _ _ _ _) (fun l _ a ha => by simp at ha)
        (fun l hl => (hxl l hl).2) (fun l hl => ?_) (List.map_congr_left fun l _ => ?_)
      · exact (congrArg _ (touched_far dev r.ty.size x l)).trans (hq l hl)
      · exact (congrArg₂ (fun ks h => ({ c.redg s op r l (c.atomAddr r l) [] with locs := ks, far := h } : Redg)) (locsOf_far dev r.ty.size x l)
          (farHead_far hn dev x l))

end Sys2Proof.Machine
end

section
/-! PROOF. Words of host memory and prefetches (R185, R189): a read asks the host, a write reaches host memory through the windows as it issues. -/

namespace Sys2Proof.Machine

/-! ### Lanes that the windows let through -/

theorem hostBad_in (locs : List Nat) : hostBad (locs.map Sum.inr) = none := by simp [hostBad]

theorem hostAddrs_in (locs : List Nat) : hostAddrs (locs.map Sum.inr) = locs := by simp [hostAddrs, List.filterMap_map]

section
variable {s : State} {c : Ctx} {i : Instr} {once wr : Bool} {n : Nat} {ls : List Nat} {f : Nat → BitVec 64}

theorem passes_of_hostChecked {ok : State} (hi : hostChecked c s i once wr n ls f ok) (hc : s.issuer = some c) (h0 : ls = []) : passes c s i :=
  passes_of hc (hi.trans (congrArg _ (if_pos (List.isEmpty_iff.mpr h0))))

variable {lo : Nat → List Nat} (h : ∀ l ∈ ls, hostAccess (c.mapping s) wr (f l) n = (lo l).map Sum.inr)
include h

/-- The lanes of a host word with the host addresses that the windows give them. -/
theorem hostLanes_eq : (ls.map (fun l => (l, f l))).map (fun p => (p.1, p.2, hostAccess (c.mapping s) wr p.2 n)) =
    ls.map (fun l => (l, f l, (lo l).map Sum.inr)) := by
  rw [List.map_map]
  exact List.map_congr_left fun l hl => by rw [Function.comp_apply, h l hl]

theorem goesOn_of_hostChecked {ok : State} (hi : hostChecked c s i once wr n ls f ok) (hne : ls ≠ []) : exec i s = .next ok := by
  have hnone : (ls.map (fun l => (l, f l, (lo l).map (Sum.inr (α := Option Nat))))).filterMap
      (fun a => (hostBad a.2.2).map (fun e => (a.1, a.2.1, e))) = [] := by
    simp [List.filterMap_map, hostBad_in]
  refine hi.trans (congrArg _ ((if_neg (by simpa using hne)).trans ?_))
  rw [hostLanes_eq h, checkHost, hnone]

end

/-! ### The words -/

/-- The requests of an `LDH` to the host. -/
def Ctx.hostReqs (c : Ctx) (s : State) (m : Mem) (accs : List (Nat × BitVec 64 × List (Option Nat ⊕ Nat))) : List Req :=
  accs.map (fun a => { seq := s.tick, tag := s.tick, lane := a.1, pc := c.sl.path.pc, addr := a.2.1, kind := .ldh (hostAddrs a.2.2) m.ty m.dk m.dst.toNat })

/-- Host memory after the bytes of an `STH`, lane by lane. -/
def Ctx.hostStored (c : Ctx) (m : Mem) (accs : List (Nat × BitVec 64 × List (Option Nat ⊕ Nat))) (t : Tab Byte) : Tab Byte :=
  accs.foldl (fun t a => ((hostAddrs a.2.2).zip (storeBytes c m.ty m.dk m.dst.toNat a.1)).foldl (fun t p => tset 0 t p.1 p.2) t) t

/-- The accesses of a host word. -/
def Ctx.hostLanes (c : Ctx) (s : State) (m : Mem) (wr : Bool) : List (Nat × BitVec 64 × List (Option Nat ⊕ Nat)) :=
  ((turnsOf c m.h m.dk).map (fun l => (l, c.devMemAddr m l))).map (fun p => (p.1, p.2, hostAccess (c.mapping s) wr p.2 m.ty.size))

section
variable {s : State} {c : Ctx} (hc : s.issuer = some c) (m : Mem)
include hc

theorem exec_ldh : hostChecked c s (.ldh m) m.dk false m.ty.size (turnsOf c m.h m.dk) (c.devMemAddr m)
    (c.request (addBytes s c.id.serial 3 (hostBytes m.ty * (c.hostLanes s m false).length)) .host (dstRegs m.ty m.dk m.dst.toNat)
      (c.hostReqs s m (c.hostLanes s m false))) := issue_of hc _

theorem exec_sth : hostChecked c s (.sth m) m.dk true m.ty.size (turnsOf c m.h m.dk) (c.devMemAddr m)
    (c.done (addBytes { s with hostMem := c.hostStored m (c.hostLanes s m true) s.hostMem } c.id.serial 3
      (hostBytes m.ty * (c.hostLanes s m true).length)) (fun w => { w with sths := w.sths + 1 })) := issue_of hc _

theorem passes_pfg : passes c s (.pfg m) := passes_of hc (issue_of hc _)

end

/-- Bytes counted stand with the launch (R239). -/
theorem addBytes_eq (s : State) (n tier k : Nat) : ∃ ls, addBytes s n tier k = { s with launches := ls } := ⟨_, rfl⟩

/-! ### Host memory written -/

theorem tget_foldl_tset_other {ps : List (Nat × Byte)} (t : Tab Byte) {a : Nat} (h : ∀ p ∈ ps, p.1 ≠ a) :
    tget 0 (ps.foldl (fun t p => tset 0 t p.1 p.2) t) a = tget 0 t a :=
  List.foldlRecOn (motive := fun u => tget 0 u a = tget 0 t a) _ _ rfl (fun _ hu p hp => (tget_tset_other _ _ _ (Ne.symm (h p hp))).trans hu)

/-- Bytes written to places that all differ read back. -/
theorem tget_foldl_tset_zip {locs : List Nat} (hn : locs.Nodup) {bs : List Byte} (t : Tab Byte) {i a : Nat} {x : Byte} (ha : locs[i]? = some a)
    (hx : bs[i]? = some x) : tget 0 ((locs.zip bs).foldl (fun t p => tset 0 t p.1 p.2) t) a = x := by
  induction locs generalizing bs t i with
  | nil => cases ha
  | cons j locs ih =>
    obtain ⟨hj, hn⟩ := List.nodup_cons.mp hn
    cases bs with
    | nil => cases hx
    | cons b bs =>
      rw [List.zip_cons_cons, List.foldl_cons]
      cases i with
      | zero =>
        cases ha
        cases hx
        rw [tget_foldl_tset_other _ (fun p hp => by rintro rfl; exact hj (List.of_mem_zip hp).1), tget_tset_same]
      | succ i => exact ih hn _ ha hx

theorem hostStored_other (c : Ctx) (m : Mem) (ls : List Nat) (f : Nat → BitVec 64) (lo : Nat → List Nat) (t : Tab Byte) {a : Nat}
    (h : ∀ l ∈ ls, a ∉ lo l) :
    tget 0 (c.hostStored m (ls.map (fun l => (l, f l, (lo l).map Sum.inr))) t) a = tget 0 t a := by
  refine List.foldlRecOn (motive := fun u => tget 0 u a = tget 0 t a) _ _ rfl fun u hu x hx => ?_
  obtain ⟨l, hl, rfl⟩ := List.mem_map.mp hx
  rw [hostAddrs_in]
  exact (tget_foldl_tset_other _ (fun p hp => by rintro rfl; exact h l hl (List.of_mem_zip hp).1)).trans hu

/-- Settles O19: the lanes pass the windows (`goesOn_of_hostChecked`); the requests of an `LDH` join its wave (`request_spec`), and host memory after an
`STH` holds the bytes of its lanes and is as it was elsewhere (`hostStored_other`, `tget_foldl_tset_zip`). -/
theorem hostWordsAndPrefetch : Obligations.HostWordsAndPrefetch := by
  intro s c m lo hc ls da data
  obtain ⟨hw, -⟩ := issuer_spec hc
  refine ⟨passes_pfg hc m, fun h0 => ⟨passes_of_hostChecked (exec_ldh hc m) hc h0, passes_of_hostChecked (exec_sth hc m) hc h0⟩,
    fun hne hlo => ?ldh, fun hne hlo => ?sth⟩
  case ldh =>
    have hlanes : c.hostLanes s m false = ls.map (fun l => (l, da l, (lo l).map Sum.inr)) := hostLanes_eq hlo
    have hreqs : c.hostReqs s m (c.hostLanes s m false) = ls.map (fun l =>
        { seq := s.tick, tag := s.tick, lane := l, pc := c.sl.path.pc, addr := da l, kind := .ldh (lo l) m.ty m.dk m.dst.toNat }) := by
      rw [hlanes, Ctx.hostReqs, List.map_map]
      exact List.map_congr_left fun l _ => by rw [Function.comp_apply, hostAddrs_in]
    have hexec := goesOn_of_hostChecked hlo (exec_ldh hc m) hne
    obtain ⟨ks, hks⟩ := addBytes_eq s c.id.serial 3 (hostBytes m.ty * (c.hostLanes s m false).length)
    rw [hreqs, hks] at hexec
    obtain ⟨l, t, hlt⟩ := List.exists_cons_of_ne_nil hne
    obtain ⟨w, hask, hreq⟩ := request_spec (s := { s with launches := ks }) hw .host (dstRegs m.ty m.dk m.dst.toNat) (ls.map (fun l =>
      { seq := s.tick, tag := s.tick, lane := l, pc := c.sl.path.pc, addr := da l, kind := .ldh (lo l) m.ty m.dk m.dst.toNat })) (fun _ => by rw [hlt]; rfl)
    exact ⟨_, hexec.trans (congrArg _ hask), w, wave_setWave _ _ _, otherWaves_put s _ _ _ rfl, rfl, hreq⟩
  case sth =>
    have hlanes : c.hostLanes s m true = ls.map (fun l => (l, da l, (lo l).map Sum.inr)) := hostLanes_eq hlo
    have hexec := goesOn_of_hostChecked hlo (exec_sth hc m) hne
    rw [hlanes] at hexec
    let t := c.hostStored m (ls.map (fun l => (l, da l, (lo l).map Sum.inr))) s.hostMem
    obtain ⟨ks, hks⟩ := addBytes_eq { s with hostMem := t } c.id.serial 3
      (hostBytes m.ty * (ls.map (fun l => (l, da l, (lo l).map (Sum.inr (α := Option Nat))))).length)
    rw [hks] at hexec
    have hdone := modWave_of (s := { s with hostMem := t, launches := ks }) hw (fun w => ({ w with sths := w.sths + 1 }).advance c.slotB)
    refine ⟨_, hexec.trans (congrArg _ hdone), _, wave_setWave _ _ _, ?_, ?_, otherWaves_put s _ _ _ rfl, rfl,
      fun a ha => hostStored_other c m ls da lo s.hostMem ha, fun l hone hn i a ha => ?_⟩
    · cases c.slotB <;> rfl
    · cases c.slotB <;> rfl
    · have hlen : (lo l).length = m.ty.size := by
        have h := congrArg List.length (hlo l (by rw [hone]; exact List.mem_singleton_self l))
        simpa [hostAccess] using h.symm
      obtain ⟨hi, -⟩ := List.getElem?_eq_some_iff.mp ha
      have hx : (data l)[i]? = some ((data l).getD i 0) := by
        have hi : i < (data l).length := by simpa [data, ← hlen] using hi
        simp [hi]
      show tget 0 (c.hostStored m (ls.map (fun l => (l, da l, (lo l).map Sum.inr))) s.hostMem) a = _
      rw [hone, ← tget_foldl_tset_zip hn s.hostMem ha hx, ← hostAddrs_in (lo l)]
      rfl

end Sys2Proof.Machine
end

section
/-! PROOF. Requests performed (R176, R186, R191, R192, R194, R195, R201, R202). -/

namespace Sys2Proof.Machine

/-! ### Home memory written (R182, R194) -/

theorem writeBytes_rest (s : State) (bs : List (Nat × Byte)) :
    { writeBytes s bs with mem := s.mem, migrations := s.migrations, mgmt := s.mgmt } = s :=
  List.foldlRecOn (motive := fun t : State => { t with mem := s.mem, migrations := s.migrations, mgmt := s.mgmt } = s) _ _ rfl fun t ht b _ => by
    rw [← ht]
    exact congrArg (fun u : State => { u with mem := s.mem, migrations := s.migrations, mgmt := s.mgmt }) (writeByte_rest t b.1 b.2)

/-- One event of H changes memory, the migrations under way with their reports, and H. -/
theorem homeWrite_rest (s : State) (bs : List (Nat × Byte)) :
    { homeWrite s bs with mem := s.mem, hist := s.hist, migrations := s.migrations, mgmt := s.mgmt } = s :=
  congrArg (fun u : State => { u with hist := s.hist }) (writeBytes_rest s bs)

/-- Where nothing migrates a write goes to one place. -/
theorem writeBytes_still {s : State} (hm : s.migrations = []) (bs : List (Nat × Byte)) :
    writeBytes s bs = { s with mem := bs.foldl (fun m b => tset 0 m (redir s b.1) b.2) s.mem } := by
  induction bs generalizing s with
  | nil => rfl
  | cons b bs ih =>
    have hb : writeByte s b.1 b.2 = { s with mem := tset 0 s.mem (redir s b.1) b.2 } := by simp only [writeByte, hm, List.find?_nil]
    have := ih (s := { s with mem := tset 0 s.mem (redir s b.1) b.2 }) hm
    rw [writeBytes, List.foldl_cons, hb]
    exact this

section
variable {s : State} (hm : s.migrations = []) (hinj : ∀ a d, redir s a = redir s d → a = d)
include hm

theorem memByte_homeWrite (locs : List Nat) (bs : List Byte) (a : Nat) : memByte (homeWrite s (locs.zip bs)) a =
    tget 0 (((locs.map (redir s)).zip bs).foldl (fun t p => tset 0 t p.1 p.2) s.mem) (redir s a) := by
  rw [List.zip_map_left, List.foldl_map]
  show memByte (writeBytes s (locs.zip bs)) a = _
  rw [writeBytes_still hm]
  rfl

include hinj

/-- The bytes that a write does not name are as they were. -/
theorem memByte_homeWrite_other {locs : List Nat} (bs : List Byte) {a : Nat} (h : a ∉ locs) : memByte (homeWrite s (locs.zip bs)) a = memByte s a := by
  rw [memByte_homeWrite hm]
  refine tget_foldl_tset_other _ fun p hp e => h ?_
  obtain ⟨d, hd, hr⟩ := List.mem_map.mp (List.of_mem_zip hp).1
  exact hinj _ _ (hr.trans e) ▸ hd

/-- Bytes written together read back. -/
theorem map_memByte_homeWrite {locs : List Nat} (hn : locs.Nodup) {bs : List Byte} (hl : locs.length = bs.length) :
    locs.map (memByte (homeWrite s (locs.zip bs))) = bs := by
  refine List.ext_getElem (by simpa using hl) fun i hi hb => ?_
  have hi : i < locs.length := by simpa using hi
  rw [List.getElem_map, memByte_homeWrite hm]
  exact tget_foldl_tset_zip (hn.map (fun a d => hinj a d)) _ (by simp [hi]) (List.getElem?_eq_getElem hb)

end

/-! ### An atomic at home (R162, R191, R192) -/

/-- What an atomic stores: nothing, where a compare fails. -/
def atomBytes (s : State) (op : Nat) (locs : List Nat) (ty : Ty) (b cc : Nat) : List (Nat × Byte) :=
  match atomNew op ty (ofLeBytes (locs.map (memByte s))) b cc with
  | some v => locs.zip (leBytes v ty.size)
  | none => []

theorem atomAt_eq (s : State) (op : Nat) (locs : List Nat) (ty : Ty) (b cc : Nat) :
    atomAt s op locs ty b cc = (homeWrite s (atomBytes s op locs ty b cc), ofLeBytes (locs.map (memByte s))) := by
  unfold atomAt atomBytes
  split <;> simp only [*]

/-- What a lane of an atomic writes to its registers of the old value. -/
def oldWrites (ty : Ty) (scal : Bool) (dst : Option Nat) (lane old : Nat) : List RegWrite :=
  match dst with
  | some d => typeWrites ty scal d lane old
  | none => []

/-! ### A request that fails (R61, R176, R244) -/

/-- The trap of a word whose request fails: imprecise, naming the word's PC and the device address. -/
def reqTrap (id : WaveId) (x : Wave) (core pc code attr : Nat) (addr : BitVec 64) : Trap :=
  { code := code, attr := attr, construct := 0, pc := pc, pc2 := noPc, block := id.block, block2 := noPc,
    wave := waveNo id x, core := core, engine := x.engine, lanes := 0, value := addr }

/-- It reaches the launch, and of the waves only that of the request has changed. -/
theorem reqTrap_spec {s : State} {id : WaveId} {l : Launch} (hl : s.launch id.serial = some l) (w : Wave) (tr : Trap) :
    let t := addTrap (s.setWave id w) id.serial tr
    t.wave id = some w ∧ t.launch id.serial = some { l with traps := l.traps ++ [tr] } ∧ otherWaves s t id ∧
      { t with waves := s.waves, launches := s.launches, latches := s.latches } = s := by
  have hrest := addTrap_rest (s.setWave id w) id.serial tr
  have hwaves : (addTrap (s.setWave id w) id.serial tr).waves = tput s.waves (wkey id) w := (congrArg State.waves hrest :)
  exact ⟨(congrArg (fun t => tfind t (wkey id)) hwaves).trans (tfind_tput_same _ _ _), addTrap_launch (s := s.setWave id w) hl tr,
    otherWaves_put _ _ _ _ hwaves, congrArg (fun u : State => { u with waves := s.waves }) hrest⟩

/-! ### A remote atomic that has waited (R202) -/

/-- A list where `p` holds at one place alone falls apart there. -/
theorem split_at_only {α : Type} {p : α → Bool} {before after : List α} {q : α} (hb : ∀ y ∈ before, p y = false) (hq : p q = true)
    (ha : ∀ y ∈ after, p y = false) :
    (before ++ q :: after).takeWhile (fun y => !p y) = before ∧ (before ++ q :: after).dropWhile (fun y => !p y) = q :: after ∧
      (before ++ q :: after).filter p = [q] ∧ (q :: after).filter (fun y => !p y) = after := by
  have hb' : ∀ y ∈ before, (!p y) = true := fun y hy => by rw [hb y hy]; rfl
  have ha' : after.filter (fun y => !p y) = after := List.filter_eq_self.mpr fun y hy => by rw [ha y hy]; rfl
  refine ⟨?_, ?_, ?_, ?_⟩
  · rw [List.takeWhile_append_of_pos hb', List.takeWhile_cons_of_neg (by simp [hq]), List.append_nil]
  · rw [List.dropWhile_append_of_pos hb', List.dropWhile_cons_of_neg (by simp [hq])]
  · rw [List.filter_append, List.filter_eq_nil_iff.mpr fun y hy => by simp [hb y hy], List.filter_cons_of_pos hq,
      List.filter_eq_nil_iff.mpr fun y hy => by simp [ha y hy], List.nil_append]
  · rw [List.filter_cons_of_neg (by simp [hq]), ha']

/-- A remote atomic of the word of request `r`. -/
def ofWord (r q : Req) : Bool := q.tag == r.tag && isFar q

/-- Nothing that the word of `r` must follow is under way. -/
def wordFree (w : Wave) (r : Req) : Bool :=
  (List.range w.reqs.length).all (fun j => match w.reqs[j]? with
    | some q => !ofWord r q || (w.reqs.take j).all (fun p => p.tag == r.tag || !mustFollow p q)
    | none => true)

/-- What a lane sends, of a remote atomic. -/
def farLane (q : Req) : Option FarLane :=
  match q.kind with
  | .far d a _ _ _ _ b cc => some (q.lane, q.addr, d, a, b, cc)
  | _ => none

theorem sendFar_eq (s : State) (id : WaveId) (w : Wave) {r : Req} {dev a opc bv cv : Nat} {ty : Ty} {scal : Bool} {dst : Option Nat}
    (hk : r.kind = .far dev a opc ty scal dst bv cv) : sendFar s id w r =
      if !wordFree w r then s
      else
        let out := sendAtomics s r.pc opc ty scal dst ((w.reqs.filter (ofWord r)).filterMap farLane)
        let before := w.reqs.takeWhile (fun q => !ofWord r q)
        let after := (w.reqs.dropWhile (fun q => !ofWord r q)).filter (fun q => !ofWord r q)
        out.1.setWave id { w with reqs := before ++ out.2.map (fun q => { q with seq := r.seq, tag := r.tag, after := r.after }) ++ after } := by
  unfold sendFar
  rw [hk]
  rfl

section
variable {x : Wave} {k : Nat} {q : Req} (hq : x.reqs[k]? = some q)
include hq

theorem reqs_split : x.reqs = x.reqs.take k ++ q :: x.reqs.drop (k + 1) := by
  obtain ⟨hlt, hget⟩ := List.getElem?_eq_some_iff.mp hq
  rw [← hget, ← List.drop_eq_getElem_cons hlt, List.take_append_drop]

theorem reqs_set (r : Req) : x.reqs.set k r = x.reqs.take k ++ [r] ++ x.reqs.drop (k + 1) := by
  rw [List.set_eq_take_append_cons_drop, if_pos (List.getElem?_eq_some_iff.mp hq).1, List.append_assoc, List.singleton_append]

variable (hfree : reqFree x k = true) (honly : ∀ (j : Nat) (r : Req), x.reqs[j]? = some r → r.tag = q.tag → j = k)
include hfree honly

/-- A word of one request must follow nothing but what that request must. -/
theorem wordFree_single : wordFree x q = true := by
  have hfollow : ∀ p ∈ x.reqs.take k, mustFollow p q = false := by simpa [reqFree, hq] using hfree
  refine List.all_eq_true.mpr fun j _ => ?_
  split
  case h_1 p hj =>
    by_cases htag : p.tag = q.tag
    · obtain rfl := honly j p hj htag
      obtain rfl := Option.some.inj (hq.symm.trans hj)
      refine Bool.or_eq_true_iff.mpr (Or.inr (List.all_eq_true.mpr fun r hr => ?_))
      rw [hfollow r hr, Bool.not_false, Bool.or_true]
    · simp [ofWord, htag]
  case h_2 => rfl

/-- The only request of its word is sent in its place, once nothing that it must follow is under way. -/
theorem sendFar_single (s : State) (id : WaveId) {dev a opc bv cv : Nat} {ty : Ty} {scal : Bool} {dst : Option Nat}
    (hk : q.kind = .far dev a opc ty scal dst bv cv) :
    sendFar s id x q =
      (sendFlit { s with flitTags := s.flitTags + 1 } dev 1 0 (areqPayload s.flitTags opc ty.code.toNat dst.isSome [(a, bv, cv)])).setWave id
        { x with reqs := x.reqs.set k { q with kind := .remote dev s.flitTags 0 ty scal dst } } := by
  have hbefore : ∀ p ∈ x.reqs.take k, ofWord q p = false := fun p hp => by
    obtain ⟨j, hj, rfl⟩ := List.mem_take_iff_getElem.mp hp
    have : x.reqs[j].tag ≠ q.tag := fun e => absurd (honly j _ (List.getElem?_eq_getElem _) e) (by omega)
    simp [ofWord, this]
  have hafter : ∀ p ∈ x.reqs.drop (k + 1), ofWord q p = false := fun p hp => by
    obtain ⟨j, hj, rfl⟩ := List.mem_drop_iff_getElem.mp hp
    have : x.reqs[k + 1 + j].tag ≠ q.tag := fun e => absurd (honly _ _ (List.getElem?_eq_getElem _) e) (by omega)
    simp [ofWord, this]
  have hself : ofWord q q = true := by simp [ofWord, isFar, hk]
  obtain ⟨htake, hdrop, hfilter, hrest⟩ := split_at_only hbefore hself hafter
  rw [← reqs_split hq] at htake hdrop hfilter
  have hlane : [q].filterMap farLane = [(q.lane, q.addr, dev, a, bv, cv)] := by simp [farLane, hk]
  rw [sendFar_eq s id x hk, wordFree_single hq hfree honly, htake, hdrop, hfilter, hrest, hlane, reqs_set hq]
  simp only [Bool.not_true, Bool.false_eq_true, if_false]
  rw [sendAtomics_single s q.pc opc ty scal dst (dev := dev) (List.cons_ne_nil _ _) (by simp) (by simp)]
  simp [farReq]

end

/-! ### The requests -/

section
variable {s : State} {id : WaveId} {x : Wave} {b : Block} {l : Launch} {k : Nat} {q : Req}
  (hw : s.wave id = some x) (hb : s.block id.serial id.block = some b) (hq : x.reqs[k]? = some q) (hfree : reqFree x k = true)
include hw hb hq hfree

theorem exec_storeSetEntry (hl : s.launch id.serial = some l) {bs : List (Nat × Byte × BitVec 64)} (hk : q.kind = .stg bs)
    (hfirst : x.reqs.findIdx? isStg = some k) :
    let key := setKey l b.core id.serial id.block
    exec (.storeSetEntry id) s = .next ({ s with sets := tput s.sets key (StoreSet.enter (tget {} s.sets key) id.block bs) }.setWave id
      { x with reqs := x.reqs.eraseIdx k }) := by
  show execStoreSetEntry id s = _
  simp [execStoreSetEntry, hw, hb, hl, hfirst, hfree, hq, hk]

section
variable {op : Nat} {locs : List Nat} {ty : Ty} {scal : Bool} {dst : Option Nat} {bv cv : Nat} (hk : q.kind = .atom op locs ty scal dst bv cv)
include hk

theorem exec_atomicAtHome_locked (hlock : locs.any (lockedAt s) = true) : exec (.atomicAtHome id k) s =
    .next (addTrap (s.setWave id { x with reqs := x.reqs.eraseIdx k }) id.serial (reqTrap id x b.core q.pc.toNat cPROT aCALLER q.addr)) := by
  show execAtomicAtHome id k s = _
  simp only [execAtomicAtHome, hw, hb, hq, hk, hfree, hlock, Bool.not_true, Bool.false_eq_true, if_false, if_true]
  rfl

variable (hlock : locs.any (lockedAt s) = false)
include hlock

theorem exec_atomicAtHome_bad (hbad : locs.any (badUnit s) = true) : exec (.atomicAtHome id k) s =
    .next (addTrap (s.setWave id { x with reqs := x.reqs.eraseIdx k }) id.serial (reqTrap id x b.core q.pc.toNat cUNCORR aMACHINE q.addr)) := by
  show execAtomicAtHome id k s = _
  simp only [execAtomicAtHome, hw, hb, hq, hk, hfree, hlock, hbad, Bool.not_true, Bool.false_eq_true, if_false, if_true]
  rfl

theorem exec_atomicAtHome_good (hbad : locs.any (badUnit s) = false) : exec (.atomicAtHome id k) s =
    .next ((homeWrite s (atomBytes s op locs ty bv cv)).setWave id
      ({ x with reqs := x.reqs.eraseIdx k, homePt := max x.homePt (s.hpt + 1) }.pendWrite q.tag
        (oldWrites ty scal dst q.lane (ofLeBytes (locs.map (memByte s)))) (!(x.reqs.eraseIdx k).any (fun p => p.tag == q.tag)))) := by
  show execAtomicAtHome id k s = _
  simp only [execAtomicAtHome, hw, hb, hq, hk, hfree, hlock, hbad, atomAt_eq, Bool.not_true, Bool.false_eq_true, if_false]
  rfl

end

theorem exec_atomicAtHome_far {dev a opc bv cv : Nat} {ty : Ty} {scal : Bool} {dst : Option Nat}
    (hk : q.kind = .far dev a opc ty scal dst bv cv) (honly : ∀ (j : Nat) (r : Req), x.reqs[j]? = some r → r.tag = q.tag → j = k) :
    exec (.atomicAtHome id k) s = .next
      ((sendFlit { s with flitTags := s.flitTags + 1 } dev 1 0 (areqPayload s.flitTags opc ty.code.toNat dst.isSome [(a, bv, cv)])).setWave id
        { x with reqs := x.reqs.set k { q with kind := .remote dev s.flitTags 0 ty scal dst } }) := by
  rw [← sendFar_single hq hfree honly s id hk]
  show execAtomicAtHome id k s = _
  simp only [execAtomicAtHome, hw, hb, hq, hk]

section
variable {locs : List Nat} {got : List Byte} {ty : Ty} {dk : Bool} {dst : Nat} (hk : q.kind = .home locs got ty dk dst)
include hk

theorem exec_homeReadArrival_bad (hbad : ((unitsOf locs).headD []).any (badUnit s) = true) : exec (.homeReadArrival id k) s =
    .next (addTrap (s.setWave id { x with reqs := x.reqs.eraseIdx k, homePt := max x.homePt s.hpt }) id.serial
      (reqTrap id x b.core q.pc.toNat cUNCORR aMACHINE (q.addr + BitVec.ofNat 64 got.length))) := by
  show execHomeReadArrival id k s = _
  simp only [execHomeReadArrival, hw, hb, hq, hk, hfree, hbad, Bool.not_true, Bool.false_eq_true, if_false, if_true]
  rfl

variable (hgood : ((unitsOf locs).headD []).any (badUnit s) = false)
include hgood

theorem exec_homeReadArrival_last (hlast : locs.drop ((unitsOf locs).headD []).length = []) : exec (.homeReadArrival id k) s =
    .next (s.setWave id ({ x with reqs := x.reqs.eraseIdx k, homePt := max x.homePt s.hpt }.pendWrite q.tag
      (typeWrites ty dk dst q.lane (ofLeBytes (got ++ ((unitsOf locs).headD []).map (memByte s))))
      (!(x.reqs.eraseIdx k).any (fun p => p.tag == q.tag)))) := by
  show execHomeReadArrival id k s = _
  simp only [execHomeReadArrival, hw, hb, hq, hk, hfree, hgood, hlast, Bool.not_true, Bool.false_eq_true, if_false, List.isEmpty_nil, if_true]

theorem exec_homeReadArrival_more (hmore : locs.drop ((unitsOf locs).headD []).length ≠ []) : exec (.homeReadArrival id k) s =
    .next (s.setWave id { x with
      homePt := max x.homePt s.hpt
      reqs := x.reqs.set k { q with
        kind := .home (locs.drop ((unitsOf locs).headD []).length) (got ++ ((unitsOf locs).headD []).map (memByte s)) ty dk dst } }) := by
  have hmore : (locs.drop ((unitsOf locs).headD []).length).isEmpty = false := by simpa using hmore
  show execHomeReadArrival id k s = _
  simp only [execHomeReadArrival, hw, hb, hq, hk, hfree, hgood, hmore, Bool.not_true, Bool.false_eq_true, if_false]

end

end

theorem any_false_of {α : Type} {p : α → Bool} {xs : List α} (h : ∀ a ∈ xs, p a = false) : xs.any p = false :=
  List.any_eq_false.mpr fun a ha => by simp [h a ha]

/-! ### The obligation -/

/-- Settles O21: each request is found at its place and its kind decides; one that fails reaches the launch as a trap. -/
theorem requestsPerformed : Obligations.RequestsPerformed := by
  unfold Obligations.RequestsPerformed
  intro s id x b l k q hw hb hl hq hfree last lands fails
  have hfails {i : Instr} {code attr : Nat} {addr : BitVec 64} (pt : Nat)
      (he : exec i s = .next (addTrap (s.setWave id { x with reqs := x.reqs.eraseIdx k, homePt := pt }) id.serial
        (reqTrap id x b.core q.pc.toNat code attr addr))) : fails i code attr pt addr := by
    obtain ⟨hwave, hlaunch, hother, hframe⟩ := reqTrap_spec (id := id) hl { x with reqs := x.reqs.eraseIdx k, homePt := pt }
      (reqTrap id x b.core q.pc.toNat code attr addr)
    exact ⟨_, he, _, hwave, hlaunch, rfl, rfl, rfl, rfl, rfl, rfl, rfl, hother, hframe⟩
  refine ⟨?_, ?_, ?_, ?_, ?_⟩
  · intro bs hk hfirst
    exact ⟨_, exec_storeSetEntry hw hb hq hfree hl hk hfirst, wave_setWave _ _ _, otherWaves_put _ _ _ _ rfl, rfl, tfind_tput_same _ _ _,
      fun j hj => tfind_tput_other _ _ hj⟩
  · intro op locs ty scal dst bv cv hk hgood old
    have hrest := homeWrite_rest s (atomBytes s op locs ty bv cv)
    have hwaves : (homeWrite s (atomBytes s op locs ty bv cv)).waves = s.waves := (congrArg State.waves hrest :)
    refine ⟨_, exec_atomicAtHome_good hw hb hq hfree hk (any_false_of fun a ha => (hgood a ha).2) (any_false_of fun a ha => (hgood a ha).1),
      _, wave_setWave _ _ _, otherWaves_put _ _ _ _ (congrArg (fun t => tput t (wkey id) _) hwaves),
      congrArg (fun u : State => { u with waves := s.waves }) hrest, ⟨rfl, rfl, rfl⟩, rfl, rfl,
      fun hm hinj => ⟨fun a ha => ?_, fun hnone a => ?_, fun v hv hn hlen => ?_⟩⟩
    · show memByte (homeWrite s (atomBytes s op locs ty bv cv)) a = memByte s a
      unfold atomBytes
      split
      · exact memByte_homeWrite_other hm hinj _ ha
      · exact memByte_homeWrite_other (locs := []) hm hinj [] List.not_mem_nil
    · have hbytes : atomBytes s op locs ty bv cv = List.zip [] [] := by simp only [atomBytes]; rw [hnone]; rfl
      show memByte (homeWrite s (atomBytes s op locs ty bv cv)) a = memByte s a
      rw [hbytes, memByte_homeWrite_other hm hinj [] List.not_mem_nil]
    · have hbytes : atomBytes s op locs ty bv cv = locs.zip (leBytes v ty.size) := by simp only [atomBytes]; rw [hv]
      show locs.map (memByte (homeWrite s (atomBytes s op locs ty bv cv))) = _
      rw [hbytes, map_memByte_homeWrite hm hinj hn (by rw [hlen, leBytes_length])]
  · intro op locs ty scal dst bv cv hk
    refine ⟨fun ⟨a, ha, hlock⟩ => ?_, fun hlock ⟨a, ha, hbad⟩ => ?_⟩
    · exact hfails x.homePt (exec_atomicAtHome_locked hw hb hq hfree hk (List.any_eq_true.mpr ⟨a, ha, hlock⟩))
    · exact hfails x.homePt (exec_atomicAtHome_bad hw hb hq hfree hk (any_false_of hlock) (List.any_eq_true.mpr ⟨a, ha, hbad⟩))
  · intro dev a opc ty scal dst bv cv hk honly
    exact ⟨_, exec_atomicAtHome_far hw hb hq hfree hk honly, wave_setWave _ _ _, otherWaves_put _ _ _ _ rfl, rfl, sendFlit_ports rfl rfl _ _ _ _, rfl⟩
  · intro locs got ty dk dst hk u
    refine ⟨fun ⟨a, ha, hbad⟩ => hfails _ (exec_homeReadArrival_bad hw hb hq hfree hk (List.any_eq_true.mpr ⟨a, ha, hbad⟩)), fun hgood => ?_⟩
    have hgood := any_false_of hgood
    by_cases hlast : locs.drop u.length = []
    · exact ⟨_, exec_homeReadArrival_last hw hb hq hfree hk hgood hlast, _, wave_setWave _ _ _, otherWaves_put _ _ _ _ rfl, rfl, rfl,
        fun _ => ⟨rfl, rfl, rfl⟩, fun h => absurd hlast h⟩
    · exact ⟨_, exec_homeReadArrival_more hw hb hq hfree hk hgood hlast, _, wave_setWave _ _ _, otherWaves_put _ _ _ _ rfl, rfl, rfl,
        fun h => absurd h hlast, fun _ => ⟨rfl, rfl⟩⟩

end Sys2Proof.Machine
end

section
/-! PROOF. Page migration, the tracker and scrub errors (R174, R176, R182 to R184, R244). -/

namespace Sys2Proof.Machine

/-! ### The name of a place hangs on no report (R176) -/

section
variable (s : State) (x : List Mgmt) (m : Mapping)

theorem nodeAt_mgmt (lvl tbl ix : Nat) : nodeAt { s with mgmt := x } m lvl tbl ix = nodeAt s m lvl tbl ix := rfl

theorem walk_mgmt (va lvl tbl : Nat) : walk { s with mgmt := x } m va lvl tbl = walk s m va lvl tbl := by
  induction lvl generalizing tbl with
  | zero => rw [walk, walk, nodeAt_mgmt]
  | succ l ih =>
    rw [walk, walk, nodeAt_mgmt]
    simp only [ih]

theorem rawOf_mgmt (va : Nat) : m.rawOf { s with mgmt := x } va = m.rawOf s va := by
  simp only [Mapping.rawOf, walk_mgmt]

theorem tablePages_mgmt (place : Nat) : tablePages m { s with mgmt := x } place = tablePages m s place := by
  funext below lvl va tbl
  simp only [tablePages, nodeAt_mgmt]

theorem treePages_mgmt (place lvl : Nat) : treePages m { s with mgmt := x } place lvl = treePages m s place lvl := by
  induction lvl with
  | zero => rw [treePages, treePages, tablePages_mgmt]
  | succ l ih => rw [treePages, treePages, tablePages_mgmt, ih]

theorem nameOf_mgmt (p : Nat) : m.nameOf { s with mgmt := x } p = m.nameOf s p := by
  have hpages : ∀ place, m.pagesAt { s with mgmt := x } place = m.pagesAt s place := fun place => by
    simp only [Mapping.pagesAt, rangePages, rawOf_mgmt, treePages_mgmt]
  simp only [Mapping.nameOf, hpages]

end

/-! ### Units in error are told (R176) -/

/-- What the host is told of a unit: a device address that names it, or its place. -/
def unitReport (s : State) (place : Nat) : Mgmt :=
  match s.parts.findSome? (fun q => q.2.map.nameOf s place) with
  | some va => { kind := 3, a := 0, value := BitVec.ofNat 64 va }
  | none => { kind := 3, a := 1, value := BitVec.ofNat 64 place }

theorem unitReport_mgmt (s : State) (x : List Mgmt) (place : Nat) : unitReport { s with mgmt := x } place = unitReport s place := by
  simp only [unitReport, nameOf_mgmt]

theorem tellUnit_eq (s : State) (u : Nat) : tellUnit s u = { s with mgmt := unitReport s (32 * u) :: s.mgmt } := by
  simp only [tellUnit, unitReport]
  cases s.parts.findSome? (fun q => q.2.map.nameOf s (32 * u)) <;> rfl

theorem tellUnits_eq (us : List Nat) (s : State) :
    us.foldl tellUnit s = { s with mgmt := (us.map (fun u => unitReport s (32 * u))).reverse ++ s.mgmt } := by
  induction us generalizing s with
  | nil => rfl
  | cons u us ih => rw [List.foldl_cons, tellUnit_eq, ih]; simp [unitReport_mgmt]

/-! ### The copy of a line (R182) -/

/-- The units of a line that hold errors, as its bit is set. -/
def badOfLine (s : State) (g : Migration) (line : Nat) : List Nat :=
  ((List.range 4).map (fun i => 2048 * g.old + 4 * line + i)).filter (fun u => s.bad.contains u)

/-- A line whose bit is clear is carried, its bit set, and its errors told. -/
theorem copyLine_eq (s : State) (g : Migration) {line : Nat} (h : line ∉ g.done) :
    copyLine s g line =
      let t := { s with
        mem := tputs 0 s.mem (g.new_ * 65536 + 128 * line) (tgets 0 s.mem (g.old * 65536 + 128 * line) 128)
        migrations := s.migrations.map (fun h : Migration => if h.old = g.old then { h with done := insertNat line h.done } else h) }
      { t with mgmt := ((badOfLine s g line).map (fun u => unitReport t (32 * u))).reverse ++ s.mgmt } := by
  have h : g.done.contains line = false := by simpa using h
  unfold copyLine
  rw [h, if_neg Bool.false_ne_true]
  exact tellUnits_eq _ _

theorem mem_badOfLine {s : State} {g : Migration} {line j : Nat} (hj : j < 4) (hbad : 2048 * g.old + 4 * line + j ∈ s.bad) :
    2048 * g.old + 4 * line + j ∈ badOfLine s g line :=
  List.mem_filter.mpr ⟨List.mem_map_of_mem (f := fun i => 2048 * g.old + 4 * line + i) (List.mem_range.mpr hj), by simpa using hbad⟩

theorem badOfLine_nil {s : State} {g : Migration} {line : Nat} (h : ∀ j, j < 4 → 2048 * g.old + 4 * line + j ∉ s.bad) : badOfLine s g line = [] := by
  refine List.filter_eq_nil_iff.mpr fun u hu => ?_
  obtain ⟨j, hj, rfl⟩ := List.mem_map.mp hu
  simpa using h j (List.mem_range.mp hj)

/-- The line reads at its new place what stood at the old one. -/
theorem tget_copied (t : Tab Byte) (src dst n a : Nat) : tget 0 (tputs 0 t dst (tgets 0 t src n)) a =
    if dst ≤ a ∧ a < dst + n then tget 0 t (src + (a - dst)) else tget 0 t a := by
  rw [tget_tputs, show (tgets 0 t src n).length = n by simp [tgets]]
  split
  case isTrue h => simp [tgets, List.getD_eq_getElem?_getD, show a - dst < n by omega]
  case isFalse => rfl

/-- The migration of a page is found again with the line's bit set. -/
theorem find_setDone {ms : List Migration} {g : Migration} {page : Nat} (h : ms.find? (fun g => g.old == page) = some g) (line : Nat) :
    (ms.map (fun h => if h.old = g.old then { h with done := insertNat line h.done } else h)).find? (fun g => g.old == page) =
      some { g with done := insertNat line g.done } := by
  have hold : g.old = page := by simpa using List.find?_some h
  have hkeep : (fun h : Migration => h.old == page) ∘ (fun h => if h.old = g.old then { h with done := insertNat line h.done } else h) =
      fun h => h.old == page := by
    funext h
    show (Migration.old (if _ then _ else _) == page) = _
    split_ifs <;> rfl
  rw [List.find?_map, hkeep, h, Option.map_some, if_pos rfl]

/-! ### The switch of a page (R182) -/

theorem redir_at {s : State} {n p : Nat} (h : tfind s.moved n = some p ∨ tfind s.moved n = none ∧ n = p) {j : Nat} (hj : j < 65536) :
    redir s (n * 65536 + j) = p * 65536 + j := by
  have hdiv : (n * 65536 + j) / 65536 = n := by omega
  have hmod : (n * 65536 + j) % 65536 = j := by omega
  unfold redir
  rw [hdiv, hmod]
  rcases h with h | ⟨h, rfl⟩ <;> rw [h]

/-- A name put in a place, by no entry where the place is its own. -/
def putName (t : Tab Nat) (n p : Nat) : Tab Nat := if n = p then tdel t n else tput t n p

theorem tfind_putName_same (t : Tab Nat) (n p : Nat) : tfind (putName t n p) n = some p ∨ tfind (putName t n p) n = none ∧ n = p := by
  unfold putName
  split
  case isTrue h => exact Or.inr ⟨tfind_tdel_same t n, h⟩
  case isFalse => exact Or.inl (tfind_tput_same t n p)

theorem tfind_putName_other (t : Tab Nat) {n k : Nat} (p : Nat) (h : k ≠ n) : tfind (putName t n p) k = tfind t k := by
  unfold putName
  split
  · exact tfind_tdel_other t h
  · exact tfind_tput_other t p h

/-- The places of errors move with their data. -/
def movedBad (s : State) (g : Migration) : List Nat :=
  (s.bad.filter (fun u => u / 2048 == g.old)).foldl (fun bs u => insertNat (g.new_ * 2048 + u % 2048) bs)
    (s.bad.filter (fun u => u / 2048 != g.new_))

theorem mem_foldl_insertNat {ι : Type} (f : ι → Nat) (xs : List ι) (l : List Nat) {y : Nat} :
    y ∈ xs.foldl (fun l x => insertNat (f x) l) l ↔ y ∈ l ∨ ∃ x ∈ xs, f x = y := by
  induction xs generalizing l with
  | nil => simp
  | cons x xs ih => rw [List.foldl_cons, ih, mem_insertNat]; aesop

theorem mem_movedBad {s : State} {g : Migration} {i : Nat} (hi : i < 2048) (h : g.old * 2048 + i ∈ s.bad) : g.new_ * 2048 + i ∈ movedBad s g := by
  refine (mem_foldl_insertNat _ _ _).mpr (Or.inr ⟨_, List.mem_filter.mpr ⟨h, ?_⟩, ?_⟩)
  · simp; omega
  · omega

/-- A partition whose page another place takes over: its mappings name that place (R182). -/
def Part.switch (s : State) (old new_ : Nat) (q : Part) : Part :=
  { q with map := q.map.switch s old new_, heldMap := q.heldMap.map (fun m => m.freed.switch s old new_) }

/-- What the mappings are switched by: the state once the migration has ended. -/
def ended (s : State) (g : Migration) : State :=
  { s with migrations := s.migrations.filter (fun h => h.old != g.old), bad := movedBad s g }

/-- The names change, and the indirection table where the tracker moves the page. -/
theorem switchPage_hot {s : State} {g : Migration} (h : g.hot = true) : switchPage s g = { ended s g with
    hot := if 2 ^ 25 ≤ g.new_ then tdel s.hot g.new_ else tput s.hot g.old g.new_
    moved := putName (putName s.moved (pageAt s g.old) g.new_) (pageAt s g.new_) g.old } := by
  simp only [switchPage, h, if_true]
  rfl

/-- The names change, and every mapping. -/
theorem switchPage_cold {s : State} {g : Migration} (h : g.hot = false) : switchPage s g = { ended s g with
    parts := s.parts.map (fun q => (q.1, q.2.switch (ended s g) g.old g.new_))
    moved := putName (putName s.moved (pageAt s g.old) g.new_) (pageAt s g.new_) g.old } := by
  simp only [switchPage, h, Bool.false_eq_true, if_false]
  rfl

theorem tfind_map {α : Type} (f : α → α) (t : Tab α) (k : Nat) : tfind (t.map (fun q => (q.1, f q.2))) k = (tfind t k).map f := by
  induction t with
  | nil => rfl
  | cons q t ih =>
    simp only [List.map_cons, tfind]
    split
    · rfl
    · exact ih

theorem switched_switch {m : Mapping} {o : Nat × Nat × Nat} (h : o ∈ m.switched) (s : State) (old new_ : Nat) :
    (if o.2.2 / 16 = old then (o.1, o.2.1, 16 * new_ + o.2.2 % 16) else o) ∈ (m.switch s old new_).switched :=
  List.mem_append_left _ (List.mem_map_of_mem (f := fun o : Nat × Nat × Nat => if o.2.2 / 16 = old then (o.1, o.2.1, 16 * new_ + o.2.2 % 16) else o) h)

/-- Where the mappings are switched, every translation of a partition's mapping and of its held one takes the new place. -/
theorem part_switch_spec {s u t : State} {old new_ : Nat} (ht : t.parts = s.parts.map (fun q => (q.1, q.2.switch u old new_))) (p : Nat) :
    (t.part p).map.ranges = (s.part p).map.ranges ∧ (t.part p).map.ptroot = (s.part p).map.ptroot ∧
      (∀ o ∈ (s.part p).map.switched, (if o.2.2 / 16 = old then (o.1, o.2.1, 16 * new_ + o.2.2 % 16) else o) ∈ (t.part p).map.switched) ∧
      (∀ m, (s.part p).heldMap = some m → ∃ m', (t.part p).heldMap = some m' ∧ m'.ranges = m.ranges ∧ m'.ptroot = m.ptroot ∧ m'.held = [] ∧
        ∀ o ∈ m.switched, (if o.2.2 / 16 = old then (o.1, o.2.1, 16 * new_ + o.2.2 % 16) else o) ∈ m'.switched) := by
  have hpart : t.part p = ((tfind s.parts p).map (fun q => q.switch u old new_)).getD {} := by
    unfold State.part tget
    rw [ht, tfind_map]
  rw [hpart]
  unfold State.part tget
  cases tfind s.parts p
  case none => exact ⟨rfl, rfl, nofun, nofun⟩
  case some q =>
    refine ⟨rfl, rfl, fun o ho => switched_switch ho u old new_, fun m hm => ⟨m.freed.switch u old new_, ?_, rfl, rfl, rfl, fun o ho => ?_⟩⟩
    · exact congrArg (fun h : Option Mapping => h.map (fun m => m.freed.switch u old new_)) hm
    · exact switched_switch (m := m.freed) ho u old new_

/-- The bytes of the page stand at its new place, and other names stay. -/
theorem switched_names {s t : State} {g : Migration} (hne : pageAt s g.old ≠ pageAt s g.new_)
    (hmoved : t.moved = putName (putName s.moved (pageAt s g.old) g.new_) (pageAt s g.new_) g.old) (hmem : t.mem = s.mem) :
    (∀ j, j < 65536 → memByte t (pageAt s g.old * 65536 + j) = tget 0 s.mem (g.new_ * 65536 + j)) ∧
      ∀ n, n ≠ pageAt s g.old → n ≠ pageAt s g.new_ → tfind t.moved n = tfind s.moved n := by
  refine ⟨fun j hj => ?_, fun n hold hnew => ?_⟩
  · have hname := tfind_putName_same s.moved (pageAt s g.old) g.new_
    rw [← tfind_putName_other (putName s.moved (pageAt s g.old) g.new_) g.old hne, ← hmoved] at hname
    rw [memByte, redir_at hname hj, hmem]
  · rw [hmoved, tfind_putName_other _ _ hnew, tfind_putName_other _ _ hold]

/-! ### The hot-page tracker (R183, R184) -/

theorem insertRanked_perm (seed x : Nat) (l : List Nat) : (insertRanked seed x l).Perm (x :: l) := by
  induction l with
  | nil => rfl
  | cons y l ih =>
    unfold insertRanked
    split
    · rfl
    · exact (ih.cons y).trans (List.Perm.swap x y l)

theorem ranked_perm (seed : Nat) (l : List Nat) : (ranked seed l).Perm l := by
  induction l with
  | nil => rfl
  | cons x l ih => exact (insertRanked_perm seed x _).trans (ih.cons x)

section
variable (q : Part)

theorem insertCounted_perm (x : Nat × Nat) (l : List (Nat × Nat)) : (insertCounted q x l).Perm (x :: l) := by
  induction l with
  | nil => rfl
  | cons y l ih =>
    unfold insertCounted
    split
    · rfl
    · exact (ih.cons y).trans (List.Perm.swap x y l)

/-- Pages in rising order of their counts. -/
def countRises : List (Nat × Nat) → Prop := List.Pairwise (fun x y => tget 0 q.hotCount x.1 ≤ tget 0 q.hotCount y.1)

theorem countRises_insertCounted (x : Nat × Nat) {l : List (Nat × Nat)} (h : countRises q l) : countRises q (insertCounted q x l) := by
  induction l with
  | nil => exact List.pairwise_singleton _ _
  | cons y l ih =>
    obtain ⟨hy, hl⟩ := List.pairwise_cons.mp h
    unfold insertCounted
    split
    case isTrue hxy => exact List.pairwise_cons.mpr ⟨fun z hz => (List.mem_cons.mp hz).elim (fun e => e ▸ hxy) (fun hz => hxy.trans (hy z hz)), h⟩
    case isFalse hxy =>
      refine List.pairwise_cons.mpr ⟨fun z hz => ?_, ih hl⟩
      rcases List.mem_cons.mp ((insertCounted_perm q x l).mem_iff.mp hz) with rfl | hz
      · omega
      · exact hy z hz

/-- Those of a list, sorted by their counts. -/
def byCount (l : List (Nat × Nat)) : List (Nat × Nat) := l.foldr (insertCounted q) []

theorem byCount_perm (l : List (Nat × Nat)) : (byCount q l).Perm l := by
  induction l with
  | nil => rfl
  | cons x l ih => exact (insertCounted_perm q x _).trans (ih.cons x)

theorem countRises_byCount (l : List (Nat × Nat)) : countRises q (byCount q l) := by
  induction l with
  | nil => exact List.Pairwise.nil
  | cons x l ih => exact countRises_insertCounted q x ih

/-- One that is taken is counted no more often than one that is not. -/
theorem taken_le {l : List (Nat × Nat)} {n : Nat} {x y : Nat × Nat} (hx : x ∈ (byCount q l).take n) (hy : y ∈ l) (hn : y ∉ (byCount q l).take n) :
    tget 0 q.hotCount x.1 ≤ tget 0 q.hotCount y.1 := by
  have hsorted := countRises_byCount q l
  rw [countRises, ← List.take_append_drop n (byCount q l)] at hsorted
  have hy := (byCount_perm q l).mem_iff.mpr hy
  rw [← List.take_append_drop n (byCount q l)] at hy
  exact (List.pairwise_append.mp hsorted).2.2 x hx y ((List.mem_append.mp hy).resolve_left hn)

end

/-! ### The steps -/

section
variable (s : State) (part : Nat) (order : List Nat)

/-- The scan acts: the tracker is on, has counted enough, and the choice is one that the pool may serve. -/
def scanDue : Prop :=
  (s.part part).ctrl.getLsbD 2 = true ∧ 2 ^ 24 ≤ (s.part part).accesses ∧ hotChoice s (s.part part) order = true ∧
    order.length ≤ (freeFrames s (s.part part)).length + (heldHot s (s.part part)).length

/-- The pages that start back to their own place: of those that the pool holds and that do not move, the least counted. -/
def goingBack : List (Nat × Nat) :=
  (byCount (s.part part) ((heldHot s (s.part part)).filter (fun m => !moving s m.2))).take
    (order.length - (freeFrames s (s.part part)).length - ((heldHot s (s.part part)).filter (fun m => moving s m.2)).length)

/-- The frames that the chosen pages move into. -/
def framesTaken : List Nat := (ranked s.tick (freeFrames s (s.part part))).take order.length

theorem scan_idle (h : ¬ scanDue s part order) : exec (.hotPageScan part order) s = .next s := by
  refine if_pos (not_not.mp fun hno => h ?_)
  simpa [scanDue, and_assoc] using hno

variable {s part order} (h : scanDue s part order)
include h

theorem scan_busy : ¬ (!(s.part part).ctrl.getLsbD 2 || decide ((s.part part).accesses < 2 ^ 24) || !hotChoice s (s.part part) order ||
    decide ((freeFrames s (s.part part)).length + (heldHot s (s.part part)).length < order.length)) = true := by
  obtain ⟨hon, hcount, hchoice, hlen⟩ := h
  rw [hon, hchoice, decide_eq_false (Nat.not_lt.mpr hcount), decide_eq_false (Nat.not_lt.mpr hlen)]
  exact Bool.false_ne_true

theorem scan_back (hshort : (freeFrames s (s.part part)).length < order.length) : exec (.hotPageScan part order) s = .next { s with
    migrations := s.migrations ++
      (goingBack s part order).map (fun m => { old := m.2, new_ := m.1, done := [], part := part, hot := true }) } :=
  (if_neg (scan_busy h)).trans (if_pos hshort)

theorem scan_in (hfits : order.length ≤ (freeFrames s (s.part part)).length) : exec (.hotPageScan part order) s = .next
    { s.modPart part (fun q => { q with hotCount := [], accesses := 0 }) with
      migrations := s.migrations ++
        (order.zip (framesTaken s part order)).map (fun p => { old := p.1, new_ := p.2, done := [], part := part, hot := true }) } :=
  (if_neg (scan_busy h)).trans (if_neg (Nat.not_lt.mpr hfits))

end

section
variable {s : State} {page : Nat} {g : Migration} (hg : s.migrations.find? (fun g => g.old == page) = some g)
include hg

theorem exec_migrationLineCopy {i : Nat} (hi : (List.range 512).find? (fun i => !g.done.contains i) = some i) :
    exec (.migrationLineCopy page) s = .next (copyLine s g i) := by
  show execMigrationLineCopy page s = _
  simp only [execMigrationLineCopy, hg, hi]

theorem exec_migrationLineCopy_done (h : ∀ i, i < 512 → i ∈ g.done) : exec (.migrationLineCopy page) s = .next s := by
  have hi : (List.range 512).find? (fun i => !g.done.contains i) = none := by simpa using h
  show execMigrationLineCopy page s = _
  simp only [execMigrationLineCopy, hg, hi]

theorem exec_migrationSwitch (h : ∀ i, i < 512 → i ∈ g.done) : exec (.migrationSwitch page) s = .next (switchPage s g) := by
  have hall : (List.range 512).all (fun i => g.done.contains i) = true := by simpa using h
  show execMigrationSwitch page s = _
  simp only [execMigrationSwitch, hg, hall, if_true]

theorem exec_migrationSwitch_early {i : Nat} (hi : i < 512) (h : i ∉ g.done) : exec (.migrationSwitch page) s = .next s := by
  have hall : (List.range 512).all (fun i => g.done.contains i) = false := by
    simp only [List.all_eq_false, List.mem_range, List.contains_iff_mem]
    exact ⟨i, hi, h⟩
  show execMigrationSwitch page s = _
  simp only [execMigrationSwitch, hg, hall, Bool.false_eq_true, if_false]

end

/-- Settles O52: a line copy and the switch are each one equation of the state; the scan takes the least-counted pages of a sorted list. -/
theorem pagingSteps : Obligations.PagingSteps := by
  unfold Obligations.PagingSteps
  intro s page part
  refine ⟨?_, ?_, ?_, ?_, ?_, ?_, ?_⟩
  · intro g loc hg hnew hlock
    refine Bool.or_eq_true_iff.mpr (Or.inr (List.any_eq_true.mpr ⟨g, hg, ?_⟩))
    simp [hnew, hlock]
  · intro target
    have hmay : (absentPage page || moving s page || indirect s page || !openPage s target || page == target) = true ↔
        ¬ (absentPage page = false ∧ moving s page = false ∧ indirect s page = false ∧ openPage s target = true ∧ page ≠ target) := by
      cases absentPage page <;> cases moving s page <;> cases indirect s page <;> cases openPage s target <;> simp
    exact ⟨fun h => congrArg Host.Outcome.next (if_neg (fun hno => hmay.mp hno h)), fun h => congrArg Host.Outcome.next (if_pos (hmay.mpr h))⟩
  · intro g hg
    have hold : g.old = page := by simpa using List.find?_some hg
    refine ⟨fun i hi => ?_, fun hdone => ⟨exec_migrationLineCopy_done hg hdone, fun hne => ?_⟩, fun i hi h => exec_migrationSwitch_early hg hi h⟩
    · have hclear : i ∉ g.done := by simpa using List.find?_some hi
      refine ⟨_, exec_migrationLineCopy hg hi, ?_⟩
      rw [copyLine_eq s g hclear]
      refine ⟨fun a => tget_copied _ _ _ _ _, find_setDone hg i, fun j hj hbad => ?_, fun hgood => ?_, rfl⟩
      · have hplace : 32 * (2048 * g.old + 4 * i + j) = 65536 * g.old + 128 * i + 32 * j := by omega
        refine List.mem_append_left _ (List.mem_reverse.mpr (List.mem_map.mpr ⟨_, mem_badOfLine hj hbad, ?_⟩))
        rw [hplace]
        rfl
      · rw [badOfLine_nil hgood]
        rfl
    · have hends : ∀ h ∈ s.migrations.filter (fun h => h.old != g.old), h.old ≠ page := fun h hh => by simpa [hold] using (List.mem_filter.mp hh).2
      cases hhot : g.hot
      · obtain ⟨hplace, hother⟩ := switched_names (t := switchPage s g) hne (by rw [switchPage_cold hhot]) (switchPage_mem s g)
        refine ⟨_, exec_migrationSwitch hg hdone, ?_⟩
        rw [switchPage_cold hhot] at hplace hother ⊢
        exact ⟨hplace, hother, hends, fun i hi => mem_movedBad hi, fun _ => ⟨rfl, fun p => part_switch_spec rfl p⟩, nofun, rfl⟩
      · obtain ⟨hplace, hother⟩ := switched_names (t := switchPage s g) hne (by rw [switchPage_hot hhot]) (switchPage_mem s g)
        refine ⟨_, exec_migrationSwitch hg hdone, ?_⟩
        rw [switchPage_hot hhot] at hplace hother ⊢
        exact ⟨hplace, hother, hends, fun i hi => mem_movedBad hi, nofun, fun _ => ⟨rfl, fun h => if_pos h, fun h => if_neg (Nat.not_le.mpr h)⟩, rfl⟩
  · intro hnone
    constructor
    · show execMigrationLineCopy page s = _
      simp only [execMigrationLineCopy, hnone]
    · show execMigrationSwitch page s = _
      simp only [execMigrationSwitch, hnone]
  · intro order q held free due
    refine ⟨fun h => scan_idle s part order h, fun h hfits => ?_, fun h hshort => ?_⟩
    · have hlen : order.length ≤ (framesTaken s part order).length := by
        rw [framesTaken, List.length_take, (ranked_perm s.tick _).length_eq]
        exact le_min le_rfl hfits
      refine ⟨_, scan_in h hfits, tget_tput_same _ _ _ _, ⟨_, rfl, ?_, fun m hm => ?_⟩, rfl⟩
      · rw [List.map_map]
        exact List.map_fst_zip hlen
      · obtain ⟨p, hp, rfl⟩ := List.mem_map.mp hm
        exact ⟨(ranked_perm s.tick free).mem_iff.mp (List.mem_of_mem_take (List.of_mem_zip hp).2), rfl, rfl, rfl⟩
    · refine ⟨_, scan_back h hshort, rfl, _, rfl, ?_, fun m hm => ?_⟩
      · rw [List.length_map, goingBack, List.length_take, (byCount_perm q _).length_eq, Nat.min_comm]
      · obtain ⟨x, hx, rfl⟩ := List.mem_map.mp hm
        obtain ⟨hheld, hstill⟩ := List.mem_filter.mp ((byCount_perm q _).mem_iff.mp (List.mem_of_mem_take hx))
        refine ⟨hheld, by simpa using hstill, rfl, rfl, rfl, fun y hy hymoves hout => ?_⟩
        refine taken_le q hx (List.mem_filter.mpr ⟨hy, by simp [hymoves]⟩) fun hin => ?_
        exact hout _ (List.mem_map_of_mem hin) rfl
  · intro unit addr
    by_cases h : unitAt s part addr = some unit
    · refine ⟨_, congrArg Host.Outcome.next (if_pos h), fun u => mem_insertNat, ?_, rfl⟩
      rw [if_pos h]
      rfl
    · refine ⟨_, congrArg Host.Outcome.next (if_neg h), fun u => mem_insertNat, ?_, rfl⟩
      rw [if_neg h]
      rfl
  · intro stack addr
    refine ⟨fun h => congrArg Host.Outcome.next (if_neg (Nat.not_lt.mpr h)), fun h => ?_⟩
    exact ⟨_, congrArg Host.Outcome.next (if_pos h), tget_tput_same _ _ _ _, fun k hk => tget_tput_other _ _ _ hk, rfl, rfl⟩

end Sys2Proof.Machine
end

section
/-! PROOF. The registers of host and board (R178, R181, R285, R286, R369, R376, R377, R379, R380, R382). -/

namespace Sys2Proof.Machine

/-! ### A partition changed -/

@[simp] theorem part_modPart (s : State) (p : Nat) (f : Part → Part) : (s.modPart p f).part p = f (s.part p) := tget_tput_same _ _ _ _

theorem part_modPart_other (s : State) {p j : Nat} (f : Part → Part) (h : j ≠ p) : (s.modPart p f).part j = s.part j := tget_tput_other _ _ _ h

@[simp] theorem modPart_modPart (s : State) (p : Nat) (f g : Part → Part) : (s.modPart p f).modPart p g = s.modPart p (fun q => g (f q)) := by
  simp [State.modPart, State.part, tput_tput_same]

theorem modPart_gen_modPart (s : State) (p : Nat) (f g : Part → Part) (n : Nat) :
    State.modPart { s.modPart p f with gen := n } p g = { s.modPart p (fun q => g (f q)) with gen := n } := by
  simp [State.modPart, State.part, tput_tput_same]

theorem part_modPart_gen (s : State) (p : Nat) (f : Part → Part) (n : Nat) : State.part { s.modPart p f with gen := n } p = f (s.part p) :=
  part_modPart s p f

theorem hasLaunches_iff (s : State) (p : Nat) : hasLaunches s p = true ↔ ∃ x ∈ s.launches, x.2.offer.part = p := by simp [hasLaunches]

theorem hasLaunches_false_iff (s : State) (p : Nat) : hasLaunches s p = false ↔ ¬ ∃ x ∈ s.launches, x.2.offer.part = p := by
  rw [← hasLaunches_iff, Bool.not_eq_true]

/-! ### Pages of the tracker go back (R184) -/

/-- `t` with the bytes by their places, and the reports of errors, of `s`. -/
def placesOf (s t : State) : State :=
  { t with mem := s.mem, migrations := s.migrations, mgmt := s.mgmt, bad := s.bad, hot := s.hot, moved := s.moved }

/-- What the tracker's moves leave: everything else. -/
def keepsAllButPlaces (s t : State) : Prop := placesOf s t = s

theorem keepsAllButPlaces.trans {s t u : State} (hst : keepsAllButPlaces s t) (htu : keepsAllButPlaces t u) : keepsAllButPlaces s u := by
  have h : placesOf s (placesOf t u) = placesOf s t := congrArg (placesOf s) htu
  exact h.trans hst

theorem copyLine_keeps (s : State) (g : Migration) (line : Nat) : keepsAllButPlaces s (copyLine s g line) := by
  have h := congrArg (placesOf s) (copyLine_rest s g line)
  exact h

theorem switchPage_keeps {g : Migration} (h : g.hot = true) (s : State) : keepsAllButPlaces s (switchPage s g) := by
  rw [switchPage_hot h]
  rfl

theorem migrateWhole_keeps {g : Migration} (h : g.hot = true) (s : State) : keepsAllButPlaces s (migrateWhole s g) := by
  refine keepsAllButPlaces.trans ?_ (switchPage_keeps h _)
  exact List.foldlRecOn (motive := keepsAllButPlaces s) _ _ rfl fun t ht i _ => ht.trans (copyLine_keeps t g i)

theorem returnHot_keeps (s : State) (p : Nat) : keepsAllButPlaces s (returnHot s p) :=
  List.foldlRecOn (motive := keepsAllButPlaces s) _ _ rfl fun t ht _ _ => ht.trans (migrateWhole_keeps rfl t)

/-! ### The ring (R379) -/

theorem ringAdmits_pow {k : Nat} (h1 : 1 ≤ k) (h2 : k ≤ 12) :
    ringAdmits false (BitVec.ofNat 64 (2 ^ k)) = true ∧ (BitVec.ofNat 64 (2 ^ k)).setWidth 32 = BitVec.ofNat 32 (2 ^ k) := by
  interval_cases k <;> decide

section
variable {s : State} {p : Nat}

theorem tailWrite_within {v : BitVec 32} (h : ((s.part p).head - v).toNat ≤ ((s.part p).head - (s.part p).tail).toNat) :
    tailWrite s p v = s.modPart p (fun q => { q with tail := v, status := 0 }) := by
  simp only [tailWrite, h, if_true]

theorem tailWrite_beyond {v : BitVec 32} (h : ((s.part p).head - (s.part p).tail).toNat < ((s.part p).head - v).toNat) :
    tailWrite s p v = s.modPart p (fun q => { q with status := 2 }) := by
  simp only [tailWrite, Nat.not_le.mpr h, if_false]

theorem ringSet_busy (isBase : Bool) (v : BitVec 64) (h : (s.part p).head ≠ (s.part p).tail ∨ hasLaunches s p = true) :
    ringSet s p isBase v = setStatus s p stBUSY := by
  refine if_pos ?_
  rcases h with h | h <;> simp [h]

variable (hempty : (s.part p).head = (s.part p).tail) (hl : hasLaunches s p = false)
include hempty hl

theorem ringSet_idle (isBase : Bool) (v : BitVec 64) : ringSet s p isBase v =
    if !ringAdmits isBase v then setStatus s p stREFUSED
    else setStatus (s.modPart p (fun q =>
      if isBase then { q with ringbase := v, head := 0, tail := 0 } else { q with ringslots := v.setWidth 32, head := 0, tail := 0 })) p stOK :=
  if_neg (by simp [hempty, hl])

end

/-! ### Configuration (R369) -/

section
variable {s : State} {p reg : Nat} {v : BitVec 64}

theorem configWrite_busy (h : hasLaunches s p = true) : configWrite s p reg v = setStatus s p stBUSY := if_pos h

theorem configWrite_refused (h : hasLaunches s p = false) (hc : configured s p reg v = none) : configWrite s p reg v = setStatus s p stREFUSED := by
  simp only [configWrite, h, hc, Bool.false_eq_true, if_false]

/-- What the write changes of the partition. -/
def Part.reconfigured (q q' : Part) : Part :=
  { q with ctrl := q'.ctrl, clusters := q'.clusters, quota := q'.quota, hotbase := q'.hotbase, hotcount := q'.hotcount, status := 0 }

/-- It moves the generation exactly where it changes what an accepted offer hangs on. -/
def Part.movesFrom (q' q : Part) : Bool :=
  q'.clusters != q.clusters || q'.quota != q.quota || q'.ctrl.extractLsb' 1 2 != q.ctrl.extractLsb' 1 2 || q'.hotbase != q.hotbase ||
    q'.hotcount != q.hotcount

/-- The pages that a pool holds may go back first. -/
theorem configWrite_done {q' : Part} (h : hasLaunches s p = false) (hc : configured s p reg v = some q') :
    ∃ u, keepsAllButPlaces s u ∧ configWrite s p reg v =
      { u.modPart p (fun x => x.reconfigured q') with gen := if q'.movesFrom (s.part p) then u.gen + 1 else u.gen } := by
  refine ⟨if ((s.part p).ctrl.getLsbD 2 && !q'.ctrl.getLsbD 2) || q'.hotbase != (s.part p).hotbase || q'.hotcount != (s.part p).hotcount
    then returnHot s p else s, ?_, ?_⟩
  · split
    · exact returnHot_keeps s p
    · rfl
  · unfold configWrite
    simp only [h, hc, Bool.false_eq_true, if_false]
    cases hm : q'.movesFrom (s.part p) <;> simp only [Part.movesFrom] at hm <;> simp only [hm, setStatus, Bool.false_eq_true, if_false, if_true]
    · exact modPart_modPart _ p _ _
    · exact modPart_gen_modPart _ p _ _ _

end

/-! ### Mappings committed (R178, R181) -/

section
variable {s : State} {p : Nat} {force : Bool}

theorem applyMap_kept (s : State) (p : Nat) (m : Mapping) :
    applyMap s p m false = s.modPart p (fun q => { q with map := m.prune s, heldMap := none }) := rfl

theorem applyMap_breaking (s : State) (p : Nat) (m : Mapping) : applyMap s p m true =
    { s.modPart p (fun q => { q with map := ({ m with held := [] } : Mapping).prune s, heldMap := none }) with gen := s.gen + 1 } := rfl

/-- A partition with a mapping in force, nothing held. -/
def Part.mapped (q : Part) (m : Mapping) : Part := { q with map := m, heldMap := none, status := 0 }

/-- The staged mapping as a breaking change: the bytes of page tables that were held are in force. -/
def Part.fresh (q : Part) : Mapping := { q.next with held := [] }

theorem status_applyMap_kept (s : State) (p : Nat) (m : Mapping) :
    setStatus (applyMap s p m false) p stOK = s.modPart p (fun q => q.mapped (m.prune s)) := by
  rw [setStatus, applyMap_kept, modPart_modPart]
  rfl

theorem status_applyMap_breaking (s : State) (p : Nat) (m : Mapping) : setStatus (applyMap s p m true) p stOK =
    { s.modPart p (fun q => q.mapped (({ m with held := [] } : Mapping).prune s)) with gen := s.gen + 1 } := by
  rw [setStatus, applyMap_breaking, modPart_gen_modPart]
  rfl

theorem commit_reserved (h : (s.part p).staged.ok = false) : commit s p force = setStatus s p stRESERVED := by
  simp only [commit, h, Bool.not_false, if_true]

variable (hok : (s.part p).staged.ok = true)
include hok

theorem commit_added (hadd : isAddition s p (s.part p).map (s.part p).next = true) (hf : force = false ∨ (s.part p).map.held = []) :
    commit s p force = s.modPart p (fun q => q.mapped ((s.part p).next.prune s)) := by
  have hnot : (force && !(s.part p).map.held.isEmpty) = false := by rcases hf with rfl | h <;> simp_all
  simp only [commit, hok, hadd, hnot, Bool.not_true, Bool.not_false, Bool.and_self, Bool.false_eq_true, if_false, if_true]
  exact status_applyMap_kept s p _

variable (hbreak : isAddition s p (s.part p).map (s.part p).next = false ∨ force = true ∧ (s.part p).map.held ≠ [])
include hbreak

theorem commit_breaking : commit s p force =
    if !hasLaunches s p then setStatus (applyMap s p (s.part p).next true) p stOK
    else if force then setStatus (applyMap (discardPart s p) p (s.part p).next true) p stOK
    else setStatus (s.modPart p (fun q => { q with heldMap := some q.next })) p stHELD := by
  have hnot : (isAddition s p (s.part p).map (s.part p).next && !(force && !(s.part p).map.held.isEmpty)) = false := by
    rcases hbreak with h | ⟨rfl, h⟩
    · rw [h, Bool.false_and]
    · simp [h]
  unfold commit
  simp only [hok, hnot, Bool.not_true, Bool.false_eq_true, if_false]

theorem commit_idle (hl : hasLaunches s p = false) :
    commit s p force = { s.modPart p (fun q => q.mapped ((s.part p).fresh.prune s)) with gen := s.gen + 1 } := by
  rw [commit_breaking hok hbreak, hl]
  exact (if_pos rfl).trans (status_applyMap_breaking s p _)

/-- FORCE ends the launches first. -/
theorem commit_forced (hl : hasLaunches s p = true) (hf : force = true) : commit s p force =
    { (discardPart s p).modPart p (fun q => q.mapped ((s.part p).fresh.prune (discardPart s p))) with gen := (discardPart s p).gen + 1 } := by
  rw [commit_breaking hok hbreak, hl, if_neg (by decide), if_pos hf]
  exact status_applyMap_breaking (discardPart s p) p _

theorem commit_waits (hl : hasLaunches s p = true) (hf : force = false) :
    commit s p force = s.modPart p (fun q => { q with heldMap := some q.next, status := 4 }) := by
  rw [commit_breaking hok hbreak, hl, if_neg (by decide), if_neg (by simp [hf]), setStatus, modPart_modPart]
  rfl

end

/-! ### Energy granted (R285, R286) -/

/-- The bytes of a grant command to a partition's balance. -/
def grantCmd (p amount low : Nat) : List Byte := leBytes p 1 ++ leBytes 0 7 ++ leBytes amount 8 ++ leBytes low 8 ++ leBytes 0 8

/-- A field of a run of bytes reads back from its place. -/
theorem ofLeBytes_field {bs : List Byte} {o n k : Nat} (pre suf : List Byte) (h : bs = pre ++ leBytes n k ++ suf) (ho : pre.length = o)
    (hn : n < 256 ^ k) : ofLeBytes ((bs.drop o).take k) = n := by
  rw [h, ← ho, List.append_assoc, List.drop_left, List.take_append_of_le_length (by simp), List.take_of_length_le (by simp), ofLeBytes_leBytes,
    Nat.mod_eq_of_lt hn]

theorem grantCmd_fields {p amount low : Nat} (hp : p < 16) (ha : amount ≤ 2 ^ 62) (hlow : low < 2 ^ 64) :
    let n (o k : Nat) := ofLeBytes (((grantCmd p amount low).drop o).take k)
    (grantCmd p amount low).length = 32 ∧ n 0 1 = p ∧ n 1 7 = 0 ∧ n 8 8 = amount ∧ n 16 8 = low ∧ n 24 8 = 0 := by
  let a := leBytes p 1
  let b := leBytes 0 7
  let c := leBytes amount 8
  let d := leBytes low 8
  let e := leBytes 0 8
  refine ⟨by simp [grantCmd], ofLeBytes_field [] (b ++ c ++ d ++ e) ?_ rfl (by omega), ofLeBytes_field a (c ++ d ++ e) ?_ ?_ (by omega),
    ofLeBytes_field (a ++ b) (d ++ e) ?_ ?_ (by omega), ofLeBytes_field (a ++ b ++ c) e ?_ ?_ (by omega),
    ofLeBytes_field (a ++ b ++ c ++ d) [] ?_ ?_ (by omega)⟩ <;> simp [grantCmd, a, b, c, d, e]

theorem grant_balance {s : State} {p amount low : Nat} (hp : p < 16) (ha : amount ≤ 2 ^ 62) (hlow : low < 2 ^ 64) {via : GrantVia}
    (hvia : via ≠ .virtualFunction) : grant s via (grantCmd p amount low) =
      if balMax < (s.part p).balance + amount then (s, 2)
      else
        let s := if low = 2 ^ 64 - 1 then s else s.modPart p (fun q => { q with lowmark := BitVec.ofNat 64 low })
        (setBalance s p ((s.part p).balance + amount), 1) := by
  obtain ⟨hlen, htgt, hrsv, hamount, hlowf, hrsv2⟩ := grantCmd_fields hp ha hlow
  have h255 : p ≠ 255 := by omega
  unfold grant
  simp only [hlen, htgt, hrsv, hamount, hlowf, hrsv2]
  rw [if_neg (by simpa [hvia, hp] using ha), if_neg h255]

theorem setBalance_spec (s : State) (p : Nat) (b : Int) : ((setBalance s p b).part p).balance = b ∧
    ((setBalance s p b).part p).lowmark = (s.part p).lowmark ∧ { setBalance s p b with parts := s.parts } = s := by
  unfold setBalance
  simp only
  split <;> simp [raiseIrq]

theorem grant_overflow {s : State} {p amount low : Nat} (hp : p < 16) (ha : amount ≤ 2 ^ 62) (hlow : low < 2 ^ 64) {via : GrantVia}
    (hvia : via ≠ .virtualFunction) (hover : 2 ^ 62 < (s.part p).balance + amount) : grant s via (grantCmd p amount low) = (s, 2) := by
  rw [grant_balance hp ha hlow hvia]
  exact if_pos hover

/-- A grant that fits joins the balance; a LOWMARK of all ones leaves the one that stands. -/
theorem grant_granted {s : State} {p amount low : Nat} (hp : p < 16) (ha : amount ≤ 2 ^ 62) (hlow : low < 2 ^ 64) {via : GrantVia}
    (hvia : via ≠ .virtualFunction) (hfits : (s.part p).balance + amount ≤ 2 ^ 62) :
    ∃ t, grant s via (grantCmd p amount low) = (t, 1) ∧ (t.part p).balance = (s.part p).balance + amount ∧
      (t.part p).lowmark = (if low = 2 ^ 64 - 1 then (s.part p).lowmark else BitVec.ofNat 64 low) ∧ { t with parts := s.parts } = s := by
  rw [grant_balance hp ha hlow hvia, if_neg (show ¬ balMax < _ from not_lt.mpr hfits)]
  by_cases hkeep : low = 2 ^ 64 - 1
  · simp only [hkeep, if_true]
    obtain ⟨hbal, hlowmark, hrest⟩ := setBalance_spec s p ((s.part p).balance + amount)
    exact ⟨_, rfl, hbal, hlowmark, hrest⟩
  · simp only [hkeep, if_false]
    obtain ⟨hbal, hlowmark, hrest⟩ := setBalance_spec (s.modPart p (fun q => { q with lowmark := BitVec.ofNat 64 low })) p
      (((s.modPart p (fun q => { q with lowmark := BitVec.ofNat 64 low })).part p).balance + amount)
    rw [part_modPart] at hbal hlowmark hrest ⊢
    exact ⟨_, rfl, hbal, hlowmark, congrArg (fun u : State => { u with parts := s.parts }) hrest⟩

section
variable {s t : State} {cmd : List Byte} {n : Nat}

theorem energyGrant_physical (h : grant s .physicalFunction cmd = (t, n)) :
    exec (.energyGrant .physicalFunction cmd) s = .next { t with grantStat := n, grants := t.grants + 1 } := by
  show execEnergyGrant .physicalFunction cmd s = _
  simp only [execEnergyGrant, h]

theorem energyGrant_board (h : grant s .board cmd = (t, n)) :
    exec (.energyGrant .board cmd) s = .next { t with mgmt := { kind := 1, a := n, value := 0 } :: t.mgmt } := by
  show execEnergyGrant .board cmd s = _
  simp only [execEnergyGrant, h]

theorem energyGrant_virtual (s : State) (cmd : List Byte) : exec (.energyGrant .virtualFunction cmd) s = .next { s with vfGrant := 3 } := by
  have h : grant s .virtualFunction cmd = (s, 3) := by
    unfold grant
    exact if_pos (by simp)
  show execEnergyGrant .virtualFunction cmd s = _
  simp only [execEnergyGrant, h]

end

/-! ### The doorbell (R377) -/

/-- The byte of a request window once `data` is written from byte `o` of it. -/
theorem tgets_window (t : Tab Byte) (w o : Nat) (data : List Byte) {j : Nat} (hj : j < 64) :
    (tgets 0 (tputs 0 t (64 * w + o) data) (64 * w) 64)[j]? =
      some (if o ≤ j ∧ j < o + data.length then data.getD (j - o) 0 else tget 0 t (64 * w + j)) := by
  have hrange : (64 * w + o ≤ 64 * w + j ∧ 64 * w + j < 64 * w + o + data.length) ↔ (o ≤ j ∧ j < o + data.length) := by omega
  have hsub : 64 * w + j - (64 * w + o) = j - o := by omega
  simp only [tgets, List.getElem?_map, List.getElem?_range hj, Option.map_some, tget_tputs, hrange, hsub]

theorem vfWrite_doorbell (s : State) (p : Nat) {w o : Nat} {data : List Byte} (hw : w < 16) (ho : o ≤ 7) (hlast : 7 < o + data.length) :
    vfWrite s p (64 * w + o) data = s.modPart p (fun q => { q with
      win := tputs 0 q.win (64 * w + o) data
      bells := q.bells ++ [{ win := w, bytes := tgets 0 (tputs 0 q.win (64 * w + o) data) (64 * w) 64, inReset := q.resetting, hpt := s.hpt }] }) := by
  have hdiv : (64 * w + o) / 64 = w := by omega
  have hmod : (64 * w + o) % 64 = o := by omega
  unfold vfWrite
  rw [if_pos (by omega), hdiv, hmod]
  simp only [ho, hlast, decide_true, Bool.and_self, if_true]
  exact modPart_modPart _ _ _ _

/-! ### Routes (R382) -/

theorem retryRoutes_rest (s : State) : { retryRoutes s with ports := s.ports } = s :=
  List.foldlRecOn (motive := fun t : State => { t with ports := s.ports } = s) _ _ rfl fun t ht f _ => by
    rw [← ht]
    rfl

/-! ### Register reads (R376, R379, R380) -/

section
variable {rs : List (Nat × List Byte)}

/-- Registers in rising order, none reaching into the next. -/
def regsApart (rs : List (Nat × List Byte)) : Prop := rs.Pairwise (fun x y => x.1 + x.2.length ≤ y.1)

/-- A byte of a register reads from the one register that holds it. -/
theorem regByte_of_mem (h : regsApart rs) {o : Nat} {bs : List Byte} (hm : (o, bs) ∈ rs) {i : Nat} (hi : i < bs.length) :
    regByte rs (o + i) = bs.getD i 0 := by
  induction rs with
  | nil => exact absurd hm List.not_mem_nil
  | cons r rs ih =>
    obtain ⟨hr, hrs⟩ := List.pairwise_cons.mp h
    unfold regByte
    rcases List.mem_cons.mp hm with rfl | hm
    · simp [hi]
    · have hbeyond : ¬ (r.1 ≤ o + i ∧ o + i < r.1 + r.2.length) := fun hin => by have := hr _ hm; simp at this; omega
      rw [List.findSome?_cons, if_neg (by simpa using hbeyond)]
      exact ih hrs hm

/-- A byte of no register reads 0. -/
theorem regByte_reserved {a : Nat} (h : ∀ r ∈ rs, a < r.1 ∨ r.1 + r.2.length ≤ a) : regByte rs a = 0 := by
  unfold regByte
  rw [List.findSome?_eq_none_iff.mpr fun r hr => if_neg (by have := h r hr; simp; omega)]
  rfl

end

theorem rangeBytes_length (e : RangeEnt) : e.bytes.length = 32 := by simp [RangeEnt.bytes, fields]
theorem hwinBytes_length (h : HWin) : h.bytes.length = 32 := by simp [HWin.bytes, fields]

/-- Registers of 32 bytes each, one after another. -/
theorem regsApart_table (base n : Nat) {f : Nat → List Byte} (hf : ∀ e, (f e).length = 32) :
    regsApart ((List.range n).map (fun e => (base + 32 * e, f e))) :=
  List.pairwise_map.mpr (List.pairwise_lt_range.imp fun h => by rw [hf]; omega)

/-- The registers of a configuration block before its tables. -/
def fixedRegs (q : Part) : List (Nat × List Byte) :=
  [(0x00, leBytes q.ctrl.toNat 8), (0x08, leBytes q.clusters.toNat 4), (0x0C, leBytes q.quota.toNat 4),
   (0x10, leBytes q.staged.ptroot.toNat 8), (0x18, leBytes q.hotbase.toNat 8), (0x20, leBytes q.hotcount.toNat 4),
   (0x28, leBytes (BitVec.ofInt 64 q.balance).toNat 8), (0x30, leBytes q.lowmark.toNat 8), (0x38, leBytes (statusWord q) 8)]

def rangeRegs (q : Part) : List (Nat × List Byte) := (List.range 64).map (fun e => (0x800 + 32 * e, (tget {} q.staged.ranges e).bytes))
def hwinRegs (q : Part) : List (Nat × List Byte) := (List.range 16).map (fun w => (0x1000 + 32 * w, (tget {} q.staged.hwins w).bytes))

theorem blockRegs_eq (q : Part) : blockRegs q = fixedRegs q ++ rangeRegs q ++ hwinRegs q := rfl

theorem fixedRegs_end (q : Part) : ∀ r ∈ fixedRegs q, r.1 + r.2.length ≤ 0x40 := by simp [fixedRegs]

theorem rangeRegs_bounds (q : Part) : ∀ r ∈ rangeRegs q, 0x800 ≤ r.1 ∧ r.1 + r.2.length ≤ 0x1000 := fun r hr => by
  obtain ⟨e, he, rfl⟩ := List.mem_map.mp hr
  have he := List.mem_range.mp he
  show 0x800 ≤ 0x800 + 32 * e ∧ 0x800 + 32 * e + (tget {} q.staged.ranges e).bytes.length ≤ 0x1000
  rw [rangeBytes_length]
  omega

theorem hwinRegs_start (q : Part) : ∀ r ∈ hwinRegs q, 0x1000 ≤ r.1 := fun r hr => by
  obtain ⟨w, -, rfl⟩ := List.mem_map.mp hr
  exact Nat.le_add_right _ _

theorem regsApart_blockRegs (q : Part) : regsApart (blockRegs q) := by
  rw [blockRegs_eq]
  refine List.pairwise_append.mpr ⟨List.pairwise_append.mpr ⟨by simp [fixedRegs], regsApart_table 0x800 64 fun e => rangeBytes_length _, ?_⟩,
    regsApart_table 0x1000 16 fun w => hwinBytes_length _, ?_⟩
  · intro x hx y hy
    have := fixedRegs_end q x hx
    have := rangeRegs_bounds q y hy
    omega
  · intro x hx y hy
    have := hwinRegs_start q y hy
    rcases List.mem_append.mp hx with hx | hx
    · have := fixedRegs_end q x hx
      omega
    · have := rangeRegs_bounds q x hx
      omega

/-- COMMIT and RESET read 0. -/
theorem blockRegs_reserved (q : Part) {a : Nat} (h : 0x40 ≤ a) (h2 : a < 0x800) : regByte (blockRegs q) a = 0 := by
  rw [blockRegs_eq]
  refine regByte_reserved fun r hr => ?_
  simp only [List.mem_append] at hr
  rcases hr with (hr | hr) | hr
  · have := fixedRegs_end q r hr
    omega
  · have := rangeRegs_bounds q r hr
    omega
  · have := hwinRegs_start q r hr
    omega

theorem regsApart_deviceRegs (s : State) : regsApart (deviceRegs s) := by
  simp [regsApart, deviceRegs, tgets]

theorem regsApart_vfRegs (q : Part) : regsApart (vfRegs q) := by
  simp [regsApart, vfRegs, tgets]

theorem vfRegs_end (q : Part) : ∀ r ∈ vfRegs q, r.1 + r.2.length ≤ 0x1014 := by simp [vfRegs, tgets]

theorem rangeBytes_eq (e : RangeEnt) : e.bytes = leBytes e.w0.toNat 8 ++ leBytes e.w1.toNat 8 ++ leBytes e.w2.toNat 8 ++ leBytes e.w3.toNat 8 := by
  simp [RangeEnt.bytes, fields]

theorem tgets_getD (t : Tab Byte) (k : Nat) {n i : Nat} (h : i < n) : (tgets 0 t k n).getD i 0 = tget 0 t (k + i) := by
  simp [tgets, List.getD_eq_getElem?_getD, h]

theorem map_range_eq {bs : List Byte} {f : Nat → Byte} (h : ∀ i, i < bs.length → f i = bs.getD i 0) : (List.range bs.length).map f = bs :=
  List.ext_getElem (by simp) fun i hi hb => by rw [List.getElem_map, List.getElem_range, h i hb, List.getD_eq_getElem _ _ hb]

theorem leBytes_zero (k i : Nat) : (leBytes 0 k).getD i 0 = 0 := by
  induction k generalizing i with
  | zero => rfl
  | succ k ih =>
    cases i with
    | zero => rfl
    | succ i => exact ih i

/-- A read that reaches the bit [10] of no partition's STATUS changes nothing but what it returns. -/
theorem exec_statusRead (s : State) (r : RegRead) (hp : r.part < 16) (hseen : r.pf = true → ∀ p, p < 16 → r.off ≤ 0x2000 * p + 0x39 →
    r.off + r.len ≤ 0x2000 * p + 0x39) : exec (.statusRead r) s = .next { s with hostReads := (r.off, 0, readRegs s r) :: s.hostReads } := by
  have hnone : (if r.pf then (List.range 16).filter (fun p => r.off ≤ 0x2000 * p + 0x39 && 0x2000 * p + 0x39 < r.off + r.len) else []) = [] := by
    split
    case isTrue hpf =>
      refine List.filter_eq_nil_iff.mpr fun p hp hin => ?_
      have := hseen hpf p (List.mem_range.mp hp)
      simp at hin
      omega
    case isFalse => rfl
  show execStatusRead r s = _
  unfold execStatusRead
  rw [if_neg (by simp; omega)]
  simp only [hnone, List.foldl_nil]

/-- One of the word that holds it clears it. -/
theorem exec_statusRead_status (s : State) {part : Nat} (hp : part < 16) :
    let r : RegRead := ⟨true, part, 0x2000 * part + 0x38, 8⟩
    exec (.statusRead r) s = .next
      (State.modPart { s with hostReads := (r.off, 0, readRegs s r) :: s.hostReads } part (fun q => { q with discarded := false })) := by
  intro r
  have hthis : (fun p => decide (r.off ≤ 0x2000 * p + 0x39) && decide (0x2000 * p + 0x39 < r.off + r.len)) = (fun p => p == part) := by
    funext p
    rw [Bool.eq_iff_iff]
    simp [r]
    omega
  have hseen : (List.range 16).filter (fun p => r.off ≤ 0x2000 * p + 0x39 && 0x2000 * p + 0x39 < r.off + r.len) = [part] := by
    rw [hthis, List.filter_beq, List.count_eq_one_of_mem List.nodup_range (List.mem_range.mpr hp), List.replicate_one]
  show execStatusRead r s = _
  unfold execStatusRead
  rw [if_neg (by simp [r])]
  simp only [hseen, List.foldl_cons, List.foldl_nil, r, if_true]

section
variable {s : State} {part o : Nat} {bs : List Byte}

theorem readRegs_vf (h : ∀ i, i < bs.length → regByte (vfRegs (s.part part)) (o + i) = bs.getD i 0) : readRegs s ⟨false, part, o, bs.length⟩ = bs :=
  map_range_eq h

theorem readRegs_block (hp : part < 16) (hfit : o + bs.length ≤ 0x2000)
    (h : ∀ i, i < bs.length → regByte (blockRegs (s.part part)) (o + i) = bs.getD i 0) :
    readRegs s ⟨true, part, 0x2000 * part + o, bs.length⟩ = bs := by
  refine map_range_eq fun i hi => ?_
  have hdiv : (0x2000 * part + o + i) / 0x2000 = part := by omega
  have hmod : (0x2000 * part + o + i) % 0x2000 = o + i := by omega
  have hlt : 0x2000 * part + o + i < 0x20000 := by omega
  simp only [Bool.not_true, Bool.false_eq_true, if_false, hlt, if_true, hdiv, hmod]
  exact h i hi

theorem readRegs_device (hge : 0x20000 ≤ o) (h : ∀ i, i < bs.length → regByte (deviceRegs s) (o + i) = bs.getD i 0) :
    readRegs s ⟨true, part, o, bs.length⟩ = bs := by
  refine map_range_eq fun i hi => ?_
  have hlt : ¬ o + i < 0x20000 := by omega
  simp only [Bool.not_true, Bool.false_eq_true, if_false, hlt]
  exact h i hi

variable (hp : part < 16)
include hp

theorem statusRead_vf (h : ∀ i, i < bs.length → regByte (vfRegs (s.part part)) (o + i) = bs.getD i 0) :
    exec (.statusRead ⟨false, part, o, bs.length⟩) s = .next { s with hostReads := (o, 0, bs) :: s.hostReads } := by
  rw [exec_statusRead s _ hp (fun hpf => absurd hpf Bool.false_ne_true), readRegs_vf h]

theorem statusRead_block (hfit : o + bs.length ≤ 0x2000) (hseen : o + bs.length ≤ 0x39 ∨ 0x39 < o)
    (h : ∀ i, i < bs.length → regByte (blockRegs (s.part part)) (o + i) = bs.getD i 0) :
    exec (.statusRead ⟨true, part, 0x2000 * part + o, bs.length⟩) s = .next { s with hostReads := (0x2000 * part + o, 0, bs) :: s.hostReads } := by
  rw [exec_statusRead s _ hp (fun _ p hp16 hle => by simp only at hle ⊢; omega), readRegs_block hp hfit h]

theorem statusRead_device (hge : 0x20000 ≤ o) (h : ∀ i, i < bs.length → regByte (deviceRegs s) (o + i) = bs.getD i 0) :
    exec (.statusRead ⟨true, part, o, bs.length⟩) s = .next { s with hostReads := (o, 0, bs) :: s.hostReads } := by
  rw [exec_statusRead s _ hp (fun _ p hp16 hle => by simp only at hle ⊢; omega), readRegs_device hge h]

end

/-! ### The obligation -/

section
variable {part : Nat} (hp : part < 16) {s t : State}
include hp

theorem exec_tailWrite {v : BitVec 32} (h : tailWrite s part v = t) : exec (.tailWrite part v) s = .next t :=
  congrArg Host.Outcome.next ((if_pos hp).trans h)

theorem exec_ringSet {isBase : Bool} {v : BitVec 64} (h : ringSet s part isBase v = t) : exec (.ringSet part isBase v) s = .next t :=
  congrArg Host.Outcome.next ((if_pos hp).trans h)

theorem exec_configWrite {reg : Nat} {v : BitVec 64} (h : configWrite s part reg v = t) : exec (.partitionConfigWrite part reg v) s = .next t :=
  congrArg Host.Outcome.next ((if_pos hp).trans h)

theorem exec_commit (h : commit s part false = t) : exec (.commit part) s = .next t := congrArg Host.Outcome.next ((if_pos hp).trans h)

theorem exec_force (h : commit s part true = t) : exec (.force part) s = .next t := congrArg Host.Outcome.next ((if_pos hp).trans h)

end

/-- A write that changes one partition alone. -/
theorem answers_modPart {s : State} {i : Instr} {p : Nat} {f : Part → Part} (h : exec i s = .next (s.modPart p f)) {q' : Part} (hq : f (s.part p) = q') :
    answers s i (fun t => t.part p = q' ∧ { t with parts := s.parts } = s) := ⟨_, h, (part_modPart s p f).trans hq, rfl⟩

/-- Settles O45: a write is one change of a partition, decided by the guards of its register; a read finds each byte in the one register that
holds it. -/
theorem hostRegisters : Obligations.HostRegisters := by
  unfold Obligations.HostRegisters
  refine ⟨?_, ?_⟩
  · intro s part v v32 q sets live
    have hlive : hasLaunches s part = true ↔ live := hasLaunches_iff s part
    have hdead : ¬ live → hasLaunches s part = false := (hasLaunches_false_iff s part).mpr
    refine ⟨fun hp base reg off data => ?_, fun hp => ⟨fun h => ?_, fun h => ?_, fun base h => ?_,
      fun hempty hno => ⟨fun h => ?_, fun h => ?_, fun k h1 h2 h => ?_⟩,
      fun reg h => ?_, fun reg hno hc => ?_, fun reg q' hno hc => ?_, fun h => ?_, ?_, fun hb hno => ?_, fun h => ?_, fun amount low _ ha hlow => ?_,
      fun w o data hw ho hlast hfit => ?_⟩, rfl, ?_, fun d => ?_⟩
    · have hout : ¬ part < 16 := Nat.not_lt.mpr hp
      have hidle (u : State) : Host.Outcome.next (if part < 16 then u else s) = (.next s : Out) := congrArg Host.Outcome.next (if_neg hout)
      exact ⟨hidle _, hidle _, hidle _, hidle _, hidle _, congrArg Host.Outcome.next ((if_neg Bool.false_ne_true).trans (if_pos hp))⟩
    · exact answers_modPart (exec_tailWrite hp (tailWrite_within h)) rfl
    · exact answers_modPart (exec_tailWrite hp (tailWrite_beyond h)) rfl
    · exact answers_modPart (exec_ringSet hp (ringSet_busy base v (h.imp_right hlive.mpr))) rfl
    · have hring := ringSet_idle hempty (hdead hno) true v
      rw [if_neg (by simp [ringAdmits, h]), setStatus, modPart_modPart] at hring
      exact answers_modPart (exec_ringSet hp hring) rfl
    · have hring := ringSet_idle hempty (hdead hno) true v
      rw [if_pos (by simpa [ringAdmits] using h)] at hring
      exact answers_modPart (exec_ringSet hp hring) rfl
    · obtain rfl := h
      obtain ⟨hadmits, hslots⟩ := ringAdmits_pow h1 h2
      have hring := ringSet_idle hempty (hdead hno) false (BitVec.ofNat 64 (2 ^ k))
      rw [hadmits, if_neg (by decide), setStatus, modPart_modPart] at hring
      refine answers_modPart (exec_ringSet hp hring) ?_
      simp only [Bool.false_eq_true, if_false, hslots]
      rfl
    · exact answers_modPart (exec_configWrite hp (configWrite_busy (hlive.mpr h))) rfl
    · exact answers_modPart (exec_configWrite hp (configWrite_refused (hdead hno) hc)) rfl
    · obtain ⟨u, hu, hwrite⟩ := configWrite_done (reg := reg) (hdead hno) hc
      have hparts : u.parts = s.parts := (congrArg State.parts hu :)
      have hpart : u.part part = q := by
        unfold State.part
        rw [hparts]
        rfl
      have hgen : u.gen = s.gen := (congrArg State.gen hu :)
      refine ⟨_, exec_configWrite hp hwrite, (part_modPart_gen u part _ _).trans (congrArg (Part.reconfigured · q') hpart), fun he => ?_, fun hmoves => ?_,
        (congrArg State.waves hu :), (congrArg State.launches hu :), (congrArg State.hostMem hu :)⟩
      · rw [he]
        exact (if_neg (by simp [Part.movesFrom, q])).trans hgen
      · exact (if_pos (by simp only [Part.movesFrom, Bool.or_eq_true, bne_iff_ne]; tauto)).trans (congrArg (· + 1) hgen)
    · have hc (force : Bool) := commit_reserved (force := force) h
      exact ⟨answers_modPart (exec_commit hp (hc false)) rfl,
        answers_modPart (exec_force hp (hc true)) rfl⟩
    · intro kept fresh broken breaks forced hok
      have hkept {i : Instr} {force : Bool} (hi : ∀ {t}, commit s part force = t → exec i s = .next t) (hadd : ¬ broken)
          (hf : force = false ∨ q.map.held = []) : sets i kept :=
        answers_modPart (hi (commit_added hok (Bool.eq_true_of_not_eq_false hadd) hf)) rfl
      have hbreaks {i : Instr} {force : Bool} (hi : ∀ {t}, commit s part force = t → exec i s = .next t)
          (hb : broken ∨ force = true ∧ q.map.held ≠ []) (hno : ¬ live) : breaks i :=
        ⟨_, hi (commit_idle hok hb (hdead hno)), part_modPart_gen _ _ _ _, rfl, rfl⟩
      have hforced (hb : broken ∨ q.map.held ≠ []) (hl : live) : forced := by
        refine ⟨_, exec_force hp (commit_forced hok (hb.imp_right fun h => ⟨rfl, h⟩) (hlive.mpr hl) rfl), ?_⟩
        beta_reduce
        rw [part_modPart_gen]
        exact ⟨rfl, rfl, rfl, rfl, rfl, rfl⟩
      refine ⟨fun hadd => ⟨hkept (exec_commit hp) hadd (Or.inl rfl), fun hheld => hkept (exec_force hp) hadd (Or.inr hheld),
        fun hheld hno => hbreaks (exec_force hp) (Or.inr ⟨rfl, hheld⟩) hno, fun hheld hl => hforced (Or.inr hheld) hl⟩,
        fun hb => ⟨fun hno => ⟨hbreaks (exec_commit hp) (Or.inl hb) hno, hbreaks (exec_force hp) (Or.inl hb) hno⟩,
          fun hl => ⟨?_, hforced (Or.inl hb) hl⟩⟩⟩
      exact answers_modPart (exec_commit hp (commit_waits hok (Or.inl hb) (hlive.mpr hl) rfl)) rfl
    · have happly : (!q.breaking || hasLaunches s part) = false := by rw [hb, hdead hno]; rfl
      refine ⟨_, congrArg Host.Outcome.next ((if_neg (by rw [happly]; decide)).trans (applyMap_breaking s part _)), part_modPart_gen _ _ _ _, rfl, rfl⟩
    · have : (!q.breaking || hasLaunches s part) = true := by rcases h with h | h <;> simp [h, hlive.mpr]
      exact congrArg Host.Outcome.next (if_pos this)
    · intro cmd
      refine ⟨fun hfits => ?_, fun hover => ?_, ?_⟩
      · obtain ⟨u, hu, hbal, hlowmark, hrest⟩ := grant_granted hp ha hlow (via := .physicalFunction) nofun hfits
        exact ⟨_, energyGrant_physical hu, hbal, hlowmark, rfl, congrArg (· + 1) (congrArg State.grants hrest :),
          congrArg (fun u : State => { u with grantStat := s.grantStat, grants := s.grants }) hrest⟩
      · exact ⟨_, energyGrant_board (grant_overflow hp ha hlow nofun hover), rfl, rfl⟩
      · exact energyGrant_virtual s cmd
    · have hreg : exec (.registerWrite false part (64 * w + o) data) s = .next (vfWrite s part (64 * w + o) data) :=
        congrArg Host.Outcome.next ((if_neg Bool.false_ne_true).trans (if_neg (Nat.not_le.mpr hp)))
      rw [vfWrite_doorbell s part hw ho hlast] at hreg
      refine ⟨_, hreg, _, congrArg Part.bells (part_modPart s part _), rfl, rfl, rfl, fun j hj => tgets_window _ _ _ _ hj, rfl⟩
    · have hrest := retryRoutes_rest { s with routes := tset 0 s.routes (s.rtindex.toNat % 2 ^ 21) (v32 &&& 0x1FFFFF) }
      have hroutes := (congrArg State.routes hrest :)
      refine ⟨_, rfl, ?_, fun k hk => ?_, (congrArg State.waves hrest :), (congrArg State.mem hrest :)⟩
      · exact (congrArg (fun t => tget 0 t _) hroutes).trans (tget_tset_same _ _ _ _)
      · exact (congrArg (fun t => tget 0 t _) hroutes).trans (tget_tset_other _ _ _ hk)
    · have hbit : (BitVec.ofNat 64 (ofLeBytes (leBytes d 8))).getLsbD 0 = d.testBit 0 := by
        rw [ofLeBytes_leBytes, BitVec.getLsbD_ofNat, show 256 ^ 8 = 2 ^ 64 from rfl, Nat.testBit_mod_two_pow]
        rfl
      rw [← hbit]
      rfl
  · intro s part hp q reads b
    have hvf {o : Nat} {bs : List Byte} (hm : (o, bs) ∈ vfRegs q) : reads false o bs :=
      statusRead_vf hp fun i hi => regByte_of_mem (regsApart_vfRegs q) hm hi
    have hblock {o : Nat} {bs : List Byte} (hm : (o, bs) ∈ fixedRegs q) (hseen : o + bs.length ≤ 0x39) : reads true (b + o) bs :=
      statusRead_block hp (by omega) (Or.inl hseen)
        fun i hi => regByte_of_mem (regsApart_blockRegs q) (List.mem_append_left _ (List.mem_append_left _ hm)) hi
    have hzero {o : Nat} (h1 : 0x40 ≤ o) (h2 : o ≤ 0x7F8) : reads true (b + o) (leBytes 0 8) :=
      statusRead_block hp (by simp; omega) (Or.inr (by omega)) fun i hi => by
        rw [leBytes_zero, blockRegs_reserved q (by omega) (by simp at hi; omega)]
    have hdevice {o : Nat} {bs : List Byte} (hm : (o, bs) ∈ deviceRegs s) (hge : 0x20000 ≤ o) : reads true o bs :=
      statusRead_device hp hge fun i hi => regByte_of_mem (regsApart_deviceRegs s) hm hi
    refine ⟨hvf (by simp [vfRegs]), hvf (by simp [vfRegs]), hvf (by simp [vfRegs]), hvf (by simp [vfRegs]), ?_, fun w hw => ?_,
      hblock (o := 0) (by simp [fixedRegs]) (by simp), hblock (by simp [fixedRegs]) (by simp), hblock (by simp [fixedRegs]) (by simp),
      hblock (by simp [fixedRegs]) (by simp), hblock (by simp [fixedRegs]) (by simp), hblock (by simp [fixedRegs]) (by simp),
      hblock (by simp [fixedRegs]) (by simp), hblock (by simp [fixedRegs]) (by simp), hzero (by omega) (by omega), hzero (by omega) (by omega),
      fun e he => ?_, hdevice (by simp [deviceRegs]) (by omega), hdevice (by simp [deviceRegs]) (by omega),
      hdevice (by simp [deviceRegs]) (by omega), hdevice (by simp [deviceRegs]) (by omega), hdevice (by simp [deviceRegs]) (by omega), ?_⟩
    · exact statusRead_vf hp fun i hi => by
        rw [leBytes_zero, regByte_reserved fun r hr => Or.inr ((vfRegs_end q r hr).trans (Nat.le_add_right _ _))]
    · exact statusRead_vf hp fun i hi => by
        have hi : i < 64 := by simpa [tgets] using hi
        rw [← Nat.zero_add (64 * w), Nat.add_assoc, regByte_of_mem (regsApart_vfRegs q) (List.mem_cons_self ..) (by simp [tgets]; omega),
          tgets_getD _ _ (by omega), tgets_getD _ _ hi, Nat.zero_add, Nat.zero_add]
    · intro x
      rw [← rangeBytes_eq x, Nat.add_assoc]
      exact statusRead_block hp (by rw [rangeBytes_length]; omega) (Or.inr (by omega)) fun i hi =>
        regByte_of_mem (regsApart_blockRegs q) (List.mem_append_left _ (List.mem_append_right _ (List.mem_map.mpr ⟨e, List.mem_range.mpr he, rfl⟩))) hi
    · have hmem : (0x38, leBytes (statusWord q) 8) ∈ fixedRegs q := by simp [fixedRegs]
      have hread : readRegs s ⟨true, part, b + 0x38, 8⟩ = leBytes (statusWord q) 8 :=
        readRegs_block (bs := leBytes (statusWord q) 8) hp (by simp) fun i hi =>
          regByte_of_mem (regsApart_blockRegs q) (List.mem_append_left _ (List.mem_append_left _ hmem)) hi
      refine ⟨_, exec_statusRead_status s hp, part_modPart _ _ _, ?_, fun p h => part_modPart_other _ _ h, rfl⟩
      show (_, 0, readRegs s _) :: s.hostReads = _
      rw [hread]
      rfl

end Sys2Proof.Machine
end

section
/-! PROOF. Resets, and the host's reads and writes of device memory (R176, R181, R348, R371, R372, R394). -/

namespace Sys2Proof.Machine

/-! ### What a discarded launch leaves of the partitions (R366)

Its work is stopped without them; its end returns joules to one and adds a record. -/

theorem foldl_parts {ι : Type} {f : State → ι → State} (h : ∀ t x, (f t x).parts = t.parts) (xs : List ι) (s : State) :
    (xs.foldl f s).parts = s.parts :=
  List.foldlRecOn (motive := fun t : State => t.parts = s.parts) _ _ rfl fun t ht x _ => (h t x).trans ht

theorem ite_parts {c : Prop} [Decidable c] {s t u : State} (ht : t.parts = s.parts) (hu : u.parts = s.parts) : (if c then t else u).parts = s.parts := by
  split <;> assumption

theorem homeWrite_parts (s : State) (bs : List (Nat × Byte)) : (homeWrite s bs).parts = s.parts := (congrArg State.parts (homeWrite_rest s bs) :)

theorem atomAt_parts (s : State) (op : Nat) (locs : List Nat) (ty : Ty) (b cc : Nat) : (atomAt s op locs ty b cc).1.parts = s.parts := by
  rw [atomAt_eq]
  exact homeWrite_parts s _

theorem addTrap_parts (s : State) (n : Nat) (t : Trap) : (addTrap s n t).parts = s.parts := (congrArg State.parts (addTrap_rest s n t) :)

theorem discardAtomics_parts (s : State) (serial : Nat) : (discardAtomics s serial).parts = s.parts := by
  refine foldl_parts (fun t r => ?_) _ _
  split
  · exact ite_parts (atomAt_parts ..) rfl
  · rfl

theorem sendStaged_parts (s : State) (p : Pub) : (sendStaged s p).parts = s.parts := by
  refine foldl_parts (fun t src => ?_) _ _
  refine foldl_parts (fun u run => ?_) _ _
  rfl

theorem failPoint_parts (s : State) (r : Option PointRef) (code : Nat) (src : Nat × Nat × Nat) : (failPoint s r code src).parts = s.parts := by
  unfold failPoint setPoint
  split
  · split <;> rfl
  · rfl

theorem refuseBytes_parts (s : State) (p : Pub) (bs : Tab SByte) (err : Nat) {trap : State → Pub → BitVec 64 → Nat → State}
    (h : ∀ t a pc, (trap t p a pc).parts = t.parts) : (refuseBytes s p bs err trap).parts = s.parts := by
  refine foldl_parts (fun t src => ?_) _ _
  split
  · exact failPoint_parts ..
  · exact h ..
  · rfl

theorem placeRedg_parts (s : State) (p : Pub) (r : Redg) : (placeRedg s p r).parts = s.parts := by
  unfold placeRedg
  split
  · rfl
  · exact ite_parts (addTrap_parts ..) (ite_parts (addTrap_parts ..) (atomAt_parts ..))

theorem performPub_parts (s : State) (p : Pub) : (performPub s p).parts = s.parts := by
  unfold performPub
  refine (refuseBytes_parts _ p _ _ fun t a pc => addTrap_parts ..).trans ?_
  refine (foldl_parts (fun t u => refuseBytes_parts _ p _ _ fun t a pc => addTrap_parts ..) _ _).trans ?_
  refine (foldl_parts (fun t r => placeRedg_parts t p r) _ _).trans ?_
  exact (sendStaged_parts _ p).trans (homeWrite_parts _ _)

theorem fulfilReady_parts (s : State) (e gen : Nat) (handle : BitVec 64) (hpt : Nat) : (fulfilReady s e gen handle hpt).parts = s.parts := by
  exact ite_parts rfl rfl

theorem performAll_parts (s : State) (serial : Nat) : (performAll s serial).parts = s.parts := by
  unfold performAll
  refine (foldl_parts (fun t p => ?_) _ _).trans (foldl_parts (fun t p => performPub_parts t p) _ _)
  split
  · exact fulfilReady_parts ..
  · rfl

theorem stopCopies_parts (s : State) (mark : Bool) (p : CopyOp → Bool) : (stopCopies s mark p).parts = s.parts := by
  refine foldl_parts (fun t c => ?_) _ _
  exact ite_parts rfl rfl

theorem stopSweeps_parts (s : State) (mark : Bool) (p : WaveId → Bool) : (stopSweeps s mark p).parts = s.parts := by
  refine foldl_parts (fun t c => ?_) _ _
  exact ite_parts rfl rfl

theorem dropLaunch_parts (s : State) (serial : Nat) : (dropLaunch s serial).parts = s.parts := by
  refine foldl_parts (fun t c => ?_) _ _
  rfl

theorem makersFail_parts (s : State) (p : WaveId → Bool) : (makersFail s p).parts = s.parts := by
  obtain ⟨cl, h⟩ := makersFail_eq s p
  rw [h]

theorem discardWork_parts (s : State) (serial : Nat) : (discardWork s serial).parts = s.parts := by
  unfold discardWork
  refine (makersFail_parts _ _).trans ((dropLaunch_parts _ _).trans ?_)
  refine (stopSweeps_parts _ _ _).trans ((stopCopies_parts _ _ _).trans ((performAll_parts _ _).trans ?_))
  exact discardAtomics_parts s serial

theorem seeClock_parts (s : State) (k : Nat) : (seeClock s k).parts = s.parts := by
  refine foldl_parts (fun t l => ?_) _ _
  unfold episodeOf
  dsimp only
  split
  · exact ite_parts rfl rfl
  · exact ite_parts rfl rfl

theorem retarget_parts (s : State) (k : Nat) : (retarget s k).parts = s.parts :=
  (seeClock_parts _ k).trans (ite_parts (s := s) rfl rfl)

theorem forget_parts (s : State) (serial : Nat) (l : Launch) : (forget s serial l).parts = s.parts := by
  unfold forget
  refine (foldl_parts (fun t k => retarget_parts t k) _ _).trans ?_
  refine (foldl_parts (fun t k => ?_) _ _).trans ?_ <;> rfl

theorem lateValues_parts (s : State) (port : Nat) (mine : Nat → Bool) : (lateValues s port mine).parts = s.parts := by
  refine foldl_parts (fun t x => ?_) _ _
  rfl

/-! ### A partition in reset stays in reset, its offers closed (R372) -/

/-- No partition's mark of a reset and no partition's offers differ. -/
def keepsOffers (s t : State) : Prop := ∀ p, (t.part p).resetting = (s.part p).resetting ∧ (t.part p).offers = (s.part p).offers

theorem keepsOffers.trans {s t u : State} (hst : keepsOffers s t) (htu : keepsOffers t u) : keepsOffers s u := fun p =>
  ⟨(htu p).1.trans (hst p).1, (htu p).2.trans (hst p).2⟩

theorem keepsOffers_of_parts {s t : State} (h : t.parts = s.parts) : keepsOffers s t := fun p => by
  unfold State.part
  rw [h]
  exact ⟨rfl, rfl⟩

theorem keepsOffers_modPart (s : State) (p : Nat) {f : Part → Part} (hr : ∀ q, (f q).resetting = q.resetting) (ho : ∀ q, (f q).offers = q.offers) :
    keepsOffers s (s.modPart p f) := fun j => by
  by_cases h : j = p
  · subst h
    rw [part_modPart]
    exact ⟨hr _, ho _⟩
  · rw [part_modPart_other s f h]
    exact ⟨rfl, rfl⟩

theorem setBalance_keepsOffers (s : State) (p : Nat) (b : Int) : keepsOffers s (setBalance s p b) := by
  have hset := keepsOffers_modPart s p (f := fun q => { q with balance := b }) (fun _ => rfl) (fun _ => rfl)
  unfold setBalance
  dsimp only
  split
  · exact hset.trans (keepsOffers_modPart _ p (fun _ => rfl) (fun _ => rfl))
  · exact hset

theorem addHouse_keepsOffers (s : State) (n : Nat) : keepsOffers s (addHouse s n) := keepsOffers_of_parts rfl
theorem payHouse_keepsOffers (s : State) (n : Nat) : keepsOffers s (payHouse s n) := keepsOffers_of_parts rfl

theorem refund_keepsOffers (s : State) (p n : Nat) : keepsOffers s (refund s p n) := by
  unfold refund
  dsimp only
  split
  · exact (setBalance_keepsOffers _ _ _).trans (addHouse_keepsOffers _ _)
  · exact setBalance_keepsOffers _ _ _

theorem chargeOverrun_keepsOffers (s : State) (p n : Nat) : keepsOffers s (chargeOverrun s p n).1 := by
  unfold chargeOverrun
  dsimp only
  split
  · exact (setBalance_keepsOffers _ _ _).trans (payHouse_keepsOffers _ _)
  · exact setBalance_keepsOffers _ _ _

theorem settleJoules_keepsOffers (s : State) (l : Launch) (used attr : Nat) : keepsOffers s (settleJoules s l used attr).1 := by
  have hpay := payHouse_keepsOffers s (ceilDiv l.above nJ)
  unfold settleJoules
  dsimp only
  generalize payHouse s (ceilDiv l.above nJ) = u at hpay ⊢
  split
  · exact hpay.trans (refund_keepsOffers _ _ _)
  · split
    · exact hpay.trans (payHouse_keepsOffers _ _)
    · exact hpay.trans (chargeOverrun_keepsOffers _ _ _)

theorem finishLaunch_keepsOffers (s : State) (serial outcome fcode attr : Nat) : keepsOffers s (finishLaunch s serial outcome fcode attr) := by
  have hlate := keepsOffers_of_parts (foldl_parts (fun t p => lateValues_parts t p (fun n => n == serial)) (List.range 16) s)
  unfold finishLaunch
  dsimp only
  generalize (List.range 16).foldl (fun s p => lateValues s p (fun n => n == serial)) s = u at hlate ⊢
  split
  · exact hlate
  · refine hlate.trans ?_
    refine keepsOffers.trans ?_ (keepsOffers_of_parts ((forget_parts _ _ _).trans (dropLaunch_parts _ _)))
    exact (settleJoules_keepsOffers u _ _ _).trans (keepsOffers_modPart _ _ (fun _ => rfl) (fun _ => rfl))

theorem discardLaunch_keepsOffers (s : State) (serial : Nat) : keepsOffers s (discardLaunch s serial) := by
  unfold discardLaunch
  dsimp only
  refine keepsOffers.trans (keepsOffers_of_parts ?_) (finishLaunch_keepsOffers _ _ _ _ _)
  exact discardWork_parts _ _

theorem discardPart_keepsOffers (s : State) (p : Nat) : keepsOffers s (discardPart s p) :=
  List.foldlRecOn (motive := keepsOffers s) _ _ (keepsOffers_of_parts rfl) fun t ht l _ => ht.trans (discardLaunch_keepsOffers t l.1)

/-! ### Claim entries freed (R348) -/

theorem claim_setClaim (s : State) (e : Nat) (c : Claim) (j : Nat) : (s.setClaim e c).claim j = if j = e then c else s.claim j := tget_tset ..

/-- An entry that a partition holds. -/
def Claim.heldBy (p : Nat) (c : Claim) : Bool := c.st != .free && c.part == p

/-- The entries of a list that are the partition's are freed, and no other differs. -/
theorem claim_freed (p e : Nat) (xs : List (Nat × Claim)) (s : State) :
    let t := xs.foldl (fun s x => if x.2.heldBy p then s.setClaim x.1 { gen := x.2.gen } else s) s
    (t.claim e).st = .free ∨ t.claim e = s.claim e ∧ ∀ x ∈ xs, x.1 = e → x.2.heldBy p = false := by
  induction xs generalizing s with
  | nil => exact Or.inr ⟨rfl, nofun⟩
  | cons x xs ih =>
    dsimp only
    rw [List.foldl_cons]
    by_cases hx : x.2.heldBy p = true
    · rw [if_pos hx]
      rcases ih (s.setClaim x.1 { gen := x.2.gen }) with h | ⟨hsame, hrest⟩
      · exact Or.inl h
      · rw [claim_setClaim] at hsame
        by_cases he : e = x.1
        · rw [if_pos he] at hsame
          exact Or.inl (by rw [hsame])
        · rw [if_neg he] at hsame
          exact Or.inr ⟨hsame, fun y hy hye => (List.mem_cons.mp hy).elim (fun h => absurd (h ▸ hye.symm) he) (fun hy => hrest y hy hye)⟩
    · rw [if_neg hx]
      refine (ih s).imp_right fun ⟨hsame, hrest⟩ => ⟨hsame, fun y hy hye => ?_⟩
      rcases List.mem_cons.mp hy with rfl | hy
      · exact Bool.eq_false_of_not_eq_true hx
      · exact hrest y hy hye

/-- After the fold over the whole table the partition holds no entry. -/
theorem freeClaims_none (s : State) (p e : Nat) (h : ((freeClaims s p).claim e).st ≠ .free) : ((freeClaims s p).claim e).part ≠ p := by
  rcases claim_freed p e s.claims s with hfree | ⟨hsame, hnone⟩
  · exact absurd hfree h
  · have hsame : (freeClaims s p).claim e = s.claim e := hsame
    rw [hsame] at h ⊢
    intro hp
    unfold State.claim tget at h hp
    cases hc : tfind s.claims e
    · rw [hc] at h
      exact h rfl
    · rw [hc] at h hp
      have := hnone _ (mem_of_tfind hc) rfl
      simp only [Claim.heldBy, Bool.and_eq_false_iff, bne_eq_false_iff_eq, beq_eq_false_iff_ne] at this
      exact this.elim h (fun hne => hne hp)

theorem freeClaims_parts (s : State) (p : Nat) : (freeClaims s p).parts = s.parts := by
  refine foldl_parts (fun t x => ?_) _ _
  exact ite_parts rfl rfl

/-- A reset marks the partition and closes its offers, whatever its launches leave; it holds no claim entry. -/
theorem resetPart_spec (s : State) (p : Nat) : ((resetPart s p).part p).resetting = true ∧ ((resetPart s p).part p).offers = [] ∧
    ∀ e, ((resetPart s p).claim e).st ≠ .free → ((resetPart s p).claim e).part ≠ p := by
  obtain ⟨hr, ho⟩ := (keepsOffers.trans (discardPart_keepsOffers (s.modPart p (fun q => { q with resetting := true, offers := [] })) p)
    (keepsOffers_of_parts (freeClaims_parts _ p))) p
  rw [part_modPart] at hr ho
  exact ⟨hr, ho, fun e => freeClaims_none _ p e⟩

/-! ### One unit of a host access (R394) -/

/-- A byte joins the unit of the one before it, or starts a unit. -/
def addToUnits (addr : Nat) (acc : List (Nat × List Byte)) (b : Byte × Nat) : List (Nat × List Byte) :=
  let a := addr + b.2
  match acc with
  | (x, bs) :: t => if x / 32 = a / 32 then (x, bs ++ [b.1]) :: t else (a, [b.1]) :: acc
  | [] => [(a, [b.1])]

theorem hostUnits_eq (addr : Nat) (data : List Byte) : hostUnits addr data = (data.zipIdx.foldl (addToUnits addr) []).reverse := rfl

theorem addToUnits_same {addr k : Nat} (h : addr / 32 = (addr + k) / 32) (pre : List Byte) (x : Byte) :
    addToUnits addr [(addr, pre)] (x, k) = [(addr, pre ++ [x])] := if_pos h

theorem foldl_addToUnits {addr k : Nat} (xs pre : List Byte) (h : ∀ i, i < xs.length → addr / 32 = (addr + (k + i)) / 32) :
    (xs.zipIdx k).foldl (addToUnits addr) [(addr, pre)] = [(addr, pre ++ xs)] := by
  induction xs generalizing k pre with
  | nil => simp
  | cons x xs ih =>
    have htail : ∀ i, i < xs.length → addr / 32 = (addr + (k + 1 + i)) / 32 := fun i hi => by
      rw [Nat.add_right_comm k 1 i]
      exact h (i + 1) (by simpa using hi)
    rw [List.zipIdx_cons, List.foldl_cons, addToUnits_same (k := k) (h 0 (by simp)), ih _ htail, List.append_assoc, List.singleton_append]

/-- Bytes that stay in one unit are one. -/
theorem hostUnits_single {addr : Nat} {data : List Byte} (hne : data ≠ []) (hfit : addr % 32 + data.length ≤ 32) :
    hostUnits addr data = [(addr, data)] := by
  obtain ⟨x, xs, rfl⟩ := List.exists_cons_of_ne_nil hne
  have hfit : addr % 32 + (xs.length + 1) ≤ 32 := by simpa using hfit
  have hstay : ∀ i, i < xs.length → addr / 32 = (addr + (1 + i)) / 32 := fun i hi => by omega
  rw [hostUnits_eq, List.zipIdx_cons, List.foldl_cons]
  exact congrArg List.reverse (foldl_addToUnits xs [x] hstay)

section
variable {s : State} {part addr : Nat} {data : List Byte} (hp : part < 16) (hne : data ≠ []) (hfit : addr % 32 + data.length ≤ 32)
include hp hne hfit

theorem exec_hostWrite : exec (.hostWrite part addr data) s = .next (hostWriteUnit s part addr data) := by
  show execHostWrite part addr data s = _
  rw [execHostWrite, if_neg (Nat.not_le.mpr hp), hostUnits_single hne hfit]
  rfl

theorem exec_hostRead_data {bs : List Byte} (h : hostReadUnit s part addr data.length = .inr bs) :
    exec (.hostRead part addr data.length) s = .next { s with hostReads := (addr, 0, bs) :: s.hostReads } := by
  show execHostRead part addr data.length s = _
  have hunits : hostUnits addr (List.replicate data.length 0) = [(addr, List.replicate data.length 0)] :=
    hostUnits_single (by simpa using hne) (by simpa using hfit)
  rw [execHostRead, if_neg (Nat.not_le.mpr hp), hunits]
  simp [h]

theorem exec_hostRead_error {n : Nat} (h : hostReadUnit s part addr data.length = .inl n) (hn : n ≠ 3) :
    exec (.hostRead part addr data.length) s = .next { s with hostReads := (addr, min n 2, []) :: s.hostReads } := by
  show execHostRead part addr data.length s = _
  have hunits : hostUnits addr (List.replicate data.length 0) = [(addr, List.replicate data.length 0)] :=
    hostUnits_single (by simpa using hne) (by simpa using hfit)
  rw [execHostRead, if_neg (Nat.not_le.mpr hp), hunits]
  simp [h, hn]

theorem exec_hostRead_bad (h : hostReadUnit s part addr data.length = .inl 3) : exec (.hostRead part addr data.length) s = .next { s with
    hostReads := (addr, 2, []) :: s.hostReads, mgmt := { kind := 3, a := 0, value := BitVec.ofNat 64 addr } :: s.mgmt } := by
  show execHostRead part addr data.length s = _
  have hunits : hostUnits addr (List.replicate data.length 0) = [(addr, List.replicate data.length 0)] :=
    hostUnits_single (by simpa using hne) (by simpa using hfit)
  rw [execHostRead, if_neg (Nat.not_le.mpr hp), hunits]
  simp [h, report]

end

/-! ### A unit discarded, written, or read -/

section
variable {s : State} {part addr : Nat} {data : List Byte}

theorem hostXl_of_here {k : Acc} {x : Xl} (h : translate s (s.part part).map (BitVec.ofNat 64 addr) k = x) (hx : ∀ d a, x ≠ .remote d a) :
    hostXl s part addr k = x := by
  unfold hostXl
  rw [h]
  split
  · exact absurd rfl (hx _ _)
  · rfl

theorem hostXl_of_remote {k : Acc} {d a : Nat} (h : translate s (s.part part).map (BitVec.ofNat 64 addr) k = .remote d a) :
    hostXl s part addr k = .bad cPROT aCALLER := by
  simp only [hostXl, h]

theorem hostWriteUnit_bad {c a : Nat} (h : hostXl s part addr .store = .bad c a) : hostWriteUnit s part addr data = dropUnit s part addr c := by
  simp only [hostWriteUnit, h]

variable {loc : Nat} (h : hostXl s part addr .store = .at_ loc)
include h

theorem hostWriteUnit_absent (ha : absent loc = true) : hostWriteUnit s part addr data = dropUnit s part addr cXLATE := by
  simp only [hostWriteUnit, h, ha, if_true]

theorem hostWriteUnit_locked (ha : absent loc = false) (hl : lockedAt s loc = true) : hostWriteUnit s part addr data = dropUnit s part addr cPROT := by
  simp only [hostWriteUnit, h, ha, hl, Bool.false_eq_true, if_false, if_true]

theorem hostWriteUnit_uncorr (ha : absent loc = false) (hl : lockedAt s loc = false) (hb : badUnit s loc = true) (hlen : data.length ≠ 32) :
    hostWriteUnit s part addr data = dropUnit s part addr cUNCORR := by
  simp [hostWriteUnit, h, ha, hl, hb, hlen]

/-- The bytes of a write from a location on. -/
def bytesFrom (loc n : Nat) : List Nat := (List.range n).map (fun i => loc + i)

/-- The errors of units that a write covers whole are gone. -/
def unitFreshened (s : State) (loc n : Nat) : State := if n = 32 then { s with bad := s.bad.filter (fun u => u != redir s loc / 32) } else s

omit h in
theorem unitFreshened_eq (s : State) (loc n : Nat) : ∃ b, unitFreshened s loc n = { s with bad := b } := by
  unfold unitFreshened
  split
  · exact ⟨_, rfl⟩
  · exact ⟨s.bad, rfl⟩

theorem hostWriteUnit_good (ha : absent loc = false) (hl : lockedAt s loc = false) (hb : badUnit s loc = false) :
    hostWriteUnit s part addr data =
      (s.parts.map (fun q => q.1)).foldl (fun t q => tableWrite s t q (bytesFrom loc data.length))
        (homeWrite (unitFreshened s loc data.length) ((bytesFrom loc data.length).zip data)) := by
  simp only [hostWriteUnit, h, ha, hl, hb, Bool.false_and, Bool.false_eq_true, if_false]
  rfl

end

/-! ### Page tables written (R181) -/

/-- Entries kept by what they hold: one that is found and kept is found again. -/
theorem tfind_filter {α : Type} {t : Tab α} {f : Nat × α → Bool} {k : Nat} {v : α} (h : tfind t k = some v) (hf : f (k, v) = true) :
    tfind (t.filter f) k = some v := by
  induction t with
  | nil => cases h
  | cons x t ih =>
    obtain ⟨j, u⟩ := x
    by_cases hj : j = k
    · subst hj
      obtain rfl : u = v := by simpa [tfind] using h
      rw [List.filter_cons_of_pos hf]
      simp [tfind]
    · have hrest : tfind t k = some v := by simpa [tfind, hj] using h
      rw [List.filter_cons]
      split
      · simpa [tfind, hj] using ih hrest
      · exact ih hrest

/-- The bytes in force before a held change: those held already, and those that stood there. -/
def heldWith (s : State) (held : Tab Byte) (locs : List Nat) : Tab Byte :=
  locs.foldl (fun h a => if (tfind h a).isSome then h else tput h a (memByte s a)) held

theorem tfind_heldWith_some (s : State) {held : Tab Byte} (locs : List Nat) {a : Nat} {v : Byte} (h : tfind held a = some v) :
    tfind (heldWith s held locs) a = some v :=
  List.foldlRecOn (motive := fun t => tfind t a = some v) _ _ h fun t ht b _ => by
    split
    · exact ht
    · rename_i hb
      rw [tfind_tput_other _ _ (fun e => hb (by rw [← e, ht]; rfl))]
      exact ht

theorem tfind_heldWith (s : State) {held : Tab Byte} {locs : List Nat} {a : Nat} (ha : a ∈ locs) (h : tfind held a = none) :
    tfind (heldWith s held locs) a = some (memByte s a) := by
  induction locs generalizing held with
  | nil => cases ha
  | cons b locs ih =>
    by_cases hab : a = b
    · subst hab
      refine tfind_heldWith_some s locs ?_
      beta_reduce
      rw [h]
      exact tfind_tput_same _ _ _
    · refine ih ((List.mem_cons.mp ha).resolve_left hab) ?_
      beta_reduce
      split
      · exact h
      · rw [tfind_tput_other _ _ hab, h]

section
variable {s t : State} {p : Nat} {locs : List Nat}

theorem tableWrite_none (h : anyTable s (s.part p).map locs 4 (s.part p).map.ptroot.toNat = false) : tableWrite s t p locs = t := by
  simp [tableWrite, h]

/-- The mapping whose bytes of `locs` are held no longer. -/
def Mapping.without (m : Mapping) (locs : List Nat) : Mapping := { m with held := m.held.filter (fun b => !locs.contains b.1) }

/-- The write leaves what is in force as it was, or adds to it. -/
def tablesKept (s t : State) (p : Nat) (locs : List Nat) : Bool :=
  let m := (s.part p).map
  treeKept s t m (m.without locs) 4 0 m.ptroot.toNat (.table m.ptroot.toNat) && pricingKept s t p m (m.without locs)

variable (h : anyTable s (s.part p).map locs 4 (s.part p).map.ptroot.toNat = true)
include h

theorem tableWrite_kept (hk : tablesKept s t p locs = true) :
    tableWrite s t p locs = t.modPart p (fun q => { q with map := ((s.part p).map.without locs).prune t }) := by
  unfold tablesKept at hk
  simp only [tableWrite, h, Bool.not_true, Bool.false_eq_true, if_false]
  exact if_pos hk

theorem tableWrite_breaks (hk : tablesKept s t p locs = false) (hl : hasLaunches s p = false) :
    tableWrite s t p locs = { t.modPart p (fun q => { q with map := ((s.part p).map.without locs).prune t }) with gen := t.gen + 1 } := by
  unfold tablesKept at hk
  simp only [tableWrite, h, hl, Bool.not_true, Bool.not_false, Bool.false_eq_true, if_false, if_true]
  exact if_neg (by rw [Bool.not_eq_true]; exact hk)

theorem tableWrite_held (hk : tablesKept s t p locs = false) (hl : hasLaunches s p = true) :
    tableWrite s t p locs = t.modPart p (fun q => { q with
      map := { q.map with held := (heldWith s (s.part p).map.held locs).filter (fun b => memByte t b.1 != b.2) } }) := by
  unfold tablesKept at hk
  simp only [tableWrite, h, hl, Bool.not_true, Bool.false_eq_true, if_false]
  exact if_neg (by rw [Bool.not_eq_true]; exact hk)

end

/-- What a write among a partition's page tables leaves, by whether it breaks translations and whether a launch is there. -/
theorem tableWrite_spec {s t : State} {p : Nat} {locs : List Nat}
    (htab : anyTable s (s.part p).map locs 4 (s.part p).map.ptroot.toNat = true) (hparts : t.parts = s.parts) (hgen : t.gen = s.gen) :
    let u := tableWrite s t p locs
    { u with parts := s.parts, gen := s.gen } = t ∧
    (tablesKept s t p locs = true → u.gen = s.gen ∧ (u.part p).map.held = ((s.part p).map.without locs).held) ∧
    (tablesKept s t p locs = false → hasLaunches s p = false → u.gen = s.gen + 1 ∧ (u.part p).map.held = ((s.part p).map.without locs).held) ∧
    (tablesKept s t p locs = false → hasLaunches s p = true → u.gen = s.gen ∧
      ∀ a ∈ locs, memByte t a ≠ memByte s a → tfind (s.part p).map.held a = none → tfind (u.part p).map.held a = some (memByte s a)) := by
  have hframe : { t with parts := s.parts, gen := s.gen } = t := by rw [← hparts, ← hgen]
  cases hk : tablesKept s t p locs
  case true =>
    have hpart := part_modPart t p (fun q => { q with map := ((s.part p).map.without locs).prune t })
    dsimp only
    rw [tableWrite_kept htab hk]
    exact ⟨hframe, fun _ => ⟨hgen, congrArg (fun q => q.map.held) hpart⟩, nofun, nofun⟩
  case false =>
    cases hl : hasLaunches s p
    case false =>
      have hpart := part_modPart_gen t p (fun q => { q with map := ((s.part p).map.without locs).prune t }) (t.gen + 1)
      dsimp only
      rw [tableWrite_breaks htab hk hl]
      exact ⟨hframe, nofun, fun _ _ => ⟨congrArg (· + 1) hgen, congrArg (fun q => q.map.held) hpart⟩, fun _ => nofun⟩
    case true =>
      have hpart := part_modPart t p (fun q => { q with
        map := { q.map with held := (heldWith s (s.part p).map.held locs).filter (fun b => memByte t b.1 != b.2) } })
      dsimp only
      rw [tableWrite_held htab hk hl]
      refine ⟨hframe, nofun, fun _ => nofun, fun _ _ => ⟨hgen, fun a ha hne hnone => ?_⟩⟩
      rw [hpart]
      exact tfind_filter (tfind_heldWith s ha hnone) (by simpa using hne)

theorem foldl_tableWrite_none {s t : State} {locs : List Nat} {ps : List Nat}
    (h : ∀ q ∈ ps, anyTable s (s.part q).map locs 4 (s.part q).map.ptroot.toNat = false) :
    ps.foldl (fun t q => tableWrite s t q locs) t = t :=
  List.foldlRecOn (motive := (· = t)) _ _ rfl fun _ hu q hq => (tableWrite_none (h q hq)).trans hu

/-- Where one partition alone has a table among the bytes, its write is the whole of it. -/
theorem foldl_tableWrite {s t : State} {locs : List Nat} {ps : List Nat} {p : Nat}
    (hother : ∀ q ∈ ps, q ≠ p → anyTable s (s.part q).map locs 4 (s.part q).map.ptroot.toNat = false) (hone : ps.filter (fun q => q == p) = [p]) :
    ps.foldl (fun t q => tableWrite s t q locs) t = tableWrite s t p locs := by
  induction ps with
  | nil => cases hone
  | cons q ps ih =>
    rw [List.foldl_cons]
    by_cases hq : q = p
    · subst hq
      have hrest : ps.filter (fun x => x == q) = [] := by simpa using hone
      refine foldl_tableWrite_none fun x hx => hother x (List.mem_cons_of_mem _ hx) fun he => ?_
      exact List.filter_eq_nil_iff.mp hrest x hx (beq_iff_eq.mpr he)
    · rw [tableWrite_none (hother q (List.mem_cons_self ..) hq)]
      refine ih (fun x hx => hother x (List.mem_cons_of_mem _ hx)) ?_
      rwa [List.filter_cons_of_neg (by simpa using hq)] at hone

/-- One entry of a table has a key, once. -/
theorem keys_single {α : Type} {t : Tab α} {k : Nat} (h : ∃ y, t.filter (fun x => x.1 == k) = [y]) :
    (t.map (fun x => x.1)).filter (fun j => j == k) = [k] ∧ ∃ y ∈ t, y.1 = k := by
  obtain ⟨y, hy⟩ := h
  have hmem : y ∈ t.filter (fun x => x.1 == k) := by rw [hy]; exact List.mem_singleton_self y
  obtain ⟨hyt, hyk⟩ := List.mem_filter.mp hmem
  have hyk : y.1 = k := beq_iff_eq.mp hyk
  refine ⟨?_, y, hyt, hyk⟩
  rw [List.filter_map, Function.comp_def, hy, List.map_singleton, hyk]

/-! ### The bytes of a write reach home memory -/

section
variable {s : State} (hm : s.migrations = [])
include hm

/-- Where nothing migrates a write is one event of H and changes memory alone. -/
theorem homeWrite_still (bs : List (Nat × Byte)) : ∃ m e, homeWrite s bs = { s with mem := m, hist := e :: s.hist } := by
  unfold homeWrite
  rw [writeBytes_still hm]
  exact ⟨_, _, rfl⟩

variable (hinj : ∀ a d, redir s a = redir s d → a = d)
include hinj

theorem memByte_hostWrite (loc : Nat) (data : List Byte) :
    let t := homeWrite s ((bytesFrom loc data.length).zip data)
    (∀ i x, data[i]? = some x → memByte t (loc + i) = x) ∧ ∀ a, a < loc ∨ loc + data.length ≤ a → memByte t a = memByte s a := by
  have hnodup : (bytesFrom loc data.length).Nodup := List.nodup_range.map (add_right_injective loc)
  refine ⟨fun i x hx => ?_, fun a ha => memByte_homeWrite_other hm hinj _ fun hmem => ?_⟩
  · have hread := map_memByte_homeWrite hm hinj hnodup (bs := data) (by simp [bytesFrom])
    obtain ⟨hi, rfl⟩ := List.getElem?_eq_some_iff.mp hx
    have hget := congrArg (fun bs : List Byte => bs[i]?) hread
    simpa [bytesFrom, hi] using hget
  · obtain ⟨i, hi, rfl⟩ := List.mem_map.mp hmem
    have := List.mem_range.mp hi
    omega

end

/-- A write that is not discarded: one event of H, and then the tables of each partition. -/
theorem hostWrite_reaches {s : State} {part addr loc : Nat} {data : List Byte} (hp : part < 16) (hne : data ≠ []) (hfit : addr % 32 + data.length ≤ 32)
    (hx : hostXl s part addr .store = .at_ loc) (ha : absent loc = false) (hl : lockedAt s loc = false) (hb : badUnit s loc = false)
    (hm : s.migrations = []) (hinj : ∀ a d, redir s a = redir s d → a = d) :
    ∃ w, exec (.hostWrite part addr data) s =
        .next ((s.parts.map (fun q => q.1)).foldl (fun t q => tableWrite s t q (bytesFrom loc data.length)) w) ∧
      { w with mem := s.mem, hist := s.hist, bad := s.bad } = s ∧ w.hpt = s.hpt + 1 ∧ (∀ i x, data[i]? = some x → memByte w (loc + i) = x) ∧
      ∀ a, a < loc ∨ loc + data.length ≤ a → memByte w a = memByte s a := by
  obtain ⟨bad, hfresh⟩ := unitFreshened_eq s loc data.length
  obtain ⟨m, e, hstill⟩ := homeWrite_still (s := { s with bad := bad }) hm ((bytesFrom loc data.length).zip data)
  obtain ⟨hread, hother⟩ := memByte_hostWrite (s := { s with bad := bad }) hm hinj loc data
  have hunit := hostWriteUnit_good (data := data) hx ha hl hb
  rw [hfresh, hstill] at hunit
  rw [hstill] at hread hother
  exact ⟨_, (exec_hostWrite hp hne hfit).trans (congrArg Host.Outcome.next hunit), rfl, rfl, hread, hother⟩

/-! ### Resets -/

/-- What a function-level reset clears of a partition. -/
def Part.cleared (q : Part) : Part :=
  { q with map := {}, staged := {}, heldMap := none, win := [], bells := [], ringbase := 0, ringslots := 0, head := 0, tail := 0 }

theorem exec_functionLevelReset (s : State) {part : Nat} (hp : part < 16) :
    ∃ n, exec (.functionLevelReset part) s = .next { (resetPart s part).modPart part Part.cleared with gen := n } := by
  show ∃ n, execFunctionLevelReset part s = _
  unfold execFunctionLevelReset
  rw [if_neg (Nat.not_le.mpr hp)]
  dsimp only
  split
  · exact ⟨_, rfl⟩
  · exact ⟨_, rfl⟩

theorem endsHeld_iff (q : Part) : endsHeld q = true ↔ ∃ r ∈ q.held, r.kind = 2 ∨ r.kind = 3 := by simp [endsHeld]

/-! ### The obligation -/

/-- Settles O46: discarding launches leaves marks and offers alone; a host access of one unit is one translation, one event of H, and at most one
partition's tables. -/
theorem resetsAndHostAccess : Obligations.ResetsAndHostAccess := by
  unfold Obligations.ResetsAndHostAccess
  intro s part addr data _ q quiet
  refine ⟨fun hp => ?_, fun hp => ?_, fun hp => ?_, ⟨fun hr hends => ?_, fun h => ?_⟩, ?_⟩
  · have hout : ¬ part < 16 := Nat.not_lt.mpr hp
    exact ⟨congrArg Host.Outcome.next (if_neg hout), if_pos hp, if_pos hp, fun len => if_pos hp⟩
  · obtain ⟨hr, ho, hclaims⟩ := resetPart_spec s part
    have hpart := part_modPart (resetPart s part) part (fun q => { q with status := stOK })
    exact ⟨_, congrArg Host.Outcome.next (if_pos hp),
      ⟨(congrArg Part.resetting hpart).trans hr, (congrArg Part.offers hpart).trans ho, hclaims⟩, congrArg Part.status hpart⟩
  · obtain ⟨hr, ho, hclaims⟩ := resetPart_spec s part
    obtain ⟨n, hexec⟩ := exec_functionLevelReset s hp
    have hpart := part_modPart_gen (resetPart s part) part Part.cleared n
    exact ⟨_, hexec, ⟨(congrArg Part.resetting hpart).trans hr, (congrArg Part.offers hpart).trans ho, hclaims⟩, congrArg Part.map hpart,
      congrArg Part.staged hpart, congrArg Part.heldMap hpart, congrArg Part.win hpart, congrArg Part.bells hpart, congrArg Part.ringslots hpart,
      congrArg Part.head hpart, congrArg Part.tail hpart⟩
  · have hdone : (q.resetting && !endsHeld q) = true := by rw [hr, Bool.eq_false_of_not_eq_true fun h => hends ((endsHeld_iff q).mp h)]; rfl
    have hexec : exec (.resetDone part) s = .next (s.modPart part (fun q => { q with resetting := false, irqs := vRESET :: q.irqs })) :=
      congrArg Host.Outcome.next ((if_pos hdone).trans (modPart_modPart _ _ _ _))
    exact answers_modPart hexec rfl
  · have hidle : ¬ (q.resetting && !endsHeld q) = true := by
      rcases h with h | h
      · simp [h]
      · simp [(endsHeld_iff q).mpr h]
    exact congrArg Host.Outcome.next (if_neg hidle)
  · intro hp hne hfit xl discards fails tables writes
    have hdrop (c : Nat) (h : hostWriteUnit s part addr data = dropUnit s part addr c) : discards c :=
      ⟨_, (exec_hostWrite hp hne hfit).trans (congrArg Host.Outcome.next h), part_modPart s part (fun q => { q with discarded := true }), rfl, rfl⟩
    refine ⟨fun loc hx => ⟨fun ha => ?_, fun ha hl => ?_, fun ha hl hb hlen => ?_, fun ha hl hb =>
      ⟨fun hnone hm hinj => ?_, fun p htab hone hm hinj => ?_⟩⟩,
      fun c a hx => ?_, fun d x hx => ?_, fun loc hx ha hb => ?_, fun loc hx ha hb => ?_, fun loc hx ha => ?_, fun hx => ?_, fun hx => ?_⟩
    · exact hdrop _ (hostWriteUnit_absent (hostXl_of_here hx nofun) ha)
    · exact hdrop _ (hostWriteUnit_locked (hostXl_of_here hx nofun) ha hl)
    · exact hdrop _ (hostWriteUnit_uncorr (hostXl_of_here hx nofun) ha hl hb hlen.ne)
    · obtain ⟨w, hw, hframe, hpoint, hread, hother⟩ := hostWrite_reaches hp hne hfit (hostXl_of_here hx nofun) ha hl hb hm hinj
      rw [foldl_tableWrite_none fun p hp => ?_] at hw
      · exact ⟨w, hw, hpoint, hread, hother, hframe⟩
      · obtain ⟨x, hx, rfl⟩ := List.mem_map.mp hp
        exact hnone x hx
    · obtain ⟨w, hw, hframe, hpoint, hread, hother⟩ := hostWrite_reaches hp hne hfit (hostXl_of_here hx nofun) ha hl hb hm hinj
      obtain ⟨hkeys, y, hys, hyp⟩ := keys_single hone
      have htable : tables p loc = true := hyp ▸ (htab y hys).mpr hyp
      have hothers : ∀ k ∈ s.parts.map (fun x => x.1), k ≠ p → tables k loc = false := fun k hk hkp => by
        obtain ⟨x, hx, rfl⟩ := List.mem_map.mp hk
        exact Bool.eq_false_of_not_eq_true fun h => hkp ((htab x hx).mp h)
      rw [foldl_tableWrite (locs := bytesFrom loc data.length) hothers hkeys] at hw
      have hparts : w.parts = s.parts := (congrArg State.parts hframe :)
      have hgen : w.gen = s.gen := (congrArg State.gen hframe :)
      obtain ⟨hrest, hkept, hbreaks, hheld⟩ := tableWrite_spec htable hparts hgen
      have hmem (a : Nat) : memByte (tableWrite s w p (bytesFrom loc data.length)) a = memByte w a := (congrArg (memByte · a) hrest :)
      refine ⟨_, hw, (congrArg State.hpt hrest :).trans hpoint, fun i x hx => (hmem _).trans (hread i x hx), fun a ha => (hmem a).trans (hother a ha), ?_⟩
      beta_reduce
      intro m n u kept
      have hu : u = w := hrest
      have hk : kept = tablesKept s w p (bytesFrom loc data.length) := by
        simp only [kept, hu]
        rfl
      have hrested := congrArg (fun v : State => { v with mem := s.mem, hist := s.hist, bad := s.bad }) hrest
      refine ⟨hrested.trans hframe, fun h => hkept (hk ▸ h), fun h hno => hbreaks (hk ▸ h) ((hasLaunches_false_iff s p).mpr hno), fun h hl => ?_⟩
      obtain ⟨hsame, hold⟩ := hheld (hk ▸ h) ((hasLaunches_iff s p).mpr hl)
      exact ⟨hsame, fun i hi hchanged hnone => hold _ (List.mem_map_of_mem (List.mem_range.mpr hi)) (fun e => hchanged ((hmem _).trans e)) hnone⟩
    · exact hdrop _ (hostWriteUnit_bad (hostXl_of_here hx nofun))
    · exact hdrop _ (hostWriteUnit_bad (hostXl_of_remote hx))
    · have hu : hostReadUnit s part addr data.length = .inr ((List.range data.length).map (fun i => memByte s (loc + i))) := by
        simp only [hostReadUnit, hostXl_of_here hx nofun, ha, hb, Bool.false_eq_true, if_false]
      exact exec_hostRead_data hp hne hfit hu
    · have hu : hostReadUnit s part addr data.length = .inl 3 := by
        simp only [hostReadUnit, hostXl_of_here hx nofun, ha, hb, Bool.false_eq_true, if_false, if_true]
      exact exec_hostRead_bad hp hne hfit hu
    · have hu : hostReadUnit s part addr data.length = .inl 1 := by
        simp only [hostReadUnit, hostXl_of_here hx nofun, ha, if_true]
      exact exec_hostRead_error hp hne hfit hu (by decide)
    · have hu : hostReadUnit s part addr data.length = .inl 1 := by
        simp only [hostReadUnit, hostXl_of_here hx nofun, if_true]
      exact exec_hostRead_error hp hne hfit hu (by decide)
    · have hu : hostReadUnit s part addr data.length = .inl 2 := by
        simp only [hostReadUnit, hostXl_of_here hx nofun]
        rfl
      exact exec_hostRead_error hp hne hfit hu (by decide)

end Sys2Proof.Machine
end

section
/-! PROOF. Every step keeps the invariant `Inv`. The model's operations are walked once, in the order of its files: an
operation that makes a state has a lemma `inv_f`, a move that ends in an outcome a lemma `keeps_f`, each composed of those
of the operations that it calls. All but a few write neither the memories nor the claim table (`inv_congr`); the content is
in those that do: `writeByte`, `copyLine`, `hostPut`, `STH`, LDH_COMPLETION and `setClaim`. -/

namespace Sys2Proof.Machine

/-- An outcome whose next state, where it has one, meets the invariant. -/
def KeepsInv : Out → Prop
  | .next t => Inv t
  | _ => True

section
variable {s : State}

/-! ### The forms that operations are composed of -/

theorem keeps_fault {r} : KeepsInv (.fault r) := trivial

theorem keeps_refused {r} : KeepsInv (.refused r) := trivial

theorem inv_ite {p : Prop} [Decidable p] {t u : State} (ht : Inv t) (hu : Inv u) : Inv (if p then t else u) := by
  split
  · exact ht
  · exact hu

theorem inv_ite_fst {α : Type} {p : Prop} [Decidable p] {t u : State × α} (ht : Inv t.1) (hu : Inv u.1) : Inv (if p then t else u).1 := by
  split
  · exact ht
  · exact hu

theorem keeps_ite {p : Prop} [Decidable p] {a b : Out} (ha : KeepsInv a) (hb : KeepsInv b) : KeepsInv (if p then a else b) := by
  split
  · exact ha
  · exact hb

theorem inv_of_fst {α : Type} {p : State × α} {t : State} {x : α} (h : Inv p.1) (e : p = (t, x)) : Inv t := by
  subst e; exact h

theorem inv_foldl {α : Type} {f : State → α → State} {xs : List α} (h : Inv s) (hf : ∀ s x, Inv s → Inv (f s x)) : Inv (xs.foldl f s) := by
  induction xs generalizing s with
  | nil => exact h
  | cons x xs ih => exact ih (hf s x h)

theorem inv_foldl_fst {α β : Type} {f : State × β → α → State × β} {xs : List α} {p : State × β}
    (h : Inv p.1) (hf : ∀ p x, Inv p.1 → Inv (f p x).1) : Inv (xs.foldl f p).1 := by
  induction xs generalizing p with
  | nil => exact h
  | cons x xs ih => exact ih (hf p x h)

/-! ### Sys2Proof/Machine/Ops.lean -/

theorem inv_setWave {w x} (h : Inv s) : Inv (s.setWave w x) := inv_congr h rfl rfl rfl

theorem inv_modWave {w f} (h : Inv s) : Inv (s.modWave w f) := inv_congr h rfl rfl rfl

theorem inv_modBlock {serial block f} (h : Inv s) : Inv (s.modBlock serial block f) := inv_congr h rfl rfl rfl

theorem inv_modLaunch {serial f} (h : Inv s) : Inv (s.modLaunch serial f) := inv_congr h rfl rfl rfl

theorem inv_modPart {p f} (h : Inv s) : Inv (s.modPart p f) := inv_congr h rfl rfl rfl

theorem inv_modCluster {c f} (h : Inv s) : Inv (s.modCluster c f) := inv_congr h rfl rfl rfl

theorem inv_modCopy {c f} (h : Inv s) : Inv (s.modCopy c f) := inv_congr h rfl rfl rfl

theorem inv_modSweep {c f} (h : Inv s) : Inv (s.modSweep c f) := inv_congr h rfl rfl rfl

theorem inv_modBSlot {core b f} (h : Inv s) : Inv (s.modBSlot core b f) := inv_congr h rfl rfl rfl

theorem inv_modPort {p f} (h : Inv s) : Inv (s.modPort p f) := inv_congr h rfl rfl rfl

theorem inv_setClaim {e c} (h : Inv s) : Inv (State.setClaim s e c) := ⟨h.1, h.2.1, sorted_setClaim e c h.2.2⟩

theorem keeps_onPath {id slotB f} (h : Inv s) (hf : ∀ c, Inv (f c)) : KeepsInv (onPath s id slotB f) := by
  unfold onPath
  split
  · exact inv_ite (hf _) h
  · exact h

theorem keeps_issue {f} (hf : ∀ c, Inv (f c)) : KeepsInv (issue s f) := by
  unfold issue
  split
  · exact hf _
  · exact keeps_refused

theorem inv_done {c f} (h : Inv s) : Inv (Ctx.done c s f) := inv_modWave h

theorem inv_dropLatch {slot} (h : Inv s) : Inv (dropLatch s slot) := inv_congr h rfl rfl rfl

theorem inv_recordTrap {serial t} (h : Inv s) : Inv (recordTrap s serial t) := inv_modLaunch h

theorem inv_addTrap {serial t} (h : Inv s) : Inv (addTrap s serial t) := inv_recordTrap (inv_ite (inv_dropLatch h) h)

theorem inv_takeTrap {c t} (h : Inv s) : Inv (takeTrap c s t) := inv_recordTrap (inv_dropLatch (inv_modWave h))

theorem inv_raise {c code attr construct lanes value} (h : Inv s) : Inv (raise c s code attr construct lanes value) :=
  inv_takeTrap h

theorem inv_raiseLanes {c code lanes value} (h : Inv s) : Inv (raiseLanes c s code lanes value) := inv_raise h

theorem inv_raiseWave {c code value} (h : Inv s) : Inv (raiseWave c s code value) := inv_raise h

theorem inv_raiseLimit {c construct limit} (h : Inv s) : Inv (raiseLimit c s construct limit) := inv_raise h

theorem inv_hold {c hd limit} (h : Inv s) : Inv (Ctx.hold c s hd limit) := inv_modWave h

theorem inv_holdMet {c hd limit p} (h : Inv s) : Inv (Ctx.holdMet c s hd limit p) := inv_modWave h

theorem inv_setPoint {r p} (h : Inv s) : Inv (setPoint s r p) := by
  unfold setPoint
  split
  · exact inv_modBlock h
  · exact inv_modLaunch h

theorem inv_countDown {r n hpt src} (h : Inv s) : Inv (countDown s r n hpt src) := inv_ite (inv_setPoint h) (inv_setPoint h)

theorem inv_failPoint {r code src} (h : Inv s) : Inv (failPoint s r code src) := by
  unfold failPoint
  split
  · exact inv_setPoint h
  · exact h

theorem inv_report {kind a value} (h : Inv s) : Inv (report s kind a value) := inv_congr h rfl rfl rfl

theorem inv_tellUnit {u} (h : Inv s) : Inv (tellUnit s u) := by
  unfold tellUnit
  split
  · exact inv_report h
  · exact inv_report h

theorem inv_copyLine {g line} (h : Inv s) : Inv (copyLine s g line) :=
  inv_foldl (s := { s with mem := _, migrations := _ }) ⟨wf_tputs _ _ h.1, h.2⟩ (fun _ _ h0 => inv_tellUnit h0)

theorem inv_writeByte {loc b} (h : Inv s) : Inv (writeByte s loc b) := by
  have hp : Inv { s with mem := tset 0 s.mem (redir s loc) b } := ⟨wf_tset _ _ h.1, h.2⟩
  dsimp only [writeByte]
  split
  · exact inv_copyLine hp
  · exact hp

theorem inv_writeBytes {bs} (h : Inv s) : Inv (writeBytes s bs) := inv_foldl h fun _ _ h1 => inv_writeByte h1

theorem inv_homeWrite {bs} (h : Inv s) : Inv (homeWrite s bs) := inv_congr (inv_writeBytes h) rfl rfl rfl

theorem inv_addBytes {serial tier n} (h : Inv s) : Inv (addBytes s serial tier n) := inv_modLaunch h

theorem inv_countAccess {p locs} (h : Inv s) : Inv (countAccess s p locs) := inv_ite (inv_foldl h fun _ _ h1 => inv_modPart h1) h

theorem inv_enterStgs {id key} (h : Inv s) : Inv (enterStgs s id key) := by
  unfold enterStgs
  split
  · exact h
  · exact inv_ite h (inv_setWave (inv_congr h rfl rfl rfl))

theorem inv_addPhase {serial block} (h : Inv s) : Inv (addPhase s serial block) := inv_modBlock h

theorem inv_endRelaunch {serial block} (h : Inv s) : Inv (endRelaunch s serial block) := inv_modBlock h

theorem inv_publishSet {id key core pc claim} (h : Inv s) : Inv (publishSet s id key core pc claim).1 :=
  inv_ite_fst (inv_addPhase h) (inv_congr (inv_foldl (inv_addPhase h) fun _ _ h1 => inv_endRelaunch h1) rfl rfl rfl)

theorem inv_publish {id key core pc claim} (h : Inv s) : Inv (publish s id key core pc claim).1 :=
  inv_publishSet (inv_enterStgs h)

theorem inv_ctxPublish {c claim} (h : Inv s) : Inv (Ctx.publish c s claim).1 := inv_publish h

theorem inv_startView {key homePt acq} (h : Inv s) : Inv (startView s key homePt acq) := inv_congr h rfl rfl rfl

theorem inv_stableRead {key locs} (h : Inv s) : Inv (stableRead s key locs).1 := inv_foldl_fst h fun _ _ h1 => by
  dsimp only
  split
  · exact h1
  · split
    · exact h1
    · exact inv_congr h1 rfl rfl rfl

theorem inv_stableLane {key locs} (h : Inv s) : Inv (stableLane s key locs).1 :=
  inv_foldl_fst h fun _ _ h1 => inv_congr (inv_stableRead h1) rfl rfl rfl

theorem inv_addTouches {serial block kind pc locs} (h : Inv s) : Inv (addTouches s serial block kind pc locs) := by
  unfold addTouches
  split
  · exact inv_modLaunch h
  · exact h

theorem inv_acquire {serial block c} (h : Inv s) : Inv (acquire s serial block c) := inv_modBlock h

/-! ### Sys2Proof/Machine/Operands.lean -/

theorem inv_write {c ws} (h : Inv s) : Inv (Ctx.write c s ws) := inv_done h

theorem inv_later {c dst ws} (h : Inv s) : Inv (Ctx.later c s dst ws) := inv_done h

/-! ### Sys2Proof/Machine/Flits.lean -/

theorem inv_enqueue {port f} (h : Inv s) : Inv (enqueue s port f) := inv_modPort h

theorem inv_routeFlit {f} (h : Inv s) : Inv (routeFlit s f) := inv_enqueue h

theorem inv_sendFlit {dev kind vc payload} (h : Inv s) : Inv (sendFlit s dev kind vc payload) := inv_routeFlit h

/-! ### Sys2Proof/Machine/CrossLane.lean -/

theorem keeps_crossWord {r f} (h : Inv s) : KeepsInv (crossWord r s f) := keeps_issue fun _ => inv_later h

/-! ### Sys2Proof/Machine/Scratch.lean -/

theorem inv_scrWrite {serial block die a bs} (h : Inv s) : Inv (scrWrite s serial block die a bs) := by
  unfold scrWrite
  split
  · exact inv_ite (inv_modLaunch h) (inv_modBlock h)
  · exact h

theorem inv_raiseAt {c code once bad} (h : Inv s) : Inv (raiseAt c s code once bad) := inv_raiseLanes h

theorem inv_checkSp {c once size n align at_ ok} (h : Inv s) (hok : ∀ x, Inv (ok x)) :
    Inv (checkSp c s once size n align at_ ok) :=
  inv_ite (inv_raiseAt h) (inv_ite (inv_raiseAt h) (hok _))

theorem inv_spIssue {c kind dst pk limit eff} (h : Inv s) : Inv (spIssue c s kind dst pk limit eff) := inv_done h

theorem keeps_execLds {m} (h : Inv s) : KeepsInv (execLds m s) :=
  keeps_issue fun _ => inv_ite (inv_done h) (inv_checkSp h fun _ => inv_spIssue h)

theorem keeps_execSts {m} (h : Inv s) : KeepsInv (execSts m s) :=
  keeps_issue fun _ => inv_ite (inv_done h) (inv_checkSp h fun _ => inv_spIssue h)

theorem inv_raiseConflict {c lanes name t} (h : Inv s) : Inv (raiseConflict c s lanes name t) := inv_takeTrap h

theorem inv_detTouch {c once kind at_ ok} (h : Inv s) (hok : ∀ s, Inv s → Inv (ok s)) : Inv (detTouch c s once kind at_ ok) := by
  refine inv_ite (hok _ h) ?_
  split
  · exact inv_raiseConflict h
  · exact hok _ (inv_addTouches h)

theorem keeps_execDlds {m} (h : Inv s) : KeepsInv (execDlds m s) :=
  keeps_issue fun _ => inv_ite (inv_done h) (inv_checkSp h fun _ => inv_detTouch h fun _ h1 => inv_spIssue h1)

theorem keeps_execDsts {m} (h : Inv s) : KeepsInv (execDsts m s) :=
  keeps_issue fun _ => inv_ite (inv_done h) (inv_checkSp h fun _ => inv_detTouch h fun _ h1 => inv_spIssue h1)

theorem keeps_execAts {op r} (h : Inv s) : KeepsInv (execAts op r s) :=
  keeps_issue fun _ => inv_ite (inv_done h) (inv_checkSp h fun _ => inv_spIssue h)

theorem keeps_execCass {r} (h : Inv s) : KeepsInv (execCass r s) :=
  keeps_issue fun _ => inv_ite (inv_done h) (inv_checkSp h fun _ => inv_spIssue h)

theorem keeps_feWord {hd scalar sa k dst} (h : Inv s) : KeepsInv (feWord hd scalar sa s k dst) :=
  keeps_issue fun _ => inv_ite (inv_done h) (inv_checkSp h fun _ => inv_spIssue h)

theorem keeps_execQinit {hd q sa logc allow} (h : Inv s) : KeepsInv (execQinit hd q sa logc allow s) :=
  keeps_issue fun _ => inv_ite (inv_done h) (inv_checkSp h fun _ => inv_spIssue h)

theorem inv_spDone {id tag ws} (h : Inv s) : Inv (spDone s id tag ws) := inv_modWave h

theorem inv_serveLanes {id ty f ls} (h : Inv s) : Inv (serveLanes s id ty f ls).1 := by
  induction ls generalizing s with
  | nil => exact h
  | cons x t ih =>
    refine ih ?_
    split
    · exact inv_scrWrite h
    · exact h

theorem inv_setSpHead {id op} (h : Inv s) : Inv (setSpHead s id op) := inv_modWave h

theorem inv_stepParts {id op parts pick act fin} (h : Inv s) (hact : ∀ x, Inv (act x).1) (hfin : ∀ s op, Inv s → Inv (fin s op)) :
    Inv (stepParts s id op parts pick act fin) := by
  dsimp only [stepParts]
  split
  · exact hfin _ _ h
  · split
    · exact inv_of_fst (hact _) ‹_›
    · have hp := inv_of_fst (hact _) ‹_›
      exact inv_ite (hfin _ _ hp) (inv_setSpHead hp)

theorem inv_trapSp {id w b op t} (h : Inv s) : Inv (trapSp s id w b op t) := inv_addTrap (inv_modWave h)

theorem inv_trapDie {id w b op a} (h : Inv s) : Inv (trapDie s id w b op a) := inv_trapSp h

theorem inv_countPart {serial die p xs} (h : Inv s) : Inv (countPart s serial die p xs) :=
  inv_ite (inv_addBytes h) (inv_addBytes h)

theorem inv_fillLines {serial block full} (h : Inv s) : Inv (fillLines s serial block full) := inv_modBlock h

theorem inv_plainPart {id w b op p} (h : Inv s) : Inv (plainPart s id w b op p).1 := by
  dsimp only [plainPart]
  split
  · split
    · exact inv_trapDie h
    · exact inv_countPart h
  · exact inv_countPart h
  · split
    · exact inv_trapDie h
    · exact inv_ite (inv_endRelaunch (inv_foldl (inv_countPart h) fun _ _ h1 => inv_scrWrite h1)) (inv_foldl (inv_countPart h)
        fun _ _ h1 => inv_scrWrite h1)
  · exact inv_addBytes (inv_serveLanes h)
  · exact inv_addBytes (inv_serveLanes h)
  · exact inv_fillLines h
  · exact inv_modBlock h
  · exact h
  · exact h

theorem inv_plainEnd {id op} (h : Inv s) : Inv (plainEnd s id op) := by
  unfold plainEnd
  split
  · exact inv_spDone (inv_modBlock h)
  · exact inv_spDone h

theorem inv_performPlain {id} (h : Inv s) : Inv (performPlain s id) := by
  unfold performPlain
  split
  · exact inv_ite h (inv_stepParts h (fun _ => inv_plainPart h) fun _ _ h1 => inv_plainEnd h1)
  · exact h

theorem inv_performPush {id} (h : Inv s) : Inv (performPush s id) := by
  unfold performPush
  split
  · split
    · split
      · exact inv_ite (inv_spDone (inv_modBlock (inv_scrWrite (inv_addBytes h)))) h
      · exact h
    · exact h
  · exact h

theorem inv_performPop {id} (h : Inv s) : Inv (performPop s id) := by
  unfold performPop
  split
  · split
    · split
      · exact inv_ite (inv_spDone (inv_modBlock (inv_addBytes h))) h
      · exact h
    · exact h
  · exact h

theorem keeps_execLdsFillComplete {w} (h : Inv s) : KeepsInv (execLdsFillComplete w s) := by
  unfold execLdsFillComplete
  split
  · split
    · exact inv_performPlain h
    · exact h
  · exact h

theorem inv_trapSpLimit {id w b op construct} (h : Inv s) : Inv (trapSpLimit s id w b op construct) := by
  unfold trapSpLimit
  split
  · exact inv_trapSp h
  · exact h

theorem keeps_execFillLimitExpiry {w} (h : Inv s) : KeepsInv (execFillLimitExpiry w s) := by
  unfold execFillLimitExpiry
  split
  · split
    · exact keeps_ite (inv_trapSpLimit h) h
    · exact h
  · exact h

/-! ### Sys2Proof/Machine/DeviceMem.lean -/

theorem keeps_issueOut {f} (hf : ∀ c, KeepsInv (f c)) : KeepsInv (issueOut s f) := by
  unfold issueOut
  split
  · exact hf _
  · exact keeps_refused

theorem keeps_checkDev {c once accs ok} (h : Inv s) (hok : ∀ s, Inv s → KeepsInv (ok s)) :
    KeepsInv (checkDev c s once accs ok) := by
  dsimp only [checkDev]
  split
  · exact inv_raise h
  · exact keeps_ite keeps_fault (hok _ h)

theorem inv_countDev {serial t accs} (h : Inv s) : Inv (countDev s serial t accs) := inv_foldl h fun _ _ h1 => inv_addBytes h1

theorem inv_countHot {part accs} (h : Inv s) : Inv (countHot s part accs) := inv_foldl h fun _ _ h1 => inv_countAccess h1

theorem inv_request {c pk dst rs} (h : Inv s) : Inv (Ctx.request c s pk dst rs) := inv_done h

theorem inv_uncorr {id w core pc addr} (h : Inv s) : Inv (uncorr s id w core pc addr) := inv_addTrap h

theorem inv_lockedOut {id w core pc addr} (h : Inv s) : Inv (lockedOut s id w core pc addr) := inv_addTrap h

theorem inv_readStable {key locs ty dk dst lane} (h : Inv s) : Inv (readStable s key locs ty dk dst lane).1 := by
  unfold readStable
  split
  · exact h
  · exact inv_stableLane h

theorem keeps_execLdg {home m} (h : Inv s) : KeepsInv (execLdg home m s) :=
  keeps_issueOut fun _ => keeps_ite (inv_done h) (keeps_checkDev h fun _ h1 => inv_detTouch h1 fun _ h2 =>
    have h3 := inv_countHot (inv_countDev h2)
    inv_ite (inv_done (inv_foldl_fst h3 fun _ _ h4 => by
      split
      · exact inv_uncorr (inv_of_fst (inv_readStable h4) ‹_›)
      · exact inv_of_fst (inv_readStable h4) ‹_›)) (inv_request h3))

theorem keeps_execStg {m} (h : Inv s) : KeepsInv (execStg m s) :=
  keeps_issueOut fun _ => keeps_ite (inv_done h) (keeps_checkDev h fun _ h1 => inv_detTouch h1 fun _ h2 => inv_ite (inv_done
    (inv_congr (inv_countHot (inv_countDev h2)) rfl rfl rfl)) (inv_request (inv_countHot (inv_countDev h2))))

theorem inv_checkHost {c once accs ok} (h : Inv s) (h_ok : Inv ok) : Inv (checkHost c s once accs ok) := by
  dsimp only [checkHost]
  split
  · exact inv_raise h
  · exact h_ok

theorem keeps_execLdh {m} (h : Inv s) : KeepsInv (execLdh m s) :=
  keeps_issue fun _ => inv_ite (inv_done h) (inv_checkHost h (inv_request (inv_addBytes h)))

theorem wf_foldl {α : Type} {f : List Host.Cell → α → List Host.Cell} (hf : ∀ m x, Memory.wf m = true → Memory.wf (f m x) = true)
    {xs : List α} {m : List Host.Cell} (h : Memory.wf m = true) : Memory.wf (xs.foldl f m) = true := by
  induction xs generalizing m with
  | nil => exact h
  | cons x xs ih => exact ih (hf m x h)

theorem keeps_execSth {m} (h : Inv s) : KeepsInv (execSth m s) :=
  keeps_issue fun _ => inv_ite (inv_done h) (inv_checkHost h (inv_done (inv_addBytes
    ⟨h.1, wf_foldl (fun _ _ h0 => wf_foldl (fun _ _ h1 => wf_tset _ _ h1) h0) h.2.1, h.2.2⟩)))

theorem keeps_execLdhCompletion {w k data} (h : Inv s) : KeepsInv (execLdhCompletion w k data s) := by
  have hm : ∀ xs : List (Nat × Option Byte),
      Inv { s with hostMem := xs.foldl (fun t p => match p.2 with | some b => tset 0 t p.1 b | none => t) s.hostMem } :=
    fun xs => ⟨h.1, wf_foldl (fun m x h0 => by split; exacts [wf_tset _ _ h0, h0]) h.2.1, h.2.2⟩
  unfold execLdhCompletion
  split
  · split
    · split
      · exact keeps_ite (inv_setWave (hm _)) (keeps_ite (inv_setWave (hm _)) (inv_addTrap (inv_setWave (hm _))))
      · exact h
    · exact h
  · exact h

theorem inv_sendAtomics {pc opc ty scal dst rs} (h : Inv s) : Inv (sendAtomics s pc opc ty scal dst rs).1 :=
  inv_foldl_fst h fun _ _ h1 => inv_foldl_fst h1 fun _ _ h2 => inv_sendFlit (inv_congr h2 rfl rfl rfl)

theorem keeps_atomWord {r opc ret b cc} (h : Inv s) : KeepsInv (atomWord r s opc ret b cc) :=
  keeps_issueOut fun _ => keeps_ite (inv_done h) (keeps_checkDev h fun _ h1 => keeps_ite (inv_raiseLanes h1) (inv_request
    (inv_ite_fst (inv_endRelaunch (inv_countHot (inv_countDev h1))) (inv_sendAtomics (inv_endRelaunch (inv_countHot (inv_countDev
    h1)))))))

theorem keeps_execAtg {op r} (h : Inv s) : KeepsInv (execAtg op r s) := keeps_atomWord h

theorem keeps_stageRedg {op r} (h : Inv s) : KeepsInv (stageRedg op r s) :=
  keeps_issueOut fun _ => keeps_ite (inv_done h) (keeps_checkDev h fun _ h1 => keeps_ite (inv_raiseLanes h1) (inv_detTouch h1 fun
    _ h2 => inv_done (inv_congr (inv_countHot (inv_countDev h2)) rfl rfl rfl)))

theorem keeps_execRedg {op r} (h : Inv s) : KeepsInv (execRedg op r s) := by
  unfold execRedg
  split
  · exact keeps_ite (keeps_stageRedg h) (keeps_atomWord h)
  · exact keeps_refused

theorem keeps_execStoreSetEntry {w} (h : Inv s) : KeepsInv (execStoreSetEntry w s) := by
  unfold execStoreSetEntry
  split
  · split
    · exact keeps_ite (by
      dsimp only
      split
      · split
        · exact inv_setWave (inv_congr h rfl rfl rfl)
        · exact h
      · exact h) h
    · exact h
  · exact h

theorem inv_atomAt {op locs ty b c} (h : Inv s) : Inv (atomAt s op locs ty b c).1 := by
  dsimp only [atomAt]
  split
  · exact inv_homeWrite h
  · exact inv_homeWrite h

theorem inv_sendFar {id w r} (h : Inv s) : Inv (sendFar s id w r) := by
  dsimp only [sendFar]
  split
  · exact inv_ite h (inv_setWave (inv_sendAtomics h))
  · exact h

theorem keeps_execAtomicAtHome {w k} (h : Inv s) : KeepsInv (execAtomicAtHome w k s) := by
  unfold execAtomicAtHome
  split
  · split
    · split
      · exact inv_sendFar h
      · exact keeps_ite h (keeps_ite (inv_lockedOut (inv_setWave h)) (keeps_ite (inv_uncorr (inv_setWave h)) (inv_setWave
          (inv_atomAt h))))
      · exact h
    · exact h
  · exact h

theorem keeps_execHomeReadArrival {w k} (h : Inv s) : KeepsInv (execHomeReadArrival w k s) := by
  unfold execHomeReadArrival
  split
  · exact keeps_ite h (by
    split
    · split
      · exact keeps_ite (inv_uncorr (inv_setWave h)) (keeps_ite (inv_setWave h) (inv_setWave h))
      · exact h
    · exact h)
  · exact h

theorem inv_performStable {id tag} (h : Inv s) : Inv (performStable s id tag) := by
  unfold performStable
  split
  · exact inv_ite h (inv_foldl (inv_modWave h) fun _ _ h1 => by
    split
    · split
      · exact inv_uncorr (inv_of_fst (inv_readStable h1) ‹_›)
      · exact inv_modWave (inv_of_fst (inv_readStable h1) ‹_›)
    · exact h1)
  · exact h

/-! ### Sys2Proof/Machine/Ordering.lean -/

theorem inv_newView {c acq} (h : Inv s) : Inv (Ctx.newView c s acq) := inv_startView h

theorem inv_bar {c} (h : Inv s) : Inv (Ctx.bar c s) := inv_modWave h

theorem inv_holdView {c} (h : Inv s) : Inv (Ctx.holdView c s) := inv_modWave h

theorem inv_view {c} (h : Inv s) : Inv (Ctx.view c s) := inv_ite (inv_done (inv_newView (inv_bar h))) (inv_holdView (inv_bar h))

theorem keeps_execPhase {hd} (h : Inv s) : KeepsInv (execPhase hd s) :=
  keeps_issue fun _ => inv_ite (inv_done h) (inv_view (inv_ctxPublish h))

theorem keeps_execPubl {hd} (h : Inv s) : KeepsInv (execPubl hd s) :=
  keeps_issue fun _ => inv_ite (inv_done h) (inv_done (inv_ctxPublish h))

theorem keeps_execSysrel {hd} (h : Inv s) : KeepsInv (execSysrel hd s) :=
  keeps_issue fun _ => inv_ite (inv_done h) (inv_modWave (inv_ctxPublish h))

theorem keeps_execFenceComplete {w slotB} (h : Inv s) : KeepsInv (execFenceComplete w slotB s) := keeps_onPath h fun _ => by
  split
  · exact inv_ite (inv_done h) h
  · exact inv_ite (inv_done (inv_newView h)) h
  · exact inv_ite (inv_done (inv_acquire (inv_newView h))) h
  · exact h

theorem keeps_execSysrelComplete {w slotB ok} (h : Inv s) : KeepsInv (execSysrelComplete w slotB ok s) :=
  keeps_onPath h fun _ => by
  split
  · exact inv_ite h (inv_ite (inv_done h) (inv_raise h))
  · exact h

theorem inv_freshUnits {x} (h : Inv s) : Inv (freshUnits s x) := inv_congr h rfl rfl rfl

theorem inv_uncorrPub {p addr pc} (h : Inv s) : Inv (uncorrPub s p addr pc) := inv_addTrap h

theorem inv_protPub {p addr pc} (h : Inv s) : Inv (protPub s p addr pc) := inv_addTrap h

theorem inv_placeRedg {p r} (h : Inv s) : Inv (placeRedg s p r) := by
  unfold placeRedg
  split
  · exact inv_sendFlit (inv_congr h rfl rfl rfl)
  · exact inv_ite (inv_protPub h) (inv_ite (inv_uncorrPub h) (inv_modWave (inv_atomAt h)))

theorem inv_sendStaged {p} (h : Inv s) : Inv (sendStaged s p) :=
  inv_foldl h fun _ _ h1 => inv_foldl h1 fun _ _ h2 => inv_sendFlit (inv_congr h2 rfl rfl rfl)

theorem inv_failStaged {serial c code value} (h : Inv s) : Inv (failStaged s serial c code value) := inv_modCopy (inv_failPoint h)

theorem inv_refuseBytes {p bs err trap} (h : Inv s) (htrap : ∀ s p a pc, Inv s → Inv (trap s p a pc)) :
    Inv (refuseBytes s p bs err trap) :=
  inv_foldl h fun _ _ h1 => by
  split
  · exact inv_failStaged h1
  · exact htrap _ _ _ _ h1
  · exact h1

theorem inv_performPub {p} (h : Inv s) : Inv (performPub s p) :=
  have hw : Inv (sendStaged (homeWrite (freshUnits s _) _) p) := inv_sendStaged (inv_homeWrite (inv_freshUnits h))
  inv_refuseBytes
    (inv_foldl (inv_congr (inv_foldl hw fun _ _ h1 => inv_placeRedg h1) rfl rfl rfl) fun _ _ h1 =>
      inv_refuseBytes h1 fun _ _ _ _ h2 => inv_uncorrPub h2)
    fun _ _ _ _ h1 => inv_protPub h1

theorem keeps_execPublicationPerform {id} (h : Inv s) : KeepsInv (execPublicationPerform id s) := by
  unfold execPublicationPerform
  split
  · exact keeps_ite (inv_performPub h) h
  · exact h

/-! ### Sys2Proof/Machine/Claims.lean -/

theorem inv_evictStep {set hand} (h : Inv s) : Inv (evictStep s set hand).1 :=
  inv_ite_fst (inv_ite_fst (inv_setClaim h) (inv_setClaim h)) h

theorem inv_evictFrom {set n hand} (h : Inv s) : Inv (evictFrom set n s hand).1 := by
  induction n generalizing s hand with
  | zero => exact h
  | succ n ih =>
    unfold evictFrom
    split
    · exact inv_of_fst (inv_evictStep h) ‹_›
    · exact ih (inv_of_fst (inv_evictStep h) ‹_›)

theorem inv_evict {set} (h : Inv s) : Inv (evict s set).1 := inv_congr (inv_evictFrom h) rfl rfl rfl

theorem inv_makerFail {e} (h : Inv s) : Inv (makerFail s e) := by
  dsimp only [makerFail]
  split
  · exact inv_setClaim h
  · exact inv_setClaim h

theorem inv_makersFail {p} (h : Inv s) : Inv (makersFail s p) := inv_foldl h fun _ _ h1 => inv_ite (inv_makerFail h1) h1

theorem inv_dropLaunch {serial} (h : Inv s) : Inv (dropLaunch s serial) := inv_foldl h fun _ _ h1 => inv_setClaim h1

theorem inv_dropQueue {p} (h : Inv s) : Inv (dropQueue s p) := inv_foldl h fun _ _ h1 => inv_setClaim h1

theorem inv_claimAnswer {c d a hd} (h : Inv s) : Inv (claimAnswer c s d a hd) := inv_later h

theorem inv_readyView {c acq clk res ws} (h : Inv s) : Inv (readyView c s acq clk res ws) :=
  inv_ite (inv_later (inv_acquire (inv_newView (inv_bar h)))) (inv_modWave (inv_bar h))

theorem keeps_execClaim {hd d n} (h : Inv s) : KeepsInv (execClaim hd d n s) := keeps_issue fun _ => inv_ite (inv_done h) (by
  dsimp only
  split
  · exact inv_ite (inv_ite (inv_claimAnswer h) (inv_readyView (inv_setClaim h))) (inv_ite (inv_claimAnswer h) (inv_claimAnswer
      (inv_setClaim h)))
  · exact inv_ite (inv_claimAnswer h) (by
    split
    · exact inv_claimAnswer (by
      split
      · exact h
      · exact inv_evict h)
    · exact inv_claimAnswer (inv_modLaunch (inv_setClaim (by
      split
      · exact h
      · exact inv_evict h)))))

theorem inv_clLeave {id ticket ready} (h : Inv s) : Inv (clLeave s id ticket ready) := inv_ite h (inv_setClaim h)

theorem inv_clwaitFinish {c d ticket x} (h : Inv s) : Inv (clwaitFinish c s d ticket x) :=
  inv_done (inv_ite (inv_acquire (inv_startView (inv_clLeave h))) (inv_clLeave h))

theorem inv_noteAns {c x} (h : Inv s) : Inv (Ctx.noteAns c s x) := inv_modWave h

theorem keeps_execClwait {hd d t lim} (h : Inv s) : KeepsInv (execClwait hd d t lim s) := by
  refine keeps_issue fun _ => inv_ite (inv_done h) (inv_ite (inv_raiseWave h) ?_)
  split
  · exact inv_ite (inv_clwaitFinish (inv_bar h)) (inv_noteAns (inv_holdMet (inv_bar h)))
  · exact inv_hold (inv_bar h)

theorem keeps_execFulfil {hd hdl t} (h : Inv s) : KeepsInv (execFulfil hd hdl t s) :=
  keeps_issue fun _ => inv_ite (inv_done h) (inv_ite (inv_raiseWave h) (inv_ite (inv_raiseWave h) (inv_done (inv_endRelaunch
    (inv_setClaim (inv_ctxPublish h))))))

theorem keeps_execAbandon {hd t} (h : Inv s) : KeepsInv (execAbandon hd t s) :=
  keeps_issue fun _ => inv_ite (inv_done h) (inv_ite (inv_raiseWave h) (inv_done (inv_addPhase (inv_makerFail h))))

theorem keeps_execClrel {hd t} (h : Inv s) : KeepsInv (execClrel hd t s) :=
  keeps_issue fun _ => inv_ite (inv_done h) (inv_ite (inv_raiseWave h) (inv_done (inv_setClaim h)))

theorem keeps_execClinv {hd d a} (h : Inv s) : KeepsInv (execClinv hd d a s) :=
  keeps_issue fun _ => inv_ite (inv_done h) (inv_later (inv_foldl h fun _ _ h1 => inv_setClaim h1))

theorem inv_fulfilReady {e gen handle hpt} (h : Inv s) : Inv (fulfilReady s e gen handle hpt) := inv_ite (inv_setClaim h) h

theorem keeps_execFulfilReady {entry} (h : Inv s) : KeepsInv (execFulfilReady entry s) := by
  unfold execFulfilReady
  split
  · exact inv_fulfilReady (inv_congr h rfl rfl rfl)
  · exact h

/-! ### Sys2Proof/Machine/RegBlocks.lean -/

theorem inv_cede {c n} (h : Inv s) : Inv (cede c s n) := inv_modBlock (inv_done h)

theorem keeps_execRcedeComplete {w slotB} (h : Inv s) : KeepsInv (execRcedeComplete w slotB s) := keeps_onPath h fun _ => by
  split
  · exact inv_ite h (inv_cede h)
  · exact h

theorem inv_take {c n} (h : Inv s) : Inv (take c s n) := inv_modBlock (inv_done h)

theorem keeps_execRtake {hd n lim} (h : Inv s) : KeepsInv (execRtake hd n lim s) :=
  keeps_issue fun _ => inv_ite (inv_take (inv_modBlock h)) (inv_hold (inv_modBlock h))

theorem keeps_execRtakeComplete {w slotB} (h : Inv s) : KeepsInv (execRtakeComplete w slotB s) := keeps_onPath h fun _ => by
  split
  · exact inv_ite (inv_take h) h
  · exact h

theorem inv_raiseSpill {c a} (h : Inv s) : Inv (raiseSpill c s a) := inv_raise h

theorem keeps_execSpill {hd wide src k} (h : Inv s) : KeepsInv (execSpill hd wide src k s) := keeps_issue fun _ => by
  split
  · exact inv_raiseSpill h
  · exact inv_done (inv_addBytes h)

theorem keeps_execFill {hd wide dst k} (h : Inv s) : KeepsInv (execFill hd wide dst k s) := keeps_issue fun _ => by
  split
  · exact inv_raiseSpill h
  · exact inv_later (inv_addBytes h)

/-! ### Sys2Proof/Machine/Rendezvous.lean -/

theorem keeps_pointWord {hd pt f} (h : Inv s) (hf : ∀ c p, Inv (f c p)) : KeepsInv (pointWord hd pt s f) := by
  refine keeps_issue fun _ => inv_ite (inv_done h) ?_
  split
  · exact hf _ _
  · exact inv_raiseWave h

theorem keeps_execRvexp {hd pt src} (h : Inv s) : KeepsInv (execRvexp hd pt src s) :=
  keeps_pointWord h fun _ _ => inv_ite (inv_raise h) (inv_done (inv_setPoint h))

theorem inv_reachPoint {id w b k a} (h : Inv s) : Inv (reachPoint s id w b k a) :=
  inv_ite (inv_addTrap (inv_setWave h)) (inv_ite (inv_endRelaunch (inv_setWave (inv_setPoint h))) (inv_setWave (inv_setPoint h)))

theorem inv_flushFails {id w b l k a} (h : Inv s) : Inv (flushFails s id w b l k a) := inv_addTrap (inv_setWave h)

theorem keeps_execArrivalAtPoint {id step} (h : Inv s) : KeepsInv (execArrivalAtPoint id step s) := by
  dsimp only [execArrivalAtPoint]
  split
  · split
    · exact keeps_ite (inv_reachPoint h) (keeps_ite (keeps_ite h (keeps_ite h (keeps_ite (inv_reachPoint h) (keeps_ite
        (inv_reachPoint (inv_publishSet h)) (inv_setWave (inv_publishSet h)))))) (keeps_ite h (keeps_ite (inv_flushFails h)
        (inv_reachPoint h))))
    · exact h
  · exact h

theorem inv_raiseCopy {c code engine value lanes} (h : Inv s) : Inv (raiseCopy c s code engine value lanes) := inv_takeTrap h

theorem inv_raisePoint {c r p lanes} (h : Inv s) : Inv (raisePoint c s r p lanes) := inv_raiseCopy (inv_setPoint h)

theorem inv_waitDone {c p rlx} (h : Inv s) : Inv (waitDone c s p rlx) := inv_ite h (inv_acquire (inv_newView h))

theorem inv_rvwaitFinish {c r p rlx} (h : Inv s) : Inv (rvwaitFinish c s r p rlx) :=
  inv_ite (inv_raisePoint h) (inv_done (inv_waitDone h))

theorem keeps_execRvwait {hd pt rlx par lim} (h : Inv s) : KeepsInv (execRvwait hd pt rlx par lim s) :=
  keeps_pointWord h fun _ _ => inv_ite (inv_hold (inv_ite h (inv_bar h))) (inv_ite (inv_rvwaitFinish (inv_ite h (inv_bar h)))
    (inv_holdMet (inv_ite h (inv_bar h))))

theorem keeps_execRvwaitComplete {w slotB} (h : Inv s) : KeepsInv (execRvwaitComplete w slotB s) := keeps_onPath h fun _ => by
  split
  · exact inv_ite (inv_rvwaitFinish h) h
  · exact h

theorem inv_yieldFinish {c r p cont} (h : Inv s) : Inv (yieldFinish c s r p cont) :=
  inv_ite (inv_raisePoint h) (inv_modWave (inv_waitDone h))

theorem keeps_execYieldc {pt tgt lim} (h : Inv s) : KeepsInv (execYieldc pt tgt lim s) := keeps_issue fun _ => by
  split
  · exact inv_raise h
  · exact inv_ite (inv_hold (inv_bar h)) (inv_ite (inv_yieldFinish (inv_bar h)) (inv_holdMet (inv_bar h)))

theorem keeps_execYieldcResume {w slotB} (h : Inv s) : KeepsInv (execYieldcResume w slotB s) := keeps_onPath h fun _ => by
  split
  · exact inv_ite (inv_yieldFinish h) h
  · exact h

theorem keeps_execClwaitComplete {w slotB} (h : Inv s) : KeepsInv (execClwaitComplete w slotB s) := keeps_onPath h fun _ => by
  split
  · split
    · exact inv_ite (inv_clwaitFinish h) h
    · exact h
  · exact h

theorem inv_observe {sweep ctx serial num} (h : Inv s) : Inv (observe s sweep ctx serial num) :=
  inv_ite (inv_modSweep h) (inv_modCopy h)

theorem inv_tlFinish {c sweep ctx num rlx} (h : Inv s) : Inv (tlFinish c s sweep ctx num rlx) := by
  unfold tlFinish
  split
  · exact inv_raiseCopy (inv_observe h)
  · exact inv_done (inv_ite h (inv_acquire (inv_newView h)))

theorem inv_raiseHandle {c hd} (h : Inv s) : Inv (raiseHandle c s hd) := inv_raiseWave h

theorem keeps_execTlwait {hd num rlx hdl lim} (h : Inv s) : KeepsInv (execTlwait hd num rlx hdl lim s) := by
  refine keeps_issue fun _ => inv_ite (inv_done h) ?_
  split
  · exact inv_raiseHandle h
  · exact inv_ite (inv_hold (inv_ite h (inv_bar h))) (inv_ite (inv_tlFinish (inv_ite h (inv_bar h))) (inv_holdMet (inv_ite h
      (inv_bar h))))

theorem keeps_execTlread {hd dst hdl} (h : Inv s) : KeepsInv (execTlread hd dst hdl s) := by
  refine keeps_issue fun _ => inv_ite (inv_done h) ?_
  split
  · exact inv_raiseHandle h
  · exact inv_later h

theorem keeps_execTlwaitComplete {w slotB} (h : Inv s) : KeepsInv (execTlwaitComplete w slotB s) := keeps_onPath h fun _ => by
  split
  · exact inv_ite (inv_tlFinish h) h
  · exact h

theorem inv_leaveWait {c} (h : Inv s) : Inv (leaveWait c s) := by
  unfold leaveWait
  split
  · exact inv_modBlock h
  · exact h

theorem keeps_execWaitLimitExpiry {w site} (h : Inv s) : KeepsInv (execWaitLimitExpiry w site s) := by
  dsimp only [execWaitLimitExpiry]
  split
  · exact keeps_onPath h fun _ => inv_ite (inv_raise (inv_leaveWait h)) h
  · exact keeps_onPath h fun _ => inv_ite (inv_raise (inv_leaveWait h)) h
  · split
    · exact keeps_ite (inv_trapSpLimit h) h
    · exact h

theorem inv_noteSlot {id slotB} (h : Inv s) : Inv (noteSlot s id slotB) := by
  unfold noteSlot
  split
  · exact inv_ite h (inv_ite (inv_ite h (inv_modWave h)) (inv_ite h (inv_modWave h)))
  · exact h

theorem inv_noteQueue {id} (h : Inv s) : Inv (noteQueue s id) := by
  unfold noteQueue
  split
  · dsimp only
    split
    · exact inv_ite h (inv_setSpHead h)
    · exact inv_ite h (inv_setSpHead h)
    · exact inv_ite h (inv_setSpHead h)
    · exact h
  · exact h

theorem inv_noteWaits (h : Inv s) : Inv (noteWaits s) := inv_foldl h fun _ _ h1 => inv_noteQueue (inv_noteSlot (inv_noteSlot h1))

/-! ### Sys2Proof/Machine/Copy.lean -/

theorem inv_writeUnit {u t} (h : Inv s) : Inv (writeUnit s u t).1 :=
  inv_ite_fst h (inv_homeWrite (inv_ite (inv_congr h rfl rfl rfl) h))

theorem inv_engineWrite {bs} (h : Inv s) : Inv (engineWrite s bs).1 := inv_foldl_fst h fun _ _ h1 => by
  split
  · exact h1
  · exact inv_writeUnit h1

theorem keeps_copyWord {kind a} (h : Inv s) : KeepsInv (copyWord kind a s) := by
  refine keeps_issue fun _ => inv_ite (inv_done h) ?_
  dsimp only
  split
  · exact inv_raiseWave h
  · split
    · exact inv_raiseConflict h
    · exact inv_ite (inv_endRelaunch (inv_done (inv_ite (inv_addTouches (inv_addTouches h)) h))) (inv_done (inv_ite
        (inv_addTouches (inv_addTouches h)) h))

theorem keeps_execLrchk {hd sel dst b} (h : Inv s) : KeepsInv (execLrchk hd sel dst b s) := by
  refine keeps_issue fun _ => inv_ite (inv_done h) ?_
  split
  · exact inv_raiseWave h
  · exact inv_write h

theorem keeps_execCopyCommandArrival {id} (h : Inv s) : KeepsInv (execCopyCommandArrival id s) := by
  unfold execCopyCommandArrival
  split
  · split
    · exact keeps_ite h (inv_setWave (inv_modCopy h))
    · exact h
  · exact h

theorem inv_setHead {ctx f} (h : Inv s) : Inv (setHead s ctx f) := inv_modCopy h

theorem inv_copyFail {ctx op code value} (h : Inv s) : Inv (copyFail s ctx op code value) :=
  inv_setHead (inv_modCopy (inv_failPoint h))

theorem keeps_execCopyOperationStart {ctx} (h : Inv s) : KeepsInv (execCopyOperationStart ctx s) := by
  unfold execCopyOperationStart
  split
  · exact keeps_ite h (by
    split
    · exact inv_copyFail h
    · exact inv_setHead h)
  · exact h

theorem inv_sendRuns {ctx out far} (h : Inv s) : Inv (sendRuns s ctx out far) :=
  inv_foldl h fun _ _ h1 => inv_setHead (inv_ite (inv_sendFlit (inv_congr h1 rfl rfl rfl)) (inv_sendFlit (inv_congr h1 rfl rfl
    rfl)))

theorem inv_countWritten {op bs} (h : Inv s) : Inv (countWritten s op bs) := inv_foldl h fun _ _ h1 => inv_addBytes h1

theorem inv_applyTurn {ctx det op r t} (h : Inv s) : Inv (applyTurn s ctx det op r t) := by
  unfold applyTurn
  extract_lets s1 part s2 s3 s4 key s5
  have h1 : Inv s1 := inv_foldl h fun _ _ h0 => inv_addBytes h0
  have h2 : Inv s2 := inv_foldl h1 fun _ _ h0 => inv_countAccess h0
  have h3 : Inv s3 := inv_foldl h2 fun _ _ h0 => inv_scrWrite h0
  have h4 : Inv s4 := inv_ite (inv_fillLines h3) h3
  exact inv_setHead (inv_ite (inv_countWritten (inv_congr h4 rfl rfl rfl)) h4)

theorem inv_writeHead {ctx op u} (h : Inv s) : Inv (writeHead s ctx op u) :=
  inv_ite (inv_copyFail (inv_setHead h)) (inv_ite (inv_setHead (inv_countWritten (inv_writeUnit h))) (inv_copyFail (inv_setHead
    h)))

theorem inv_countAnswered {op r out} (h : Inv s) : Inv (countAnswered s op r out) :=
  inv_ite (inv_addBytes (inv_addBytes h)) (inv_addBytes h)

theorem inv_serve {ctx m det op r} (h : Inv s) : Inv (serve s ctx m det op r) := by
  unfold serve
  extract_lets t out send go
  have hsend : ∀ t, Inv (send t) := fun _ => inv_setHead (inv_sendRuns h)
  have hgo : ∀ t, Inv (go t) := fun t => inv_ite (inv_applyTurn h) (hsend t)
  refine inv_ite ?_ (inv_ite h ?_)
  · split
    · refine inv_ite (hgo _) ?_
      split
      · exact inv_writeHead h
      · exact inv_copyFail h
    · exact hgo _
  · split
    · exact inv_copyFail (inv_setHead (inv_countAnswered h))
    · split
      · exact inv_applyTurn h
      · exact inv_ite (inv_applyTurn h) (hsend _)

theorem inv_serveNext {ctx op r} (h : Inv s) : Inv (serveNext s ctx op r) := by
  dsimp only [serveNext]
  split
  · exact inv_ite (inv_serve h) (inv_writeHead h)
  · exact inv_serve h

theorem keeps_execEngineTurn {ctx} (h : Inv s) : KeepsInv (execEngineTurn ctx s) := by
  refine keeps_ite h ?_
  split
  · split
    · exact inv_ite (inv_setHead (inv_congr (inv_serveNext h) rfl rfl rfl)) (inv_serveNext h)
    · exact h
  · exact h

theorem keeps_execCopyPieceCountdown {ctx} (h : Inv s) : KeepsInv (execCopyPieceCountdown ctx s) := by
  unfold execCopyPieceCountdown
  split
  · dsimp only
    split
    · exact keeps_ite h (inv_setHead (inv_countDown h))
    · exact h
  · exact h

theorem keeps_execCopyFinish {ctx} (h : Inv s) : KeepsInv (execCopyFinish ctx s) := by
  unfold execCopyFinish
  split
  · exact keeps_ite (inv_modCopy h) h
  · exact h

/-! ### Sys2Proof/Machine/Ring.lean -/

theorem inv_raiseIrq {p vec} (h : Inv s) : Inv (raiseIrq s p vec) := inv_modPart h

theorem inv_postRecord {p kind bytes tag vec} (h : Inv s) : Inv (postRecord s p kind bytes tag vec) := inv_modPart h

theorem inv_hostPut {a bs} (h : Inv s) : Inv (hostPut s a bs) := ⟨h.1, wf_hostPut a bs h.2.1, h.2.2⟩

theorem inv_writeRecord {p r rest} (h : Inv s) : Inv (writeRecord s p r rest) :=
  inv_ite (inv_raiseIrq (inv_modPart (inv_hostPut (inv_hostPut h)))) (inv_modPart (inv_hostPut (inv_hostPut h)))

theorem keeps_execRingRecordWrite {part} (h : Inv s) : KeepsInv (execRingRecordWrite part s) := by
  dsimp only [execRingRecordWrite]
  split
  · exact keeps_ite h (inv_writeRecord h)
  · exact h

theorem inv_tailWrite {part v} (h : Inv s) : Inv (tailWrite s part v) := inv_modPart h

theorem inv_addHouse {n} (h : Inv s) : Inv (addHouse s n) := inv_congr h rfl rfl rfl

theorem inv_setBalance {p b} (h : Inv s) : Inv (setBalance s p b) := inv_ite (inv_raiseIrq (inv_modPart h)) (inv_modPart h)

theorem inv_refund {p n} (h : Inv s) : Inv (refund s p n) := inv_ite (inv_addHouse (inv_setBalance h)) (inv_setBalance h)

theorem inv_payHouse {n} (h : Inv s) : Inv (payHouse s n) := inv_congr h rfl rfl rfl

theorem inv_chargeOverrun {p n} (h : Inv s) : Inv (chargeOverrun s p n).1 :=
  inv_ite_fst (inv_payHouse (inv_setBalance h)) (inv_setBalance h)

/-! ### Sys2Proof/Machine/Energy.lean -/

theorem inv_moveFloors {t} (h_t : Inv t) : Inv (moveFloors s t) := inv_ite h_t (inv_congr h_t rfl rfl rfl)

theorem inv_episodeOf {cluster serial l} (h : Inv s) : Inv (episodeOf s cluster serial l) := by
  dsimp only [episodeOf]
  split
  · exact inv_ite (inv_modLaunch h) (inv_modLaunch (inv_modCluster h))
  · exact inv_ite (inv_modLaunch (inv_modCluster h)) h

theorem inv_seeClock {cluster} (h : Inv s) : Inv (seeClock s cluster) := inv_foldl h fun _ _ h1 => inv_episodeOf h1

theorem inv_retarget {cluster} (h : Inv s) : Inv (retarget s cluster) :=
  inv_seeClock (inv_ite (inv_modCluster h) (inv_modCluster (inv_modCluster h)))

theorem keeps_execBlenderWindow {pair} (h : Inv s) : KeepsInv (execBlenderWindow pair s) :=
  keeps_ite h (inv_moveFloors (inv_ite (inv_ite (inv_seeClock (inv_modCluster (inv_modCluster (inv_modCluster h)))) (inv_payHouse
    (inv_modCluster (inv_modCluster (inv_modCluster h))))) (inv_modCluster (inv_modCluster (inv_modCluster (inv_modCluster h))))))

theorem inv_rideDown {cluster} (h : Inv s) : Inv (rideDown s cluster) := inv_modCluster h

theorem inv_rideAtFloor {cluster} (h : Inv s) : Inv (rideAtFloor s cluster) := inv_seeClock (inv_modCluster h)

theorem inv_recoverClocks (h : Inv s) : Inv (recoverClocks s) := inv_foldl h fun _ _ h1 => inv_seeClock (inv_modCluster h1)

theorem keeps_execDroop {percent} (h : Inv s) : KeepsInv (execDroop percent s) :=
  inv_moveFloors (inv_foldl (inv_congr h rfl rfl rfl) fun _ _ h1 => inv_rideDown h1)

theorem inv_blameSupply (h : Inv s) : Inv (blameSupply s) := inv_foldl h fun _ _ h1 => inv_foldl h1 fun _ _ h2 => inv_modLaunch h2

theorem keeps_execSupplyExcursion {mv} (h : Inv s) : KeepsInv (execSupplyExcursion mv s) := by
  refine inv_moveFloors (inv_blameSupply ?_)
  split
  · exact inv_congr h rfl rfl rfl
  · exact inv_congr h rfl rfl rfl

theorem keeps_execSupplyReturn (h : Inv s) : KeepsInv (execSupplyReturn s) :=
  inv_moveFloors (inv_ite (inv_recoverClocks (inv_congr h rfl rfl rfl)) (inv_foldl (inv_congr h rfl rfl rfl) fun _ _ h1 =>
    inv_rideAtFloor h1))

theorem keeps_execReferenceClockReturn (h : Inv s) : KeepsInv (execReferenceClockReturn s) :=
  inv_ite (inv_recoverClocks (inv_congr h rfl rfl rfl)) (inv_congr h rfl rfl rfl)

theorem inv_grant {via cmd} (h : Inv s) : Inv (grant s via cmd).1 :=
  inv_ite_fst h (inv_ite_fst (inv_ite_fst h (inv_congr h rfl rfl rfl)) (inv_ite_fst h (inv_setBalance (inv_ite h (inv_modPart
    h)))))

theorem keeps_execEnergyGrant {via cmd} (h : Inv s) : KeepsInv (execEnergyGrant via cmd s) := by
  unfold execEnergyGrant
  split
  · exact inv_congr (inv_grant h) rfl rfl rfl
  · exact inv_congr (inv_grant h) rfl rfl rfl
  · exact inv_congr (inv_grant h) rfl rfl rfl

/-! ### Sys2Proof/Machine/Matrix.lean -/

theorem inv_mxAct {core b op} (h : Inv s) : Inv (mxAct s core b op) := by
  dsimp only [mxAct]
  split
  · exact inv_modWave h
  · exact inv_modBSlot h
  · exact inv_modBSlot h
  · exact h

theorem inv_drain {core b n} (h : Inv s) : Inv (drain core b n s) := by
  induction n generalizing s with
  | zero => exact h
  | succ n ih =>
    unfold drain
    split
    · split
      · exact h
      · exact h
      · exact ih (inv_modBSlot (inv_mxAct h))
    · exact h

theorem inv_drainAll {core b} (h : Inv s) : Inv (drainAll s core b) := inv_drain h

theorem inv_mxIssue {c b k} (h : Inv s) : Inv (mxIssue c s b k) := inv_modBSlot (inv_modBlock h)

theorem keeps_execMbld {hd p b sa sb off} (h : Inv s) : KeepsInv (execMbld hd p b sa sb off s) := by
  refine keeps_issue fun _ => inv_ite (inv_done h) (inv_ite (inv_raiseWave h) ?_)
  split
  · exact inv_raiseWave h
  · exact inv_ite (inv_raiseWave h) (inv_ite (inv_raiseWave h) (inv_ite (inv_raiseWave h) (inv_spIssue (inv_mxIssue h))))

theorem keeps_execMbcast {hd p b sa sb pt off} (h : Inv s) : KeepsInv (execMbcast hd p b sa sb pt off s) := by
  refine keeps_issue fun _ => inv_ite (inv_done h) (inv_ite (inv_raiseWave h) ?_)
  split
  · exact inv_ite (inv_raiseWave h) (inv_spIssue (inv_modBlock h))
  · exact inv_raiseWave h

theorem keeps_execMqma {hd keepA b g sa sb q nb} (h : Inv s) : KeepsInv (execMqma hd keepA b g sa sb q nb s) := by
  refine keeps_issue fun _ => inv_ite (inv_done h) (inv_ite (inv_raiseWave h) ?_)
  split
  · exact inv_raiseWave h
  · exact inv_ite (inv_raiseWave h) (inv_ite (inv_raiseLanes h) (inv_ite (inv_raiseLanes h) (inv_spIssue (inv_mxIssue h))))

theorem keeps_execMcrd {hd ty dst b r col} (h : Inv s) : KeepsInv (execMcrd hd ty dst b r col s) :=
  keeps_issue fun _ => inv_ite (inv_done h) (inv_ite (inv_raiseWave h) (inv_drainAll (inv_mxIssue (inv_done h))))

theorem keeps_execMcwr {hd ty keepA src b r col} (h : Inv s) : KeepsInv (execMcwr hd ty keepA src b r col s) :=
  keeps_issue fun _ => inv_ite (inv_done h) (inv_ite (inv_raiseWave h) (inv_drainAll (inv_mxIssue (inv_done h))))

theorem keeps_execMcz {hd ty b r n} (h : Inv s) : KeepsInv (execMcz hd ty b r n s) :=
  keeps_issue fun _ => inv_ite (inv_done h) (inv_ite (inv_raiseWave h) (inv_drainAll (inv_mxIssue (inv_done h))))

theorem inv_modMx {core b id f} (h : Inv s) : Inv (modMx s core b id f) := inv_modBSlot h

theorem inv_countPanel {serial p k xs} (h : Inv s) : Inv (countPanel s serial p k xs) := by
  unfold countPanel
  split
  · exact inv_addBytes h
  · exact h

theorem inv_matrixEnd {id b op} (h : Inv s) : Inv (matrixEnd s id b op) := by
  unfold matrixEnd
  split
  · exact inv_setSpHead (inv_modMx h)
  · exact inv_spDone (inv_modMx h)
  · exact inv_spDone (inv_modBlock (inv_modLaunch h))
  · exact h

theorem inv_performMatrix {id b op} (h : Inv s) : Inv (performMatrix s id b op) :=
  inv_ite h (inv_stepParts h (fun _ => inv_countPanel h) fun _ _ h1 => inv_matrixEnd h1)

theorem keeps_execMbldComplete {core b} (h : Inv s) : KeepsInv (execMbldComplete core b s) := by
  unfold execMbldComplete
  split
  · split
    · exact inv_drainAll (inv_spDone (inv_modBSlot h))
    · exact h
  · exact h

theorem keeps_execMatrixPass {core b} (h : Inv s) : KeepsInv (execMatrixPass core b s) := by
  unfold execMatrixPass
  split
  · split
    · exact inv_modBSlot h
    · exact h
  · exact h

theorem keeps_execMatrixPassComplete {core b} (h : Inv s) : KeepsInv (execMatrixPassComplete core b s) := by
  unfold execMatrixPassComplete
  split
  · split
    · split
      · exact inv_drainAll (inv_modBSlot h)
      · exact h
    · exact h
  · exact h

theorem keeps_execBroadcastPerform {serial cohort} (h : Inv s) : KeepsInv (execBroadcastPerform serial cohort s) := by
  unfold execBroadcastPerform
  split
  · exact h
  · split
    · exact h
    · split
      · exact h
      · exact keeps_ite h (keeps_ite (inv_failPoint (inv_modLaunch h)) (keeps_ite (inv_failPoint (inv_modLaunch h)) (by
        split
        · exact inv_modLaunch h
        · exact inv_countDown (inv_foldl (inv_addBytes (inv_modLaunch h)) fun _ _ h1 => inv_modBSlot h1))))

/-! ### Sys2Proof/Machine/Control.lean -/

theorem inv_rewrite {c f} (h : Inv s) : Inv (Ctx.rewrite c s f) := inv_modWave h

theorem inv_jump {c pc} (h : Inv s) : Inv (Ctx.jump c s pc) := inv_rewrite h

theorem inv_retireWave {id} (h : Inv s) : Inv (retireWave s id) := by
  unfold retireWave
  split
  · exact h
  · exact inv_makersFail (by
    split
    · exact inv_modSweep (inv_setWave h)
    · exact inv_modBlock (inv_setWave h))

theorem inv_retireIfOver {id} (h : Inv s) : Inv (retireIfOver s id) := by
  unfold retireIfOver
  split
  · exact inv_ite (inv_retireWave h) h
  · exact h

theorem inv_pops {c} (h : Inv s) : Inv (Ctx.pops c s) := by
  unfold Ctx.pops
  split
  · exact inv_addBytes h
  · exact h

theorem keeps_execBrd {neg m tgt dist} (h : Inv s) : KeepsInv (execBrd neg m tgt dist s) :=
  keeps_issue fun _ => inv_ite (inv_jump h) (inv_ite (inv_jump h) (inv_rewrite h))

theorem keeps_execJoin (h : Inv s) : KeepsInv (execJoin s) := by
  refine keeps_issue fun _ => inv_pops (inv_ite (inv_jump h) ?_)
  split
  · exact inv_ite (inv_ite (inv_rewrite h) (inv_rewrite h)) (inv_rewrite h)
  · exact inv_rewrite h

theorem keeps_execLoopb {l tgt lim} (h : Inv s) : KeepsInv (execLoopb l tgt lim s) :=
  keeps_issue fun _ => inv_ite (inv_raiseLimit h) (inv_modWave (inv_jump h))

theorem inv_callTo {c t} (h : Inv s) : Inv (callTo c s t) := inv_ite (inv_raiseLimit h) (inv_rewrite h)

theorem keeps_execCallt {tbl idx} (h : Inv s) : KeepsInv (execCallt tbl idx s) := keeps_issue fun _ => by
  dsimp only
  split
  · exact inv_callTo h
  · exact inv_raiseLimit h

theorem keeps_execRet (h : Inv s) : KeepsInv (execRet s) := keeps_issue fun _ => by
  split
  · exact inv_pops (inv_rewrite h)
  · exact inv_jump h

theorem keeps_execFramePop {w} (h : Inv s) : KeepsInv (execFramePop w s) := by
  unfold execFramePop
  split
  · split
    · exact inv_addBytes (inv_setWave h)
    · exact h
  · exact h

/-! ### Sys2Proof/Machine/Sweep.lean -/

theorem inv_modRun {ctx f} (h : Inv s) : Inv (modRun s ctx f) := inv_modSweep h

theorem inv_putCx {ctx serial block a p x} (h : Inv s) : Inv (putCx s ctx serial block a p x) := by
  dsimp only [putCx]
  split
  · exact inv_ite (inv_modRun (inv_modRun (inv_scrWrite h))) (inv_modRun (inv_scrWrite h))
  · exact inv_scrWrite h

theorem inv_wakeCx {ctx serial block a p} (h : Inv s) : Inv (wakeCx s ctx serial block a p) := by
  dsimp only [wakeCx]
  split
  · exact inv_modRun (inv_ite (inv_scrWrite h) h)
  · exact inv_ite (inv_scrWrite h) h

theorem inv_leave {c eff} (h : Inv s) : Inv (Ctx.leave c s eff) :=
  inv_ite (inv_retireIfOver (inv_pops (inv_modWave h))) (inv_modWave h)

theorem inv_leaveWord {c hd v} (h : Inv s) : Inv (leaveWord c s hd v) := inv_leave (inv_modWave h)

theorem keeps_execSwait {hd sa} (h : Inv s) : KeepsInv (execSwait hd sa s) :=
  keeps_issue fun _ => inv_ite (inv_done h) (inv_ite (inv_raiseLanes h) (inv_leaveWord h))

theorem keeps_recordWord {hd sa scal k data ok} (h : Inv s) (hok : ∀ c xs, Inv (ok c xs)) :
    KeepsInv (recordWord hd sa scal k s data ok) := by
  refine keeps_issue fun _ => inv_ite (inv_done h) ?_
  split
  · exact inv_raiseWave h
  · exact inv_checkSp h fun _ => inv_ite (inv_raiseAt h) (inv_ite (inv_raiseAt h) (inv_ite (inv_raiseAt h) (hok _ _)))

theorem keeps_execSwake {hd sa scalar k} (h : Inv s) : KeepsInv (execSwake hd sa scalar k s) :=
  keeps_recordWord h fun _ _ => inv_spIssue h

theorem keeps_execSctxr {hd dst sa scalar k} (h : Inv s) : KeepsInv (execSctxr hd dst sa scalar k s) :=
  keeps_recordWord h fun _ _ => inv_spIssue h

theorem keeps_execSctxw {hd src sa scalar k} (h : Inv s) : KeepsInv (execSctxw hd src sa scalar k s) := by
  unfold execSctxw
  exact keeps_recordWord h (fun _ _ => inv_spIssue h)

theorem keeps_execSwqry {hd dst f k} (h : Inv s) : KeepsInv (execSwqry hd dst f k s) := by
  refine keeps_issue fun _ => inv_ite (inv_done h) ?_
  split
  · exact inv_raiseWave h
  · exact inv_later h

theorem inv_sweepWhole {id b a k t} (h : Inv s) (e : sweepWhole s id b a k = some t) : Inv t := by
  unfold sweepWhole at e
  split at e
  · exact Option.some.inj e ▸ inv_foldl h (fun _ _ h0 => inv_putCx h0)
  · exact Option.some.inj e ▸ inv_foldl h (fun _ _ h0 => inv_wakeCx h0)
  · exact Option.some.inj e ▸ inv_foldl h (fun _ _ h0 => inv_putCx h0)
  · cases e

theorem inv_sweepPart {id a op p} (h : Inv s) : Inv (sweepPart s id a op p).1 := by
  unfold sweepPart
  split
  · exact h
  · exact h

theorem inv_performSweep {id w b k op} (h : Inv s) : Inv (performSweep s id w b k op) := by
  unfold performSweep
  split
  · split
    · exact inv_spDone (inv_sweepWhole h ‹_›)
    · exact inv_stepParts h (fun _ => inv_sweepPart h) fun _ _ h1 => inv_spDone h1
  · exact inv_spDone h

theorem inv_tookTurn {ctx run det} (h : Inv s) : Inv (tookTurn s ctx run det) := inv_ite (inv_modBlock h) h

theorem inv_raiseRun {ctx run b code attr construct engine value} (h : Inv s) :
    Inv (raiseRun s ctx run b code attr construct engine value) :=
  inv_addTrap h

theorem keeps_execSweepRunStart {ctx} (h : Inv s) : KeepsInv (execSweepRunStart ctx s) := by
  dsimp only [execSweepRunStart]
  split
  · split
    · exact keeps_ite h (inv_modSweep h)
    · exact h
  · exact h

theorem keeps_execChunkEvaluation {ctx} (h : Inv s) : KeepsInv (execChunkEvaluation ctx s) := by
  unfold execChunkEvaluation
  split
  · exact h
  · split
    · exact h
    · exact keeps_ite h (by
      dsimp only
      split
      · exact inv_raiseRun h
      · exact inv_tookTurn (inv_modRun (inv_addBytes h)))

theorem keeps_execSweepWaveForm {ctx} (h : Inv s) : KeepsInv (execSweepWaveForm ctx s) := by
  unfold execSweepWaveForm
  split
  · exact h
  · split
    · exact keeps_ite h (inv_modRun (inv_startView (inv_setWave h)))
    · exact h

theorem keeps_execSweepStart {ctx} (h : Inv s) : KeepsInv (execSweepStart ctx s) := by
  unfold execSweepStart
  split
  · exact h
  · split
    · exact h
    · exact keeps_ite h (keeps_ite (inv_raiseRun h) (keeps_ite h (inv_tookTurn (inv_modRun h))))

theorem keeps_execSweepRunEnd {ctx} (h : Inv s) : KeepsInv (execSweepRunEnd ctx s) := by
  unfold execSweepRunEnd
  split
  · exact h
  · split
    · exact h
    · exact keeps_ite h (inv_modSweep (inv_tookTurn h))

/-! ### Sys2Proof/Machine/Sched.lean -/

theorem inv_startTurn {serial l core} (h : Inv s) : Inv (startTurn s serial l core) := inv_ite h (inv_congr h rfl rfl rfl)

theorem inv_openUse {serial core} (h : Inv s) : Inv (openUse s serial core) := inv_modLaunch h

theorem inv_closeUse {serial core} (h : Inv s) : Inv (closeUse s serial core) := by
  unfold closeUse
  split
  · split
    · exact inv_ite h (inv_modLaunch h)
    · exact h
  · exact h

theorem inv_clearSlots {l core} (h : Inv s) : Inv (clearSlots s l core) :=
  inv_ite (inv_foldl h fun _ _ h1 => inv_ite (inv_congr h1 rfl rfl rfl) h1) h

theorem inv_startBlock {serial block core l} (h : Inv s) : Inv (startBlock s serial block core l) :=
  inv_modLaunch (inv_openUse (inv_startTurn (inv_startView (inv_foldl (inv_congr (inv_clearSlots h) rfl rfl rfl) fun _ _ h1 =>
    inv_setWave h1))))

theorem inv_startOn {serial block core} (h : Inv s) : Inv (startOn serial s block core) := by
  unfold startOn
  split
  · exact inv_startBlock h
  · exact h

theorem inv_rehome {serial block core} (h : Inv s) : Inv (rehome s serial block core) := inv_modLaunch h

theorem inv_resumeSlots {serial core l acted} (h : Inv s) : Inv (resumeSlots s serial core l acted) :=
  inv_ite h (inv_clearSlots h)

theorem inv_restoreBlock {serial block core l} (h : Inv s) : Inv (restoreBlock s serial block core l) :=
  inv_modLaunch (inv_openUse (inv_startTurn (inv_startView (inv_modBlock (inv_foldl (inv_resumeSlots h) fun _ _ h1 => inv_setWave
    h1)))))

theorem inv_restoreOn {serial block core} (h : Inv s) : Inv (restoreOn serial s block core) := by
  unfold restoreOn
  split
  · exact inv_rehome (inv_restoreBlock h)
  · exact h

theorem inv_inTurn {serial core} (h : Inv s) : Inv (inTurn s serial core) := inv_congr h rfl rfl rfl

theorem inv_relaunchOn {serial block core l b} (h : Inv s) : Inv (relaunchOn s serial block core l b) :=
  inv_rehome (inv_modLaunch (inv_modBlock (inv_startBlock h)))

theorem inv_startAll {serial xs t} (h : Inv s) (e : startAll serial xs s = some t) : Inv t := by
  induction xs generalizing s with
  | nil => exact Option.some.inj e ▸ h
  | cons x xs ih =>
    unfold startAll at e
    split at e
    · split at e
      · exact ih (inv_startBlock h) e
      · cases e
    · cases e

theorem inv_placeItem {serial die cores t} (h : Inv s) (e : placeItem serial die cores s = some t) : Inv t := by
  unfold placeItem at e
  split at e
  · cases e
  · extract_lets go at e
    have hgo : ∀ bs alone rest, go bs alone rest = some t → Inv t := by
      intro bs alone rest hg
      simp only [go] at hg
      split at hg
      · cases hg
      · obtain ⟨u, hu, rfl⟩ := Option.map_eq_some_iff.mp hg
        exact inv_modLaunch (inv_startAll h hu)
    split at e
    · cases e
    · exact hgo _ _ _ e
    · exact hgo _ _ _ e

theorem keeps_execBlockPlace {serial die cores} (h : Inv s) : KeepsInv (execBlockPlace serial die cores s) := by
  refine inv_ite ?_ h
  cases hp : placeItem serial die cores s with
  | none => exact h
  | some t => exact inv_placeItem h hp

theorem keeps_execStealMessage {serial die} (h : Inv s) : KeepsInv (execStealMessage serial die s) := by
  unfold execStealMessage
  split
  · exact inv_ite (inv_modLaunch h) h
  · exact h

theorem keeps_execStealAnswer {serial die} (h : Inv s) : KeepsInv (execStealAnswer serial die s) := by
  unfold execStealAnswer
  split
  · exact keeps_ite h (inv_modLaunch h)
  · exact h

theorem inv_setDraining {serial blocks count} (h : Inv s) : Inv (setDraining s serial blocks count) :=
  inv_foldl h fun _ _ h1 => inv_modBlock h1

theorem keeps_execQuantumEnd {core} (h : Inv s) : KeepsInv (execQuantumEnd core s) := by
  unfold execQuantumEnd
  split
  · exact h
  · split
    · exact inv_congr h rfl rfl rfl
    · exact keeps_ite h (keeps_ite (inv_congr h rfl rfl rfl) (keeps_ite h (inv_setDraining (inv_congr h rfl rfl rfl))))

theorem inv_leavePublish {serial block l b} (h : Inv s) : Inv (leavePublish s serial block l b) := inv_ite h (inv_publishSet h)

theorem inv_dropBlockLatch {serial block core} (h : Inv s) : Inv (dropBlockLatch s serial block core) :=
  inv_foldl h fun _ _ h1 => inv_ite (inv_dropLatch h1) h1

theorem inv_saveBlock {serial block b} (h : Inv s) : Inv (saveBlock s serial block b) :=
  inv_closeUse (inv_dropBlockLatch (inv_modBlock (inv_foldl h fun _ _ h1 => inv_setWave h1)))

theorem inv_resumeOn {serial at_} (h : Inv s) : Inv (resumeOn serial s at_) := inv_foldl h fun _ _ h1 => inv_restoreOn h1

theorem inv_lowerOf {a b : Option (Nat × State)} (ha : ∀ x, a = some x → Inv x.2) (hb : ∀ x, b = some x → Inv x.2) :
    ∀ x, lowerOf a b = some x → Inv x.2 := by
  intro x hx
  unfold lowerOf at hx
  split at hx
  · obtain rfl := Option.some.inj hx
    split
    · exact hb _ rfl
    · exact ha _ rfl
  · exact ha _ hx
  · exact hb _ hx

theorem inv_lowerMove {serial die limit skip t} (h : Inv s) (e : lowerMove s serial die limit skip = some t) : Inv t := by
  unfold lowerMove at e
  split at e
  · cases e
  · extract_lets lost saved fresh at e
    have hlost : ∀ x, lost = some x → Inv x.2 := by
      intro x hx
      obtain ⟨y, -, rfl⟩ := Option.map_eq_some_iff.mp hx
      exact inv_relaunchOn h
    have hsaved : ∀ x, saved = some x → Inv x.2 := by
      intro x hx
      obtain ⟨p, -, hp⟩ := List.exists_of_findSome?_eq_some hx
      split at hp
      · obtain ⟨at_, -, rfl⟩ := Option.map_eq_some_iff.mp hp
        exact inv_resumeOn h
      · cases hp
    have hfresh : ∀ d x, fresh d = some x → Inv x.2 := by
      intro d x hx
      simp only [fresh] at hx
      split at hx
      · split at hx
        · obtain ⟨at_, -, hp⟩ := Option.bind_eq_some_iff.mp hx
          split at hp
          · obtain ⟨u, hu, rfl⟩ := Option.map_eq_some_iff.mp hp
            exact inv_placeItem h hu
          · cases hp
        · cases hx
      · cases hx
    obtain ⟨x, hx, rfl⟩ := Option.map_eq_some_iff.mp e
    exact inv_lowerOf hlost (inv_lowerOf hsaved (inv_lowerOf (hfresh 0) (hfresh 1))) x hx

theorem inv_bringLower {serial die limit skip n} (h : Inv s) : Inv (bringLower serial die limit skip n s) := by
  induction n generalizing s with
  | zero => exact h
  | succ n ih =>
    unfold bringLower
    split
    · exact ih (inv_lowerMove h ‹_›)
    · exact h

theorem keeps_execPreempt {serial block} (h : Inv s) : KeepsInv (execPreempt serial block s) := by
  unfold execPreempt
  split
  · exact h
  · exact keeps_ite h (keeps_ite (inv_foldl (inv_foldl (inv_foldl h fun _ _ h1 => inv_leavePublish h1) fun _ _ h1 =>
      inv_saveBlock h1) fun _ _ h1 => inv_bringLower h1) (inv_foldl h fun _ _ h1 => inv_leavePublish h1))

theorem keeps_execResume {serial block cores} (h : Inv s) : KeepsInv (execResume serial block cores s) := by
  unfold execResume
  split
  · exact keeps_ite (by
    split
    · exact inv_ite (inv_resumeOn h) h
    · exact h) h
  · exact h

theorem inv_without {serial p} (h : Inv s) : Inv (without s serial p) := inv_congr h rfl rfl rfl

theorem keeps_execSwap {serial waiter lower} (h : Inv s) : KeepsInv (execSwap serial waiter lower s) := by
  unfold execSwap
  split
  · exact keeps_ite (inv_setDraining h) h
  · exact h

theorem inv_settleJoules {l used attr} (h : Inv s) : Inv (settleJoules s l used attr).1 :=
  inv_ite_fst (inv_refund (inv_payHouse h)) (inv_ite_fst (inv_payHouse (inv_payHouse h)) (inv_chargeOverrun (inv_payHouse h)))

theorem inv_forget {serial l} (h : Inv s) : Inv (forget s serial l) :=
  inv_foldl (inv_foldl (inv_congr h rfl rfl rfl) fun _ _ h1 => inv_modCluster h1) fun _ _ h1 => inv_retarget h1

theorem inv_lateValues {port mine} (h : Inv s) : Inv (lateValues s port mine) := inv_foldl h fun _ _ h1 => inv_modLaunch h1

theorem inv_finishLaunch {serial outcome fcode attr} (h : Inv s) : Inv (finishLaunch s serial outcome fcode attr) := by
  have hl : Inv ((List.range 16).foldl (fun s p => lateValues s p (fun n => n == serial)) s) := inv_foldl h (fun _ _ h0 => inv_lateValues h0)
  unfold finishLaunch
  extract_lets s1
  split
  · exact hl
  · exact inv_forget (inv_dropLaunch (inv_postRecord (inv_settleJoules hl)))

theorem inv_performAll {serial} (h : Inv s) : Inv (performAll s serial) := by
  refine inv_congr (inv_foldl (inv_foldl h fun _ _ h1 => inv_performPub h1) fun _ _ h1 => ?_) rfl rfl rfl
  split
  · exact inv_fulfilReady h1
  · exact h1

theorem inv_discardAtomics {serial} (h : Inv s) : Inv (discardAtomics s serial) :=
  inv_foldl (inv_congr h rfl rfl rfl) fun _ _ h1 => by
  split
  · exact inv_ite (inv_atomAt h1) h1
  · exact h1

theorem inv_stopCopies {mark p} (h : Inv s) : Inv (stopCopies s mark p) := inv_foldl h fun _ _ h1 => inv_ite h1 (inv_modCopy h1)

theorem inv_stopSweeps {mark p} (h : Inv s) : Inv (stopSweeps s mark p) := inv_foldl h fun _ _ h1 => inv_ite h1 (inv_modSweep h1)

theorem inv_discardWork {serial} (h : Inv s) : Inv (discardWork s serial) := by
  unfold discardWork
  extract_lets s1 s2 s3 s4 s5 s6
  have h2 : Inv s2 := inv_congr (inv_discardAtomics h) rfl rfl rfl
  have h5 : Inv s5 := inv_stopSweeps (inv_stopCopies (inv_performAll h2))
  exact inv_makersFail (inv_dropLaunch (inv_congr h5 rfl rfl rfl))

theorem keeps_execLaunchFault {serial} (h : Inv s) : KeepsInv (execLaunchFault serial s) := by
  unfold execLaunchFault
  split
  · exact h
  · split
    · exact h
    · exact inv_finishLaunch (inv_postRecord (inv_discardWork (inv_modLaunch h)))

theorem inv_discardLaunch {serial} (h : Inv s) : Inv (discardLaunch s serial) := by
  unfold discardLaunch
  exact inv_finishLaunch (inv_discardWork (inv_modLaunch h))

theorem inv_discardPart {p} (h : Inv s) : Inv (discardPart s p) := inv_foldl h fun _ _ h1 => inv_discardLaunch h1

theorem keeps_execBlockRetire {serial block} (h : Inv s) : KeepsInv (execBlockRetire serial block s) := by
  unfold execBlockRetire
  split
  · exact keeps_ite h (inv_bringLower (inv_foldl (inv_modLaunch (inv_closeUse (inv_modBlock (inv_congr (inv_leavePublish h) rfl
      rfl rfl)))) fun _ _ h1 => inv_addTrap h1))
  · exact h

theorem keeps_execLaunchCompletion {serial} (h : Inv s) : KeepsInv (execLaunchCompletion serial s) := by
  unfold execLaunchCompletion
  split
  · exact h
  · exact keeps_ite h (by
    split
    · exact inv_addTrap h
    · exact inv_finishLaunch h)

theorem inv_suspendRecord {serial rkind l value} (h : Inv s) : Inv (suspendRecord s serial rkind l value) := inv_postRecord h

theorem keeps_execSuspend {serial} (h : Inv s) : KeepsInv (execSuspend serial s) := by
  unfold execSuspend
  split
  · exact h
  · exact keeps_ite h (inv_suspendRecord (inv_modLaunch h))

theorem keeps_execSuspensionEnd {serial} (h : Inv s) : KeepsInv (execSuspensionEnd serial s) := by
  unfold execSuspensionEnd
  split
  · exact h
  · exact keeps_ite h (inv_suspendRecord (inv_modLaunch h))

theorem inv_keepCore {serial block} (h : Inv s) : Inv (keepCore s serial block) := by
  unfold keepCore
  split
  · exact inv_ite h (by
    split
    · exact inv_retarget (inv_modLaunch h)
    · exact inv_addTrap h)
  · exact h

theorem inv_loseBlock {serial block q attr} (h : Inv s) : Inv (loseBlock s serial block q attr) := by
  unfold loseBlock
  split
  · extract_lets id key s1 s2 s3 s4
    have h3 : Inv s3 := inv_dropBlockLatch (inv_stopSweeps (inv_stopCopies (inv_congr h rfl rfl rfl)))
    have h4 : Inv s4 := inv_closeUse (inv_modBlock h3)
    exact inv_ite (inv_addTrap h4) (inv_modLaunch (inv_makersFail (inv_dropQueue h4)))
  · exact h

theorem inv_tellFeats {before} (h_s : Inv s) : Inv (tellFeats before s) := inv_foldl h_s fun _ _ h2 => inv_report h2

theorem keeps_execQuadrantShutdown {q} (h : Inv s) : KeepsInv (execQuadrantShutdown q s) :=
  keeps_ite h (inv_foldl (inv_foldl (inv_foldl (inv_tellFeats (inv_congr h rfl rfl rfl)) fun _ _ h1 => inv_modLaunch h1) fun _ _
    h1 => inv_loseBlock h1) fun _ _ h1 => inv_keepCore h1)

theorem keeps_execRelaunch {serial block core} (h : Inv s) : KeepsInv (execRelaunch serial block core s) := by
  unfold execRelaunch
  split
  · exact inv_ite (inv_relaunchOn h) h
  · exact h

/-! ### Sys2Proof/Machine/HostRegs.lean -/

theorem inv_setStatus {p n} (h : Inv s) : Inv (setStatus s p n) := inv_modPart h

theorem inv_applyMap {p m breaking} (h : Inv s) : Inv (applyMap s p m breaking) :=
  inv_ite (inv_congr h rfl rfl rfl) (inv_modPart h)

theorem inv_commit {p force} (h : Inv s) : Inv (commit s p force) :=
  inv_ite (inv_setStatus h) (inv_ite (inv_setStatus (inv_applyMap h)) (inv_ite (inv_setStatus (inv_applyMap h)) (inv_ite
    (inv_setStatus (inv_applyMap (inv_discardPart h))) (inv_setStatus (inv_modPart h)))))

theorem inv_tableWrite {t p locs} (h_t : Inv t) : Inv (tableWrite s t p locs) :=
  inv_ite h_t (inv_ite (inv_modPart h_t) (inv_ite (inv_congr h_t rfl rfl rfl) (inv_modPart h_t)))

theorem inv_swapPlaces {old new_} (h : Inv s) : Inv (swapPlaces s old new_) := inv_congr h rfl rfl rfl

theorem inv_switchPage {g} (h : Inv s) : Inv (switchPage s g) :=
  inv_swapPlaces (inv_ite (inv_congr h rfl rfl rfl) (inv_congr h rfl rfl rfl))

theorem inv_migrateWhole {g} (h : Inv s) : Inv (migrateWhole s g) :=
  inv_switchPage (inv_foldl (inv_congr h rfl rfl rfl) fun _ _ h1 => inv_copyLine h1)

theorem inv_returnHot {p} (h : Inv s) : Inv (returnHot s p) :=
  inv_foldl (inv_congr h rfl rfl rfl) fun _ _ h1 => inv_migrateWhole h1

theorem inv_configWrite {p reg v} (h : Inv s) : Inv (configWrite s p reg v) := by
  refine inv_ite (inv_setStatus h) ?_
  split
  · exact inv_setStatus h
  · exact inv_setStatus (inv_ite (inv_congr (inv_ite (inv_returnHot h) h) rfl rfl rfl) (inv_modPart (inv_ite (inv_returnHot h)
      h)))

theorem inv_ringSet {p isBase v} (h : Inv s) : Inv (ringSet s p isBase v) :=
  inv_ite (inv_setStatus h) (inv_ite (inv_setStatus h) (inv_setStatus (inv_modPart h)))

theorem inv_freeClaims {p} (h : Inv s) : Inv (freeClaims s p) := inv_foldl h fun _ _ h1 => inv_ite (inv_setClaim h1) h1

theorem inv_resetPart {p} (h : Inv s) : Inv (resetPart s p) := inv_freeClaims (inv_discardPart (inv_modPart h))

theorem keeps_execFunctionLevelReset {part} (h : Inv s) : KeepsInv (execFunctionLevelReset part s) :=
  keeps_ite h (inv_ite (inv_modPart (inv_resetPart h)) (inv_congr (inv_resetPart h) rfl rfl rfl))

theorem inv_stageWrite {p off data} (h : Inv s) : Inv (stageWrite s p off data) :=
  inv_ite (inv_modPart h) (inv_ite (inv_modPart h) (inv_ite (inv_modPart h) h))

theorem inv_blockWrite {p off data} (h : Inv s) : Inv (blockWrite s p off data) := by
  dsimp only [blockWrite]
  split
  · exact inv_configWrite h
  · exact inv_configWrite h
  · exact inv_configWrite h
  · exact inv_configWrite h
  · exact inv_configWrite h
  · exact inv_ite (inv_commit h) (inv_setStatus h)
  · exact inv_setStatus (inv_ite (inv_resetPart h) h)
  · exact inv_setStatus (inv_stageWrite h)

theorem inv_noteStall {port serial} (h : Inv s) : Inv (noteStall s port serial) := by
  dsimp only [noteStall]
  split
  · exact inv_modLaunch (inv_modPort h)
  · exact h

theorem inv_noteStalls (h : Inv s) : Inv (noteStalls s) := inv_foldl h fun _ _ h1 => inv_foldl h1 fun _ _ h2 => inv_noteStall h2

theorem inv_retryRoutes (h : Inv s) : Inv (retryRoutes s) := inv_foldl (inv_modPort h) fun _ _ h1 => inv_routeFlit h1

theorem inv_routeWrite {v} (h : Inv s) : Inv (routeWrite s v) := inv_retryRoutes (inv_congr h rfl rfl rfl)

theorem inv_withGrant {r : State × Nat} (h : Inv r.1) : Inv { r.1 with grantStat := r.2, grants := r.1.grants + 1 } := inv_congr h rfl rfl rfl

theorem inv_pfWrite {off data} (h : Inv s) : Inv (pfWrite s off data) := by
  unfold pfWrite
  refine inv_ite (inv_blockWrite h) (inv_ite ?_ (inv_ite ?_ (inv_ite ?_ (inv_ite (inv_routeWrite h) h))))
  · have hs {x} : Inv { s with grantRegs := x } := inv_congr h rfl rfl rfl
    refine inv_ite ?_ hs
    exact inv_withGrant (inv_grant hs)
  · exact inv_congr h rfl rfl rfl
  · exact inv_congr h rfl rfl rfl

theorem inv_vfWrite {p off data} (h : Inv s) : Inv (vfWrite s p off data) :=
  inv_ite (inv_ite (inv_modPart (inv_modPart h)) (inv_modPart h)) (inv_ite (inv_ringSet h) (inv_ite (inv_ringSet h) (inv_ite
    (inv_tailWrite h) h)))

theorem keeps_execStatusRead {r} (h : Inv s) : KeepsInv (execStatusRead r s) :=
  keeps_ite h (inv_foldl (inv_congr h rfl rfl rfl) fun _ _ h1 => inv_modPart h1)

theorem inv_dropUnit {p a cause} (h : Inv s) : Inv (dropUnit s p a cause) := inv_report (inv_modPart h)

theorem inv_hostWriteUnit {p a bs} (h : Inv s) : Inv (hostWriteUnit s p a bs) := by
  unfold hostWriteUnit
  split
  · exact inv_ite (inv_dropUnit h) (inv_ite (inv_dropUnit h) (inv_ite (inv_dropUnit h) (inv_foldl (inv_homeWrite (inv_ite
      (inv_congr h rfl rfl rfl) h)) fun _ _ h1 => inv_tableWrite h1)))
  · exact inv_dropUnit h
  · exact h

theorem keeps_execHostRead {part addr len} (h : Inv s) : KeepsInv (execHostRead part addr len s) :=
  keeps_ite h (inv_congr (inv_foldl h fun _ _ h1 => inv_report h1) rfl rfl rfl)

/-! ### Sys2Proof/Machine/Fabric.lean -/

theorem inv_countFailed {port} (h : Inv s) : Inv (countFailed s port) := inv_modPort h

theorem inv_forward {f} (h : Inv s) : Inv (forward s f) := inv_ite (inv_report h) (inv_routeFlit h)

theorem inv_arrive {port kind f deliver} (h : Inv s) (hdeliver : ∀ s, Inv s → Inv (deliver s)) :
    Inv (arrive s port kind f deliver) :=
  inv_ite h (inv_ite (inv_modPort h) (inv_modPort (inv_ite (hdeliver _ (inv_modPort (inv_modPort h))) (inv_forward (inv_modPort
    (inv_modPort h))))))

theorem inv_serveAreq {f} (h : Inv s) : Inv (serveAreq s f) := by
  unfold serveAreq
  split
  · exact inv_sendFlit h
  · exact inv_sendFlit (inv_foldl_fst h fun _ _ h1 => inv_atomAt h1)

theorem inv_serveRreq {f} (h : Inv s) : Inv (serveRreq s f) := inv_sendFlit h

theorem inv_serveWdata {f} (h : Inv s) : Inv (serveWdata s f) := inv_sendFlit (by
  split
  · exact h
  · exact inv_ite_fst h (by
    split
    · exact h
    · exact inv_ite_fst h (inv_engineWrite h)))

theorem inv_answerWave {id w dev tag st old} (h : Inv s) : Inv (answerWave s id w dev tag st old) := by
  refine inv_ite (inv_setWave h) ?_
  split
  · exact inv_addTrap (inv_setWave h)
  · exact inv_setWave h

theorem inv_takeStaged {f} (h : Inv s) : Inv (takeStaged s f) := by
  refine inv_ite (inv_congr h rfl rfl rfl) (inv_foldl (inv_congr h rfl rfl rfl) fun _ _ h1 => ?_)
  split
  · exact inv_failStaged h1
  · exact inv_addTrap h1

theorem inv_takeArsp {f} (h : Inv s) : Inv (takeArsp s f) := inv_takeStaged (inv_foldl h fun _ _ h1 => inv_answerWave h1)

theorem inv_takeRun {f data} (h : Inv s) : Inv (takeRun s f data) := inv_congr h rfl rfl rfl

theorem keeps_execFlitReplay {port} (h : Inv s) : KeepsInv (execFlitReplay port s) := by
  refine inv_ite h ?_
  split
  · exact inv_modPort h
  · exact h

theorem inv_portDown {port} (h : Inv s) : Inv (portDown s port) := inv_foldl (inv_modPort h) fun _ _ h1 => inv_routeFlit h1

theorem inv_endLate {port} (h : Inv s) : Inv (endLate s port) := inv_modPort (inv_congr (inv_lateValues h) rfl rfl rfl)

theorem keeps_execRetrainEnd {port ok} (h : Inv s) : KeepsInv (execRetrainEnd port ok s) :=
  inv_ite h (inv_ite (inv_modPort (inv_endLate h)) (inv_ite (inv_portDown (inv_modPort h)) (inv_modPort (inv_endLate h))))

/-! ### Sys2Proof/Machine/Board.lean -/

theorem keeps_execPowerUp {transportLow} (h : Inv s) : KeepsInv (execPowerUp transportLow s) :=
  have ht {n a c q f l p x d b r m g i z} : Inv { State.reset with
      tick := n, agenda := a, cur := c, seq := q, free := f, hostMem := s.hostMem, lastSerial := l, powerUps := p, selfTest := x,
      transport := false, droop := d, beyond := b, refClock := r, mgmt := m, attest := g, hostReads := i, selfRecord := z } := ⟨rfl, h.2.1, rfl⟩
  inv_ite ht (inv_foldl ht (fun _ _ h0 => inv_rideAtFloor h0))

theorem keeps_execSelfTestEnd {masks rails hbm ports lpddr corrected} (h : Inv s) :
    KeepsInv (execSelfTestEnd masks rails hbm ports lpddr corrected s) :=
  keeps_ite h (inv_foldl (inv_ite (inv_tellFeats (inv_report (inv_foldl (inv_congr h rfl rfl rfl) fun _ _ h1 => inv_portDown
    h1))) (inv_report (inv_tellFeats (inv_report (inv_foldl (inv_congr h rfl rfl rfl) fun _ _ h1 => inv_portDown h1))))) fun _ _
    h1 => inv_postRecord h1)

/-! ### Sys2Proof/Machine/FloatLane.lean -/

theorem keeps_specialWord {fn m r} (h : Inv s) : KeepsInv (specialWord fn m r s) := keeps_issue fun _ => inv_later h

/-! ### Sys2Proof/Machine/IntLane.lean -/

theorem keeps_intWord {r f} (h : Inv s) : KeepsInv (intWord r s f) := keeps_issue fun _ => inv_write h

theorem keeps_intWord3 {r f} (h : Inv s) : KeepsInv (intWord3 r s f) := keeps_issue fun _ => inv_write h

theorem keeps_intWord1 {r f} (h : Inv s) : KeepsInv (intWord1 r s f) := keeps_issue fun _ => inv_write h

theorem keeps_execAnd {r} (h : Inv s) : KeepsInv (execAnd r s) := keeps_intWord h

theorem keeps_execOr {r} (h : Inv s) : KeepsInv (execOr r s) := keeps_intWord h

theorem keeps_execXor {r} (h : Inv s) : KeepsInv (execXor r s) := keeps_intWord h

theorem keeps_execMov {r} (h : Inv s) : KeepsInv (execMov r s) := keeps_intWord1 h

/-! ### Sys2Proof/Machine/Masks.lean -/

theorem keeps_maskWord {r f} (h : Inv s) : KeepsInv (maskWord r s f) := keeps_issue fun _ => inv_write h

theorem keeps_maskCount {r f} (h : Inv s) : KeepsInv (maskCount r s f) := keeps_issue fun _ => inv_write h

theorem keeps_execMnot {r} (h : Inv s) : KeepsInv (execMnot r s) := keeps_maskWord h

theorem keeps_execMpop {r} (h : Inv s) : KeepsInv (execMpop r s) := keeps_maskCount h

theorem keeps_execMany {r} (h : Inv s) : KeepsInv (execMany r s) := keeps_maskCount h

theorem keeps_execMall {r} (h : Inv s) : KeepsInv (execMall r s) := keeps_maskCount h

theorem keeps_execSwr {hd keep scalar code src} (h : Inv s) : KeepsInv (execSwr hd keep scalar code src s) :=
  keeps_issue fun _ => by
  split
  · exact inv_done h
  · exact inv_done h

/-! ### Sys2Proof/Machine/Paging.lean -/

theorem keeps_execMigrationLineCopy {page} (h : Inv s) : KeepsInv (execMigrationLineCopy page s) := by
  unfold execMigrationLineCopy
  split
  · exact h
  · split
    · exact h
    · exact inv_copyLine h

theorem keeps_execMigrationSwitch {page} (h : Inv s) : KeepsInv (execMigrationSwitch page s) := by
  unfold execMigrationSwitch
  split
  · exact h
  · exact inv_ite (inv_switchPage h) h

theorem keeps_execHotPageScan {part order} (h : Inv s) : KeepsInv (execHotPageScan part order s) :=
  keeps_ite h (keeps_ite (inv_congr h rfl rfl rfl) (inv_congr h rfl rfl rfl))

theorem keeps_execScrubError {e part addr} (h : Inv s) : KeepsInv (execScrubError e part addr s) := by
  unfold execScrubError
  split
  · exact inv_ite (inv_report (inv_congr h rfl rfl rfl)) h
  · exact inv_ite (inv_report (inv_congr h rfl rfl rfl)) (inv_congr h rfl rfl rfl)

/-! ### Sys2Proof/Machine/Perform.lean -/

theorem keeps_execScratchpadAccessPerform {w} (h : Inv s) : KeepsInv (execScratchpadAccessPerform w s) := by
  unfold execScratchpadAccessPerform
  split
  · split
    · exact inv_performPush h
    · exact inv_performPop h
    · exact inv_performMatrix h
    · exact inv_performMatrix h
    · exact inv_performMatrix h
    · exact inv_performSweep h
    · exact inv_performSweep h
    · exact inv_performSweep h
    · exact inv_performSweep h
    · exact inv_performSweep h
    · exact inv_performPlain h
  · exact h

/-! ### Sys2Proof/Machine/Pipeline.lean -/

theorem inv_unlatch {slot ws} (h : Inv s) : Inv (unlatch s slot ws) := inv_congr h rfl rfl rfl

theorem inv_land {id core tag} (h : Inv s) : Inv (land s id core tag) := by
  unfold land
  split
  · split
    · exact inv_unlatch (inv_setWave h)
    · exact h
  · exact h

theorem keeps_execResultWriteback {w tag} (h : Inv s) : KeepsInv (execResultWriteback w tag s) := by
  unfold execResultWriteback
  split
  · exact inv_ite (inv_land (inv_performStable h)) h
  · exact h

theorem inv_raiseWord {c code word} (h : Inv s) : Inv (raiseWord c s code word) := inv_raise h

theorem keeps_execFetchCheckError {w slotB second} (h : Inv s) : KeepsInv (execFetchCheckError w slotB second s) :=
  keeps_onPath h fun _ => inv_ite (inv_modWave h) (inv_ite (inv_raiseWord h) h)

theorem keeps_execIllop {w slotB word} (h : Inv s) : KeepsInv (execIllop w slotB word s) :=
  keeps_onPath h fun _ => inv_ite (inv_raiseWord h) h

/-! ### Sys2Proof/Machine/Quote.lean -/

theorem keeps_onBell {part win kind f} (h : Inv s) (hf : ∀ s b, Inv s → Inv (f s b)) : KeepsInv (onBell s part win kind f) := by
  unfold onBell
  split
  · exact inv_ite (hf _ _ (inv_modPart h)) h
  · exact h

theorem inv_Answer_keep {part a3} (h : Inv s) : Inv (Answer.keep s part a3) := by
  unfold Answer.keep
  split
  · exact h
  · exact inv_modPart h

theorem inv_quoteBell {part b} (h : Inv s) : Inv (quoteBell s part b) :=
  inv_postRecord (inv_Answer_keep (inv_congr h rfl rfl rfl))

theorem keeps_execQuote {part win} (h : Inv s) : KeepsInv (execQuote part win s) := keeps_onBell h fun _ _ h1 => inv_quoteBell h1

theorem inv_answerBell {part b result} (h : Inv s) : Inv (answerBell s part b result) := inv_postRecord h

theorem inv_keepLocked (h : Inv s) : Inv (keepLocked s) := inv_congr h rfl rfl rfl

theorem inv_acceptOffer {o} (h : Inv s) : Inv (acceptOffer s o) :=
  inv_foldl (inv_keepLocked (inv_congr (inv_setBalance (inv_modPart h)) rfl rfl rfl)) fun _ _ h1 => inv_retarget h1

theorem inv_acceptBell {part b} (h : Inv s) : Inv (acceptBell s part b) := by
  unfold acceptBell
  split
  · exact inv_answerBell h
  · exact inv_ite (inv_answerBell (inv_modPart h)) (inv_ite (inv_answerBell h) (inv_answerBell (inv_acceptOffer h)))

theorem keeps_execAccept {part win} (h : Inv s) : KeepsInv (execAccept part win s) :=
  keeps_onBell h fun _ _ h1 => inv_acceptBell h1

theorem keeps_execDecline {part win} (h : Inv s) : KeepsInv (execDecline part win s) :=
  keeps_onBell h fun _ _ h1 => inv_answerBell (inv_modPart h1)

theorem keeps_execMalformed {part win} (h : Inv s) : KeepsInv (execMalformed part win s) :=
  keeps_onBell h fun _ _ h1 => inv_answerBell h1

/-! ### Sys2Proof/Machine/Dispatch.lean -/

theorem keeps_exec (i : Instr) (h : Inv s) : KeepsInv (exec i s) := by
  cases i with
  | iadd | isub | isadd | imul | imulh | imin | imax | shl | shr | shra | rot | bfx => exact keeps_intWord h
  | iaddc | icmp | sel | movi | fadd | fsub | fmul | ffma | fmin | fmax | fcmp | fclass | frint | fdot2 | cvt | pack
  | unpk | dqnt | srd | pairedWord => exact keeps_issue fun _ => inv_write h
  | imad | bfi => exact keeps_intWord3 h
  | iabs | ineg | not | popc | clz | brev => exact keeps_intWord1 h
  | and => exact keeps_execAnd h
  | or => exact keeps_execOr h
  | xor => exact keeps_execXor h
  | mov => exact keeps_execMov h
  | nhash | fdiv | fsqrt | qnt | scanv | vtos | stov => exact keeps_issue fun _ => inv_later h
  | exp2 | log2 | rcp | rsq | sin | cos | tanh | sigm | erf => exact keeps_specialWord h
  | shfl | shflx | bcast | redv => exact keeps_crossWord h
  | mand | mor | mxor => exact keeps_maskWord h
  | mnot => exact keeps_execMnot h
  | mpop => exact keeps_execMpop h
  | many => exact keeps_execMany h
  | mall => exact keeps_execMall h
  | swr _ keep _ code => exact keeps_execSwr (keep := keep) (code := code) h
  | ats => exact keeps_execAts h
  | cass => exact keeps_execCass h
  | feset | feclr | feqry => exact keeps_feWord h
  | atg => exact keeps_execAtg h
  | casg => exact keeps_atomWord h
  | redg => exact keeps_execRedg h
  | phase => exact keeps_execPhase h
  | publ => exact keeps_execPubl h
  | rfsh => exact keeps_issue fun _ => inv_ite (inv_done h) (inv_view h)
  | fence => exact keeps_issue fun _ => inv_ite (inv_done h) (inv_modWave h)
  | sysrel => exact keeps_execSysrel h
  | mqma _ keepA => exact keeps_execMqma (keepA := keepA) h
  | mcrd => exact keeps_execMcrd h
  | mcwr _ _ keepA => exact keeps_execMcwr (keepA := keepA) h
  | mcz => exact keeps_execMcz h
  | lrchk => exact keeps_execLrchk h
  | claim => exact keeps_execClaim h
  | rcede => exact keeps_issue fun _ => inv_ite (inv_modWave h) (inv_cede h)
  | rtake hd => exact keeps_execRtake (hd := hd) h
  | qinit => exact keeps_execQinit h
  | qpush | qpop | snbr => exact keeps_issue fun _ => inv_ite (inv_done h) (inv_spIssue h)
  | rvinit => exact keeps_pointWord h fun _ _ => inv_done (inv_setPoint h)
  | rvarr => exact keeps_pointWord h fun _ _ => inv_done h
  | rvexp => exact keeps_execRvexp h
  | rvwait => exact keeps_execRvwait h
  | rvtest => exact keeps_pointWord h fun _ _ => inv_later h
  | tlwait => exact keeps_execTlwait h
  | tlread => exact keeps_execTlread h
  | clwait => exact keeps_execClwait h
  | fulfil => exact keeps_execFulfil h
  | abandon => exact keeps_execAbandon h
  | clrel => exact keeps_execClrel h
  | clinv => exact keeps_execClinv h
  | swgo => exact keeps_issue fun _ => inv_ite (inv_done h) (inv_later (inv_modSweep h))
  | swait => exact keeps_execSwait h
  | swend => exact keeps_issue fun _ => inv_ite (inv_done h) (inv_leaveWord h)
  | swake => exact keeps_execSwake h
  | sctxr => exact keeps_execSctxr h
  | sctxw => exact keeps_execSctxw h
  | swqry => exact keeps_execSwqry h
  | lds => exact keeps_execLds h
  | sts => exact keeps_execSts h
  | dlds => exact keeps_execDlds h
  | dsts => exact keeps_execDsts h
  | ldg => exact keeps_execLdg h
  | stg => exact keeps_execStg h
  | ldh => exact keeps_execLdh h
  | sth => exact keeps_execSth h
  | pfg | yield | nop => exact keeps_issue fun _ => inv_done h
  | spill => exact keeps_execSpill h
  | fill => exact keeps_execFill h
  | mbld => exact keeps_execMbld h
  | mbcast => exact keeps_execMbcast h
  | cpy | cpyx | cpyrIn | cpyrOut => exact keeps_copyWord h
  | bra | brc => exact keeps_issue fun _ => inv_jump h
  | brd => exact keeps_execBrd h
  | join => exact keeps_execJoin h
  | loopb => exact keeps_execLoopb h
  | loopn | loopx => exact keeps_issue fun _ => inv_modWave (inv_jump h)
  | call => exact keeps_issue fun _ => inv_callTo h
  | callt => exact keeps_execCallt h
  | ret => exact keeps_execRet h
  | exit => exact keeps_issue fun _ => inv_retireIfOver (inv_pops (inv_rewrite h))
  | trap => exact keeps_issue fun _ => inv_raiseLimit h
  | brk => exact keeps_issue fun _ => inv_modLaunch (inv_done h)
  | yieldc => exact keeps_execYieldc h
  | resultWriteback => exact keeps_execResultWriteback h
  | scratchpadAccessPerform => exact keeps_execScratchpadAccessPerform h
  | storeSetEntry => exact keeps_execStoreSetEntry h
  | publicationPerform => exact keeps_execPublicationPerform h
  | atomicAtHome => exact keeps_execAtomicAtHome h
  | homeReadArrival => exact keeps_execHomeReadArrival h
  | framePop => exact keeps_execFramePop h
  | frameReadDone => exact inv_modWave h
  | rvwaitComplete => exact keeps_execRvwaitComplete h
  | tlwaitComplete => exact keeps_execTlwaitComplete h
  | clwaitComplete => exact keeps_execClwaitComplete h
  | qpushComplete => exact inv_performPush h
  | qpopComplete => exact inv_performPop h
  | rtakeComplete => exact keeps_execRtakeComplete h
  | rcedeComplete => exact keeps_execRcedeComplete h
  | ldsFillComplete => exact keeps_execLdsFillComplete h
  | yieldcResume => exact keeps_execYieldcResume h
  | fenceComplete => exact keeps_execFenceComplete h
  | sysrelComplete => exact keeps_execSysrelComplete h
  | waitLimitExpiry => exact keeps_execWaitLimitExpiry h
  | fillLimitExpiry => exact keeps_execFillLimitExpiry h
  | arrivalAtPoint => exact keeps_execArrivalAtPoint h
  | ldhCompletion => exact keeps_execLdhCompletion h
  | copyCommandArrival => exact keeps_execCopyCommandArrival h
  | engineTurn => exact keeps_execEngineTurn h
  | copyOperationStart => exact keeps_execCopyOperationStart h
  | copyPieceCountdown => exact keeps_execCopyPieceCountdown h
  | copyFinish => exact keeps_execCopyFinish h
  | mbldComplete => exact keeps_execMbldComplete h
  | matrixPass => exact keeps_execMatrixPass h
  | matrixPassComplete => exact keeps_execMatrixPassComplete h
  | broadcastPerform => exact keeps_execBroadcastPerform h
  | sweepRunStart => exact keeps_execSweepRunStart h
  | chunkEvaluation => exact keeps_execChunkEvaluation h
  | sweepWaveForm => exact keeps_execSweepWaveForm h
  | sweepStart => exact keeps_execSweepStart h
  | sweepRunEnd => exact keeps_execSweepRunEnd h
  | quote => exact keeps_execQuote h
  | accept => exact keeps_execAccept h
  | decline => exact keeps_execDecline h
  | malformed => exact keeps_execMalformed h
  | ringRecordWrite => exact keeps_execRingRecordWrite h
  | tailWrite => exact inv_ite (inv_tailWrite h) h
  | ringSet => exact inv_ite (inv_ringSet h) h
  | partitionConfigWrite => exact inv_ite (inv_configWrite h) h
  | commit | force => exact inv_ite (inv_commit h) h
  | breakingChangeApply => exact inv_ite h (inv_applyMap h)
  | reset => exact inv_ite (inv_setStatus (inv_resetPart h)) h
  | functionLevelReset => exact keeps_execFunctionLevelReset h
  | resetDone => exact inv_ite (inv_raiseIrq (inv_modPart h)) h
  | energyGrant => exact keeps_execEnergyGrant h
  | transportFlagWrite => exact inv_congr h rfl rfl rfl
  | routingEntryWrite => exact inv_routeWrite h
  | registerWrite => exact inv_ite (inv_pfWrite h) (inv_ite h (inv_vfWrite h))
  | hostWrite => exact keeps_ite h (inv_foldl h fun _ _ h1 => inv_hostWriteUnit h1)
  | hostRead => exact keeps_execHostRead h
  | blockPlace => exact keeps_execBlockPlace h
  | stealMessage => exact keeps_execStealMessage h
  | stealAnswer => exact keeps_execStealAnswer h
  | quantumEnd => exact keeps_execQuantumEnd h
  | preempt => exact keeps_execPreempt h
  | resume => exact keeps_execResume h
  | swap => exact keeps_execSwap h
  | suspend => exact keeps_execSuspend h
  | suspensionEnd => exact keeps_execSuspensionEnd h
  | blockRetire => exact keeps_execBlockRetire h
  | launchCompletion => exact keeps_execLaunchCompletion h
  | launchFault => exact keeps_execLaunchFault h
  | fulfilReady => exact keeps_execFulfilReady h
  | claimEntryError => exact keeps_ite h (inv_foldl (inv_setClaim h) fun _ _ h1 => inv_addTrap h1)
  | quadrantShutdown => exact keeps_execQuadrantShutdown h
  | relaunch => exact keeps_execRelaunch h
  | blenderWindow => exact keeps_execBlenderWindow h
  | frequencyRequest => exact inv_ite h (inv_modCluster h)
  | rampStep => exact inv_ite h (inv_moveFloors (inv_seeClock (inv_modCluster h)))
  | supplyExcursion => exact keeps_execSupplyExcursion h
  | clockBelowFloor => exact inv_ite h (inv_seeClock (inv_modCluster h))
  | referenceClockLoss => exact inv_foldl (inv_congr h rfl rfl rfl) fun _ _ h1 => inv_rideDown h1
  | hotPageScan => exact keeps_execHotPageScan h
  | migrationStart => exact inv_ite h (inv_congr h rfl rfl rfl)
  | migrationLineCopy page =>
    show KeepsInv (execMigrationLineCopy page s)
    exact keeps_execMigrationLineCopy h
  | migrationSwitch => exact keeps_execMigrationSwitch h
  | scrubError => exact keeps_execScrubError h
  | fetchCheckError => exact keeps_execFetchCheckError h
  | illop => exact keeps_execIllop h
  | link | retrainStart => exact inv_ite h (inv_modPort h)
  | areq => exact inv_arrive h fun _ h1 => inv_serveAreq h1
  | arsp => exact inv_arrive h fun _ h1 => inv_takeArsp h1
  | rreq => exact inv_arrive h fun _ h1 => inv_serveRreq h1
  | rdata => exact inv_arrive h fun _ h1 => inv_takeRun h1
  | wdata => exact inv_arrive h fun _ h1 => inv_serveWdata h1
  | wack => exact inv_arrive h fun _ h1 => inv_takeRun (inv_takeStaged h1)
  | reservedFlit | crcFailure => exact inv_ite h (inv_countFailed h)
  | flitReplay => exact keeps_execFlitReplay h
  | retrainEnd => exact keeps_execRetrainEnd h
  | retrainAllowanceExpiry => exact inv_ite h (inv_foldl (inv_modPort h) fun _ _ h1 => inv_noteStall h1)
  | powerUp => exact keeps_execPowerUp h
  | selfTestEnd => exact keeps_execSelfTestEnd h
  | attestationRequest => exact keeps_ite h (inv_report (inv_congr h rfl rfl rfl))
  | droop => exact keeps_execDroop h
  | supplyReturn => exact keeps_execSupplyReturn h
  | referenceClockReturn => exact keeps_execReferenceClockReturn h
  | statusRead => exact keeps_execStatusRead h

/-! ### Sys2Proof/Machine/Issue.lean -/

theorem inv_chosenFor {c i} (h : Inv s) : Inv (s.chosenFor c i) :=
  inv_congr (inv_foldl h fun _ _ h1 => inv_modWave h1) rfl rfl rfl

theorem inv_account {c i} (h : Inv s) : Inv (account c i s) := by
  unfold account
  extract_lets q slot s1 s2 mv s3 trapped later latch s4 s5 s6
  have h3 : Inv s3 := inv_modLaunch (inv_modCluster (inv_modWave h))
  have h4 : Inv s4 := inv_congr h3 rfl rfl rfl
  have h5 : Inv s5 := inv_modBlock h4
  have h6 : Inv s6 := inv_ite (inv_congr h5 rfl rfl rfl) h4
  exact inv_foldl h6 fun _ _ h0 => inv_modWave h0

theorem keeps_issueStep {w slotB} (h : Inv s) : KeepsInv (issueStep w slotB s) := by
  unfold issueStep
  split
  · exact h
  · refine keeps_ite h ?_
    split
    · exact h
    · split
      next i _ =>
        have hx := keeps_exec i (inv_chosenFor (c := ‹Ctx›) (i := i) h)
        split
        next he => rw [he] at hx; exact inv_account hx
        · trivial
        · trivial
      · exact keeps_execIllop h

/-! ### Sys2Proof/Machine/Step.lean -/

theorem inv_begin_ {rest} (h : Inv s) : Inv (s.begin_ rest) := inv_congr h rfl rfl rfl

theorem keeps_move (h : Inv s) : KeepsInv (move s) := by
  unfold move
  split
  · exact inv_begin_ h
  · exact keeps_issueStep (inv_begin_ h)
  · exact keeps_ite (keeps_exec _ (inv_begin_ h)) (inv_begin_ h)

theorem inv_step {t : State} (h : Inv s) (e : step s = .next t) : Inv t := by
  have hm := keeps_move h
  unfold step at e
  split at e
  next u hu =>
    rw [hu] at hm
    exact Host.Outcome.next.inj e ▸ inv_noteStalls (inv_noteWaits hm)
  · cases e
  · cases e

end

/-- Settles O59: each operation of the model keeps the canonical form of both memories and the order of the claim table,
so a step, which is made of them, does. -/
theorem stepKeepsInvariant : Obligations.StepKeepsInvariant := fun _ _ h e => inv_step h e

end Sys2Proof.Machine
end

section
/-! PROOF. Timelines and the limits of waits (R202, R208, R220, R221, R303): how `TLWAIT` ends, is held, or traps with the code of a failed
operation, and which wait runs out. -/

namespace Sys2Proof.Machine

/-! ### Failed operations of a context (R221) -/

/-- The failures of the launch `serial` at or below `num`. -/
def failsBelow (s : State) (sweep : Bool) (ctx serial num : Nat) : List FailRec :=
  (failsOf s sweep ctx).filter (fun r => r.serial == serial && r.num ≤ num)

@[simp] theorem timelineOf_ordered (c : Ctx) (s : State) (bar sweep : Bool) (ctx : Nat) :
    timelineOf (c.ordered s bar) sweep ctx = timelineOf s sweep ctx := by cases bar <;> rfl
@[simp] theorem failsOf_ordered (c : Ctx) (s : State) (bar sweep : Bool) (ctx : Nat) :
    failsOf (c.ordered s bar) sweep ctx = failsOf s sweep ctx := by cases bar <;> rfl
@[simp] theorem failsBelow_ordered (c : Ctx) (s : State) (bar sweep : Bool) (ctx serial num : Nat) :
    failsBelow (c.ordered s bar) sweep ctx serial num = failsBelow s sweep ctx serial num :=
  congrArg _ (failsOf_ordered c s bar sweep ctx)
@[simp] theorem relPtOf_ordered (c : Ctx) (s : State) (bar sweep : Bool) (ctx : Nat) :
    relPtOf (c.ordered s bar) sweep ctx = relPtOf s sweep ctx := by cases bar <;> rfl

theorem observe_waves (s : State) (sweep : Bool) (ctx serial num : Nat) : (observe s sweep ctx serial num).waves = s.waves := by
  cases sweep <;> rfl

theorem observe_launches (s : State) (sweep : Bool) (ctx serial num : Nat) : (observe s sweep ctx serial num).launches = s.launches := by
  cases sweep <;> rfl

theorem failsOf_observe (s : State) (sweep : Bool) (ctx serial num : Nat) : failsOf (observe s sweep ctx serial num) sweep ctx =
    (failsOf s sweep ctx).map (fun r => if r.serial = serial && r.num ≤ num then { r with observed := true } else r) := by
  cases sweep with
  | true => exact congrArg SweepCtx.failed (tget_tput_same _ _ _ _)
  | false => exact congrArg CopyCtx.failed (tget_tput_same _ _ _ _)

theorem observed_of_observe {s : State} {sweep : Bool} {ctx serial num : Nat} {q : FailRec}
    (hq : q ∈ failsOf (observe s sweep ctx serial num) sweep ctx) (hs : q.serial = serial) (hn : q.num ≤ num) : q.observed = true := by
  rw [failsOf_observe] at hq
  obtain ⟨r, -, rfl⟩ := List.mem_map.mp hq
  by_cases h : r.serial = serial && r.num ≤ num
  · rw [if_pos h]
  · rw [if_neg h] at hs hn
    exact absurd (by simp [hs, hn]) h

theorem failsOf_raiseCopy (c : Ctx) (s : State) (code engine value : Nat) (lanes : Mask) (sweep : Bool) (ctx : Nat) :
    failsOf (raiseCopy c s code engine value lanes) sweep ctx = failsOf s sweep ctx := by cases sweep <;> rfl

/-- A copy's failure, raised by a path of a wave and a launch that the state holds, is one trap more of the launch. -/
theorem raiseCopy_traps {s : State} {c : Ctx} {w : Wave} {l : Launch} (hw : s.wave c.id = some w) (hsl : w.slot c.slotB = some c.sl)
    (hl : s.launch c.id.serial = some l) (code engine value : Nat) (lanes : Mask) :
    ∃ w' l' tr, (raiseCopy c s code engine value lanes).wave c.id = some w' ∧
      (raiseCopy c s code engine value lanes).launch c.id.serial = some l' ∧
      w'.slot c.slotB = some { c.sl with hold := .trapped } ∧ l'.traps = l.traps ++ [tr] ∧
      (tr.code, tr.construct, tr.attr) = errTrap code ∧ tr.engine = engine ∧ tr.value = BitVec.ofNat 64 value := by
  refine ⟨_, _, _, (tfind_tmod_same _ _ _).trans (congrArg _ hw), launch_modLaunch hl _, ?_, rfl, rfl, rfl, rfl⟩
  rw [slot_setSlot, hsl]
  rfl

/-! ### How a wait on a timeline ends -/

theorem tlFinish_of_failed {c : Ctx} {s : State} {sweep : Bool} {ctx num : Nat} {r : FailRec}
    (h : (failsBelow s sweep ctx c.id.serial num).head? = some r) (rlx : Bool) : tlFinish c s sweep ctx num rlx =
    raiseCopy c (observe s sweep ctx c.id.serial num) r.code (ctxEngine sweep ctx) r.value 0 := by
  rw [failsBelow, List.head?_filter] at h
  rw [tlFinish, h]

theorem tlFinish_of_none {c : Ctx} {s : State} {sweep : Bool} {ctx num : Nat} (h : failsBelow s sweep ctx c.id.serial num = []) (rlx : Bool) :
    tlFinish c s sweep ctx num rlx =
      c.done (if rlx then s else acquire (c.newView s (relPtOf s sweep ctx)) c.id.serial c.id.block []) id := by
  rw [failsBelow, ← List.head?_eq_none_iff, List.head?_filter] at h
  rw [tlFinish, h]

/-- A wait whose timeline stands at its number is over unless its view waits (R208). -/
theorem tlClear_iff (c : Ctx) (s : State) (sweep : Bool) (ctx num : Nat) (rlx : Bool) (seq : Nat) :
    tlClear c s sweep ctx num rlx seq = true ↔
      failsBelow s sweep ctx c.id.serial num ≠ [] ∨ rlx = true ∨ c.clear s seq = true := by
  have hany : (failsOf s sweep ctx).any (fun r => r.serial == c.id.serial && r.num ≤ num) = true ↔
      failsBelow s sweep ctx c.id.serial num ≠ [] := by
    rw [Ne, failsBelow, List.filter_eq_nil_iff, List.any_eq_true]
    push Not
    rfl
  rw [tlClear, Bool.or_eq_true, Bool.or_eq_true, hany]
  tauto

section
variable {s : State} {c : Ctx} (hc : s.ctxAt c.id c.slotB = some c) {i : Instr} {bar : Bool} {sweep : Bool} {ctx num : Nat} {rlx : Bool}
  (he : exec i s = .next (tlFinish c (c.ordered s bar) sweep ctx num rlx))
include hc he

theorem answers_tlFinish (hbar : rlx = true → bar = false) (hf : failsBelow s sweep ctx c.id.serial num = []) :
    answers s i (fun t => t.wave c.id = some ((c.barred s bar).advance c.slotB) ∧
      (rlx = true → t = s.setWave c.id (c.w.advance c.slotB)) ∧
      (rlx = false → (∃ v, tfind t.views c.key = some v ∧ v.seen = [] ∧ relPtOf s sweep ctx ≤ v.start ∧ c.w.homePt ≤ v.start) ∧
        otherWaves s t c.id ∧ { t with waves := s.waves, views := s.views, blocks := s.blocks } = s)) := by
  obtain ⟨-, -, hw, hb, -, -⟩ := ctxAt_spec hc
  refine ⟨_, he, ?_⟩
  rw [tlFinish_of_none ((failsBelow_ordered _ _ _ _ _ _ _).trans hf)]
  cases rlx with
  | true =>
    obtain rfl := hbar rfl
    have hdone : c.done s id = s.setWave c.id (c.w.advance c.slotB) := modWave_of hw _
    exact ⟨hdone ▸ wave_setWave _ _ _, fun _ => hdone, fun h => absurd h.symm Bool.false_ne_true⟩
  | false =>
    obtain ⟨hwave, hview, -, hothers, hrest⟩ := acquire_newView_synced hw hb bar (relPtOf s sweep ctx) [] (fun w => w.advance c.slotB)
    rw [relPtOf_ordered]
    exact ⟨hwave, fun h => absurd h Bool.false_ne_true, fun _ => ⟨hview, hothers, hrest⟩⟩

theorem answers_tlFails {r : FailRec} (hf : (failsBelow s sweep ctx c.id.serial num).head? = some r) :
    answers s i (fun t => ∃ w l tr, t.wave c.id = some w ∧ t.launch c.id.serial = some l ∧
      w.slot c.slotB = some { c.sl with hold := .trapped } ∧ l.traps = c.l.traps ++ [tr] ∧
      (tr.code, tr.construct, tr.attr) = errTrap r.code ∧ tr.engine = ctxEngine sweep ctx ∧ tr.value = BitVec.ofNat 64 r.value ∧
      ∀ q ∈ failsOf t sweep ctx, q.serial = c.id.serial → q.num ≤ num → q.observed = true) := by
  obtain ⟨-, -, hw, -, hl, hsl⟩ := ctxAt_spec hc
  refine ⟨_, he, ?_⟩
  rw [tlFinish_of_failed (r := r) (by rw [failsBelow_ordered]; exact hf)]
  set s1 := observe (c.ordered s bar) sweep ctx c.id.serial num
  have hw1 : s1.wave c.id = some (c.barred s bar) := (congrArg (tfind · _) (observe_waves _ _ _ _ _)).trans (ordered_wave hw bar)
  have hl1 : s1.launch c.id.serial = some c.l :=
    (congrArg (tfind · _) (observe_launches _ _ _ _ _)).trans ((ordered_launch c s bar _).trans hl)
  obtain ⟨w, l, tr, hwave, hlaunch, hslot, htraps, hcode, hengine, hvalue⟩ := raiseCopy_traps hw1 hsl hl1 r.code (ctxEngine sweep ctx) r.value 0
  exact ⟨w, l, tr, hwave, hlaunch, hslot, htraps, hcode, hengine, hvalue,
    fun q hq => observed_of_observe (failsOf_raiseCopy c s1 _ _ _ _ _ _ ▸ hq)⟩
end

/-! ### The words and the steps -/

section
variable {s : State} {c : Ctx}

theorem exec_tlwait (hc : s.issuer = some c) {h : Hdr} (ha : c.any h = true) {hdl num : BitVec 6} {sweep : Bool} {ctx n : Nat}
    (hh : handleIn c.l (c.w.readS hdl.toNat) = some (sweep, ctx)) (hn : n = (c.w.readS num.toNat).toNat) (rlx : Bool) (lim : Lim 31) :
    exec (.tlwait h num rlx hdl lim) s = .next (
      if timelineOf s sweep ctx < n then c.hold (c.ordered s (!rlx)) (.tlwait sweep ctx n rlx) (limVal c.l lim)
      else if failsBelow s sweep ctx c.id.serial n ≠ [] ∨ rlx = true ∨ c.clear s s.tick = true then
        tlFinish c (c.ordered s (!rlx)) sweep ctx n rlx
      else c.holdMet (c.ordered s (!rlx)) (.tlwait sweep ctx n rlx) (limVal c.l lim) none) := by
  show execTlwait h num rlx hdl lim s = _
  have hs1 : (if rlx then s else c.bar s) = c.ordered s (!rlx) := by cases rlx <;> rfl
  have hh' : handleOf c (c.s hdl) = some (sweep, ctx) := hh
  have hn' : (c.s num).toNat = n := hn.symm
  simp only [execTlwait, issue_of hc, ha, hh', hn', hs1, timelineOf_ordered, tlClear_iff, failsBelow_ordered, clear_ordered,
    ordered_tick, Bool.not_true, Bool.false_eq_true, if_false]

theorem exec_tlwaitComplete (hc : s.ctxAt c.id c.slotB = some c) (hb : c.b.place = .resident) (ht : c.timely s) {sweep rlx : Bool} {ctx n : Nat}
    (hh : c.sl.hold = .tlwait sweep ctx n rlx) : exec (.tlwaitComplete c.id c.slotB) s = .next (
      if n ≤ timelineOf s sweep ctx ∧ (failsBelow s sweep ctx c.id.serial n ≠ [] ∨ rlx = true ∨ c.clear s c.sl.since = true) then
        tlFinish c s sweep ctx n rlx
      else s) := by
  show execTlwaitComplete c.id c.slotB s = _
  rw [execTlwaitComplete, onPath_of hc hb]
  simp only [hh, metInTime_of_timely ht, Bool.and_eq_true, decide_eq_true_eq, tlClear_iff]

theorem exec_waitLimitExpiry (hc : s.ctxAt c.id c.slotB = some c) (hb : c.b.place = .resident) (hl : limited c.sl.hold = true) :
    exec (.waitLimitExpiry c.id (if c.slotB = true then .slotB else .slotA)) s = .next (
      if c.inTime s = false ∧ c.metInTime s (waitHolds s c) = false then
        raise c (leaveWait c s) cLIMIT (waitAttr c.l c.sl.since) kWAIT (waitLanes c) (BitVec.ofNat 64 c.sl.limit)
      else s) := by
  have hexpire : exec (.waitLimitExpiry c.id (if c.slotB = true then .slotB else .slotA)) s = onPath s c.id c.slotB (fun c =>
      if limited c.sl.hold && !c.inTime s && !c.metInTime s (waitHolds s c) then
        raise c (leaveWait c s) cLIMIT (waitAttr c.l c.sl.since) kWAIT (waitLanes c) (BitVec.ofNat 64 c.sl.limit) else s) := by
    cases c.slotB <;> rfl
  rw [hexpire, onPath_of hc hb]
  simp only [hl, Bool.true_and, Bool.and_eq_true, Bool.not_eq_true']
end

/-- A wait that had not come about in its time runs out when its count has passed its limit, and not before. -/
theorem expires_waitLimit {s : State} {c : Ctx} (hc : s.ctxAt c.id c.slotB = some c) (hb : c.b.place = .resident)
    (hl : limited c.sl.hold = true) (hleave : leaveWait c s = s) :
    let i : Instr := .waitLimitExpiry c.id (if c.slotB = true then .slotB else .slotA)
    let late : Prop := c.sl.limit < c.w.cyc c.b.core s.tick - c.sl.start
    (late → c.sl.met ≠ some true → answers s i (fun t =>
      c.trapped s t cLIMIT (waitAttr c.l c.sl.since) kWAIT (waitLanes c) (BitVec.ofNat 64 c.sl.limit))) ∧ (¬ late → idles s i) := by
  intro i late
  have hin : c.inTime s = false ↔ late := by rw [Ctx.inTime, inTime, decide_eq_false_iff_not, Nat.not_le]
  have he := exec_waitLimitExpiry hc hb hl
  refine ⟨fun hlate hmet => ?_, fun hlate => he.trans (congrArg _ (if_neg (fun h => hlate (hin.mp h.1))))⟩
  have hnot : c.metInTime s (waitHolds s c) = false := by
    have hgot : c.sl.met.getD (c.inTime s) = false := by
      rw [hin.mpr hlate]
      rcases hm : c.sl.met with _ | _ | _
      · rfl
      · rfl
      · exact absurd hm hmet
    rw [Ctx.metInTime, metInTime, hgot, Bool.and_false]
  refine ⟨_, he.trans (congrArg _ (if_pos ⟨hin.mpr hlate, hnot⟩)), ?_⟩
  rw [hleave]
  exact raise_trapped_at hc _ _ _ _ _

/-- Settles O28: the words and the step that completes a wait, each by whether the timeline stands at the number, an operation has failed, and
the earlier loads are performed; and the expiry, of each kind of wait. -/
theorem timelineWaitsAndLimits : Obligations.TimelineWaitsAndLimits := by
  intro s c h num hdl d rlx lim sweep ctx n hc now mine clear ends fails
  obtain ⟨-, -, hw, -, -, -⟩ := ctxAt_spec hc
  have hissuer : s.cur = (c.id, c.slotB) → s.issuer = some c := fun hcur => by rw [State.issuer, hcur]; exact hc
  have hhead : ∀ {r : FailRec}, mine.head? = some r → mine ≠ [] := fun hr h0 => by rw [h0] at hr; cases hr
  refine ⟨fun hcur ha => ⟨fun hh => ?noHandle, fun hh hn => ?wait⟩, fun hcur ha => ?passes, fun hb hhold ht => ?complete, fun hb => ?expiry⟩
  case noHandle =>
    have hh' : handleOf c (c.s hdl) = none := hh
    refine ⟨⟨raiseHandle c s (c.s hdl), ?_, raise_trapped (hissuer hcur) _ _ _ _ _⟩,
      ⟨raiseHandle c s (c.s hdl), ?_, raise_trapped (hissuer hcur) _ _ _ _ _⟩⟩
    · show execTlread h d hdl s = _
      simp [execTlread, issue_of (hissuer hcur), ha, hh']
    · show execTlwait h num rlx hdl lim s = _
      simp [execTlwait, issue_of (hissuer hcur), ha, hh']
  case wait =>
    have he := exec_tlwait (hissuer hcur) ha hh hn rlx lim
    refine ⟨?read, fun hle hm hcl => ?ends, fun hle hm hcl => ?endsHeld, fun hle r hr => ?fails, fun hlt => ?holds⟩
    case read =>
      have hh' : handleOf c (c.s hdl) = some (sweep, ctx) := hh
      refine latersWave_later (ws := [.s d.toNat (BitVec.ofNat 64 now)]) (hissuer hcur) ?_ (scalOnly_of c d.toNat true _)
      show execTlread h d hdl s = _
      simp only [execTlread, issue_of (hissuer hcur), ha, hh', Bool.not_true, Bool.false_eq_true, if_false, s6, now]
    case ends => exact answers_tlFinish hc (he.trans (congrArg _ ((if_neg (Nat.not_lt.mpr hle)).trans (if_pos (.inr hcl))))) (by simp) hm
    case endsHeld =>
      obtain rfl : rlx = false := Bool.eq_false_of_not_eq_true (fun hr => hcl (.inl hr))
      have hheld := not_or.mpr ⟨not_not_intro hm, hcl⟩
      refine ⟨_, he.trans (congrArg _ ((if_neg (Nat.not_lt.mpr hle)).trans (if_neg hheld))), ?_⟩
      show c.holdMet (c.ordered s true) _ _ none = _
      rw [Ctx.holdMet, ordered_modWave hw, ordered_tick]
    case fails => exact answers_tlFails hc (he.trans (congrArg _ ((if_neg (Nat.not_lt.mpr hle)).trans (if_pos (.inl (hhead hr)))))) hr
    case holds => exact ⟨_, he.trans (congrArg _ (if_pos hlt)), hold_waits hw _ _ _⟩
  case passes =>
    refine ⟨passes_of (hissuer hcur) ?_, passes_of (hissuer hcur) ?_⟩
    · show execTlread h d hdl s = _
      simp [execTlread, issue_of (hissuer hcur), ha]
    · show execTlwait h num rlx hdl lim s = _
      simp [execTlwait, issue_of (hissuer hcur), ha]
  case complete =>
    have he := exec_tlwaitComplete hc hb ht hhold
    refine ⟨fun hle hm hcl => ?ends, fun hle r hr => ?fails, fun hn => ?holds⟩
    case ends => exact answers_tlFinish (bar := false) hc (he.trans (congrArg _ (if_pos ⟨hle, .inr hcl⟩))) (fun _ => rfl) hm
    case fails => exact answers_tlFails (bar := false) hc (he.trans (congrArg _ (if_pos ⟨hle, .inl (hhead hr)⟩))) hr
    case holds =>
      refine he.trans (congrArg _ (if_neg ?_))
      rintro ⟨hle, hover⟩
      exact hn.elim (Nat.not_lt.mpr hle) (fun ⟨hm, hcl⟩ => hover.elim (· hm) hcl)
  case expiry =>
    intro i late expires
    refine ⟨?waits, fun p b hh => ?yieldc⟩
    case waits =>
      rintro (⟨p, b, r, hh⟩ | ⟨b, a, m, r, hh⟩ | ⟨a, b, hh⟩)
      all_goals
        have hx := expires_waitLimit hc hb (by rw [hh]; rfl) (by rw [leaveWait, hh])
        rwa [waitLanes, hh] at hx
    case yieldc =>
      have hx := expires_waitLimit hc hb (by rw [hh]; rfl) (by rw [leaveWait, hh])
      rwa [waitLanes, hh] at hx

end Sys2Proof.Machine
end

section
/-! PROOF. Claim waits and events (R208, R303, R313, R355, R357, R362): what `CLWAIT` and the step that completes it answer, FULFIL_READY, and
an error of an entry. -/

namespace Sys2Proof.Machine

/-! ### What an entry answers a waiter (R349, R355) -/

/-- The entry has turned the wave's place of the ticket into a pin. -/
def Claim.readyFor (k : Claim) (id : WaveId) (tk : BitVec 32) : Prop :=
  k.gen = ticketGen tk ∧ (k.st = .ready ∨ k.st = .stale) ∧ id ∈ k.served

/-- The maker's duty of the ticket's entry has passed to the wave. -/
def Claim.passedTo (k : Claim) (id : WaveId) (tk : BitVec 32) : Prop :=
  k.gen = ticketGen tk ∧ k.st = .making ∧ k.maker = id ∧ k.handed = true

/-- The answer READY of an entry, with what it acquires. -/
def Claim.readyAns (k : Claim) (tk : BitVec 32) : ClAns :=
  { word := BitVec.ofNat 64 (3 * 2 ^ 62 + tk.toNat), handle := k.handle, ready := true, relPt := k.relPt, clk := k.clock }

/-- The answer MAKER of an entry. -/
def Claim.makerAns (k : Claim) (tk : BitVec 32) : ClAns :=
  { word := BitVec.ofNat 64 (2 ^ 62 + tk.toNat), handle := 0, ready := false, relPt := k.relPt, clk := k.clock }

/-- The entry without the place of a wave that has had its answer. -/
def Claim.leftBy (k : Claim) (id : WaveId) (ready : Bool) : Claim :=
  if ready then { k with served := k.served.erase id } else { k with handed := k.handed && k.maker != id }

theorem zext_ticket (tk : BitVec 32) : (0#32 ++ tk : BitVec 64) = BitVec.ofNat 64 tk.toNat := by
  apply BitVec.eq_of_toNat_eq
  have hlt : tk.toNat < 2 ^ 64 := lt_trans tk.isLt (by decide)
  rw [BitVec.toNat_append, BitVec.toNat_ofNat, BitVec.toNat_ofNat, Nat.mod_eq_of_lt hlt]
  simp

theorem answer_ticket (kind : Nat) (tk : BitVec 32) : answer kind (0#32 ++ tk) = BitVec.ofNat 64 (kind * 2 ^ 62 + tk.toNat) := by
  rw [answer, zext_ticket, BitVec.ofNat_add]

section
variable {s : State} {id : WaveId} {tk : BitVec 32}

theorem clAnswers_of_readyFor (h : (s.claim (ticketEntry tk)).readyFor id tk) :
    clAnswers s id tk = some ((s.claim (ticketEntry tk)).readyAns tk) := by
  obtain ⟨hgen, hst, hserved⟩ := h
  have hst' : ((s.claim (ticketEntry tk)).st == .ready || (s.claim (ticketEntry tk)).st == .stale) = true := by
    rcases hst with h | h <;> rw [h] <;> rfl
  simp [clAnswers, clReady, hgen, hst', hserved, answer_ticket, Claim.readyAns]

theorem clAnswers_of_passedTo (h : (s.claim (ticketEntry tk)).passedTo id tk) :
    clAnswers s id tk = some ((s.claim (ticketEntry tk)).makerAns tk) := by
  obtain ⟨hgen, hst, hmaker, hhanded⟩ := h
  simp [clAnswers, clReady, hgen, hst, hmaker, hhanded, answer_ticket, Claim.makerAns]

theorem clAnswers_none (hr : ¬ (s.claim (ticketEntry tk)).readyFor id tk) (hm : ¬ (s.claim (ticketEntry tk)).passedTo id tk) :
    clAnswers s id tk = none := by
  simp only [Claim.readyFor, not_and] at hr
  simp only [Claim.passedTo, not_and] at hm
  rw [clAnswers, Option.map_eq_none_iff, clReady]
  split_ifs with hgen hready hmaker
  · rfl
  · simp only [bne_iff_ne, not_not] at hgen
    simp only [Bool.and_eq_true, Bool.or_eq_true, beq_iff_eq, List.contains_iff_mem] at hready
    exact absurd hready.2 (hr hgen hready.1)
  · simp only [bne_iff_ne, not_not] at hgen
    simp only [Bool.and_eq_true, beq_iff_eq] at hmaker
    exact absurd hmaker.2 (hm hgen hmaker.1.1 hmaker.1.2)
  · rfl

theorem clHolds_iff : clHolds s id tk = true ↔ (s.claim (ticketEntry tk)).gen = ticketGen tk ∧
    (id ∈ (s.claim (ticketEntry tk)).queue ∨ (s.claim (ticketEntry tk)).passedTo id tk ∨ (s.claim (ticketEntry tk)).readyFor id tk) := by
  simp only [clHolds, Claim.passedTo, Claim.readyFor, Bool.and_eq_true, Bool.or_eq_true, beq_iff_eq, List.contains_iff_mem]
  tauto
end

/-! ### A claim wait that ends -/

theorem claim_clLeave (s : State) (id : WaveId) (tk : BitVec 32) (ready : Bool) (j : Nat) : (clLeave s id tk ready).claim j =
    if j = ticketEntry tk ∧ (s.claim (ticketEntry tk)).gen = ticketGen tk then (s.claim (ticketEntry tk)).leftBy id ready else s.claim j := by
  unfold clLeave
  dsimp only
  split_ifs with hgen hj hj hj <;> simp_all [claim_setClaim, Claim.leftBy]

@[simp] theorem claim_ordered (c : Ctx) (s : State) (bar : Bool) (j : Nat) : (c.ordered s bar).claim j = s.claim j := by cases bar <;> rfl

/-- A place left changes the claim table alone. -/
theorem clLeave_claims (s : State) (id : WaveId) (tk : BitVec 32) (ready : Bool) : ∃ ks, clLeave s id tk ready = { s with claims := ks } := by
  unfold clLeave
  dsimp only
  split_ifs
  · exact ⟨s.claims, rfl⟩
  · exact ⟨_, rfl⟩
  · exact ⟨_, rfl⟩

theorem clLeave_ordered (c : Ctx) (s : State) (bar : Bool) (id : WaveId) (tk : BitVec 32) (ready : Bool) :
    clLeave (c.ordered s bar) id tk ready = c.ordered (clLeave s id tk ready) bar := by
  cases bar with
  | false => rfl
  | true =>
    show clLeave (c.bar s) id tk ready = c.bar (clLeave s id tk ready)
    have hclaim : ∀ e, (c.bar s).claim e = s.claim e := fun _ => rfl
    simp only [clLeave, hclaim]
    split <;> rfl

/-- The pending result of a claim word that has had its answer. -/
def clPend (tick d : Nat) (x : ClAns) : Pend :=
  { tag := tick, kind := .other, dst := [.s d, .s (d + 1)], writes := [.s d x.word, .s (d + 1) x.handle], ready := true }

/-- Of the machine, `t` has the wave past its claim wait with the answer `x` to come, and its place at the entry left. -/
structure Ctx.claimed (c : Ctx) (s t : State) (bar : Bool) (d : Nat) (tk : BitVec 32) (x : ClAns) : Prop where
  wave : t.wave c.id = some ((addPend (c.barred s bar) (clPend s.tick d x)).advance c.slotB)
  others : otherWaves s t c.id
  claims : ∀ j, t.claim j =
    if j = ticketEntry tk ∧ (s.claim (ticketEntry tk)).gen = ticketGen tk then (s.claim (ticketEntry tk)).leftBy c.id x.ready else s.claim j

theorem Ctx.claimed.other {c : Ctx} {s t : State} {bar : Bool} {d : Nat} {tk : BitVec 32} {x : ClAns} (h : c.claimed s t bar d tk x) :
    ∀ j, j ≠ ticketEntry tk → t.claim j = s.claim j := fun j hj => (h.claims j).trans (if_neg (fun hn => hj hn.1))

theorem Ctx.claimed.entry {c : Ctx} {s t : State} {bar : Bool} {d : Nat} {tk : BitVec 32} {x : ClAns} (h : c.claimed s t bar d tk x) :
    t.claim (ticketEntry tk) = if (s.claim (ticketEntry tk)).gen = ticketGen tk then (s.claim (ticketEntry tk)).leftBy c.id x.ready
      else s.claim (ticketEntry tk) := by
  rw [h.claims]
  simp only [true_and]

theorem newView_homePt {c : Ctx} {s : State} {w : Wave} (hw : s.wave c.id = some w) (hh : w.homePt = c.w.homePt) (acq : Nat) :
    startView s c.key c.w.homePt acq = c.newView s acq := by
  rw [Ctx.newView, hw, ← hh]
  rfl

theorem clwaitFinish_of_maker (c : Ctx) (s : State) (d : Nat) (tk : BitVec 32) {x : ClAns} (hx : x.ready = false) :
    clwaitFinish c s d tk x = (clLeave s c.id tk x.ready).modWave c.id
      (fun w => (addPend w (clPend (clLeave s c.id tk x.ready).tick d x)).advance c.slotB) := by
  rw [clwaitFinish, hx]
  rfl

theorem clwaitFinish_of_ready (c : Ctx) (s : State) (d : Nat) (tk : BitVec 32) {x : ClAns} (hx : x.ready = true) :
    clwaitFinish c s d tk x =
      (acquire (startView (clLeave s c.id tk x.ready) c.key c.w.homePt x.relPt) c.id.serial c.id.block x.clk).modWave c.id
        (fun w => (addPend w (clPend (clLeave s c.id tk x.ready).tick d x)).advance c.slotB) := by
  rw [clwaitFinish, hx]
  rfl

section
variable {s : State} {c : Ctx} (hw : s.wave c.id = some c.w) (bar : Bool) (d : Nat) (tk : BitVec 32) {x : ClAns}
include hw

/-- MAKER: the answer is all that the wave has. -/
theorem clwaitFinish_maker (hx : x.ready = false) : let t := clwaitFinish c (c.ordered s bar) d tk x
    c.claimed s t bar d tk x ∧ { t with waves := s.waves, claims := s.claims } = s := by
  intro t
  have hclaims := claim_clLeave s c.id tk x.ready
  have ht : t = _ := clwaitFinish_of_maker c (c.ordered s bar) d tk hx
  obtain ⟨ks, hks⟩ := clLeave_claims s c.id tk x.ready
  rw [clLeave_ordered, hks, ordered_tick, ordered_modWave (s := { s with claims := ks }) hw] at ht
  rw [ht]
  exact ⟨⟨wave_setWave _ _ _, otherWaves_put _ _ _ _ rfl, fun j => (congrArg (State.claim · j) hks.symm).trans (hclaims j)⟩, rfl⟩

/-- READY: the wave acquires what made the entry. -/
theorem clwaitFinish_ready (hb : s.block c.id.serial c.id.block = some c.b) (hx : x.ready = true) :
    let t := clwaitFinish c (c.ordered s bar) d tk x
    c.claimed s t bar d tk x ∧
      (∃ v, tfind t.views c.key = some v ∧ v.seen = [] ∧ x.relPt ≤ v.start ∧ c.w.homePt ≤ v.start) ∧
      (∃ b, t.block c.id.serial c.id.block = some b ∧ b.phase = c.b.phase + 1 ∧ b.clock = joinClock c.b.clock x.clk) ∧
      { t with waves := s.waves, claims := s.claims, views := s.views, blocks := s.blocks } = s := by
  intro t
  have hclaims := claim_clLeave s c.id tk x.ready
  have ht : t = _ := clwaitFinish_of_ready c (c.ordered s bar) d tk hx
  obtain ⟨ks, hks⟩ := clLeave_claims s c.id tk x.ready
  set u : State := { s with claims := ks } with hu
  have hwu : u.wave c.id = some c.w := hw
  rw [clLeave_ordered, hks, ordered_tick, newView_homePt (ordered_wave hwu bar) rfl] at ht
  obtain ⟨hwave, hview, -, hothers, hrest⟩ :=
    acquire_newView_synced hwu hb bar x.relPt x.clk (fun w => (addPend w (clPend u.tick d x)).advance c.slotB)
  rw [ht]
  have hclaim : ∀ j, u.claim j = (clLeave s c.id tk x.ready).claim j := fun j => congrArg (State.claim · j) hks.symm
  refine ⟨⟨hwave, hothers, fun j => Eq.trans ?_ ((hclaim j).trans (hclaims j))⟩, hview,
    ⟨_, (tfind_tmod_same _ _ _).trans (congrArg _ ((ordered_block c u bar _ _).trans hb)), rfl, rfl⟩,
    congrArg (fun v : State => { v with claims := s.claims }) hrest⟩
  cases bar <;> rfl

/-- A wait on an answer that has come is held until its view may start (R208). -/
theorem noteAns_waits (h : Hold) (limit : Nat) (x : ClAns) :
    c.waits s (c.noteAns (c.holdMet (c.ordered s bar) h limit none) x) h limit bar (some true) none (some x) := by
  rw [Ctx.waits, Ctx.noteAns, Ctx.holdMet, ordered_modWave hw, ordered_tick, modWave_setWave, slot_setSlot]
  exact congrArg _ (by cases c.slotB <;> rfl)
end

/-! ### The word and the step that completes it -/

section
variable {s : State} {c : Ctx} (hc : s.issuer = some c) {h : Hdr} (ha : c.any h = true) {t6 : BitVec 6} {tk : BitVec 32}
  (htk : tk = (c.w.readS t6.toNat).extractLsb' 0 32) (d : BitVec 6) (lim : Lim 31)
include hc ha htk

theorem exec_clwait_of_not_holds (hh : ¬ clHolds s c.id tk = true) :
    exec (.clwait h d t6 lim) s = .next (raiseWave c s cCLSTATE (0#32 ++ tk)) := by
  have htk' : (c.s t6).extractLsb' 0 32 = tk := htk.symm
  show execClwait h d t6 lim s = _
  simp [execClwait, issue_of hc, ha, htk', hh]

variable (hh : clHolds s c.id tk = true)
include hh

theorem exec_clwait_of_none (hx : clAnswers s c.id tk = none) :
    exec (.clwait h d t6 lim) s = .next (c.hold (c.ordered s true) (.clwait d.toNat tk) (limVal c.l lim)) := by
  have htk' : (c.s t6).extractLsb' 0 32 = tk := htk.symm
  show execClwait h d t6 lim s = _
  simp only [execClwait, issue_of hc, ha, htk', hh, hx, Bool.not_true, Bool.false_eq_true, if_false]
  rfl

theorem exec_clwait_of_some {x : ClAns} (hx : clAnswers s c.id tk = some x) : exec (.clwait h d t6 lim) s = .next (
    if x.ready = false ∨ c.clear s s.tick = true then clwaitFinish c (c.ordered s true) d.toNat tk x
    else c.noteAns (c.holdMet (c.ordered s true) (.clwait d.toNat tk) (limVal c.l lim) none) x) := by
  have htk' : (c.s t6).extractLsb' 0 32 = tk := htk.symm
  show execClwait h d t6 lim s = _
  simp only [execClwait, issue_of hc, ha, htk', hh, hx, Bool.or_eq_true, Bool.not_eq_true']
  rfl
end

section
variable {s : State} {c : Ctx} (hc : s.ctxAt c.id c.slotB = some c) (hb : c.b.place = .resident) {d : Nat} {tk : BitVec 32}
  (hh : c.sl.hold = .clwait d tk)
include hc hb hh

theorem exec_clwaitComplete_of_none (hx : c.sl.ans.or (clAnswers s c.id tk) = none) : exec (.clwaitComplete c.id c.slotB) s = .next s := by
  show execClwaitComplete c.id c.slotB s = _
  rw [execClwaitComplete, onPath_of hc hb]
  simp only [hh, hx]

theorem exec_clwaitComplete_of_some {x : ClAns} (hx : c.sl.ans.or (clAnswers s c.id tk) = some x)
    (ht : c.sl.ans.isSome = true ∨ c.timely s) : exec (.clwaitComplete c.id c.slotB) s = .next (
      if x.ready = false ∨ c.clear s c.sl.since = true then clwaitFinish c s d tk x else s) := by
  have hin : (c.sl.ans.isSome || c.metInTime s true) = true := by
    rcases ht with h | h
    · rw [h, Bool.true_or]
    · rw [metInTime_of_timely h, Bool.or_true]
  show execClwaitComplete c.id c.slotB s = _
  rw [execClwaitComplete, onPath_of hc hb]
  simp only [hh, hx, hin, Bool.true_and, Bool.or_eq_true, Bool.not_eq_true']
end

/-! ### FULFIL_READY and an entry in error -/

/-- The state once a performed publication of number `i` is gone. -/
def withoutPub (s : State) (i : Nat) : State := { s with
  pubs := s.pubs.filter (fun q => q.id != i)
  views := s.views.map (fun v => (v.1, { v.2 with needs := v.2.needs.filter (fun j => j != i) })) }

theorem exec_fulfilReady {s : State} {e e' g n : Nat} {p : Pub} {hv : BitVec 64} (h : fulfilPub s e = some (p, e', g, hv, n)) :
    exec (.fulfilReady e) s = .next (fulfilReady (withoutPub s p.id) e' g hv n) := by
  show execFulfilReady e s = _
  rw [execFulfilReady, h]
  rfl

theorem fulfilReady_of {s : State} {e g n : Nat} {hv : BitVec 64} (hst : (s.claim e).st = .making) (hgen : (s.claim e).gen.toNat = g)
    (hful : (s.claim e).fulfilling = true) : fulfilReady s e g hv n = s.setClaim e { s.claim e with
      st := .ready, handle := hv, clk := true, pins := (s.claim e).pins ++ (s.claim e).queue.map (fun w => w.serial),
      served := (s.claim e).queue, queue := [], fulfilling := false, relPt := n } := by
  rw [fulfilReady, if_pos (by simp [hst, hgen, hful])]

/-- A trap of no core, told to a list of launches: each has it as often as the list names it. -/
theorem foldl_addTrap {t : Trap} (ht : ¬ t.core < 192) (users : List Nat) (s : State) :
    let u := users.foldl (fun s n => addTrap s n t) s
    { u with launches := s.launches } = s ∧
      ∀ n l, s.launch n = some l → u.launch n = some { l with traps := l.traps ++ List.replicate (users.count n) t } := by
  have hadd : ∀ s n, addTrap s n t = recordTrap s n t := fun s n => by rw [addTrap, if_neg ht]
  induction users generalizing s with
  | nil => exact ⟨rfl, fun n l hl => by simp [hl]⟩
  | cons m users ih =>
    obtain ⟨hrest, hlaunch⟩ := ih (addTrap s m t)
    refine ⟨(congrArg (fun v : State => { v with launches := s.launches }) hrest).trans (by rw [hadd]; rfl), fun n l hl => ?_⟩
    by_cases hn : m = n
    · subst hn
      refine (hlaunch m _ (addTrap_launch hl t)).trans ?_
      rw [List.count_cons_self, List.replicate_succ, List.append_assoc]
      rfl
    · rw [List.count_cons_of_ne hn]
      exact hlaunch n l ((congrArg (State.launch · n) (hadd s m)).trans ((tfind_tmod_other _ _ (Ne.symm hn)).trans hl))

/-- The launches that use an entry: its maker's, its waiters', those of its pins. -/
def Claim.users (k : Claim) : List Nat := (if k.st == .making then [k.maker.serial] else []) ++ k.queue.map (fun w => w.serial) ++ k.pins

theorem Claim.mem_users {k : Claim} {n : Nat} :
    n ∈ k.users ↔ (k.st = .making ∧ n = k.maker.serial) ∨ (∃ w ∈ k.queue, w.serial = n) ∨ n ∈ k.pins := by
  have hmaker : n ∈ (if k.st == .making then [k.maker.serial] else []) ↔ k.st = .making ∧ n = k.maker.serial := by
    split <;> simp_all
  rw [Claim.users, List.mem_append, List.mem_append, hmaker, List.mem_map, or_assoc]

/-- UNCORR of an entry, attributed to the machine (R362). -/
def claimTrap (tick e : Nat) : Trap :=
  { code := cUNCORR, attr := aMACHINE, construct := 0, pc := noPc, pc2 := noPc, block := noPc, block2 := noPc, wave := 255, core := 255,
    engine := 0, lanes := 0, value := Config.claimErrorValue tick e }

theorem exec_claimEntryError {s : State} {e : Nat} (h : (s.claim e).st ≠ .free) : exec (.claimEntryError e) s = .next (
    (s.claim e).users.foldl (fun u n => addTrap u n (claimTrap s.tick e)) (s.setClaim e { gen := (s.claim e).gen })) := by
  show execClaimEntryError e s = _
  rw [execClaimEntryError, if_neg (by simpa using h)]
  rfl

/-! ### The statement -/

section
variable {s : State} {c : Ctx} (hc : s.ctxAt c.id c.slotB = some c) {i : Instr} (bar : Bool) {d : Nat} {tk : BitVec 32} {x : ClAns}
  (he : exec i s = .next (clwaitFinish c (c.ordered s bar) d tk x))
include hc he

theorem answers_clwaitReady (hx : x.ready = true) : answers s i (fun t =>
    c.claimed s t bar d tk x ∧
      (∃ v, tfind t.views c.key = some v ∧ v.seen = [] ∧ x.relPt ≤ v.start ∧ c.w.homePt ≤ v.start) ∧
      (∃ b, t.block c.id.serial c.id.block = some b ∧ b.phase = c.b.phase + 1 ∧ b.clock = joinClock c.b.clock x.clk) ∧
      { t with waves := s.waves, claims := s.claims, views := s.views, blocks := s.blocks } = s) := by
  obtain ⟨-, -, hw, hb, -, -⟩ := ctxAt_spec hc
  exact ⟨_, he, clwaitFinish_ready hw bar d tk hb hx⟩

theorem answers_clwaitMaker (hx : x.ready = false) :
    answers s i (fun t => c.claimed s t bar d tk x ∧ { t with waves := s.waves, claims := s.claims } = s) := by
  obtain ⟨-, -, hw, -, -, -⟩ := ctxAt_spec hc
  exact ⟨_, he, clwaitFinish_maker hw bar d tk hx⟩
end

theorem answers_mono {s : State} {i : Instr} {P Q : State → Prop} (h : answers s i P) (hpq : ∀ t, P t → Q t) : answers s i Q := by
  obtain ⟨t, he, hp⟩ := h
  exact ⟨t, he, hpq t hp⟩

/-- Settles O32: `CLWAIT` and its completion by what the entry answers the wave; then the entry that its `FULFIL` makes ready, and the
users of an entry in error. -/
theorem claimWaitsAndEvents : Obligations.ClaimWaitsAndEvents := by
  refine ⟨?waits, ?events⟩
  case waits =>
    intro s c h d t6 lim dn tk hc e k live ready heir answered ends
    obtain ⟨-, -, hw, -, -, -⟩ := ctxAt_spec hc
    have hissuer : s.cur = (c.id, c.slotB) → s.issuer = some c := fun hcur => by rw [State.issuer, hcur]; exact hc
    have hends : ∀ {i : Instr} {bar : Bool} {dn seq : Nat},
        (∀ x, clAnswers s c.id tk = some x → x.ready = false ∨ c.clear s seq = true →
          exec i s = .next (clwaitFinish c (c.ordered s bar) dn tk x)) → ends i bar dn seq := by
      intro i bar dn seq he
      refine ⟨fun hr hcl => ?ready, fun hm => ?maker⟩
      case ready =>
        refine answers_mono (answers_clwaitReady hc bar (he _ (clAnswers_of_readyFor hr) (.inr hcl)) rfl) fun t ⟨ht, hview, hblock, hrest⟩ =>
          ⟨⟨ht.wave, ht.others⟩, ht.entry.trans (if_pos hr.1), ht.other, hview, hblock, hrest⟩
      case maker =>
        refine answers_mono (answers_clwaitMaker hc bar (he _ (clAnswers_of_passedTo hm) (.inl rfl)) rfl) fun t ⟨ht, hrest⟩ =>
          ⟨⟨ht.wave, ht.others⟩, ht.entry.trans ((if_pos hm.1).trans ?_), ht.other, hrest⟩
        show { k with handed := k.handed && k.maker != c.id } = { k with handed := false }
        rw [hm.2.2.1, bne_self_eq_false, Bool.and_false]
    have hnone : ¬ ready → ¬ heir → clAnswers s c.id tk = none := clAnswers_none
    refine ⟨fun hcur ha => ?passes, fun hcur ha htk => ?word, fun hb hh => ⟨fun ht hans => ?open_, fun x hx => ?answered⟩⟩
    case passes =>
      refine passes_of (hissuer hcur) ?_
      show execClwait h d t6 lim s = _
      simp [execClwait, issue_of (hissuer hcur), ha]
    case word =>
      have hholds {x : ClAns} (hx : clAnswers s c.id tk = some x) : clHolds s c.id tk = true := by
        by_contra hn
        rw [clHolds_iff] at hn
        have hr : ¬ ready := fun hr => hn ⟨hr.1, .inr (.inr hr)⟩
        have hm : ¬ heir := fun hm => hn ⟨hm.1, .inr (.inl hm)⟩
        rw [hnone hr hm] at hx
        cases hx
      have hsome {x : ClAns} (hx : clAnswers s c.id tk = some x) := exec_clwait_of_some (hissuer hcur) ha htk d lim (hholds hx) hx
      refine ⟨hends fun x hx hcl => (hsome hx).trans (congrArg _ (if_pos hcl)), fun hr hcl => ?held, fun hlive hq hr hm => ?holds, fun hn => ?trap⟩
      case held =>
        have hnot := not_or.mpr ⟨Bool.false_ne_true.symm, ne_true_of_eq_false hcl⟩
        exact ⟨_, (hsome (clAnswers_of_readyFor hr)).trans (congrArg _ (if_neg hnot)), noteAns_waits hw true _ _ _⟩
      case holds =>
        have he := exec_clwait_of_none (hissuer hcur) ha htk d lim (clHolds_iff.mpr ⟨hlive, .inl hq⟩) (hnone hr hm)
        exact ⟨_, he, hold_waits hw true _ _⟩
      case trap =>
        have hnot : ¬ clHolds s c.id tk = true := by
          rw [clHolds_iff]
          rintro ⟨hlive, hplace⟩
          rcases hn with hn | ⟨hq, hr, hm⟩
          · exact hn hlive
          · exact hplace.elim hq (·.elim hm hr)
        refine ⟨_, exec_clwait_of_not_holds (hissuer hcur) ha htk d lim hnot, ?_⟩
        rw [zext_ticket]
        exact raise_trapped (hissuer hcur) _ _ _ _ _
    case open_ =>
      have hor : c.sl.ans.or (clAnswers s c.id tk) = clAnswers s c.id tk := by rw [hans]; rfl
      have hsome {x : ClAns} (hx : clAnswers s c.id tk = some x) := exec_clwaitComplete_of_some hc hb hh (hor.trans hx) (.inr ht)
      refine ⟨hends (bar := false) fun x hx hcl => (hsome hx).trans (congrArg _ (if_pos hcl)), fun hn hm => ?_⟩
      by_cases hr : ready
      · have hcl : c.clear s c.sl.since = false := hn.resolve_left (not_not_intro hr)
        exact (hsome (clAnswers_of_readyFor hr)).trans (congrArg _ (if_neg (not_or.mpr ⟨Bool.false_ne_true.symm, ne_true_of_eq_false hcl⟩)))
      · exact exec_clwaitComplete_of_none hc hb hh (hor.trans (hnone hr hm))
    case answered =>
      have hor : c.sl.ans.or (clAnswers s c.id tk) = some x := by rw [hx]; rfl
      have he := exec_clwaitComplete_of_some hc hb hh hor (.inl (by rw [hx]; rfl))
      refine ⟨fun hr hcl => ?ready, fun hr hcl => ?held, fun hr => ?maker⟩
      case ready =>
        refine answers_mono (answers_clwaitReady hc false (he.trans (congrArg _ (if_pos (.inr hcl)))) hr) fun t ⟨ht, hview, hblock, hrest⟩ =>
          ⟨⟨ht.wave, ht.others⟩, ht.entry.trans ?_, ht.other, hview, hblock, hrest⟩
        rw [hr]
        rfl
      case held =>
        exact he.trans (congrArg _ (if_neg (not_or.mpr ⟨by rw [hr]; exact Bool.false_ne_true.symm, ne_true_of_eq_false hcl⟩)))
      case maker =>
        exact answers_mono (answers_clwaitMaker hc false (he.trans (congrArg _ (if_pos (.inl hr)))) hr) fun t ⟨ht, hrest⟩ =>
          ⟨⟨ht.wave, ht.others⟩, ht.other, hrest⟩
  case events =>
    intro s e k
    refine ⟨fun p g hv n hp hst hgen hful => ?ready, fun hp => ?idle, fun hst => ?free, fun hst => ?error⟩
    case ready =>
      refine ⟨_, (exec_fulfilReady hp).trans (congrArg _ (fulfilReady_of (s := withoutPub s p.id) hst hgen hful)),
        (claim_setClaim _ _ _ _).trans (if_pos rfl), fun j hj => (claim_setClaim _ _ _ _).trans (if_neg hj), fun q => ?_, fun i v hv => ?_, rfl⟩
      · show q ∈ s.pubs.filter (fun q => q.id != p.id) ↔ _
        rw [List.mem_filter, bne_iff_ne]
      · exact (tfind_map (fun v : View => { v with needs := v.needs.filter (fun i => i != p.id) }) s.views i).trans (by rw [hv]; rfl)
    case idle =>
      show execFulfilReady e s = _
      rw [execFulfilReady, hp]
    case free =>
      have hst' : (s.claim e).st = .free := hst
      show execClaimEntryError e s = _
      simp [execClaimEntryError, hst']
    case error =>
      obtain ⟨hrest, hlaunch⟩ := foldl_addTrap (t := claimTrap s.tick e) (Nat.not_lt.mpr (by decide : 192 ≤ 255)) k.users
        (s.setClaim e { gen := k.gen })
      have he := exec_claimEntryError hst
      generalize k.users.foldl _ _ = u at hrest hlaunch he
      have hclaim : ∀ j, u.claim j = if j = e then ({ gen := k.gen } : Claim) else s.claim j := fun j =>
        (congrArg (fun v : State => v.claim j) hrest).trans (claim_setClaim s e { gen := k.gen } j)
      refine ⟨u, he, (hclaim e).trans (if_pos rfl), fun j hj => (hclaim j).trans (if_neg hj), ?_,
        congrArg (fun v : State => { v with claims := s.claims }) hrest⟩
      intro uses n l hl
      have hln := hlaunch n l hl
      refine ⟨fun hn => ?_, fun hn => ⟨_, _, hln, rfl, rfl, ?_, fun tr htr => ?_⟩⟩
      · rw [List.count_eq_zero.mpr (mt Claim.mem_users.mp hn), List.replicate_zero, List.append_nil] at hln
        exact hln
      · rw [Ne, List.replicate_eq_nil_iff]
        exact (List.count_pos_iff.mpr (Claim.mem_users.mpr hn)).ne'
      · rw [List.eq_of_mem_replicate htr]
        exact ⟨rfl, rfl, rfl⟩

end Sys2Proof.Machine
end

section
/-! PROOF. Store sets closed and views started (R188, R195 to R202, R208, R294, R312): the facts about `enterStgs`, `publishSet` and `startView`
that the ordering words, the releases and the arrivals need; then `PUBL`, `RFSH` and `PHASE`. -/

namespace Sys2Proof.Machine

/-! ### What a view or a fence waits for (R208) -/

theorem viewClear_iff (w : Wave) (seq : Nat) : viewClear w seq = true ↔
    (∀ p ∈ w.pend, p.kind = .dev → seq ≤ p.tag) ∧ ∀ r ∈ w.reqs, isStable r = true ∨ atHome r = true → seq ≤ r.seq := by
  simp only [viewClear, Bool.and_eq_true, Bool.not_eq_true', List.any_eq_false, Bool.or_eq_true, beq_iff_eq, decide_eq_true_eq, not_and, not_lt]
  refine and_congr_right' (forall₂_congr fun r _ => ?_)
  exact ⟨fun h hk => not_lt.mp (fun hlt => h hlt hk), fun h hlt hk => (h hk).not_gt hlt⟩

theorem redgWaits_iff (s : State) (id : WaveId) (key seq : Nat) : redgWaits s id key seq = true ↔
    (∃ p ∈ s.pubs, p.key = key ∧ ∃ r ∈ p.set.redgs, r.id = id ∧ r.seq < seq) ∨
      ∃ f ∈ s.farReds, f.copy = none ∧ f.id = id ∧ f.seq < seq := by
  simp only [redgWaits, Bool.or_eq_true, List.any_eq_true, Bool.and_eq_true, beq_iff_eq, decide_eq_true_eq, Option.isNone_iff_eq_none, and_assoc]

theorem clear_iff (c : Ctx) (s : State) (seq : Nat) : c.clear s seq = true ↔ viewClear c.w seq = true ∧ ¬ redgWaits s c.id c.key seq = true := by
  rw [Ctx.clear, Bool.and_eq_true, Bool.not_eq_true', Bool.not_eq_true]

/-! ### A wave's stores enter its set (R188, R195) -/

/-- A request taken into a set, where it is a store. -/
def enterReq (block : Nat) (x : StoreSet) (r : Req) : StoreSet :=
  match r.kind with
  | .stg bs => x.enter block bs
  | _ => x

/-- Whether a request is no store. -/
def notStg (r : Req) : Bool :=
  match r.kind with
  | .stg _ => false
  | _ => true

theorem notStg_eq (r : Req) : notStg r = !isStg r := by
  unfold notStg isStg
  cases r.kind <;> rfl

theorem enterReq_of_no_stg {r : Req} (h : isStg r = false) (block : Nat) (x : StoreSet) : enterReq block x r = x := by
  cases hk : r.kind with
  | stg bs => simp [isStg, hk] at h
  | _ => simp [enterReq, hk]

/-- Requests that are no stores leave a set as it is. -/
theorem foldl_enterReq (block : Nat) {rs : List Req} (h : ∀ r ∈ rs, isStg r = false) (x : StoreSet) : rs.foldl (enterReq block) x = x := by
  induction rs generalizing x with
  | nil => rfl
  | cons r rs ih =>
    rw [List.foldl_cons, enterReq_of_no_stg (h r (List.mem_cons_self ..))]
    exact ih (fun q hq => h q (List.mem_cons_of_mem _ hq)) x

/-- The store set of a key with the stores of a wave that are still on their way. -/
def setWith (s : State) (id : WaveId) (key : Nat) (w : Wave) : StoreSet := w.reqs.foldl (enterReq id.block) (tget {} s.sets key)

/-- The wave without its stores. -/
def Wave.noStgs (w : Wave) : Wave := { w with reqs := w.reqs.filter (fun r => !isStg r) }

theorem enterStgs_of {s : State} {id : WaveId} {w : Wave} (hw : s.wave id = some w) (key : Nat) : enterStgs s id key =
    if w.noStgs.reqs.length = w.reqs.length then s
    else ({ s with sets := tput s.sets key (setWith s id key w) } : State).setWave id w.noStgs := by
  have hnot : (fun r : Req => !isStg r) = notStg := funext fun r => (notStg_eq r).symm
  rw [Wave.noStgs, hnot, enterStgs, hw]
  rfl

theorem enterStgs_spec {s : State} {id : WaveId} {w : Wave} (hw : s.wave id = some w) (key : Nat) : let u := enterStgs s id key
    u.wave id = some w.noStgs ∧ otherWaves s u id ∧ tget {} u.sets key = setWith s id key w ∧
      (∀ k, k ≠ key → tfind u.sets k = tfind s.sets k) ∧ { u with waves := s.waves, sets := s.sets } = s := by
  rw [enterStgs_of hw]
  split
  next hlen =>
    have hnone : ∀ r ∈ w.reqs, isStg r = false := fun r hr => by
      simpa using List.length_filter_eq_length_iff.mp hlen r hr
    have hreqs : w.noStgs = w := congrArg (fun rs => { w with reqs := rs }) (List.filter_eq_self.mpr fun r hr => by rw [hnone r hr]; rfl)
    refine ⟨hw.trans (congrArg some hreqs.symm), fun _ _ => rfl, ?_, fun _ _ => rfl, rfl⟩
    exact (foldl_enterReq id.block hnone _).symm
  next => exact ⟨wave_setWave _ _ _, otherWaves_put _ _ _ _ rfl, tget_tput_same _ _ _ _, fun k hk => tfind_tput_other _ _ hk, rfl⟩

/-! ### A set closed (R196, R198, R294) -/

/-- No block of this number of the launch is relaunchable. -/
def State.spent (s : State) (serial n : Nat) : Prop := ∀ b, s.block serial n = some b → b.relaunchable = false

theorem spent_endRelaunch {s : State} {serial m n : Nat} (h : m = n ∨ s.spent serial n) : (endRelaunch s serial m).spent serial n := by
  intro b hb
  by_cases hk : bkey serial n = bkey serial m
  · have hfind : (endRelaunch s serial m).block serial n = (s.block serial m).map (fun b => { b with relaunchable := false }) := by
      rw [State.block, hk]
      exact tfind_tmod_same _ _ _
    rw [hfind] at hb
    obtain ⟨b', -, rfl⟩ := Option.map_eq_some_iff.mp hb
    rfl
  · have hfind : (endRelaunch s serial m).block serial n = s.block serial n := tfind_tmod_other _ _ hk
    rw [hfind] at hb
    exact h.elim (fun h => absurd (congrArg (bkey serial) h.symm) hk) (fun h => h b hb)

theorem endRelaunch_block {s : State} {serial n m : Nat} {b : Block} (hb : s.block serial n = some b) :
    ∃ b', (endRelaunch s serial m).block serial n = some b' ∧ { b' with relaunchable := b.relaunchable } = b := by
  by_cases hk : bkey serial n = bkey serial m
  · refine ⟨{ b with relaunchable := false }, ?_, rfl⟩
    rw [State.block, hk]
    refine (tfind_tmod_same _ _ _).trans ?_
    rw [← hk]
    exact congrArg _ hb
  · exact ⟨b, (tfind_tmod_other _ _ hk).trans hb, rfl⟩

theorem foldl_endRelaunch (serial : Nat) (ns : List Nat) (s : State) : let u := ns.foldl (fun s n => endRelaunch s serial n) s
    { u with blocks := s.blocks } = s ∧ (∀ n, n ∈ ns ∨ s.spent serial n → u.spent serial n) ∧
      ∀ n b, s.block serial n = some b → ∃ b', u.block serial n = some b' ∧ { b' with relaunchable := b.relaunchable } = b := by
  induction ns generalizing s with
  | nil => exact ⟨rfl, fun n h => h.resolve_left nofun, fun n b hb => ⟨b, hb, rfl⟩⟩
  | cons m ns ih =>
    obtain ⟨hrest, hspent, hblock⟩ := ih (endRelaunch s serial m)
    refine ⟨congrArg (fun v : State => { v with blocks := s.blocks }) hrest, fun n h => hspent n ?_, fun n b hb => ?_⟩
    · rcases h with h | h
      · exact (List.mem_cons.mp h).elim (fun h => .inr (spent_endRelaunch (.inl h.symm))) .inl
      · exact .inr (spent_endRelaunch (.inr h))
    · obtain ⟨b1, hb1, hsame⟩ := endRelaunch_block (m := m) hb
      obtain ⟨b2, hb2, hsame2⟩ := hblock n b1 hb1
      refine ⟨b2, hb2, ?_⟩
      rw [← hsame2] at hsame
      exact hsame

/-- The publication that closes a store set as it stands. -/
def closing (s : State) (id : WaveId) (key core pc : Nat) (claim : Option (Nat × Nat × BitVec 64)) : Pub :=
  { id := s.seq, serial := id.serial, key := key, core := core, block := id.block,
    wave := if pc = noPc then 255 else ((s.wave id).map (waveNo id)).getD id.wave, engine := ((s.wave id).map Wave.engine).getD 0,
    pc := pc, set := tget {} s.sets key, claim := claim }

/-- The store set of the key holds nothing. -/
def State.setEmpty (s : State) (key : Nat) : Prop := (tget {} s.sets key).bytes = [] ∧ (tget {} s.sets key).redgs = []

theorem publishSet_of_empty {s : State} {key : Nat} (h : s.setEmpty key) (id : WaveId) (core pc : Nat) :
    publishSet s id key core pc none = (addPhase s id.serial id.block, (pubsOf s key).getLast?.map (fun p => p.id)) := by
  have hcond : ((tget {} (addPhase s id.serial id.block).sets key).bytes.isEmpty && (tget {} (addPhase s id.serial id.block).sets key).redgs.isEmpty &&
      (none : Option (Nat × Nat × BitVec 64)).isNone) = true := by
    show ((tget {} s.sets key).bytes.isEmpty && (tget {} s.sets key).redgs.isEmpty && true) = true
    rw [h.1, h.2]
    rfl
  exact if_pos hcond

theorem publishSet_of_nonempty {s : State} {key : Nat} (h : ¬ s.setEmpty key) (id : WaveId) (core pc : Nat) :
    publishSet s id key core pc none =
      ({ (tget {} s.sets key).blocks.foldl (fun u n => endRelaunch u id.serial n) (addPhase s id.serial id.block) with
          seq := s.seq + 1, sets := tdel s.sets key, pubs := s.pubs ++ [closing s id key core pc none] }, some s.seq) := by
  have hcond : ¬ ((tget {} (addPhase s id.serial id.block).sets key).bytes.isEmpty && (tget {} (addPhase s id.serial id.block).sets key).redgs.isEmpty &&
      (none : Option (Nat × Nat × BitVec 64)).isNone) = true := by
    show ¬ ((tget {} s.sets key).bytes.isEmpty && (tget {} s.sets key).redgs.isEmpty && true) = true
    simpa [State.setEmpty] using h
  exact if_neg hcond

/-- What a publication leaves of the machine: one more det phase of the block, and where its set is not empty the publication that closes it. -/
theorem publishSet_spec {s : State} {id : WaveId} {b : Block} (hb : s.block id.serial id.block = some b) (key core pc : Nat) :
    let t := (publishSet s id key core pc none).1
    (∃ b', t.block id.serial id.block = some b' ∧ { b' with relaunchable := b.relaunchable } = { b with phase := b.phase + 1 }) ∧
      (s.setEmpty key → t.pubs = s.pubs ∧ t.sets = s.sets) ∧
      (¬ s.setEmpty key → t.pubs = s.pubs ++ [closing s id key core pc none] ∧ t.sets = tdel s.sets key ∧
        ∀ n ∈ (tget {} s.sets key).blocks, t.spent id.serial n) ∧
      { t with blocks := s.blocks, pubs := s.pubs, sets := s.sets, seq := s.seq } = s := by
  have hphase : (addPhase s id.serial id.block).block id.serial id.block = some { b with phase := b.phase + 1 } :=
    (tfind_tmod_same _ _ _).trans (congrArg _ hb)
  by_cases h : s.setEmpty key
  · rw [publishSet_of_empty h]
    exact ⟨⟨_, hphase, rfl⟩, fun _ => ⟨rfl, rfl⟩, fun hn => absurd h hn, rfl⟩
  · rw [publishSet_of_nonempty h]
    obtain ⟨hrest, hspent, hblock⟩ := foldl_endRelaunch id.serial (tget {} s.sets key).blocks (addPhase s id.serial id.block)
    exact ⟨hblock _ _ hphase, fun he => absurd he h, fun _ => ⟨rfl, rfl, fun n hn => hspent n (.inl hn)⟩,
      congrArg (fun v : State => { v with blocks := s.blocks, pubs := s.pubs, sets := s.sets, seq := s.seq }) hrest⟩

/-! ### A publishing word (R188, R208) -/

theorem otherWaves.trans {s t u : State} {id : WaveId} (h : otherWaves s t id) (h' : otherWaves t u id) : otherWaves s u id :=
  fun k hk => (h' k hk).trans (h k hk)

/-- What a publishing word leaves of the machine, its path apart: its wave's stores are in the set, which the publication closes. -/
structure Ctx.publishes (c : Ctx) (s t : State) : Prop where
  wave : t.wave c.id = some c.w.noStgs
  others : otherWaves s t c.id
  block : ∃ b, t.block c.id.serial c.id.block = some b ∧ { b with relaunchable := c.b.relaunchable } = { c.b with phase := c.b.phase + 1 }
  made : ¬ ((setWith s c.id c.key c.w).bytes = [] ∧ (setWith s c.id c.key c.w).redgs = []) → (∃ p, t.pubs = s.pubs ++ [p] ∧ p.id = s.seq ∧
    p.key = c.key ∧ p.set = setWith s c.id c.key c.w ∧ p.serial = c.id.serial ∧ p.block = c.id.block ∧ p.engine = c.w.engine ∧
    p.pc = c.sl.path.pc.toNat ∧ p.at_ = none ∧ p.claim = none ∧ tfind t.sets c.key = none) ∧
    ∀ n ∈ (setWith s c.id c.key c.w).blocks, t.spent c.id.serial n
  none_ : (setWith s c.id c.key c.w).bytes = [] → (setWith s c.id c.key c.w).redgs = [] → t.pubs = s.pubs
  sets : ∀ k, k ≠ c.key → tfind t.sets k = tfind s.sets k
  rest : { t with waves := s.waves, blocks := s.blocks, pubs := s.pubs, sets := s.sets, seq := s.seq } = s

theorem publish_publishes {s : State} {c : Ctx} (hw : s.wave c.id = some c.w) (hb : s.block c.id.serial c.id.block = some c.b) :
    c.publishes s (c.publish s none).1 := by
  obtain ⟨hwave, hothers, hset, hsets, hrest⟩ := enterStgs_spec hw c.key
  set u := enterStgs s c.id c.key
  have hbu : u.block c.id.serial c.id.block = some c.b := (congrArg (fun v : State => v.block c.id.serial c.id.block) hrest :).trans hb
  obtain ⟨hblock, hempty, hmade, hleft⟩ := publishSet_spec hbu c.key c.b.core c.sl.path.pc.toNat
  have hpubs : u.pubs = s.pubs := (congrArg State.pubs hrest :)
  have hseq : u.seq = s.seq := (congrArg State.seq hrest :)
  have hcond : u.setEmpty c.key ↔ (setWith s c.id c.key c.w).bytes = [] ∧ (setWith s c.id c.key c.w).redgs = [] := by
    rw [State.setEmpty, hset]
  set t := (publishSet u c.id c.key c.b.core c.sl.path.pc.toNat none).1
  have hwaves : t.waves = u.waves := (congrArg State.waves hleft :)
  have hengine : (u.wave c.id).map Wave.engine = some c.w.engine := by rw [hwave]; rfl
  refine ⟨(congrArg (tfind · (wkey c.id)) hwaves).trans hwave, hothers.trans fun k _ => congrArg (tfind · k) hwaves, hblock, fun hn => ?_,
    fun hx hr => (hempty (hcond.mpr ⟨hx, hr⟩)).1.trans hpubs, fun k hk => ?_, ?_⟩
  · obtain ⟨hp, hs, hspent⟩ := hmade (mt hcond.mp hn)
    rw [hset] at hspent
    refine ⟨⟨_, hp.trans (by rw [hpubs]), hseq, rfl, hset, rfl, rfl, ?_, rfl, rfl, rfl, ?_⟩, hspent⟩
    · show ((u.wave c.id).map Wave.engine).getD 0 = _
      rw [hengine]
      rfl
    · exact (congrArg (tfind · c.key) hs).trans (tfind_tdel_same _ _)
  · by_cases hx : u.setEmpty c.key
    · exact (congrArg (tfind · k) (hempty hx).2).trans (hsets k hk)
    · exact (congrArg (tfind · k) (hmade hx).2.1).trans ((tfind_tdel_other _ hk).trans (hsets k hk))
  · exact (congrArg (fun v : State => { v with waves := s.waves, blocks := s.blocks, pubs := s.pubs, sets := s.sets, seq := s.seq }) hleft :).trans
      (congrArg (fun v : State => { v with blocks := s.blocks, pubs := s.pubs, seq := s.seq }) hrest :)

/-! ### A view started, or held (R199, R208) -/

/-- The words of a wave that starts a view order its later requests to home (R202). -/
def Wave.ordering (w : Wave) (tick : Nat) : Wave := { w with barrier := tick }

/-- `t` has a new view, which waits for the publications that `s` has of its key. -/
def Ctx.viewed (c : Ctx) (s t : State) : Prop :=
  ∃ v, tfind t.views c.key = some v ∧ v.seen = [] ∧ v.from_ = [] ∧ v.needs = (s.pubs.filter (fun p => p.key == c.key)).map (fun p => p.id) ∧
    v.start = max (max (tget {} s.views c.key).start c.w.homePt) (tget 0 s.pubPt c.key) ∧ ∀ k, k ≠ c.key → tfind t.views k = tfind s.views k

theorem newView_viewed {s : State} {c : Ctx} {w : Wave} (hw : s.wave c.id = some w) (hh : w.homePt = c.w.homePt) : c.viewed s (c.newView s 0) := by
  rw [← newView_homePt hw hh]
  exact ⟨_, tfind_tput_same _ _ _, rfl, rfl, rfl, by rw [Nat.max_zero], fun k hk => tfind_tput_other _ _ hk⟩

section
variable {s : State} {c : Ctx} {w : Wave} (hw : s.wave c.id = some w) (hh : w.homePt = c.w.homePt)
include hw hh

/-- The words that a view waits for are performed: it starts. -/
theorem view_of_clear (hcl : c.clear s s.tick = true) : let t := c.view s
    t.wave c.id = some ((w.ordering s.tick).advance c.slotB) ∧ c.viewed s t := by
  have hbar : c.bar s = s.setWave c.id (w.ordering s.tick) := modWave_of hw _
  have hview : c.viewed (c.bar s) (c.newView (c.bar s) 0) := newView_viewed (w := w.ordering s.tick) (by rw [hbar, wave_setWave]) hh
  have ht : c.view s = c.done (c.newView (c.bar s) 0) (fun w => w) := if_pos hcl
  have hwaves : (c.view s).waves = (s.setWave c.id ((w.ordering s.tick).advance c.slotB)).waves := by
    rw [ht, hbar]
    exact (congrArg State.waves (modWave_setWave s c.id (w.ordering s.tick) (fun w => w.advance c.slotB)) :)
  refine ⟨(congrArg (tfind · (wkey c.id)) hwaves).trans (wave_setWave _ _ _), ?_⟩
  rw [ht]
  exact hview

omit hh in
/-- They are not: the path is held until they are. -/
theorem view_of_not_clear (hcl : ¬ c.clear s s.tick = true) :
    c.view s = s.setWave c.id ((w.ordering s.tick).setSlot c.slotB (some { c.sl with hold := .view, since := s.tick })) := by
  have hbar : c.bar s = s.setWave c.id (w.ordering s.tick) := modWave_of hw _
  have ht : c.view s = c.holdView (c.bar s) := if_neg hcl
  rw [ht, hbar, Ctx.holdView, modWave_setWave]
  rfl
end

/-- A view started or held changes the wave and the views alone. -/
theorem view_rest (c : Ctx) (s : State) : otherWaves s (c.view s) c.id ∧ { c.view s with waves := s.waves, views := s.views } = s := by
  unfold Ctx.view
  dsimp only
  split
  · exact ⟨fun k hk => (tfind_tmod_other _ _ hk).trans (tfind_tmod_other _ _ hk), rfl⟩
  · exact ⟨fun k hk => (tfind_tmod_other _ _ hk).trans (tfind_tmod_other _ _ hk), rfl⟩

theorem view_pubs (c : Ctx) (s : State) : (c.view s).pubs = s.pubs ∧ (c.view s).farReds = s.farReds := by
  unfold Ctx.view
  dsimp only
  split <;> exact ⟨rfl, rfl⟩

theorem advance_ordering (w : Wave) (rs : List Req) (n : Nat) (b : Bool) : let u := (({ w with reqs := rs } : Wave).ordering n).advance b
    u.barrier = n ∧ u.reqs = rs ∧ { u with reqs := w.reqs, barrier := w.barrier } = w.advance b := by
  cases b <;> exact ⟨rfl, rfl, rfl⟩

theorem setSlot_ordering (w : Wave) (rs : List Req) (n : Nat) (b : Bool) (x : Option Slot) :
    let u := (({ w with reqs := rs } : Wave).ordering n).setSlot b x
    u.barrier = n ∧ u.reqs = rs ∧ u.slot b = x ∧ u.slot (!b) = w.slot (!b) ∧
      { u with reqs := w.reqs, barrier := w.barrier, a := w.a, b := w.b } = w := by
  cases b <;> exact ⟨rfl, rfl, rfl, rfl, rfl⟩

/-- Settles O23: what a publishing word leaves, and a view started or held in the state that it leaves. -/
theorem orderingWords : Obligations.OrderingWords := by
  intro s c h hc key x rest clear redgs past held published viewed ordered
  obtain ⟨hw, hb, -, -⟩ := issuer_spec hc
  have hpub := publish_publishes hw hb
  set u := (c.publish s none).1
  have hpublished : ∀ {t : State}, otherWaves u t c.id → t.blocks = u.blocks → t.pubs = u.pubs → t.sets = u.sets → published t := by
    intro t hothers hblocks hpubs hsets
    have hblock : ∀ n, t.block c.id.serial n = u.block c.id.serial n := fun n => congrArg (tfind · _) hblocks
    refine ⟨hpub.others.trans hothers, by rw [hblock]; exact hpub.block, fun hne => ?_, fun hx hr => hpubs.trans (hpub.none_ hx hr),
      by rw [hsets]; exact hpub.sets⟩
    obtain ⟨⟨p, hp, -, hp'⟩, hspent⟩ := hpub.made (not_and_or.mpr hne)
    rw [hpubs, hsets]
    exact ⟨⟨p, hp, hp'⟩, fun n hn b hb => hspent n hn b ((hblock n).symm.trans hb)⟩
  have hordered : ∀ {v : State} {rs : List Req}, v.wave c.id = some { c.w with reqs := rs } → v.tick = s.tick → v.views = s.views →
      v.pubPt = s.pubPt → ordered (c.view v) rs := by
    intro v rs hv htick hviews hpt
    obtain ⟨hpubs, hfar⟩ := view_pubs c v
    have hstep : c.clear v v.tick = true ↔ clear ∧ ¬ redgs (c.view v) := by
      rw [clear_iff, redgWaits_iff, viewClear_iff, htick, ← hpubs, ← hfar]
    by_cases hcl : c.clear v v.tick = true
    · obtain ⟨hwave, hview⟩ := view_of_clear hv rfl hcl
      rw [htick] at hwave
      obtain ⟨hbarrier, hreqs, hpast⟩ := advance_ordering c.w rs s.tick c.slotB
      refine ⟨_, hwave, hbarrier, fun _ => ⟨⟨hreqs, hpast⟩, ?_⟩, fun hn => absurd (hstep.mp hcl) hn⟩
      rw [Ctx.viewed, hviews, hpt, ← hpubs] at hview
      obtain ⟨y, hy, hseen, hfrom, hneeds, hstart, hkeys⟩ := hview
      exact ⟨y, hy, hseen, hfrom, hneeds, hstart, hkeys⟩
    · have ht := view_of_not_clear hv hcl
      obtain ⟨hbarrier, hreqs, hslot, hother, hrest⟩ :=
        setSlot_ordering c.w rs s.tick c.slotB (some { c.sl with hold := .view, since := s.tick })
      rw [htick] at ht
      refine ⟨_, (congrArg (fun t : State => t.wave c.id) ht).trans (wave_setWave _ _ _), hbarrier, fun hy => absurd (hstep.mpr hy) hcl,
        fun _ => ⟨⟨hreqs, hslot, hother, hrest⟩, (congrArg State.views ht).trans hviews⟩⟩
  refine ⟨fun ha => ?passes, fun ha => ⟨?publ, ?rfsh, ?phase⟩⟩
  case passes =>
    refine ⟨passes_of hc ?_, passes_of hc ?_, passes_of hc ?_⟩
    · show execPubl h s = _
      simp [execPubl, issue_of hc, ha]
    · show execRfsh h s = _
      simp [execRfsh, issue_of hc, ha]
    · show execPhase h s = _
      simp [execPhase, issue_of hc, ha]
  case publ =>
    have he : exec (.publ h) s = .next (c.done u id) := by
      show execPubl h s = _
      simp [execPubl, issue_of hc, ha, u]
    have hdone : c.done u id = u.setWave c.id (c.w.noStgs.advance c.slotB) := modWave_of hpub.wave _
    refine ⟨_, he.trans (congrArg _ hdone), hpublished (otherWaves_put _ _ _ _ rfl) rfl rfl rfl, ⟨_, wave_setWave _ _ _, ?_⟩, ?_⟩
    · exact advance_ordering c.w rest c.w.barrier c.slotB
    · exact (congrArg (fun v : State => { v with waves := s.waves }) hpub.rest :)
  case rfsh =>
    have he : exec (.rfsh h) s = .next (c.view s) := by
      show execRfsh h s = _
      simp [execRfsh, issue_of hc, ha]
    obtain ⟨hothers, hrest⟩ := view_rest c s
    exact ⟨_, he, hordered hw rfl rfl rfl, hothers, hrest⟩
  case phase =>
    have he : exec (.phase h) s = .next (c.view u) := by
      show execPhase h s = _
      simp [execPhase, issue_of hc, ha, u]
    obtain ⟨hothers, hrest⟩ := view_rest c u
    have hrest' := hpub.rest
    refine ⟨_, he, hpublished hothers (congrArg State.blocks hrest :) (congrArg State.pubs hrest :) (congrArg State.sets hrest :),
      hordered hpub.wave (congrArg State.tick hrest' :) (congrArg State.views hrest' :) (congrArg State.pubPt hrest' :), ?_⟩
    exact (congrArg (fun v : State => { v with
      waves := s.waves, blocks := s.blocks, pubs := s.pubs, sets := s.sets, seq := s.seq, views := s.views }) hrest :).trans
      (congrArg (fun v : State => { v with views := s.views }) hrest' :)

end Sys2Proof.Machine
end

section
/-! PROOF. Arrivals (R206, R213, R216, R218): `RVARR` sends one; ARRIVAL_AT_POINT takes it through the steps of a release, to its point. -/

namespace Sys2Proof.Machine

/-! ### The test of a point (R211, R216) -/

theorem test_of_err {p : Point} (h : p.err ≠ 0) : p.test = { p with arr := p.exp, pend := 0 } := if_pos (bne_iff_ne.mpr h)

theorem test_of_full {p : Point} (h : p.err = 0) (hf : p.arr = 0 ∧ p.pend = 0) : p.test = p.complete := by
  simp [Point.test, h, hf.1, hf.2]

theorem test_of_open {p : Point} (h : p.err = 0) (hf : ¬ (p.arr = 0 ∧ p.pend = 0)) : p.test = p := by
  simpa [Point.test, h] using fun ha hp => absurd ⟨ha, hp⟩ hf

theorem test_err_exp (p : Point) : p.test.err = p.err ∧ p.test.exp = p.exp := by
  unfold Point.test
  split_ifs <;> exact ⟨rfl, rfl⟩

/-! ### An arrival that reaches its point (R218) -/

section
variable {s : State} {c : Ctx} (hc : s.ctxAt c.id c.slotB = some c) {a : Arr} (hs : a.p.serial = c.id.serial) (hb : a.p.block = c.id.block) (k : Nat)

/-- What the point of an arrival is once it has been counted, before the test. -/
def Arr.countedAt (a : Arr) (s : State) (key : Nat) : Point :=
  { getPoint s a.p with
    arr := (getPoint s a.p).arr - BitVec.ofNat 16 a.n
    rel := if a.rlx || a.scope == .block then (getPoint s a.p).rel else max (getPoint s a.p).rel (tget 0 s.pubPt key)
    clk := joinClock (getPoint s a.p).clk a.clock }

/-- The wave once its arrival has been counted in phase `ph`. -/
def Wave.arrived (w : Wave) (k : Nat) (a : Arr) (ph : Bool) : Wave :=
  ({ w with arrs := w.arrs.eraseIdx k, watch := tput w.watch a.watchIx ph } : Wave).pendWrite a.tag [.s a.dst (if ph then 1 else 0)] true

include hc in
theorem reachPoint_of_le (h : a.n ≤ (getPoint s a.p).arr.toNat) : reachPoint s c.id c.w c.b k a =
    let t := (setPoint s a.p (a.countedAt s c.key).test).setWave c.id (c.w.arrived k a (getPoint s a.p).ph)
    if a.p.cohort.isSome then endRelaunch t c.id.serial c.id.block else t := by
  obtain ⟨-, -, -, -, hl, -⟩ := ctxAt_spec hc
  rw [reachPoint, if_neg (Nat.not_lt.mpr h), hl]
  rfl

theorem arrived_spec (w : Wave) (a : Arr) (ph : Bool) : let u := w.arrived k a ph
    { u with arrs := w.arrs, pend := w.pend, watch := w.watch } = w ∧ u.arrs = w.arrs.eraseIdx k ∧ tget false u.watch a.watchIx = ph ∧
      u.pend = w.pend.map (fun p => if p.tag = a.tag then
        { p with writes := p.writes ++ [.s a.dst (if ph = true then 1 else 0)], ready := true } else p) := by
  refine ⟨rfl, rfl, tget_tput_same _ _ _ _, ?_⟩
  simp only [Wave.arrived, Wave.pendWrite, Bool.or_true]

theorem setPoint_rest (s : State) (r : PointRef) (p : Point) : { setPoint s r p with blocks := s.blocks, launches := s.launches } = s := by
  unfold setPoint
  split <;> rfl

include hc hs hb in
/-- The point counts the arrival and is tested; the wave has the phase that it arrived in. -/
theorem reachPoint_counts (h : a.n ≤ (getPoint s a.p).arr.toNat) : let t := reachPoint s c.id c.w c.b k a
    getPoint t a.p = (a.countedAt s c.key).test ∧ t.wave c.id = some (c.w.arrived k a (getPoint s a.p).ph) ∧ otherWaves s t c.id ∧
      { t with waves := s.waves, blocks := s.blocks, launches := s.launches } = s := by
  obtain ⟨-, -, -, hblock, hl, -⟩ := ctxAt_spec hc
  have hpoint : getPoint (setPoint s a.p (a.countedAt s c.key).test) a.p = (a.countedAt s c.key).test :=
    getPoint_setPoint (by rw [hs, hb]; exact hblock) (by rw [hs]; exact hl) _
  have hwaves := (setPoint_spec hl a.p (a.countedAt s c.key).test).1
  have hrest := setPoint_rest s a.p (a.countedAt s c.key).test
  set u := setPoint s a.p (a.countedAt s c.key).test
  set w := c.w.arrived k a (getPoint s a.p).ph
  have hothers : otherWaves s (u.setWave c.id w) c.id := otherWaves_put _ _ w _ (by rw [State.setWave, hwaves])
  have hlast : { u.setWave c.id w with waves := s.waves, blocks := s.blocks, launches := s.launches } = s :=
    (congrArg (fun v : State => { v with waves := s.waves }) hrest :)
  rw [reachPoint_of_le hc k h]
  dsimp only
  split
  next hcohort =>
    obtain ⟨e, he⟩ := Option.isSome_iff_exists.mp hcohort
    refine ⟨?_, wave_setWave u c.id w, hothers, hlast⟩
    refine Eq.trans ?_ hpoint
    simp only [getPoint, he]
    rfl
  next => exact ⟨hpoint, wave_setWave u c.id w, hothers, hlast⟩

theorem reachPoint_of_lt (h : (getPoint s a.p).arr.toNat < a.n) : ∃ tr, tr.code = cLIMIT ∧ tr.construct = kARRIVE ∧ tr.pc = a.pc.toNat ∧
    tr.value = BitVec.ofNat 64 (getPoint s a.p).exp.toNat ∧
    reachPoint s c.id c.w c.b k a = addTrap (s.setWave c.id { c.w with arrs := c.w.arrs.eraseIdx k }) c.id.serial tr :=
  ⟨_, rfl, rfl, rfl, rfl, if_pos h⟩
end

/-- The publication step of a release (R213): the arrival then waits for it, or has nothing to wait for. -/
def Ctx.releases (c : Ctx) (s : State) (k : Nat) (a : Arr) : State :=
  let r := publishSet s c.id c.key c.b.core a.pc.toNat none
  let a' := { a with published := true, pub := r.2, clock := releaseClock r.1 c.id.serial c.id.block }
  let w := { c.w with arrs := c.w.arrs.set k a' }
  if (waitPub r.1 r.2 = true ∧ redgWaits r.1 c.id c.key a.seq = false) ∧ (a.scope != .system) = true then reachPoint r.1 c.id w c.b k a'
  else r.1.setWave c.id w

theorem exec_arrivalAtPoint {s : State} {c : Ctx} (hc : s.ctxAt c.id c.slotB = some c) {a : Arr} {k : Nat} (ha : c.w.arrs[k]? = some a) (ok : Bool) :
    exec (.arrivalAtPoint c.id ⟨k, ok⟩) s = .next (
      if a.rlx = true then reachPoint s c.id c.w c.b k a
      else if a.published = false then
        if relClear c.w a.seq = false then s
        else if a.scope = .block ∧ redgWaits s c.id c.key a.seq = true then s
        else if a.scope = .block then reachPoint s c.id c.w c.b k { a with clock := releaseClock s c.id.serial c.id.block }
        else c.releases s k a
      else if waitPub s a.pub = false ∨ redgWaits s c.id c.key a.seq = true then s
      else if a.scope = .system ∧ ok = false then flushFails s c.id c.w c.b c.l k a
      else reachPoint s c.id c.w c.b k a) := by
  obtain ⟨-, -, hw, hb, hl, -⟩ := ctxAt_spec hc
  show execArrivalAtPoint c.id ⟨k, ok⟩ s = _
  unfold execArrivalAtPoint
  simp only [hw, hb, hl, ha, ← apply_ite Host.Outcome.next, Bool.not_eq_true', Bool.and_eq_true, beq_iff_eq, Bool.or_eq_true]
  rfl

/-- The publication of a set that holds stores is not performed as it is made. -/
theorem waitPub_closing {s t : State} {p : Pub} (hp : t.pubs = s.pubs ++ [p]) (hfresh : ∀ q ∈ s.pubs, q.id ≠ p.id) (hat : p.at_ = none)
    (hset : p.set.bytes ≠ []) : waitPub t (some p.id) = false := by
  have hfind : t.pubs.find? (fun q => q.id == p.id) = some p := by
    rw [hp, List.find?_append, List.find?_eq_none.mpr fun q hq => by simpa using hfresh q hq]
    simp
  have hbytes : p.set.bytes.isEmpty = false := by simpa using hset
  simp only [waitPub, pubPerformed, hfind, hat, hbytes, Option.isSome_none, Bool.false_and, Bool.or_false]

/-- R213: the set that the arrival releases is closed by a publication, for which the arrival then waits. -/
theorem releases_waits {s : State} {c : Ctx} {a : Arr} (k : Nat)
    (hset : (tget {} s.sets c.key).bytes ≠ []) (hfresh : ∀ q ∈ s.pubs, q.id ≠ s.seq) : ∃ a', c.releases s k a =
      (publishSet s c.id c.key c.b.core a.pc.toNat none).1.setWave c.id { c.w with arrs := c.w.arrs.set k a' } ∧
      a'.published = true ∧ a'.pub = some s.seq ∧ { a' with published := a.published, pub := a.pub, clock := a.clock } = a := by
  have hne : ¬ s.setEmpty c.key := fun h => hset h.1
  have hpubs := congrArg (fun r => r.1.pubs) (publishSet_of_nonempty hne c.id c.b.core a.pc.toNat)
  have hnum := congrArg Prod.snd (publishSet_of_nonempty hne c.id c.b.core a.pc.toNat)
  have hwait := waitPub_closing hpubs hfresh rfl hset
  refine ⟨_, if_neg ?_, rfl, hnum, rfl⟩
  rintro ⟨⟨h, -⟩, -⟩
  rw [hnum] at h
  exact absurd (h.symm.trans hwait) Bool.false_ne_true.symm

/-! ### An arrival sent, and its traps -/

/-- The arrival that `RVARR` sends. -/
def Ctx.arrival (c : Ctx) (s : State) (p : PointRef) (n dst : Nat) (rlx : Bool) (sc : Scope) : Arr :=
  { seq := s.tick, tag := s.tick, pc := c.sl.path.pc, p := p, n := n, dst := dst, rlx := rlx, scope := sc, published := false, pub := none,
    watchIx := watchIx p, clock := [] }

/-- The wave with an arrival more under way, whose result the scoreboard holds. -/
def Wave.sends (w : Wave) (a : Arr) : Wave :=
  addPend { w with arrs := w.arrs ++ [a] } { tag := a.tag, kind := .other, dst := [.s a.dst], writes := [], ready := false }

theorem exec_rvarr {s : State} {c : Ctx} (hc : s.issuer = some c) {h : Hdr} (ha : c.any h = true) {pt : BitVec 8} {p : PointRef}
    (hp : pointOf c.l c.id pt = some p) (d : BitVec 6) (rlx : Bool) (sc : Scope) (n : BitVec 8) : exec (.rvarr h pt d rlx sc n) s =
      .next (s.setWave c.id ((c.w.sends (c.arrival s p n.toNat d.toNat rlx sc)).advance c.slotB)) := by
  show execRvarr h pt d rlx sc n s = _
  simp only [execRvarr, pointWord, issue_of hc, ha, hp, Bool.not_true, Bool.false_eq_true, if_false, done_of hc]
  rfl

theorem advance_sends (w : Wave) (a : Arr) (b : Bool) : let u := (w.sends a).advance b
    { u with arrs := w.arrs, pend := w.pend } = w.advance b ∧
      u.pend = w.pend ++ [{ tag := a.tag, kind := .other, dst := [.s a.dst], writes := [], ready := false }] ∧ u.arrs = w.arrs ++ [a] := by
  cases b <;> exact ⟨rfl, rfl, rfl⟩

/-- A trap that ends a wave's arrival: the launch has it, the wave is without the arrival, and no point differs. -/
theorem addTrap_arrival {s : State} {id : WaveId} {l : Launch} (hl : s.launch id.serial = some l) (w : Wave) (tr : Trap) (r : PointRef) :
    let t := addTrap (s.setWave id w) id.serial tr
    t.launch id.serial = some { l with traps := l.traps ++ [tr] } ∧ t.wave id = some w ∧ getPoint t r = getPoint s r := by
  refine ⟨addTrap_launch (s := s.setWave id w) hl tr, ?_, ?_⟩
  · have hwaves := (congrArg State.waves (addTrap_rest (s.setWave id w) id.serial tr) :)
    exact (congrArg (tfind · (wkey id)) hwaves).trans (wave_setWave _ _ _)
  · unfold addTrap recordTrap
    refine (getPoint_modLaunch (f := fun l => { l with traps := l.traps ++ [tr] }) (fun _ => rfl) (fun _ => rfl) r).trans ?_
    split_ifs <;> rfl

/-- Settles O26: where the step finds an arrival decides what it does with it; what a point counts, and what a publication leaves, is
said once above. -/
theorem arrivals : Obligations.Arrivals := by
  intro s c h pt d rlx sc n k a ok
  refine ⟨fun hc ha => ?passes, fun hc ha p hp => ?sends, fun hc ha hp => ?noTeam, fun hc ha hs hb => ?step⟩
  case passes =>
    refine passes_of hc ?_
    show execRvarr h pt d rlx sc n s = _
    simp [execRvarr, pointWord, issue_of hc, ha]
  case sends =>
    obtain ⟨hrest, hpend, harrs⟩ := advance_sends c.w (c.arrival s p n.toNat d.toNat rlx sc) c.slotB
    exact ⟨_, exec_rvarr hc ha hp d rlx sc n, hrest, hpend, _, harrs, rfl, rfl, rfl, rfl, rfl, rfl, rfl, rfl, rfl⟩
  case noTeam =>
    refine ⟨raiseWave c s cRESERVED 0, ?_, raise_trapped hc _ _ _ _ _⟩
    show execRvarr h pt d rlx sc n s = _
    simp [execRvarr, pointWord, issue_of hc, ha, hp]
  case step =>
    intro acted done
    obtain ⟨-, -, -, hblock, hl, -⟩ := ctxAt_spec hc
    have he := exec_arrivalAtPoint hc ha ok
    have hacted : ∀ b, acted = b → redgWaits s c.id c.key a.seq = !b := fun b h => by rw [← h, Bool.not_not]
    refine ⟨fun hreach => ?reach, fun hr hd hsys hok => ?flush, fun hr hp hn => ?waits, fun hr hp hn => ?waitsPub, fun hr hp hsc hrel => ?publish⟩
    case reach =>
      obtain ⟨clk, he⟩ : ∃ clk, exec (.arrivalAtPoint c.id ⟨k, ok⟩) s = .next (reachPoint s c.id c.w c.b k { a with clock := clk }) := by
        by_cases hr : a.rlx = true
        · exact ⟨a.clock, he.trans (congrArg _ (if_pos hr))⟩
        rcases hreach with h | ⟨hp, hsc, hrel, hact⟩ | ⟨⟨hp, hw, hact⟩, hsys⟩
        · exact absurd h hr
        · exact ⟨releaseClock s c.id.serial c.id.block, he.trans (by simp [hr, hp, hsc, hrel, hacted _ hact])⟩
        · have hnot : ¬ (a.scope = .system ∧ ok = false) := fun h => absurd (hsys h.1) (by simp [h.2])
          have he' : exec (.arrivalAtPoint c.id ⟨k, ok⟩) s = .next (reachPoint s c.id c.w c.b k a) :=
            he.trans (by simp [hr, hp, hw, hacted _ hact, hnot])
          exact ⟨a.clock, he'⟩
      intro o
      refine ⟨fun hle hn => ⟨_, he, ?counts⟩, fun hlt => ?limit⟩
      case counts =>
        obtain ⟨hpoint, hwave, hothers, hrest⟩ := reachPoint_counts hc (a := { a with clock := clk }) hs hb k hle
        have harr : (o.arr - BitVec.ofNat 16 a.n).toNat = o.arr.toNat - a.n := by
          have hmod : (BitVec.ofNat 16 a.n).toNat = a.n := by rw [BitVec.toNat_ofNat, Nat.mod_eq_of_lt hn]
          rw [BitVec.toNat_sub_of_le (by rw [BitVec.le_def, hmod]; exact hle), hmod]
        set p := Arr.countedAt { a with clock := clk } s c.key with hp
        have hparr : p.arr.toNat = o.arr.toNat - a.n := harr
        obtain ⟨herr, hexp⟩ := test_err_exp p
        intro q full
        have hq : q = p.test := hpoint
        have hfull : (p.arr = 0 ∧ p.pend = 0) ↔ full := by
          refine and_congr_left' ?_
          rw [← BitVec.toNat_inj, hparr]
          show o.arr.toNat - a.n = 0 ↔ _
          have hle' : a.n ≤ o.arr.toNat := hle
          omega
        rw [hq]
        refine ⟨fun h0 hf => ?_, fun h0 hf => ?_, fun h0 => ?_, hexp, herr, ⟨_, hwave, arrived_spec k c.w { a with clock := clk } o.ph⟩, hothers, hrest⟩
        · rw [test_of_full (p := p) h0 (hfull.mpr hf)]
          exact ⟨rfl, rfl, rfl⟩
        · rw [test_of_open (p := p) h0 (mt hfull.mp hf)]
          exact ⟨rfl, harr, rfl⟩
        · rw [test_of_err (p := p) h0]
          exact ⟨rfl, rfl, rfl⟩
      case limit =>
        obtain ⟨tr, hcode, hconstruct, hpc, hvalue, ht⟩ := reachPoint_of_lt (s := s) (c := c) (a := { a with clock := clk }) k hlt
        obtain ⟨hlaunch, hwave, hpoint⟩ := addTrap_arrival hl { c.w with arrs := c.w.arrs.eraseIdx k } tr a.p
        exact ⟨_, he.trans (congrArg _ ht), tr, hlaunch, hwave, hpoint, hcode, hconstruct, hpc, hvalue⟩
    case flush =>
      obtain ⟨hp, hw, hact⟩ := hd
      have he' : exec (.arrivalAtPoint c.id ⟨k, ok⟩) s = .next (flushFails s c.id c.w c.b c.l k a) :=
        he.trans (by simp [hr, hp, hw, hacted _ hact, hsys, hok])
      obtain ⟨hlaunch, hwave, -⟩ := addTrap_arrival hl { c.w with arrs := c.w.arrs.eraseIdx k } _ a.p
      exact ⟨_, he', _, hlaunch, hwave, rfl, rfl, rfl, rfl⟩
    case waits =>
      refine he.trans ?_
      rcases hn with hrel | ⟨hsc, hact⟩
      · simp [hr, hp, hrel]
      · simp [hr, hp, hsc, hacted _ hact]
    case waitsPub =>
      refine he.trans ?_
      rcases hn with hw | hact
      · simp [hr, hp, hw]
      · simp [hr, hp, hacted _ hact]
    case publish =>
      intro x hx hfresh
      have he' : exec (.arrivalAtPoint c.id ⟨k, ok⟩) s = .next (c.releases s k a) := he.trans (by simp [hr, hp, hsc, hrel])
      obtain ⟨a', ht, hpub, hnum, hsame⟩ := releases_waits (a := a) k hx hfresh
      obtain ⟨-, -, hmade, hrest⟩ := publishSet_spec hblock c.key c.b.core a.pc.toNat
      obtain ⟨hpubs, hsets, -⟩ := hmade fun h => hx h.1
      set u := (publishSet s c.id c.key c.b.core a.pc.toNat none).1
      have hwaves : u.waves = s.waves := (congrArg State.waves hrest :)
      exact ⟨_, he'.trans (congrArg _ ht), _, a', hpubs, rfl, rfl, rfl, rfl, (congrArg (tfind · c.key) hsets).trans (tfind_tdel_same _ _), hpub, hnum,
        hsame, wave_setWave _ _ _, otherWaves_put _ _ _ _ (by rw [State.setWave, hwaves]), (congrArg (fun v : State => { v with waves := s.waves }) hrest :)⟩

end Sys2Proof.Machine
end

section
/-! PROOF. A publication performed (R196, R199, R312): the statement on the waves whose staged `REDG` act, against a number that names no wave. -/

namespace Sys2Proof.Machine

/-- A launch of two blocks under the determinism flag. -/
def redgOffer : Offer := { latchOffer with nblock := 2 }

def redgId : WaveId := ⟨1, 1, 0⟩

/-- No wave of block 0 has the number 128: its place in the table of waves is that of wave 0 of block 1. -/
def aliasId : WaveId := ⟨1, 0, 128⟩

theorem wkey_aliasId : wkey aliasId = wkey redgId := by decide

/-- A `REDG.ADD.N32` of one lane of wave 0 of block 1, which adds 1 to the word at device address 0. -/
def stagedRedg : Redg := { id := redgId, seq := 0, op := 0, locs := List.range 4, far := none, ty := .n32, b := 1, addr := 0, pc := 0, wave := 0 }

/-- The publication that carries it, made by its block under the determinism flag (R197, R312). -/
def redgPub : Pub :=
  { id := 0, serial := 1, key := setKey { offer := redgOffer } 0 1 1, core := 0, block := 1, wave := 0, pc := 1,
    set := { blocks := [1], redgs := [stagedRedg] }, claim := none }

/-- The publication is the only one made and not yet performed; no event of the home order has been. -/
def redgState : State :=
  { State.reset with
    launches := [(1, { offer := redgOffer, st := .running })]
    blocks := [(bkey 1 1, loadBlock)]
    waves := [(wkey redgId, loadWave 0)]
    pubs := [redgPub]
    seq := 1 }

/-- The table answers wave 0 of block 1 by either number. -/
theorem wave_aliasId : redgState.wave aliasId = some (loadWave 0) := by
  rw [State.wave, wkey_aliasId]
  exact if_pos rfl

/-- The point of the home order that a wave has reached (R199), after an instruction. -/
def homePtAfter (id : WaveId) : Out → Option Nat
  | .next t => (t.wave id).map (fun w => w.homePt)
  | _ => none

/-- The publication is the first event of the home order and the `REDG` the second: its wave has reached that point, whichever number it is
looked up by. -/
theorem homePtAfter_redgPub : homePtAfter aliasId (exec (.publicationPerform redgPub.id) redgState) = some 2 := by decide

/-- Refutes O24, in its clause on the waves: a wave none of whose `REDG` the publication carries is to stay at its point, and the statement asks
it of every number by which the table answers a wave. Block 0's wave 128 has no `REDG`, yet by that number the table answers wave 0 of block 1,
whose `REDG` acts. The statement does not say that a wave's number is below 128. -/
theorem not_fencesAndPublications : ¬ Obligations.FencesAndPublications := by
  rintro ⟨-, hpub⟩
  obtain ⟨-, hperform⟩ := hpub redgState redgPub rfl rfl (by decide) rfl (fun _ _ h => h)
  have hhome : ∀ r ∈ redgPub.set.redgs, r.far = none ∧ ∀ a ∈ r.locs, badUnit redgState a = false ∧ lockedAt redgState a = false := by
    intro r hr
    cases List.mem_singleton.mp hr
    exact ⟨rfl, by decide⟩
  obtain ⟨t, ht, -, -, -, -, -, -, -, -, -, -, hwaves, -⟩ := hperform nofun hhome
  obtain ⟨n, hn, -, hstays, -⟩ := hwaves aliasId (loadWave 0) wave_aliasId
  have hasked : n = 0 := hstays (by decide)
  have hmodel := homePtAfter_redgPub
  rw [ht, homePtAfter, hn] at hmodel
  exact absurd (hasked.symm.trans (Option.some.inj hmodel)) (by decide)

end Sys2Proof.Machine
end
